-- ==== Sys2Proof/Word.lean ====
section
/-!
DEFINITION. Word.lean: the word types of the Glanith 9400 (R3, R148): bytes, instruction words and 64-bit quantities.
Every multi-byte quantity is little-endian (R3); the helpers over these types stand in Machine/Bits.lean.
-/
namespace Sys2Proof

/-- A byte of memory (a location, R122). -/
abbrev Byte := BitVec 8

/-- An instruction word (R148) and a thread's 32-bit element (R6). -/
abbrev W32 := BitVec 32

/-- A 64-bit register, address or record word. -/
abbrev W64 := BitVec 64

/-- A mask of the eight threads of a strand (R21), bit t for thread t. -/
abbrev TMask := BitVec 8

end Sys2Proof
end

