-- ==== Sys2Proof/Syntax.lean ====
section
/-!
DEFINITION. Syntax.lean: the steps of the Glanith 9400 as one inductive, `Instr`, with one constructor for each row of the
opcode table: the instruction forms of both maps (R148 to R165) and the events that the device performs beside them.
Operands are named as the encodings name them (Tables 9.2 to 9.7, 10.2, 10.3, 11.2 to 11.6, 13.3 to 13.8).
A main-map instruction carries its optional prefix word (R157).
-/
namespace Sys2Proof

/-- Vector element types (Table 4.1), in code order 0..14. -/
inductive ETy where
  | i32 | n32 | f32 | f16x2 | bf16x2 | i16x2 | n16x2 | i8x4 | n8x4 | f64 | i64 | n64 | e4m3x4 | e5m2x4 | dm8x4
deriving DecidableEq, Repr

/-- Rounding modes (Table 4.7), in code order 0..5. -/
inductive RMode where
  | rne | rtz | rup | rdn | rna | rst
deriving DecidableEq, Repr

/-- The repeat part of a prefix (Table 9.6): CNT (repeat count − 1) and the three increment bits. -/
structure Rep where
  cnt  : BitVec 4
  incD : Bool
  incA : Bool
  incB : Bool
deriving DecidableEq, Repr

/-- A legal prefix word (R156): each field is present when its valid bit is set (SAT when it is not 0b00). -/
structure Pfx where
  et  : Option ETy
  rm  : Option RMode
  sat : Option Bool
  rep : Option Rep
deriving DecidableEq, Repr

/-- An operand selector (Table 9.4) with its bank named: 0..63 a v or x register, 64..95 an s register, 96..99 a latch,
100..115 a queue, 116..123 an inline constant, 124 the literal. Selectors 125..127 are no operand (R154). -/
inductive Sel where
  | reg (n : BitVec 6)
  | s (n : BitVec 5)
  | latch (n : BitVec 2)
  | queue (n : BitVec 4)
  | const (n : BitVec 3)
  | lit
deriving DecidableEq, Repr

/-- V3 operands (Table 9.2) of a two-source instruction. -/
structure V3 where
  n : Bool
  d : Sel
  a : Sel
  b : Sel
deriving DecidableEq, Repr

/-- V3 operands of a one-source instruction: B holds 0 (R150). -/
structure V3u where
  n : Bool
  d : Sel
  a : Sel
deriving DecidableEq, Repr

/-- X1 operands (Table 9.3) of a two-source instruction. -/
structure X1 where
  d   : Sel
  a   : Sel
  b   : Sel
  lit : W32
deriving DecidableEq, Repr

/-- X1 operands of a one-source instruction. -/
structure X1u where
  d   : Sel
  a   : Sel
  lit : W32
deriving DecidableEq, Repr

/-- X2 operands of a three-source instruction with FN = 0 and IMM = 0 (Table 10.3). -/
structure X2c where
  d : Sel
  a : Sel
  b : Sel
  c : Sel
deriving DecidableEq, Repr

/-- Comparison conditions (R181, R192), in code order 0..7. -/
inductive Cond where
  | eq | ne | lt | le | gt | ge | ltn | gen
deriving DecidableEq, Repr

/-- Mask numbers (R176): k0..k7 and EM. -/
inductive MNum where
  | k (n : BitVec 3)
  | em
deriving DecidableEq, Repr

/-- KOP functions (Table 10.7), in code order 0..7. -/
inductive KFn where
  | and | or | xor | andn | not | mov | set | clr
deriving DecidableEq, Repr

/-- Reduction functions (Table 10.6), in code order 0..8. -/
inductive RedFn where
  | add | min | max | and | or | xor | fadd | fmin | fmax
deriving DecidableEq, Repr

/-- The operand of SETEM (Table 10.2). -/
inductive SetemArg where
  | k (n : BitVec 3)
  | imm (m : TMask)
deriving DecidableEq, Repr

/-- CVT's fields (R193). `rm` is present when RMV = 1; `sat` follows the prefix codes. -/
structure CvtF where
  d   : Sel
  a   : Sel
  src : ETy
  dst : ETy
  rm  : Option RMode
  sat : Option Bool
deriving DecidableEq, Repr

/-- Shared-access sizes SZ (R211), in code order 0..6. -/
inductive SZ where
  | u8 | s8 | u16 | s16 | u32 | s32 | u64
deriving DecidableEq, Repr

/-- In-flight paths (Table 6.7), in code order 0..3. -/
inductive Path where
  | ldg | ldsh | sto | fab
deriving DecidableEq, Repr

/-- FEQ operations (Table 11.3), in code order 0..2. -/
inductive FeqOp where
  | read | fill | empty
deriving DecidableEq, Repr

/-- Accumulator tile types TT (Table 13.5), in code order 0..2. -/
inductive TileTy where
  | fp32 | int32 | fp64
deriving DecidableEq, Repr

/-- Scopes (Table 7.2), in code order 0..3. -/
inductive Scope where
  | wg | core | dev | sys
deriving DecidableEq, Repr

/-- A counter operand (R275): a slot of the workgroup or a global counter named by an s register. -/
inductive Ctr where
  | slot (n : BitVec 6)
  | glob (s : BitVec 5)
deriving DecidableEq, Repr

/-- CARM's action with the register that holds the target (Table 15.1). -/
inductive CarmF where
  | dis
  | notice (sv : BitVec 5)
  | emit (sv rs : BitVec 5)
deriving DecidableEq, Repr

/-- CARM's action in X1 form: the literal is the target. -/
inductive CarmX where
  | notice (lit : W32)
  | emit (lit : W32) (rs : BitVec 5)
deriving DecidableEq, Repr

/-- ATOM operations (R161), in code order 0..7. -/
inductive AOp where
  | add | min | max | and | or | xor | exch | cas
deriving DecidableEq, Repr

/-- ATOMF operations (R161) and fabric reduction operations (Table 9.7), in code order 0..2. -/
inductive FOp where
  | add | min | max
deriving DecidableEq, Repr

/-- FBRED types (Table 9.7), in code order 0..3. -/
inductive RedTy where
  | fp32 | bf16 | fp16 | int32
deriving DecidableEq, Repr

/-- FENCE ordering (R287). -/
inductive FenceF where
  | full | acq | rel
deriving DecidableEq, Repr

/-- The slices a barrier counts (Table 9.7), codes 1..3. -/
inductive BarSl where
  | access | execute | both
deriving DecidableEq, Repr

/-- BRC conditions (Table 9.7), in code order 0..3. -/
inductive BCond where
  | any | all | none | nall
deriving DecidableEq, Repr

/-- Scalar second operand in the 32-bit form (Table 9.7). -/
inductive SOp where
  | reg (s : BitVec 5)
  | imm (i : BitVec 8)
deriving DecidableEq, Repr

/-- SMUL functions (Table 9.8a). -/
inductive SMulFn where
  | lo | his | hiu
deriving DecidableEq, Repr

/-- SLOG functions (Table 9.8a). -/
inductive SLogFn where
  | and | or | xor | andn | not
deriving DecidableEq, Repr

/-- SSHF functions (Table 9.8a). -/
inductive SShfFn where
  | shl | shr | sra | rot
deriving DecidableEq, Repr

/-- SDIV functions (Table 9.8a). -/
inductive SDivFn where
  | qs | qu | rs | ru
deriving DecidableEq, Repr

/-- The special registers of Table 15 (Table 10.15), in number order 0..19. -/
inductive SpecReg where
  | tidx | strand | slice | wgx | wgy | wgz | wglin | gdimx | gdimy | gdimz
  | core | node | taskseq | depth | ctxid | reccnt | recbase | cycle | lease | parent
deriving DecidableEq, Repr

/-- The fields of ATOM (Table 9.7, R283). -/
structure AtomF where
  scope : Scope
  acq   : Bool
  rel   : Bool
  fetch : Bool
  op    : AOp
  bf    : BitVec 6
  w64   : Bool
  uns   : Bool
  xd    : BitVec 5
  xi    : BitVec 5
  xv    : BitVec 5
  xc    : BitVec 5
deriving DecidableEq, Repr

/-- The fields of ATOMF (Table 9.7, R285): `bf16` is W64. -/
structure AtomFF where
  scope : Scope
  acq   : Bool
  rel   : Bool
  fetch : Bool
  op    : FOp
  bf    : BitVec 6
  bf16  : Bool
  xd    : BitVec 5
  xi    : BitVec 5
  xv    : BitVec 5
deriving DecidableEq, Repr

/-- The fields of MLOOP (Table 13.3): `ks` is K-steps − 1. -/
structure MloopF where
  tile  : BitVec 5
  a     : BitVec 5
  b     : BitVec 5
  ks    : BitVec 10
  accum : Bool
  ainc  : BitVec 6
  binc  : BitVec 6
  win   : Bool
  ctr   : BitVec 6
deriving DecidableEq, Repr

/-- CHV and CH (R211): CH is read only when CHV is 1. -/
structure Chan where
  chv : Bool
  ch  : BitVec 10
deriving DecidableEq, Repr

/-- No channel named, the field CH zero: the default of R48. -/
def Chan.unnamed : Chan := ⟨false, 0⟩

/-- A named channel. -/
def Chan.named (c : BitVec 10) : Chan := ⟨true, c⟩

/-- The fields of LDQB (Table 11.5). -/
structure LdqbF where
  q     : BitVec 4
  start : Sel
  cnt   : Sel
  bf    : BitVec 6
  splat : Bool
  mark  : Bool
  sx    : Bool
  ch    : Chan
deriving DecidableEq, Repr

/-- The fields of GATHERQ in list form (Table 11.5). -/
structure GlistF where
  q   : BitVec 4
  pos : Sel
  cnt : Sel
  bf  : BitVec 6
  mark : Bool
  ch  : Chan
  bfl : BitVec 6
deriving DecidableEq, Repr

/-- The fields of NZSCAN (Table 11.6). -/
structure NzscanF where
  sc : BitVec 5
  ss : BitVec 5
  sn : BitVec 5
  bf : BitVec 6
  qi : BitVec 4
  qv : Option (BitVec 4)
  mark : Bool
  sx : Bool
  ch : Chan
deriving DecidableEq, Repr

/-- The fields of TCOPY and TMCAST (Table 13.8). -/
structure TcopyF where
  td   : BitVec 5
  l    : BitVec 3
  ctr  : BitVec 6
  sc   : BitVec 5
  slot : BitVec 6
deriving DecidableEq, Repr

/-- The two slices (R22); RDSPEC SLICE gives 0 access, 1 execute. -/
inductive Slice where
  | access | execute
deriving DecidableEq, Repr

/-- A workgroup's place: its core and the workgroup slot it holds there. -/
structure WgId where
  core : Nat
  slot : Nat
deriving DecidableEq, Repr

/-- A strand: its workgroup, slice and index within the slice (R25). -/
structure StrandId where
  wg    : WgId
  slice : Slice
  idx   : Nat
deriving DecidableEq, Repr

/-- What an ADMIT takes (R315, R318, R337): a launched workgroup, the head of a grid's release list, or a saved workgroup. -/
inductive AdmitSrc where
  | launched (id : Nat)
  | grid (id : Nat)
  | saved (id : Nat)
deriving DecidableEq, Repr

/-- A host MEM access (R394, R395). -/
inductive MemOp where
  | read (n : Nat)
  | write (bs : List Byte)
  | atomicAdd (amount : W64)
deriving DecidableEq, Repr

/-- Fabric packet types (Table 20.1), in code order 0..11. -/
inductive PktTy where
  | read | write | atomic | response | ack | nak | dirreq | dirfwd | dirresp | census | redcontrib | redresult
deriving DecidableEq, Repr

/-- A reduction piece's key (R357): group, sequence and offset. -/
structure RedKey where
  group : Nat
  seq   : Nat
  off   : Nat
deriving DecidableEq, Repr

/-- MOESI states of a COHF line in a device (R361), with I for a line not held. -/
inductive Moesi where
  | m | o | e | s | i
deriving DecidableEq, Repr

/-- Directory requests (Table 20.2). -/
inductive DirReq where
  | gets | getm | putm
deriving DecidableEq, Repr

/-- A device's answer to a census (R364): its state for the line, whether it holds the line as supplied, and its pending
request with whether the data have arrived. -/
structure CensusAns where
  dev      : Nat
  st       : Moesi
  supplied : Bool
  pending  : Option (DirReq × Bool)
deriving DecidableEq, Repr

/-- Messages of the directory (R361 to R364): a request and a requester's DONE, with whether the supplier kept a written copy, to the spine;
from the spine a forward to a supplier, a response with the acknowledgements to await and whether the requester is alone, an invalidation
with the requester whom its acknowledgement is for (none in an eviction or a write-back), a NACK, a confirmation and a census; and between
devices the data, with whether the supplier keeps a written copy, and an acknowledgement. -/
inductive CohMsg where
  | req (r : DirReq)
  | done (kept : Bool)
  | fwd (r : DirReq) (dev : Nat)
  | resp (acks : Nat) (alone : Bool)
  | inv (dev : Option Nat)
  | nack
  | confirm
  | census
  | answer (a : CensusAns)
  | data (kept : Bool)
  | ack
deriving DecidableEq, Repr

/-- A directory message: its line, by device and line number there, and the spine that it passes. -/
structure Coh where
  line  : Nat
  spine : Nat
  msg   : CohMsg
deriving DecidableEq, Repr

/-- The cause of a NAK: REJECT (R346), or a request that the destination cannot serve (R354, R356). -/
inductive NakCause where
  | reject | access
deriving DecidableEq, Repr

/-- A fabric packet (Table 20.1): its header fields and its payload bytes. `tag` is FTAG; `typ` is none for a reserved TYPE. What
the operations need and the header has no field for stands beside it (log 26): `virt` says that ADDR is virtual (bulk), `ctr` is the
counter of a bulk packet (R294), `red` the key, operation and type of a reduction (R357), `coh` a message of the directory, and `nak` the
cause of a NAK. -/
structure Packet where
  addr    : W64
  seq     : BitVec 32
  hops    : BitVec 2
  route   : BitVec 28
  tag     : BitVec 16
  dst     : BitVec 12
  src     : BitVec 12
  plane   : BitVec 8
  typ     : Option PktTy
  len     : BitVec 3
  bytes   : BitVec 9
  payload : List Byte
  virt    : Bool
  ctr     : W64
  red     : Option (RedKey × FOp × RedTy)
  coh     : Option Coh
  nak     : Option NakCause
deriving DecidableEq, Repr

/-- Containment domains (Table 22.6). -/
inductive Domain where
  | core (n : Nat)
  | l2slice (n : Nat)
  | channel (n : Nat)
  | copyUnit (n : Nat)
  | fabricPort (n : Nat)
  | cxlPort (n : Nat)
deriving DecidableEq, Repr

/-- What a debug stop holds (R392): a resident task, or a workgroup held at admission. -/
inductive HaltAt where
  | afterTask (wg : WgId)
  | beforeTask (launched : Nat)
  | beforeGrid (grid : Nat)
deriving DecidableEq, Repr

/-- One constructor for each row of the opcode table: the instruction forms in the table's order, then the words that are no
instruction, the device's events, and last the rows without operands. -/
inductive Instr where
  -- integer and logic (R178 to R181)
  | vadd (p : Option Pfx) (o : V3) | vaddX1 (p : Option Pfx) (o : X1)
  | vsub (p : Option Pfx) (o : V3) | vsubX1 (p : Option Pfx) (o : X1)
  | vmul (p : Option Pfx) (o : V3) | vmulX1 (p : Option Pfx) (o : X1)
  | vmulh (p : Option Pfx) (o : V3) | vmulhX1 (p : Option Pfx) (o : X1)
  | vmad (p : Option Pfx) (o : X2c)
  | vneg (p : Option Pfx) (o : V3u) | vnegX1 (p : Option Pfx) (o : X1u)
  | vabs (p : Option Pfx) (o : V3u) | vabsX1 (p : Option Pfx) (o : X1u)
  | vmin (p : Option Pfx) (o : V3) | vminX1 (p : Option Pfx) (o : X1)
  | vmax (p : Option Pfx) (o : V3) | vmaxX1 (p : Option Pfx) (o : X1)
  | vavg (p : Option Pfx) (o : V3) | vavgX1 (p : Option Pfx) (o : X1)
  | vsad (p : Option Pfx) (o : V3) | vsadX1 (p : Option Pfx) (o : X1)
  | vaddc (p : Option Pfx) (o : V3) | vaddcX1 (p : Option Pfx) (o : X1)
  | vand (p : Option Pfx) (o : V3) | vandX1 (p : Option Pfx) (o : X1)
  | vor (p : Option Pfx) (o : V3) | vorX1 (p : Option Pfx) (o : X1)
  | vxor (p : Option Pfx) (o : V3) | vxorX1 (p : Option Pfx) (o : X1)
  | vnot (p : Option Pfx) (o : V3u) | vnotX1 (p : Option Pfx) (o : X1u)
  | vshl (p : Option Pfx) (o : V3) | vshlX1 (p : Option Pfx) (o : X1)
  | vshr (p : Option Pfx) (o : V3) | vshrX1 (p : Option Pfx) (o : X1)
  | vsra (p : Option Pfx) (o : V3) | vsraX1 (p : Option Pfx) (o : X1)
  | vrot (p : Option Pfx) (o : V3) | vrotX1 (p : Option Pfx) (o : X1)
  | vpopc (p : Option Pfx) (o : V3u) | vclz (p : Option Pfx) (o : V3u) | vbrev (p : Option Pfx) (o : V3u)
  | vbfx (p : Option Pfx) (d a : Sel) (sx : Bool) (pos len : BitVec 6)
  | vbfi (p : Option Pfx) (d a b : Sel) (pos len : BitVec 6)
  | vsel (p : Option Pfx) (d a b : Sel) (k : BitVec 3)
  | vmov (p : Option Pfx) (o : V3u) | vmovX1 (p : Option Pfx) (o : X1u)
  | vdiv (p : Option Pfx) (o : V3) | vdivX1 (p : Option Pfx) (o : X1)
  | vrem (p : Option Pfx) (o : V3) | vremX1 (p : Option Pfx) (o : X1)
  | vcmp (p : Option Pfx) (c : Cond) (k : BitVec 3) (a b : Sel)
  | vcmpX1 (p : Option Pfx) (c : Cond) (k : BitVec 3) (a b : Sel) (lit : W32)
  | vclamp (p : Option Pfx) (o : X2c)
  -- cross-thread (R182, R183)
  | vshuf (p : Option Pfx) (o : V3) | vshufX1 (p : Option Pfx) (o : X1)
  | vbcast (p : Option Pfx) (o : V3) | vbcastX1 (p : Option Pfx) (o : X1)
  | vrott (p : Option Pfx) (o : V3) | vrottX1 (p : Option Pfx) (o : X1)
  | vred (p : Option Pfx) (d a : Sel) (fn : RedFn)
  | vscan (p : Option Pfx) (d a : Sel) (fn : RedFn) (exc : Bool) (seg : Option (BitVec 3))
  | v2s (p : Option Pfx) (n : Bool) (sd : BitVec 5) (a : Sel)
  | vidx (p : Option Pfx) (o : V3)
  -- masks (R184, R185)
  | kop (p : Option Pfx) (fn : KFn) (d a b : MNum)
  | kfroms (p : Option Pfx) (k : BitVec 3) (s : BitVec 5)
  | ktos (p : Option Pfx) (n : Bool) (d : Sel) (m : MNum)
  | kpopc (p : Option Pfx) (n : Bool) (d : Sel) (m : MNum)
  | kffs (p : Option Pfx) (n : Bool) (d : Sel) (m : MNum)
  | setem (p : Option Pfx) (x : SetemArg)
  | emsave (p : Option Pfx) (k : BitVec 3)
  | emrest (p : Option Pfx) (k : BitVec 3)
  -- floating point (R186 to R192)
  | fadd (p : Option Pfx) (o : V3) | faddX1 (p : Option Pfx) (o : X1)
  | fsub (p : Option Pfx) (o : V3) | fsubX1 (p : Option Pfx) (o : X1)
  | fmul (p : Option Pfx) (o : V3) | fmulX1 (p : Option Pfx) (o : X1)
  | fma (p : Option Pfx) (o : X2c)
  | fmac (p : Option Pfx) (o : V3) | fmacX1 (p : Option Pfx) (o : X1)
  | fmin (p : Option Pfx) (o : V3) | fminX1 (p : Option Pfx) (o : X1)
  | fmax (p : Option Pfx) (o : V3) | fmaxX1 (p : Option Pfx) (o : X1)
  | fabs (p : Option Pfx) (o : V3u) | fabsX1 (p : Option Pfx) (o : X1u)
  | fneg (p : Option Pfx) (o : V3u) | fnegX1 (p : Option Pfx) (o : X1u)
  | frcp (p : Option Pfx) (o : V3u) | frcpX1 (p : Option Pfx) (o : X1u)
  | frsq (p : Option Pfx) (o : V3u) | frsqX1 (p : Option Pfx) (o : X1u)
  | fsqrt (p : Option Pfx) (o : V3u) | fsqrtX1 (p : Option Pfx) (o : X1u)
  | fdiv (p : Option Pfx) (o : V3) | fdivX1 (p : Option Pfx) (o : X1)
  | fexp2 (p : Option Pfx) (o : V3u) | fexp2X1 (p : Option Pfx) (o : X1u)
  | flog2 (p : Option Pfx) (o : V3u) | flog2X1 (p : Option Pfx) (o : X1u)
  | fsin (p : Option Pfx) (o : V3u) | fsinX1 (p : Option Pfx) (o : X1u)
  | fcos (p : Option Pfx) (o : V3u) | fcosX1 (p : Option Pfx) (o : X1u)
  | frint (p : Option Pfx) (o : V3u) | frintX1 (p : Option Pfx) (o : X1u)
  | fclass (p : Option Pfx) (o : V3u) | fclassX1 (p : Option Pfx) (o : X1u)
  | fscl (p : Option Pfx) (o : V3) | fsclX1 (p : Option Pfx) (o : X1)
  | fcmp (p : Option Pfx) (c : Cond) (k : BitVec 3) (a b : Sel)
  | fcmpX1 (p : Option Pfx) (c : Cond) (k : BitVec 3) (a b : Sel) (lit : W32)
  | fdot2 (p : Option Pfx) (o : V3) | fdot2X1 (p : Option Pfx) (o : X1)
  | fdot4 (p : Option Pfx) (o : V3) | fdot4X1 (p : Option Pfx) (o : X1)
  | fclamp (p : Option Pfx) (o : X2c)
  | ftanh (p : Option Pfx) (o : V3u) | ftanhX1 (p : Option Pfx) (o : X1u)
  -- conversions (R193 to R196)
  | cvt (p : Option Pfx) (o : CvtF)
  | pack (p : Option Pfx) (o : V3) | packX1 (p : Option Pfx) (o : X1)
  | unpack (p : Option Pfx) (o : V3) | unpackX1 (p : Option Pfx) (o : X1)
  | qscale (p : Option Pfx) (o : V3u)
  -- queues (R197, R198)
  | deq (p : Option Pfx) (d : Sel) (q : BitVec 4)
  | enq (p : Option Pfx) (q : BitVec 4) (a : Sel) (tag : BitVec 2)
  | enqX2 (p : Option Pfx) (q : BitVec 4) (a : Sel) (tag : BitVec 2) (ch : BitVec 12)
  | qcnt (p : Option Pfx) (n : Bool) (d : Sel) (q : BitVec 4)
  | qdrop (p : Option Pfx) (q : BitVec 4)
  -- accumulator access (R199, R200)
  | acrd (p : Option Pfx) (n : Bool) (d a : Sel)
  | acrdX1 (p : Option Pfx) (d a : Sel) (lit : W32)
  | acwr (p : Option Pfx) (add : Bool) (a b : Sel)
  | acwrX1 (p : Option Pfx) (add : Bool) (a b : Sel) (lit : W32)
  -- access slice (R208 to R236)
  | ld (p : Option Pfx) (d : BitVec 5) (idx : Sel) (sx : Bool) (bf : BitVec 6)
  | st (p : Option Pfx) (idx v : Sel) (bf : BitVec 6)
  | ldq (p : Option Pfx) (q : BitVec 4) (idx : Sel) (sx : Bool) (bf : BitVec 6) (ch : Chan)
  | ldqb (p : Option Pfx) (o : LdqbF)
  | gatherq (p : Option Pfx) (q : BitVec 4) (idx : Sel) (bf : BitVec 6) (mk sx : Bool) (ch : Chan)
  | gatherqList (p : Option Pfx) (o : GlistF)
  | stq (p : Option Pfx) (q : BitVec 4) (start : Sel) (bf : BitVec 6)
  | scatq (p : Option Pfx) (q : BitVec 4) (idx : Sel) (bf : BitVec 6)
  | lds (p : Option Pfx) (d : BitVec 5) (off : Sel) (sz : SZ)
  | ldsX1 (p : Option Pfx) (d : BitVec 5) (off : Sel) (sz : SZ) (lit : W32)
  | sts (p : Option Pfx) (sz : SZ) (off v : Sel)
  | stsX1 (p : Option Pfx) (sz : SZ) (off v : Sel) (lit : W32)
  | ldc (p : Option Pfx) (d : BitVec 5) (off : Sel) (sz : SZ)
  | stf (p : Option Pfx) (sz : SZ) (off v : Sel)
  | feq (p : Option Pfx) (n : Bool) (d : BitVec 5) (off : Sel) (op : FeqOp)
  | ldsq (p : Option Pfx) (q : BitVec 4) (off : Sel) (mk : Bool) (n : BitVec 8) (ch : Chan)
  | stsq (p : Option Pfx) (q : BitVec 4) (off : Sel) (n : BitVec 8)
  | bfset (p : Option Pfx) (bf : BitVec 6) (word : BitVec 2) (v : Sel)
  | bfget (p : Option Pfx) (n : Bool) (d : BitVec 5) (bf : BitVec 6) (word : BitVec 2)
  | pfr (p : Option Pfx) (va len : Sel) (ctr : BitVec 6)
  | pft (p : Option Pfx) (va len : Sel) (ctr : BitVec 6)
  | nzscan (p : Option Pfx) (o : NzscanF)
  | waitf (p : Option Pfx) (path : Path) (thr : Sel)
  | infl (p : Option Pfx) (n : Bool) (d : BitVec 5) (path : Path)
  | land (p : Option Pfx) (l : BitVec 3) (off cnt : Sel)
  -- engine commands (R237 to R273)
  | mloop (p : Option Pfx) (o : MloopF)
  | mzero (p : Option Pfx) (tile : BitVec 5) (ctr : BitVec 6) (tt : TileTy)
  | mscl (p : Option Pfx) (tile : BitVec 5) (src : Sel) (ctr : BitVec 6)
  | msclX1 (p : Option Pfx) (tile : BitVec 5) (src : Sel) (ctr : BitVec 6) (lit : W32)
  | mdrain (p : Option Pfx) (tile : BitVec 5) (s : BitVec 5) (relu : Bool) (ctr : BitVec 6)
  | mfill (p : Option Pfx) (tile : BitVec 5) (s : BitVec 5) (tt : TileTy) (ctr : BitVec 6)
  | mcfg (p : Option Pfx) (red : Bool) (arm : RMode) (geo : Option (BitVec 5)) (ctr : BitVec 6)
  | tcopy (p : Option Pfx) (o : TcopyF)
  | tstore (p : Option Pfx) (td ss : BitVec 5) (ctr : BitVec 6) (sc : BitVec 5)
  | tmcast (p : Option Pfx) (o : TcopyF) (rmask : BitVec 16)
  | tdset (p : Option Pfx) (td : BitVec 5) (word : BitVec 3) (src : Sel)
  -- control transfer (R201 to R203)
  | br (off : BitVec 16)
  | brc (cc : BCond) (k : BitVec 3) (off : BitVec 16)
  | brd (k : BitVec 3) (inv : Bool) (toff joff : BitVec 16)
  | brt (tag : BitVec 2) (eq : Bool) (off : BitVec 16)
  | loop (s : BitVec 5) (off : BitVec 16)
  | call (s : BitVec 5) (off : BitVec 16)
  | ret (s : BitVec 5)
  -- mode, flags, special registers (R204, R205)
  | setmode (s : BitVec 5) (seed : Bool)
  | getmode (d : BitVec 5)
  | rdspec (d : BitVec 5) (r : SpecReg)
  | flags (d : BitVec 5) (clr : BitVec 6)
  -- uniform scalar (R206)
  | sadd (d a : BitVec 5) (op : SOp) | saddX1 (d a : BitVec 5) (lit : W32)
  | ssub (d a : BitVec 5) (op : SOp) | ssubX1 (d a : BitVec 5) (lit : W32)
  | smul (fn : SMulFn) (d a : BitVec 5) (op : SOp) | smulX1 (fn : SMulFn) (d a : BitVec 5) (lit : W32)
  | slog (fn : SLogFn) (d a : BitVec 5) (op : SOp) | slogX1 (fn : SLogFn) (d a : BitVec 5) (lit : W32)
  | sshf (fn : SShfFn) (d a : BitVec 5) (op : SOp) | sshfX1 (fn : SShfFn) (d a : BitVec 5) (lit : W32)
  | scmp (c : Cond) (d a : BitVec 5) (op : SOp) | scmpX1 (c : Cond) (d a : BitVec 5) (lit : W32)
  | smov (d a : BitVec 5)
  | sli (d : BitVec 5) (imm : BitVec 17) | sliX1 (d : BitVec 5) (lit : W32)
  | ssel (k : BitVec 3) (d a : BitVec 5) (op : SOp) | sselX1 (k : BitVec 3) (d a : BitVec 5) (lit : W32)
  | sdiv (fn : SDivFn) (d a : BitVec 5) (op : SOp) | sdivX1 (fn : SDivFn) (d a : BitVec 5) (lit : W32)
  -- counters (R274 to R282)
  | cadd (scope : Scope) (rel : Bool) (c : Ctr) (sv : BitVec 5)
  | caddX1 (scope : Scope) (rel : Bool) (c : Ctr) (lit : W32)
  | cwait (scope : Scope) (c : Ctr) (sv : BitVec 5)
  | cwaitX1 (scope : Scope) (c : Ctr) (lit : W32)
  | carm (sys : Bool) (c : Ctr) (f : CarmF)
  | carmX1 (sys : Bool) (c : Ctr) (f : CarmX)
  | crd (scope : Scope) (c : Ctr) (d : BitVec 5)
  -- atomics and ordered accesses (R283 to R286)
  | atom (o : AtomF)
  | atomf (o : AtomFF)
  | lda (scope : Scope) (bf : BitVec 6) (w64 uns : Bool) (xd xi : BitVec 5)
  | strel (scope : Scope) (bf : BitVec 6) (w64 : Bool) (xi xv : BitVec 5)
  -- fences, barriers, phases (R287 to R289)
  | fence (scope : Scope) (f : FenceF)
  | barw (b : BitVec 3) (sl : BarSl)
  | phaseRel (sys : Bool)
  | phaseAcq (sys : Bool)
  -- work graph (R290 to R292)
  | emit (s : BitVec 5)
  | launch (s : BitVec 5)
  | phint (memory : Bool)
  -- fabric and scale-out (R293 to R296)
  | fbwr (sb : BitVec 5)
  | fbrd (sb : BitVec 5)
  | fbred (sb : BitVec 5) (op : FOp) (ty : RedTy)
  | ueget (sb : BitVec 5) (q : BitVec 4)
  -- traps and debug (R297 to R302)
  | trap (code : BitVec 16)
  | rdflt (d : BitVec 3)
  | wpset (wp : BitVec 3) (r w a : Bool) (s : BitVec 5)
  | wpclr (wp : BitVec 3)
  | smprd (d : BitVec 2) (sampler : BitVec 3)
  -- words that are no instruction
  | reservedOpcode (p : Option W32) (w : W32) (ext : W32)
  -- scheduling and host events that place work
  | ctxCreate (tag ctx : Nat) (desc : List W64)
  | frameAssign (tag ctx : Nat) (pa count : Nat)
  | nodeReg (tag ctx num : Nat) (desc : List W64)
  | registerWrite (addr : Nat) (val : W64)
  | hostRecordPush (node : Nat) (off : Nat) (bs : List Byte)
  | hostMemAccess (ctx : Nat) (pa : Nat) (op : MemOp)
  | pageDone (req : Nat) (retry : Bool)
  | gridExpand (node : Nat)
  | admitWg (src : AdmitSrc) (core : Nat)
  | retire (wg : WgId)
  -- memory system events
  | loadReturn (id : Nat) (threads : TMask)
  | storePerformed (id : Nat) (threads : TMask)
  | queueEntryFill (id : Nat)
  | walkComplete (id : Nat)
  | channelGroupSelect (ch : Nat)
  | tierFill (port : Nat) (block : Nat)
  -- engine events
  | matrixCommandExecute (core : Nat) (steps : Nat)
  | matrixCommandComplete (core : Nat)
  | copyPiece (unit : Nat)
  | tcopyLanded (id : Nat) (rcv : Nat)
  | tmcastDeliveryStart (id : Nat)
  | tstoreComplete (id : Nat)
  | prefetchPageDone (id : Nat) (page : Nat)
  -- scheduling events
  | cisternCountLaunch (node : Nat)
  | cisternTimerLaunch (node : Nat)
  | victimWindow (core : Nat)
  -- host events
  | inv (asid : Nat) (range : Option (Nat × Nat))
  | sync (tag : Nat)
  | nodeUnreg (tag ctx num : Nat)
  | nodeDrained (num : Nat)
  | ctxRelease (tag ctx : Nat)
  | preempt (tag ctx : Nat)
  | preemptForceStop (strand : StrandId)
  | saveComplete (ctx : Nat)
  | resume (tag ctx : Nat) (cores : List Nat)
  | resync (tag : Nat) (buf len : Nat)
  | attest (tag : Nat) (nonce : List Byte) (buf len : Nat)
  | perfRead (tag ctx : Nat) (core : Nat)
  | logRead (tag ctx : Nat) (log first buf len : Nat)
  | lifecycle (tag : Nat) (addr len : Nat)
  | unlockNonce (tag : Nat)
  | unlock (tag : Nat) (addr len : Nat)
  | stop (tag : Nat) (node : Nat) (set : Bool)
  | continueTask (tag : Nat) (task : W64)
  | evlogRead (tag ctx : Nat) (buf len : Nat)
  -- debug and trace events
  | debugStopHalt (at_ : HaltAt)
  | traceArm (core : Nat)
  | stitchSampleTag (core : Nat) (sampler : Nat)
  -- security and reliability events
  | auditExportAck (upTo : Nat)
  | auditTypedAppend (payload : List Byte)
  | measExtend (n : Nat) (d : List Byte)
  | correctedError (dom : Domain)
  | uncorrectedError (dom : Domain)
  | selfTestDone (dom : Domain) (pass : Bool)
  | rinseStep (ch : Nat)
  | refresh (ch : Nat)
  | heartbeat (stack : Nat)
  | refreshTakeover (stack : Nat)
  -- fabric events
  | linkFlitReplay (port : Nat)
  | switchForward (idx : Nat)
  | creditReturn (plane leaf : Nat) (depths : List Nat)
  | fabricPacketReceive (p : Packet)
  | fabricAnswerReceive (p : Packet)
  | e2eResend (dst plane seq : Nat)
  | reductionLeafCombine (leaf : Nat) (key : RedKey)
  | reductionRootCombine (key : RedKey)
  | redresult (key : RedKey)
  | reduceAbandoned (key : RedKey)
  | dirreq (line : Nat) (req : DirReq) (dev : Nat)
  | dirfwd (line : Nat) (req : DirReq) (requester : Nat)
  | dirresp (line : Nat) (acks : Nat)
  | directoryInv (line : Nat) (requester : Nat)
  | directoryDone (line : Nat) (dev : Nat)
  | directoryRetry (line : Nat)
  | directoryFailover (line : Nat)
  | census (line : Nat)
  | censusRebuild (line : Nat) (answers : List CensusAns)
  | uegetResponse (id : Nat) (data : Option (List Byte))
  | uePeerAccess (ctx : Nat) (pa : Nat) (op : MemOp)
  -- later rows of the table
  | ueTransportGiveUp (id : Nat)
  | traceTrigger (core : Nat)
  | ctxReleaseDone (ctx : Nat)
  -- the rows without operands
  | nop | exit | yield | rft | bkpt
  | orphanPrefix
  | weirEvaluate | syncAck | rinsePassStart
  | idleEnter | thermalTrip | thermalRecover | thermalShutdown | reset | powerOff
deriving DecidableEq, Repr

end Sys2Proof
end

