-- ==== Sys2Proof/Machine/Codes.lean ====
section
/-!
DEFINITION. Machine/Codes.lean: the codes that the encoding tables give to the named operand values, in both directions.
An `ofCode` answers none for a reserved code (R2, R165).
-/
namespace Sys2Proof

/-- The code of a `ETy` (Table 4.1). -/
def ETy.code : ETy → BitVec 4
  | .i32 => 0
  | .n32 => 1
  | .f32 => 2
  | .f16x2 => 3
  | .bf16x2 => 4
  | .i16x2 => 5
  | .n16x2 => 6
  | .i8x4 => 7
  | .n8x4 => 8
  | .f64 => 9
  | .i64 => 10
  | .n64 => 11
  | .e4m3x4 => 12
  | .e5m2x4 => 13
  | .dm8x4 => 14

/-- The `ETy` with a given code; none for a reserved code (Table 4.1). -/
def ETy.ofCode (c : BitVec 4) : Option ETy :=
  ([.i32, .n32, .f32, .f16x2, .bf16x2, .i16x2, .n16x2, .i8x4, .n8x4, .f64, .i64, .n64, .e4m3x4, .e5m2x4, .dm8x4] : List ETy)[c.toNat]?

/-- The code of a `RMode` (Table 4.7). -/
def RMode.code : RMode → BitVec 3
  | .rne => 0
  | .rtz => 1
  | .rup => 2
  | .rdn => 3
  | .rna => 4
  | .rst => 5

/-- The `RMode` with a given code; none for a reserved code (Table 4.7). -/
def RMode.ofCode (c : BitVec 3) : Option RMode :=
  ([.rne, .rtz, .rup, .rdn, .rna, .rst] : List RMode)[c.toNat]?

/-- The code of a `Cond` (R181). -/
def Cond.code : Cond → BitVec 3
  | .eq => 0
  | .ne => 1
  | .lt => 2
  | .le => 3
  | .gt => 4
  | .ge => 5
  | .ltn => 6
  | .gen => 7

/-- The `Cond` with a given code; none for a reserved code (R181). -/
def Cond.ofCode (c : BitVec 3) : Option Cond :=
  ([.eq, .ne, .lt, .le, .gt, .ge, .ltn, .gen] : List Cond)[c.toNat]?

/-- The code of a `KFn` (Table 10.7). -/
def KFn.code : KFn → BitVec 3
  | .and => 0
  | .or => 1
  | .xor => 2
  | .andn => 3
  | .not => 4
  | .mov => 5
  | .set => 6
  | .clr => 7

/-- The `KFn` with a given code; none for a reserved code (Table 10.7). -/
def KFn.ofCode (c : BitVec 3) : Option KFn :=
  ([.and, .or, .xor, .andn, .not, .mov, .set, .clr] : List KFn)[c.toNat]?

/-- The code of a `RedFn` (Table 10.6). -/
def RedFn.code : RedFn → BitVec 4
  | .add => 0
  | .min => 1
  | .max => 2
  | .and => 3
  | .or => 4
  | .xor => 5
  | .fadd => 6
  | .fmin => 7
  | .fmax => 8

/-- The `RedFn` with a given code; none for a reserved code (Table 10.6). -/
def RedFn.ofCode (c : BitVec 4) : Option RedFn :=
  ([.add, .min, .max, .and, .or, .xor, .fadd, .fmin, .fmax] : List RedFn)[c.toNat]?

/-- The code of a `SZ` (R211). -/
def SZ.code : SZ → BitVec 3
  | .u8 => 0
  | .s8 => 1
  | .u16 => 2
  | .s16 => 3
  | .u32 => 4
  | .s32 => 5
  | .u64 => 6

/-- The `SZ` with a given code; none for a reserved code (R211). -/
def SZ.ofCode (c : BitVec 3) : Option SZ :=
  ([.u8, .s8, .u16, .s16, .u32, .s32, .u64] : List SZ)[c.toNat]?

/-- The code of a `Path` (R211). -/
def Path.code : Path → BitVec 2
  | .ldg => 0
  | .ldsh => 1
  | .sto => 2
  | .fab => 3

/-- The `Path` with a given code; none for a reserved code (R211). -/
def Path.ofCode (c : BitVec 2) : Option Path :=
  ([.ldg, .ldsh, .sto, .fab] : List Path)[c.toNat]?

/-- The code of a `FeqOp` (Table 11.3). -/
def FeqOp.code : FeqOp → BitVec 2
  | .read => 0
  | .fill => 1
  | .empty => 2

/-- The `FeqOp` with a given code; none for a reserved code (Table 11.3). -/
def FeqOp.ofCode (c : BitVec 2) : Option FeqOp :=
  ([.read, .fill, .empty] : List FeqOp)[c.toNat]?

/-- The code of a `TileTy` (Table 13.5). -/
def TileTy.code : TileTy → BitVec 2
  | .fp32 => 0
  | .int32 => 1
  | .fp64 => 2

/-- The `TileTy` with a given code; none for a reserved code (Table 13.5). -/
def TileTy.ofCode (c : BitVec 2) : Option TileTy :=
  ([.fp32, .int32, .fp64] : List TileTy)[c.toNat]?

/-- The code of a `Scope` (Table 7.2). -/
def Scope.code : Scope → BitVec 2
  | .wg => 0
  | .core => 1
  | .dev => 2
  | .sys => 3

/-- The `Scope` with a given code; none for a reserved code (Table 7.2). -/
def Scope.ofCode (c : BitVec 2) : Option Scope :=
  ([.wg, .core, .dev, .sys] : List Scope)[c.toNat]?

/-- The code of a `AOp` (R161). -/
def AOp.code : AOp → BitVec 3
  | .add => 0
  | .min => 1
  | .max => 2
  | .and => 3
  | .or => 4
  | .xor => 5
  | .exch => 6
  | .cas => 7

/-- The `AOp` with a given code; none for a reserved code (R161). -/
def AOp.ofCode (c : BitVec 3) : Option AOp :=
  ([.add, .min, .max, .and, .or, .xor, .exch, .cas] : List AOp)[c.toNat]?

/-- The code of a `FOp` (R161, Table 9.7). -/
def FOp.code : FOp → BitVec 3
  | .add => 0
  | .min => 1
  | .max => 2

/-- The `FOp` with a given code; none for a reserved code (R161, Table 9.7). -/
def FOp.ofCode (c : BitVec 3) : Option FOp :=
  ([.add, .min, .max] : List FOp)[c.toNat]?

/-- The code of a `RedTy` (Table 9.7). -/
def RedTy.code : RedTy → BitVec 3
  | .fp32 => 0
  | .bf16 => 1
  | .fp16 => 2
  | .int32 => 3

/-- The `RedTy` with a given code; none for a reserved code (Table 9.7). -/
def RedTy.ofCode (c : BitVec 3) : Option RedTy :=
  ([.fp32, .bf16, .fp16, .int32] : List RedTy)[c.toNat]?

/-- The code of a `BCond` (Table 9.7). -/
def BCond.code : BCond → BitVec 3
  | .any => 0
  | .all => 1
  | .none => 2
  | .nall => 3

/-- The `BCond` with a given code; none for a reserved code (Table 9.7). -/
def BCond.ofCode (c : BitVec 3) : Option BCond :=
  ([.any, .all, .none, .nall] : List BCond)[c.toNat]?

/-- The code of a `SMulFn` (Table 9.8a). -/
def SMulFn.code : SMulFn → BitVec 3
  | .lo => 0
  | .his => 1
  | .hiu => 2

/-- The `SMulFn` with a given code; none for a reserved code (Table 9.8a). -/
def SMulFn.ofCode (c : BitVec 3) : Option SMulFn :=
  ([.lo, .his, .hiu] : List SMulFn)[c.toNat]?

/-- The code of a `SLogFn` (Table 9.8a). -/
def SLogFn.code : SLogFn → BitVec 3
  | .and => 0
  | .or => 1
  | .xor => 2
  | .andn => 3
  | .not => 4

/-- The `SLogFn` with a given code; none for a reserved code (Table 9.8a). -/
def SLogFn.ofCode (c : BitVec 3) : Option SLogFn :=
  ([.and, .or, .xor, .andn, .not] : List SLogFn)[c.toNat]?

/-- The code of a `SShfFn` (Table 9.8a). -/
def SShfFn.code : SShfFn → BitVec 3
  | .shl => 0
  | .shr => 1
  | .sra => 2
  | .rot => 3

/-- The `SShfFn` with a given code; none for a reserved code (Table 9.8a). -/
def SShfFn.ofCode (c : BitVec 3) : Option SShfFn :=
  ([.shl, .shr, .sra, .rot] : List SShfFn)[c.toNat]?

/-- The code of a `SDivFn` (Table 9.8a). -/
def SDivFn.code : SDivFn → BitVec 3
  | .qs => 0
  | .qu => 1
  | .rs => 2
  | .ru => 3

/-- The `SDivFn` with a given code; none for a reserved code (Table 9.8a). -/
def SDivFn.ofCode (c : BitVec 3) : Option SDivFn :=
  ([.qs, .qu, .rs, .ru] : List SDivFn)[c.toNat]?

/-- The code of a `SpecReg` (Table 10.15). -/
def SpecReg.code : SpecReg → BitVec 5
  | .tidx => 0
  | .strand => 1
  | .slice => 2
  | .wgx => 3
  | .wgy => 4
  | .wgz => 5
  | .wglin => 6
  | .gdimx => 7
  | .gdimy => 8
  | .gdimz => 9
  | .core => 10
  | .node => 11
  | .taskseq => 12
  | .depth => 13
  | .ctxid => 14
  | .reccnt => 15
  | .recbase => 16
  | .cycle => 17
  | .lease => 18
  | .parent => 19

/-- The `SpecReg` with a given code; none for a reserved code (Table 10.15). -/
def SpecReg.ofCode (c : BitVec 5) : Option SpecReg :=
  ([.tidx, .strand, .slice, .wgx, .wgy, .wgz, .wglin, .gdimx, .gdimy, .gdimz, .core, .node, .taskseq, .depth, .ctxid, .reccnt, .recbase, .cycle, .lease, .parent] : List SpecReg)[c.toNat]?

/-- The code of a `PktTy` (Table 20.1). -/
def PktTy.code : PktTy → BitVec 4
  | .read => 0
  | .write => 1
  | .atomic => 2
  | .response => 3
  | .ack => 4
  | .nak => 5
  | .dirreq => 6
  | .dirfwd => 7
  | .dirresp => 8
  | .census => 9
  | .redcontrib => 10
  | .redresult => 11

/-- The `PktTy` with a given code; none for a reserved code (Table 20.1). -/
def PktTy.ofCode (c : BitVec 4) : Option PktTy :=
  ([.read, .write, .atomic, .response, .ack, .nak, .dirreq, .dirfwd, .dirresp, .census, .redcontrib, .redresult] : List PktTy)[c.toNat]?

/-- The code of a barrier's slice field SL (Table 9.7): 0 is reserved. -/
def BarSl.code : BarSl → BitVec 2
  | .access => 1
  | .execute => 2
  | .both => 3

/-- The barrier slice field with a given code (Table 9.7). -/
def BarSl.ofCode (c : BitVec 2) : Option BarSl :=
  ([none, some .access, some .execute, some .both] : List (Option BarSl)).getD c.toNat none

/-- The bits of an operand selector (Table 9.4). -/
def Sel.bits : Sel → BitVec 7
  | .reg n => 0#1 ++ n
  | .s n => 0b10#2 ++ n
  | .latch n => 0b11000#5 ++ n
  | .queue n => BitVec.ofNat 7 (100 + n.toNat)
  | .const n => BitVec.ofNat 7 (116 + n.toNat)
  | .lit => 124

/-- The operand selector with given bits; none for 125..127 (Table 9.4). -/
def Sel.ofBits (b : BitVec 7) : Option Sel :=
  let v := b.toNat
  if v < 64 then some (.reg (BitVec.ofNat 6 v))
  else if v < 96 then some (.s (BitVec.ofNat 5 (v - 64)))
  else if v < 100 then some (.latch (BitVec.ofNat 2 (v - 96)))
  else if v < 116 then some (.queue (BitVec.ofNat 4 (v - 100)))
  else if v < 124 then some (.const (BitVec.ofNat 3 (v - 116)))
  else if v = 124 then some .lit
  else none

/-- The bits of a mask number (R176): 0..7 are k0..k7 and 8 is EM. -/
def MNum.bits : MNum → BitVec 4
  | .k n => 0#1 ++ n
  | .em => 8

/-- The mask number with given bits; none for the reserved 9..15 (R176). -/
def MNum.ofBits (b : BitVec 4) : Option MNum :=
  if b.toNat < 8 then some (.k (BitVec.ofNat 3 b.toNat)) else if b.toNat = 8 then some .em else none

end Sys2Proof
end

