-- ==== Sys2Proof/Machine/Legal.lean ====
section
/-!
DEFINITION. Machine/Legal.lean: which operand combinations an instruction may hold whatever the strand's state (R150 to
R161, R165, R176, R211): the reserved selectors, the prefix fields of Table 9.8, the field ranges. What depends on the
strand (its slice, its register count, its effective type, its queues) is checked when the instruction executes.
-/
namespace Sys2Proof

/-- The prefix fields that an opcode accepts (Table 9.8). -/
structure Acc where
  et  : Bool
  rm  : Bool
  sat : Bool
  rep : Bool
deriving DecidableEq, Repr

/-- A queue selector (Table 9.4). -/
def Sel.isQueue : Sel → Bool
  | .queue _ => true
  | _ => false

/-- A latch selector (Table 9.4). -/
def Sel.isLatch : Sel → Bool
  | .latch _ => true
  | _ => false

/-- A v, x or s register, which a repeat increment may advance (R159). -/
def Sel.isBank : Sel → Bool
  | .reg _ => true
  | .s _ => true
  | _ => false

/-- The literal is no operand outside an X1 source position (R152). -/
def Sel.notLit : Sel → Bool
  | .lit => false
  | _ => true

/-- A destination that every main-map instruction may name: a v or x register or a queue (R154). -/
def Sel.isDest : Sel → Bool
  | .reg _ => true
  | .queue _ => true
  | _ => false

/-- A v or x register. -/
def Sel.isReg : Sel → Bool
  | .reg _ => true
  | _ => false

/-- An s register. -/
def Sel.isS : Sel → Bool
  | .s _ => true
  | _ => false

/-- An operand of an access-only instruction read as a 64-bit integer: x0..x31, an s register or a constant of the integer
types (R154, R155, R208). -/
def Sel.isInt64 : Sel → Bool
  | .reg n => decide (n.toNat < 32)
  | .s _ => true
  | .const n => decide (n.toNat < 4) || decide (n.toNat = 6)
  | _ => false

/-- A uniform or yield-class index operand: no latch, no queue (R209, R40). -/
def Sel.isUniform (s : Sel) : Bool := s.isInt64

/-- An operand of an access-only instruction that is not yield-class: a latch too (R209, R213). -/
def Sel.isIndex (s : Sel) : Bool := s.isInt64 || s.isLatch

/-- The increment bit is clear, or its position names a register (R159). -/
def incOk (bit : Bool) (s : Option Sel) : Bool :=
  !bit || (match s with | some x => x.isBank | none => false)

/-- The prefix holds only accepted fields, and its increments name register positions (R158, R159). -/
def pfxOk (acc : Acc) (d a b : Option Sel) : Option Pfx → Bool
  | none => true
  | some p =>
    (acc.et || p.et.isNone) && (acc.rm || p.rm.isNone) && (acc.sat || p.sat.isNone) &&
    (match p.rep with
     | none => true
     | some r => acc.rep && incOk r.incD d && incOk r.incA a && incOk r.incB b)

/-- A queue operand makes the instruction yield-class, and then no source is a latch and N is 0 (R38, R40). -/
def yieldOk (n : Bool) (d : Sel) (srcs : List Sel) : Bool :=
  !(d.isQueue || srcs.any Sel.isQueue) || (!n && !srcs.any Sel.isLatch)

/-- A two-source V3 form. -/
def okV3 (acc : Acc) (p : Option Pfx) (o : V3) : Bool :=
  o.d.isDest && o.a.notLit && o.b.notLit && yieldOk o.n o.d [o.a, o.b] && pfxOk acc (some o.d) (some o.a) (some o.b) p

/-- A one-source V3 form. -/
def okV3u (acc : Acc) (p : Option Pfx) (o : V3u) : Bool :=
  o.d.isDest && o.a.notLit && yieldOk o.n o.d [o.a] && pfxOk acc (some o.d) (some o.a) none p

/-- A two-source X1 form. -/
def okX1 (acc : Acc) (p : Option Pfx) (o : X1) : Bool :=
  o.d.isDest && yieldOk false o.d [o.a, o.b] && pfxOk acc (some o.d) (some o.a) (some o.b) p

/-- A one-source X1 form. -/
def okX1u (acc : Acc) (p : Option Pfx) (o : X1u) : Bool :=
  o.d.isDest && yieldOk false o.d [o.a] && pfxOk acc (some o.d) (some o.a) none p

/-- A three-source X2 form. -/
def okX2c (acc : Acc) (p : Option Pfx) (o : X2c) : Bool :=
  o.d.isDest && o.a.notLit && o.b.notLit && o.c.notLit && yieldOk false o.d [o.a, o.b, o.c] &&
  pfxOk acc (some o.d) (some o.a) (some o.b) p

/-- An X2 form with the sources A and B (B absent for a one-source form). -/
def okX2 (acc : Acc) (p : Option Pfx) (d a : Sel) (b : Option Sel) : Bool :=
  d.isDest && a.notLit && (b.map Sel.notLit).getD true && yieldOk false d (a :: b.toList) &&
  pfxOk acc (some d) (some a) b p

/-- A comparison's sources (R176); D holds the condition and the mask. -/
def okCmp (acc : Acc) (p : Option Pfx) (a b : Sel) : Bool :=
  a.notLit && b.notLit && !(([a, b].any Sel.isQueue) && ([a, b].any Sel.isLatch)) && pfxOk acc none (some a) (some b) p

/-- A comparison's sources in X1 form. -/
def okCmpX1 (acc : Acc) (p : Option Pfx) (a b : Sel) : Bool :=
  !(([a, b].any Sel.isQueue) && ([a, b].any Sel.isLatch)) && pfxOk acc none (some a) (some b) p

/-- A prefix with no field set, which every main-map opcode accepts (R208). -/
def okBare (p : Option Pfx) : Bool := pfxOk ⟨false, false, false, false⟩ none none none p

/-- A KOP's unused sources hold 0 (Table 10.7), read as k0. -/
def okKop (fn : KFn) (a b : MNum) : Bool :=
  match fn with
  | .not => b = .k 0
  | .mov => b = .k 0
  | .set => a = .k 0 && b = .k 0
  | .clr => a = .k 0 && b = .k 0
  | _ => true

/-- The source position of a destination used with N: a queue destination needs N = 0 (R40). -/
def okDestN (n : Bool) (d : Sel) : Bool := d.isDest && !(n && d.isQueue)

/-- An even size code, as STS and STF require (Table 11.3). -/
def SZ.isStore : SZ → Bool
  | .u8 => true
  | .u16 => true
  | .u32 => true
  | .u64 => true
  | _ => false

/-- The scopes of CARM and PHASE are DEV and SYS (R280, R288): the field that says SYS. -/
def sysScope (sys : Bool) : Scope := if sys then .sys else .dev

/-- A register that is the first of `k` within s0..s31. -/
def sFits (s : BitVec 5) (k : Nat) : Bool := decide (s.toNat + k ≤ 32)

/-- The static legality of an instruction (R165). Events have no encoding; the two steps for words that are no instruction
are not legal instructions. -/
def legal : Instr → Bool
  | .vadd p o => okV3 ⟨true, false, true, true⟩ p o
  | .vaddX1 p o => okX1 ⟨true, false, true, true⟩ p o
  | .vsub p o => okV3 ⟨true, false, true, true⟩ p o
  | .vsubX1 p o => okX1 ⟨true, false, true, true⟩ p o
  | .vmul p o => okV3 ⟨true, false, true, true⟩ p o
  | .vmulX1 p o => okX1 ⟨true, false, true, true⟩ p o
  | .vmulh p o => okV3 ⟨true, false, true, true⟩ p o
  | .vmulhX1 p o => okX1 ⟨true, false, true, true⟩ p o
  | .vmin p o => okV3 ⟨true, false, true, true⟩ p o
  | .vminX1 p o => okX1 ⟨true, false, true, true⟩ p o
  | .vmax p o => okV3 ⟨true, false, true, true⟩ p o
  | .vmaxX1 p o => okX1 ⟨true, false, true, true⟩ p o
  | .vavg p o => okV3 ⟨true, false, true, true⟩ p o
  | .vavgX1 p o => okX1 ⟨true, false, true, true⟩ p o
  | .vsad p o => okV3 ⟨true, false, true, true⟩ p o
  | .vsadX1 p o => okX1 ⟨true, false, true, true⟩ p o
  | .vaddc p o => okV3 ⟨true, false, true, true⟩ p o
  | .vaddcX1 p o => okX1 ⟨true, false, true, true⟩ p o
  | .vand p o => okV3 ⟨true, false, false, true⟩ p o
  | .vandX1 p o => okX1 ⟨true, false, false, true⟩ p o
  | .vor p o => okV3 ⟨true, false, false, true⟩ p o
  | .vorX1 p o => okX1 ⟨true, false, false, true⟩ p o
  | .vxor p o => okV3 ⟨true, false, false, true⟩ p o
  | .vxorX1 p o => okX1 ⟨true, false, false, true⟩ p o
  | .vshl p o => okV3 ⟨true, false, false, true⟩ p o
  | .vshlX1 p o => okX1 ⟨true, false, false, true⟩ p o
  | .vshr p o => okV3 ⟨true, false, false, true⟩ p o
  | .vshrX1 p o => okX1 ⟨true, false, false, true⟩ p o
  | .vsra p o => okV3 ⟨true, false, false, true⟩ p o
  | .vsraX1 p o => okX1 ⟨true, false, false, true⟩ p o
  | .vrot p o => okV3 ⟨true, false, false, true⟩ p o
  | .vrotX1 p o => okX1 ⟨true, false, false, true⟩ p o
  | .vdiv p o => okV3 ⟨true, false, true, true⟩ p o
  | .vdivX1 p o => okX1 ⟨true, false, true, true⟩ p o
  | .vrem p o => okV3 ⟨true, false, true, true⟩ p o
  | .vremX1 p o => okX1 ⟨true, false, true, true⟩ p o
  | .vshuf p o => okV3 ⟨true, false, false, true⟩ p o
  | .vshufX1 p o => okX1 ⟨true, false, false, true⟩ p o
  | .vbcast p o => okV3 ⟨true, false, false, true⟩ p o
  | .vbcastX1 p o => okX1 ⟨true, false, false, true⟩ p o
  | .vrott p o => okV3 ⟨true, false, false, true⟩ p o
  | .vrottX1 p o => okX1 ⟨true, false, false, true⟩ p o
  | .fadd p o => okV3 ⟨true, true, true, true⟩ p o
  | .faddX1 p o => okX1 ⟨true, true, true, true⟩ p o
  | .fsub p o => okV3 ⟨true, true, true, true⟩ p o
  | .fsubX1 p o => okX1 ⟨true, true, true, true⟩ p o
  | .fmul p o => okV3 ⟨true, true, true, true⟩ p o
  | .fmulX1 p o => okX1 ⟨true, true, true, true⟩ p o
  | .fmin p o => okV3 ⟨true, true, true, true⟩ p o
  | .fminX1 p o => okX1 ⟨true, true, true, true⟩ p o
  | .fmax p o => okV3 ⟨true, true, true, true⟩ p o
  | .fmaxX1 p o => okX1 ⟨true, true, true, true⟩ p o
  | .fdiv p o => okV3 ⟨true, true, true, true⟩ p o
  | .fdivX1 p o => okX1 ⟨true, true, true, true⟩ p o
  | .fscl p o => okV3 ⟨true, true, true, true⟩ p o
  | .fsclX1 p o => okX1 ⟨true, true, true, true⟩ p o
  | .unpack p o => okV3 ⟨true, true, true, true⟩ p o
  | .unpackX1 p o => okX1 ⟨true, true, true, true⟩ p o
  | .fmac p o => okV3 ⟨true, true, true, true⟩ p o && o.d.isReg
  | .fmacX1 p o => okX1 ⟨true, true, true, true⟩ p o && o.d.isReg
  | .fdot2 p o => okV3 ⟨true, true, true, true⟩ p o && o.d.isReg
  | .fdot2X1 p o => okX1 ⟨true, true, true, true⟩ p o && o.d.isReg
  | .fdot4 p o => okV3 ⟨true, true, true, true⟩ p o && o.d.isReg
  | .fdot4X1 p o => okX1 ⟨true, true, true, true⟩ p o && o.d.isReg
  | .pack p o => okV3 ⟨true, true, true, true⟩ p o && o.d.isReg
  | .packX1 p o => okX1 ⟨true, true, true, true⟩ p o && o.d.isReg
  | .vneg p o => okV3u ⟨true, false, true, true⟩ p o
  | .vnegX1 p o => okX1u ⟨true, false, true, true⟩ p o
  | .vabs p o => okV3u ⟨true, false, true, true⟩ p o
  | .vabsX1 p o => okX1u ⟨true, false, true, true⟩ p o
  | .vnot p o => okV3u ⟨true, false, false, true⟩ p o
  | .vnotX1 p o => okX1u ⟨true, false, false, true⟩ p o
  | .vmov p o => okV3u ⟨true, false, false, true⟩ p o
  | .vmovX1 p o => okX1u ⟨true, false, false, true⟩ p o
  | .fabs p o => okV3u ⟨true, true, true, true⟩ p o
  | .fabsX1 p o => okX1u ⟨true, true, true, true⟩ p o
  | .fneg p o => okV3u ⟨true, true, true, true⟩ p o
  | .fnegX1 p o => okX1u ⟨true, true, true, true⟩ p o
  | .frcp p o => okV3u ⟨true, true, true, true⟩ p o
  | .frcpX1 p o => okX1u ⟨true, true, true, true⟩ p o
  | .frsq p o => okV3u ⟨true, true, true, true⟩ p o
  | .frsqX1 p o => okX1u ⟨true, true, true, true⟩ p o
  | .fsqrt p o => okV3u ⟨true, true, true, true⟩ p o
  | .fsqrtX1 p o => okX1u ⟨true, true, true, true⟩ p o
  | .fexp2 p o => okV3u ⟨true, true, true, true⟩ p o
  | .fexp2X1 p o => okX1u ⟨true, true, true, true⟩ p o
  | .flog2 p o => okV3u ⟨true, true, true, true⟩ p o
  | .flog2X1 p o => okX1u ⟨true, true, true, true⟩ p o
  | .fsin p o => okV3u ⟨true, true, true, true⟩ p o
  | .fsinX1 p o => okX1u ⟨true, true, true, true⟩ p o
  | .fcos p o => okV3u ⟨true, true, true, true⟩ p o
  | .fcosX1 p o => okX1u ⟨true, true, true, true⟩ p o
  | .frint p o => okV3u ⟨true, true, true, true⟩ p o
  | .frintX1 p o => okX1u ⟨true, true, true, true⟩ p o
  | .fclass p o => okV3u ⟨true, true, true, true⟩ p o
  | .fclassX1 p o => okX1u ⟨true, true, true, true⟩ p o
  | .ftanh p o => okV3u ⟨true, true, true, true⟩ p o
  | .ftanhX1 p o => okX1u ⟨true, true, true, true⟩ p o
  | .vpopc p o => okV3u ⟨true, false, false, true⟩ p o
  | .vclz p o => okV3u ⟨true, false, false, true⟩ p o
  | .vbrev p o => okV3u ⟨true, false, false, true⟩ p o
  | .qscale p o => okV3u ⟨true, true, false, false⟩ p o
  | .vmad p o => okX2c ⟨true, false, true, true⟩ p o
  | .vclamp p o => okX2c ⟨true, false, true, true⟩ p o
  | .fma p o => okX2c ⟨true, true, true, true⟩ p o
  | .fclamp p o => okX2c ⟨true, true, true, true⟩ p o
  | .vbfx p d a _ _ _ => okX2 ⟨true, false, false, true⟩ p d a none
  | .vbfi p d a b _ _ => okX2 ⟨true, false, false, true⟩ p d a (some b)
  | .vsel p d a b _ => okX2 ⟨true, false, false, true⟩ p d a (some b)
  | .vcmp p _ _ a b => okCmp ⟨true, false, false, true⟩ p a b
  | .vcmpX1 p _ _ a b _ => okCmpX1 ⟨true, false, false, true⟩ p a b
  | .fcmp p _ _ a b => okCmp ⟨true, true, true, true⟩ p a b
  | .fcmpX1 p _ _ a b _ => okCmpX1 ⟨true, true, true, true⟩ p a b
  | .vred p d a _ => okX2 ⟨true, true, true, true⟩ p d a none
  | .vscan p d a _ _ _ => okX2 ⟨true, true, true, true⟩ p d a none
  | .v2s p n _ a => a.notLit && !(n && a.isQueue) && pfxOk ⟨true, false, false, false⟩ none none none p
  | .vidx p o => okV3 ⟨true, false, false, false⟩ p o
  | .kop p fn _ a b => okKop fn a b && okBare p
  | .kfroms p _ _ => okBare p
  | .ktos p n d _ => okDestN n d && okBare p
  | .kpopc p n d _ => okDestN n d && okBare p
  | .kffs p n d _ => okDestN n d && okBare p
  | .setem p _ => okBare p
  | .emsave p _ => okBare p
  | .emrest p _ => okBare p
  | .cvt p o => okX2 ⟨false, false, false, true⟩ p o.d o.a none
  | .deq p d _ => d.isDest && pfxOk ⟨true, false, false, true⟩ (some d) none none p
  | .enq p _ a tag => a.notLit && !a.isLatch && decide (tag.toNat < 3) && pfxOk ⟨true, false, false, true⟩ none (some a) none p
  | .enqX2 p _ a tag _ => a.notLit && !a.isLatch && decide (tag.toNat < 3) && pfxOk ⟨true, false, false, true⟩ none (some a) none p
  | .qcnt p n d _ => okDestN n d && okBare p
  | .qdrop p _ => okBare p
  | .acrd p n d a => okDestN n d && a.isS && pfxOk ⟨true, true, true, true⟩ (some d) (some a) none p
  | .acrdX1 p d a _ => d.isDest && (a.isS || a = .lit) && pfxOk ⟨true, true, true, true⟩ (some d) (some a) none p
  | .acwr p _ a b => a.isS && b.notLit && pfxOk ⟨true, true, true, true⟩ none (some a) (some b) p
  | .acwrX1 p _ a b _ => (a.isS || a = .lit) && pfxOk ⟨true, true, true, true⟩ none (some a) (some b) p
  | .ld p _ i _ _ => i.isIndex && okBare p
  | .st p i v _ => i.isIndex && v.isIndex && okBare p
  | .ldq p _ i _ _ _ => i.isInt64 && okBare p
  | .ldqb p o => o.start.isUniform && o.cnt.isUniform && okBare p
  | .gatherq p _ i _ _ _ _ => i.isInt64 && okBare p
  | .gatherqList p o => o.pos.isUniform && o.cnt.isUniform && okBare p
  | .stq p _ i _ => i.isUniform && okBare p
  | .scatq p _ i _ => i.isInt64 && okBare p
  | .lds p _ i _ => i.isIndex && okBare p
  | .ldsX1 p _ i _ _ => (i.isIndex || i = .lit) && okBare p
  | .sts p sz i v => sz.isStore && i.isIndex && v.isIndex && okBare p
  | .stsX1 p sz i v _ => sz.isStore && (i.isIndex || i = .lit) && (v.isIndex || v = .lit) && okBare p
  | .ldc p _ i _ => i.isInt64 && okBare p
  | .stf p sz i v => sz.isStore && i.isInt64 && v.isInt64 && okBare p
  | .feq p _ _ i _ => i.isIndex && okBare p
  | .ldsq p _ o _ _ _ => o.isUniform && okBare p
  | .stsq p _ o _ => o.isUniform && okBare p
  | .bfset p _ _ v => v.isIndex && okBare p
  | .bfget p _ _ _ _ => okBare p
  | .pfr p v l _ => v.isUniform && l.isUniform && okBare p
  | .pft p v l _ => v.isUniform && l.isUniform && okBare p
  | .nzscan p o => decide (o.qv ≠ some o.qi) && okBare p
  | .waitf p _ t => t.isUniform && okBare p
  | .infl p _ _ _ => okBare p
  | .land p _ o c => o.isUniform && c.isUniform && okBare p
  | .mloop p _ => okBare p
  | .mzero p _ _ _ => okBare p
  | .mscl p _ a _ => (a.isS || (match a with | .const _ => true | _ => false)) && okBare p
  | .msclX1 p _ a _ _ => (a.isS || a = .lit || (match a with | .const _ => true | _ => false)) && okBare p
  | .mdrain p _ _ _ _ => pfxOk ⟨false, true, true, false⟩ none none none p
  | .mfill p _ _ _ _ => okBare p
  | .mcfg p _ arm _ _ => decide (arm ≠ .rst) && okBare p
  | .tcopy p o => decide (o.sc.toNat ≤ 28) && okBare p
  | .tstore p _ _ _ sc => decide (sc.toNat ≤ 28) && pfxOk ⟨false, true, true, false⟩ none none none p
  | .tmcast p o _ => decide (o.sc.toNat ≤ 28) && okBare p
  | .tdset p _ _ v => v.isUniform && okBare p
  | .nop => true
  | .br _ => true
  | .brc _ _ _ => true
  | .brd _ _ _ _ => true
  | .brt tag _ _ => decide (tag.toNat < 4)
  | .loop _ _ => true
  | .call _ _ => true
  | .ret _ => true
  | .exit => true
  | .yield => true
  | .setmode _ _ => true
  | .getmode _ => true
  | .rdspec _ _ => true
  | .flags _ _ => true
  | .sadd _ _ _ => true
  | .saddX1 _ _ _ => true
  | .ssub _ _ _ => true
  | .ssubX1 _ _ _ => true
  | .smul _ _ _ _ => true
  | .smulX1 _ _ _ _ => true
  | .sshf _ _ _ _ => true
  | .sshfX1 _ _ _ _ => true
  | .scmp _ _ _ _ => true
  | .scmpX1 _ _ _ _ => true
  | .ssel _ _ _ _ => true
  | .sselX1 _ _ _ _ => true
  | .sdiv _ _ _ _ => true
  | .sdivX1 _ _ _ _ => true
  | .slog fn _ _ op => fn ≠ .not || op = .reg 0
  | .slogX1 fn _ _ _ => fn ≠ .not
  | .smov _ _ => true
  | .sli _ _ => true
  | .sliX1 _ _ => true
  | .cadd _ _ _ _ => true
  | .caddX1 _ _ _ _ => true
  | .cwait _ _ _ => true
  | .cwaitX1 _ _ _ => true
  | .carm _ _ _ => true
  | .carmX1 _ _ _ => true
  | .crd _ _ _ => true
  | .atom o => (o.op = .cas || o.xc = 0) && (o.fetch || o.xd = 0)
  | .atomf o => o.fetch || o.xd = 0
  | .lda _ _ _ _ _ _ => true
  | .strel _ _ _ _ _ => true
  | .fence _ _ => true
  | .barw _ _ => true
  | .phaseRel _ => true
  | .phaseAcq _ => true
  | .emit _ => true
  | .launch _ => true
  | .phint _ => true
  | .fbwr s => sFits s 5
  | .fbrd s => sFits s 5
  | .fbred s _ _ => sFits s 5
  | .ueget s _ => sFits s 4
  | .trap _ => true
  | .rft => true
  | .rdflt _ => true
  | .wpset _ r w a s => (r || w || a) && decide (s.toNat < 31)
  | .wpclr _ => true
  | .bkpt => true
  | .smprd _ m => decide (m.toNat < 5)
  | _ => false

end Sys2Proof
end

