-- ==== Sys2Proof/Decode.lean ====
section
/-!
DEFINITION. Decode.lean: from the words at an instruction's address to the step that a strand makes of them (R148 to R165),
and back. The decoder reads a candidate instruction from the fields that the encoding tables name and accepts it when it is
legal and when its encoding is the very words read: so a reserved bit, a reserved code or a non-zero unused field is never
passed over (R165). Words that are no legal instruction decode to `reservedOpcode` or `orphanPrefix`, the table's own rows
for them.
-/
namespace Sys2Proof

/-! ### Fields and words -/

/-- Bits [hi:lo] of a word, with hi = lo + n − 1. -/
def fld (n lo : Nat) (w : W32) : BitVec n := w.extractLsb' lo n

/-- Bit i of a word as a Bool. -/
def bitAt (i : Nat) (w : W32) : Bool := w.getLsbD i

/-- A Bool as a one-bit field. -/
def b1 (b : Bool) : BitVec 1 := BitVec.ofBool b

/-- A 32-bit main-map word (Table 9.2). -/
def v3Word (op : BitVec 8) (n : Bool) (d a b : BitVec 7) : W32 := 0#2 ++ op ++ b1 n ++ d ++ a ++ b

/-- A 32-bit second-map word (R160). -/
def uWord (op : BitVec 8) (f : BitVec 22) : W32 := 1#2 ++ op ++ f

/-- The base word of a 64-bit instruction: main map (R151). -/
def mBase (op : BitVec 8) (d a b : BitVec 7) : W32 := 3#2 ++ 0#1 ++ op ++ d ++ a ++ b

/-- The base word of a 64-bit instruction: second map (R151). -/
def uBase (op : BitVec 8) (f : BitVec 21) : W32 := 3#2 ++ 1#1 ++ op ++ f

/-- The base word of a 64-bit main-map instruction whose [20:0] hold an own layout (R153). -/
def mBaseF (op : BitVec 8) (f : BitVec 21) : W32 := 3#2 ++ 0#1 ++ op ++ f

/-- An X2 extension word (Table 9.3). -/
def x2Ext (c : BitVec 7) (fn : BitVec 4) (imm : BitVec 21) : W32 := c ++ fn ++ imm

/-- A prefix word (Table 9.6). -/
def Pfx.word (p : Pfx) : W32 :=
  2#2 ++ 0#4 ++ b1 p.et.isSome ++ (p.et.map ETy.code).getD 0 ++ b1 p.rm.isSome ++ (p.rm.map RMode.code).getD 0 ++
  (match p.sat with | none => 0#2 | some false => 1#2 | some true => 2#2) ++ b1 p.rep.isSome ++
  (match p.rep with | none => 0#4 | some r => r.cnt) ++
  (match p.rep with | none => 0#3 | some r => b1 r.incD ++ b1 r.incA ++ b1 r.incB) ++ 0#7

/-- The prefix that a word holds, without regard to its reserved bits, which the comparison with `Pfx.word` checks (R156). -/
def Pfx.ofWord (w : W32) : Option Pfx := do
  let et ← (if bitAt 25 w then (ETy.ofCode (fld 4 21 w)).map some else some none)
  let rm ← (if bitAt 20 w then (RMode.ofCode (fld 3 17 w)).map some else some none)
  let sat ← (match (fld 2 15 w).toNat with | 0 => some none | 1 => some (some false) | 2 => some (some true) | _ => none)
  let rep := if bitAt 14 w then some ⟨fld 4 10 w, bitAt 9 w, bitAt 8 w, bitAt 7 w⟩ else none
  some ⟨et, rm, sat, rep⟩

/-- The code of a register number's selector. -/
def regBits (n : BitVec 5) : BitVec 7 := (Sel.reg (n.setWidth 6)).bits
/-- The code of an s selector. -/
def sBits (n : BitVec 5) : BitVec 7 := (Sel.s n).bits
/-- The code of a queue selector. -/
def qBits (n : BitVec 4) : BitVec 7 := (Sel.queue n).bits
/-- A mask number or a small number in a selector field. -/
def mBits (m : MNum) : BitVec 7 := m.bits.setWidth 7

/-- The x destination that a selector field names (Table 11.2). -/
def xOf (b : BitVec 7) : Option (BitVec 5) := match Sel.ofBits b with | some (.reg n) => some (n.setWidth 5) | _ => none
/-- The s register that a selector field names. -/
def sOf (b : BitVec 7) : Option (BitVec 5) := match Sel.ofBits b with | some (.s n) => some n | _ => none
/-- The queue that a selector field names. -/
def qOf (b : BitVec 7) : Option (BitVec 4) := match Sel.ofBits b with | some (.queue n) => some n | _ => none

/-- CHV and CH as one field of eleven bits, CHV above CH for the layouts that store CH higher (Tables 11.5, 11.6). -/
def chBits (c : Chan) : BitVec 11 := b1 c.chv ++ c.ch
/-- CH above CHV, as Table 11.2 lays them out. -/
def chBitsLow (c : Chan) : BitVec 11 := c.ch ++ b1 c.chv

/-- The SAT field codes (R156). -/
def satBits : Option Bool → BitVec 2
  | none => 0 | some false => 1 | some true => 2
/-- The SAT field decoded. -/
def satOf (b : BitVec 2) : Option (Option Bool) :=
  match b.toNat with | 0 => some none | 1 => some (some false) | 2 => some (some true) | _ => none

/-- Scalar operand field [8:0] (Table 9.7): I, then SB and zeros, or IMM8. -/
def SOp.bits : SOp → BitVec 9
  | .reg s => 0#1 ++ s ++ 0#3
  | .imm i => 1#1 ++ i
/-- The scalar operand of a field. -/
def SOp.ofBits (b : BitVec 9) : SOp := if b.getLsbD 8 then .imm (b.extractLsb' 0 8) else .reg (b.extractLsb' 3 5)

/-- G and CTR (Table 9.7). -/
def Ctr.bits : Ctr → BitVec 7
  | .slot n => 0#1 ++ n
  | .glob s => 1#1 ++ 0#1 ++ s
/-- The counter operand of a field. -/
def Ctr.ofBits (b : BitVec 7) : Ctr := if b.getLsbD 6 then .glob (b.extractLsb' 0 5) else .slot (b.extractLsb' 0 6)

/-- Whether a word names a 64-bit instruction (Table 9.1). -/
def isLong (w : W32) : Bool := fld 2 30 w = 3
/-- Whether a word is a prefix (Table 9.1). -/
def isPfx (w : W32) : Bool := fld 2 30 w = 2
/-- Whether a word begins an instruction of the main map (Table 9.1). -/
def isMain (w : W32) : Bool := fld 2 30 w = 0 || (isLong w && !bitAt 29 w)

/-! ### Candidates, one row per opcode and form -/

/-- A candidate reader: from the prefix, the instruction word and the extension word. -/
abbrev Reader := Option Pfx → W32 → W32 → Option Instr

/-- V3 operands. -/
def rdV3 (f : Option Pfx → V3 → Instr) : Reader := fun p w _ => do
  let d ← Sel.ofBits (fld 7 14 w); let a ← Sel.ofBits (fld 7 7 w); let b ← Sel.ofBits (fld 7 0 w)
  some (f p ⟨bitAt 21 w, d, a, b⟩)
/-- One-source V3 operands. -/
def rdV3u (f : Option Pfx → V3u → Instr) : Reader := fun p w _ => do
  let d ← Sel.ofBits (fld 7 14 w); let a ← Sel.ofBits (fld 7 7 w)
  some (f p ⟨bitAt 21 w, d, a⟩)
/-- X1 operands. -/
def rdX1 (f : Option Pfx → X1 → Instr) : Reader := fun p w e => do
  let d ← Sel.ofBits (fld 7 14 w); let a ← Sel.ofBits (fld 7 7 w); let b ← Sel.ofBits (fld 7 0 w)
  some (f p ⟨d, a, b, e⟩)
/-- One-source X1 operands. -/
def rdX1u (f : Option Pfx → X1u → Instr) : Reader := fun p w e => do
  let d ← Sel.ofBits (fld 7 14 w); let a ← Sel.ofBits (fld 7 7 w)
  some (f p ⟨d, a, e⟩)
/-- Three-source X2 operands. -/
def rdX2c (f : Option Pfx → X2c → Instr) : Reader := fun p w e => do
  let d ← Sel.ofBits (fld 7 14 w); let a ← Sel.ofBits (fld 7 7 w); let b ← Sel.ofBits (fld 7 0 w)
  let c ← Sel.ofBits (fld 7 25 e)
  some (f p ⟨d, a, b, c⟩)
/-- Comparison operands (Table 10.2). -/
def rdCmp (f : Option Pfx → Cond → BitVec 3 → Sel → Sel → Instr) : Reader := fun p w _ => do
  let c ← Cond.ofCode (fld 3 18 w); let a ← Sel.ofBits (fld 7 7 w); let b ← Sel.ofBits (fld 7 0 w)
  some (f p c (fld 3 14 w) a b)
/-- Comparison operands with a literal. -/
def rdCmpX1 (f : Option Pfx → Cond → BitVec 3 → Sel → Sel → W32 → Instr) : Reader := fun p w e => do
  let c ← Cond.ofCode (fld 3 18 w); let a ← Sel.ofBits (fld 7 7 w); let b ← Sel.ofBits (fld 7 0 w)
  some (f p c (fld 3 14 w) a b e)
/-- A mask source written to a register (Table 10.2). -/
def rdKto (f : Option Pfx → Bool → Sel → MNum → Instr) : Reader := fun p w _ => do
  let d ← Sel.ofBits (fld 7 14 w); let m ← MNum.ofBits (fld 4 7 w)
  some (f p (bitAt 21 w) d m)

/-- Main map, 32-bit words: format V3 (Tables 9.2, 9.8, 10.2, 11.3, 13.5). -/
def mainV3 : List (Nat × Reader) :=
  [
   (1, rdV3 .vadd),
   (2, rdV3 .vsub),
   (3, rdV3 .vmul),
   (4, rdV3 .vmulh),
   (6, rdV3u .vneg),
   (7, rdV3u .vabs),
   (8, rdV3 .vmin),
   (9, rdV3 .vmax),
   (10, rdV3 .vavg),
   (11, rdV3 .vsad),
   (12, rdV3 .vaddc),
   (13, rdV3 .vand),
   (14, rdV3 .vor),
   (15, rdV3 .vxor),
   (16, rdV3u .vnot),
   (17, rdV3 .vshl),
   (18, rdV3 .vshr),
   (19, rdV3 .vsra),
   (20, rdV3 .vrot),
   (21, rdV3u .vpopc),
   (22, rdV3u .vclz),
   (23, rdV3u .vbrev),
   (27, rdV3u .vmov),
   (28, rdV3 .vdiv),
   (29, rdV3 .vrem),
   (30, rdCmp .vcmp),
   (32, rdV3 .vshuf),
   (33, rdV3 .vbcast),
   (34, rdV3 .vrott),
   (37, fun p w _ => do let sd ← sOf (fld 7 14 w); let a ← Sel.ofBits (fld 7 7 w); some (.v2s p (bitAt 21 w) sd a)),
   (38, rdV3 .vidx),
   (48, fun p w _ => do let fn ← KFn.ofCode (fld 3 18 w); let d ← MNum.ofBits (fld 4 14 w); let a ← MNum.ofBits (fld 4 7 w); let b ← MNum.ofBits (fld 4 0 w); some (.kop p fn d a b)),
   (49, fun p w _ => do let s ← sOf (fld 7 7 w); some (.kfroms p (fld 3 14 w) s)),
   (50, rdKto .ktos),
   (51, rdKto .kpopc),
   (52, rdKto .kffs),
   (53, fun p w _ => some (.setem p (if bitAt 13 w then .imm (fld 1 7 w ++ fld 7 0 w) else .k (fld 3 7 w)))),
   (54, fun p w _ => some (.emsave p (fld 3 14 w))),
   (55, fun p w _ => some (.emrest p (fld 3 7 w))),
   (64, rdV3 .fadd)]
  ++ [
   (65, rdV3 .fsub),
   (66, rdV3 .fmul),
   (68, rdV3 .fmac),
   (69, rdV3 .fmin),
   (70, rdV3 .fmax),
   (71, rdV3u .fabs),
   (72, rdV3u .fneg),
   (73, rdV3u .frcp),
   (74, rdV3u .frsq),
   (75, rdV3u .fsqrt),
   (76, rdV3 .fdiv),
   (77, rdV3u .fexp2),
   (78, rdV3u .flog2),
   (79, rdV3u .fsin),
   (80, rdV3u .fcos),
   (81, rdV3u .frint),
   (82, rdV3u .fclass),
   (83, rdV3 .fscl),
   (84, rdCmp .fcmp),
   (85, rdV3 .fdot2),
   (86, rdV3 .fdot4),
   (88, rdV3u .ftanh),
   (97, rdV3 .pack),
   (98, rdV3 .unpack),
   (99, rdV3u .qscale),
   (112, fun p w _ => do let d ← Sel.ofBits (fld 7 14 w); let q ← qOf (fld 7 7 w); some (.deq p d q)),
   (113, fun p w _ => do let q ← qOf (fld 7 14 w); let a ← Sel.ofBits (fld 7 7 w); some (.enq p q a (fld 2 0 w))),
   (114, fun p w _ => do let d ← Sel.ofBits (fld 7 14 w); some (.qcnt p (bitAt 21 w) d (fld 4 7 w))),
   (115, fun p w _ => some (.qdrop p (fld 4 7 w))),
   (120, fun p w _ => do let d ← Sel.ofBits (fld 7 14 w); let a ← Sel.ofBits (fld 7 7 w); some (.acrd p (bitAt 21 w) d a)),
   (121, fun p w _ => do let a ← Sel.ofBits (fld 7 7 w); let b ← Sel.ofBits (fld 7 0 w); some (.acwr p (bitAt 14 w) a b)),
   (135, fun p w _ => do let d ← xOf (fld 7 14 w); let a ← Sel.ofBits (fld 7 7 w); let z ← SZ.ofCode (fld 3 0 w); some (.lds p d a z)),
   (136, fun p w _ => do let z ← SZ.ofCode (fld 3 14 w); let a ← Sel.ofBits (fld 7 7 w); let b ← Sel.ofBits (fld 7 0 w); some (.sts p z a b)),
   (137, fun p w _ => do let d ← xOf (fld 7 14 w); let a ← Sel.ofBits (fld 7 7 w); let z ← SZ.ofCode (fld 3 0 w); some (.ldc p d a z)),
   (138, fun p w _ => do let z ← SZ.ofCode (fld 3 14 w); let a ← Sel.ofBits (fld 7 7 w); let b ← Sel.ofBits (fld 7 0 w); some (.stf p z a b)),
   (139, fun p w _ => do let d ← xOf (fld 7 14 w); let a ← Sel.ofBits (fld 7 7 w); let f ← FeqOp.ofCode (fld 2 0 w); some (.feq p (bitAt 21 w) d a f)),
   (142, fun p w _ => do let b ← Sel.ofBits (fld 7 0 w); some (.bfset p (fld 6 14 w) (fld 2 7 w) b)),
   (143, fun p w _ => do let d ← xOf (fld 7 14 w); some (.bfget p (bitAt 21 w) d (fld 6 7 w) (fld 2 0 w))),
   (147, fun p w _ => do let t ← Path.ofCode (fld 2 14 w); let a ← Sel.ofBits (fld 7 7 w); some (.waitf p t a)),
   (148, fun p w _ => do let d ← xOf (fld 7 14 w); let t ← Path.ofCode (fld 2 7 w); some (.infl p (bitAt 21 w) d t))]
  ++ [
   (149, fun p w _ => do let a ← Sel.ofBits (fld 7 7 w); let b ← Sel.ofBits (fld 7 0 w); some (.land p (fld 3 14 w) a b)),
   (161, fun p w _ => do let y ← TileTy.ofCode (fld 2 0 w); some (.mzero p (fld 5 14 w) (fld 6 7 w) y)),
   (162, fun p w _ => do let a ← Sel.ofBits (fld 7 7 w); some (.mscl p (fld 5 14 w) a (fld 6 0 w))),
   (169, fun p w _ => do let b ← Sel.ofBits (fld 7 0 w); some (.tdset p (fld 5 14 w) (fld 3 7 w) b))]

/-- Main map, 64-bit words with an X1 extension (Tables 9.3, 9.8). -/
def mainX1 : List (Nat × Reader) :=
  [
   (1, rdX1 .vaddX1),
   (2, rdX1 .vsubX1),
   (3, rdX1 .vmulX1),
   (4, rdX1 .vmulhX1),
   (6, rdX1u .vnegX1),
   (7, rdX1u .vabsX1),
   (8, rdX1 .vminX1),
   (9, rdX1 .vmaxX1),
   (10, rdX1 .vavgX1),
   (11, rdX1 .vsadX1),
   (12, rdX1 .vaddcX1),
   (13, rdX1 .vandX1),
   (14, rdX1 .vorX1),
   (15, rdX1 .vxorX1),
   (16, rdX1u .vnotX1),
   (17, rdX1 .vshlX1),
   (18, rdX1 .vshrX1),
   (19, rdX1 .vsraX1),
   (20, rdX1 .vrotX1),
   (27, rdX1u .vmovX1),
   (28, rdX1 .vdivX1),
   (29, rdX1 .vremX1),
   (30, rdCmpX1 .vcmpX1),
   (32, rdX1 .vshufX1),
   (33, rdX1 .vbcastX1),
   (34, rdX1 .vrottX1),
   (64, rdX1 .faddX1),
   (65, rdX1 .fsubX1),
   (66, rdX1 .fmulX1),
   (68, rdX1 .fmacX1),
   (69, rdX1 .fminX1),
   (70, rdX1 .fmaxX1),
   (71, rdX1u .fabsX1),
   (72, rdX1u .fnegX1),
   (73, rdX1u .frcpX1),
   (74, rdX1u .frsqX1),
   (75, rdX1u .fsqrtX1),
   (76, rdX1 .fdivX1),
   (77, rdX1u .fexp2X1),
   (78, rdX1u .flog2X1)]
  ++ [
   (79, rdX1u .fsinX1),
   (80, rdX1u .fcosX1),
   (81, rdX1u .frintX1),
   (82, rdX1u .fclassX1),
   (83, rdX1 .fsclX1),
   (84, rdCmpX1 .fcmpX1),
   (85, rdX1 .fdot2X1),
   (86, rdX1 .fdot4X1),
   (88, rdX1u .ftanhX1),
   (97, rdX1 .packX1),
   (98, rdX1 .unpackX1),
   (120, fun p w e => do let d ← Sel.ofBits (fld 7 14 w); let a ← Sel.ofBits (fld 7 7 w); some (.acrdX1 p d a e)),
   (121, fun p w e => do let a ← Sel.ofBits (fld 7 7 w); let b ← Sel.ofBits (fld 7 0 w); some (.acwrX1 p (bitAt 14 w) a b e)),
   (135, fun p w e => do let d ← xOf (fld 7 14 w); let a ← Sel.ofBits (fld 7 7 w); let z ← SZ.ofCode (fld 3 0 w); some (.ldsX1 p d a z e)),
   (136, fun p w e => do let z ← SZ.ofCode (fld 3 14 w); let a ← Sel.ofBits (fld 7 7 w); let b ← Sel.ofBits (fld 7 0 w); some (.stsX1 p z a b e)),
   (162, fun p w e => do let a ← Sel.ofBits (fld 7 7 w); some (.msclX1 p (fld 5 14 w) a (fld 6 0 w) e))]

/-- Main map, 64-bit words with an X2 extension (Tables 10.3, 11.2). -/
def mainX2 : List (Nat × Reader) :=
  [
   (5, rdX2c .vmad),
   (24, fun p w e => do let d ← Sel.ofBits (fld 7 14 w); let a ← Sel.ofBits (fld 7 7 w); some (.vbfx p d a (bitAt 21 e) (fld 6 0 e) (fld 6 6 e))),
   (25, fun p w e => do let d ← Sel.ofBits (fld 7 14 w); let a ← Sel.ofBits (fld 7 7 w); let b ← Sel.ofBits (fld 7 0 w); some (.vbfi p d a b (fld 6 0 e) (fld 6 6 e))),
   (26, fun p w e => do let d ← Sel.ofBits (fld 7 14 w); let a ← Sel.ofBits (fld 7 7 w); let b ← Sel.ofBits (fld 7 0 w); some (.vsel p d a b (fld 3 21 e))),
   (31, rdX2c .vclamp),
   (35, fun p w e => do let d ← Sel.ofBits (fld 7 14 w); let a ← Sel.ofBits (fld 7 7 w); let f ← RedFn.ofCode (fld 4 21 e); some (.vred p d a f)),
   (36, fun p w e => do let d ← Sel.ofBits (fld 7 14 w); let a ← Sel.ofBits (fld 7 7 w); let f ← RedFn.ofCode (fld 4 21 e); some (.vscan p d a f (bitAt 0 e) (if bitAt 1 e then some (fld 3 2 e) else none))),
   (67, rdX2c .fma),
   (87, rdX2c .fclamp),
   (96, fun p w e => do let d ← Sel.ofBits (fld 7 14 w); let a ← Sel.ofBits (fld 7 7 w); let s ← ETy.ofCode (fld 4 0 e); let t ← ETy.ofCode (fld 4 4 e); let rm ← (if bitAt 11 e then (RMode.ofCode (fld 3 8 e)).map some else some none); let sat ← satOf (fld 2 12 e); some (.cvt p ⟨d, a, s, t, rm, sat⟩)),
   (113, fun p w e => do let q ← qOf (fld 7 14 w); let a ← Sel.ofBits (fld 7 7 w); some (.enqX2 p q a (fld 2 0 w) (fld 12 0 e))),
   (128, fun p w e => do let d ← xOf (fld 7 14 w); let a ← Sel.ofBits (fld 7 7 w); some (.ld p d a (bitAt 21 e) (fld 6 0 e))),
   (129, fun p w e => do let a ← Sel.ofBits (fld 7 7 w); let b ← Sel.ofBits (fld 7 0 w); some (.st p a b (fld 6 0 e))),
   (130, fun p w e => do let q ← qOf (fld 7 14 w); let a ← Sel.ofBits (fld 7 7 w); some (.ldq p q a (bitAt 21 e) (fld 6 0 e) (Chan.mk (bitAt 6 e) (fld 10 7 e)))),
   (133, fun p w e => do let q ← qOf (fld 7 7 w); let b ← Sel.ofBits (fld 7 0 w); some (.stq p q b (fld 6 0 e))),
   (134, fun p w e => do let q ← qOf (fld 7 7 w); let b ← Sel.ofBits (fld 7 0 w); some (.scatq p q b (fld 6 0 e))),
   (140, fun p w e => do let q ← qOf (fld 7 14 w); let a ← Sel.ofBits (fld 7 7 w); some (.ldsq p q a (bitAt 21 e) (fld 8 0 e) (Chan.mk (bitAt 8 e) (fld 10 9 e)))),
   (141, fun p w e => do let q ← qOf (fld 7 7 w); let b ← Sel.ofBits (fld 7 0 w); some (.stsq p q b (fld 8 0 e))),
   (144, fun p w e => do let a ← Sel.ofBits (fld 7 7 w); let b ← Sel.ofBits (fld 7 0 w); some (.pfr p a b (fld 6 0 e))),
   (145, fun p w e => do let a ← Sel.ofBits (fld 7 7 w); let b ← Sel.ofBits (fld 7 0 w); some (.pft p a b (fld 6 0 e)))]

/-- Main map, 64-bit words with their own layout (Tables 11.5, 11.6, 13.3, 13.5, 13.8). -/
def mainX3 : List (Nat × Reader) :=
  [
   (131, fun p w e => do let q ← qOf (fld 7 14 w); let a ← Sel.ofBits (fld 7 7 w); let b ← Sel.ofBits (fld 7 0 w); some (.ldqb p ⟨q, a, b, fld 6 26 e, bitAt 25 e, bitAt 24 e, bitAt 23 e, Chan.mk (bitAt 22 e) (fld 10 12 e)⟩)),
   (132, fun p w e => do let q ← qOf (fld 7 14 w); let a ← Sel.ofBits (fld 7 7 w); let ch := Chan.mk (bitAt 22 e) (fld 10 12 e); if bitAt 25 e then (Sel.ofBits (fld 7 0 w)).map (fun b => .gatherqList p ⟨q, a, b, fld 6 26 e, bitAt 24 e, ch, fld 6 6 e⟩) else some (.gatherq p q a (fld 6 26 e) (bitAt 24 e) (bitAt 23 e) ch)),
   (146, fun p w e => some (.nzscan p ⟨fld 5 16 w, fld 5 11 w, fld 5 6 w, fld 6 0 w, fld 4 28 e, if bitAt 23 e then some (fld 4 24 e) else none, bitAt 22 e, bitAt 21 e, Chan.mk (bitAt 20 e) (fld 10 10 e)⟩)),
   (160, fun p w e => do let a ← sOf (fld 7 7 w); let b ← sOf (fld 7 0 w); some (.mloop p ⟨fld 5 14 w, a, b, fld 10 21 e, bitAt 19 e, fld 6 13 e, fld 6 7 e, bitAt 6 e, fld 6 0 e⟩)),
   (163, fun p w e => do let s ← sOf (fld 7 7 w); some (.mdrain p (fld 5 14 w) s (bitAt 31 e) (fld 6 0 e))),
   (164, fun p w e => do let s ← sOf (fld 7 7 w); let y ← TileTy.ofCode (fld 2 6 e); some (.mfill p (fld 5 14 w) s y (fld 6 0 e))),
   (165, fun p w e => do let arm ← RMode.ofCode (fld 3 15 w); let a ← Sel.ofBits (fld 7 7 w); let geo ← (match a with | .s n => some (some n) | .const 0 => some none | _ => none); some (.mcfg p (bitAt 14 w) arm geo (fld 6 0 e))),
   (166, fun p w e => some (.tcopy p ⟨fld 5 16 w, fld 3 13 w, fld 6 7 w, fld 5 2 w, fld 6 0 e⟩)),
   (167, fun p w _ => some (.tstore p (fld 5 16 w) (fld 5 11 w) (fld 6 5 w) (fld 5 0 w))),
   (168, fun p w e => some (.tmcast p ⟨fld 5 16 w, fld 3 13 w, fld 6 7 w, fld 5 2 w, fld 6 0 e⟩ (fld 16 6 e)))]

/-- Second map, 32-bit words (Tables 9.7, 9.9). -/
def second32 : List (Nat × Reader) :=
  [
   (0, fun _ _ _ => some .nop),
   (1, fun _ w _ => some (.br (fld 16 0 w))),
   (2, fun _ w _ => do let c ← BCond.ofCode (fld 3 19 w); some (.brc c (fld 3 16 w) (fld 16 0 w))),
   (4, fun _ w _ => some (.brt (fld 2 20 w) (bitAt 19 w) (fld 16 0 w))),
   (5, fun _ w _ => some (.loop (fld 5 17 w) (fld 16 0 w))),
   (6, fun _ w _ => some (.call (fld 5 17 w) (fld 16 0 w))),
   (7, fun _ w _ => some (.ret (fld 5 17 w))),
   (8, fun _ _ _ => some .exit),
   (9, fun _ _ _ => some .yield),
   (10, fun _ w _ => some (.setmode (fld 5 17 w) (bitAt 16 w))),
   (11, fun _ w _ => some (.getmode (fld 5 17 w))),
   (12, fun _ w _ => do let r ← SpecReg.ofCode (fld 5 12 w); some (.rdspec (fld 5 17 w) r)),
   (13, fun _ w _ => some (.flags (fld 5 17 w) (fld 6 0 w))),
   (32, fun _ w _ => some (.sadd (fld 5 17 w) (fld 5 12 w) (SOp.ofBits (fld 9 0 w)))),
   (33, fun _ w _ => some (.ssub (fld 5 17 w) (fld 5 12 w) (SOp.ofBits (fld 9 0 w)))),
   (34, fun _ w _ => do let f ← SMulFn.ofCode (fld 3 9 w); some (.smul f (fld 5 17 w) (fld 5 12 w) (SOp.ofBits (fld 9 0 w)))),
   (35, fun _ w _ => do let f ← SLogFn.ofCode (fld 3 9 w); some (.slog f (fld 5 17 w) (fld 5 12 w) (SOp.ofBits (fld 9 0 w)))),
   (36, fun _ w _ => do let f ← SShfFn.ofCode (fld 3 9 w); some (.sshf f (fld 5 17 w) (fld 5 12 w) (SOp.ofBits (fld 9 0 w)))),
   (37, fun _ w _ => do let f ← Cond.ofCode (fld 3 9 w); some (.scmp f (fld 5 17 w) (fld 5 12 w) (SOp.ofBits (fld 9 0 w)))),
   (38, fun _ w _ => some (.smov (fld 5 17 w) (fld 5 12 w))),
   (39, fun _ w _ => some (.sli (fld 5 17 w) (fld 17 0 w))),
   (40, fun _ w _ => some (.ssel (fld 3 9 w) (fld 5 17 w) (fld 5 12 w) (SOp.ofBits (fld 9 0 w)))),
   (41, fun _ w _ => do let f ← SDivFn.ofCode (fld 3 9 w); some (.sdiv f (fld 5 17 w) (fld 5 12 w) (SOp.ofBits (fld 9 0 w)))),
   (64, fun _ w _ => do let sc ← Scope.ofCode (fld 2 20 w); some (.cadd sc (bitAt 18 w) (Ctr.ofBits (fld 7 11 w)) (fld 5 6 w))),
   (65, fun _ w _ => do let sc ← Scope.ofCode (fld 2 20 w); some (.cwait sc (Ctr.ofBits (fld 7 11 w)) (fld 5 6 w))),
   (66, fun _ w _ => some (.carm (bitAt 20 w) (Ctr.ofBits (fld 7 11 w)) (if bitAt 19 w then .dis else if bitAt 0 w then .emit (fld 5 6 w) (fld 5 1 w) else .notice (fld 5 6 w)))),
   (67, fun _ w _ => do let sc ← Scope.ofCode (fld 2 20 w); some (.crd sc (Ctr.ofBits (fld 7 11 w)) (fld 5 6 w))),
   (72, fun _ w _ => do let sc ← Scope.ofCode (fld 2 20 w); some (.fence sc (if bitAt 19 w then .acq else if bitAt 18 w then .rel else .full))),
   (73, fun _ w _ => do let sl ← BarSl.ofCode (fld 2 9 w); some (.barw (fld 3 11 w) sl)),
   (74, fun _ w _ => some (if bitAt 19 w then .phaseAcq (bitAt 20 w) else .phaseRel (bitAt 20 w))),
   (96, fun _ w _ => some (.emit (fld 5 17 w))),
   (97, fun _ w _ => some (.launch (fld 5 17 w))),
   (98, fun _ w _ => some (.phint (bitAt 21 w))),
   (112, fun _ w _ => some (.fbwr (fld 5 17 w))),
   (113, fun _ w _ => some (.fbrd (fld 5 17 w))),
   (114, fun _ w _ => do let op ← FOp.ofCode (fld 3 14 w); let ty ← RedTy.ofCode (fld 3 11 w); some (.fbred (fld 5 17 w) op ty)),
   (115, fun _ w _ => some (.ueget (fld 5 17 w) (fld 4 13 w))),
   (128, fun _ w _ => some (.trap (fld 16 0 w))),
   (129, fun _ _ _ => some .rft),
   (130, fun _ w _ => some (.rdflt (fld 3 19 w)))]
  ++ [
   (131, fun _ w _ => some (.wpset (fld 3 19 w) (bitAt 18 w) (bitAt 17 w) (bitAt 16 w) (fld 5 11 w))),
   (132, fun _ w _ => some (.wpclr (fld 3 19 w))),
   (133, fun _ _ _ => some .bkpt),
   (134, fun _ w _ => some (.smprd (fld 2 20 w) (fld 3 14 w)))]

/-- Second map, 64-bit words: X1 and X3 (Tables 9.7, 9.9). -/
def second64 : List (Nat × Reader) :=
  [
   (3, fun _ w e => some (.brd (fld 3 18 w) (bitAt 17 w) (fld 16 16 e) (fld 16 0 e))),
   (32, fun _ w e => some (.saddX1 (fld 5 16 w) (fld 5 11 w) e)),
   (33, fun _ w e => some (.ssubX1 (fld 5 16 w) (fld 5 11 w) e)),
   (34, fun _ w e => do let f ← SMulFn.ofCode (fld 3 8 w); some (.smulX1 f (fld 5 16 w) (fld 5 11 w) e)),
   (35, fun _ w e => do let f ← SLogFn.ofCode (fld 3 8 w); some (.slogX1 f (fld 5 16 w) (fld 5 11 w) e)),
   (36, fun _ w e => do let f ← SShfFn.ofCode (fld 3 8 w); some (.sshfX1 f (fld 5 16 w) (fld 5 11 w) e)),
   (37, fun _ w e => do let f ← Cond.ofCode (fld 3 8 w); some (.scmpX1 f (fld 5 16 w) (fld 5 11 w) e)),
   (39, fun _ w e => some (.sliX1 (fld 5 16 w) e)),
   (40, fun _ w e => some (.sselX1 (fld 3 8 w) (fld 5 16 w) (fld 5 11 w) e)),
   (41, fun _ w e => do let f ← SDivFn.ofCode (fld 3 8 w); some (.sdivX1 f (fld 5 16 w) (fld 5 11 w) e)),
   (64, fun _ w e => do let sc ← Scope.ofCode (fld 2 19 w); some (.caddX1 sc (bitAt 18 w) (Ctr.ofBits (fld 7 11 w)) e)),
   (65, fun _ w e => do let sc ← Scope.ofCode (fld 2 19 w); some (.cwaitX1 sc (Ctr.ofBits (fld 7 11 w)) e)),
   (66, fun _ w e => some (.carmX1 (bitAt 19 w) (Ctr.ofBits (fld 7 11 w)) (if bitAt 0 w then .emit e (fld 5 1 w) else .notice e))),
   (68, fun _ w e => do let sc ← Scope.ofCode (fld 2 30 e); let op ← AOp.ofCode (fld 3 24 e); some (.atom ⟨sc, bitAt 29 e, bitAt 28 e, bitAt 27 e, op, fld 6 18 e, bitAt 17 e, bitAt 16 e, fld 5 16 w, fld 5 11 w, fld 5 6 w, fld 5 1 w⟩)),
   (69, fun _ w e => do let sc ← Scope.ofCode (fld 2 30 e); let op ← FOp.ofCode (fld 3 24 e); some (.atomf ⟨sc, bitAt 29 e, bitAt 28 e, bitAt 27 e, op, fld 6 18 e, bitAt 17 e, fld 5 16 w, fld 5 11 w, fld 5 6 w⟩)),
   (70, fun _ w e => do let sc ← Scope.ofCode (fld 2 30 e); some (.lda sc (fld 6 18 e) (bitAt 17 e) (bitAt 16 e) (fld 5 16 w) (fld 5 11 w))),
   (71, fun _ w e => do let sc ← Scope.ofCode (fld 2 30 e); some (.strel sc (fld 6 18 e) (bitAt 17 e) (fld 5 11 w) (fld 5 6 w)))]

/-- The reader of an opcode in a table; an opcode that the table does not list has none (R162, R163). -/
def readerOf (t : List (Nat × Reader)) (op : Nat) : Option Reader := (t.find? (fun r => r.1 == op)).map Prod.snd

/-- The readers for 64-bit main-map words: each opcode has one 64-bit form (Table 9.8). -/
def mainLong : List (Nat × Reader) := mainX1 ++ mainX2 ++ mainX3

/-- The candidate that an instruction word, its extension and its prefix read as. -/
def candidate (p : Option Pfx) (w e : W32) : Option Instr :=
  if isLong w then
    (readerOf (if bitAt 29 w then second64 else mainLong) (fld 8 21 w).toNat).bind (fun r => r p w e)
  else
    (readerOf (if bitAt 30 w then second32 else mainV3) (fld 8 22 w).toNat).bind (fun r => r p w e)

/-! ### The encoder -/

/-- A prefix word before an instruction's words. -/
def eP (p : Option Pfx) (ws : List W32) : List W32 := (p.map Pfx.word).toList ++ ws
/-- V3 words. -/
def eV3 (op : BitVec 8) (o : V3) : List W32 := [v3Word op o.n o.d.bits o.a.bits o.b.bits]
/-- One-source V3 words. -/
def eV3u (op : BitVec 8) (o : V3u) : List W32 := [v3Word op o.n o.d.bits o.a.bits 0]
/-- X1 words. -/
def eX1 (op : BitVec 8) (o : X1) : List W32 := [mBase op o.d.bits o.a.bits o.b.bits, o.lit]
/-- One-source X1 words. -/
def eX1u (op : BitVec 8) (o : X1u) : List W32 := [mBase op o.d.bits o.a.bits 0, o.lit]

/-- The words of an instruction, first word first; none for an event and for the steps of words that are no instruction. -/
def encode : Instr → List W32
  | .vadd p o => eP p (eV3 1 o)
  | .vaddX1 p o => eP p (eX1 1 o)
  | .vsub p o => eP p (eV3 2 o)
  | .vsubX1 p o => eP p (eX1 2 o)
  | .vmul p o => eP p (eV3 3 o)
  | .vmulX1 p o => eP p (eX1 3 o)
  | .vmulh p o => eP p (eV3 4 o)
  | .vmulhX1 p o => eP p (eX1 4 o)
  | .vmin p o => eP p (eV3 8 o)
  | .vminX1 p o => eP p (eX1 8 o)
  | .vmax p o => eP p (eV3 9 o)
  | .vmaxX1 p o => eP p (eX1 9 o)
  | .vavg p o => eP p (eV3 10 o)
  | .vavgX1 p o => eP p (eX1 10 o)
  | .vsad p o => eP p (eV3 11 o)
  | .vsadX1 p o => eP p (eX1 11 o)
  | .vaddc p o => eP p (eV3 12 o)
  | .vaddcX1 p o => eP p (eX1 12 o)
  | .vand p o => eP p (eV3 13 o)
  | .vandX1 p o => eP p (eX1 13 o)
  | .vor p o => eP p (eV3 14 o)
  | .vorX1 p o => eP p (eX1 14 o)
  | .vxor p o => eP p (eV3 15 o)
  | .vxorX1 p o => eP p (eX1 15 o)
  | .vshl p o => eP p (eV3 17 o)
  | .vshlX1 p o => eP p (eX1 17 o)
  | .vshr p o => eP p (eV3 18 o)
  | .vshrX1 p o => eP p (eX1 18 o)
  | .vsra p o => eP p (eV3 19 o)
  | .vsraX1 p o => eP p (eX1 19 o)
  | .vrot p o => eP p (eV3 20 o)
  | .vrotX1 p o => eP p (eX1 20 o)
  | .vdiv p o => eP p (eV3 28 o)
  | .vdivX1 p o => eP p (eX1 28 o)
  | .vrem p o => eP p (eV3 29 o)
  | .vremX1 p o => eP p (eX1 29 o)
  | .vshuf p o => eP p (eV3 32 o)
  | .vshufX1 p o => eP p (eX1 32 o)
  | .vbcast p o => eP p (eV3 33 o)
  | .vbcastX1 p o => eP p (eX1 33 o)
  | .vrott p o => eP p (eV3 34 o)
  | .vrottX1 p o => eP p (eX1 34 o)
  | .fadd p o => eP p (eV3 64 o)
  | .faddX1 p o => eP p (eX1 64 o)
  | .fsub p o => eP p (eV3 65 o)
  | .fsubX1 p o => eP p (eX1 65 o)
  | .fmul p o => eP p (eV3 66 o)
  | .fmulX1 p o => eP p (eX1 66 o)
  | .fmin p o => eP p (eV3 69 o)
  | .fminX1 p o => eP p (eX1 69 o)
  | .fmax p o => eP p (eV3 70 o)
  | .fmaxX1 p o => eP p (eX1 70 o)
  | .fdiv p o => eP p (eV3 76 o)
  | .fdivX1 p o => eP p (eX1 76 o)
  | .fscl p o => eP p (eV3 83 o)
  | .fsclX1 p o => eP p (eX1 83 o)
  | .unpack p o => eP p (eV3 98 o)
  | .unpackX1 p o => eP p (eX1 98 o)
  | .fmac p o => eP p (eV3 68 o)
  | .fmacX1 p o => eP p (eX1 68 o)
  | .fdot2 p o => eP p (eV3 85 o)
  | .fdot2X1 p o => eP p (eX1 85 o)
  | .fdot4 p o => eP p (eV3 86 o)
  | .fdot4X1 p o => eP p (eX1 86 o)
  | .pack p o => eP p (eV3 97 o)
  | .packX1 p o => eP p (eX1 97 o)
  | .vneg p o => eP p (eV3u 6 o)
  | .vnegX1 p o => eP p (eX1u 6 o)
  | .vabs p o => eP p (eV3u 7 o)
  | .vabsX1 p o => eP p (eX1u 7 o)
  | .vnot p o => eP p (eV3u 16 o)
  | .vnotX1 p o => eP p (eX1u 16 o)
  | .vmov p o => eP p (eV3u 27 o)
  | .vmovX1 p o => eP p (eX1u 27 o)
  | .fabs p o => eP p (eV3u 71 o)
  | .fabsX1 p o => eP p (eX1u 71 o)
  | .fneg p o => eP p (eV3u 72 o)
  | .fnegX1 p o => eP p (eX1u 72 o)
  | .frcp p o => eP p (eV3u 73 o)
  | .frcpX1 p o => eP p (eX1u 73 o)
  | .frsq p o => eP p (eV3u 74 o)
  | .frsqX1 p o => eP p (eX1u 74 o)
  | .fsqrt p o => eP p (eV3u 75 o)
  | .fsqrtX1 p o => eP p (eX1u 75 o)
  | .fexp2 p o => eP p (eV3u 77 o)
  | .fexp2X1 p o => eP p (eX1u 77 o)
  | .flog2 p o => eP p (eV3u 78 o)
  | .flog2X1 p o => eP p (eX1u 78 o)
  | .fsin p o => eP p (eV3u 79 o)
  | .fsinX1 p o => eP p (eX1u 79 o)
  | .fcos p o => eP p (eV3u 80 o)
  | .fcosX1 p o => eP p (eX1u 80 o)
  | .frint p o => eP p (eV3u 81 o)
  | .frintX1 p o => eP p (eX1u 81 o)
  | .fclass p o => eP p (eV3u 82 o)
  | .fclassX1 p o => eP p (eX1u 82 o)
  | .ftanh p o => eP p (eV3u 88 o)
  | .ftanhX1 p o => eP p (eX1u 88 o)
  | .vpopc p o => eP p (eV3u 21 o)
  | .vclz p o => eP p (eV3u 22 o)
  | .vbrev p o => eP p (eV3u 23 o)
  | .qscale p o => eP p (eV3u 99 o)
  | .vmad p o => eP p [mBase 5 o.d.bits o.a.bits o.b.bits, x2Ext o.c.bits 0 0]
  | .vclamp p o => eP p [mBase 31 o.d.bits o.a.bits o.b.bits, x2Ext o.c.bits 0 0]
  | .fma p o => eP p [mBase 67 o.d.bits o.a.bits o.b.bits, x2Ext o.c.bits 0 0]
  | .fclamp p o => eP p [mBase 87 o.d.bits o.a.bits o.b.bits, x2Ext o.c.bits 0 0]
  | .vcmp p c k a b => eP p [v3Word 30 false (c.code ++ 0#1 ++ k) a.bits b.bits]
  | .vcmpX1 p c k a b l => eP p [mBase 30 (c.code ++ 0#1 ++ k) a.bits b.bits, l]
  | .fcmp p c k a b => eP p [v3Word 84 false (c.code ++ 0#1 ++ k) a.bits b.bits]
  | .fcmpX1 p c k a b l => eP p [mBase 84 (c.code ++ 0#1 ++ k) a.bits b.bits, l]
  | .ktos p n d m => eP p [v3Word 50 n d.bits (mBits m) 0]
  | .kpopc p n d m => eP p [v3Word 51 n d.bits (mBits m) 0]
  | .kffs p n d m => eP p [v3Word 52 n d.bits (mBits m) 0]
  | .vidx p o => eP p (eV3 38 o)
  | .v2s p n sd a => eP p [v3Word 37 n (sBits sd) a.bits 0]
  | .kop p fn d a b => eP p [v3Word 48 false (fn.code ++ d.bits) (mBits a) (mBits b)]
  | .kfroms p k s => eP p [v3Word 49 false (k.setWidth 7) (sBits s) 0]
  | .setem p (.k n) => eP p [v3Word 53 false 0 (n.setWidth 7) 0]
  | .setem p (.imm m) => eP p [v3Word 53 false 0 (1#1 ++ 0#5 ++ b1 (m.getLsbD 7)) (m.setWidth 7)]
  | .emsave p k => eP p [v3Word 54 false (k.setWidth 7) 0 0]
  | .emrest p k => eP p [v3Word 55 false 0 (k.setWidth 7) 0]
  | .deq p d q => eP p [v3Word 112 false d.bits (qBits q) 0]
  | .enq p q a t => eP p [v3Word 113 false (qBits q) a.bits (t.setWidth 7)]
  | .qcnt p n d q => eP p [v3Word 114 n d.bits (q.setWidth 7) 0]
  | .qdrop p q => eP p [v3Word 115 false 0 (q.setWidth 7) 0]
  | .acrd p n d a => eP p [v3Word 120 n d.bits a.bits 0]
  | .acwr p add a b => eP p [v3Word 121 false ((b1 add).setWidth 7) a.bits b.bits]
  | .acrdX1 p d a l => eP p [mBase 120 d.bits a.bits 0, l]
  | .acwrX1 p add a b l => eP p [mBase 121 ((b1 add).setWidth 7) a.bits b.bits, l]
  | .lds p d a z => eP p [v3Word 135 false (regBits d) a.bits (z.code.setWidth 7)]
  | .ldsX1 p d a z l => eP p [mBase 135 (regBits d) a.bits (z.code.setWidth 7), l]
  | .sts p z a b => eP p [v3Word 136 false (z.code.setWidth 7) a.bits b.bits]
  | .stsX1 p z a b l => eP p [mBase 136 (z.code.setWidth 7) a.bits b.bits, l]
  | .ldc p d a z => eP p [v3Word 137 false (regBits d) a.bits (z.code.setWidth 7)]
  | .stf p z a b => eP p [v3Word 138 false (z.code.setWidth 7) a.bits b.bits]
  | .feq p n d a f => eP p [v3Word 139 n (regBits d) a.bits (f.code.setWidth 7)]
  | .bfset p bf wd b => eP p [v3Word 142 false (bf.setWidth 7) (wd.setWidth 7) b.bits]
  | .bfget p n d bf wd => eP p [v3Word 143 n (regBits d) (bf.setWidth 7) (wd.setWidth 7)]
  | .waitf p t a => eP p [v3Word 147 false (t.code.setWidth 7) a.bits 0]
  | .infl p n d t => eP p [v3Word 148 n (regBits d) (t.code.setWidth 7) 0]
  | .land p l a b => eP p [v3Word 149 false (l.setWidth 7) a.bits b.bits]
  | .mzero p t c y => eP p [v3Word 161 false (t.setWidth 7) (c.setWidth 7) (y.code.setWidth 7)]
  | .mscl p t a c => eP p [v3Word 162 false (t.setWidth 7) a.bits (c.setWidth 7)]
  | .msclX1 p t a c l => eP p [mBase 162 (t.setWidth 7) a.bits (c.setWidth 7), l]
  | .tdset p t wd b => eP p [v3Word 169 false (t.setWidth 7) (wd.setWidth 7) b.bits]
  | .vbfx p d a sx ps ln => eP p [mBase 24 d.bits a.bits 0, x2Ext 0 ((b1 sx).setWidth 4) ((ln ++ ps).setWidth 21)]
  | .vbfi p d a b ps ln => eP p [mBase 25 d.bits a.bits b.bits, x2Ext 0 0 ((ln ++ ps).setWidth 21)]
  | .vsel p d a b k => eP p [mBase 26 d.bits a.bits b.bits, x2Ext 0 (k.setWidth 4) 0]
  | .vred p d a f => eP p [mBase 35 d.bits a.bits 0, x2Ext 0 f.code 0]
  | .vscan p d a f x sg => eP p [mBase 36 d.bits a.bits 0, x2Ext 0 f.code ((sg.getD 0 ++ b1 sg.isSome ++ b1 x).setWidth 21)]
  | .cvt p o => eP p [mBase 96 o.d.bits o.a.bits 0, x2Ext 0 0 ((satBits o.sat ++ b1 o.rm.isSome ++ (o.rm.map RMode.code).getD 0 ++ o.dst.code ++ o.src.code).setWidth 21)]
  | .enqX2 p q a t c => eP p [mBase 113 (qBits q) a.bits (t.setWidth 7), x2Ext 0 0 (c.setWidth 21)]
  | .ld p d a sx bf => eP p [mBase 128 (regBits d) a.bits 0, x2Ext 0 ((b1 sx).setWidth 4) (bf.setWidth 21)]
  | .st p a b bf => eP p [mBase 129 0 a.bits b.bits, x2Ext 0 0 (bf.setWidth 21)]
  | .ldq p q a sx bf ch => eP p [mBase 130 (qBits q) a.bits 0, x2Ext 0 ((b1 sx).setWidth 4) ((chBitsLow ch ++ bf).setWidth 21)]
  | .stq p q b bf => eP p [mBase 133 0 (qBits q) b.bits, x2Ext 0 0 (bf.setWidth 21)]
  | .scatq p q b bf => eP p [mBase 134 0 (qBits q) b.bits, x2Ext 0 0 (bf.setWidth 21)]
  | .ldsq p q a mk n ch => eP p [mBase 140 (qBits q) a.bits 0, x2Ext 0 ((b1 mk).setWidth 4) ((chBitsLow ch ++ n).setWidth 21)]
  | .stsq p q b n => eP p [mBase 141 0 (qBits q) b.bits, x2Ext 0 0 (n.setWidth 21)]
  | .pfr p a b k => eP p [mBase 144 0 a.bits b.bits, x2Ext 0 0 (k.setWidth 21)]
  | .pft p a b k => eP p [mBase 145 0 a.bits b.bits, x2Ext 0 0 (k.setWidth 21)]
  | .ldqb p o => eP p [mBase 131 (qBits o.q) o.start.bits o.cnt.bits, o.bf ++ b1 o.splat ++ b1 o.mark ++ b1 o.sx ++ chBits o.ch ++ 0#12]
  | .gatherq p q a bf mk sx ch => eP p [mBase 132 (qBits q) a.bits 0, bf ++ 0#1 ++ b1 mk ++ b1 sx ++ chBits ch ++ 0#12]
  | .gatherqList p o => eP p [mBase 132 (qBits o.q) o.pos.bits o.cnt.bits, o.bf ++ 1#1 ++ b1 o.mark ++ 0#1 ++ chBits o.ch ++ o.bfl ++ 0#6]
  | .nzscan p o => eP p [mBaseF 146 (o.sc ++ o.ss ++ o.sn ++ o.bf), o.qi ++ o.qv.getD 0 ++ b1 o.qv.isSome ++ b1 o.mark ++ b1 o.sx ++ chBits o.ch ++ 0#10]
  | .mloop p o => eP p [mBase 160 (o.tile.setWidth 7) (sBits o.a) (sBits o.b), 0#1 ++ o.ks ++ 0#1 ++ b1 o.accum ++ o.ainc ++ o.binc ++ b1 o.win ++ o.ctr]
  | .mdrain p t s relu c => eP p [mBase 163 (t.setWidth 7) (sBits s) 0, b1 relu ++ 0#25 ++ c]
  | .mfill p t s y c => eP p [mBase 164 (t.setWidth 7) (sBits s) 0, 0#24 ++ y.code ++ c]
  | .mcfg p red arm geo c => eP p [mBase 165 ((arm.code ++ b1 red).setWidth 7) (match geo with | some n => sBits n | none => (Sel.const 0).bits) 0, 0#26 ++ c]
  | .tcopy p o => eP p [mBaseF 166 (o.td ++ o.l ++ o.ctr ++ o.sc ++ 0#2), 0#26 ++ o.slot]
  | .tstore p td ss c sc => eP p [mBaseF 167 (td ++ ss ++ c ++ sc), 0]
  | .tmcast p o rm => eP p [mBaseF 168 (o.td ++ o.l ++ o.ctr ++ o.sc ++ 0#2), 0#10 ++ rm ++ o.slot]
  | .nop => [uWord 0 0]
  | .br o => [uWord 1 (o.setWidth 22)]
  | .brc c k o => [uWord 2 (c.code ++ k ++ o)]
  | .brd k inv t j => [uBase 3 (k ++ b1 inv ++ 0#17), t ++ j]
  | .brt t q o => [uWord 4 (t ++ b1 q ++ 0#3 ++ o)]
  | .loop s o => [uWord 5 (s ++ 0#1 ++ o)]
  | .call s o => [uWord 6 (s ++ 0#1 ++ o)]
  | .ret s => [uWord 7 (s ++ 0#17)]
  | .exit => [uWord 8 0]
  | .yield => [uWord 9 0]
  | .setmode s sd => [uWord 10 (s ++ b1 sd ++ 0#16)]
  | .getmode d => [uWord 11 (d ++ 0#17)]
  | .rdspec d r => [uWord 12 (d ++ r.code ++ 0#12)]
  | .flags d c => [uWord 13 (d ++ 0#11 ++ c)]
  | .sadd d a o => [uWord 32 (d ++ a ++ 0#3 ++ o.bits)]
  | .saddX1 d a l => [uBase 32 (d ++ a ++ 0#11), l]
  | .ssub d a o => [uWord 33 (d ++ a ++ 0#3 ++ o.bits)]
  | .ssubX1 d a l => [uBase 33 (d ++ a ++ 0#11), l]
  | .smul f d a o => [uWord 34 (d ++ a ++ f.code ++ o.bits)]
  | .smulX1 f d a l => [uBase 34 (d ++ a ++ f.code ++ 0#8), l]
  | .slog f d a o => [uWord 35 (d ++ a ++ f.code ++ o.bits)]
  | .slogX1 f d a l => [uBase 35 (d ++ a ++ f.code ++ 0#8), l]
  | .sshf f d a o => [uWord 36 (d ++ a ++ f.code ++ o.bits)]
  | .sshfX1 f d a l => [uBase 36 (d ++ a ++ f.code ++ 0#8), l]
  | .scmp f d a o => [uWord 37 (d ++ a ++ f.code ++ o.bits)]
  | .scmpX1 f d a l => [uBase 37 (d ++ a ++ f.code ++ 0#8), l]
  | .sdiv f d a o => [uWord 41 (d ++ a ++ f.code ++ o.bits)]
  | .sdivX1 f d a l => [uBase 41 (d ++ a ++ f.code ++ 0#8), l]
  | .smov d a => [uWord 38 (d ++ a ++ 0#12)]
  | .sli d i => [uWord 39 (d ++ i)]
  | .sliX1 d l => [uBase 39 (d ++ 0#16), l]
  | .ssel k d a o => [uWord 40 (d ++ a ++ k ++ o.bits)]
  | .sselX1 k d a l => [uBase 40 (d ++ a ++ k ++ 0#8), l]
  | .cadd sc rel c v => [uWord 64 (sc.code ++ 0#1 ++ b1 rel ++ c.bits ++ v ++ 0#6)]
  | .caddX1 sc rel c l => [uBase 64 (sc.code ++ b1 rel ++ c.bits ++ 0#11), l]
  | .cwait sc c v => [uWord 65 (sc.code ++ 0#2 ++ c.bits ++ v ++ 0#6)]
  | .cwaitX1 sc c l => [uBase 65 (sc.code ++ 0#1 ++ c.bits ++ 0#11), l]
  | .carm sys c .dis => [uWord 66 ((sysScope sys).code ++ 1#1 ++ 0#1 ++ c.bits ++ 0#11)]
  | .carm sys c (.notice v) => [uWord 66 ((sysScope sys).code ++ 0#2 ++ c.bits ++ v ++ 0#6)]
  | .carm sys c (.emit v r) => [uWord 66 ((sysScope sys).code ++ 0#2 ++ c.bits ++ v ++ r ++ 1#1)]
  | .carmX1 sys c (.notice l) => [uBase 66 ((sysScope sys).code ++ 0#1 ++ c.bits ++ 0#11), l]
  | .carmX1 sys c (.emit l r) => [uBase 66 ((sysScope sys).code ++ 0#1 ++ c.bits ++ 0#5 ++ r ++ 1#1), l]
  | .crd sc c d => [uWord 67 (sc.code ++ 0#2 ++ c.bits ++ d ++ 0#6)]
  | .atom o => [uBase 68 (o.xd ++ o.xi ++ o.xv ++ o.xc ++ 0#1), o.scope.code ++ b1 o.acq ++ b1 o.rel ++ b1 o.fetch ++ o.op.code ++ o.bf ++ b1 o.w64 ++ b1 o.uns ++ 0#16]
  | .atomf o => [uBase 69 (o.xd ++ o.xi ++ o.xv ++ 0#6), o.scope.code ++ b1 o.acq ++ b1 o.rel ++ b1 o.fetch ++ o.op.code ++ o.bf ++ b1 o.bf16 ++ 0#17]
  | .lda sc bf w6 un xd xi => [uBase 70 (xd ++ xi ++ 0#11), sc.code ++ 0#6 ++ bf ++ b1 w6 ++ b1 un ++ 0#16]
  | .strel sc bf w6 xi xv => [uBase 71 (0#5 ++ xi ++ xv ++ 0#6), sc.code ++ 0#6 ++ bf ++ b1 w6 ++ 0#17]
  | .fence sc f => [uWord 72 (sc.code ++ b1 (f == .acq) ++ b1 (f == .rel) ++ 0#18)]
  | .barw b sl => [uWord 73 (0#8 ++ b ++ sl.code ++ 0#9)]
  | .phaseRel sys => [uWord 74 ((sysScope sys).code ++ 0#1 ++ 1#1 ++ 0#18)]
  | .phaseAcq sys => [uWord 74 ((sysScope sys).code ++ 1#1 ++ 0#1 ++ 0#18)]
  | .emit s => [uWord 96 (s ++ 0#17)]
  | .launch s => [uWord 97 (s ++ 0#17)]
  | .phint m => [uWord 98 (b1 m ++ 0#21)]
  | .fbwr s => [uWord 112 (s ++ 0#17)]
  | .fbrd s => [uWord 113 (s ++ 0#17)]
  | .fbred s op ty => [uWord 114 (s ++ op.code ++ ty.code ++ 0#11)]
  | .ueget s q => [uWord 115 (s ++ q ++ 0#13)]
  | .trap c => [uWord 128 (c.setWidth 22)]
  | .rft => [uWord 129 0]
  | .rdflt d => [uWord 130 (d ++ 0#19)]
  | .wpset p r w a s => [uWord 131 (p ++ b1 r ++ b1 w ++ b1 a ++ s ++ 0#11)]
  | .wpclr p => [uWord 132 (p ++ 0#19)]
  | .bkpt => [uWord 133 0]
  | .smprd d m => [uWord 134 (d ++ 0#3 ++ m ++ 0#14)]
  | _ => []

/-! ### The decoder -/

/-- The step that an instruction word makes, with its extension and its prefix word (R164, R165): the candidate when it is
legal and its words are these, otherwise RESERVED_OPCODE. -/
def decodeWords (pw : Option W32) (w e : W32) : Instr :=
  let bad := Instr.reservedOpcode pw w (if isLong w then e else 0)
  let p := pw.bind Pfx.ofWord
  if pw.isSome && p.isNone then bad
  else
    match candidate p w e with
    | none => bad
    | some i =>
      if legal i && encode i = pw.toList ++ [w] ++ (if isLong w then [e] else []) then i else bad

/-- A little-endian word of four bytes (R3, R148). -/
def wordOf (b0 b1 b2 b3 : Byte) : W32 := b3 ++ b2 ++ b1 ++ b0

/-- The four bytes of a word, lowest address first. -/
def wordBytes (w : W32) : List Byte := [fld 8 0 w, fld 8 8 w, fld 8 16 w, fld 8 24 w]

/-- What ends a decode without a step: the bytes end before the instruction does. -/
inductive DecodeError where
  | truncated
deriving DecidableEq, Repr

/-- Decode the word after an optional prefix. -/
def decodeAfter (pw : Option W32) (w : W32) (rest : List Byte) : Except DecodeError (Instr × List Byte) :=
  if isLong w then
    match rest with
    | e0 :: e1 :: e2 :: e3 :: r => .ok (decodeWords pw w (wordOf e0 e1 e2 e3), r)
    | _ => .error .truncated
  else .ok (decodeWords pw w 0, rest)

/-- Decode the bytes at an address (R148, R149, R157): `at4` says that the address is ≡ 4 mod 8. Answers the step and the
bytes after it. A prefix that is an orphan gives ORPHAN_PREFIX of its own four bytes. -/
def decode (at4 : Bool) : List Byte → Except DecodeError (Instr × List Byte)
  | c0 :: c1 :: c2 :: c3 :: rest =>
    let w := wordOf c0 c1 c2 c3
    if isPfx w then
      if at4 then .ok (.orphanPrefix, rest)
      else
        match rest with
        | d0 :: d1 :: d2 :: d3 :: rest' =>
          let v := wordOf d0 d1 d2 d3
          if isMain v then decodeAfter (some w) v rest' else .ok (.orphanPrefix, rest)
        | _ => .error .truncated
    else decodeAfter none w rest
  | _ => .error .truncated

/-- The bytes of an instruction's words. -/
def encodeBytes (i : Instr) : List Byte := (encode i).flatMap wordBytes

/-- The length in bytes of the words that a step stands for (R148, R31); 0 for an event. -/
def Instr.length (i : Instr) : Nat :=
  match i with
  | .reservedOpcode p w _ => (if p.isSome then 4 else 0) + (if isLong w then 8 else 4)
  | .orphanPrefix => 4
  | _ => 4 * (encode i).length

/-- The bytes of a number, lowest first. -/
def natBytes : Nat → Nat → List Byte
  | 0, _ => []
  | n + 1, w => BitVec.ofNat 8 w :: natBytes n (w / 256)

/-- The instruction that the decoder reads from the bits `w` at an address ≡ 0 mod 8, the bits above `nbits` being 0 up to
the longest instruction, 12 bytes. -/
def decodeTableWord (nbits w : Nat) : Option Instr :=
  match decode false (natBytes 12 (w % 2 ^ nbits)) with
  | .ok (i, _) => some i
  | .error _ => none

end Sys2Proof
end

