-- ==== Sys2Proof/Config.lean ====
section
/-!
DEFINITION. Config.lean: what the spec leaves to the implementation, as opaque constants: no proof can see a value of them.
-/
namespace Sys2Proof

/-- Free values: the n-th value that the spec leaves open (R144, log 2). The step applies it to `State.free`, which it advances. -/
opaque Config.freeValue : Nat → BitVec 64

/-- Whether infinity × zero raises IV beside a quiet NaN addend (R186 follows IEEE 754-2019, which leaves it open), by the
three operand codes (log 20). -/
opaque Config.fmaQuietInvalid : Nat → Nat → Nat → Bool

/-- The element code that an approximate operation of the vector unit gives (R188): by operation number, format number and
operand code. It is used where it meets the bound of Table 10.9 (log 21). -/
opaque Config.approx : Nat → Nat → Nat → Nat

/-- The entries of a spine's directory (R363), which the spec does not number (log 27). -/
opaque Config.directoryEntries : Nat

/-! ### What the spec names and does not lay out or fix (log 30) -/

/-- The 256-bit device identity in the fuses (R367). -/
opaque Config.identity : BitVec 256

/-- The 256-bit device secret in the fuses, which the TC alone can read (R367). -/
opaque Config.deviceSecret : BitVec 256

/-- The fused SHA-384 digest of the vendor's ECDSA P-384 root public key (R367). -/
opaque Config.ecdsaRoot : BitVec 384

/-- The fused SHA-384 digest of the vendor's LMS root public key (R367). -/
opaque Config.lmsRoot : BitVec 384

/-- What a measurement register of Table 22.2 is extended by, given what of the state it measures: for MEAS0 the lifecycle state, the security
version and the debug state, for a firmware stage its version beside its image, for MEAS5 the home table (R369). -/
opaque Config.measured : Nat → List Nat → BitVec 384

/-- A firmware stage's ECDSA P-384 signature verifies against keys that chain to a root digest (R368). -/
opaque Config.ecdsaOk : BitVec 384 → Nat → Bool

/-- A firmware stage's LMS signature verifies against keys that chain to a root digest (R368). -/
opaque Config.lmsOk : BitVec 384 → Nat → Bool

/-- The security version that a firmware stage carries (R368). -/
opaque Config.stageVersion : Nat → Nat

/-- HBM4E training succeeds (Table 25.5). -/
opaque Config.trainingOk : Bool

/-- The attestation key and LMS tree that a boot derives from the device secret and MEAS1; the boot's number keeps the trees apart (R370; log
95). -/
opaque Config.attestKeys : BitVec 256 → List (BitVec 8) → Nat → BitVec 384

/-- The two signatures over bytes 0..503 of an attestation report, by the boot's keys and the number of the one-time key (R370). -/
opaque Config.attestSign : BitVec 384 → List (BitVec 8) → Nat → List (BitVec 8)

/-- The one-time keys of the attestation tree (R370). -/
opaque Config.lmsKeys : Nat

/-- The lifecycle state, by its code in Table 22.3, that a token names with valid signatures (R367). -/
opaque Config.lifecycleToken : List (BitVec 8) → Option Nat

/-- An unlock token names the device, the lifecycle state of this code and the nonce, with valid signatures (R377). -/
opaque Config.unlockToken : List (BitVec 8) → List (BitVec 8) → Nat → Bool

/-- What MEAS0 is extended by when the debug port opens (R377). -/
opaque Config.openDigest : BitVec 384

/-- An audit payload by entry type and contents, where the spec lays none out (Table 22.5). -/
opaque Config.auditPayload : Nat → List Nat → BitVec 384

/-- The bytes of a RESYNC section, by its number in Table 18.6, from its contents (R344). -/
opaque Config.resyncSection : Nat → List Nat → List (BitVec 8)

/-- The header of a RESYNC, from the sections' lengths (R344). -/
opaque Config.resyncHeader : List Nat → List (BitVec 8)

/-- An error-log entry's 32 bytes from its kind and contents (R332). -/
opaque Config.errorEntry : List Nat → BitVec 256

/-- A physical address lies in a region that the driver registered for a context's Ultra Ethernet peers (R365). -/
opaque Config.ueRegistered : Nat → Nat → Bool

/-- An uncorrected error of an L2 slice leaves a line that ECC does not correct, by its number and a free value (Table 22.6). -/
opaque Config.lostLine : Nat → BitVec 64 → Bool

/-- The next state of a sampler's 16-bit LFSR (R386; log 28). -/
opaque Config.sampleLfsr : BitVec 16 → BitVec 16

/-! ### What management firmware assigns at bring-up (R345, R346, R349, R357; log 7) -/

/-- The device number (R345). -/
opaque Config.fabricDevice : Nat
/-- The devices of the fabric partition (R346). -/
opaque Config.fabricPeers : List Nat
/-- The path table: a destination, a plane and the spines of its alternatives (R349). -/
opaque Config.fabricPaths : List (Nat × Nat × List Nat)
/-- The multicast groups: a number and the members (R357). -/
opaque Config.fabricGroups : List (Nat × List Nat)

end Sys2Proof
end

