-- ==== Sys2Proof/Machine/Sparse.lean ====
section
/-!
DEFINITION. Machine/Sparse.lean: maps as plain data. `SMap` holds words by number in one canonical form, with 0 for a number
that is not listed; memories, register files and latches are SMaps. `AList` holds records by key, in the order of insertion.
-/
namespace Sys2Proof

/-- A sparse map from numbers to words: keys strictly rising, no entry holding 0. -/
abbrev SMap (w : Nat) := List (Nat × BitVec w)

/-- The word at a number; 0 where nothing is listed. -/
def SMap.get : SMap w → Nat → BitVec w
  | [], _ => 0
  | (k, v) :: m, a => if a = k then v else SMap.get m a

/-- A map without the entry of a number. -/
def SMap.without (m : SMap w) (a : Nat) : SMap w := m.filter (fun p => decide (p.1 ≠ a))

/-- List a word before the first higher number. -/
def SMap.place : SMap w → Nat → BitVec w → SMap w
  | [], a, x => [(a, x)]
  | (k, v) :: m, a, x => if a < k then (a, x) :: (k, v) :: m else (k, v) :: SMap.place m a x

/-- Write a word at a number; writing 0 removes the entry. -/
def SMap.set (m : SMap w) (a : Nat) (x : BitVec w) : SMap w :=
  if x = 0 then SMap.without m a else SMap.place (SMap.without m a) a x

/-- Every key of the map is above `lo`, keys rise strictly and no entry holds 0. -/
def SMap.wfFrom : Option Nat → SMap w → Bool
  | _, [] => true
  | lo, (k, v) :: m => (match lo with | none => true | some l => decide (l < k)) && decide (v ≠ 0) && SMap.wfFrom (some k) m

/-- The canonical form. -/
def SMap.wf (m : SMap w) : Bool := SMap.wfFrom none m

/-- Write several (number, word) pairs, the last one winning. -/
def SMap.sets (m : SMap w) (l : List (Nat × BitVec w)) : SMap w := l.foldl (fun m p => m.set p.1 p.2) m

/-- Remove every entry whose key fails a test. -/
def SMap.keep (m : SMap w) (f : Nat → Bool) : SMap w := m.filter (fun p => f p.1)

/-- A list of records by key. -/
abbrev AList (κ α : Type) := List (κ × α)

/-- The record of a key. -/
def AList.find [DecidableEq κ] : AList κ α → κ → Option α
  | [], _ => none
  | (k, v) :: m, a => if k = a then some v else AList.find m a

/-- Put a record: in the key's place, or at the end. -/
def AList.put [DecidableEq κ] : AList κ α → κ → α → AList κ α
  | [], a, x => [(a, x)]
  | (k, v) :: m, a, x => if k = a then (a, x) :: m else (k, v) :: AList.put m a x

/-- Remove a key's record. -/
def AList.erase [DecidableEq κ] (m : AList κ α) (a : κ) : AList κ α := m.filter (fun p => decide (p.1 ≠ a))

/-- Apply a function to a key's record, where there is one. -/
def AList.adjust [DecidableEq κ] : AList κ α → κ → (α → α) → AList κ α
  | [], _, _ => []
  | (k, v) :: m, a, f => if k = a then (k, f v) :: m else (k, v) :: AList.adjust m a f

/-- The record of a key, or a default. -/
def AList.findD [DecidableEq κ] (m : AList κ α) (a : κ) (d : α) : α := (m.find a).getD d

/-- Replace the element at a position of a list. -/
def listSet : List α → Nat → α → List α
  | [], _, _ => []
  | _ :: l, 0, x => x :: l
  | y :: l, n + 1, x => y :: listSet l n x

/-- Apply a function to the element at a position. -/
def listAdjust : List α → Nat → (α → α) → List α
  | [], _, _ => []
  | y :: l, 0, f => f y :: l
  | y :: l, n + 1, f => y :: listAdjust l n f

end Sys2Proof
end

