-- ==== Sys2Proof/Machine/Bits.lean ====
section
/-!
DEFINITION. Machine/Bits.lean: bytes and words, the eight threads of a strand, and masks (R3, R21, R29).
-/
namespace Sys2Proof

/-- The little-endian number of a list of bytes (R3). -/
def natOfBytes : List Byte → Nat
  | [] => 0
  | b :: bs => b.toNat + 256 * natOfBytes bs

/-- The low n bytes of a number, lowest first (R3). -/
def bytesOfNat : Nat → Nat → List Byte
  | 0, _ => []
  | n + 1, x => BitVec.ofNat 8 x :: bytesOfNat n (x / 256)

/-- A 64-bit word from bytes, lowest first. -/
def w64OfBytes (bs : List Byte) : W64 := BitVec.ofNat 64 (natOfBytes bs)

/-- The bytes of a 64-bit word, lowest first. -/
def w64Bytes (w : W64) : List Byte := bytesOfNat 8 w.toNat

/-- The first n bytes of memory-like data at an address. -/
def SMap.bytes (m : SMap 8) (a : Nat) : Nat → List Byte
  | 0 => []
  | n + 1 => m.get a :: m.bytes (a + 1) n

/-- Write bytes from an address up. -/
def SMap.setBytes (m : SMap 8) (a : Nat) : List Byte → SMap 8
  | [] => m
  | b :: bs => (m.set a b).setBytes (a + 1) bs

/-- A 64-bit word of memory-like data. -/
def SMap.word64 (m : SMap 8) (a : Nat) : W64 := w64OfBytes (m.bytes a 8)

/-- Bits [lo + n − 1 : lo] of a word as a number. -/
def bits (w : W64) (lo n : Nat) : Nat := (w.toNat / 2 ^ lo) % 2 ^ n

/-- A bit of a word. -/
def bit (w : W64) (i : Nat) : Bool := w.getLsbD i

/-- A number within a field, at its place. -/
def putField (x lo n : Nat) : Nat := (x % 2 ^ n) * 2 ^ lo

/-- Sign extension of an n-bit number to 64 bits. -/
def sext64 (n x : Nat) : W64 := (BitVec.ofNat n x).signExtend 64

/-- The threads 0..7, in order (R21). -/
def threads : List Nat := [0, 1, 2, 3, 4, 5, 6, 7]

/-- A mask's bit for a thread. -/
def TMask.has (m : TMask) (t : Nat) : Bool := m.getLsbD t

/-- The active threads of a mask in ascending order. -/
def TMask.list (m : TMask) : List Nat := threads.filter (fun t => TMask.has m t)

/-- The mask of the threads that meet a test. -/
def maskOf (f : Nat → Bool) : TMask := BitVec.ofNat 8 (threads.foldr (fun t a => (if f t then 1 else 0) + 2 * a) 0)

/-- The number of threads of a mask. -/
def TMask.count (m : TMask) : Nat := (TMask.list m).length

/-- The lowest active thread; 0 for an empty mask. -/
def TMask.lowest (m : TMask) : Nat := (TMask.list m).headD 0

/-- Round up to a multiple. -/
def alignUp (x n : Nat) : Nat := (x + n - 1) / n * n

/-- The index list 0..n−1. -/
abbrev upto (n : Nat) : List Nat := List.range n

/-- Signed reading of an n-bit number. -/
def toSigned (n x : Nat) : Int := let y := x % 2 ^ n; if 2 * y < 2 ^ n then (y : Int) else (y : Int) - (2 ^ n : Nat)

/-- The n-bit number of an integer, wrapped. -/
def ofSigned (n : Nat) (x : Int) : Nat := (x % ((2 ^ n : Nat) : Int)).toNat

end Sys2Proof
end

