-- ==== Sys2Proof/Machine/Formats.lean ====
section
/-!
DEFINITION. Machine/Formats.lean: the floating-point formats to the bit (R64 to R69), exact values, and the one rounding rule
with its overflow, saturation and underflow (R74 to R78).
-/
namespace Sys2Proof

/-- The floating-point formats (Table 4.2 and DM8, R68). -/
inductive Fmt where
  | f64 | f32 | e8m10 | bf16 | f16 | e5m2 | e4m3 | e3m2 | e2m3 | e2m1 | dm8
deriving DecidableEq, Repr

/-- What the top codes of a format mean (R64). -/
inductive Specials where
  | ieee | nanOnly | none | dm8
deriving DecidableEq, Repr

/-- Width in bits (Table 4.2); E8M10 without its container. -/
def Fmt.width : Fmt → Nat
  | .f64 => 64 | .f32 => 32 | .e8m10 => 19 | .bf16 => 16 | .f16 => 16 | .e5m2 => 8 | .e4m3 => 8 | .e3m2 => 6 | .e2m3 => 6
  | .e2m1 => 4 | .dm8 => 8

/-- Fraction bits w (Table 4.2); 0 for DM8, whose fraction varies (Table 4.3). -/
def Fmt.frac : Fmt → Nat
  | .f64 => 52 | .f32 => 23 | .e8m10 => 10 | .bf16 => 7 | .f16 => 10 | .e5m2 => 2 | .e4m3 => 3 | .e3m2 => 2 | .e2m3 => 3
  | .e2m1 => 1 | .dm8 => 0

/-- Exponent bias (Table 4.2). -/
def Fmt.bias : Fmt → Nat
  | .f64 => 1023 | .f32 => 127 | .e8m10 => 127 | .bf16 => 127 | .f16 => 15 | .e5m2 => 15 | .e4m3 => 7 | .e3m2 => 3
  | .e2m3 => 1 | .e2m1 => 1 | .dm8 => 0

/-- The special codes (Table 4.2). -/
def Fmt.specials : Fmt → Specials
  | .e4m3 => .nanOnly | .e3m2 => .none | .e2m3 => .none | .e2m1 => .none | .dm8 => .dm8
  | _ => .ieee

/-- The format holds an infinity. -/
def Fmt.hasInf (f : Fmt) : Bool := f.specials = .ieee || f.specials = .dm8

/-- The largest finite magnitude's rank (R69, Table 4.2). -/
def Fmt.maxRank (f : Fmt) : Nat :=
  match f.specials with
  | .ieee => 2 ^ (f.width - 1) - 2 ^ f.frac - 1
  | .nanOnly => 2 ^ (f.width - 1) - 2
  | .none => 2 ^ (f.width - 1) - 1
  | .dm8 => 126

/-- The exponent of the smallest subnormal, 1 − bias − w. -/
def Fmt.minExp (f : Fmt) : Int := 1 - (f.bias : Int) - f.frac

/-- A decoded value: NaN, infinity, zero, or (−1)^neg × man × 2^exp with man > 0. -/
inductive FV where
  | nan (signalling : Bool)
  | inf (neg : Bool)
  | zero (neg : Bool)
  | fin (neg : Bool) (man : Nat) (exp : Int)
deriving DecidableEq, Repr

/-- The number of leading zeros of a seven-bit magnitude (R68). -/
def lz7 (m : Nat) : Nat := if m = 0 then 7 else 6 - m.log2

/-- A finite DM8 magnitude as mantissa and exponent (Table 4.3), from the seven bits m with z leading zeros, z ≤ 5. -/
def dm8Mag (m : Nat) : Nat × Int :=
  match lz7 m with
  | 0 => (16 + m % 16, ((m / 16 % 4 : Nat) : Int) - 2 - 4)
  | 1 => let e := m / 4 % 8; (4 + m % 4, (if e < 4 then (e : Int) - 6 else (e : Int) - 2) - 2)
  | 2 => let e := m % 16; (1, if e < 8 then (e : Int) - 14 else (e : Int) - 2)
  | 3 => let e := m % 8; (1, if e < 4 then (e : Int) - 18 else (e : Int) + 10)
  | 4 => let e := m % 4; (1, if e < 2 then (e : Int) - 20 else (e : Int) + 16)
  | _ => (1, if m % 2 = 0 then -21 else 20)

/-- The DM8 magnitude code of each exponent −21..20 with its first fraction, in rank order (R69): 126 codes. -/
def dm8Codes : List Nat :=
  [0x02, 0x04, 0x05, 0x08, 0x09, 0x0A, 0x0B] ++ (upto 8).map (0x10 + ·) ++ (upto 16).map (0x20 + ·) ++ (upto 64).map (0x40 + ·) ++
  (upto 16).map (0x30 + ·) ++ (upto 8).map (0x18 + ·) ++ [0x0C, 0x0D, 0x0E, 0x0F] ++ [0x06, 0x07] ++ [0x03]

/-- The code without its sign of a finite rank (R69). -/
def Fmt.codeOfRank (f : Fmt) (r : Nat) : Nat :=
  match f with
  | .dm8 => if r = 0 then 0 else (dm8Codes[r - 1]?).getD 0x03
  | _ => r

/-- Decode a code of a format (R64, R68). -/
def Fmt.decode (f : Fmt) (code : Nat) : FV :=
  let c := code % 2 ^ f.width
  let neg := c / 2 ^ (f.width - 1) = 1
  let m := c % 2 ^ (f.width - 1)
  match f.specials with
  | .dm8 =>
    if m = 0 then (if neg then .nan false else .zero false)
    else if m = 1 then .inf neg
    else let (a, e) := dm8Mag m; .fin neg a e
  | sp =>
    let e := m / 2 ^ f.frac
    let fr := m % 2 ^ f.frac
    if sp = .ieee && m > f.maxRank then
      (if fr = 0 then .inf neg else .nan (fr < 2 ^ (f.frac - 1)))
    else if sp = .nanOnly && m > f.maxRank then .nan false
    else if m = 0 then .zero neg
    else if e = 0 then .fin neg fr f.minExp
    else .fin neg (fr + 2 ^ f.frac) (f.minExp + (e : Int) - 1)

/-- A subnormal code (R64); DM8 has none (R68). -/
def Fmt.isSubnormal (f : Fmt) (code : Nat) : Bool :=
  let m := code % 2 ^ (f.width - 1)
  f.specials ≠ .dm8 && decide (0 < m) && decide (m < 2 ^ f.frac)

/-- The sign bit at its place. -/
def Fmt.signBit (f : Fmt) (neg : Bool) : Nat := if neg then 2 ^ (f.width - 1) else 0

/-- The canonical NaN (Table 4.9); +0 in a format without NaN (R78). -/
def Fmt.nanCode (f : Fmt) : Nat :=
  match f.specials with
  | .ieee => 2 ^ (f.width - 1) - 2 ^ (f.frac - 1)
  | .nanOnly => 2 ^ (f.width - 1) - 1
  | .none => 0
  | .dm8 => 0x80

/-- The infinity of a sign, where the format has one. -/
def Fmt.infCode (f : Fmt) (neg : Bool) : Nat :=
  f.signBit neg + (if f.specials = .dm8 then 1 else 2 ^ (f.width - 1) - 2 ^ f.frac)

/-- The zero of a sign; DM8 has only +0 (R68). -/
def Fmt.zeroCode (f : Fmt) (neg : Bool) : Nat := if f = .dm8 then 0 else f.signBit neg

/-- A finite code from its sign and rank. -/
def Fmt.rankCode (f : Fmt) (neg : Bool) (r : Nat) : Nat := if r = 0 then f.zeroCode neg else f.signBit neg + f.codeOfRank r

/-- The largest finite value of a sign. -/
def Fmt.maxCode (f : Fmt) (neg : Bool) : Nat := f.rankCode neg f.maxRank

/-! ### Rounding -/

/-- An exact magnitude: man × 2^exp, or a little more than that when `sticky` (by less than any difference that matters). -/
structure Mag where
  man    : Nat
  exp    : Int
  sticky : Bool
deriving DecidableEq, Repr

/-- Where an exact magnitude lies among a format's magnitudes: on rank lo or num/den of the way to rank lo + 1 (R74). -/
structure Pos where
  lo     : Nat
  num    : Nat
  den    : Nat
  sticky : Bool
deriving DecidableEq, Repr

/-- The magnitude lies exactly on lo. -/
def Pos.exact (p : Pos) : Bool := p.num = 0 && !p.sticky

/-- floor(log2) of a non-zero magnitude. -/
def Mag.log2 (x : Mag) : Int := (x.man.log2 : Int) + x.exp

/-- Divide a magnitude by a power of two and split it into whole and fraction. -/
def Mag.split (x : Mag) (q : Int) : Pos :=
  if q ≤ x.exp then ⟨x.man * 2 ^ (x.exp - q).toNat, 0, 1, x.sticky⟩
  else let k := (q - x.exp).toNat; ⟨x.man / 2 ^ k, x.man % 2 ^ k, 2 ^ k, x.sticky⟩

/-- The position in units of one quantum: in a format with exponents, the quantum is that of the binade, and not below the
smallest subnormal unless `unbounded`. -/
def Fmt.quantum (f : Fmt) (unbounded : Bool) (x : Mag) : Int :=
  let q := x.log2 - f.frac
  if unbounded then q else max q f.minExp

/-- Compare two magnitudes man × 2^exp: the first is at most the second. -/
def magLe (m1 : Nat) (e1 : Int) (m2 : Nat) (e2 : Int) : Bool :=
  let e := min e1 e2
  decide (m1 * 2 ^ (e1 - e).toNat ≤ m2 * 2 ^ (e2 - e).toNat)

/-- The DM8 magnitude of a rank in units of 2^−25; rank 127 is 2^21 (R74). -/
def dm8Units (r : Nat) : Nat :=
  if r = 0 then 0
  else if r > 126 then 2 ^ 46
  else let (m, e) := dm8Mag ((dm8Codes[r - 1]?).getD 3); m * 2 ^ (e + 25).toNat

/-- The greatest DM8 rank whose magnitude is at most `u` units of 2^−25, searching down from a rank. -/
def dm8RankLe (u : Nat) : Nat → Nat
  | 0 => 0
  | r + 1 => if dm8Units (r + 1) ≤ u then r + 1 else dm8RankLe u r

/-- The position of a magnitude in DM8. -/
def dm8Pos (x : Mag) : Pos :=
  let k := if x.exp < -25 then (-25 - x.exp).toNat else 0
  let u := if x.exp < -25 then x.man else x.man * 2 ^ (x.exp + 25).toNat
  let r := dm8RankLe (u / 2 ^ k) 127
  if r = 127 then ⟨127, 0, 1, x.sticky⟩
  else
    let lo := dm8Units r * 2 ^ k
    ⟨r, u - lo, dm8Units (r + 1) * 2 ^ k - lo, x.sticky⟩

/-- The position of a non-zero exact magnitude in a format without an upper end (R69, R74). -/
def Fmt.pos (f : Fmt) (x : Mag) : Pos :=
  match f with
  | .dm8 => dm8Pos x
  | _ =>
    let q := f.quantum false x
    let p := x.split q
    { p with lo := (q - f.minExp).toNat * 2 ^ f.frac + p.lo }

/-- Whether a rounding goes away from zero (Tables 4.7, R75). -/
def roundsUp (m : RMode) (neg : Bool) (srs : W32) (p : Pos) : Bool :=
  if p.exact then false
  else
    match m with
    | .rne => decide (p.den < 2 * p.num) || (decide (2 * p.num = p.den) && (p.sticky || p.lo % 2 = 1))
    | .rtz => false
    | .rup => !neg
    | .rdn => neg
    | .rna => decide (p.den ≤ 2 * p.num)
    | .rst => decide (srs.toNat % 65536 < p.num * 65536 / p.den)

/-- The rounded rank or integer. -/
def Pos.round (m : RMode) (neg : Bool) (srs : W32) (p : Pos) : Nat := if roundsUp m neg srs p then p.lo + 1 else p.lo

/-- FLAGS bits (Table 4.6). -/
def flIV : BitVec 6 := 1
/-- Divide by zero. -/
def flDZ : BitVec 6 := 2
/-- Overflow. -/
def flOF : BitVec 6 := 4
/-- Underflow. -/
def flUF : BitVec 6 := 8
/-- Inexact. -/
def flIX : BitVec 6 := 16
/-- Saturated. -/
def flSA : BitVec 6 := 32

/-- A flag set on a condition. -/
def flagIf (c : Bool) (f : BitVec 6) : BitVec 6 := if c then f else 0

/-- A delivered code with the flags it sets. -/
structure FRes where
  code  : Nat
  flags : BitVec 6
deriving DecidableEq, Repr

/-- How a unit rounds: mode, saturation, denormal flush and the stochastic state that this rounding uses. -/
structure REnv where
  rm  : RMode
  sat : Bool
  dnf : Bool
  srs : W32
deriving DecidableEq, Repr

/-- Rounding with nearest even, as the engines' default (R84). -/
def REnv.plain (rm : RMode) : REnv := ⟨rm, false, false, 0⟩

/-- Tininess after rounding: the magnitude rounded as if the exponent range were unbounded is below the smallest normal
(R65, R75). -/
def Fmt.tiny (f : Fmt) (e : REnv) (neg : Bool) (x : Mag) : Bool :=
  let q := f.quantum true x
  let r := (x.split q).round e.rm neg e.srs
  !magLe 1 (f.minExp + f.frac) r q

/-- The overflow result of Table 4.8 with its flags. -/
def Fmt.overflow (f : Fmt) (e : REnv) (neg : Bool) : FRes :=
  if e.sat then ⟨f.maxCode neg, flOF ||| flIX ||| flSA⟩
  else
    match f.specials with
    | .nanOnly => ⟨f.signBit neg + f.nanCode, flOF ||| flIX⟩
    | .none => ⟨f.maxCode neg, flOF ||| flIX ||| flSA⟩
    | _ =>
      let toMax := match e.rm with | .rtz => true | .rup => neg | .rdn => !neg | _ => false
      ⟨if toMax then f.maxCode neg else f.infCode neg, flOF ||| flIX⟩

/-- Round an exact non-zero magnitude of a sign into a format and deliver it (R74 to R77). -/
def Fmt.deliver (f : Fmt) (e : REnv) (neg : Bool) (x : Mag) : FRes :=
  let p := f.pos x
  let r := p.round e.rm neg e.srs
  if r > f.maxRank then f.overflow e neg
  else
    let inexact := !p.exact
    let uf := inexact && (if f = .dm8 then r = 0 else f.tiny e neg x)
    if e.dnf && f ≠ .dm8 && 0 < r && r < 2 ^ f.frac then ⟨f.zeroCode neg, flUF ||| flIX⟩
    else ⟨f.rankCode neg r, flagIf inexact flIX ||| flagIf uf flUF⟩

/-- Deliver a value that is an exact signed sum: zero with a given sign, or a rounded magnitude. -/
def Fmt.deliverInt (f : Fmt) (e : REnv) (zeroNeg : Bool) (v : Int) (exp : Int) : FRes :=
  if v = 0 then ⟨f.zeroCode zeroNeg, 0⟩ else f.deliver e (decide (v < 0)) ⟨v.natAbs, exp, false⟩

/-- The canonical NaN with IV when invalid. -/
def Fmt.nanRes (f : Fmt) (iv : Bool) : FRes := ⟨f.nanCode, flagIf iv flIV⟩

/-- One step of the stochastic rounding register (R75). -/
def srsStep (s : W32) : W32 :=
  let fb := (s.getLsbD 31).xor ((s.getLsbD 21).xor ((s.getLsbD 1).xor (s.getLsbD 0)))
  (s <<< 1) ||| (if fb then 1 else 0)

/-- The stochastic rounding register of thread t from a seed (R75), with 0 replaced by 1. -/
def srsSeed (seed : W32) (t : Nat) : W32 :=
  let x := seed ^^^ BitVec.ofNat 32 (t * 0x01010101)
  if x = 0 then 1 else x

end Sys2Proof
end

