-- ==== Sys2Proof/Machine/FloatOps.lean ====
section
/-!
DEFINITION. Machine/FloatOps.lean: floating-point operations on element codes: sums of products with one rounding, division and
square root, comparisons, conversions (R79, R186 to R196), block scales (R71) and the accumulation of a matrix step (R84).
-/
namespace Sys2Proof

/-- Read an operand; with DNF a subnormal reads as zero of its sign (R77). -/
def Fmt.read (f : Fmt) (dnf : Bool) (code : Nat) : FV :=
  if dnf && f.isSubnormal code then .zero (code / 2 ^ (f.width - 1) % 2 = 1) else f.decode code

/-- A NaN value. -/
def FV.isNan : FV → Bool
  | .nan _ => true
  | _ => false

/-- A signalling NaN value. -/
def FV.isSig : FV → Bool
  | .nan s => s
  | _ => false

/-- The sign of a value. -/
def FV.neg : FV → Bool
  | .nan _ => false
  | .inf n => n
  | .zero n => n
  | .fin n _ _ => n

/-- An infinite value. -/
def FV.isInf : FV → Bool
  | .inf _ => true
  | _ => false

/-- A zero value. -/
def FV.isZero : FV → Bool
  | .zero _ => true
  | _ => false

/-- The value with its sign inverted. -/
def FV.negate : FV → FV
  | .nan s => .nan s
  | .inf n => .inf (!n)
  | .zero n => .zero (!n)
  | .fin n m e => .fin (!n) m e

/-- The exact product; infinity × zero gives a NaN that `invalidProduct` marks. -/
def FV.mul (a b : FV) : FV :=
  if a.isNan || b.isNan then .nan false
  else
    let n := a.neg.xor b.neg
    match a, b with
    | .inf _, .zero _ => .nan false
    | .zero _, .inf _ => .nan false
    | .inf _, _ => .inf n
    | _, .inf _ => .inf n
    | .fin _ m e, .fin _ m' e' => .fin n (m * m') (e + e')
    | _, _ => .zero n

/-- Infinity × zero. -/
def invalidProduct (p : FV × FV) : Bool := (p.1.isInf && p.2.isZero) || (p.1.isZero && p.2.isInf)

/-- The finite terms of a sum as one integer over a common exponent. -/
def sumFinite (ts : List FV) : Int × Int :=
  let e := ts.foldl (fun e t => match t with | .fin _ _ x => min e x | _ => e) 0
  (ts.foldl (fun a t => match t with
    | .fin n m x => let v : Int := ((m * 2 ^ (x - e).toNat : Nat) : Int); if n then a - v else a + v
    | _ => a) 0, e)

/-- The sign of an exact zero sum (R187): the terms' common sign when every term is a zero of it, else + except under RDN. -/
def zeroSumNeg (rm : RMode) (ts : List FV) : Bool :=
  if ts.all (fun t => t.isZero && t.neg) then true
  else if ts.all (fun t => t.isZero && !t.neg) then false
  else rm = .rdn

/-- Sum exact products and addends with one rounding into a format (R186, R187). `quietIV` says whether infinity × zero
raises IV beside a quiet NaN operand. -/
def fusedSum (f : Fmt) (e : REnv) (quietIV : Bool) (ps : List (FV × FV)) (adds : List FV) : FRes :=
  let ops := ps.flatMap (fun p => [p.1, p.2]) ++ adds
  let terms := ps.map (fun p => p.1.mul p.2) ++ adds
  if ops.any FV.isNan then f.nanRes (ops.any FV.isSig || (ps.any invalidProduct && quietIV))
  else if ps.any invalidProduct then f.nanRes true
  else
    let infs := terms.filter FV.isInf
    if infs.any FV.neg && infs.any (fun t => !t.neg) then f.nanRes true
    else
      match infs with
      | t :: _ => ⟨f.infCode t.neg, 0⟩
      | [] => let (v, x) := sumFinite terms; f.deliverInt e (zeroSumNeg e.rm terms) v x

/-- A / B (R186, Table 10.10). -/
def fDiv (f : Fmt) (e : REnv) (a b : FV) : FRes :=
  let n := a.neg.xor b.neg
  if a.isNan || b.isNan then f.nanRes (a.isSig || b.isSig)
  else
    match a, b with
    | .inf _, .inf _ => f.nanRes true
    | .zero _, .zero _ => f.nanRes true
    | .inf _, _ => ⟨f.infCode n, 0⟩
    | _, .inf _ => ⟨f.zeroCode n, 0⟩
    | _, .zero _ => ⟨f.infCode n, flDZ⟩
    | .fin _ m x, .fin _ m' x' =>
      let k := 160 + m'.log2
      let q := m * 2 ^ k
      f.deliver e n ⟨q / m', x - x' - k, q % m' ≠ 0⟩
    | _, _ => ⟨f.zeroCode n, 0⟩

/-- The integer square root, one binary digit at a time from bit k − 1. -/
def isqrtBits (n r : Nat) : Nat → Nat
  | 0 => r
  | k + 1 => isqrtBits n (if (r + 2 ^ k) * (r + 2 ^ k) ≤ n then r + 2 ^ k else r) k

/-- floor(√n). -/
def isqrt (n : Nat) : Nat := isqrtBits n 0 (n.log2 / 2 + 1)

/-- √ of man × 2^exp as a magnitude of at least 120 bits. -/
def sqrtMag (m : Nat) (x : Int) : Mag :=
  let k : Nat := 240 + (x % 2).toNat
  let n := m * 2 ^ k
  let r := isqrt n
  ⟨r, (x - k) / 2, r * r ≠ n⟩

/-- √A (R186, Table 10.10). -/
def fSqrt (f : Fmt) (e : REnv) (a : FV) : FRes :=
  match a with
  | .nan s => f.nanRes s
  | .inf false => ⟨f.infCode false, 0⟩
  | .inf true => f.nanRes true
  | .zero n => ⟨f.zeroCode n, 0⟩
  | .fin true _ _ => f.nanRes true
  | .fin false m x => f.deliver e false (sqrtMag m x)

/-- A × 2^B (FSCL): the exponent is limited where every format has long overflowed or vanished. -/
def fScale (f : Fmt) (e : REnv) (a : FV) (b : Int) : FRes :=
  match a with
  | .nan s => f.nanRes s
  | .inf n => ⟨f.infCode n, 0⟩
  | .zero n => ⟨f.zeroCode n, 0⟩
  | .fin n m x => f.deliver e n ⟨m, x + max (-10000) (min 10000 b), false⟩

/-- A rounded to an integral value; sets no IX (FRINT). -/
def fRint (f : Fmt) (e : REnv) (a : FV) : FRes :=
  match a with
  | .nan s => f.nanRes s
  | .inf n => ⟨f.infCode n, 0⟩
  | .zero n => ⟨f.zeroCode n, 0⟩
  | .fin n m x =>
    let r := ((Mag.mk m x false).split 0).round e.rm n e.srs
    if r = 0 then ⟨f.zeroCode n, 0⟩ else ⟨(f.deliver (.plain .rtz) n ⟨r, 0, false⟩).code, 0⟩

/-- The signed rank of a code that is no NaN: ordered as the values are (R69). -/
def Fmt.key (f : Fmt) (dnf : Bool) (code : Nat) : Int :=
  let m := code % 2 ^ (f.width - 1)
  let m := if dnf && f.isSubnormal code then 0 else m
  if code / 2 ^ (f.width - 1) % 2 = 1 then -(m : Int) else m

/-- The code that an operation on A alone reads: flushed by DNF (R77). -/
def Fmt.flush (f : Fmt) (dnf : Bool) (code : Nat) : Nat :=
  if dnf && f.isSubnormal code then f.zeroCode (code / 2 ^ (f.width - 1) % 2 = 1) else code

/-- minimumNumber and maximumNumber (R190). -/
def fMinMax (f : Fmt) (dnf wantMax : Bool) (a b : Nat) : FRes :=
  let x := f.decode a
  let y := f.decode b
  let iv := flagIf (x.isSig || y.isSig) flIV
  if x.isNan && y.isNan then ⟨f.nanCode, iv⟩
  else if x.isNan then ⟨f.flush dnf b, iv⟩
  else if y.isNan then ⟨f.flush dnf a, iv⟩
  else
    let ka := f.key dnf a
    let kb := f.key dnf b
    let aNeg := x.neg
    let less := ka < kb || (ka = kb && aNeg)
    ⟨f.flush dnf (if less != wantMax then a else b), 0⟩

/-- The class word (R191). -/
def fClass (f : Fmt) (code : Nat) : Nat :=
  match f.decode code with
  | .nan true => 256
  | .nan false => 512
  | .inf true => 1
  | .inf false => 128
  | .zero true => 8
  | .zero false => 16
  | .fin n _ _ => if f.isSubnormal code then (if n then 4 else 32) else (if n then 2 else 64)

/-- A floating comparison with the flag it sets (R192). -/
def fCompare (f : Fmt) (dnf : Bool) (c : Cond) (a b : Nat) : Bool × BitVec 6 :=
  let x := f.decode a
  let y := f.decode b
  let quiet := match c with | .eq => true | .ne => true | .ltn => true | .gen => true | _ => false
  if x.isNan || y.isNan then
    (match c with | .ne => true | .ltn => true | .gen => true | _ => false, flagIf (!quiet || x.isSig || y.isSig) flIV)
  else
    let ka := f.key dnf a
    let kb := f.key dnf b
    (match c with
     | .eq => ka = kb | .ne => ka ≠ kb | .lt => ka < kb | .le => ka ≤ kb | .gt => kb < ka | .ge => kb ≤ ka
     | .ltn => ka < kb | .gen => kb ≤ ka, 0)

/-! ### Conversions (R79) -/

/-- Floating to floating: a conversion's rounding with its treatment of infinities and NaN (R76, R78, R79). -/
def convFF (dst : Fmt) (e : REnv) (a : FV) : FRes :=
  match a with
  | .nan s => ⟨dst.nanCode, flagIf (s || dst.specials = .none) flIV⟩
  | .inf n => if e.sat || !dst.hasInf then ⟨dst.maxCode n, flSA⟩ else ⟨dst.infCode n, 0⟩
  | .zero n => ⟨dst.zeroCode n, 0⟩
  | .fin n m x => dst.deliver e n ⟨m, x, false⟩

/-- Integer to floating. -/
def convIF (dst : Fmt) (e : REnv) (v : Int) : FRes := dst.deliverInt e false v 0

/-- The least value of an integer type. -/
def intMin (signed : Bool) (w : Nat) : Int := if signed then -((2 ^ (w - 1) : Nat) : Int) else 0
/-- The greatest value of an integer type. -/
def intMax (signed : Bool) (w : Nat) : Int := if signed then ((2 ^ (w - 1) : Nat) : Int) - 1 else ((2 ^ w : Nat) : Int) - 1

/-- Floating to integer of a width (R79). -/
def convFI (signed : Bool) (w : Nat) (e : REnv) (a : FV) : FRes :=
  let clampTo (v : Int) : FRes := ⟨ofSigned w v, flIV⟩
  match a with
  | .nan _ => ⟨0, flIV⟩
  | .inf n => clampTo (if n then intMin signed w else intMax signed w)
  | .zero _ => ⟨0, 0⟩
  | .fin n m x =>
    let x := min x 200
    let p := (Mag.mk m x false).split 0
    let r := p.round e.rm n e.srs
    let v : Int := if n then -(r : Int) else r
    if v < intMin signed w then clampTo (intMin signed w)
    else if intMax signed w < v then clampTo (intMax signed w)
    else ⟨ofSigned w v, flagIf (!p.exact) flIX⟩

/-- Saturate or wrap an exact integer into a type (Table 4.8, R80). -/
def intDeliver (signed : Bool) (w : Nat) (sat : Bool) (v : Int) : FRes :=
  if sat then
    if v < intMin signed w then ⟨ofSigned w (intMin signed w), flSA⟩
    else if intMax signed w < v then ⟨ofSigned w (intMax signed w), flSA⟩
    else ⟨ofSigned w v, 0⟩
  else ⟨ofSigned w v, 0⟩

/-! ### Block scales (R71) and matrix accumulation (R84) -/

/-- floor(log2 |x|) of the largest magnitude among finite values; none when every one is zero. -/
def maxLog2 (vs : List FV) : Option Int :=
  vs.foldl (fun a v => match v with
    | .fin _ m x => let l := (m.log2 : Int) + x; some (match a with | none => l | some y => max y l)
    | _ => a) none

/-- The E8M0 scale code of a block (R71). -/
def scaleCode (emax : Int) (vs : List FV) : Nat :=
  if vs.any (fun v => v.isNan || v.isInf) then 255
  else match maxLog2 vs with
    | none => 0
    | some l => (max (-127) (min 127 (l - emax)) + 127).toNat

/-- An element of a block with its scale code, converted into the element format with saturation on (R71). -/
def blockElem (dst : Fmt) (rm : RMode) (scale : Nat) (v : FV) : Nat :=
  if scale = 255 then dst.nanCode
  else match v with
    | .fin n m x => (convFF dst ⟨rm, true, false, 0⟩ (.fin n m (x - ((scale : Int) - 127)))).code
    | _ => (convFF dst ⟨rm, true, false, 0⟩ (.zero v.neg)).code

/-- An INT8 element of a block: the integer of x / 2^X × 2^6, saturated (Table 4.4, R71, R79). -/
def blockElemInt8 (rm : RMode) (scale : Nat) (v : FV) : Nat :=
  if scale = 255 then 0
  else match v with
    | .fin n m x => (convFI true 8 (.plain rm) (.fin n m (x - ((scale : Int) - 127) + 6))).code
    | _ => 0

/-- The fused sum of a step: products and accumulator through a window of W bits (R84). -/
def windowSum (f : Fmt) (rm : RMode) (window : Nat) (ps : List (FV × FV)) (c : FV) : Nat :=
  let terms := ps.map (fun p => p.1.mul p.2) ++ [c]
  if terms.any FV.isNan then f.nanCode
  else
    let infs := terms.filter FV.isInf
    if infs.any FV.neg && infs.any (fun t => !t.neg) then f.nanCode
    else
      match infs with
      | t :: _ => f.infCode t.neg
      | [] =>
        match maxLog2 terms with
        | none => f.zeroCode false
        | some e =>
          let g := e - window
          let parts : List (Int × Bool) := terms.map (fun t => match t with
            | .fin n m x =>
              let p := (Mag.mk m x false).split g
              ((if n then -(p.lo : Int) else (p.lo : Int)), decide (p.num ≠ 0))
            | _ => ((0 : Int), false))
          let s : Int := parts.foldl (fun a p => a + p.1) 0
          let sticky := parts.any (fun p => p.2)
          if s = 0 then f.zeroCode false
          else (f.deliver (.plain rm) (decide (s < 0)) ⟨s.natAbs, g, sticky⟩).code

end Sys2Proof
end

