-- ==== Sys2Proof/Machine/State.lean ====
section
/-!
DEFINITION. Machine/State.lean: the state of a Glanith 9400 as plain data: strands, workgroups, cores, contexts, the Work
Distributor, memory and what is in flight, the engines, the host channels, security, debug, fabric and power, with the model's
own schedule and its counter of free values. INVENTORY.md lists every field with its rule and its reset value.
-/
namespace Sys2Proof.Machine
open Sys2Proof

/-- Faults of the model. The spec names none that ends the machine (every trap and error of the spec is a next state). -/
inductive Fault where
  /-- No meaning raises it at present; kept for an access to an address that the spec says does not exist. Safe. -/
  | noSuchAddress (addr : Nat)
deriving DecidableEq, Repr

/-- Refusals of the model. -/
inductive Refusal where
  /-- An instruction without a meaning yet; raised by Dispatch only. Safe. -/
  | notModelled (mnemonic : String)
  /-- An instruction is asked of the model while no strand is issuing: nothing of the spec happens. Safe. -/
  | noStrand
deriving DecidableEq, Repr

/-! ### Strands (R21 to R45) -/

/-- Split-table states (Table 2.2). -/
inductive FState where
  | ready | blocked | waiting | free
deriving DecidableEq, Repr

/-- Limits of engines that block at issue: the matrix queue (R239), copies (R241), prefetches (R232), fabric transfers (R293). -/
inductive Limit where
  | matrix | copies | prefetch | fabric
deriving DecidableEq, Repr

/-- Why a blocked fragment waits (R38, R45, R61): queue operations with the entries that each queue must give and each channel must
take; a counter (a slot, or a global one by physical address) with its value; a barrier's generation; an in-flight counter; the
deliveries into a landing region; a full/empty line; a page request; an access of a scan; or an engine's limit. -/
inductive Wait where
  | queues (pops : List (Nat × Nat)) (push : List (Nat × Nat × Nat))
  | counter (slot : Option Nat) (pa : Nat) (value : W64)
  | barrier (b : Nat) (gen : Nat)
  | waitf (p : Path) (thr : Nat)
  | land (region : Nat)
  | fullEmpty (line : Nat) (load : Bool)
  | page
  | access (id : Nat)
  | engine (k : Limit)
deriving DecidableEq, Repr

/-- A scan in progress (R223, R224): the next element, what the current group holds, what was pushed, and the access that fetches
an element of another device. -/
structure Scan where
  pos    : Nat
  idxs   : List W32
  vals   : List W32
  pushed : Nat
  fetch  : Option Nat
deriving DecidableEq, Repr

/-- A split-table entry (Table 2.2) with the model's links: `born` numbers fragments in creation order (R35), `pborn` is the
parent's number and `split` says that the fragment waits for the children of its BRD (R202). RC and a scan in progress belong to the fragment whose instruction they continue (R159, R214). -/
structure Frag where
  pc     : BitVec 62
  join   : BitVec 62
  fm     : TMask
  em     : TMask
  parent : BitVec 4
  st     : FState
  born   : Nat
  pborn  : Option Nat
  split  : Bool
  wait   : Option Wait
  rc     : Nat
  scan   : Option Scan
deriving DecidableEq, Repr

/-- A free split-table entry. -/
def Frag.free : Frag :=
  { pc := 0, join := 0, fm := 0, em := 0, parent := 15, st := .free, born := 0, pborn := none, split := false, wait := none, rc := 0, scan := none }

/-- A fault record (Table 18.2). -/
structure FaultRec where
  task   : W64
  pc     : W64
  va     : W64
  tag    : BitVec 16
  bf     : Option Nat
  mask   : TMask
  strand : Nat
  slice  : Slice
  disp   : BitVec 2
  cause  : BitVec 8
  code   : BitVec 8
deriving DecidableEq, Repr

/-- A trap frame (R328): what RFT restores, with the number of the fragment that trapped. -/
structure Frame where
  frag    : Nat
  resume  : W64
  em      : TMask
  k       : SMap 8
  latches : SMap 64
  qt      : BitVec 2
  rc      : Nat
  scan    : Option Scan
  mode    : BitVec 9
  s28     : SMap 64
deriving DecidableEq, Repr

/-- A strand (R21 to R45). Registers are sparse: v and x by 8 × register + thread, latches by 8 × latch + thread; `nextFrag` is the entry
that its next choice considers first (R37), `watchSkip` that its next instruction raises no WATCH (R383). -/
structure Strand where
  v       : SMap 32
  x       : SMap 64
  s       : SMap 64
  k       : SMap 8
  latches : SMap 64
  qt      : BitVec 2
  mode    : BitVec 9
  flags   : BitVec 6
  srs     : SMap 32
  frags   : List Frag
  spilled : List (Nat × Frag)
  nextFrag : Nat
  nborn   : Nat
  frame   : Option Frame
  fault   : Option FaultRec
  parked  : Bool
  exited  : Bool
  stopped : Bool
  lane    : Nat
  slot    : Nat
  watchSkip : Bool
deriving DecidableEq, Repr

/-! ### Queues (R46 to R59) -/

/-- Queue kinds (Table 2.5). -/
inductive QKind where
  | oq | sq | cq
deriving DecidableEq, Repr

/-- A queue declaration (R46). -/
structure QDecl where
  kind  : QKind
  bcast : Bool
  depth : Nat
deriving DecidableEq, Repr

/-- One element that a pending entry reads: into word `word`, `size` bytes at a virtual address, sign-extended or not (R212). -/
structure Fetch where
  word : Nat
  va   : W64
  size : Nat
  sx   : Bool
deriving DecidableEq, Repr

/-- One packet of a scalar remote access (R353): bytes of a 256-byte line of a device, or with `one` one element of a DEV page (R94).
`sent` and `done` say that the packet was sent and answered. -/
structure FabLine where
  dev  : Nat
  pa   : Nat
  len  : Nat
  one  : Bool
  own  : Bool
  sent : Bool
  done : Bool
deriving DecidableEq, Repr

/-- The list read of a list-form GATHERQ (R222): the list element, out of bounds with OOBZ or not, the data record's number, tag and
words 0 to 2. -/
structure ListReq where
  fetch : Option Fetch
  dbf   : Nat
  dtag  : BitVec 16
  w0    : W64
  w1    : W64
  w2    : W64
deriving DecidableEq, Repr

/-- The originating request of a pending entry (R56, R59, R215), with the creation numbers of its fragment and that fragment's ancestors
(R125) and the outstanding accesses that precede it (R126). `ue` marks a UEGET's entry (R296), `wide` one of a list-form GATHERQ (R222),
`splat` one whose words all hold one element (R220). 8-byte elements are read once for two entries: `hi` is the entry that takes their
high words, which names the first as `lo` (R123, R219). -/
structure Pend where
  strand  : StrandId
  line    : List Nat
  pc      : W64
  bf      : Option Nat
  bfTag   : BitVec 16
  mark    : Bool
  fetches : List Fetch
  ue      : Bool
  list    : Option ListReq
  wide    : Bool
  splat   : Bool
  hi      : Option Nat
  lo      : Option Nat
  deps    : List Nat
  lines   : List FabLine
  buf     : SMap 9
deriving DecidableEq, Repr

/-- A queue entry (R47): its words and tag once filled. `taken` lists the consumers of a broadcast queue that have popped it
(R53); `poison` keeps what the fault record of a POISON entry names (R58). -/
structure QEntry where
  id     : Nat
  tag    : BitVec 2
  words  : List W32
  pend   : Option Pend
  poison : Option FaultRec
  taken  : List Nat
deriving DecidableEq, Repr

/-- A declared queue with its channels, oldest entry first. -/
structure Queue where
  decl  : QDecl
  chans : List (List QEntry)
deriving DecidableEq, Repr

/-! ### Nodes, records, grids (R303 to R325) -/

/-- Who pushed a record (R308): the host through a window, or a workgroup's EMIT, LAUNCH or armed target, with its task, node, context and
strand. -/
inductive RecSrc where
  | host (win : Nat)
  | wg (task : W64) (node ctx : Nat) (strand : StrandId)
deriving DecidableEq, Repr

/-- A record in a cistern: its number, its bytes, its source, the clock at which it arrived (R308), and for a LAUNCH the depth and the parent of what
it creates (R291). -/
structure Rec where
  id     : Nat
  bytes  : List Byte
  src    : RecSrc
  at_    : Nat
  depth  : Nat
  parent : Option W64
deriving DecidableEq, Repr

/-- A debug stop (R392): none yet, halted, or continued by the debugger. -/
inductive Hold where
  | free | halted | continued
deriving DecidableEq, Repr

/-- A registered node: its descriptor's 32 words (Table 16.1) and its node state (R303). -/
structure Node where
  desc      : List W64
  ctx       : Nat
  nextSeq   : Nat
  records   : List Rec
  timerFrom : Option Nat
  learned   : Option Nat
  measured  : Nat
  measDone  : Nat
  bestMeas  : Nat
  stopSet   : Bool
  closing   : Option (Nat × Option (List W64))
deriving DecidableEq, Repr

/-- A launched workgroup that waits for admission (R311). -/
structure Launched where
  node    : Nat
  seq     : Nat
  records : List (List Byte)
  depth   : Nat
  parent  : Option W64
  hold    : Hold
deriving DecidableEq, Repr

/-- A grid (R312 to R317): dimensions, order, vectors, placement, scoreboard bits set, released and not yet admitted; `lost` says that it has
reported a fenced core of its map (R314), and `hold` is that of its head. -/
structure Grid where
  node     : Nat
  first    : Nat
  record   : List Byte
  dims     : Nat × Nat × Nat
  order    : Nat
  deps     : List (Int × Int × Int)
  place    : Option (List Nat)
  retired  : List Nat
  ended    : Nat
  released : List Nat
  admitted : List Nat
  cancelled : Bool
  lost     : Bool
  src      : RecSrc
  depth    : Nat
  parent   : Option W64
  hold     : Hold
deriving DecidableEq, Repr

/-! ### Workgroups -/

/-- A barrier (R288): the slices of the generation, the strands that arrived and the generation's number. -/
structure Barrier where
  sl      : Option BarSl
  arrived : List (Slice × Nat)
  gen     : Nat
deriving DecidableEq, Repr

/-- A waiter on a full/empty line (R111), oldest first: the LDC or STF of a fragment that it does when its turn comes, with its register,
access size and extension, each thread's offset and value, and the instruction's length. -/
structure FeWaiter where
  strand : StrandId
  frag   : Nat
  load   : Bool
  line   : Nat
  xd     : Nat
  size   : Nat
  sx     : Bool
  reqs   : List (Nat × W64 × W64)
  len    : Nat
deriving DecidableEq, Repr

/-- What an armed target does (R280). -/
inductive TargetAct where
  | notice
  | emit (record : List Byte)
deriving DecidableEq, Repr

/-- An armed target on a counter slot (R280). -/
structure SlotTarget where
  slot   : Nat
  target : W64
  act    : TargetAct
  strand : StrandId
deriving DecidableEq, Repr

/-- A landing region (R234): slot offsets with a permit each, and claims outstanding. -/
structure Landing where
  region  : Nat
  off     : Nat
  count   : Nat
  permits : List Nat
  claims  : List Nat
deriving DecidableEq, Repr

/-- A matrix command bound at issue (R238 to R261): `tt` is the issued type of its tile, `red` redundant mode, and a drain's
`shadowed` the tile's mark at issue. -/
inductive MCmd where
  | loop (tile : Nat) (a b : W64) (steps : Nat) (accum : Bool) (ainc binc : Nat) (geo : Option W64) (arm : RMode) (red : Bool)
  | zero (tile : Nat) (tt : TileTy) (red : Bool)
  | scale (tile : Nat) (by_ : W32) (red : Bool)
  | drain (tile : Nat) (tt : TileTy) (desc : W64) (rm : RMode) (sat : Bool) (relu : Bool) (shadowed : Bool)
  | fill (tile : Nat) (desc : W64) (tt : TileTy) (red : Bool)
  | cfg
deriving DecidableEq, Repr

/-- A queued or running matrix command: the issuer's PC, its counter slot, the steps done and left, the tiles that it uses, the
tiles whose contents it leaves undefined (R242), and the shared bytes that something else has written since its issue (R144). `mute`
says that it adds nothing (R261); `em` is EM at its issue (R331); its reads follow `deps` (R142). -/
structure MEntry where
  id      : Nat
  wg      : WgId
  pc      : W64
  cmd     : MCmd
  ctr     : Nat
  done    : Nat
  left    : Nat
  running : Bool
  uses    : List Nat
  wrecks  : List Nat
  taint   : SMap 1
  mute    : Bool
  em      : TMask
  deps    : List Nat
deriving DecidableEq, Repr

/-- The matrix configuration of a workgroup (R259). -/
structure MConf where
  red : Bool
  arm : RMode
  geo : Option W64
deriving DecidableEq, Repr

/-- A watchpoint (R300, R382). -/
structure Watch where
  num   : Nat
  read  : Bool
  write : Bool
  atom  : Bool
  addr  : W64
  len   : W64
deriving DecidableEq, Repr

/-- A resident workgroup (R25, R106 to R111). Tile element (i, n) stands at 64 × i + n; `msteps` holds, by tile, the MLOOP steps since
it was defined and the first that differed from its shadow (R261). -/
structure Workgroup where
  node     : Nat
  ctx      : Nat
  task     : W64
  seqNo    : Nat
  grid     : Option (Nat × Nat)
  dims     : Nat × Nat × Nat
  coords   : Nat × Nat × Nat
  depth    : Nat
  parent   : Option W64
  na       : Nat
  ne       : Nat
  issuer   : Nat
  prio     : Nat
  vregs    : Nat
  acc      : Nat
  recCount : Nat
  recBase  : Nat
  tentry   : W64
  out      : List Nat
  errctr   : W64
  size     : Nat
  shared   : SMap 8
  full     : SMap 1
  feq      : List FeWaiter
  queues   : AList Nat Queue
  barriers : AList Nat Barrier
  targets  : List SlotTarget
  landings : List Landing
  tiles    : AList Nat (SMap 64)
  tileTy   : AList Nat TileTy
  shadowed : List Nat
  msteps   : AList Nat (Nat × Option Nat)
  mconf    : MConf
  pend     : List FaultRec
  memClass : Bool
  lbase    : Nat
  lper     : Nat
  measuring : Bool
  lines    : SMap 1
  maxActive : Nat
  placed   : Bool
  children : Nat
  childGrids : Nat
  spillOff : Nat
  spillRoom : Nat
  stopAfter : Bool
  hold     : Hold
deriving DecidableEq, Repr

/-! ### Memory accesses in flight (R116, R122 to R132) -/

/-- Page attributes (Table 6.3). -/
inductive Attr where
  | priv | rsh | coh | cohf | dev
deriving DecidableEq, Repr

/-- Where a byte lives: local physical memory by its page's class, another device's memory, a workgroup's shared allocation, or
a core's pipe region (R93, R96, R108). -/
inductive Loc where
  | phys (attr : Attr) (pa : Nat)
  | remote (attr : Attr) (dev pa : Nat)
  | shared (wg : WgId) (off : Nat)
  | pipe (core : Nat) (off : Nat)
deriving DecidableEq, Repr

/-- What an access does to each of its elements (Table 7.1). -/
inductive AccKind where
  | load (xd : Nat) (sx : Bool)
  | deliver (xd : Nat)
  | store
  | atom (op : AOp) (uns : Bool) (xd : Option Nat)
  | atomf (op : FOp) (bf16 : Bool) (xd : Option Nat)
  | add
deriving DecidableEq, Repr

/-- One thread's element: its bytes' locations in ascending order (none for a byte that is not accessed here: out of bounds, in
the Mend log, or written by a higher thread, R105), the value stored, combined or delivered, and the value compared. -/
structure Elem where
  thread : Nat
  va     : W64
  locs   : List (Option Loc)
  val    : W64
  cmp    : W64
  done   : Bool
deriving DecidableEq, Repr

/-- An access in flight (R116): the creation numbers of its fragment and that fragment's ancestors (R125), its path, its elements, the outstanding accesses that must perform first (R126), and whether it
is an acquire (R129). It stays listed until it is counted down in issue order. -/
structure Acc where
  id     : Nat
  strand : StrandId
  ctx    : Nat
  task   : W64
  line   : List Nat
  kind   : AccKind
  path   : Option Path
  pc     : W64
  bf     : Option Nat
  bfTag  : BitVec 16
  elems  : List Elem
  deps   : List Nat
  acq    : Bool
  dev    : Bool
  lines  : List FabLine
  buf    : SMap 9
deriving DecidableEq, Repr

/-- A thread's element in a Mend-log entry (R118): its address and size, its value and the value compared, and which of its bytes lie in the
entry's line. -/
structure MendPart where
  thread : Nat
  va     : W64
  size   : Nat
  val    : W64
  cmp    : W64
  bytes  : List Nat
deriving DecidableEq, Repr

/-- A Mend-log entry (R118): one 256-byte line of a store, a non-fetching atomic or a counter add, with its place in program order, and
whether it is an acquire (R129). -/
structure Mend where
  id     : Nat
  strand : StrandId
  line   : W64
  lin    : List Nat
  kind   : AccKind
  pc     : W64
  bf     : Option Nat
  bfTag  : BitVec 16
  parts  : List MendPart
  deps   : List Nat
  acq    : Bool
deriving DecidableEq, Repr

/-- A TLB entry (R339): one page of any size, `size` being the page's address bits. In a walk cache it is a table pointer of the level whose
entries each map 2^`size` bytes, `pte` being the address of the next table. -/
structure Tlb where
  asid : Nat
  gen  : Nat
  vpn  : Nat
  size : Nat
  pte  : W64
deriving DecidableEq, Repr

/-- Access kinds of a translation (R92, Table 18.5). -/
inductive AKind where
  | read | write | fetch | atomic
deriving DecidableEq, Repr

/-- What joined a page request (R341): a stalled instruction of a fragment, a pending queue entry, or a copy command or fabric
transfer by its number. -/
inductive Joiner where
  | inst (sid : StrandId) (born : Nat)
  | entry (id : Nat)
  | op (id : Nat)
deriving DecidableEq, Repr

/-- A page request (R341) with what joined it. -/
structure PageReq where
  num   : Nat
  asid  : Nat
  gen   : Nat
  vpage : Nat
  kind  : AKind
  withdrawn : Bool
  joined : List Joiner
deriving DecidableEq, Repr

/-- A page-table walk in progress (R340): what it read, for the core that missed; an INV of the page meanwhile leaves nothing to
cache. -/
structure Walk where
  id    : Nat
  core  : Nat
  entry : Tlb
  cache : Bool
deriving DecidableEq, Repr

/-! ### Cores -/

/-- A lane (R21, R37): the strand and split-table entry it runs, the slot that its next choice considers first, and the clock to which it is occupied. -/
structure Lane where
  cur  : Option (StrandId × Nat)
  turn : Nat
  busy : Nat
deriving DecidableEq, Repr

/-- A Stitch sample (R386): eight words, with the context of its task. -/
structure Sample where
  ctx   : Nat
  words : List W64
deriving DecidableEq, Repr

/-- A Stitch sampler (R386; log 28): its LFSR, how many issued instructions end its interval, whether it has tagged the next one, its completed
samples, and the sample of a load that has not written back, with the number of the load's access. -/
structure Sampler where
  lfsr   : BitVec 16
  left   : Nat
  tagged : Bool
  seq    : W32
  held   : Option (Nat × Sample)
deriving DecidableEq, Repr

/-- States of a trace unit (Table 23.4), in code order 0..3. -/
inductive TraceState where
  | idle | armed | capturing | done
deriving DecidableEq, Repr

/-- An instruction issued in the present clock (R389): its scheduler and words 0, 1 and 3 of its trace record. -/
structure TraceRec where
  sched : Nat
  task  : W64
  pc    : W64
  w3    : W64
deriving DecidableEq, Repr

/-- A core's trace unit (R389 to R391, Table 23.5): START, STOP, WRAP and OVF of TRCCTL in their places, the other registers, and
what has happened in the present clock: instructions issued, trap codes raised, comparators matched. -/
structure TraceUnit where
  ctl    : W64
  state  : TraceState
  base   : W64
  len    : W64
  startv : W64
  stopv  : W64
  count  : Nat
  issued : List TraceRec
  traps  : List Nat
  comps  : TMask
deriving DecidableEq, Repr

/-- A core (R10 to R18, R107, R112, R116, R118, R239, R339). `l1` lists the lines that the L1 holds, each coherent or not, and `icache` those
of the instruction cache, oldest first; the L1's non-coherent bytes are held by physical address with bit 8 set, dirty or clean (a coherent line's bytes are
the same wherever it is held); `mendFull` is the last clock that counter 11 counted (R388), and `leaving` lists the
tasks that were resident when the Weir moved the core (R323), and `issuedAt` holds the clock of the last issue and the rank of its strand (R48, R111). -/
structure Core where
  ctx      : Option Nat
  resetAt  : Nat
  fenced   : Bool
  pipe     : SMap 8
  pipeFull : SMap 1
  pipeFeq  : List FeWaiter
  dirty    : SMap 9
  clean    : SMap 9
  tlb      : List Tlb
  mend     : List Mend
  l1       : List (Nat × Bool)
  icache   : List Nat
  lanesE   : AList Nat Lane
  lanesA   : AList Nat Lane
  mqueue   : List MEntry
  mlast    : Nat
  copies   : Nat
  watches  : List Watch
  throttle : Nat
  victimHits : Nat
  l1count  : Nat
  victims  : List (Nat × WgId)
  counts   : SMap 64
  samples  : AList Nat Sample
  samplers : AList Nat Sampler
  mendFull : Option Nat
  trace    : TraceUnit
  stage    : Option Nat
  movedAt  : Option Nat
  leaving  : List W64
  issuedAt : Nat × Nat
deriving DecidableEq, Repr

/-! ### Copy commands, prefetch and fabric transfers (R265 to R272, R232, R293) -/

/-- A copy command bound at issue: the tensor descriptor's words, the origin, the bound gather record's words, and where it
lands or reads (R267 to R272). `left` lists the receivers whose landing is not complete. -/
inductive CopyKind where
  | tcopy (region slot : Nat)
  | tmcast (region slot : Nat) (grid : Nat) (receivers : List Nat)
  | tstore (src : W64) (rm : RMode) (sat : Bool)
deriving DecidableEq, Repr

/-- A landing under way: the receiving workgroup, its region's offset and the bytes delivered. -/
structure Delivery where
  wg    : WgId
  base  : Nat
  slots : List Nat
  done  : Nat
  taint : List Nat
deriving DecidableEq, Repr

/-- An outstanding copy command (R241); its reads follow `deps` (R142). -/
structure Copy where
  id     : Nat
  core   : Nat
  wg     : WgId
  ctx    : Nat
  pc     : W64
  unit   : Option Nat
  kind   : CopyKind
  td     : List W64
  origin : List W64
  gather : Option (List W64)
  ctr    : Nat
  started : Bool
  told   : Bool
  wrote  : Nat
  dlv    : List Delivery
  done   : Nat
  deps   : List Nat
deriving DecidableEq, Repr

/-- A prefetch operation (R232): the 4 KiB pages of the range that are done. -/
structure Prefetch where
  id   : Nat
  task : W64
  core : Nat
  slot : Nat
  ctx  : Nat
  tier : Bool
  va   : Nat
  len  : Nat
  ctr  : Nat
  pc   : W64
  done : List Nat
deriving DecidableEq, Repr

/-- A saved workgroup (R333 to R337): its workgroup, its strands, its queued matrix commands, copies and Mend-log entries. -/
structure SavedWg where
  id      : Nat
  from_   : WgId
  wg      : Workgroup
  strands : List (Slice × Nat × Strand)
  cmds    : List MEntry
  copies  : List Copy
  mend    : List Mend
deriving DecidableEq, Repr

/-- The retirement record of a workgroup that waits for its children (R28, R325), with the per-strand figure of a measured one (R322). -/
structure RetRec where
  task     : W64
  wg       : WgId
  ctx      : Nat
  node     : Nat
  grid     : Option (Nat × Nat)
  children : Nat
  grids    : Nat
  parent   : Option W64
  dead     : Bool
  figure   : Option Nat
deriving DecidableEq, Repr

/-- An add that the Distributor or an engine makes on a global counter of a context (R294, R296, R324); `note` names the launch
error whose ERRCTR add it is. -/
structure PendAdd where
  id     : Nat
  ctx    : Nat
  va     : W64
  amount : W64
  note   : Option Nat
deriving DecidableEq, Repr

/-- An armed target on a global counter (R280 to R282), keyed by the counter's physical address. -/
structure GlobalTarget where
  pa     : Nat
  ctx    : Nat
  target : W64
  act    : TargetAct
  node   : Nat
  task   : W64
  strand : StrandId
deriving DecidableEq, Repr

/-! ### Contexts, logs and the host's channels (R332 to R344, R371 to R376, R398 to R401) -/

/-- Context states (Table 18.6), with one for a save in progress and one for a resume in progress. -/
inductive CtxState where
  | active | saving | saved | resuming | releasing
deriving DecidableEq, Repr

/-- A ring log (R332): entries with their sequence numbers, newest last, and the overflow count. -/
structure RingLog (α : Type) where
  entries  : List (Nat × α)
  next     : Nat
  overflow : Nat
deriving DecidableEq, Repr

/-- Launch errors (Table 16.5). -/
inductive LaunchErr where
  | cycle | placement | nodeInvalid | depth
deriving DecidableEq, Repr

/-- Error-log entries (R324, R277, R330, R336, R359, R373, R378). -/
inductive ErrEntry where
  | launch (e : LaunchErr) (header : W64) (task : Option W64) (errctrFailed : Bool)
  | saturated (slot : Option Nat) (pa : Option Nat) (task : Option W64)
  | gridCancelled (node : Nat) (task : W64)
  | failedSave
  | reduceAbandoned (key : RedKey)
  | integrity (pa : Nat)
  | domain (d : Domain) (task : W64)
deriving DecidableEq, Repr

/-- A context (R371): its descriptor's 16 words, its key version, its logs and what a pre-emption saved (R333): `rewatched` lists the cores
whose saved comparators have been restored, with the cores that have them (R300). -/
structure Ctx where
  desc     : List W64
  gen      : Nat
  key      : Nat
  keyVer   : Nat × Option Nat
  part     : List Nat
  state    : CtxState
  stopAt   : Option Nat
  faults   : RingLog FaultRec
  errors   : RingLog ErrEntry
  saved    : List SavedWg
  pipes    : AList Nat (SMap 8 × SMap 1)
  watches  : AList Nat (List Watch)
  rewatched : List (Nat × Nat)
  pending  : List Nat
deriving DecidableEq, Repr

/-- Notices (Table 25.3). -/
inductive NoticeKind where
  | counter (ctx : Nat) (slot : Option (Nat × W64)) (pa : Option Nat)
  | fault (ctx seq : Nat)
  | saved (ctx : Nat) (part : List Nat) (ok : Bool)
  | error (dom : Domain)
  | stackError (stack : Nat)
deriving DecidableEq, Repr

/-- What the device sends over the attach (R394), and to Ultra Ethernet peers (`ueDone`, R365), oldest first. -/
inductive OutMsg where
  | complete (tag status detail : Nat) (result0 : W64) (result : List Byte)
  | notice (seq : Nat) (k : NoticeKind)
  | pageReq (num asid gen vpage : Nat) (kind : AKind)
  | syncAck (tag : Nat)
  | memDone (ok : Bool) (data : List Byte)
  | ueDone (ok : Bool) (data : List Byte)
  | pushDone (node : Nat) (ok : Bool)
deriving DecidableEq, Repr

/-- Lifecycle states (Table 22.1). -/
inductive Lifecycle where
  | manufacture | production | debug | rma
deriving DecidableEq, Repr

/-- Management commands that wait (R374, R376, R398): a release behind a pre-emption or resumption, one that scrubs, a resumption, a
creation or a lifecycle transition that waits for an audit entry. -/
inductive Waiting where
  | release (tag ctx : Nat)
  | released (tag ctx : Nat)
  | resume (tag ctx : Nat)
  | create (tag ctx : Nat) (desc : List W64)
  | lifecycle (tag : Nat) (target : Lifecycle)
deriving DecidableEq, Repr

/-- A command that names a context and is not completed (R398): its context, its tag, and the completion that is held until those before it
in its context are sent. -/
structure Cmd where
  ctx   : Nat
  tag   : Nat
  reply : Option OutMsg
deriving DecidableEq, Repr

/-- A push window (R397): its error count and whether the last push was refused. -/
structure PushWin where
  errors : Nat
  busy   : Bool
deriving DecidableEq, Repr

/-- A SYNC that waits (R342): its tag and what must be over before its acknowledgement. -/
structure SyncReq where
  tag   : Nat
  waits : List Nat
  walks : List Nat
deriving DecidableEq, Repr

/-! ### Trust Controller and reliability (R367 to R381) -/

/-- Audit entry types (Table 22.5), codes 1..10. -/
inductive AuditTy where
  | boot | ctxCreated | ctxReleased | rinseDone | debugUnlock | lifecycle | integrity | fenced | refreshTakeover | typed
deriving DecidableEq, Repr

/-- An audit entry (Table 22.5) with its chain head. -/
structure AuditEntry where
  seq     : Nat
  ty      : AuditTy
  ctx     : Nat
  payload : List Byte
  head    : List Byte
deriving DecidableEq, Repr

/-- The state of a containment domain (R378): clocks of recent corrected errors, quiesced, fenced, or lost until reset (`dead`), and the
entries of the home table that a quiesced L2 slice gave away. -/
structure DomState where
  dom      : Domain
  recent   : List Nat
  total    : Nat
  soft     : Nat
  quiesced : Bool
  fenced   : Bool
  dead     : Bool
  entries  : List Nat
deriving DecidableEq, Repr

/-- The Trust Controller's state (R367 to R377): among it the fused security version as a thermometer code and the number of boots. -/
structure Trust where
  lifecycle : Lifecycle
  nextLife  : Option Lifecycle
  secVersion : BitVec 64
  meas      : List (List Byte)
  nonce     : Option (List Byte)
  nonces    : Nat
  lmsUsed   : Nat
  boots     : Nat
  audit     : List AuditEntry
  auditNext : Nat
  auditHead : List Byte
  portOpen  : Bool
  unlocking : Option (Nat × List Byte)
  bootStage : Nat
deriving DecidableEq, Repr

/-- Debug event entries (Table 23.1). -/
inductive DbgEvent where
  | detachedWatch (comps : TMask) (va pc task : W64)
  | stopped (task : W64)
  | traceEnd (core : Nat) (records : Nat)
deriving DecidableEq, Repr

/-- The device error log's entries (R381, R396, R378). -/
inductive DevErr where
  | accessError (ctx pa : Nat)
  | refreshTakeover (stack : Nat)
  | domain (d : Domain)
deriving DecidableEq, Repr

/-- A stack's Pledan core (R381): missed heartbeats and whether its schedulers took over. -/
structure Pledan where
  lastBeat : Nat
  takenOver : Bool
deriving DecidableEq, Repr

/-- A line that L2 holds (R112, R113): of local memory, or of device `dev`'s, by line number; its home slice, the sectors that are filled
and the bytes that have been written since. Its bytes are those of `State.mem` or `State.fabric`. -/
structure L2Line where
  dev   : Option Nat
  line  : Nat
  slice : Nat
  valid : BitVec 4
  mask  : BitVec 256
deriving DecidableEq, Repr

/-- An L2 miss request to HBM4E that waits for its channel scheduler (R117): a line, its sectors, and the core and workgroup slot that
read it. -/
structure ReadReq where
  line    : Nat
  sectors : BitVec 4
  core    : Nat
  slot    : Nat
deriving DecidableEq, Repr

/-- A channel scheduler (R97, R117, R379, R380): its version boundary, banked refreshes, its last MEMORY-class request, and the clock from which its
next refresh is counted. -/
structure Channel where
  boundary : Nat
  errors   : Nat
  banked   : Nat
  lastMem  : Option Nat
  lastRef  : Nat
  group    : Option (Nat × Nat)
deriving DecidableEq, Repr

/-- The Rinse pass (R379): the clock at which the last one began, the key version v, and whether it is open. -/
structure Rinse where
  began   : Option Nat
  version : Nat
  opened  : Bool
deriving DecidableEq, Repr

/-! ### Fabric and scale-out (R345 to R366) -/

/-- What the answer to a packet completes (R351): a line of an access or of a queue entry, a directory request or the write-back of a line,
bytes of a transfer, or nothing. -/
inductive PktUse where
  | elem (acc : Nat) (line : Nat)
  | entry (id : Nat) (line : Nat)
  | dir (line : Nat)
  | back (line : Nat)
  | bulk (xfer : Nat)
  | message
deriving DecidableEq, Repr

/-- An unacknowledged packet (R351). -/
structure Sent where
  pkt     : Packet
  at_     : Nat
  resends : Nat
  alt     : Nat
  use_    : PktUse
deriving DecidableEq, Repr

/-- A receiver's window for one source and plane (R350, R352): the next SEQ to deliver, packets held out of order, and the
answers kept. -/
structure RecvWin where
  src   : Nat
  plane : Nat
  next  : Nat
  held  : List Packet
  kept  : List (Nat × Packet)
deriving DecidableEq, Repr

/-- A bulk transfer (R293 to R295, R355): what is left of it and where its packets count. -/
inductive XferKind where
  | write (dev : Nat)
  | read (dev : Nat)
  | reduce (group seq : Nat) (op : FOp) (ty : RedTy)
deriving DecidableEq, Repr

/-- An incomplete fabric transfer; its reads of local memory follow `deps` (R142), and `got` lists the offsets of a reduction whose results
it has taken (R352). -/
structure Xfer where
  id    : Nat
  task  : W64
  ctx   : Nat
  strand : StrandId
  pc    : W64
  kind  : XferKind
  dst   : W64
  src   : W64
  len   : Nat
  ctr   : W64
  sent  : Nat
  acked : Nat
  stopped : Bool
  deps  : List Nat
  got   : List Nat
deriving DecidableEq, Repr

/-- A directory entry (R361 to R364): owner, sharers, the request in progress and those that wait. Of the request in progress, `fwd` is the
device that is still to supply the line, `acks` the number of sharers invalidated and `invs` those of them that have not yet taken it.
`evict` lists the devices whose acknowledgement or write-back frees the entry (R363); `blocked` holds during a census. -/
structure DirLine where
  line    : Nat
  owner   : Option (Nat × Moesi)
  sharers : List Nat
  busy    : Option (DirReq × Nat)
  queue   : List (DirReq × Nat)
  blocked : Bool
  fwd     : Option Nat
  invs    : List Nat
  acks    : Nat
  evict   : List Nat
deriving DecidableEq, Repr

/-- This device's own directory request (R361, R362): the acknowledgements that the response tells of and those that arrived, whether
the data arrived, whether it is to hold the line alone, when a NACK came, and whether the supplier keeps a written copy. -/
structure DirWant where
  line   : Nat
  req    : DirReq
  acks   : Option Nat
  got    : Nat
  data   : Bool
  alone  : Bool
  nackAt : Option Nat
  kept   : Bool
deriving DecidableEq, Repr

/-- A reduction piece at the switches of its plane (R357 to R359): its FTAG, operation and type, the contributions that the leaves hold by
member, the partials that the root holds by leaf, the clock of the first contribution and those that have come since, the result, and
whether it has been abandoned. -/
structure RedPiece where
  key      : RedKey
  tag      : BitVec 16
  op       : FOp
  ty       : RedTy
  contribs : List (Nat × List Byte)
  partials : List (Nat × List Byte)
  since    : Nat
  came     : List Nat
  result   : Option (List Byte)
  gone     : Bool
deriving DecidableEq, Repr

/-- A multicast group (R357). -/
structure RedGroup where
  num     : Nat
  members : List Nat
deriving DecidableEq, Repr

/-- The fabric's state (R345 to R364): among it the directory entries `dir`, this device's requests `wants`, the lines that it holds with
their FTAGs and the bytes of other devices' lines, the copies that it has `supplied` with the request and the requester, and the spines
that have failed, by plane. -/
structure Fabric where
  device   : Nat
  peers    : List Nat
  paths    : List (Nat × Nat × List Nat)
  depths   : AList (Nat × Nat) (List Nat)
  seqs     : AList (Nat × Nat) Nat
  sent     : List Sent
  wire     : List Packet
  unreach  : List (Nat × Nat)
  recv     : List RecvWin
  xfers    : List Xfer
  answers  : List Packet
  dir      : List DirLine
  wants    : List DirWant
  failedSpines : List (Nat × Nat)
  lines    : AList Nat Moesi
  tags     : AList Nat Nat
  data     : SMap 8
  supplied : List (Nat × DirReq × Nat)
  pieces   : List RedPiece
  groups   : List RedGroup
  switchErrors : Nat
  replays  : Nat
  delivered : Nat
deriving DecidableEq, Repr

/-- A UEGET in progress (R296, R366): its fragment, how many entries it has reserved, and those that are not filled, each with the
remote address that it reads. -/
structure UeGet where
  id    : Nat
  task  : W64
  ctx   : Nat
  strand : StrandId
  born  : Nat
  port  : Nat
  ep    : Nat
  count : Nat
  made  : Nat
  left  : List (Nat × W64)
  ctr   : W64
deriving DecidableEq, Repr

/-! ### Power (R402, R403) -/

/-- Power states (Table 25.4). -/
inductive PState where
  | active | idle | thermal | off | stopped
deriving DecidableEq, Repr

/-- Platform registers and power (Table 25.4, R400, R402, R403). -/
structure Platform where
  ready   : Bool
  trip    : Bool
  pstate  : PState
  stage   : Nat
  failChk : Nat
  tierGib : Nat
  idleEn  : Bool
  tierBase : Nat
  ovfBase : Nat
  ovfSize : Nat
  tripAt  : Option Nat
  stopping : Bool
  ports   : List Nat
deriving DecidableEq, Repr

/-! ### Memory -/

/-- A memory: bytes by address in the canonical form of `SMap`; an address that is not listed reads as zero (log 1). -/
abbrev Memory := SMap 8

/-- The canonical form: addresses rise strictly and no entry holds what an unlisted address reads as. -/
def Memory.wf (m : Memory) : Bool := SMap.wf m

/-! ### The schedule -/

/-- The moves that the outside of the model may list in `State.moves`: an event of the table, a lane's next issue, clocks that pass, the
choices of caches that the spec does not fix, and a management message as its bytes (R401). -/
inductive Move where
  | event (i : Instr)
  | issue (core : Nat) (ap : Bool) (lane : Nat)
  | tick (n : Nat)
  | evict (core : Nat) (line : Nat) (slot : Nat)
  | message (bs : List Byte)
  | auto
deriving DecidableEq, Repr

/-- An access to memory of the host, or of an Ultra Ethernet peer, that has arrived (R365, R396). -/
structure HostOp where
  ue  : Bool
  ctx : Nat
  pa  : Nat
  op  : MemOp
deriving DecidableEq, Repr

/-- The state of the device. -/
structure State where
  moves    : List Move
  free     : Nat
  cur      : Option (StrandId × Nat)
  serial   : Nat
  clock    : Nat
  mem      : Memory
  tier     : Memory
  tierCache : List (Nat × Nat × Bool)
  strands  : AList StrandId Strand
  wgs      : AList WgId Workgroup
  cores    : AList Nat Core
  accs     : List Acc
  walks    : List Walk
  pageReqs : List PageReq
  fails    : List (Joiner × Nat)
  sharedTlb : AList Nat (List Tlb)
  walkCache : AList Nat (List Tlb)
  l2       : List L2Line
  reads    : List ReadReq
  syncs    : List SyncReq
  ctxs     : AList Nat Ctx
  gens     : SMap 4
  owners   : SMap 64
  badLines : SMap 1
  channels : AList Nat Channel
  nodes    : AList Nat Node
  launched : AList Nat Launched
  grids    : AList Nat Grid
  retRecs  : List RetRec
  rrNode   : AList Nat Nat
  lastWeir : Nat
  weirCount : Nat
  emits    : List (RecSrc × List Byte)
  adds     : List PendAdd
  targets  : List GlobalTarget
  copies   : List Copy
  unitCore : AList Nat Nat
  unitCopy : AList (Nat × Nat) Nat
  prefetches : List Prefetch
  homeTable : List Nat
  wins     : AList Nat PushWin
  out      : List OutMsg
  notices  : Nat
  waiting  : List Waiting
  cmds     : List Cmd
  trust    : Trust
  doms     : List DomState
  devErrs  : List (Nat × DevErr)
  devErrNext : Nat
  dbg      : RingLog DbgEvent
  pledans  : List Pledan
  rinse    : Rinse
  fabric   : Fabric
  ueGets   : List UeGet
  hostOps  : List HostOp
  plat     : Platform
deriving DecidableEq, Repr

/-- A core after reset: no context, empty caches, every entry of its SRAM zero (R96 to R116). -/
def Core.reset : Core :=
  { ctx := none, resetAt := 0, fenced := false, pipe := [], pipeFull := [], pipeFeq := [], dirty := [],
    clean := [], tlb := [], mend := [], l1 := [], icache := [], lanesE := [], lanesA := [], mqueue := [], mlast := 0, copies := 0, watches := [],
    throttle := 0, victimHits := 0, l1count := 0, victims := [], counts := [], samples := [], samplers := [],
    mendFull := none, trace := ⟨0, .idle, 0, 0, 0, 0, 0, [], [], 0⟩, stage := none,
    movedAt := none, leaving := [], issuedAt := (0, 0) }

/-- The Trust Controller after reset: measurements zero (R369), the log empty until stage 1 writes BOOT (R375), the port closed
(R377); lifecycle PRODUCTION and security version 0 are the model's choice (log 5). -/
def Trust.reset : Trust :=
  { lifecycle := .production, nextLife := none, secVersion := 0, meas := List.replicate 8 (List.replicate 48 0), nonce := none,
    nonces := 0, lmsUsed := 0, boots := 0, audit := [], auditNext := 0, auditHead := List.replicate 48 0, portOpen := false,
    unlocking := none, bootStage := 0 }

/-- The fabric end after reset: no device number, path or group until firmware assigns them (R345; log 7). -/
def Fabric.reset : Fabric :=
  { device := 0, peers := [], paths := [], depths := [], seqs := [], sent := [], wire := [], unreach := [], recv := [], xfers := [],
    answers := [], dir := [], wants := [], failedSpines := [], lines := [], tags := [], data := [], supplied := [], pieces := [], groups := [], switchErrors := 0, replays := 0,
    delivered := 0 }

/-- The platform registers after reset (Table 25.4). -/
def Platform.reset : Platform :=
  { ready := false, trip := false, pstate := .active, stage := 0, failChk := 0, tierGib := 0, idleEn := true, tierBase := 0,
    ovfBase := 0, ovfSize := 0, tripAt := none, stopping := false,
    ports := List.replicate 16 768000000000 }

/-- The device right after reset: nothing resident, nothing in flight, bring-up not begun (R400). -/
def State.reset : State :=
  { moves := [], free := 0, cur := none, serial := 0, clock := 0, mem := [], tier := [], tierCache := [],
    strands := [], wgs := [], cores := [], accs := [], walks := [], pageReqs := [], fails := [], sharedTlb := [], walkCache := [], l2 := [], reads := [], syncs := [], ctxs := [],
    gens := [], owners := [], badLines := [], channels := [], nodes := [], launched := [], grids := [], retRecs := [], rrNode := [], lastWeir := 0,
    weirCount := 0, emits := [], adds := [], targets := [], copies := [], unitCore := [], unitCopy := [], prefetches := [],
    homeTable := (List.range 896).map (· % 224), wins := [], out := [], notices := 0, waiting := [], cmds := [],
    trust := Trust.reset, doms := [], devErrs := [], devErrNext := 0, dbg := ⟨[], 0, 0⟩,
    pledans := List.replicate 8 ⟨0, false⟩, rinse := ⟨none, 0, false⟩, fabric := Fabric.reset, ueGets := [], hostOps := [],
    plat := Platform.reset }

end Sys2Proof.Machine
end

