-- ==== Sys2Proof/Machine/Ops.lean ====
section
/-!
DEFINITION. Machine/Ops.lean: the named operations over the state that every meaning uses: who issues, registers of a strand,
the split table (R29 to R36), yield points and latches (R38 to R41), logs and notices (R332, R398), taking a trap (R326 to R331)
and the return from it (R298), and the end of a workgroup (R330).
-/
namespace Sys2Proof.Machine
open Sys2Proof

/-- The outcome of a step. -/
abbrev Out := Host.Outcome State Fault Refusal

/-! ### Who issues -/

/-- The issuing strand with its running fragment and its workgroup. -/
structure Me where
  sid : StrandId
  st  : Strand
  fi  : Nat
  f   : Frag
  wg  : Workgroup

/-- The strand that is issuing, if one is. -/
def State.me (s : State) : Option Me := do
  let (sid, fi) ← s.cur
  let st ← s.strands.find sid
  let f ← st.frags[fi]?
  let wg ← s.wgs.find sid.wg
  if f.st = .free || st.exited then none else some ⟨sid, st, fi, f, wg⟩

/-- Give the issuing strand to a meaning; without one the instruction is refused. -/
def asStrand (s : State) (k : Me → State) : Out :=
  match s.me with
  | none => .refused .noStrand
  | some m => .next (k m)

/-- The core of the issuing strand. -/
def Me.core (m : Me) : Nat := m.sid.wg.core

/-- The issuing fragment's instruction address. -/
def Me.pc (m : Me) : W64 := m.f.pc ++ 0#2

/-- The execution mask. -/
def Me.em (m : Me) : TMask := m.f.em

/-- The strand runs on the access slice. -/
def Me.access (m : Me) : Bool := m.sid.slice = .access

/-! ### Updates -/

/-- Apply a function to a strand. -/
def State.updStrand (s : State) (sid : StrandId) (g : Strand → Strand) : State :=
  { s with strands := s.strands.adjust sid g }

/-- Apply a function to a workgroup. -/
def State.updWg (s : State) (w : WgId) (g : Workgroup → Workgroup) : State := { s with wgs := s.wgs.adjust w g }

/-- A core's state; a core that nothing has touched is as after reset. -/
def State.core (s : State) (c : Nat) : Core := s.cores.findD c Core.reset

/-- Apply a function to a core. -/
def State.updCore (s : State) (c : Nat) (g : Core → Core) : State := { s with cores := s.cores.put c (g (s.core c)) }

/-- Apply a function to a context. -/
def State.updCtx (s : State) (c : Nat) (g : Ctx → Ctx) : State := { s with ctxs := s.ctxs.adjust c g }

/-- Apply a function to a fragment of a strand. -/
def State.updFrag (s : State) (sid : StrandId) (fi : Nat) (g : Frag → Frag) : State :=
  s.updStrand sid (fun st => { st with frags := listAdjust st.frags fi g })

/-- The next serial number. -/
def State.fresh (s : State) : Nat × State := (s.serial, { s with serial := s.serial + 1 })

/-- The next free value (log 2): it discards nothing of what the step does beside it. -/
def State.takeFree (s : State) : BitVec 64 × State := (Config.freeValue s.free, { s with free := s.free + 1 })

/-- `n` free values, in order. -/
def State.takeFrees (s : State) (n : Nat) : List (BitVec 64) × State :=
  ((upto n).map (fun i => Config.freeValue (s.free + i)), { s with free := s.free + n })

/-! ### Registers of a strand -/

/-- A v register of a thread (R24: zero unless written). -/
def Strand.vGet (st : Strand) (r t : Nat) : W32 := st.v.get (8 * r + t)
/-- An x register of a thread. -/
def Strand.xGet (st : Strand) (r t : Nat) : W64 := st.x.get (8 * r + t)
/-- An s register. -/
def Strand.sGet (st : Strand) (r : Nat) : W64 := st.s.get r
/-- A mask register. -/
def Strand.kGet (st : Strand) (r : Nat) : TMask := st.k.get r
/-- A latch of a thread. -/
def Strand.latchGet (st : Strand) (l t : Nat) : W64 := st.latches.get (8 * l + t)

/-- Write an s register. -/
def Strand.sSet (st : Strand) (r : Nat) (x : W64) : Strand := { st with s := st.s.set r x }
/-- Write a mask register. -/
def Strand.kSet (st : Strand) (r : Nat) (x : TMask) : Strand := { st with k := st.k.set r x }
/-- Write an x register of a thread. -/
def Strand.xSet (st : Strand) (r t : Nat) (x : W64) : Strand := { st with x := st.x.set (8 * r + t) x }
/-- Write a v register of a thread. -/
def Strand.vSet (st : Strand) (r t : Nat) (x : W32) : Strand := { st with v := st.v.set (8 * r + t) x }

/-- Shift the latches and write the active threads' results into b0; the other threads receive zero (R39). -/
def Strand.latch (st : Strand) (vals : List (Nat × W64)) : Strand :=
  let old := st.latches.filterMap (fun p => if p.1 < 24 then some (p.1 + 8, p.2) else none)
  { st with latches := SMap.sets old vals }

/-- An s result enters the latches of every active thread (R39). -/
def Strand.latchS (st : Strand) (em : TMask) (x : W64) : Strand := st.latch ((TMask.list em).map (fun t => (t, x)))

/-- Set sticky flags (R73). -/
def Strand.raise (st : Strand) (f : BitVec 6) : Strand := { st with flags := st.flags ||| f }

/-! ### The split table (R29 to R36) -/

/-- A fragment stands at its join: it is a child and its PC equals its JOIN (R34). -/
def Frag.atJoin (f : Frag) : Bool := f.pborn.isSome && f.pc = f.join

/-- The fragments of a strand, those in the spill area included. -/
def Strand.all (st : Strand) : List Frag := st.frags.filter (fun f => f.st ≠ .free) ++ st.spilled.map Prod.snd

/-- The children of a fragment by creation number. -/
def Strand.childrenOf (st : Strand) (b : Nat) : List Frag := st.all.filter (fun f => f.pborn = some b)

/-- Free the table entries that fail a test. -/
def freeFrags (l : List Frag) (drop : Frag → Bool) : List Frag := l.map (fun f => if f.st ≠ .free && drop f then Frag.free else f)

/-- The number of the first free entry of the table. -/
def firstFree (l : List Frag) : Option Nat := l.findIdx? (fun f => f.st = .free)

/-- The fragment waits at its join as an arrived child. -/
def Frag.arrived (f : Frag) : Bool := f.st = .waiting && !f.split

/-- Fuse the children of one split parent when every child is at the join or gone (R34). A spilled parent returns to the table
(R35). -/
def fuseOne (st : Strand) (p : Frag) : Option Strand :=
  let kids := st.childrenOf p.born
  if p.split && kids.all Frag.arrived then
    let fm := kids.foldl (fun m f => m ||| f.fm) p.fm
    let em := kids.foldl (fun m f => m ||| f.em) 0
    let frags := freeFrags st.frags (fun f => f.pborn = some p.born)
    let fused := if fm = 0 then Frag.free else { p with fm := fm, em := em, st := FState.ready, split := false }
    let spilled := st.spilled.filter (fun q => q.2.born ≠ p.born && q.2.pborn ≠ some p.born)
    match frags.findIdx? (fun f => f.st ≠ .free && f.born = p.born) with
    | some i => some { st with frags := listSet frags i fused, spilled := spilled }
    | none => (firstFree frags).map (fun i => { st with frags := listSet frags i fused, spilled := spilled })
  else none

/-- A ready fragment at its join waits there (R34). -/
def Frag.joinNow (f : Frag) : Frag := if f.st = .ready && f.atJoin then { f with st := .waiting } else f

/-- Every fusion that is due; `n` bounds the fusions that follow from one another. -/
def fuseAll : Nat → Strand → Strand
  | 0, st => st
  | n + 1, st =>
    match (st.all.filterMap (fun p => fuseOne st p)).head? with
    | none => st
    | some st' => fuseAll n { st' with frags := st'.frags.map Frag.joinNow }

/-- After a fragment's PC or membership has changed: emptied fragments are freed, a fragment at its join waits, children that
have all arrived fuse, and a strand without fragments has exited (R34, R36); a handler is over once the fragment that trapped is gone (R328). -/
def Strand.settleFrags (st : Strand) : Strand :=
  let frags := st.frags.map (fun f => if f.st ≠ .free && f.fm = 0 && !f.split then Frag.free else f.joinNow)
  let st := fuseAll 16 { st with frags := frags }
  { st with
    exited := st.exited || (st.frags.all (fun f => f.st = .free) && st.spilled.isEmpty)
    frame := st.frame.filter (fun r => st.all.any (fun f => f.born = r.frag)) }

/-- Set the running fragment's instruction address. A fragment that arrives at its join has a yield point there (R34). -/
def State.setPc (s : State) (m : Me) (pc : W64) : State :=
  s.updStrand m.sid (fun st =>
    ({ st with frags := listAdjust st.frags m.fi (fun f => { f with pc := pc.extractLsb' 2 62, st := .ready, wait := none }) }).settleFrags)

/-- The lane of a strand. -/
def State.laneOf (s : State) (sid : StrandId) : Lane :=
  let c := s.core sid.wg.core
  let n := ((s.strands.find sid).map Strand.lane).getD 0
  (match sid.slice with | .access => c.lanesA | .execute => c.lanesE).findD n ⟨none, 0, 0⟩

/-- Apply a function to the lane of a strand. -/
def State.updLane (s : State) (sid : StrandId) (g : Lane → Lane) : State :=
  let n := ((s.strands.find sid).map Strand.lane).getD 0
  let l := g (s.laneOf sid)
  s.updCore sid.wg.core (fun c => match sid.slice with
    | .access => { c with lanesA := c.lanesA.put n l }
    | .execute => { c with lanesE := c.lanesE.put n l })

/-- The lane is occupied for some clocks from now (R21). -/
def State.occupy (s : State) (m : Me) (clocks : Nat) : State :=
  s.updLane m.sid (fun l => { l with busy := s.clock + clocks })

/-- A yield point: the latches read as zero after it and the lane chooses again (R37, R41). -/
def State.yieldPoint (s : State) (m : Me) : State :=
  (s.updStrand m.sid (fun st => { st with latches := [] })).updLane m.sid (fun l => { l with cur := none })

/-- A fragment that has arrived at its join has a yield point there (R34). -/
def State.joined (s : State) (m : Me) : State :=
  let arrived : Bool := match s.strands.find m.sid with
    | none => false
    | some st => match st.frags[m.fi]? with
      | some f => decide (f.st ≠ .ready) || decide (f.born ≠ m.f.born)
      | none => true
  if arrived then s.yieldPoint m else s

/-- Go on after an instruction of `len` bytes. -/
def State.advance (s : State) (m : Me) (len : Nat) : State := (s.setPc m (m.pc + BitVec.ofNat 64 len)).joined m

/-- Block the running fragment before its instruction; the block is a yield point (R38, R41, R334). -/
def State.block (s : State) (m : Me) (w : Wait) : State :=
  (s.updFrag m.sid m.fi (fun f => { f with st := .blocked, wait := some w })).yieldPoint m

/-- Keep the remaining count of a repeated or bulk instruction (R159, R214). -/
def State.setRc (s : State) (m : Me) (n : Nat) : State := s.updFrag m.sid m.fi (fun f => { f with rc := n })

/-! ### Contexts' descriptors (Table 22.4) -/

/-- A word of a context descriptor. -/
def Ctx.word (c : Ctx) (i : Nat) : W64 := (c.desc[i]?).getD 0
/-- ROOT. -/
def Ctx.root (c : Ctx) : Nat := (c.word 0).toNat
/-- ASID. -/
def Ctx.asid (c : Ctx) : Nat := bits (c.word 5) 0 12
/-- FTAG. -/
def Ctx.ftag (c : Ctx) : Nat := bits (c.word 5) 12 16
/-- F, the oversubscription factor in sixteenths. -/
def Ctx.over (c : Ctx) : Nat := let f := bits (c.word 5) 28 7; if f = 0 then 16 else f
/-- VTH. -/
def Ctx.vth (c : Ctx) : Nat := let f := bits (c.word 5) 35 16; if f = 0 then 1311 else f
/-- SAVEBASE. -/
def Ctx.saveBase (c : Ctx) : Nat := (c.word 8).toNat
/-- SAVELEN. -/
def Ctx.saveLen (c : Ctx) : Nat := (c.word 9).toNat

/-! ### Log entries (R332) -/

/-- A domain as numbers: its row in Table 22.6 and its number. -/
def Domain.nums : Domain → List Nat
  | .core n => [0, n] | .l2slice n => [1, n] | .channel n => [2, n] | .copyUnit n => [3, n] | .fabricPort n => [4, n] | .cxlPort n => [5, n]

/-- A launch error's code (Table 16.5). -/
def LaunchErr.code : LaunchErr → Nat
  | .cycle => 1 | .placement => 2 | .nodeInvalid => 3 | .depth => 4

/-- An error-log entry as numbers. -/
def ErrEntry.nums : ErrEntry → List Nat
  | .launch e h t f => [0, e.code, h.toNat] ++ (t.map BitVec.toNat).toList ++ [if f then 1 else 0]
  | .saturated slot pa t => [1] ++ slot.toList ++ pa.toList ++ (t.map BitVec.toNat).toList
  | .gridCancelled n t => [2, n, t.toNat]
  | .failedSave => [3]
  | .reduceAbandoned k => [4, k.group, k.seq, k.off]
  | .integrity pa => [5, pa]
  | .domain d t => [6] ++ Domain.nums d ++ [t.toNat]

/-- The 32 bytes of an error-log entry; the spec does not lay them out (log 30). -/
def ErrEntry.bytes (e : ErrEntry) : List Byte := bytesOfNat 32 (Config.errorEntry e.nums).toNat

/-- The four words of a fault record (Table 18.2). -/
def FaultRec.words (r : FaultRec) : List W64 :=
  [r.task, r.pc, r.va,
   BitVec.ofNat 64 (r.code.toNat + r.cause.toNat * 2 ^ 8 + r.disp.toNat * 2 ^ 16 + (if r.slice = .execute then 2 ^ 22 else 0) +
     putField r.strand 23 10 + r.mask.toNat * 2 ^ 33 + (if r.bf.isSome then 2 ^ 41 else 0) + putField (r.bf.getD 0) 42 6 +
     (if r.bf.isSome then r.tag.toNat else 0) * 2 ^ 48)]

/-- The 32 bytes of a fault record (Table 18.2). -/
def FaultRec.bytes (r : FaultRec) : List Byte := r.words.flatMap w64Bytes

/-! ### Logs, notices and messages (R332, R398) -/

/-- Append to a ring log that holds at most `cap` entries (R332, R385). -/
def RingLog.push {α : Type} (r : RingLog α) (cap : Nat) (x : α) : RingLog α :=
  let l := r.entries ++ [(r.next % 2 ^ 32, x)]
  if l.length > cap then { entries := l.drop 1, next := r.next + 1, overflow := r.overflow + 1 }
  else { r with entries := l, next := r.next + 1 }

/-- Send a message over the attach. -/
def State.send (s : State) (m : OutMsg) : State := { s with out := s.out ++ [m] }

/-- Send a notice (Table 25.3) with the next notice number. -/
def State.notify (s : State) (k : NoticeKind) : State :=
  { s.send (.notice (s.notices % 2 ^ 32) k) with notices := s.notices + 1 }

/-- Write an entry's bytes into a ring of 4,096 entries in a context's save area (R332), by the entry's sequence number. -/
def State.writeEntry (s : State) (base seq : Nat) (bs : List Byte) : State :=
  { s with mem := s.mem.setBytes (base + 32 * (seq % 4096)) bs }

/-- Write a fault record to a context's fault log, at offset 0 of its save area (R332). -/
def State.logFault (s : State) (ctx : Nat) (r : FaultRec) : State :=
  match s.ctxs.find ctx with
  | none => s
  | some c => (s.updCtx ctx (fun c => { c with faults := c.faults.push 4096 r })).writeEntry c.saveBase c.faults.next r.bytes

/-- Write an entry to a context's error log, at offset 131,072 of its save area (R332). -/
def State.logError (s : State) (ctx : Nat) (e : ErrEntry) : State :=
  match s.ctxs.find ctx with
  | none => s
  | some c => (s.updCtx ctx (fun c => { c with errors := c.errors.push 4096 e })).writeEntry (c.saveBase + 131072) c.errors.next e.bytes

/-- Write an entry to the device error log (R381, R396). -/
def State.logDev (s : State) (e : DevErr) : State :=
  { s with devErrs := s.devErrs ++ [(s.devErrNext, e)], devErrNext := s.devErrNext + 1 }

/-- Write an entry to the debug event log, a ring of 1,024 (R385). -/
def State.logDbg (s : State) (e : DbgEvent) : State := { s with dbg := s.dbg.push 1024 e }

/-- Add to an event counter of a core (R388): it counts only while a context holds the core. -/
def State.count (s : State) (core n : Nat) (k : Nat) : State :=
  s.updCore core (fun c => if c.ctx.isSome then { c with counts := c.counts.set n (c.counts.get n + BitVec.ofNat 64 k) } else c)

/-! ### Traps (R326 to R331) -/

/-- Trap codes (Table 18.1). -/
inductive TrapCode where
  | illegal | orphanPrefix | farFault | pageProt | bounds | watch | issueRights | queueDeadlock | nestDepth | splitOverflow
  | matrixMismatch | bfInvalid | align_ | counterInvalid | queueDirection | landing | software
deriving DecidableEq, Repr

/-- The number of a trap code. -/
def TrapCode.num : TrapCode → BitVec 8
  | .illegal => 0x01 | .orphanPrefix => 0x02 | .farFault => 0x03 | .pageProt => 0x04 | .bounds => 0x05 | .watch => 0x06
  | .issueRights => 0x07 | .queueDeadlock => 0x08 | .nestDepth => 0x09 | .splitOverflow => 0x0A | .matrixMismatch => 0x0B
  | .bfInvalid => 0x0C | .align_ => 0x0D | .counterInvalid => 0x0E | .queueDirection => 0x0F | .landing => 0x10
  | .software => 0x11

/-- What a raising rule says of a trap beside its code (R331): the failing threads, the value in VA, the buffer record with its
TAG; `rec_` replaces the whole record (FAR_FAULT); `comps` are the comparators that a WATCH matched. -/
structure Trap where
  code : TrapCode
  mask : Option TMask := none
  va   : W64 := 0
  bf   : Option (Nat × BitVec 16) := none
  rec_ : Option FaultRec := none
  comps : TMask := 0
deriving DecidableEq, Repr

/-- A trap with only its code. -/
def Trap.of (c : TrapCode) : Trap := { code := c }

/-- The fault record of a trap that the issuing strand raises (R331). -/
def Me.record (m : Me) (t : Trap) : FaultRec :=
  match t.rec_ with
  | some r => { r with disp := 0 }
  | none =>
    { task := m.wg.task, pc := m.pc, va := t.va, tag := (t.bf.map Prod.snd).getD 0, bf := t.bf.map Prod.fst,
      mask := t.mask.getD m.em, strand := m.sid.idx, slice := m.sid.slice, disp := 0, cause := t.code.num, code := t.code.num }

/-- A POISON entry that leaves queue memory without being popped: a discarded far fault in the context's log (R58). -/
def State.discardPoison (s : State) (ctx : Nat) (e : QEntry) : State :=
  match e.poison with
  | some r => if e.tag = 3 then s.logFault ctx { r with disp := 2 } else s
  | none => s

/-- Every entry of a workgroup's queues. -/
def Workgroup.entries (w : Workgroup) : List QEntry := w.queues.flatMap (fun q => q.2.chans.flatten)

/-- Discard the queue contents of a workgroup (R55, R58). -/
def State.discardQueues (s : State) (w : Workgroup) : State := w.entries.foldl (fun s e => s.discardPoison w.ctx e) s

/-- The waiter queue of the pipe region without a workgroup's strands. -/
def Core.dropWg (c : Core) (w : WgId) : Core :=
  let lanes (l : AList Nat Lane) : AList Nat Lane :=
    l.map (fun p => (p.1, match p.2.cur with | some (sid, _) => if sid.wg = w then { p.2 with cur := none } else p.2 | none => p.2))
  { c with
    lanesE := lanes c.lanesE, lanesA := lanes c.lanesA
    pipeFeq := c.pipeFeq.filter (fun x => x.strand.wg ≠ w)
    mend := c.mend.filter (fun x => x.strand.wg ≠ w)
    mqueue := c.mqueue.filter (fun x => x.wg ≠ w) }

/-- A joiner of page requests is an instruction of a workgroup's. -/
def Joiner.isOf (w : WgId) : Joiner → Bool
  | .inst sid _ => decide (sid.wg = w)
  | _ => false

/-- What of an element lies outside shared memory. -/
def Elem.outside (e : Elem) : Elem := { e with locs := e.locs.map (fun l => match l with | some (.shared _ _) => none | l => l) }

/-- Free a workgroup's resources: its strands, lanes, queues, shared memory, tiles and lease (R28, R316, R330). A debugger's
stop, the loads in flight and its instructions' waits for pages go with it; stores in flight still perform, outside its allocation, and
count for no workgroup (R116). -/
def State.freeWg (s : State) (w : WgId) : State :=
  let s := s.updCore w.core (fun c => c.dropWg w)
  { s with
    strands := s.strands.filter (fun p => p.1.wg ≠ w)
    wgs := s.wgs.erase w
    pageReqs := s.pageReqs.map (fun r => { r with joined := r.joined.filter (fun j => !j.isOf w) })
    fails := s.fails.filter (fun f => !f.1.isOf w)
    accs := (s.accs.filter (fun a => a.strand.wg ≠ w || (match a.kind with
      | .store => true | .atom _ _ none => true | .atomf _ _ none => true | .add => true | _ => false))).map (fun a =>
        if a.strand.wg = w then { a with path := none, line := [], elems := a.elems.map Elem.outside } else a)
    cur := match s.cur with | some (sid, _) => if sid.wg = w then none else s.cur | none => none }

/-- Change the counts of unretired children and child grids of a workgroup that is resident, saved or holds a retirement record (R28, R325). -/
def State.onParent (s : State) (task : W64) (k grids : Nat → Nat) : State :=
  let g (w : Workgroup) : Workgroup := if w.task = task then { w with children := k w.children, childGrids := grids w.childGrids } else w
  { s with
    wgs := s.wgs.map (fun p => (p.1, g p.2))
    retRecs := s.retRecs.map (fun r => if r.task = task then { r with children := k r.children, grids := grids r.grids } else r)
    ctxs := s.ctxs.map (fun p => (p.1, { p.2 with saved := p.2.saved.map (fun v => { v with wg := g v.wg }) })) }

/-- Lower a parent's counts of unretired children and child grids (R28, R325). -/
def State.childGone (s : State) (parent : Option W64) (k grids : Nat) : State :=
  match parent with
  | none => s
  | some t => s.onParent t (· - k) (· - grids)

/-- The number of workgroups of a grid. -/
def Grid.total (g : Grid) : Nat := g.dims.1 * g.dims.2.1 * g.dims.2.2

/-- Some members of a grid have ended: retired, terminated or cancelled. A grid whose members have all ended is gone. -/
def State.gridEnded (s : State) (gid k : Nat) : State :=
  match s.grids.find gid with
  | none => s
  | some g =>
    if g.ended + k < g.total then ({ s with grids := s.grids.put gid { g with ended := g.ended + k } }).childGone g.parent k 0
    else ({ s with grids := s.grids.erase gid }).childGone g.parent k 1

/-- A workgroup has ended with its children: its grid and its parent count it. -/
def State.wgEnded (s : State) (grid : Option (Nat × Nat)) (parent : Option W64) : State :=
  match grid with
  | some (g, _) => s.gridEnded g 1
  | none => s.childGone parent 1 1

/-- Cancel the members of a grid that are not admitted (R314, R330). -/
def State.cancelMembers (s : State) (gid : Nat) : State :=
  match s.grids.find gid with
  | none => s
  | some g =>
    if g.cancelled then s
    else ({ s with grids := s.grids.put gid { g with cancelled := true, released := [] } }).gridEnded gid (g.total - g.admitted.length)

/-- Cancel the unadmitted members of a terminated workgroup's grid, logging it once (R330). -/
def State.cancelGrid (s : State) (w : Workgroup) : State :=
  match w.grid with
  | none => s
  | some (g, _) =>
    match s.grids.find g with
    | none => s
    | some gr =>
      if gr.cancelled || gr.admitted.length = gr.total then s
      else (s.cancelMembers g).logError w.ctx (.gridCancelled w.node w.task)

/-- A workgroup, resident at a place or saved, that retires or is terminated is no longer a receiver of a multicast (R271): a command that
waits to start forgets it, a landing in progress is dropped, and a command with no landing left is over. -/
def State.dropReceiver (s : State) (w : Option WgId) (g : Workgroup) : State :=
  let trim (c : Copy) : Copy :=
    match c.kind, g.grid with
    | .tmcast r k gr rs, some (gid, lin) =>
      { c with kind := if gr = gid && c.dlv.isEmpty then .tmcast r k gr (rs.filter (fun x => x ≠ lin)) else c.kind,
               dlv := c.dlv.filter (fun d => some d.wg ≠ w) }
    | _, _ => c
  let isEnded (c : Copy) : Bool := !c.dlv.isEmpty && (trim c).dlv.isEmpty && (match c.kind with | .tmcast _ _ _ _ => true | _ => false)
  let gone := s.copies.filter isEnded
  let s := { s with copies := (s.copies.filter (fun c => !isEnded c)).map trim }
  gone.foldl (fun s c => s.updCore c.core (fun k => { k with copies := k.copies - 1 })) s

/-- The prefetches, UEGETs and transfers of an ended task end; a transfer's packets that are under way are still answered (R330). -/
def State.endOps (s : State) (task : W64) : State :=
  { s with
    prefetches := s.prefetches.filter (fun p => p.task ≠ task)
    ueGets := s.ueGets.filter (fun u => u.task ≠ task)
    fabric := { s.fabric with xfers := s.fabric.xfers.map (fun (x : Xfer) => if x.task = task then { x with stopped := true } else x) } }

/-- A terminated workgroup counts as ended once its children have: until then its record stands (R325, R330). -/
def State.endCounted (s : State) (w : WgId) (g : Workgroup) : State :=
  if g.children = 0 then s.wgEnded g.grid g.parent
  else { s with retRecs := s.retRecs ++ [RetRec.mk g.task w g.ctx g.node g.grid g.children g.childGrids g.parent true none] }

/-- A saved workgroup ends (R330, R336 to R338): its queue contents, requests and operations end, and its grid and parent count it. -/
def State.endSaved (s : State) (ctx : Nat) (v : SavedWg) : State :=
  let s := s.updCtx ctx (fun c => { c with saved := c.saved.filter (fun x => x.id ≠ v.id) })
  ((((s.discardQueues v.wg).endOps v.wg.task).dropReceiver none v.wg).cancelGrid v.wg).endCounted v.from_ v.wg

/-- A saved workgroup is terminated with a record in its context's log and a notice (R330). -/
def State.terminateSaved (s : State) (ctx : Nat) (v : SavedWg) (r : FaultRec) : State :=
  let s := s.endSaved ctx v
  let seq := ((s.ctxs.find ctx).map (fun c => c.faults.next)).getD 0
  (s.logFault ctx { r with disp := 1 }).notify (.fault ctx seq)

/-- The saved workgroup of a task, with its context. -/
def State.savedTask (s : State) (task : W64) : Option (Nat × SavedWg) :=
  s.ctxs.findSome? (fun c => (c.2.saved.find? (fun v => v.wg.task = task)).map (fun v => (c.1, v)))

/-- Terminate a workgroup (R330): its queues, Mend-log entries, slot targets, commands, copies, prefetches and transfers end,
its resources are freed, its grid's unadmitted members are cancelled, and the record goes to the fault log with a notice. A
workgroup of a terminated grid member's parent counts it as ended. -/
def State.terminate (s : State) (w : WgId) (r : Option FaultRec) : State :=
  match s.wgs.find w with
  | none => s
  | some g =>
    let s := s.discardQueues g
    let ended := s.copies.filter (fun c => c.wg = w)
    let s := State.endOps { s with copies := s.copies.filter (fun c => c.wg ≠ w) } g.task
    let s := ended.foldl (fun s c => s.updCore c.core (fun k => { k with copies := k.copies - 1 })) s
    let s := (((s.dropReceiver (some w) g).freeWg w).cancelGrid g).endCounted w g
    match r with
    | none => s
    | some r =>
      let seq := ((s.ctxs.find g.ctx).map (fun c => c.faults.next)).getD 0
      (s.logFault g.ctx { r with disp := 1 }).notify (.fault g.ctx seq)

/-- The record of a termination without a trap (R331): CODE 0 with a cause. -/
def terminationRecord (g : Workgroup) (sid : StrandId) (pc va : W64) (bf : Option (Nat × BitVec 16)) (cause : BitVec 8) : FaultRec :=
  { task := g.task, pc := pc, va := va, tag := (bf.map Prod.snd).getD 0, bf := bf.map Prod.fst, mask := 0, strand := sid.idx,
    slice := sid.slice, disp := 1, cause := cause, code := 0 }

/-- The s registers that a trap frame saves (R328). -/
def frameRegs (m : SMap 64) : SMap 64 := SMap.keep m (fun r => decide (28 ≤ r))

/-- Note a trap for the trace trigger (R389) and the event counter of WATCH traps (Table 23.3). -/
def State.noteTrap (s : State) (core : Nat) (t : Trap) : State :=
  let s := if t.code = .watch then s.count core 15 1 else s
  s.updCore core (fun c =>
    if c.trace.state = .idle || c.trace.state = .done then c
    else { c with trace := { c.trace with traps := c.trace.traps ++ [t.code.num.toNat], comps := c.trace.comps ||| t.comps } })

/-- Trap entry (R328, R329): the frame receives the resume point, EM, the masks, the latches, qt, RC, MODE and s28..s31; the
record is latched; PC becomes TENTRY and EM the fragment's FM; latches and RC read zero. Without a handler, or within one, the
workgroup is terminated. `resume` is the resume point. -/
def State.trapAt (s : State) (m : Me) (resume : W64) (t : Trap) : State :=
  let r := m.record t
  let s := s.noteTrap m.core t
  if m.wg.tentry = 0 || m.st.frame.isSome then s.terminate m.sid.wg (some r)
  else
    s.updStrand m.sid (fun st =>
      let rc := ((st.frags[m.fi]?).map Frag.rc).getD 0
      { st with
        frame := some { frag := m.f.born, resume := resume, em := m.f.em, k := st.k, latches := st.latches, qt := st.qt, rc := rc,
                        scan := (st.frags[m.fi]?).bind Frag.scan,
                        mode := st.mode, s28 := frameRegs st.s }
        fault := some r
        latches := []
        watchSkip := false
        frags := listAdjust st.frags m.fi (fun f =>
          { f with pc := m.wg.tentry.extractLsb' 2 62, em := f.fm, rc := 0, scan := none, st := .ready, wait := none }) })

/-- Take a trap whose resume point is the trapping instruction. -/
def State.trap (s : State) (m : Me) (t : Trap) : State := s.trapAt m m.pc t

/-- Take a trap with only its code. -/
def State.raise (s : State) (m : Me) (c : TrapCode) : State := s.trap m (Trap.of c)

/-- Return from a trap handler (R298): the frame is restored, EM within the fragment's present FM. A return from a WATCH handler
suppresses WATCH for the strand's next instruction (R383). -/
def State.returnFromTrap (s : State) (m : Me) (fr : Frame) : State :=
  State.joined (s.updStrand m.sid (fun st =>
    ({ st with
      frame := none
      k := fr.k
      latches := fr.latches
      qt := fr.qt
      mode := fr.mode
      s := SMap.sets (SMap.keep st.s (fun r => decide (r < 28))) fr.s28
      watchSkip := decide (st.fault.map FaultRec.code = some 0x06)
      frags := listAdjust st.frags m.fi (fun f =>
        { f with pc := fr.resume.extractLsb' 2 62, em := fr.em &&& f.fm, rc := fr.rc, scan := fr.scan }) }).settleFrags)) m

/-! ### Uniform instructions (R23, R164) -/

/-- A trap that waits for the issuer's next yield-class instruction (R261, R384). -/
def Me.pending (m : Me) : Option FaultRec := if m.access && m.sid.idx = m.wg.issuer then m.wg.pend.head? else none

/-- Take the issuer's waiting trap before its yield-class instruction (R261). -/
def State.takePending (s : State) (m : Me) (r : FaultRec) : State :=
  let s := s.updWg m.sid.wg (fun w => { w with pend := w.pend.drop 1 })
  let code : TrapCode := if r.code = 0x06 then .watch else .matrixMismatch
  s.trap m { code := code, rec_ := some r }

/-- Run a meaning of a yield-class instruction, after the issuer's waiting trap if there is one. -/
def asYielding (s : State) (k : Me → State) : Out :=
  asStrand s (fun m => match m.pending with
    | some r => s.takePending m r
    | none => k m)

/-- Write an s register as the result of a uniform instruction, with the latches (R39), and go on. -/
def State.writeS (s : State) (m : Me) (d : Nat) (x : W64) (len : Nat) : State :=
  (s.updStrand m.sid (fun st => (st.sSet d x).latchS m.em x)).advance m len

end Sys2Proof.Machine
end

