-- ==== Sys2Proof/Machine/Queue.lean ====
section
/-!
DEFINITION. Machine/Queue.lean: the queues (R46 to R59): ends, channels, heads, pops, pushes, end of stream, and the freeing of
broadcast entries.
-/
namespace Sys2Proof.Machine
open Sys2Proof

/-- The producing slice (Table 2.5). -/
def QKind.producer : QKind → Slice
  | .oq => .access | .sq => .execute | .cq => .execute
/-- The consuming slice (Table 2.5). -/
def QKind.consumer : QKind → Slice
  | .oq => .execute | .sq => .access | .cq => .access

/-- The other slice. -/
def Slice.other : Slice → Slice
  | .access => .execute | .execute => .access

/-- The strands of a workgroup's slice that have not exited, by index. -/
def State.live (s : State) (w : WgId) (sl : Slice) : List Nat :=
  s.strands.filterMap (fun p => if p.1.wg = w && p.1.slice = sl && !p.2.exited then some p.1.idx else none)

/-- Every producer strand of a queue has exited (R51). -/
def State.producersGone (s : State) (w : WgId) (q : Queue) : Bool := (s.live w q.decl.kind.producer).isEmpty

/-- What a consumer strand has before it: its channel, or a broadcast channel from its own read pointer (R46, R53). -/
def Queue.view (q : Queue) (i : Nat) : List QEntry :=
  if q.decl.bcast then (q.chans.headD []).filter (fun e => !e.taken.contains i) else (q.chans[i]?).getD []

/-- The default channel of a producer strand (R48). -/
def Queue.channel (q : Queue) (i : Nat) : Nat := if q.decl.bcast then 0 else i % q.chans.length

/-- Free entries of a channel. -/
def Queue.room (q : Queue) (ch : Nat) : Nat := q.decl.depth - ((q.chans[ch]?).getD []).length

/-- A consumer removes its first n entries: they leave a strand channel, and a broadcast channel notes who popped them. -/
def Queue.take (q : Queue) (i n : Nat) : Queue :=
  if q.decl.bcast then
    let ids := ((q.view i).take n).map QEntry.id
    { q with chans := q.chans.map (fun c => c.map (fun e => if ids.contains e.id then { e with taken := e.taken ++ [i] } else e)) }
  else { q with chans := listAdjust q.chans i (fun c => c.drop n) }

/-- Append entries to a channel. -/
def Queue.push (q : Queue) (ch : Nat) (es : List QEntry) : Queue := { q with chans := listAdjust q.chans ch (fun c => c ++ es) }

/-- The queue of a number. -/
def Me.queue (m : Me) (n : Nat) : Option Queue := m.wg.queues.find n

/-- Replace a queue of a workgroup. -/
def State.putQueue (s : State) (w : WgId) (n : Nat) (q : Queue) : State :=
  s.updWg w (fun g => { g with queues := g.queues.put n q })

/-- Free the broadcast entries that every consumer strand that has not exited has popped (R53); a POISON entry that leaves so
is logged (R58). -/
def State.sweepQueue (s : State) (w : WgId) (n : Nat) : State :=
  match s.wgs.find w with
  | none => s
  | some g =>
    match g.queues.find n with
    | none => s
    | some q =>
      if !q.decl.bcast then s
      else
        let live := s.live w q.decl.kind.consumer
        let gone (e : QEntry) : Bool := live.all (fun i => e.taken.contains i)
        let s := (q.chans.headD []).foldl (fun s e => if gone e then s.discardPoison g.ctx e else s) s
        s.putQueue w n { q with chans := q.chans.map (fun c => c.filter (fun e => !gone e)) }

/-- Free broadcast entries of every queue of a workgroup, as after an exit (R53). -/
def State.sweepQueues (s : State) (w : WgId) : State :=
  match s.wgs.find w with
  | none => s
  | some g => g.queues.foldl (fun s q => s.sweepQueue w q.1) s

/-- What a pop of n entries finds (R49 to R51, R58). -/
inductive PopRes where
  | wait
  | poison (r : Option FaultRec)
  | ok (lo hi : List W32) (tag : BitVec 2) (taken : Nat)
deriving DecidableEq, Repr

/-- Words of an entry: eight, zero where none is held. -/
def QEntry.word (e : QEntry) (t : Nat) : W32 := (e.words[t]?).getD 0

/-- Eight zero words. -/
def zeroWords : List W32 := [0, 0, 0, 0, 0, 0, 0, 0]

/-- A pop of n entries (1, or 2 for a 64-bit type) by a consumer strand: it waits for filled heads or end of stream, meets
POISON, or delivers words with the tag that qt receives. -/
def State.popRes (s : State) (w : WgId) (i : Nat) (q : Queue) (n : Nat) : PopRes :=
  let v := (q.view i).take n
  if v.any (fun e => e.pend.isSome) || (decide (v.length < n) && !s.producersGone w q) then .wait
  else
    match v.find? (fun e => decide (e.tag = 3)) with
    | some e => .poison e.poison
    | none =>
      let tag (e : QEntry) : BitVec 2 := if v.length < n then 2 else e.tag
      match v with
      | [] => .ok zeroWords zeroWords 2 0
      | [e] => .ok e.words zeroWords (tag e) 1
      | e :: f :: _ => .ok e.words f.words (tag f) 2

/-- A pop would not wait. -/
def State.popReady (s : State) (w : WgId) (i : Nat) (q : Queue) (n : Nat) : Bool := s.popRes w i q n ≠ .wait

/-- Remove what a pop takes; a cq pop by an access strand is a loss-of-decoupling event (R60). -/
def State.popTake (s : State) (m : Me) (qn : Nat) (taken : Nat) : State :=
  match m.queue qn with
  | none => s
  | some _ =>
    match (s.wgs.find m.sid.wg).bind (fun g => g.queues.find qn) with
    | none => s
    | some q =>
      let s := (s.putQueue m.sid.wg qn (q.take m.sid.idx taken)).sweepQueue m.sid.wg qn
      if q.decl.kind = .cq then s.count m.core 3 1 else s

/-- Set qt. -/
def State.setQt (s : State) (m : Me) (tag : BitVec 2) : State := s.updStrand m.sid (fun st => { st with qt := tag })

/-- Push filled entries, words by thread, to a channel. -/
def State.pushWords (s : State) (m : Me) (qn ch : Nat) (tag : BitVec 2) (ws : List (List W32)) : State :=
  match (s.wgs.find m.sid.wg).bind (fun g => g.queues.find qn) with
  | none => s
  | some q =>
    let es : List QEntry := (upto ws.length).map (fun i => { id := s.serial + i, tag := tag, words := (ws[i]?).getD [], pend := none, poison := none, taken := [] })
    let s := { s with serial := s.serial + ws.length }
    (s.putQueue m.sid.wg qn (q.push ch es)).sweepQueue m.sid.wg qn

/-- The queue operation of a blocked fragment can complete (R61): what it pops is there, and every channel that it pushes to has room. -/
def State.queuesReady (s : State) (sid : StrandId) (pops : List (Nat × Nat)) (push : List (Nat × Nat × Nat)) : Bool :=
  match s.wgs.find sid.wg with
  | none => false
  | some g =>
    pops.all (fun p => match g.queues.find p.1 with | none => true | some q => s.popReady sid.wg sid.idx q p.2) &&
    push.all (fun p => match g.queues.find p.1 with | none => true | some q => decide (p.2.2 ≤ q.room p.2.1))

end Sys2Proof.Machine
end

