-- ==== Sys2Proof/Machine/Types.lean ====
section
/-!
DEFINITION. Machine/Types.lean: the vector element types (Table 4.1): widths, counts, readings, the type classes of Table 10.1
and the inline constants of Table 9.5.
-/
namespace Sys2Proof

/-- Bits of one element (Table 4.1). -/
def ETy.width : ETy → Nat
  | .i32 => 32 | .n32 => 32 | .f32 => 32 | .f16x2 => 16 | .bf16x2 => 16 | .i16x2 => 16 | .n16x2 => 16 | .i8x4 => 8 | .n8x4 => 8
  | .f64 => 64 | .i64 => 64 | .n64 => 64 | .e4m3x4 => 8 | .e5m2x4 => 8 | .dm8x4 => 8

/-- A 64-bit type (R63). -/
def ETy.is64 (t : ETy) : Bool := t.width = 64

/-- Bits of a thread's value: 32 or 64. -/
def ETy.bits (t : ETy) : Nat := if t.is64 then 64 else 32

/-- Elements of a thread's value. -/
def ETy.count (t : ETy) : Nat := t.bits / t.width

/-- The floating format of the elements; none for an integer type. -/
def ETy.fmt : ETy → Option Fmt
  | .f32 => some .f32 | .f16x2 => some .f16 | .bf16x2 => some .bf16 | .f64 => some .f64 | .e4m3x4 => some .e4m3
  | .e5m2x4 => some .e5m2 | .dm8x4 => some .dm8 | _ => none

/-- The floating format of a type that has one. -/
def ETy.fmtD (t : ETy) : Fmt := t.fmt.getD .f32

/-- Class INT (Table 10.1). -/
def ETy.isInt (t : ETy) : Bool := t.fmt.isNone

/-- A signed integer type. -/
def ETy.signed : ETy → Bool
  | .i32 => true | .i16x2 => true | .i8x4 => true | .i64 => true | _ => false

/-- Class W (Table 10.1). -/
def ETy.isW : ETy → Bool
  | .i32 => true | .n32 => true | .i64 => true | .n64 => true | _ => false

/-- Class FP (Table 10.1). -/
def ETy.isFP : ETy → Bool
  | .f32 => true | .f16x2 => true | .bf16x2 => true | .f64 => true | _ => false

/-- Class FPH (Table 10.1). -/
def ETy.isFPH (t : ETy) : Bool := t.isFP && !t.is64

/-- Class PK (Table 10.1). -/
def ETy.isPK (t : ETy) : Bool := decide (1 < t.count)

/-- Element j of a thread's value. -/
def ETy.elem (t : ETy) (x j : Nat) : Nat := x / 2 ^ (t.width * j) % 2 ^ t.width

/-- An element read as an integer of the type (R63). -/
def ETy.toInt (t : ETy) (x : Nat) : Int := if t.signed then toSigned t.width x else ((x % 2 ^ t.width : Nat) : Int)

/-- A thread's value with one element in every place. -/
def ETy.replicate (t : ETy) (x : Nat) : Nat := (upto t.count).foldl (fun a j => a + x * 2 ^ (t.width * j)) 0

/-- The codes of 0, 1, −1, 2, 0.5, −0.5, 4 and 0.25 in a floating format (Table 9.5). -/
def constCodes : Fmt → List Nat
  | .f32 => [0, 0x3F800000, 0xBF800000, 0x40000000, 0x3F000000, 0xBF000000, 0x40800000, 0x3E800000]
  | .f16 => [0, 0x3C00, 0xBC00, 0x4000, 0x3800, 0xB800, 0x4400, 0x3400]
  | .bf16 => [0, 0x3F80, 0xBF80, 0x4000, 0x3F00, 0xBF00, 0x4080, 0x3E80]
  | .e4m3 => [0, 0x38, 0xB8, 0x40, 0x30, 0xB0, 0x48, 0x28]
  | .e5m2 => [0, 0x3C, 0xBC, 0x40, 0x38, 0xB8, 0x44, 0x34]
  | .dm8 => [0, 0x60, 0xE0, 0x70, 0x50, 0xD0, 0x30, 0x40]
  | _ => [0, 0x3FF0000000000000, 0xBFF0000000000000, 0x4000000000000000, 0x3FE0000000000000, 0xBFE0000000000000,
          0x4010000000000000, 0x3FD0000000000000]

/-- An inline constant in an integer type: 0, 1, all ones, 2 and 4; none for the others (R155). -/
def intConst (w n : Nat) : Option Nat := ([some 0, some 1, some (2 ^ w - 1), some 2, none, none, some 4, none][n]?).getD none

/-- The value of an inline constant at a type (R155); none where it raises ILLEGAL. -/
def ETy.const (t : ETy) (n : Nat) : Option Nat :=
  match t.fmt with
  | some f => ((constCodes f)[n]?).map t.replicate
  | none => (intConst t.width n).map t.replicate

/-- The value of the literal at a type (R152). -/
def ETy.lit (t : ETy) (l : W32) : Nat :=
  match t with
  | .i64 => (l.signExtend 64).toNat
  | .f64 => l.toNat * 2 ^ 32
  | _ => l.toNat

/-- The value that a 64-bit register receives from a result (R173): an i32 is extended by its sign, others by zero. -/
def ETy.extend (t : ETy) (x : Nat) : W64 := if t = .i32 then sext64 32 x else BitVec.ofNat 64 (x % 2 ^ t.bits)

/-! ### MODE (R72) and what an instruction takes from its prefix -/

/-- The default element type of MODE (Table 4.5). -/
def modeET (m : BitVec 9) : ETy := (ETy.ofCode (m.extractLsb' 0 4)).getD .f32
/-- The default rounding mode. -/
def modeRM (m : BitVec 9) : RMode := (RMode.ofCode (m.extractLsb' 4 3)).getD .rne
/-- The default saturation. -/
def modeSat (m : BitVec 9) : Bool := m.getLsbD 7
/-- Denormal flush. -/
def modeDnf (m : BitVec 9) : Bool := m.getLsbD 8

/-- A value that may be written to MODE: no reserved ET or RM code (R72). -/
def modeOk (m : BitVec 9) : Bool := (ETy.ofCode (m.extractLsb' 0 4)).isSome && (RMode.ofCode (m.extractLsb' 4 3)).isSome

/-- The effective element type (R156). -/
def effET (p : Option Pfx) (m : BitVec 9) : ETy := ((p.bind Pfx.et).getD (modeET m))
/-- The effective rounding mode. -/
def effRM (p : Option Pfx) (m : BitVec 9) : RMode := ((p.bind Pfx.rm).getD (modeRM m))
/-- The effective saturation. -/
def effSat (p : Option Pfx) (m : BitVec 9) : Bool := ((p.bind Pfx.sat).getD (modeSat m))

/-- How many times a prefix makes its instruction run (R159). -/
def repTotal (p : Option Pfx) : Nat := match p.bind Pfx.rep with | some r => r.cnt.toNat + 1 | none => 1

/-- The increment bits of a prefix. -/
def repInc (p : Option Pfx) : Bool × Bool × Bool :=
  match p.bind Pfx.rep with | some r => (r.incD, r.incA, r.incB) | none => (false, false, false)

/-- The length of an instruction with its prefix (R157). -/
def pfxLen (p : Option Pfx) (len : Nat) : Nat := if p.isSome then len + 4 else len

/-! ### Selectors -/

/-- The queue a selector names. -/
def Sel.queueNum : Sel → Option Nat
  | .queue n => some n.toNat
  | _ => none

/-- The register step of an increment at a type (R159): a pair of v registers for a 64-bit type, else one register. -/
def regStep (access : Bool) (s : Sel) (ty : ETy) : Nat :=
  match s with | .reg _ => if !access && ty.is64 then 2 else 1 | _ => 1

/-- A position is legal for a strand over all iterations (R154, R155, R159). -/
def posOk (access : Bool) (vregs : Nat) (times : Nat) (inc : Bool) (s : Sel) (ty : ETy) : Bool :=
  let span := if inc then regStep access s ty * (times - 1) else 0
  match s with
  | .reg n =>
    if access then decide (n.toNat + span < 32)
    else decide (n.toNat + span + (if ty.is64 then 1 else 0) < vregs) && (!ty.is64 || n.toNat % 2 = 0)
  | .s n => decide (n.toNat + span < 32)
  | .const n => (ty.const n.toNat).isSome
  | _ => true

/-- A selector advanced by some iterations (R159). -/
def Sel.adv (access : Bool) (s : Sel) (ty : ETy) (inc : Bool) (j : Nat) : Sel :=
  if inc then
    match s with
    | .reg n => .reg (n + BitVec.ofNat 6 (regStep access s ty * j))
    | .s n => .s (n + BitVec.ofNat 5 j)
    | x => x
  else s

/-- The size of a shared access (R211). -/
def SZ.bytes : SZ → Nat
  | .u8 => 1 | .s8 => 1 | .u16 => 2 | .s16 => 2 | .u32 => 4 | .s32 => 4 | .u64 => 8

/-- A shared access is sign-extended. -/
def SZ.signed : SZ → Bool
  | .s8 => true | .s16 => true | .s32 => true | _ => false

end Sys2Proof
end

