-- ==== Sys2Proof/Machine/Control.lean ====
section
/-!
DEFINITION. Machine/Control.lean: control transfer (R201 to R203), the split of a fragment with its spill (R32, R35), the end of
threads (R36), barrier completion (R288), and mode, flags and special registers (R204, R205).
-/
namespace Sys2Proof.Machine
open Sys2Proof

/-! ### Barriers -/

/-- A barrier that no strand has reached. -/
def Barrier.fresh : Barrier := { sl := none, arrived := [], gen := 0 }

/-- The arrival count of a barrier (R288): the strands of the named slices that have not exited. -/
def State.arrivalCount (s : State) (w : WgId) (sl : BarSl) : Nat :=
  match sl with
  | .access => (s.live w .access).length
  | .execute => (s.live w .execute).length
  | .both => (s.live w .access).length + (s.live w .execute).length

/-- The fragments that wait on a generation of a barrier go on after their BARW. -/
def Strand.passBarrier (st : Strand) (n gen : Nat) : Strand :=
  ({ st with frags := st.frags.map (fun (f : Frag) =>
      if decide (f.st = FState.blocked) && decide (f.wait = some (Wait.barrier n gen)) then { f with pc := f.pc + 1, st := .ready, wait := none } else f) }).settleFrags

/-- Complete every barrier of a workgroup whose arrivals equal its count (R288). -/
def State.barrierCheck (s : State) (w : WgId) : State :=
  match s.wgs.find w with
  | none => s
  | some g =>
    g.barriers.foldl (fun s p =>
      match p.2.sl with
      | none => s
      | some sl =>
        if 0 < p.2.arrived.length && s.arrivalCount w sl ≤ p.2.arrived.length then
          let s := s.updWg w (fun g => { g with barriers := g.barriers.put p.1 { sl := none, arrived := [], gen := p.2.gen + 1 } })
          { s with strands := s.strands.map (fun q => if q.1.wg = w then (q.1, q.2.passBarrier p.1 p.2.gen) else q) }
        else s) s

/-! ### Transfers -/

/-- The target of an offset (R160): align8(PC) + 8 × OFF. -/
def Me.target (m : Me) (off : BitVec 16) : W64 := ((m.pc.extractLsb' 3 61) ++ 0#3) + ((off.signExtend 64) <<< 3)

/-- Go to an address; a control transfer is a yield point (R201). -/
def State.branch (s : State) (m : Me) (pc : W64) : State := (s.setPc m pc).yieldPoint m

/-- Fall through to the next instruction; still a yield point. -/
def State.fall (s : State) (m : Me) (len : Nat) : State := s.branch m (m.pc + BitVec.ofNat 64 len)

/-- BRC's condition (Table 10.13). -/
def BCond.holds (c : BCond) (k em : TMask) : Bool :=
  let x := k &&& em
  match c with
  | .any => x ≠ 0 | .all => x = em | .none => x = 0 | .nall => x ≠ em

/-- Insert a number into a list that a key sorts. -/
def insertBy (key : Nat → Nat) (x : Nat) : List Nat → List Nat
  | [] => [x]
  | y :: l => if key x < key y then x :: y :: l else y :: insertBy key x l

/-- The waiting entries of the table, oldest first (R35). -/
def Strand.waiting (st : Strand) : List Nat :=
  let l := (upto st.frags.length).filter (fun i => match st.frags[i]? with | some f => decide (f.st = .waiting) | none => false)
  let born (i : Nat) : Nat := ((st.frags[i]?).map Frag.born).getD 0
  l.foldl (fun a i => insertBy born i a) []

/-- The number of free entries. -/
def Strand.freeCount (st : Strand) : Nat := (st.frags.filter (fun f => f.st = .free)).length

/-- The slots of the spill area that strands of a workgroup use. -/
def State.spillUsed (s : State) (w : WgId) : List Nat :=
  s.strands.flatMap (fun p => if p.1.wg = w then p.2.spilled.map Prod.fst else [])

/-- The spill slots free in a workgroup's area, lowest first. -/
def State.spillFree (s : State) (w : WgId) (room : Nat) : List Nat :=
  let used := s.spillUsed w
  (upto (min room (used.length + 2))).filter (fun i => !used.contains i)

/-- Put a fragment into the first free entry. -/
def putFrag (l : List Frag) (f : Frag) : List Frag := match firstFree l with | some i => listSet l i f | none => l

/-- The split of BRD (R202) over a table with two free entries. -/
def Strand.split (st : Strand) (fi : Nat) (f : Frag) (taken : TMask) (target next join : BitVec 62) : Strand :=
  let kid (n : Nat) (pc : BitVec 62) (mask : TMask) : Frag :=
    { pc := pc, join := join, fm := mask, em := mask, parent := BitVec.ofNat 4 fi, st := .ready, born := st.nborn + n,
      pborn := some f.born, split := false, wait := none, rc := 0, scan := none }
  let frags := putFrag (putFrag st.frags (kid 0 target taken)) (kid 1 next (f.em &&& ~~~taken))
  let frags := listAdjust frags fi (fun f =>
    { f with fm := f.fm &&& ~~~f.em, em := 0, pc := join, st := .waiting, split := true })
  ({ st with frags := frags, nborn := st.nborn + 2 }).settleFrags

/-- Move entries of the table to slots of the spill area. -/
def Strand.spill (st : Strand) (l : List (Nat × Nat)) : Strand :=
  l.foldl (fun st p => match st.frags[p.1]? with
    | some f => { st with frags := listSet st.frags p.1 Frag.free, spilled := st.spilled ++ [(p.2, f)] }
    | none => st) st

/-- The 32 bytes of a spill slot: the spec does not say how an entry is laid out, so they become free values (log 2). -/
def State.spillBytes (s : State) (w : WgId) (off : Nat) : State :=
  let (ws, s) := s.takeFrees 4
  s.updWg w (fun g => { g with shared := g.shared.setBytes off (ws.flatMap w64Bytes) })

/-- BRD with both ways taken (R32, R35, R202). -/
def State.divide (s : State) (m : Me) (taken : TMask) (target join : W64) : State :=
  let need := 2 - m.st.freeCount
  let old := (m.st.waiting).take need
  let slots := (s.spillFree m.sid.wg m.wg.spillRoom).take need
  if old.length < need || slots.length < need then s.raise m .splitOverflow
  else
    let s := slots.foldl (fun s k => s.spillBytes m.sid.wg (m.wg.spillOff + 32 * k)) s
    let s := s.updStrand m.sid (fun st =>
      (st.spill (old.zip slots)).split m.fi m.f taken (target.extractLsb' 2 62) (m.f.pc + 2) (join.extractLsb' 2 62))
    s.yieldPoint m

/-- What follows a strand's exit: broadcast entries it held are freed, and barriers count it no longer (R36, R53, R288). -/
def State.afterExit (s : State) (sid : StrandId) : State :=
  match s.strands.find sid with
  | some st => if st.exited then (s.sweepQueues sid.wg).barrierCheck sid.wg else s
  | none => s

/-- EXIT (R36, R203). -/
def State.exitThreads (s : State) (m : Me) : State :=
  let fm : TMask := if m.f.em = 0 then 0 else m.f.fm &&& ~~~m.f.em
  let s := s.updFrag m.sid m.fi (fun f => { f with fm := fm, em := 0 })
  (s.fall m 4).afterExit m.sid

def execNop (s : State) : Out := asStrand s (fun m => s.advance m 4)
def execBr (off : BitVec 16) (s : State) : Out := asYielding s (fun m => s.branch m (m.target off))
def execBrc (cc : BCond) (k : BitVec 3) (off : BitVec 16) (s : State) : Out :=
  asYielding s (fun m => if BCond.holds cc (m.st.kGet k.toNat) m.em then s.branch m (m.target off) else s.fall m 4)
def execBrd (k : BitVec 3) (inv : Bool) (toff joff : BitVec 16) (s : State) : Out :=
  asYielding s (fun m =>
    let kv := m.st.kGet k.toNat
    let taken := m.em &&& (if inv then ~~~kv else kv)
    if taken = 0 then s.fall m 8
    else if taken = m.em then s.branch m (m.target toff)
    else s.divide m taken (m.target toff) (m.target joff))
def execBrt (tag : BitVec 2) (eq : Bool) (off : BitVec 16) (s : State) : Out :=
  asYielding s (fun m => if decide (m.st.qt = tag) = eq then s.branch m (m.target off) else s.fall m 4)
def execLoop (r : BitVec 5) (off : BitVec 16) (s : State) : Out :=
  asYielding s (fun m =>
    let x := m.st.sGet r.toNat
    if x = 0 then s.fall m 4
    else
      let s := s.updStrand m.sid (fun st => st.sSet r.toNat (x - 1))
      if x - 1 = 0 then s.fall m 4 else s.branch m (m.target off))
def execCall (r : BitVec 5) (off : BitVec 16) (s : State) : Out :=
  asYielding s (fun m => (s.updStrand m.sid (fun st => st.sSet r.toNat (m.pc + 4))).branch m (m.target off))
def execRet (r : BitVec 5) (s : State) : Out :=
  asYielding s (fun m =>
    let x := m.st.sGet r.toNat
    if x.extractLsb' 0 2 = 0 then s.branch m x else s.raise m .illegal)
def execExit (s : State) : Out := asYielding s (fun m => s.exitThreads m)
def execYield (s : State) : Out := asYielding s (fun m => s.fall m 4)

/-! ### Mode, flags and special registers -/

/-- The seeded stochastic state of every thread (R75, R204). -/
def seedSrs (seed : W32) : SMap 32 := SMap.sets [] (threads.map (fun t => (t, srsSeed seed t)))

def execSetmode (r : BitVec 5) (seed : Bool) (s : State) : Out :=
  asStrand s (fun m =>
    let x := m.st.sGet r.toNat
    if seed then (s.updStrand m.sid (fun st => { st with srs := seedSrs (x.extractLsb' 0 32) })).advance m 4
    else
      let mode := x.extractLsb' 0 9
      if modeOk mode then (s.updStrand m.sid (fun st => { st with mode := mode })).advance m 4 else s.raise m .illegal)
def execGetmode (d : BitVec 5) (s : State) : Out :=
  asStrand s (fun m => s.writeS m d.toNat (m.st.mode.zeroExtend 64) 4)
def execFlags (d : BitVec 5) (clr : BitVec 6) (s : State) : Out :=
  asStrand s (fun m =>
    let s := s.updStrand m.sid (fun st => { st with flags := st.flags &&& ~~~clr })
    s.writeS m d.toNat (m.st.flags.zeroExtend 64) 4)

/-- The strands of a workgroup's execute slice that are active: neither parked nor exited (R320). -/
def State.activeExec (s : State) (w : WgId) : Nat :=
  (s.strands.filter (fun p => p.1.wg = w && p.1.slice = .execute && !p.2.exited && !p.2.parked)).length

/-- The granted lease of a workgroup in bytes (R320). -/
def State.granted (s : State) (w : WgId) (g : Workgroup) : Nat := 4096 * g.lbase + 4096 * g.lper * s.activeExec w

/-- The value of a special register (Table 10.15). -/
def State.special (s : State) (m : Me) (r : SpecReg) : W64 :=
  let g := m.wg
  let n : Nat → W64 := BitVec.ofNat 64
  match r with
  | .tidx => n (8 * m.sid.idx)
  | .strand => n m.sid.idx
  | .slice => if m.access then 0 else 1
  | .wgx => n g.coords.1
  | .wgy => n g.coords.2.1
  | .wgz => n g.coords.2.2
  | .wglin => n ((g.grid.map Prod.snd).getD 0)
  | .gdimx => n g.dims.1
  | .gdimy => n g.dims.2.1
  | .gdimz => n g.dims.2.2
  | .core => n m.core
  | .node => n g.node
  | .taskseq => g.task
  | .depth => n g.depth
  | .ctxid => n g.ctx
  | .reccnt => n g.recCount
  | .recbase => n g.recBase
  | .cycle => n (s.clock - (s.core m.core).resetAt)
  | .lease => n (s.granted m.sid.wg g)
  | .parent => g.parent.getD (BitVec.allOnes 64)

def execRdspec (d : BitVec 5) (r : SpecReg) (s : State) : Out :=
  asStrand s (fun m => s.writeS m d.toNat (s.special m r) 4)

end Sys2Proof.Machine
end

