-- ==== Sys2Proof/Machine/Flags.lean ====
section
/-!
DEFINITION. Machine/Flags.lean: integer results with the flags they set (R80, R81, Table 10.4) and comparisons (R181, R206).
-/
namespace Sys2Proof

/-- An exact integer result brought to an element: clamped with SA under saturation, else its low bits (R80, R180). -/
def satResult (ty : ETy) (sat : Bool) (v : Int) : FRes := intDeliver ty.signed ty.width sat v

/-- The low bits of an exact integer result, without flags. -/
def wrapResult (ty : ETy) (v : Int) : FRes := ⟨ofSigned ty.width v, 0⟩

/-- Quotient of two w-bit codes (R81): DZ on a zero divisor, SA where saturation clamps the one overflow. -/
def divCode (signed : Bool) (w : Nat) (sat : Bool) (a b : Nat) : FRes :=
  if b % 2 ^ w = 0 then ⟨2 ^ w - 1, flDZ⟩
  else if signed then
    let x := toSigned w a
    let y := toSigned w b
    if x = intMin true w && y = -1 then (if sat then ⟨2 ^ (w - 1) - 1, flSA⟩ else ⟨2 ^ (w - 1), 0⟩)
    else ⟨ofSigned w (x.tdiv y), 0⟩
  else ⟨a % 2 ^ w / (b % 2 ^ w), 0⟩

/-- Remainder of two w-bit codes (R81): the dividend with DZ on a zero divisor; it takes the dividend's sign. -/
def remCode (signed : Bool) (w : Nat) (a b : Nat) : FRes :=
  if b % 2 ^ w = 0 then ⟨a % 2 ^ w, flDZ⟩
  else if signed then ⟨ofSigned w ((toSigned w a).tmod (toSigned w b)), 0⟩
  else ⟨a % 2 ^ w % (b % 2 ^ w), 0⟩

/-- A condition on signed readings x, y and unsigned readings a, b (R181): LTN and GEN compare the unsigned ones. -/
def Cond.holds (c : Cond) (x y : Int) (a b : Nat) : Bool :=
  match c with
  | .eq => decide (x = y) | .ne => decide (x ≠ y) | .lt => decide (x < y) | .le => decide (x ≤ y) | .gt => decide (y < x)
  | .ge => decide (y ≤ x) | .ltn => decide (a < b) | .gen => decide (b ≤ a)

/-- Bits of a w-bit code reversed. -/
def revBits (w x : Nat) : Nat := (upto w).foldl (fun a i => a + (x / 2 ^ i % 2) * 2 ^ (w - 1 - i)) 0

/-- The number of one bits. -/
def popCount (w x : Nat) : Nat := (upto w).foldl (fun a i => a + x / 2 ^ i % 2) 0

/-- The number of leading zeros of a w-bit code. -/
def leadZeros (w x : Nat) : Nat := if x % 2 ^ w = 0 then w else w - 1 - (x % 2 ^ w).log2

/-- A w-bit code rotated left. -/
def rotLeft (w x n : Nat) : Nat := let k := n % w; (x * 2 ^ k) % 2 ^ w + x % 2 ^ w / 2 ^ (w - k)

/-- A w-bit code shifted right and filled with its sign. -/
def shiftRightSigned (w x n : Nat) : Nat := ofSigned w ((toSigned w x) / ((2 ^ n : Nat) : Int))

end Sys2Proof
end

