-- ==== Sys2Proof/Machine/Audit.lean ====
section
/-!
DEFINITION. Machine/Audit.lean: SHA-384 (FIPS 180-4, named by R367 to R376) and the audit log (R375, R376).
-/
namespace Sys2Proof.Machine
open Sys2Proof

/-- The largest number that has no bits above those asked for and whose k-th power is at most `x`, found from the highest bit down. -/
def rootOf (k x : Nat) : Nat → Nat → Nat
  | 0, r => r
  | n + 1, r => rootOf k x n (if (r + 2 ^ n) ^ k ≤ x then r + 2 ^ n else r)

/-- The first 80 primes; the last is 409. -/
def shaPrimes : List Nat := (upto 410).filter (fun n => decide (2 ≤ n) && (upto 21).all (fun d => decide (d < 2) || decide (n ≤ d) || decide (n % d ≠ 0)))

/-- The first 64 bits of the fraction of a prime's k-th root. -/
def rootWord (k p : Nat) : W64 := BitVec.ofNat 64 (rootOf k (p * 2 ^ (64 * k)) 70 0)

/-- The round constants of SHA-384 come from the cube roots of those primes. -/
def shaK : List W64 := shaPrimes.map (rootWord 3)

/-- The initial hash value of SHA-384 comes from the square roots of the 9th to 16th prime. -/
def shaH0 : List W64 := ((shaPrimes.drop 8).take 8).map (rootWord 2)

/-- Padding to whole blocks of 128 bytes: 0x80, zeros, and the length in bits as 16 big-endian bytes. -/
def shaPad (m : List Byte) : List Byte :=
  m ++ [0x80] ++ List.replicate ((239 - m.length % 128) % 128) 0 ++ (bytesOfNat 16 (8 * m.length)).reverse

/-- The big-endian words of a list of bytes. -/
def shaWords (bs : List Byte) : Nat → List W64
  | 0 => []
  | n + 1 => BitVec.ofNat 64 (natOfBytes (bs.take 8).reverse) :: shaWords (bs.drop 8) n

/-- The message schedule, newest word first. -/
def shaSchedule : Nat → List W64 → List W64
  | 0, w => w
  | n + 1, w =>
    let g (i : Nat) : W64 := (w[i]?).getD 0
    let s0 := (g 14).rotateRight 1 ^^^ (g 14).rotateRight 8 ^^^ (g 14) >>> 7
    let s1 := (g 1).rotateRight 19 ^^^ (g 1).rotateRight 61 ^^^ (g 1) >>> 6
    shaSchedule n ((g 15 + s0 + g 6 + s1) :: w)

/-- One round on the eight working words. -/
def shaRound (v : List W64) (kw : W64) : List W64 :=
  match v with
  | [a, b, c, d, e, f, g, h] =>
    let s1 := e.rotateRight 14 ^^^ e.rotateRight 18 ^^^ e.rotateRight 41
    let ch := (e &&& f) ^^^ (~~~e &&& g)
    let t1 := h + s1 + ch + kw
    let s0 := a.rotateRight 28 ^^^ a.rotateRight 34 ^^^ a.rotateRight 39
    let mj := (a &&& b) ^^^ (a &&& c) ^^^ (b &&& c)
    [t1 + s0 + mj, a, b, c, d + t1, e, f, g]
  | _ => v

/-- One block. -/
def shaBlock (h : List W64) (b : List Byte) : List W64 :=
  let w := (shaSchedule 64 (shaWords b 16).reverse).reverse
  List.zipWith (fun (x y : W64) => x + y) h ((List.zipWith (fun (x y : W64) => x + y) shaK w).foldl shaRound h)

/-- Every block in turn. -/
def shaBlocks : Nat → List W64 → List Byte → List W64
  | 0, h, _ => h
  | n + 1, h, bs => shaBlocks n (shaBlock h (bs.take 128)) (bs.drop 128)

/-- SHA-384: 48 bytes. -/
def sha384 (m : List Byte) : List Byte :=
  let p := shaPad m
  ((shaBlocks (p.length / 128) shaH0 p).take 6).flatMap (fun w => (w64Bytes w).reverse)

/-! ### The audit log (R375, R376) -/

/-- The codes of Table 22.5. -/
def AuditTy.code : AuditTy → Nat
  | .boot => 1 | .ctxCreated => 2 | .ctxReleased => 3 | .rinseDone => 4 | .debugUnlock => 5 | .lifecycle => 6 | .integrity => 7
  | .fenced => 8 | .refreshTakeover => 9 | .typed => 10

/-- A payload of 48 bytes, zeros after the given ones. -/
def payload48 (bs : List Byte) : List Byte := (bs ++ List.replicate 48 0).take 48

/-- Bytes 0..79 of an entry (Table 22.5). -/
def auditBytes (seq : Nat) (ty : AuditTy) (ctx : Nat) (payload : List Byte) : List Byte :=
  bytesOfNat 8 seq ++ bytesOfNat 2 ty.code ++ bytesOfNat 2 ctx ++ List.replicate 4 0 ++ payload48 payload ++ List.replicate 16 0

/-- An entry is free (R376). -/
def State.auditRoom (s : State) : Bool := decide (s.trust.audit.length < 65536)

/-- Append an entry with the next chain head (R376). Operations that need an entry look for room first. -/
def State.audit (s : State) (ty : AuditTy) (ctx : Nat) (payload : List Byte) : State :=
  let t := s.trust
  let h := sha384 (t.auditHead ++ auditBytes t.auditNext ty ctx payload)
  { s with trust := { t with audit := t.audit ++ [⟨t.auditNext, ty, ctx, payload48 payload, h⟩], auditNext := t.auditNext + 1, auditHead := h } }

/-- A payload that the spec does not lay out (log 30). -/
def openPayload (ty : AuditTy) (l : List Nat) : List Byte := bytesOfNat 48 (Config.auditPayload ty.code l).toNat

/-- The context number of an entry that names none. -/
def noCtx : Nat := 0xFFFF

end Sys2Proof.Machine
end

