-- ==== Sys2Proof/Machine/Registers.lean ====
section
/-!
DEFINITION. Machine/Registers.lean: the device registers that DEV pages and the host reach (R395, R399, Table 25.4): reads give
a byte of the 64-bit register, writes take effect byte by byte.
-/
namespace Sys2Proof.Machine
open Sys2Proof

/-- The base of the device-register range (Table 6.4). -/
def regBase : Nat := 2 ^ 49

/-- The offset of node n's push window (R397). -/
def winOff (n : Nat) : Nat := 0x10000000 + 4096 * n

/-- PSTATE's code (Table 25.4); a stopped device stays in THERMAL (R403). -/
def PState.code : PState → Nat
  | .active => 0 | .idle => 1 | .thermal => 2 | .stopped => 2 | .off => 0

/-- The register at an offset, a multiple of 8; zero elsewhere (R395). -/
def State.regWord (s : State) (off : Nat) : W64 :=
  let p := s.plat
  if off = 0x00 then
    BitVec.ofNat 64 (putField p.failChk 8 8 + putField p.stage 4 4 + p.pstate.code * 4 + (if p.trip then 2 else 0) + (if p.ready then 1 else 0))
  else if off = 0x08 then BitVec.ofNat 64 (putField p.tierGib 0 9)
  else if off = 0x10 then BitVec.ofNat 64 (if p.idleEn then 1 else 0)
  else if off = 0x18 then BitVec.ofNat 64 (putField p.tierBase 30 9)
  else if off = 0x20 then BitVec.ofNat 64 (putField p.ovfBase 21 18 + putField p.ovfSize 0 16)
  else if 0x10000000 ≤ off && decide (off < 0x10000000 + 4096 * 4096) && off % 4096 = 0x100 then
    match s.wins.find ((off - 0x10000000) / 4096) with
    | some w => BitVec.ofNat 64 (putField w.errors 32 32 + (if w.busy then 1 else 0))
    | none => 0
  else 0

/-- A byte of the register range. -/
def State.regByte (s : State) (off : Nat) : Byte := (s.regWord (off / 8 * 8)).extractLsb' (8 * (off % 8)) 8

/-- A number with one of its bytes replaced. -/
def putByte (x i : Nat) (b : Byte) : Nat := x - x / 2 ^ (8 * i) % 256 * 2 ^ (8 * i) + b.toNat * 2 ^ (8 * i)

/-- Write a byte of the register range (Table 25.4): TRIP is cleared by a 1; the region registers are fixed once READY. -/
def State.setRegByte (s : State) (off : Nat) (b : Byte) : State :=
  let r := off / 8 * 8
  let i := off % 8
  let p := s.plat
  let new := putByte (s.regWord r).toNat i b
  if r = 0x00 then (if i = 0 && b.getLsbD 1 then { s with plat := { p with trip := false } } else s)
  else if r = 0x08 then (if p.ready then s else { s with plat := { p with tierGib := new % 2 ^ 9 } })
  else if r = 0x10 then { s with plat := { p with idleEn := new % 2 = 1 } }
  else if r = 0x18 then (if p.ready then s else { s with plat := { p with tierBase := new / 2 ^ 30 % 2 ^ 9 } })
  else if r = 0x20 then
    (if p.ready then s else { s with plat := { p with ovfBase := new / 2 ^ 21 % 2 ^ 18, ovfSize := new % 2 ^ 16 } })
  else s

end Sys2Proof.Machine
end

