-- ==== Sys2Proof/Machine/Translate.lean ====
section
/-!
DEFINITION. Machine/Translate.lean: the physical map (R96, Table 6.4), page tables (R87 to R91), TLBs and walks (R339, R340),
page requests (R341), granule ownership (R373) and the permission of an access (R92 to R94).
-/
namespace Sys2Proof.Machine
open Sys2Proof

/-! ### Physical memory (R96, R98) -/

/-- Local HBM4E. -/
def isHbm (pa : Nat) : Bool := decide (pa < 2 ^ 39)

/-- The CXL port of a second-tier address. -/
def tierPort (pa : Nat) : Nat := (pa - 2 ^ 44) / 2 ^ 40

/-- A second-tier address within its port's attached capacity. -/
def State.isTier (s : State) (pa : Nat) : Bool :=
  decide (2 ^ 44 ≤ pa) && decide ((pa - 2 ^ 44) % 2 ^ 40 < (s.plat.ports[tierPort pa]?).getD 0)

/-- The device-register range. -/
def isReg (pa : Nat) : Bool := decide (2 ^ 49 ≤ pa) && decide (pa < 2 ^ 49 + 2 ^ 32)

/-- An address that the physical map gives a target. -/
def State.inMap (s : State) (pa : Nat) : Bool := isHbm pa || s.isTier pa || isReg pa

/-- The 64 KiB block of a second-tier address within its port. -/
def tierBlock (pa : Nat) : Nat := (pa - 2 ^ 44) % 2 ^ 40 / 2 ^ 16

/-- The block of a second-tier address is in the tier cache (R98). -/
def State.tierHeld (s : State) (pa : Nat) : Bool :=
  s.tierCache.any (fun b => b.1 = tierPort pa && b.2.1 = tierBlock pa)

/-- The channel scheduler of an HBM4E address (R97). -/
def channelOf (pa : Nat) : Nat :=
  let l := pa / 256
  Nat.xor (Nat.xor (l % 256) (l / 2 ^ 8 % 256)) (Nat.xor (l / 2 ^ 16 % 256) (l / 2 ^ 24 % 256))

/-- A containment domain is out of service until reset (R378). -/
def State.domDead (s : State) (d : Domain) : Bool := s.doms.any (fun x => decide (x.dom = d) && (x.fenced || x.dead))

/-- A containment domain is quiesced: what needs it waits (R378). -/
def State.domWaits (s : State) (d : Domain) : Bool := s.doms.any (fun x => decide (x.dom = d) && x.quiesced && !x.dead)

/-- A CXL port is out of service. -/
def State.portDead (s : State) (port : Nat) : Bool := s.domDead (.cxlPort port)

/-- An access to this address is served now: with a tier cache, a second-tier access waits for its block (R98), and an access to a
quiesced channel or port waits (R378). -/
def State.served (s : State) (pa : Nat) : Bool :=
  if s.isTier pa then (s.plat.tierGib = 0 || s.tierHeld pa) && !s.domWaits (.cxlPort (tierPort pa))
  else !(isHbm pa && s.domWaits (.channel (channelOf pa)))

/-- The byte at a local physical address as L2 sees it (R98). -/
def State.physByte (s : State) (pa : Nat) : Byte := if s.isTier pa && !s.tierHeld pa then s.tier.get pa else s.mem.get pa

/-! ### L2 (R112 to R114) -/

/-- The home slice of a line (R114). -/
def State.homeOf (s : State) (line : Nat) : Nat :=
  let h := Nat.xor (Nat.xor (line % 2 ^ 16) (line / 2 ^ 16 % 2 ^ 16)) (line / 2 ^ 32 % 2 ^ 11)
  (s.homeTable[h * 896 / 65536]?).getD 0

/-- The line that L2 holds, of local memory or of a device's. -/
def State.l2Line (s : State) (dev : Option Nat) (line : Nat) : Option L2Line := s.l2.find? (fun k => k.dev = dev && k.line = line)

/-- L2 holds a byte: its sector is filled, or it has been written (R112, R113). -/
def State.l2Has (s : State) (dev : Option Nat) (pa : Nat) : Bool :=
  match s.l2Line dev (pa / 256) with
  | some k => k.valid.getLsbD (pa / 64 % 4) || k.mask.getLsbD (pa % 256)
  | none => false

/-- Change a line that L2 holds, or allocate it in its home slice of 8,192 lines (2 MiB), whose oldest line of local memory leaves a full one
(the order is not architected, R112; log 90). -/
def State.l2Put (s : State) (dev : Option Nat) (line : Nat) (g : L2Line → L2Line) : State :=
  if (s.l2Line dev line).isSome then { s with l2 := s.l2.map (fun k => if k.dev = dev && k.line = line then g k else k) }
  else
    let h := s.homeOf line
    let l :=
      if (s.l2.filter (fun k => k.slice = h)).length < 8192 then s.l2
      else match s.l2.find? (fun k => k.slice = h && k.dev.isNone) with
        | some v => s.l2.erase v
        | none => s.l2
    { s with l2 := l ++ [g ⟨dev, line, h, 0, 0⟩] }

/-- Fill sectors of a line at L2 (R112). -/
def State.l2Fill (s : State) (dev : Option Nat) (line : Nat) (sectors : BitVec 4) : State :=
  s.l2Put dev line (fun k => { k with valid := k.valid ||| sectors })

/-- The sector of an address as a mask of its line's. -/
def sectorBit (pa : Nat) : BitVec 4 := 1#4 <<< (pa / 64 % 4)

/-- A byte is written at L2: its line is allocated and nothing is fetched (R113). Device registers are in no cache. -/
def State.l2Wrote (s : State) (pa : Nat) : State :=
  if isReg pa then s else s.l2Put none (pa / 256) (fun k => { k with mask := k.mask ||| (1#256 <<< (pa % 256)) })

/-- Write the byte at a local physical address at L2; a cached tier block becomes dirty. -/
def State.setPhys (s : State) (pa : Nat) (b : Byte) : State :=
  let s := s.l2Wrote pa
  if s.isTier pa then
    if s.tierHeld pa then
      { s with
        mem := s.mem.set pa b
        tierCache := s.tierCache.map (fun k => if k.1 = tierPort pa && k.2.1 = tierBlock pa then (k.1, k.2.1, true) else k) }
    else { s with tier := s.tier.set pa b }
  else { s with mem := s.mem.set pa b }

/-- The bytes from a physical address up. -/
def State.physBytes (s : State) (pa n : Nat) : List Byte := (upto n).map (fun i => s.physByte (pa + i))

/-- Write bytes from a physical address up. -/
def State.setPhysBytes (s : State) (pa : Nat) : List Byte → State
  | [] => s
  | b :: bs => (s.setPhys pa b).setPhysBytes (pa + 1) bs

/-- A 64-bit word of physical memory. -/
def State.physWord (s : State) (pa : Nat) : W64 := w64OfBytes (s.physBytes pa 8)

/-! ### The tier cache (R98) -/

/-- The first address of a 64 KiB block of a port. -/
def blockBase (port block : Nat) : Nat := 2 ^ 44 + port * 2 ^ 40 + block * 2 ^ 16

/-- An address lies in a block. -/
def inBlock (port block a : Nat) : Bool := decide (blockBase port block ≤ a) && decide (a < blockBase port block + 2 ^ 16)

/-- Evict a block: a dirty one is written back to its port. -/
def State.evictBlock (s : State) (port block : Nat) (dirty : Bool) : State :=
  let held := s.mem.filter (fun p => inBlock port block p.1)
  { s with
    mem := s.mem.keep (fun a => !inBlock port block a)
    tier := if dirty then SMap.sets (s.tier.keep (fun a => !inBlock port block a)) held else s.tier
    tierCache := s.tierCache.filter (fun b => !(b.1 = port && b.2.1 = block)) }

/-- TIERCFG's size in GiB: larger values are taken as 256. -/
def Platform.tierSize (p : Platform) : Nat := min p.tierGib 256

/-- Make room for a block: the oldest block leaves a full cache, but for dirty blocks of a port that is out of service; none where no
block can leave. -/
def State.tierRoom (s : State) : Option State :=
  if s.tierCache.length < s.plat.tierSize * 2 ^ 14 then some s
  else (s.tierCache.find? (fun b => !(b.2.2 && s.portDead b.1))).map (fun b => s.evictBlock b.1 b.2.1 b.2.2)

/-- Fetch a block into the tier cache. -/
def State.fillBlock (s : State) (port block : Nat) : State :=
  if s.plat.tierGib = 0 || !s.isTier (blockBase port block) || s.portDead port || s.tierHeld (blockBase port block) then s
  else
    match s.tierRoom with
    | none => s
    | some s =>
      { s with
        mem := SMap.sets s.mem (s.tier.filter (fun p => inBlock port block p.1))
        tierCache := s.tierCache ++ [(port, block, false)] }

/-- Bring the block of a second-tier address into the cache, where there is one. -/
def State.fetchTier (s : State) (pa : Nat) : State := if !s.isTier pa || s.served pa then s else s.fillBlock (tierPort pa) (tierBlock pa)

/-! ### Page tables (R87 to R91) -/

/-- Bits [63:57] equal bit 56 (R87). -/
def canonical (va : W64) : Bool := decide (va.extractLsb' 57 7 = if va.getLsbD 56 then 127#7 else 0#7)

/-- A leaf as a translation uses it: page size in address bits, the base of its frame, FAB and DEVNUM, class and permissions. -/
structure Leaf where
  size : Nat
  base : Nat
  dev  : Option Nat
  attr : Attr
  r    : Bool
  w    : Bool
  x    : Bool
  a    : Bool
deriving DecidableEq, Repr

/-- What an entry says (R90). -/
inductive Pte where
  | table (pa : Nat)
  | leaf (l : Leaf)
  | service
  | invalid
deriving DecidableEq, Repr

/-- The classes by code (Table 6.2). -/
def Attr.ofCode : Nat → Option Attr
  | 0 => some .priv | 1 => some .rsh | 2 => some .coh | 3 => some .cohf | 4 => some .dev | _ => none

/-- The page size that a level and a SIZE code give (Table 6.1). -/
def leafSize : Nat → Nat → Option Nat
  | 2, 3 => some 30 | 1, 2 => some 21 | 0, 0 => some 12 | 0, 1 => some 16 | _, _ => none

/-- The fields of an entry that no kind of it may hold: a reserved class, DEVNUM without FAB, or FAB with a class that other devices' frames
do not have (R90). -/
def pteBad (e : W64) : Bool :=
  match Attr.ofCode (bits e 9 3) with
  | none => true
  | some a => (!bit e 51 && bits e 52 12 ≠ 0) || (bit e 51 && !(a = .cohf || a = .dev))

/-- Fields of an entry that are the same in every leaf: malformed or not, apart from the frame (R90). -/
def leafOf (level idx : Nat) (e : W64) : Option Leaf := do
  let size ← leafSize level (bits e 3 2)
  let attr ← Attr.ofCode (bits e 9 3)
  let fab := bit e 51
  let ppn := bits e 12 39
  let ppnBase := if size = 16 then ppn - idx % 16 else ppn
  if bit e 2 || pteBad e then none
  else if size = 16 && ppn % 16 ≠ idx % 16 then none
  else if ppnBase % 2 ^ (size - 12) ≠ 0 then none
  else some { size := size, base := ppnBase * 2 ^ 12, dev := if fab then some (bits e 52 12) else none, attr := attr,
              r := bit e 5, w := bit e 6, x := bit e 7, a := bit e 8 }

/-- A frame of the physical map, DEV where it holds device registers (R90). -/
def State.frameOk (s : State) (base len : Nat) (attr : Attr) : Bool :=
  s.inMap base && s.inMap (base + len - 1) && (!isReg base || attr = .dev)

/-- Read an entry at a level; `idx` is its index (R90). An entry that needs service has no frame to check (log 83). -/
def State.pteOf (s : State) (level idx : Nat) (e : W64) : Pte :=
  if !bit e 0 then (if bit e 2 && !pteBad e then .service else .invalid)
  else if !bit e 1 then
    let pa := bits e 12 39 * 2 ^ 12
    if level = 0 || bits e 2 10 ≠ 0 || bits e 51 13 ≠ 0 || !s.frameOk pa 4096 .priv then .invalid else .table pa
  else
    match leafOf level idx e with
    | none => .invalid
    | some l => if l.dev.isNone && !s.frameOk l.base (2 ^ l.size) l.attr then .invalid else .leaf l

/-! ### TLBs and walks (R339, R340) -/

/-- A translation's result: a leaf, an invalid page, a page that needs service, or a wait for one of the 192 walks. -/
inductive Tr where
  | ok (l : Leaf)
  | invalid
  | service
  | busy
deriving DecidableEq, Repr

/-- A TLB entry as a leaf. -/
def Tlb.leaf (t : Tlb) : Option Leaf :=
  (leafOf (if t.size = 30 then 2 else if t.size = 21 then 1 else 0) 0 t.pte)

/-- A leaf as the word of a TLB entry, its PPN at the page's base (Table 6.2). -/
def Leaf.pte (l : Leaf) : W64 :=
  let sz := if l.size = 30 then 3 else if l.size = 21 then 2 else if l.size = 16 then 1 else 0
  let at_ := match l.attr with | .priv => 0 | .rsh => 1 | .coh => 2 | .cohf => 3 | .dev => 4
  BitVec.ofNat 64 (3 + sz * 2 ^ 3 + (if l.r then 2 ^ 5 else 0) + (if l.w then 2 ^ 6 else 0) + (if l.x then 2 ^ 7 else 0) +
    (if l.a then 2 ^ 8 else 0) + at_ * 2 ^ 9 + l.base + (match l.dev with | some d => 2 ^ 51 + d * 2 ^ 52 | none => 0))

/-- An entry that holds the address's translation for an ASID at a generation. -/
def Tlb.hits (t : Tlb) (asid gen : Nat) (va : W64) : Bool :=
  t.asid = asid && t.gen = gen && decide (va.toNat / 2 ^ t.size = t.vpn)

/-- The number under which translations are made that no core makes: the Distributor's and those for other devices. They use no TLB and no
walk cache (log 84). -/
def noCore : Nat := 256

/-- The shared TLB unit of a core (R339). -/
def tlbUnit (core : Nat) : Nat := core / 14

/-- The walker unit whose walk cache serves a core: there are 12 units (R339), and the spec gives no rule for which (log 84). -/
def walkUnit (core : Nat) : Nat := core % 12

/-- A TLB that receives an entry; the oldest of a full one leaves (the order is not architected, R339). -/
def tlbInsert (cap : Nat) (l : List Tlb) (t : Tlb) : List Tlb :=
  let l := l.filter (fun u => u ≠ t)
  (if l.length < cap then l else l.drop 1) ++ [t]

/-! #### Walks (R88, R340) -/

/-- The table pointers that a walk cache holds of an address: the number of levels below each and the next table (R339). -/
def State.walkHit (s : State) (core asid gen : Nat) (va : W64) (level : Nat) : Option Nat :=
  if core = noCore then none
  else ((s.walkCache.findD (walkUnit core) []).find? (fun t => t.size = 12 + 9 * level && t.hits asid gen va)).map (fun t => t.pte.toNat)

/-- Keep a table pointer that a walk has read. -/
def State.walkKeep (s : State) (core asid gen : Nat) (va : W64) (level pa : Nat) : State :=
  if core = noCore then s
  else
    let t : Tlb := { asid := asid, gen := gen, vpn := va.toNat / 2 ^ (12 + 9 * level), size := 12 + 9 * level, pte := BitVec.ofNat 64 pa }
    { s with walkCache := s.walkCache.put (walkUnit core) ((s.walkCache.findD (walkUnit core) []) ++ [t]) }

/-- Where a walk starts: below the lowest pointer that the walk cache holds, or at the root (R339). -/
def State.walkStart (s : State) (core asid gen root : Nat) (va : W64) : Nat × Nat :=
  match [1, 2, 3, 4].findSome? (fun l => (s.walkHit core asid gen va l).map (fun pa => (l - 1, pa))) with
  | some p => p
  | none => (4, root)

/-- Read a table's entry from physical memory, once its second-tier block is held (R98, R340). -/
def State.readPte (s : State) (pa : Nat) : Option (State × W64) :=
  let s := s.fetchTier pa
  if s.served pa then some (s, s.physWord pa) else none

/-- Walk from a table at a level (R88, R340); none where it waits for a second-tier block. -/
def State.walkFrom (s : State) (core asid gen : Nat) (va : W64) : Nat → Nat → Option (State × Pte)
  | 0, table =>
    let i := bits va 12 9
    (s.readPte (table + 8 * i)).map (fun r => (r.1, r.1.pteOf 0 i r.2))
  | l + 1, table =>
    let i := bits va (12 + 9 * (l + 1)) 9
    match s.readPte (table + 8 * i) with
    | none => none
    | some (s, e) =>
      match s.pteOf (l + 1) i e with
      | .table pa => (s.walkKeep core asid gen va (l + 1) pa).walkFrom core asid gen va l pa
      | r => some (s, r)

/-- A TLB entry of a core or of its shared unit that holds the translation. -/
def State.tlbFind (s : State) (core asid gen : Nat) (va : W64) : Option Tlb :=
  if core = noCore then none
  else ((s.core core).tlb ++ (s.sharedTlb.findD (tlbUnit core) [])).find? (fun t => t.hits asid gen va)

/-- Translate an address of a context for a core: a TLB entry, or a walk, which is listed until it completes (R339, R340). -/
def State.translate (s : State) (core ctx : Nat) (va : W64) : State × Tr :=
  match s.ctxs.find ctx with
  | none => (s, .invalid)
  | some c =>
    if !canonical va then (s, .invalid)
    else
      match s.tlbFind core c.asid c.gen va with
      | some t => (s, match t.leaf with | some l => .ok l | none => .invalid)
      | none =>
        if 192 ≤ s.walks.length then (s, .busy)
        else
          let start := s.walkStart core c.asid c.gen c.root va
          match (if core = noCore then s else s.count core 13 1).walkFrom core c.asid c.gen va start.1 start.2 with
          | some (s, .leaf l) =>
            let t : Tlb := { asid := c.asid, gen := c.gen, vpn := va.toNat / 2 ^ l.size, size := l.size, pte := l.pte }
            let s' := if s.walks.any (fun w => w.core = core && w.entry = t) then s
              else { s with walks := s.walks ++ [Walk.mk s.serial core t (decide (core ≠ noCore))], serial := s.serial + 1 }
            (s', .ok l)
          | some (s, .service) => (s, .service)
          | some (s, _) => (s, .invalid)
          | none => (s, .busy)

/-- The page of an address, looked up without any effect. -/
def State.peek (s : State) (core ctx : Nat) (va : W64) : Option Leaf :=
  match (State.translate { s with walks := [] } core ctx va).2 with
  | .ok l => some l
  | _ => none

/-- WALK_COMPLETE: a walk finishes and its entry is cached, unless an INV removed the page meanwhile (R340 to R342). -/
def State.walkDone (s : State) (id : Nat) : State :=
  match s.walks.find? (fun w => w.id = id) with
  | none => s
  | some w =>
    let s := { s with walks := s.walks.filter (fun v => v.id ≠ id) }
    if w.cache then
      let u := tlbUnit w.core
      { s.updCore w.core (fun c => { c with tlb := tlbInsert 256 c.tlb w.entry }) with
        sharedTlb := s.sharedTlb.put u (tlbInsert 16384 (s.sharedTlb.findD u []) w.entry) }
    else s

/-! ### Page requests (R341) -/

/-- Join an access to the request of its page, sending one when there is none and fewer than 4,096 are outstanding. -/
def State.request (s : State) (ctx : Nat) (va : W64) (k : AKind) (j : Joiner) : State :=
  match s.ctxs.find ctx with
  | none => s
  | some c =>
    let vp := bits va 12 45
    let mine (r : PageReq) : Bool := !r.withdrawn && r.asid = c.asid && r.gen = c.gen && r.vpage = vp
    if s.pageReqs.any mine then
      { s with pageReqs := s.pageReqs.map (fun r => if mine r && !r.joined.contains j then { r with joined := r.joined ++ [j] } else r) }
    else if 4096 ≤ s.pageReqs.length then s
    else
      let num := ((upto 4096).find? (fun n => s.pageReqs.all (fun r => r.num ≠ n))).getD 0
      State.send { s with pageReqs := s.pageReqs ++ [PageReq.mk num c.asid c.gen vp k false [j]] } (.pageReq num c.asid c.gen vp k)

/-- A page whose service has failed for this joiner (R341). -/
def State.failed (s : State) (j : Joiner) (va : W64) : Bool := s.fails.any (fun f => f.1 = j && f.2 = bits va 12 45)

/-- An access has joined a request of this page that the host has not answered: it walks again only then (R341). -/
def State.waitsPage (s : State) (j : Joiner) (va : W64) : Bool :=
  s.pageReqs.any (fun r => !r.withdrawn && decide (r.vpage = bits va 12 45) && r.joined.contains j)

/-- Forget a joiner's failures once they have been acted on. -/
def State.unfail (s : State) (j : Joiner) : State := { s with fails := s.fails.filter (fun f => f.1 ≠ j) }

/-! ### Ownership and permission (R92, R94, R373) -/

/-- The owner table's mark of a context: its number and its key, so that a later context of the number does not match. -/
def ownerMark (ctx key : Nat) : W64 := BitVec.ofNat 64 (1 + ctx % 2 ^ 12 + key * 2 ^ 16)

/-- What the keys of R373 say of a local address: usable, another context's, or a read whose MAC fails. -/
inductive Own where
  | ok | other | mac
deriving DecidableEq, Repr

/-- The channel of an address is out of service: its lines read as failed (R378). -/
def State.channelDead (s : State) (pa : Nat) : Bool := isHbm pa && s.domDead (.channel (channelOf pa))

/-- Ownership of a local physical address (R373). -/
def State.own (s : State) (ctx pa : Nat) : Own :=
  if isReg pa then .ok
  else if decide (2 ^ 44 ≤ pa) && s.portDead (tierPort pa) then .other
  else
    let o := s.owners.get (pa / 2 ^ 16)
    let key := ((s.ctxs.find ctx).map Ctx.key).getD 0
    if o ≠ 0 && o ≠ ownerMark ctx key then (if bits o 0 16 = 1 + ctx then .mac else .other)
    else if s.badLines.get (pa / 256) ≠ 0 || s.channelDead pa then .mac
    else .ok

/-- The permission of an access kind on a leaf (R92, Table 6.3). -/
def Leaf.permits (l : Leaf) : AKind → Bool
  | .read => l.r
  | .write => l.w
  | .fetch => l.x
  | .atomic => l.r && l.w && l.a && l.attr ≠ .dev

/-- The physical address of a virtual address in a leaf's page. -/
def Leaf.pa (l : Leaf) (va : W64) : Nat := l.base + va.toNat % 2 ^ l.size

/-- What an access of one byte's page finds: its leaf, a failure (an invalid page or a violation), a page that needs service, or
a wait. -/
inductive Access where
  | ok (l : Leaf)
  | fail
  | service
  | busy
deriving DecidableEq, Repr

/-- A MAC failure (R373): an integrity entry in the audit log and in the owner context's error log. -/
def State.noteMac (s : State) (ctx pa : Nat) : State := (s.audit .integrity ctx (openPayload .integrity [pa])).logError ctx (.integrity pa)

/-- The context whose key governs a granule (R372, R373), or no context. -/
def State.keyOwner (s : State) (pa : Nat) : Nat :=
  ((s.ctxs.find? (fun c => ownerMark c.1 c.2.key = s.owners.get (pa / 2 ^ 16))).map Prod.fst).getD noCtx

/-- Translation and permission of the address for a context on a core (step 4 of R104), a failed service apart. A read whose MAC fails is an
access to an invalid page; a write reads nothing (R373; log 44). -/
def State.accessPage (s : State) (core ctx : Nat) (va : W64) (k : AKind) : State × Access :=
  match s.translate core ctx va with
  | (s, .invalid) => (s, .fail)
  | (s, .service) => (s, .service)
  | (s, .busy) => (s, .busy)
  | (s, .ok l) =>
    if !l.permits k then (s, .fail)
    else if l.dev.isSome then (s, .ok l)
    else
      match s.own ctx (l.pa va) with
      | .ok => (s, .ok l)
      | .other => (s, .fail)
      | .mac => if k = .write then (s, .ok l) else (s.noteMac ctx (l.pa va), .fail)

end Sys2Proof.Machine
end

