-- ==== Sys2Proof/Machine/Mem.lean ====
section
/-!
DEFINITION. Machine/Mem.lean: bytes and their places: the core's L1 (R112, R113), L2 and HBM4E, shared memory (R106 to R108), lines
held of other devices (R361); combining by atomics (R284, R285); phases (R135); which outstanding accesses precede a new one
(R119, R125 to R132); and the in-flight counters (R116).
-/
namespace Sys2Proof.Machine
open Sys2Proof

/-! ### Bytes -/

/-- The resident workgroups of a core, in admission order, which is the order of the list. -/
def State.residents (s : State) (core : Nat) : List (WgId × Workgroup) := s.wgs.filter (fun p => p.1.core = core)

/-- The L1's size with the residents' allocations and some further bytes taken out (R107). -/
def State.l1Size (s : State) (core extra : Nat) : Nat := 896 * 1024 - (s.residents core).foldl (fun a p => a + p.2.size) 0 - extra

/-- The key of a byte of another device. -/
def remKey (dev pa : Nat) : Nat := dev * 2 ^ 51 + pa

/-- PRIV and RSH pages (R93). -/
def Attr.nonCoh : Attr → Bool
  | .priv => true | .rsh => true | _ => false

/-- A byte of a core's L1 holds a value. -/
def valid9 (b : Byte) : BitVec 9 := BitVec.ofNat 9 (256 + b.toNat)

/-- A non-coherent byte as the core sees it: dirty, clean, or from L2 (R113, R134). -/
def State.l1Byte (s : State) (core pa : Nat) : Byte :=
  let c := s.core core
  let d := c.dirty.get pa
  let k := c.clean.get pa
  if d ≠ 0 then d.truncate 8 else if k ≠ 0 then k.truncate 8 else s.physByte pa

/-- The byte at a place, as a core reads it. -/
def State.readByte (s : State) (core : Nat) : Loc → Byte
  | .phys attr pa => if isReg pa then s.regByte (pa - regBase) else if attr.nonCoh then s.l1Byte core pa else s.physByte pa
  | .remote _ dev pa => s.fabric.data.get (remKey dev pa)
  | .shared wg off => ((s.wgs.find wg).map (fun g => g.shared.get off)).getD 0
  | .pipe c off => (s.core c).pipe.get off

/-- A place of a DEV page. -/
def Loc.isDev : Loc → Bool
  | .phys .dev _ => true
  | .remote .dev _ _ => true
  | _ => false

/-- A core's L1 holds a non-coherent byte. -/
def Core.hasByte (c : Core) (pa : Nat) : Bool := c.dirty.get pa ≠ 0 || c.clean.get pa ≠ 0

/-- Fill the bytes of a sector that a core's L1 does not hold with what L2 holds; written ones are kept (R112, R113). What a racing load
of such a byte returns is L2's present value (R136; log 86). -/
def State.fillSector (s : State) (core pa : Nat) : State :=
  let c := s.core core
  let new := (upto 64).filterMap (fun i =>
    let a := pa / 64 * 64 + i
    if c.hasByte a then none else some (a, valid9 (s.physByte a)))
  s.updCore core (fun c => { c with clean := SMap.sets c.clean new })

/-- A read of a byte fills its sector at L2, and in the core's L1 where the page is non-coherent (R112). -/
def State.cacheByte (s : State) (core : Nat) : Loc → State
  | .phys attr pa =>
    if isReg pa || attr = .dev || (attr.nonCoh && (s.core core).hasByte pa) then s
    else
      let s := if s.l2Has none pa then s else s.l2Fill none (pa / 256) (sectorBit pa)
      if attr.nonCoh then s.fillSector core pa else s
  | _ => s

/-- A byte that a core reads is at hand, in its L1 or at L2: no request to HBM4E is needed (R117). -/
def State.here (s : State) (core : Nat) : Loc → Bool
  | .phys attr pa =>
    isReg pa || attr = .dev || !isHbm pa || s.l2Has none pa ||
    (if attr.nonCoh then (s.core core).hasByte pa else (s.core core).l1.contains (pa / 256, true))
  | _ => true

/-- A channel scheduler; one that nothing has touched is as after reset. -/
def State.channel (s : State) (n : Nat) : Channel := s.channels.findD n ⟨0, 0, 0, none, 0, none⟩

/-- Apply a function to a channel scheduler. -/
def State.updChannel (s : State) (n : Nat) (g : Channel → Channel) : State := { s with channels := s.channels.put n (g (s.channel n)) }

/-- Send an L2 miss request of a core and slot for the sector of an address (R117); one of a MEMORY-class workgroup begins a memory interval
of its channel (R380). -/
def State.askLine (s : State) (core slot pa : Nat) : State :=
  let s := if ((s.wgs.find ⟨core, slot⟩).map Workgroup.memClass).getD false then s.updChannel (channelOf pa) (fun c => { c with lastMem := some s.clock }) else s
  let mine (r : ReadReq) : Bool := r.line = pa / 256 && r.core = core && r.slot = slot
  if s.reads.any mine then { s with reads := s.reads.map (fun r => if mine r then { r with sectors := r.sectors ||| sectorBit pa } else r) }
  else { s with reads := s.reads ++ [⟨pa / 256, sectorBit pa, core, slot⟩] }

/-- Bring the second-tier blocks of some places into the tier cache (R98). -/
def State.fetchTiers (s : State) (ls : List Loc) : State := ls.foldl (fun s l => match l with | .phys _ pa => s.fetchTier pa | _ => s) s

/-- Send the L2 miss requests of the bytes that a core reads and has not at hand. -/
def State.askBytes (s : State) (core slot : Nat) (ls : List Loc) : State :=
  ls.foldl (fun s l => match l with
    | .phys _ pa => if s.here core l then s else s.askLine core slot pa
    | _ => s) s

/-- A strand or a copy writes a shared byte while matrix commands of its workgroup are incomplete (R144). -/
def State.disturb (s : State) (core : Nat) (mine : MEntry → Bool) (off : Nat) : State :=
  s.updCore core (fun c => { c with mqueue := c.mqueue.map (fun e => if mine e then { e with taint := e.taint.set off 1 } else e) })

/-- A landing in progress covers a shared byte (R144). -/
def Delivery.covers (d : Delivery) (w : WgId) (off : Nat) : Bool :=
  decide (d.wg = w) && decide (d.base ≤ off) && decide (off < d.base + 4096 * d.slots.length)

/-- A landing of an incomplete copy covers a shared byte. -/
def State.landing (s : State) (w : WgId) (off : Nat) : Bool := s.copies.any (fun c => c.dlv.any (fun d => d.covers w off))

/-- The byte that a strand's store leaves: a free value in a landing that is in progress, whose copy keeps nothing there either
(R144). -/
def State.landed (s : State) (w : WgId) (off : Nat) (b : Byte) : Byte × State :=
  if s.landing w off then
    let (x, s) := s.takeFree
    (x.setWidth 8, { s with copies := s.copies.map (fun c => { c with dlv := c.dlv.map (fun d =>
      if d.covers w off then { d with taint := d.taint ++ [off] } else d) }) })
  else (b, s)

/-- Bytes that a strand reads from shared memory: free values in a landing that is in progress (R144). -/
def State.landingRead (s : State) (ls : List (Option Loc)) (bs : List Byte) : State × List Byte :=
  let hit (l : Option Loc) : Bool := match l with | some (.shared w off) => s.landing w off | _ => false
  if ls.any hit then
    let (ws, s') := s.takeFrees ls.length
    (s', ((ls.zip bs).zip ws).map (fun p => if hit p.1.1 then p.2.setWidth 8 else p.1.2))
  else (s, bs)

/-- Write the byte at a place. -/
def State.writeByte (s : State) (core : Nat) (l : Loc) (b : Byte) : State :=
  match l with
  | .phys attr pa =>
    if isReg pa then s.setRegByte (pa - regBase) b
    else if attr.nonCoh then s.updCore core (fun c => { c with dirty := c.dirty.set pa (valid9 b), clean := c.clean.set pa 0 })
    else s.setPhys pa b
  | .remote _ dev pa => { s with fabric := { s.fabric with data := s.fabric.data.set (remKey dev pa) b } }
  | .shared wg off =>
    let (b, s) := s.landed wg off b
    (s.disturb wg.core (fun e => decide (e.wg = wg)) off).updWg wg (fun g => { g with shared := g.shared.set off b })
  | .pipe c off => (s.disturb c (fun _ => true) (2 ^ 31 + off)).updCore c (fun k => { k with pipe := k.pipe.set off b })

/-- The byte where an atomic performs: at L2 for every local page (R140). -/
def State.homeByte (s : State) (core : Nat) (l : Loc) : Byte :=
  match l with
  | .phys _ pa => if isReg pa then s.regByte (pa - regBase) else s.physByte pa
  | l => s.readByte core l

/-- Write the byte where an atomic performs. -/
def State.setHome (s : State) (core : Nat) (l : Loc) (b : Byte) : State :=
  match l with
  | .phys _ pa => if isReg pa then s.setRegByte (pa - regBase) b else s.setPhys pa b
  | l => s.writeByte core l b

/-! ### The L1's lines: counters, victim tags and measured leases (R321, R322, R388) -/

/-- The number of a line of another device. -/
def remLine (dev pa : Nat) : Nat := 2 ^ 43 * (dev + 1) + pa / 256

/-- The line of a place that caches hold, and whether it is coherent (Table 6.3). -/
def Loc.cached : Loc → Option (Nat × Bool)
  | .phys attr pa => if attr = .dev || isReg pa then none else some (pa / 256, !attr.nonCoh)
  | .remote attr dev pa => if attr = .dev then none else some (remLine dev pa, true)
  | _ => none

/-- A core's L1 holds a line. -/
def Core.holds (c : Core) (line : Nat) : Bool := c.l1.any (fun k => k.1 = line)

/-- Write back a core's dirty bytes that meet a test, by mask (R113); they stay as clean bytes. -/
def State.writeBack (s : State) (core : Nat) (f : Nat → Bool) : State :=
  let d := (s.core core).dirty.filter (fun p => f p.1)
  let s := d.foldl (fun s p => s.setPhys p.1 (p.2.truncate 8)) s
  s.updCore core (fun c => { c with dirty := c.dirty.keep (fun a => !f a), clean := SMap.sets c.clean d })

/-- Phase release (R135): every dirty non-coherent byte of the core is written to L2. -/
def State.phaseRelease (s : State) (core : Nat) : State := s.writeBack core (fun _ => true)

/-- Phase acquire (R135): every clean byte is discarded, dirty bytes are kept; a non-coherent line without bytes is held no longer. -/
def State.phaseAcquire (s : State) (core : Nat) : State :=
  s.updCore core (fun c => { c with clean := [], l1 := c.l1.filter (fun k => k.2 || c.dirty.any (fun p => p.1 / 256 = k.1)) })

/-- Write back and discard the bytes that meet a test (R113, R143). -/
def State.purge (s : State) (core : Nat) (f : Nat → Bool) : State :=
  (s.writeBack core f).updCore core (fun c => { c with clean := c.clean.keep (fun a => !f a) })

/-- Enter a victim tag in the array of 4,096 (R10): the oldest leaves a full one. -/
def addVictim (l : List (Nat × WgId)) (v : Nat × WgId) : List (Nat × WgId) :=
  let l := l.filter (fun x => x.1 ≠ v.1) ++ [v]
  l.drop (l.length - 4096)

/-- A workgroup's access evicts a line from its core's L1: its dirty bytes are written back by mask, and a victim tag names the
workgroup (R112, R113, R321). -/
def State.evictLine (s : State) (core line slot : Nat) : State :=
  if (s.core core).holds line then
    (s.purge core (fun a => a / 256 = line)).updCore core (fun c =>
      { c with l1 := c.l1.filter (fun k => k.1 ≠ line), victims := addVictim c.victims (line, ⟨core, slot⟩) })
  else s

/-- Evict the oldest lines of a core's L1 that it has no room for (R107; the order is not architected, R112; log 90). -/
def State.l1Trim (s : State) (core slot : Nat) : State :=
  let c := s.core core
  (c.l1.take (c.l1.length - s.l1Size core 0 / 256)).foldl (fun s k => s.evictLine core k.1 slot) s

/-- A workgroup's access goes through its core's L1: the line is counted, and allocated where it is not held (R112, R321, R322). -/
def State.touchLine (s : State) (w : WgId) (line : Nat) (coh : Bool) : State :=
  let c := s.core w.core
  let s := s.updWg w (fun g => if g.measuring && g.lines.length < 16384 then { g with lines := g.lines.set line 1 } else g)
  let s := s.updCore w.core (fun c => { c with l1count := c.l1count + 1 })
  if c.holds line then s
  else
    let s := s.count w.core 12 1
    let s :=
      if c.victims.any (fun v => v.1 = line) then
        (s.updCore w.core (fun c => { c with victimHits := c.victimHits + 1, victims := c.victims.filter (fun v => v.1 ≠ line) })).count w.core 9 1
      else s
    (s.updCore w.core (fun c => { c with l1 := c.l1 ++ [(line, coh)] })).l1Trim w.core w.slot

/-- A coherent line that a core writes is held by no other core (R93, R140). -/
def State.l1Own (s : State) (core line : Nat) : State :=
  { s with cores := s.cores.map (fun c => if c.1 ≠ core && c.2.holds line then (c.1, { c.2 with l1 := c.2.l1.filter (fun k => k ≠ (line, true)) }) else c) }

/-- An access of a workgroup touches a place through its core's L1. -/
def State.touch (s : State) (w : WgId) (write : Bool) (l : Loc) : State :=
  match l.cached with
  | none => s
  | some (line, coh) =>
    let s := s.touchLine w line coh
    if write && coh then s.l1Own w.core line else s

/-- The places of different lines among some. -/
def linePlaces (ls : List Loc) : List Loc :=
  ls.foldl (fun l x => match x.cached with
    | none => l
    | some k => if l.any (fun y => y.cached = some k) then l else l ++ [x]) []

/-- Every line of some places is touched. -/
def State.touchAll (s : State) (w : WgId) (write : Bool) (ls : List Loc) : State := (linePlaces ls).foldl (fun s l => s.touch w write l) s

/-! ### Combining (R284, R285) -/

/-- ATOM's new value from numbers of `w` bits. -/
def atomNew (op : AOp) (uns : Bool) (w old v c : Nat) : Nat :=
  let lt (x y : Nat) : Bool := if uns then decide (x < y) else decide (toSigned w x < toSigned w y)
  match op with
  | .add => (old + v) % 2 ^ w
  | .min => if lt v old then v else old
  | .max => if lt old v then v else old
  | .and => Nat.land old v
  | .or => Nat.lor old v
  | .xor => Nat.xor old v
  | .exch => v
  | .cas => if old = c then v else old

/-- A floating combination of two codes (R190, R285, R295): RNE, denormals kept, canonical NaN. -/
def floatNew (op : FOp) (f : Fmt) (x y : Nat) : Nat :=
  match op with
  | .add => (fusedSum f (REnv.plain .rne) true [] [f.read false x, f.read false y]).code
  | .min => (fMinMax f false false x y).code
  | .max => (fMinMax f false true x y).code

/-- ATOMF's new value. -/
def atomfNew (op : FOp) (bf16 : Bool) (old v : Nat) : Nat :=
  if bf16 then
    floatNew op .bf16 (old % 2 ^ 16) (v % 2 ^ 16) + floatNew op .bf16 (old / 2 ^ 16 % 2 ^ 16) (v / 2 ^ 16 % 2 ^ 16) * 2 ^ 16
  else floatNew op .f32 old v

/-- The value that an atomic kind leaves. -/
def AccKind.combine (k : AccKind) (bytes old v c : Nat) : Nat :=
  match k with
  | .atom op uns _ => atomNew op uns (8 * bytes) old (v % 2 ^ (8 * bytes)) (c % 2 ^ (8 * bytes))
  | .atomf op bf16 _ => atomfNew op bf16 old (v % 2 ^ (8 * bytes))
  | _ => old

/-- Widen an n-byte value to 64 bits (R212). -/
def widen64 (n : Nat) (sx : Bool) (x : Nat) : W64 := if sx then sext64 (8 * n) x else BitVec.ofNat 64 x

/-- The x register that an access delivers to. -/
def AccKind.xd : AccKind → Option Nat
  | .load xd _ => some xd
  | .deliver xd => some xd
  | .atom _ _ xd => xd
  | .atomf _ _ xd => xd
  | _ => none

/-- It returns a value to its strand. -/
def AccKind.isLoad (k : AccKind) : Bool := k.xd.isSome

/-- It changes memory. -/
def AccKind.isStore : AccKind → Bool
  | .load _ _ => false
  | .deliver _ => false
  | _ => true

/-- It is an atomic. -/
def AccKind.isAtomic : AccKind → Bool
  | .atom _ _ _ => true
  | .atomf _ _ _ => true
  | .add => true
  | _ => false

/-! ### Outstanding accesses -/

/-- Every element has performed. -/
def Acc.over (a : Acc) : Bool := a.elems.all Elem.done

/-- An outstanding access, Mend-log entry or pending queue entry of this number is over. -/
def State.isOver (s : State) (w : WgId) (id : Nat) : Bool :=
  s.accs.all (fun a => a.id ≠ id || a.over) &&
  (s.core w.core).mend.all (fun e => e.id ≠ id) &&
  (match s.wgs.find w with | some g => g.entries.all (fun e => e.id ≠ id || e.pend.isNone) | none => true)

/-- Everything that must precede is over. -/
def State.ready (s : State) (w : WgId) (deps : List Nat) : Bool := deps.all (fun d => s.isOver w d)

/-- The creation numbers of a fragment and its ancestors, its own first (R125); `n` bounds the climb. -/
def lineage (all : List Frag) : Nat → Nat → List Nat
  | 0, b => [b]
  | n + 1, b => b :: (match (all.find? (fun f => f.born = b)).bind Frag.pborn with | some p => lineage all n p | none => [])

/-- A strand runs a fragment: while it is in its handler, only the one that trapped and its children (R328). -/
def Strand.runs (st : Strand) (f : Frag) : Bool :=
  match st.frame with
  | some r => (lineage st.all 1024 f.born).contains r.frag
  | none => true

/-- The running fragment's lineage. -/
def Me.line (m : Me) : List Nat := lineage m.st.all 1024 m.f.born

/-- What a fragment of one lineage did comes before what one of another does, in program order (R125): the same fragment, an ancestor, or a
child fused into it did it. Each lineage stands with its fragment first. -/
def lineBefore (before line : List Nat) : Bool :=
  (match line with | b :: _ => before.contains b | [] => false) || (match before with | b :: _ => line.contains b | [] => false)

/-- An access comes before the running fragment in program order (R125). -/
def Me.after (m : Me) (a : Acc) : Bool := decide (a.strand = m.sid) && lineBefore a.line m.line

/-- The strand has diverged. -/
def Me.diverged (m : Me) : Bool := decide (1 < m.st.all.length)

/-- The earlier accesses that an ordering instruction covers (R131, R132): in a diverged strand, those of active threads. -/
def State.covered (s : State) (m : Me) : List Acc :=
  s.accs.filter (fun a => m.after a && !a.over &&
    (!m.diverged || a.elems.any (fun e => !e.done && TMask.has m.em e.thread)))

/-- The pending queue entries that come before the running fragment in program order (R125, R132). -/
def Me.pendings (m : Me) : List QEntry :=
  m.wg.entries.filter (fun e => match e.pend with | some p => decide (p.strand = m.sid) && lineBefore p.line m.line | none => false)

/-- The Mend-log entries of a strand. -/
def State.mends (s : State) (sid : StrandId) : List Mend := (s.core sid.wg.core).mend.filter (fun e => e.strand = sid)

/-- Every earlier access that a release or full fence covers is over (R120, R129, R131). -/
def State.allPrior (s : State) (m : Me) : Bool := (s.covered m).isEmpty && m.pendings.isEmpty && (s.mends m.sid).isEmpty

/-- Every earlier load is over (R131). -/
def State.loadsPrior (s : State) (m : Me) : Bool := (s.covered m).all (fun a => !a.kind.isLoad) && m.pendings.isEmpty

/-- A register has an outstanding load (R116). -/
def State.xBusy (s : State) (sid : StrandId) (rs : List Nat) : Bool :=
  s.accs.any (fun a => decide (a.strand = sid) && !a.over && (match a.kind.xd with | some x => rs.contains x | none => false))

/-- The value of an in-flight counter (R116, R293); a transfer's next packet counts from its issue, so that FAB is 0 only when every source
byte has been read (log 87). -/
def State.inflight (s : State) (w : WgId) (p : Path) : Nat :=
  (s.accs.filter (fun a => a.strand.wg = w && a.path = some p)).length +
  (if p = .fab then
    let mine (t : Xfer) : Bool := decide ((s.wgs.find w).map Workgroup.task = some t.task)
    (s.fabric.sent.filter (fun k => match k.use_ with
      | .bulk x => s.fabric.xfers.any (fun t => decide (t.id = x) && mine t)
      | _ => false)).length +
    (s.fabric.xfers.filter (fun t => mine t && !t.stopped && decide (t.sent < t.len))).length
   else 0)

/-- Count down what is over, in issue order on each path (R116). -/
def sweepList : List Acc → List (WgId × Path) → List Acc
  | [], _ => []
  | a :: l, held =>
    match a.path with
    | none => if a.over then sweepList l held else a :: sweepList l held
    | some p =>
      if a.over && !held.contains (a.strand.wg, p) then sweepList l held
      else a :: sweepList l ((a.strand.wg, p) :: held)

/-- Count down every access that is over. -/
def State.sweep (s : State) : State := { s with accs := sweepList s.accs [] }

/-! ### What precedes a new access (R119, R126) -/

/-- Two byte ranges may name one frame's bytes: they overlap within a 4 KiB page (R88). -/
def mayAlias (va1 n1 va2 n2 : Nat) : Bool :=
  let d := (va2 % 4096 + 4096 - va1 % 4096) % 4096
  decide (d < n1) || decide (4096 < d + n2)

/-- The places of an element. -/
def Elem.places (e : Elem) : List Loc := e.locs.filterMap id

/-- Two elements share a place. -/
def Elem.meets (e f : Elem) : Bool := e.places.any (fun l => f.places.contains l)

/-- A place of a PRIV or RSH page. -/
def Loc.nonCoh : Loc → Bool
  | .phys a _ => a.nonCoh
  | .remote a _ _ => a.nonCoh
  | _ => false

/-- An earlier element must perform before a later one because they overlap (R126, R127): a thread's load may instead take its own
store's value, and a far atomic is not ordered with plain non-coherent accesses (R128, R140). -/
def overlapOrder (k1 k2 : AccKind) (e f : Elem) : Bool :=
  e.meets f && !(k1 = .store && !k2.isStore && e.thread = f.thread) &&
  !(k1.isAtomic ≠ k2.isAtomic && e.places.any Loc.nonCoh)

/-- The outstanding accesses, pending entries and Mend-log entries that come before the running fragment: what a release covers, and what the
reads of an engine operation that it issues follow (R129, R131, R142). -/
def State.priorIds (s : State) (m : Me) : List Nat :=
  (s.covered m).map Acc.id ++ m.pendings.map QEntry.id ++ (s.mends m.sid).map Mend.id

/-- An acquire that comes before the running fragment has not performed: no access may follow it yet (R126, R129). -/
def State.acqHeld (s : State) (m : Me) : Bool :=
  s.accs.any (fun a => a.acq && m.after a && !a.over) || (s.mends m.sid).any (fun e => e.acq && lineBefore e.lin m.line)

/-- What acts at once on some places may do so (R119, R126): no acquire before it is outstanding, and no access before it, performed or
logged, reaches the places; with `fwd` it takes the values of the stores before it, which do not hold it (R127). -/
def State.clear (s : State) (m : Me) (fwd : Bool) (es : List Elem) : Bool :=
  !s.acqHeld m &&
  s.accs.all (fun a => !m.after a || (fwd && a.kind = .store) || a.elems.all (fun e => e.done || es.all (fun f => !e.meets f))) &&
  m.pendings.all (fun q => match q.pend with
    | some p => p.fetches.all (fun x => es.all (fun f => f.places.all (fun l => match l with
      | .shared _ _ => true
      | .pipe _ _ => true
      | _ => !mayAlias x.va.toNat x.size f.va.toNat f.locs.length)))
    | none => true) &&
  (s.mends m.sid).all (fun e => es.all (fun f => f.places.all (fun l => match l with
    | .shared _ _ => true
    | .pipe _ _ => true
    | _ => decide (e.line.toNat / 256 ≠ f.va.toNat / 256))))

/-- The byte of the thread's own latest earlier store to a place that has not performed (R127). -/
def State.forward (s : State) (a : Acc) (t : Nat) (l : Loc) : Option Byte :=
  let cand := s.accs.filter (fun x => decide (x.id < a.id) && decide (x.strand = a.strand) && x.kind = .store && lineBefore x.line a.line)
  (cand.filterMap (fun x => (x.elems.find? (fun e => decide (e.thread = t) && !e.done && e.places.contains l)).bind (fun e =>
    (e.locs.findIdx? (fun y => y = some l)).map (fun i => e.val.extractLsb' (8 * i) 8)))).getLast?

/-- The byte that a load of an access takes at a place: the thread's own store, what a packet brought, or what the core reads. -/
def State.loadByte (s : State) (a : Acc) (t : Nat) (l : Loc) : Byte :=
  match s.forward a t l with
  | some b => b
  | none =>
    match l with
    | .remote _ dev pa => let b := a.buf.get (remKey dev pa); if b ≠ 0 then b.truncate 8 else s.readByte a.strand.wg.core l
    | l => s.readByte a.strand.wg.core l

/-- The device holds a COHF line as a reader, or with `own` as a writer, needs it (R361): one that it has supplied and that the directory has
not confirmed it may read if the request was a GETS. A line of its own is at hand where no other device shares a partition with it (log
88). -/
def State.cohReady (s : State) (l : FabLine) : Bool :=
  let line := remKey l.dev l.pa / 256
  (decide (l.dev = s.fabric.device) && s.fabric.peers.isEmpty) ||
  (s.fabric.supplied.all (fun k => k.1 ≠ line || (!l.own && decide (k.2.1 = .gets)))) &&
  (match s.fabric.lines.find line with
   | some .m => true
   | some .e => true
   | some .i => false
   | some _ => !l.own
   | none => false)

/-- The device holds the COHF lines of an access, and its packets to DEV pages are answered (R353, R361). -/
def State.linesReady (s : State) (ls : List FabLine) : Bool := ls.all (fun l => l.done || (!l.one && s.cohReady l))

/-- A place lies on a line of a device: on another device's, or on a COHF page of this one. -/
def State.onLine (s : State) (k : FabLine) (l : Loc) : Bool :=
  match l with
  | .remote _ dev pa => k.dev = dev && decide (k.pa ≤ pa) && decide (pa < k.pa + k.len)
  | .phys .cohf pa => k.dev = s.fabric.device && decide (k.pa ≤ pa) && decide (pa < k.pa + k.len)
  | _ => false

/-- What an access must have of other devices and of the directory, by element (R353, R360): a packet for each element of a DEV page, and each
COHF line once. -/
def State.linesOf (s : State) (own : Bool) (es : List (List Loc)) : List FabLine :=
  let add (ls : List FabLine) (dev pa : Nat) : List FabLine :=
    let k : FabLine := ⟨dev, pa / 256 * 256, 256, false, own, false, false⟩
    if ls.contains k then ls else ls ++ [k]
  es.foldl (fun ls e => match e.head? with
    | some (.remote .dev dev pa) => ls ++ [⟨dev, pa, e.length, true, false, false, false⟩]
    | _ => e.foldl (fun ls l => match l with
      | .remote _ dev pa => add ls dev pa
      | .phys .cohf pa => if isReg pa then ls else add ls s.fabric.device pa
      | _ => ls) ls) []

end Sys2Proof.Machine
end

