-- ==== Sys2Proof/Machine/Operands.lean ====
section
/-!
DEFINITION. Machine/Operands.lean: reading sources and writing destinations of main-map instructions (R152 to R155, R172, R173),
and the one driver of every vector instruction of both slices: the checks of R164 in their order, queue operands (R48 to R52),
repeats (R54, R159), latches (R39 to R41) and the full predication of R31.
-/
namespace Sys2Proof.Machine
open Sys2Proof

/-- Which increment bit of a prefix applies to a source (Table 9.6). -/
inductive IncPos where
  | d | a | b | none
deriving DecidableEq, Repr

/-- The increment bit of a position. -/
def IncPos.on (i : IncPos) (p : Option Pfx) : Bool :=
  let r := repInc p
  match i with | .d => r.1 | .a => r.2.1 | .b => r.2.2 | .none => false

/-- A source position: its selector, its increment position and the type it is read at. -/
structure Src where
  sel : Sel
  inc : IncPos
  ty  : ETy
deriving DecidableEq, Repr

/-- Where a vector instruction's result goes: a destination selector with N, an s register with N, a queue tail with a channel and
a tag (ENQ), or nowhere. -/
inductive Dst where
  | sel (d : Sel) (n : Bool) (ty : ETy)
  | sreg (d : Nat) (n : Bool) (ty : ETy)
  | enq (q : Nat) (ch : Option Nat) (tag : BitVec 2) (ty : ETy)
  | none
deriving DecidableEq, Repr

/-- What an instruction computes from: rounding environment, effective type, EM, the source values by position and thread, the
strand after its pops, and the state with the issuing strand. -/
structure VIn where
  env : REnv
  ty  : ETy
  em  : TMask
  src : Nat → Nat → Nat
  st  : Strand
  s   : State
  m   : Me

/-- What it computes: the results of active threads, flags, the stepped stochastic states and masks written. -/
structure VOut where
  vals  : List (Nat × Nat)
  flags : BitVec 6
  srs   : List (Nat × W32)
  masks : List (Nat × TMask)

/-- A vector instruction for the driver: prefix, length, slice, acceptance of the effective type, sources and destination at
that type, and the computation; `pre` makes an instruction's own checks of step 6 for an iteration (R164), and `post` what an
iteration does beside its destination. -/
structure Vec where
  pfx  : Option Pfx
  lit  : W32
  len  : Nat
  exec : Bool
  ok   : ETy → Bool
  srcs : ETy → List Src
  dst  : ETy → Dst
  run  : VIn → VOut
  pre  : State → Me → ETy → Nat → Option TrapCode := fun _ _ _ _ => Option.none
  post : State → Me → ETy → Nat → VOut → State := fun s _ _ _ _ => s

/-! ### Positions -/

/-- A strand's register at a type (R172): the v register or even/odd pair, or the x register. -/
def Strand.regVal (st : Strand) (access : Bool) (ty : ETy) (n t : Nat) : Nat :=
  if access then (st.xGet n t).toNat % 2 ^ ty.bits
  else if ty.is64 then (st.vGet n t).toNat + (st.vGet (n + 1) t).toNat * 2 ^ 32
  else (st.vGet n t).toNat

/-- A source value of a thread, queues apart (R172). -/
def Strand.selVal (st : Strand) (access : Bool) (ty : ETy) (lit : W32) (s : Sel) (t : Nat) : Nat :=
  match s with
  | .reg n => st.regVal access ty n.toNat t
  | .s n => (st.sGet n.toNat).toNat % 2 ^ ty.bits
  | .latch n => (st.latchGet n.toNat t).toNat % 2 ^ ty.bits
  | .const n => (ty.const n.toNat).getD 0
  | .lit => ty.lit lit
  | .queue _ => 0

/-- Write a register of a thread with a result of a type (R173). -/
def Strand.regSet (st : Strand) (access : Bool) (ty : ETy) (n t x : Nat) : Strand :=
  if access then st.xSet n t (ty.extend x)
  else if ty.is64 then (st.vSet n t (BitVec.ofNat 32 x)).vSet (n + 1) t (BitVec.ofNat 32 (x / 2 ^ 32))
  else st.vSet n t (BitVec.ofNat 32 x)

/-- Write a register in every thread of a list of results. -/
def Strand.regSets (st : Strand) (access : Bool) (ty : ETy) (n : Nat) (vals : List (Nat × Nat)) : Strand :=
  vals.foldl (fun st p => st.regSet access ty n p.1 p.2) st

/-- The word lists that a push of results writes: low words, and high words for a 64-bit type (R48, R50). -/
def pushLists (ty : ETy) (vals : List (Nat × Nat)) : List (List W32) :=
  let word (k t : Nat) : W32 := BitVec.ofNat 32 (((vals.find? (fun p => p.1 = t)).map Prod.snd).getD 0 / 2 ^ (32 * k))
  if ty.is64 then [threads.map (word 0), threads.map (word 1)] else [threads.map (word 0)]

/-! ### Queue operands -/

/-- The queue that a destination pushes to. -/
def Dst.queueNum : Dst → Option Nat
  | .sel d _ _ => d.queueNum
  | .enq q _ _ _ => some q
  | _ => Option.none

/-- The channel that a destination pushes to: the one ENQ names, or the strand's default (R48). -/
def Dst.channel (d : Dst) (q : Queue) (i : Nat) : Nat :=
  match d with
  | .enq _ (some c) _ _ => c
  | _ => q.channel i

/-- The tag of a push (R47). -/
def Dst.tag : Dst → BitVec 2
  | .enq _ _ tag _ => tag
  | _ => 0

/-- The type of what a destination receives. -/
def Dst.ty : Dst → ETy
  | .sel _ _ ty => ty
  | .sreg _ _ ty => ty
  | .enq _ _ _ ty => ty
  | .none => .i32

/-- The instruction names a queue, so it is yield-class (R38). -/
def Vec.yields (v : Vec) (ty : ETy) : Bool := (v.srcs ty).any (fun s => s.sel.isQueue) || (v.dst ty).queueNum.isSome

/-- The distinct queues that the sources name, in order, with how many entries each pops (R49, R50). -/
def Vec.pops (v : Vec) (ty : ETy) : List (Nat × Nat) :=
  (v.srcs ty).foldl (fun l s => match s.sel.queueNum with
    | some n => if l.any (fun p => p.1 = n) then l else l ++ [(n, if s.ty.is64 then 2 else 1)]
    | none => l) []

/-- How many entries a destination pushes. -/
def Dst.pushCount : Dst → Nat
  | .sel _ _ ty => if ty.is64 then 2 else 1
  | .enq _ _ _ ty => if ty.is64 then 2 else 1
  | _ => 0

/-- Every queue named is declared (R52, step 3 of R164). -/
def Me.declared (m : Me) (ns : List Nat) : Bool := ns.all (fun n => (m.queue n).isSome)

/-- A strand pops at the consuming end and pushes at the producing end (R52). -/
def Me.directionOk (m : Me) (pops pushes : List Nat) : Bool :=
  pops.all (fun n => match m.queue n with | some q => decide (q.decl.kind.consumer = m.sid.slice) | none => true) &&
  pushes.all (fun n => match m.queue n with | some q => decide (q.decl.kind.producer = m.sid.slice) | none => true)

/-- What the pops of an instruction find together (R49): they wait, meet POISON, or each delivers. -/
inductive Popped where
  | wait
  | poison (r : Option FaultRec)
  | ok (l : List (Nat × List W32 × List W32 × BitVec 2 × Nat))

/-- The pops of an instruction, all or none (R49, R58). -/
def State.popAll (s : State) (m : Me) (pops : List (Nat × Nat)) : Popped :=
  let rs := pops.map (fun p => (p.1, match m.queue p.1 with | some q => s.popRes m.sid.wg m.sid.idx q p.2 | none => PopRes.wait))
  if rs.any (fun r => r.2 = .wait) then .wait
  else
    match rs.findSome? (fun r => match r.2 with | .poison f => some f | _ => none) with
    | some f => .poison f
    | none => .ok (rs.filterMap (fun r => match r.2 with | .ok lo hi tag k => some (r.1, lo, hi, tag, k) | _ => none))

/-- FAR_FAULT at a pop (R58): the record names what the POISON entry keeps. -/
def State.farFault (s : State) (m : Me) (r : Option FaultRec) : State :=
  s.trap m { code := .farFault, rec_ := r.map (fun r => { r with code := 0x03 }) }

/-! ### The driver -/

/-- The number of iterations left, and the one that comes next (R159). -/
def Me.startAt (m : Me) (total : Nat) : Nat := if total > 1 && 0 < m.f.rc then min m.f.rc total else total

/-- Keep RC while a repeated instruction is under way. -/
def State.keepRc (s : State) (m : Me) (total left : Nat) : State := if total > 1 then s.setRc m left else s

/-- What the results of iteration `j` write into the strand: the flags, SRS, the masks, the destination register or s register and the
latches (R39, R73, R159, R173). -/
def Vec.write (v : Vec) (acc : Bool) (ty : ETy) (j : Nat) (o : VOut) (st : Strand) : Strand :=
  let st := { st with flags := st.flags ||| o.flags, srs := SMap.sets st.srs o.srs, k := SMap.sets st.k o.masks }
  match v.dst ty with
  | .none => st
  | .enq _ _ _ _ => st
  | .sel (.reg n) noWrite dt =>
    let st := if noWrite then st else
      (match Sel.adv acc (.reg n) dt (IncPos.d.on v.pfx) j with
       | .reg n' => st.regSets acc dt n'.toNat o.vals
       | _ => st)
    if v.yields ty then st else st.latch (o.vals.map (fun p => (p.1, BitVec.ofNat 64 p.2)))
  | .sel _ _ _ => st
  | .sreg d noWrite dt =>
    let x : W64 := match o.vals with | (_, x) :: _ => dt.extend x | [] => 0
    let st := if noWrite then st else st.sSet d x
    if v.yields ty then st else st.latch (o.vals.map (fun p => (p.1, x)))

/-- Deliver the results of one iteration to the strand and to the queue that the destination names (R48, R173). -/
def State.deliver (s : State) (m : Me) (v : Vec) (ty : ETy) (j : Nat) (o : VOut) : State :=
  let s := s.updStrand m.sid (v.write m.access ty j o)
  match (v.dst ty).queueNum with
  | some q =>
    match m.queue q with
    | some qu => s.pushWords m q ((v.dst ty).channel qu m.sid.idx) (v.dst ty).tag (pushLists (v.dst ty).ty o.vals)
    | none => s
  | none => s

/-- What an iteration has popped, by queue: its low and high words, its tag and how many entries. -/
abbrev PoppedWords := List (Nat × List W32 × List W32 × BitVec 2 × Nat)

/-- The value of source `i` in a thread at iteration `j` (R172): the popped words of a queue, in active threads, or what the selector
reads. -/
def Vec.source (v : Vec) (m : Me) (st : Strand) (ty : ETy) (j : Nat) (got : PoppedWords) (i t : Nat) : Nat :=
  match (v.srcs ty)[i]? with
  | none => 0
  | some x =>
    match x.sel.queueNum with
    | some n =>
      if TMask.has m.em t then
        (match got.find? (fun g => g.1 = n) with
         | some (_, lo, hi, _, _) =>
           (((lo[t]?).getD 0).toNat + (if x.ty.is64 then ((hi[t]?).getD 0).toNat * 2 ^ 32 else 0)) % 2 ^ x.ty.bits
         | none => 0)
      else 0
    | none => st.selVal m.access x.ty v.lit (x.sel.adv m.access x.ty (x.inc.on v.pfx) j) t

/-- What an iteration computes from. -/
def Vec.input (v : Vec) (s : State) (m : Me) (st : Strand) (ty : ETy) (j : Nat) (got : PoppedWords) : VIn :=
  { env := ⟨effRM v.pfx st.mode, effSat v.pfx st.mode, modeDnf st.mode, 0⟩, ty := ty, em := m.em, src := v.source m st ty j got, st := st,
    s := s, m := m }

/-- The outcome of one iteration: the instruction goes on, or it has blocked or trapped. -/
inductive Iter where
  | more (s : State)
  | stop (s : State)

/-- One iteration of a vector instruction with `left` iterations to go, this one included. -/
def Vec.iter (v : Vec) (s : State) (m : Me) (ty : ETy) (total left : Nat) : Iter :=
  let j := total - left
  let pops := v.pops ty
  let push : List (Nat × Nat × Nat) := match (v.dst ty).queueNum with
    | some n => ((m.queue n).map (fun q => (n, (v.dst ty).channel q m.sid.idx, (v.dst ty).pushCount))).toList
    | none => []
  let kept := s.keepRc m total left
  match v.pre s m ty j with
  | some c => .stop (kept.raise m c)
  | none =>
  if !s.queuesReady m.sid pops push then .stop (kept.block m (.queues pops push))
  else
    match s.popAll m pops with
    | .wait => .stop (kept.block m (.queues pops push))
    | .poison r => .stop (kept.farFault m r)
    | .ok got =>
      let s := got.foldl (fun s g => (s.popTake m g.1 g.2.2.2.2).setQt m g.2.2.2.1) s
      match s.strands.find m.sid with
      | none => .stop s
      | some st =>
        let o := v.run (v.input s m st ty j got)
        .more (v.post (s.deliver m v ty j o) m ty j o)

/-- The iterations that are left, in succession. -/
def Vec.iters (v : Vec) (ty : ETy) (total : Nat) : Nat → State → Iter
  | 0, s => .more s
  | n + 1, s =>
    match s.me with
    | none => .stop s
    | some m =>
      match v.iter s m ty total (n + 1) with
      | .stop s => .stop s
      | .more s => v.iters ty total n s

/-- The end of a vector instruction: RC is clear, the lane has been occupied, and a yield-class instruction is a yield point. -/
def State.finishVec (s : State) (m : Me) (yields : Bool) (clocks len : Nat) : State :=
  let s := ((s.setRc m 0).occupy m clocks).advance m len
  if yields then s.yieldPoint m else s

/-- Legality at step 3 of R164 that depends on the strand: slice, effective type, positions, declared queues. -/
def Vec.legalFor (v : Vec) (m : Me) (ty : ETy) (total : Nat) : Bool :=
  (!v.exec || !m.access) && v.ok ty &&
  (v.srcs ty).all (fun x => posOk m.access m.wg.vregs total (x.inc.on v.pfx) x.sel x.ty) &&
  (match v.dst ty with | .sel d _ dt => posOk m.access m.wg.vregs total (IncPos.d.on v.pfx) d dt | _ => true) &&
  m.declared ((v.pops ty).map Prod.fst ++ (v.dst ty).queueNum.toList) &&
  (match v.dst ty with
   | .enq q (some c) _ _ => (match m.queue q with | some qu => decide (c < qu.chans.length) | none => false)
   | _ => true)

/-- The x registers that an access strand's instruction reads or writes in its iterations. -/
def Vec.xUsed (v : Vec) (m : Me) (ty : ETy) (total : Nat) : List Nat :=
  if !m.access then []
  else
    let one (x : Sel) (ty : ETy) (inc : Bool) : List Nat := (upto total).filterMap (fun j => match x.adv true ty inc j with
      | .reg n => some n.toNat
      | _ => none)
    (v.srcs ty).flatMap (fun x => one x.sel x.ty (x.inc.on v.pfx)) ++
    (match v.dst ty with | .sel d _ dt => one d dt (IncPos.d.on v.pfx) | _ => [])

/-- Run a vector instruction (R31, R164); an access strand's stalls on an outstanding load of a register that it names (R116). -/
def Vec.exec_ (v : Vec) (s : State) (m : Me) : State :=
  let ty := effET v.pfx m.st.mode
  let total := repTotal v.pfx
  let yields := v.yields ty
  match (if yields then m.pending else none) with
  | some r => s.takePending m r
  | none =>
    if m.em = 0 then s.finishVec m yields total v.len
    else if !v.legalFor m ty total then s.raise m .illegal
    else if !m.directionOk ((v.pops ty).map Prod.fst) (v.dst ty).queueNum.toList then s.raise m .queueDirection
    else if s.xBusy m.sid (v.xUsed m ty total) then s
    else
      match v.iters ty total (m.startAt total) s with
      | .stop s => s
      | .more s => s.finishVec m yields (8 * total) v.len

/-- The meaning of a vector instruction. -/
def runVec (v : Vec) (s : State) : Out := asStrand s (fun m => v.exec_ s m)

/-- The meaning of a vector instruction whose computation reads the state. -/
def runVecOf (mk : Me → Vec) (s : State) : Out := asStrand s (fun m => (mk m).exec_ s m)

/-! ### Computations by thread -/

/-- The result of one thread: its value, flags and stochastic state. -/
structure TRes where
  val   : Nat
  flags : BitVec 6
  srs   : W32

/-- Apply a function to every active thread in ascending order; `f` receives the thread's SRS in the environment. -/
def VIn.lanes (i : VIn) (f : REnv → Nat → TRes) : VOut :=
  let rs := (TMask.list i.em).map (fun t => (t, f { i.env with srs := i.st.srs.get t } t))
  { vals := rs.map (fun r => (r.1, r.2.val)), flags := rs.foldl (fun a r => a ||| r.2.flags) 0,
    srs := if i.env.rm = .rst then rs.map (fun r => (r.1, r.2.srs)) else [], masks := [] }

/-- A value without flags or rounding. -/
def TRes.plain (x : Nat) (srs : W32) : TRes := ⟨x, 0, srs⟩

/-- Element by element in ascending order, each delivered rounding stepping SRS first under RST when `steps` (R75, R175). -/
def elemOp (ty : ETy) (steps : Bool) (e : REnv) (f : REnv → Nat → FRes) : TRes :=
  (upto ty.count).foldl (fun a j =>
    let srs := if steps && e.rm = .rst then srsStep a.srs else a.srs
    let r := f { e with srs := srs } j
    ⟨a.val + r.code % 2 ^ ty.width * 2 ^ (ty.width * j), a.flags ||| r.flags, srs⟩) ⟨0, 0, e.srs⟩

/-- A computation by element of the effective type from the sources' elements. -/
def byElem (steps : Bool) (f : REnv → ETy → (Nat → Nat) → FRes) (i : VIn) : VOut :=
  i.lanes (fun e t => elemOp i.ty steps e (fun e j => f e i.ty (fun p => i.ty.elem (i.src p t) j)))

/-- A computation on whole values of a thread, without flags. -/
def byThread (f : ETy → (Nat → Nat) → Nat) (i : VIn) : VOut :=
  i.lanes (fun e t => .plain (f i.ty (fun p => i.src p t) % 2 ^ i.ty.bits) e.srs)

/-! ### Forms -/

/-- An operation apart from its form: the types it accepts, whether it is execute-only, whether it reads D and at what type,
the types of its sources and its result, and the computation. With `readD` the old D is source 0. -/
structure VOp where
  exec  : Bool
  ok    : ETy → Bool
  readD : Bool
  dTy   : ETy → ETy
  sTy   : ETy → ETy
  rTy   : ETy → ETy
  run   : VIn → VOut

/-- An operation whose sources and result have the effective type. -/
def VOp.plain (exec : Bool) (ok : ETy → Bool) (run : VIn → VOut) : VOp :=
  { exec := exec, ok := ok, readD := false, dTy := id, sTy := id, rTy := id, run := run }

/-- The type that a source has: an inline constant takes the effective element type of the instruction, replicated (R155), whatever
type the instruction reads its other sources at (log entry 82). -/
def Sel.srcTy (x : Sel) (ty sty : ETy) : ETy := match x with | .const _ => ty | _ => sty

/-- The sources of an operation: D when it is read, then the others. -/
def VOp.srcs (op : VOp) (d : Sel) (l : List (Sel × IncPos)) (ty : ETy) : List Src :=
  (if op.readD then [⟨d, .d, op.dTy ty⟩] else []) ++ l.map (fun x => ⟨x.1, x.2, Sel.srcTy x.1 ty (op.sTy ty)⟩)

/-- An operation in any form, as a vector instruction. -/
def VOp.vec (op : VOp) (p : Option Pfx) (lit : W32) (len : Nat) (n : Bool) (d : Sel) (l : List (Sel × IncPos)) : Vec :=
  { pfx := p, lit := lit, len := pfxLen p len, exec := op.exec, ok := op.ok, srcs := op.srcs d l, dst := fun ty => .sel d n (op.rTy ty),
    run := op.run }

/-- An operation in any form. -/
def VOp.form (op : VOp) (p : Option Pfx) (lit : W32) (len : Nat) (n : Bool) (d : Sel) (l : List (Sel × IncPos)) (s : State) : Out :=
  runVec (op.vec p lit len n d l) s

/-- V3 with two sources, as a vector instruction. -/
def VOp.v3Vec (op : VOp) (p : Option Pfx) (o : V3) : Vec := op.vec p 0 4 o.n o.d [(o.a, .a), (o.b, .b)]
/-- V3 with one source. -/
def VOp.v3uVec (op : VOp) (p : Option Pfx) (o : V3u) : Vec := op.vec p 0 4 o.n o.d [(o.a, .a)]
/-- X1 with two sources. -/
def VOp.x1Vec (op : VOp) (p : Option Pfx) (o : X1) : Vec := op.vec p o.lit 8 false o.d [(o.a, .a), (o.b, .b)]
/-- X1 with one source. -/
def VOp.x1uVec (op : VOp) (p : Option Pfx) (o : X1u) : Vec := op.vec p o.lit 8 false o.d [(o.a, .a)]
/-- X2 with three sources. -/
def VOp.x2cVec (op : VOp) (p : Option Pfx) (o : X2c) : Vec := op.vec p 0 8 false o.d [(o.a, .a), (o.b, .b), (o.c, .none)]

/-- V3 with two sources. -/
def VOp.v3 (op : VOp) (p : Option Pfx) (o : V3) (s : State) : Out := runVec (op.v3Vec p o) s
/-- V3 with one source. -/
def VOp.v3u (op : VOp) (p : Option Pfx) (o : V3u) (s : State) : Out := runVec (op.v3uVec p o) s
/-- X1 with two sources. -/
def VOp.x1 (op : VOp) (p : Option Pfx) (o : X1) (s : State) : Out := runVec (op.x1Vec p o) s
/-- X1 with one source. -/
def VOp.x1u (op : VOp) (p : Option Pfx) (o : X1u) (s : State) : Out := runVec (op.x1uVec p o) s
/-- X2 with three sources. -/
def VOp.x2c (op : VOp) (p : Option Pfx) (o : X2c) (s : State) : Out := runVec (op.x2cVec p o) s

end Sys2Proof.Machine
end

