-- ==== Sys2Proof/Machine/IntVec.lean ====
section
/-!
DEFINITION. Machine/IntVec.lean: the integer and logic instructions 0x01 to 0x1F (R178 to R181, Table 10.4).
-/
namespace Sys2Proof.Machine
open Sys2Proof

/-- An integer operation by element on the exact readings; its result saturates when `sats` and saturation is on (R180). -/
def intOp (sats : Bool) (f : (Nat → Int) → Int) : VOp :=
  .plain false ETy.isInt (byElem false (fun e ty x => satResult ty (sats && e.sat) (f (fun p => ty.toInt (x p)))))

/-- An integer operation by element on codes and the element width, without flags. -/
def codeOp (f : Nat → (Nat → Nat) → Nat) : VOp :=
  .plain false ETy.isInt (byElem false (fun _ ty x => ⟨f ty.width x % 2 ^ ty.width, 0⟩))

/-- A bitwise operation on whole values; every type is accepted (class BITS). -/
def bitsOp (f : Nat → (Nat → Nat) → Nat) : VOp := .plain false (fun _ => true) (byThread (fun ty x => f ty.bits x))

/-- VADD: A + B. -/
def opVadd : VOp := intOp true (fun x => x 0 + x 1)
/-- VSUB: A − B. -/
def opVsub : VOp := intOp true (fun x => x 0 - x 1)
/-- VMUL: the low half of A × B. -/
def opVmul : VOp := intOp true (fun x => x 0 * x 1)
/-- VMULH: the high half of A × B. -/
def opVmulh : VOp :=
  .plain false ETy.isInt (byElem false (fun _ ty x => wrapResult ty (ty.toInt (x 0) * ty.toInt (x 1) / ((2 ^ ty.width : Nat) : Int))))
/-- VMAD: A × B + C. -/
def opVmad : VOp := intOp true (fun x => x 0 * x 1 + x 2)
/-- VNEG: 0 − A. -/
def opVneg : VOp := intOp true (fun x => 0 - x 0)
/-- VABS: |A|. -/
def opVabs : VOp := intOp true (fun x => ((x 0).natAbs : Int))
/-- VMIN. -/
def opVmin : VOp := intOp false (fun x => min (x 0) (x 1))
/-- VMAX. -/
def opVmax : VOp := intOp false (fun x => max (x 0) (x 1))
/-- VAVG: floor((A + B + 1) / 2). -/
def opVavg : VOp := intOp false (fun x => (x 0 + x 1 + 1) / 2)
/-- VSAD: the sum over elements of |A − B|, as an n32 word; its types are the 32-bit and packed integer types. -/
def opVsad : VOp :=
  { exec := false, ok := fun ty => ty.isInt && !ty.is64, readD := false, dTy := id, sTy := id, rTy := fun _ => .n32,
    run := byThread (fun ty x => (upto ty.count).foldl (fun a j =>
      a + (ty.toInt (ty.elem (x 0) j) - ty.toInt (ty.elem (x 1) j)).natAbs) 0) }
/-- VADDC: A + B + k7 with the carry to k7 (R179). -/
def opVaddc : VOp :=
  .plain false ETy.isW (fun i =>
    let k := i.st.kGet 7
    let full (t : Nat) : Nat := i.src 0 t + i.src 1 t + (if TMask.has k t then 1 else 0)
    let o := i.lanes (fun e t => .plain (full t % 2 ^ i.ty.bits) e.srs)
    { o with masks := [(7, maskOf (fun t => if TMask.has i.em t then decide (2 ^ i.ty.bits ≤ full t) else TMask.has k t))] })
/-- VAND. -/
def opVand : VOp := bitsOp (fun _ x => x 0 &&& x 1)
/-- VOR. -/
def opVor : VOp := bitsOp (fun _ x => x 0 ||| x 1)
/-- VXOR. -/
def opVxor : VOp := bitsOp (fun _ x => x 0 ^^^ x 1)
/-- VNOT. -/
def opVnot : VOp := bitsOp (fun w x => 2 ^ w - 1 - x 0)
/-- VSHL: A shifted left by B mod width. -/
def opVshl : VOp := codeOp (fun w x => x 0 * 2 ^ (x 1 % w))
/-- VSHR: A shifted right by B mod width, filled with zeros. -/
def opVshr : VOp := codeOp (fun w x => x 0 / 2 ^ (x 1 % w))
/-- VSRA: A shifted right by B mod width, filled with its sign bit. -/
def opVsra : VOp := codeOp (fun w x => shiftRightSigned w (x 0) (x 1 % w))
/-- VROT: A rotated left by B mod width. -/
def opVrot : VOp := codeOp (fun w x => rotLeft w (x 0) (x 1))
/-- VPOPC. -/
def opVpopc : VOp := codeOp (fun w x => popCount w (x 0))
/-- VCLZ. -/
def opVclz : VOp := codeOp (fun w x => leadZeros w (x 0))
/-- VBREV. -/
def opVbrev : VOp := codeOp (fun w x => revBits w (x 0))
/-- VMOV. -/
def opVmov : VOp := bitsOp (fun _ x => x 0)
/-- VDIV (R81). -/
def opVdiv : VOp := .plain false ETy.isInt (byElem false (fun e ty x => divCode ty.signed ty.width e.sat (x 0) (x 1)))
/-- VREM (R81). -/
def opVrem : VOp := .plain false ETy.isInt (byElem false (fun _ ty x => remCode ty.signed ty.width (x 0) (x 1)))
/-- VCLAMP: min(max(A, B), C). -/
def opVclamp : VOp := intOp false (fun x => min (max (x 0) (x 1)) (x 2))

/-- A bit field's end lies within the width (R178); the field `len` holds LEN − 1. -/
def fieldOk (pos len : BitVec 6) (ty : ETy) : Bool := ty.isW && decide (pos.toNat + (len.toNat + 1) ≤ ty.width)

/-- VBFX: bits [POS+LEN−1:POS] of A, extended by zero or by sign. -/
def opVbfx (sx : Bool) (pos len : BitVec 6) : VOp :=
  .plain false (fieldOk pos len) (byThread (fun ty x =>
    let n := len.toNat + 1
    let v := x 0 / 2 ^ pos.toNat % 2 ^ n
    if sx then ofSigned ty.width (toSigned n v) else v))

/-- VBFI: B with bits [POS+LEN−1:POS] replaced by the low LEN bits of A. -/
def opVbfi (pos len : BitVec 6) : VOp :=
  .plain false (fieldOk pos len) (byThread (fun _ x =>
    let n := len.toNat + 1
    let lo := pos.toNat
    x 1 % 2 ^ lo + x 0 % 2 ^ n * 2 ^ lo + x 1 / 2 ^ (lo + n) * 2 ^ (lo + n)))

/-- VSEL: A where bit t of kN is 1, B where it is 0. -/
def opVsel (k : BitVec 3) : VOp :=
  .plain false (fun _ => true) (fun i =>
    let m := i.st.kGet k.toNat
    i.lanes (fun e t => .plain (i.src (if TMask.has m t then 0 else 1) t) e.srs))

/-- A comparison that writes a mask: bits of inactive threads become 0 (R181, R192). `f` gives each active thread's truth and
flags. -/
def cmpRun (k : BitVec 3) (f : VIn → Nat → Bool × BitVec 6) (i : VIn) : VOut :=
  let rs := (TMask.list i.em).map (fun t => (t, f i t))
  { vals := [], flags := rs.foldl (fun a r => a ||| r.2.2) 0, srs := [],
    masks := [(k.toNat, maskOf (fun t => rs.any (fun r => r.1 = t && r.2.1)))] }

/-- A comparison in either form, as a vector instruction. -/
def cmpVec (exec : Bool) (ok : ETy → Bool) (p : Option Pfx) (lit : W32) (len : Nat) (a b : Sel) (run : VIn → VOut) : Vec :=
  { pfx := p, lit := lit, len := pfxLen p len, exec := exec, ok := ok, srcs := fun ty => [⟨a, .a, ty⟩, ⟨b, .b, ty⟩],
    dst := fun _ => .none, run := run }

/-- A comparison in either form. -/
def cmpForm (exec : Bool) (ok : ETy → Bool) (p : Option Pfx) (lit : W32) (len : Nat) (a b : Sel) (run : VIn → VOut) (s : State) : Out :=
  runVec (cmpVec exec ok p lit len a b run) s

/-- VCMP: the condition on the two values of a thread (R181). -/
def vcmpRun (c : Cond) (k : BitVec 3) : VIn → VOut :=
  cmpRun k (fun i t => (c.holds (i.ty.toInt (i.src 0 t)) (i.ty.toInt (i.src 1 t)) (i.src 0 t) (i.src 1 t), 0))

def execVadd (p : Option Pfx) (o : V3) (s : State) : Out := opVadd.v3 p o s
def execVaddX1 (p : Option Pfx) (o : X1) (s : State) : Out := opVadd.x1 p o s
def execVsub (p : Option Pfx) (o : V3) (s : State) : Out := opVsub.v3 p o s
def execVsubX1 (p : Option Pfx) (o : X1) (s : State) : Out := opVsub.x1 p o s
def execVmul (p : Option Pfx) (o : V3) (s : State) : Out := opVmul.v3 p o s
def execVmulX1 (p : Option Pfx) (o : X1) (s : State) : Out := opVmul.x1 p o s
def execVmulh (p : Option Pfx) (o : V3) (s : State) : Out := opVmulh.v3 p o s
def execVmulhX1 (p : Option Pfx) (o : X1) (s : State) : Out := opVmulh.x1 p o s
def execVmad (p : Option Pfx) (o : X2c) (s : State) : Out := opVmad.x2c p o s
def execVneg (p : Option Pfx) (o : V3u) (s : State) : Out := opVneg.v3u p o s
def execVnegX1 (p : Option Pfx) (o : X1u) (s : State) : Out := opVneg.x1u p o s
def execVabs (p : Option Pfx) (o : V3u) (s : State) : Out := opVabs.v3u p o s
def execVabsX1 (p : Option Pfx) (o : X1u) (s : State) : Out := opVabs.x1u p o s
def execVmin (p : Option Pfx) (o : V3) (s : State) : Out := opVmin.v3 p o s
def execVminX1 (p : Option Pfx) (o : X1) (s : State) : Out := opVmin.x1 p o s
def execVmax (p : Option Pfx) (o : V3) (s : State) : Out := opVmax.v3 p o s
def execVmaxX1 (p : Option Pfx) (o : X1) (s : State) : Out := opVmax.x1 p o s
def execVavg (p : Option Pfx) (o : V3) (s : State) : Out := opVavg.v3 p o s
def execVavgX1 (p : Option Pfx) (o : X1) (s : State) : Out := opVavg.x1 p o s
def execVsad (p : Option Pfx) (o : V3) (s : State) : Out := opVsad.v3 p o s
def execVsadX1 (p : Option Pfx) (o : X1) (s : State) : Out := opVsad.x1 p o s
def execVaddc (p : Option Pfx) (o : V3) (s : State) : Out := opVaddc.v3 p o s
def execVaddcX1 (p : Option Pfx) (o : X1) (s : State) : Out := opVaddc.x1 p o s
def execVand (p : Option Pfx) (o : V3) (s : State) : Out := opVand.v3 p o s
def execVandX1 (p : Option Pfx) (o : X1) (s : State) : Out := opVand.x1 p o s
def execVor (p : Option Pfx) (o : V3) (s : State) : Out := opVor.v3 p o s
def execVorX1 (p : Option Pfx) (o : X1) (s : State) : Out := opVor.x1 p o s
def execVxor (p : Option Pfx) (o : V3) (s : State) : Out := opVxor.v3 p o s
def execVxorX1 (p : Option Pfx) (o : X1) (s : State) : Out := opVxor.x1 p o s
def execVnot (p : Option Pfx) (o : V3u) (s : State) : Out := opVnot.v3u p o s
def execVnotX1 (p : Option Pfx) (o : X1u) (s : State) : Out := opVnot.x1u p o s
def execVshl (p : Option Pfx) (o : V3) (s : State) : Out := opVshl.v3 p o s
def execVshlX1 (p : Option Pfx) (o : X1) (s : State) : Out := opVshl.x1 p o s
def execVshr (p : Option Pfx) (o : V3) (s : State) : Out := opVshr.v3 p o s
def execVshrX1 (p : Option Pfx) (o : X1) (s : State) : Out := opVshr.x1 p o s
def execVsra (p : Option Pfx) (o : V3) (s : State) : Out := opVsra.v3 p o s
def execVsraX1 (p : Option Pfx) (o : X1) (s : State) : Out := opVsra.x1 p o s
def execVrot (p : Option Pfx) (o : V3) (s : State) : Out := opVrot.v3 p o s
def execVrotX1 (p : Option Pfx) (o : X1) (s : State) : Out := opVrot.x1 p o s
def execVpopc (p : Option Pfx) (o : V3u) (s : State) : Out := opVpopc.v3u p o s
def execVclz (p : Option Pfx) (o : V3u) (s : State) : Out := opVclz.v3u p o s
def execVbrev (p : Option Pfx) (o : V3u) (s : State) : Out := opVbrev.v3u p o s
def execVbfx (p : Option Pfx) (d a : Sel) (sx : Bool) (pos len : BitVec 6) (s : State) : Out :=
  (opVbfx sx pos len).form p 0 8 false d [(a, .a)] s
def execVbfi (p : Option Pfx) (d a b : Sel) (pos len : BitVec 6) (s : State) : Out :=
  (opVbfi pos len).form p 0 8 false d [(a, .a), (b, .b)] s
def execVsel (p : Option Pfx) (d a b : Sel) (k : BitVec 3) (s : State) : Out :=
  (opVsel k).form p 0 8 false d [(a, .a), (b, .b)] s
def execVmov (p : Option Pfx) (o : V3u) (s : State) : Out := opVmov.v3u p o s
def execVmovX1 (p : Option Pfx) (o : X1u) (s : State) : Out := opVmov.x1u p o s
def execVdiv (p : Option Pfx) (o : V3) (s : State) : Out := opVdiv.v3 p o s
def execVdivX1 (p : Option Pfx) (o : X1) (s : State) : Out := opVdiv.x1 p o s
def execVrem (p : Option Pfx) (o : V3) (s : State) : Out := opVrem.v3 p o s
def execVremX1 (p : Option Pfx) (o : X1) (s : State) : Out := opVrem.x1 p o s
def execVcmp (p : Option Pfx) (c : Cond) (k : BitVec 3) (a b : Sel) (s : State) : Out :=
  cmpForm false ETy.isW p 0 4 a b (vcmpRun c k) s
def execVcmpX1 (p : Option Pfx) (c : Cond) (k : BitVec 3) (a b : Sel) (lit : W32) (s : State) : Out :=
  cmpForm false ETy.isW p lit 8 a b (vcmpRun c k) s
def execVclamp (p : Option Pfx) (o : X2c) (s : State) : Out := opVclamp.x2c p o s

end Sys2Proof.Machine
end

