-- ==== Sys2Proof/Machine/Transc.lean ====
section
/-!
DEFINITION. Machine/Transc.lean: the approximate operations (R188, R189). The exact result is enclosed in a fixed-point interval
of 256 fraction bits; a delivered value is the implementation's own where it meets the bound of Table 10.9 and the value
rounded by RNE otherwise (log 21). The special operands of Table 10.10 give their listed results.
-/
namespace Sys2Proof

/-- One in fixed point. -/
def fxOne : Nat := 2 ^ 256
/-- ln 2 in fixed point, rounded down. -/
def fxLn2 : Nat := 0xb17217f7d1cf79abc9e3b39803f2f6af40f343267298b62d8a0d175b8baafa2b
/-- log2 e in fixed point, rounded down. -/
def fxLog2e : Nat := 0x171547652b82fe1777d0ffda0d23a7d11d6aef551bad2b4b1164a2cd9a342648f
/-- π in fixed point, rounded down. -/
def fxPi : Nat := 0x3243f6a8885a308d313198a2e03707344a4093822299f31d0082efa98ec4e6c89
/-- A bound on the error of every evaluation below, in units of 2^−256. -/
def fxSlack : Nat := 2 ^ 40

/-- Fixed-point product. -/
def fxMul (a b : Nat) : Nat := a * b / fxOne

/-- Σ t^k / k! from a term on, `n` more terms: `term` is the current term and `k` its index. -/
def fxExpSum (t : Nat) : Nat → Nat → Nat → Nat
  | 0, _, _ => 0
  | n + 1, term, k => term + fxExpSum t n (fxMul term t / (k + 1)) (k + 1)

/-- e^t for 0 ≤ t < 1. -/
def fxExp (t : Nat) : Nat := fxExpSum t 70 fxOne 0

/-- The alternating series of sine and cosine: Σ (−1)^j t^(k+2j) / (k+2j)!. -/
def fxTrigSum (t2 : Nat) : Nat → Nat → Nat → Int
  | 0, _, _ => 0
  | n + 1, term, k => (term : Int) - fxTrigSum t2 n (fxMul term t2 / ((k + 1) * (k + 2))) (k + 2)

/-- sin t for 0 ≤ t ≤ 2. -/
def fxSin (t : Nat) : Nat := (fxTrigSum (fxMul t t) 45 t 1).toNat
/-- cos t for 0 ≤ t ≤ 2. -/
def fxCos (t : Nat) : Nat := (fxTrigSum (fxMul t t) 45 fxOne 0).toNat

/-- Σ s^(2k+1) / (2k+1) from a power on. -/
def fxAtanhSum (s2 : Nat) : Nat → Nat → Nat → Nat
  | 0, _, _ => 0
  | n + 1, pw, k => pw / k + fxAtanhSum s2 n (fxMul pw s2) (k + 2)

/-- An enclosed exact magnitude: between lo and hi times 2^exp. -/
structure Encl where
  lo  : Nat
  hi  : Nat
  exp : Int
deriving DecidableEq, Repr

/-- The enclosure of a fixed-point value. -/
def Encl.ofFx (v : Nat) (exp : Int) : Encl := ⟨v - fxSlack, v + fxSlack, exp - 256⟩

/-- man × 2^exp in fixed point, truncated; for values below 2^12. -/
def fxOf (m : Nat) (x : Int) : Nat := if -256 ≤ x then m * 2 ^ (x + 256).toNat else m / 2 ^ (-256 - x).toNat

/-- 2^(±v) for a fixed-point v below 2^12. -/
def enclExp2 (neg : Bool) (v : Nat) : Encl :=
  let i := v / fxOne
  let fr := v % fxOne
  let up := neg && fr ≠ 0
  let f := if up then fxOne - fr else fr
  let k : Int := if neg then -(i : Int) - (if up then 1 else 0) else i
  Encl.ofFx (fxExp (fxMul f fxLn2)) k

/-- The sign and enclosure of log2 of m × 2^x. -/
def enclLog2 (m : Nat) (x : Int) : Bool × Encl :=
  let l := m.log2
  let k : Int := x + l
  let f := fxOf m (-(l : Int))
  let s := (f - fxOne) * fxOne / (f + fxOne)
  let at_ := fxAtanhSum (fxMul s s) 90 s 1
  let lg : Int := (fxMul (2 * at_) fxLog2e : Nat)
  let v : Int := k * (fxOne : Nat) + lg
  (decide (v < 0), Encl.ofFx v.natAbs 0)

/-- The sign and enclosure of the sine (or cosine) of r quarter turns past quadrant q, 0 ≤ r < 1. -/
def enclTrig (cosine : Bool) (q : Nat) (r : Nat) : Bool × Encl :=
  let t := fxMul r (fxPi / 2)
  let q := (if cosine then q + 1 else q) % 4
  (decide (2 ≤ q), Encl.ofFx (if q % 2 = 0 then fxSin t else fxCos t) 0)

/-- The enclosure of tanh v for a fixed-point v. -/
def enclTanh (v : Nat) : Encl :=
  if 128 * fxOne ≤ v then ⟨fxOne - fxSlack, fxOne, -256⟩
  else
    let w := fxMul (2 * v) fxLog2e
    let i := w / fxOne
    let e := fxExp (fxMul (w % fxOne) fxLn2) * 2 ^ i
    let q := (e - fxOne) * fxOne / (e + fxOne)
    Encl.ofFx q 0

/-- The candidate lies within `k` ulps of every value of the enclosure (Table 10.9); with `absExp` the bound is 2^absExp. -/
def withinUlps (f : Fmt) (k : Nat) (absExp : Option Int) (c : FV) (neg : Bool) (y : Encl) : Bool :=
  let ue : Int := match absExp with
    | some a => a
    | none => max ((y.lo.log2 : Int) + y.exp - f.frac) f.minExp
  let ok (m : Nat) (x : Int) (sameSign : Bool) : Bool :=
    let e := min (min x y.exp) ue
    let c : Int := ((m * 2 ^ (x - e).toNat : Nat) : Int)
    let c := if sameSign then c else -c
    let lo : Int := ((y.lo * 2 ^ (y.exp - e).toNat : Nat) : Int)
    let hi : Int := ((y.hi * 2 ^ (y.exp - e).toNat : Nat) : Int)
    let u : Int := ((k * 2 ^ (ue - e).toNat : Nat) : Int)
    decide (hi - u ≤ c) && decide (c ≤ lo + u)
  match c with
  | .fin n m x => ok m x (n = neg)
  | .zero _ => ok 0 0 true
  | _ => false

/-- Deliver an approximate result (R188): OF, UF and IX by the delivered value. `bound` is none where the result is correctly
rounded by RNE. `exact` says whether a code equals the exact result. -/
def approxDeliver (f : Fmt) (op : Nat) (sat dnf : Bool) (operand : Nat) (bound : Option (Nat × Option Int)) (neg : Bool)
    (y : Encl) (isExact : Nat → Bool) : FRes :=
  let r := f.deliver ⟨.rne, sat, false, 0⟩ neg ⟨y.lo, y.exp, true⟩
  if r.flags &&& flOF ≠ 0 then r
  else
    let cand := Config.approx op f.width operand % 2 ^ f.width
    let c := match bound with
      | none => r.code
      | some (k, a) => if withinUlps f k a (f.decode cand) neg y then cand else r.code
    if isExact c then ⟨c, 0⟩
    else
      let small := f.isSubnormal c || (f.decode c).isZero
      if dnf && f.isSubnormal c then ⟨f.zeroCode neg, flUF ||| flIX⟩
      else ⟨c, flIX ||| flagIf small flUF⟩

/-- The approximate operations, with their numbers for `Config.approx`. -/
inductive AppOp where
  | rcp | rsq | exp2 | log2 | sin | cos | tanh
deriving DecidableEq, Repr

/-- The number of an approximate operation. -/
def AppOp.num : AppOp → Nat
  | .rcp => 0 | .rsq => 1 | .exp2 => 2 | .log2 => 3 | .sin => 4 | .cos => 5 | .tanh => 6

/-- The bound in ulps of Table 10.9; none where the table says correctly rounded. -/
def AppOp.ulps (o : AppOp) (f : Fmt) : Option Nat :=
  let half := f = .f16 || f = .bf16
  match o with
  | .rcp => if half then none else some 1
  | .rsq => if half then none else some 1
  | _ => some (if half then 1 else 2)

/-- ± one. -/
def Fmt.oneCode (f : Fmt) (neg : Bool) : Nat := f.signBit neg + f.bias * 2 ^ f.frac

/-- An approximate operation on an element code (R188, R189). -/
def fApprox (o : AppOp) (f : Fmt) (sat dnf : Bool) (code : Nat) : FRes :=
  let bound := (o.ulps f).map (fun k => (k, (none : Option Int)))
  let go := approxDeliver f o.num sat dnf code bound
  let never : Nat → Bool := fun _ => false
  match o, f.read dnf code with
  | _, .nan s => f.nanRes s
  | .rcp, .zero n => ⟨f.infCode n, flDZ⟩
  | .rcp, .inf n => ⟨f.zeroCode n, 0⟩
  | .rcp, .fin n m x =>
    let k := 200 + m.log2
    let q := 2 ^ k / m
    if 2 ^ m.log2 = m then f.deliver ⟨.rne, sat, dnf, 0⟩ n ⟨1, -x - m.log2, false⟩
    else go n ⟨q, q + 1, -x - k⟩ never
  | .rsq, .zero n => ⟨f.infCode n, flDZ⟩
  | .rsq, .inf false => ⟨f.zeroCode false, 0⟩
  | .rsq, .inf true => f.nanRes true
  | .rsq, .fin true _ _ => f.nanRes true
  | .rsq, .fin false m x =>
    let s := sqrtMag m x
    let k := 400
    let lo := 2 ^ k / (s.man + (if s.sticky then 1 else 0))
    let hi := 2 ^ k / s.man + 1
    let exactC : Nat → Bool := fun c => match f.decode c with
      | .fin false cm cx => let e := 2 * cx + x; if e ≤ 0 then decide (cm * cm * m = 2 ^ (-e).toNat) else false
      | _ => false
    go false ⟨lo, hi, -s.exp - k⟩ exactC
  | .exp2, .zero _ => ⟨f.oneCode false, 0⟩
  | .exp2, .inf true => ⟨f.zeroCode false, 0⟩
  | .exp2, .inf false => ⟨f.infCode false, 0⟩
  | .exp2, .fin n m x =>
    if 12 < (m.log2 : Int) + x then go false ⟨1, 1, if n then -4000 else 4000⟩ never
    else if 0 ≤ x || m % 2 ^ (-x).toNat = 0 then
      let v : Int := (if 0 ≤ x then m * 2 ^ x.toNat else m / 2 ^ (-x).toNat : Nat)
      f.deliver ⟨.rne, sat, dnf, 0⟩ false ⟨1, if n then -v else v, false⟩
    else go false (enclExp2 n (fxOf m x)) never
  | .log2, .zero _ => ⟨f.infCode true, flDZ⟩
  | .log2, .inf false => ⟨f.infCode false, 0⟩
  | .log2, .inf true => f.nanRes true
  | .log2, .fin true _ _ => f.nanRes true
  | .log2, .fin false m x =>
    if 2 ^ m.log2 = m then f.deliverInt ⟨.rne, sat, dnf, 0⟩ false (x + m.log2) 0
    else
      let (n, y) := enclLog2 m x
      let near := f = .f32 && magLe 1 (-1) m x && magLe m x 1 1
      approxDeliver f o.num sat dnf code (if near then some (1, some (-22)) else bound) n y never
  | .sin, .zero n => ⟨f.zeroCode n, 0⟩
  | .sin, .inf _ => f.nanRes true
  | .cos, .zero _ => ⟨f.oneCode false, 0⟩
  | .cos, .inf _ => f.nanRes true
  | .sin, .fin n m x =>
    let (q, r) := if -2 ≤ x then (m * 2 ^ (x + 2).toNat, 0) else (m / 2 ^ (-2 - x).toNat, fxOf (m % 2 ^ (-2 - x).toNat) (x + 2))
    if r = 0 then
      (if q % 2 = 0 then ⟨f.zeroCode false, 0⟩ else ⟨f.oneCode ((q % 4 = 3) != n), 0⟩)
    else let (s, y) := enclTrig false (q % 4) r; go (s != n) y never
  | .cos, .fin _ m x =>
    let (q, r) := if -2 ≤ x then (m * 2 ^ (x + 2).toNat, 0) else (m / 2 ^ (-2 - x).toNat, fxOf (m % 2 ^ (-2 - x).toNat) (x + 2))
    if r = 0 then
      (if q % 2 = 1 then ⟨f.zeroCode false, 0⟩ else ⟨f.oneCode (q % 4 = 2), 0⟩)
    else let (s, y) := enclTrig true (q % 4) r; go s y never
  | .tanh, .zero n => ⟨f.zeroCode n, 0⟩
  | .tanh, .inf n => ⟨f.oneCode n, 0⟩
  | .tanh, .fin n m x =>
    if 12 < (m.log2 : Int) + x then go n (enclTanh (200 * fxOne)) never
    else go n (enclTanh (fxOf m x)) never

end Sys2Proof
end

