-- ==== Sys2Proof/Machine/FloatVec.lean ====
section
/-!
DEFINITION. Machine/FloatVec.lean: the floating-point instructions 0x40 to 0x58 (R186 to R192, Table 10.8).
-/
namespace Sys2Proof.Machine
open Sys2Proof

/-- A floating operation by element on codes, in the element format; `steps` says whether its result is delivered through a
rounding (R75, R186). -/
def fpOp (ok : ETy → Bool) (steps : Bool) (f : REnv → Fmt → (Nat → Nat) → FRes) : VOp :=
  .plain true ok (byElem steps (fun e ty x => f e ty.fmtD x))

/-- A floating operation on decoded operands. -/
def fpVal (f : REnv → Fmt → (Nat → FV) → FRes) : VOp := fpOp ETy.isFP true (fun e fm x => f e fm (fun p => fm.read e.dnf (x p)))

/-- An approximate operation (R188); it steps no SRS. -/
def approxOp (ok : ETy → Bool) (o : AppOp) : VOp := fpOp ok false (fun e fm x => fApprox o fm e.sat e.dnf (x 0))

/-- FADD. -/
def opFadd : VOp := fpVal (fun e fm x => fusedSum fm e true [] [x 0, x 1])
/-- FSUB. -/
def opFsub : VOp := fpVal (fun e fm x => fusedSum fm e true [] [x 0, (x 1).negate])
/-- FMUL. -/
def opFmul : VOp := fpVal (fun e fm x => fusedSum fm e true [(x 0, x 1)] [])

/-- A × B + C from codes with one rounding; infinity × zero beside a quiet NaN follows `Config.fmaQuietInvalid`. -/
def fmaCode (e : REnv) (fm : Fmt) (a b c : Nat) : FRes :=
  fusedSum fm e (Config.fmaQuietInvalid a b c) [(fm.read e.dnf a, fm.read e.dnf b)] [fm.read e.dnf c]

/-- FMA. -/
def opFma : VOp := fpOp ETy.isFP true (fun e fm x => fmaCode e fm (x 0) (x 1) (x 2))
/-- FMAC: D + A × B. -/
def opFmac : VOp := { fpOp ETy.isFP true (fun e fm x => fmaCode e fm (x 1) (x 2) (x 0)) with readD := true }
/-- FMIN. -/
def opFmin : VOp := fpOp ETy.isFP false (fun e fm x => fMinMax fm e.dnf false (x 0) (x 1))
/-- FMAX. -/
def opFmax : VOp := fpOp ETy.isFP false (fun e fm x => fMinMax fm e.dnf true (x 0) (x 1))

/-- A sign operation (R190): NaN gives the canonical NaN, with IV for a signalling one. -/
def signOp (fm : Fmt) (a : Nat) (neg : Bool) : FRes :=
  match fm.decode a with
  | .nan s => fm.nanRes s
  | _ => ⟨fm.signBit neg + a % 2 ^ (fm.width - 1), 0⟩

/-- FABS. -/
def opFabs : VOp := fpOp ETy.isFP false (fun _ fm x => signOp fm (x 0) false)
/-- FNEG. -/
def opFneg : VOp := fpOp ETy.isFP false (fun _ fm x => signOp fm (x 0) (x 0 / 2 ^ (fm.width - 1) % 2 = 0))
/-- FRCP. -/
def opFrcp : VOp := approxOp ETy.isFP .rcp
/-- FRSQ. -/
def opFrsq : VOp := approxOp ETy.isFP .rsq
/-- FSQRT. -/
def opFsqrt : VOp := fpVal (fun e fm x => fSqrt fm e (x 0))
/-- FDIV. -/
def opFdiv : VOp := fpVal (fun e fm x => fDiv fm e (x 0) (x 1))
/-- FEXP2. -/
def opFexp2 : VOp := approxOp ETy.isFPH .exp2
/-- FLOG2. -/
def opFlog2 : VOp := approxOp ETy.isFPH .log2
/-- FSIN. -/
def opFsin : VOp := approxOp ETy.isFPH .sin
/-- FCOS. -/
def opFcos : VOp := approxOp ETy.isFPH .cos
/-- FTANH. -/
def opFtanh : VOp := approxOp ETy.isFPH .tanh
/-- FRINT. -/
def opFrint : VOp := fpVal (fun e fm x => fRint fm e (x 0))
/-- FCLASS (R191). -/
def opFclass : VOp := fpOp ETy.isFP false (fun _ fm x => ⟨fClass fm (x 0), 0⟩)
/-- FSCL: A × 2^B, B read as a signed integer of the element width. -/
def opFscl : VOp := fpOp ETy.isFP true (fun e fm x => fScale fm e (fm.read e.dnf (x 0)) (toSigned fm.width (x 1)))

/-- FCLAMP: FMIN(FMAX(A, B), C). -/
def opFclamp : VOp :=
  fpOp ETy.isFP false (fun e fm x =>
    let r := fMinMax fm e.dnf true (x 0) (x 1)
    let q := fMinMax fm e.dnf false r.code (x 2)
    ⟨q.code, r.flags ||| q.flags⟩)

/-- A dot product into an f32 register: D + Σ Aj × Bj with one rounding (R187). -/
def fdotOp (ok : ETy → Bool) : VOp :=
  { exec := true, ok := ok, readD := true, dTy := fun _ => .f32, sTy := id, rTy := fun _ => .f32,
    run := fun i => i.lanes (fun e t => elemOp .f32 true e (fun e _ =>
      let fm := i.ty.fmtD
      let el (p j : Nat) : FV := fm.read e.dnf (i.ty.elem (i.src p t) j)
      fusedSum .f32 e (Config.fmaQuietInvalid (i.src 1 t) (i.src 2 t) (i.src 0 t))
        ((upto i.ty.count).map (fun j => (el 1 j, el 2 j))) [Fmt.f32.read e.dnf (i.src 0 t)])) }

/-- FDOT2. -/
def opFdot2 : VOp := fdotOp (fun ty => ty = .f16x2 || ty = .bf16x2)
/-- FDOT4. -/
def opFdot4 : VOp := fdotOp (fun ty => ty = .e4m3x4 || ty = .e5m2x4 || ty = .dm8x4)

/-- FCMP (R192). -/
def fcmpRun (c : Cond) (k : BitVec 3) : VIn → VOut :=
  cmpRun k (fun i t => fCompare i.ty.fmtD i.env.dnf c (i.src 0 t) (i.src 1 t))

/-- The types of FCMP. -/
def fcmpOk (ty : ETy) : Bool := ty = .f32 || ty = .f64

def execFadd (p : Option Pfx) (o : V3) (s : State) : Out := opFadd.v3 p o s
def execFaddX1 (p : Option Pfx) (o : X1) (s : State) : Out := opFadd.x1 p o s
def execFsub (p : Option Pfx) (o : V3) (s : State) : Out := opFsub.v3 p o s
def execFsubX1 (p : Option Pfx) (o : X1) (s : State) : Out := opFsub.x1 p o s
def execFmul (p : Option Pfx) (o : V3) (s : State) : Out := opFmul.v3 p o s
def execFmulX1 (p : Option Pfx) (o : X1) (s : State) : Out := opFmul.x1 p o s
def execFma (p : Option Pfx) (o : X2c) (s : State) : Out := opFma.x2c p o s
def execFmac (p : Option Pfx) (o : V3) (s : State) : Out := opFmac.v3 p o s
def execFmacX1 (p : Option Pfx) (o : X1) (s : State) : Out := opFmac.x1 p o s
def execFmin (p : Option Pfx) (o : V3) (s : State) : Out := opFmin.v3 p o s
def execFminX1 (p : Option Pfx) (o : X1) (s : State) : Out := opFmin.x1 p o s
def execFmax (p : Option Pfx) (o : V3) (s : State) : Out := opFmax.v3 p o s
def execFmaxX1 (p : Option Pfx) (o : X1) (s : State) : Out := opFmax.x1 p o s
def execFabs (p : Option Pfx) (o : V3u) (s : State) : Out := opFabs.v3u p o s
def execFabsX1 (p : Option Pfx) (o : X1u) (s : State) : Out := opFabs.x1u p o s
def execFneg (p : Option Pfx) (o : V3u) (s : State) : Out := opFneg.v3u p o s
def execFnegX1 (p : Option Pfx) (o : X1u) (s : State) : Out := opFneg.x1u p o s
def execFrcp (p : Option Pfx) (o : V3u) (s : State) : Out := opFrcp.v3u p o s
def execFrcpX1 (p : Option Pfx) (o : X1u) (s : State) : Out := opFrcp.x1u p o s
def execFrsq (p : Option Pfx) (o : V3u) (s : State) : Out := opFrsq.v3u p o s
def execFrsqX1 (p : Option Pfx) (o : X1u) (s : State) : Out := opFrsq.x1u p o s
def execFsqrt (p : Option Pfx) (o : V3u) (s : State) : Out := opFsqrt.v3u p o s
def execFsqrtX1 (p : Option Pfx) (o : X1u) (s : State) : Out := opFsqrt.x1u p o s
def execFdiv (p : Option Pfx) (o : V3) (s : State) : Out := opFdiv.v3 p o s
def execFdivX1 (p : Option Pfx) (o : X1) (s : State) : Out := opFdiv.x1 p o s
def execFexp2 (p : Option Pfx) (o : V3u) (s : State) : Out := opFexp2.v3u p o s
def execFexp2X1 (p : Option Pfx) (o : X1u) (s : State) : Out := opFexp2.x1u p o s
def execFlog2 (p : Option Pfx) (o : V3u) (s : State) : Out := opFlog2.v3u p o s
def execFlog2X1 (p : Option Pfx) (o : X1u) (s : State) : Out := opFlog2.x1u p o s
def execFsin (p : Option Pfx) (o : V3u) (s : State) : Out := opFsin.v3u p o s
def execFsinX1 (p : Option Pfx) (o : X1u) (s : State) : Out := opFsin.x1u p o s
def execFcos (p : Option Pfx) (o : V3u) (s : State) : Out := opFcos.v3u p o s
def execFcosX1 (p : Option Pfx) (o : X1u) (s : State) : Out := opFcos.x1u p o s
def execFrint (p : Option Pfx) (o : V3u) (s : State) : Out := opFrint.v3u p o s
def execFrintX1 (p : Option Pfx) (o : X1u) (s : State) : Out := opFrint.x1u p o s
def execFclass (p : Option Pfx) (o : V3u) (s : State) : Out := opFclass.v3u p o s
def execFclassX1 (p : Option Pfx) (o : X1u) (s : State) : Out := opFclass.x1u p o s
def execFscl (p : Option Pfx) (o : V3) (s : State) : Out := opFscl.v3 p o s
def execFsclX1 (p : Option Pfx) (o : X1) (s : State) : Out := opFscl.x1 p o s
def execFcmp (p : Option Pfx) (c : Cond) (k : BitVec 3) (a b : Sel) (s : State) : Out :=
  cmpForm true fcmpOk p 0 4 a b (fcmpRun c k) s
def execFcmpX1 (p : Option Pfx) (c : Cond) (k : BitVec 3) (a b : Sel) (lit : W32) (s : State) : Out :=
  cmpForm true fcmpOk p lit 8 a b (fcmpRun c k) s
def execFdot2 (p : Option Pfx) (o : V3) (s : State) : Out := opFdot2.v3 p o s
def execFdot2X1 (p : Option Pfx) (o : X1) (s : State) : Out := opFdot2.x1 p o s
def execFdot4 (p : Option Pfx) (o : V3) (s : State) : Out := opFdot4.v3 p o s
def execFdot4X1 (p : Option Pfx) (o : X1) (s : State) : Out := opFdot4.x1 p o s
def execFclamp (p : Option Pfx) (o : X2c) (s : State) : Out := opFclamp.x2c p o s
def execFtanh (p : Option Pfx) (o : V3u) (s : State) : Out := opFtanh.v3u p o s
def execFtanhX1 (p : Option Pfx) (o : X1u) (s : State) : Out := opFtanh.x1u p o s

end Sys2Proof.Machine
end

