-- ==== Sys2Proof/Machine/Accum.lean ====
section
/-!
DEFINITION. Machine/Accum.lean: accumulator tiles (R242, R243) and ACRD and ACWR (R199, R200).
-/
namespace Sys2Proof.Machine
open Sys2Proof

/-- A list of n words by number, in canonical form. -/
def SMap.table (n : Nat) (f : Nat → BitVec w) : SMap w :=
  (upto n).filterMap (fun i => let x := f i; if x = 0 then none else some (i, x))

/-- A tile's elements. -/
def Workgroup.tile (g : Workgroup) (n : Nat) : SMap 64 := g.tiles.findD n []

/-- A tile's issued type (R243). -/
def Workgroup.tileType (g : Workgroup) (n : Nat) : TileTy := g.tileTy.findD n .fp32

/-- Write one element of a tile. -/
def Workgroup.setElem (g : Workgroup) (n i : Nat) (x : W64) : Workgroup := { g with tiles := g.tiles.put n ((g.tile n).set i x) }

/-- An incomplete matrix command of a workgroup uses a tile (R200). -/
def State.tileBusy (s : State) (w : WgId) (n : Nat) : Bool :=
  (s.core w.core).mqueue.any (fun e => decide (e.wg = w) && (e.uses.contains n || e.wrecks.contains n))

/-- The tile type of an effective type (R199). -/
def accTy (ty : ETy) : Option TileTy :=
  match ty with
  | .f32 => some .fp32 | .i32 => some .int32 | .f64 => some .fp64 | _ => none

/-- The descriptor of an ACRD or ACWR in an iteration: an s register, or the literal. -/
def accDesc (m : Me) (p : Option Pfx) (a : Sel) (lit : W32) (j : Nat) : W64 :=
  match a.adv false .n64 (IncPos.a.on p) j with
  | .s n => m.st.sGet n.toNat
  | _ => lit.setWidth 64

/-- TILE. -/
def descTile (d : W64) : Nat := bits d 0 5
/-- The number of the descriptor's element for a thread: ROW and C0 + t. -/
def descElem (d : W64) (t : Nat) : Nat := 64 * bits d 8 6 + bits d 16 6 + t

/-- The checks of R199 at step 6; the odd tile of an FP64 pair is named by no command. -/
def accCheck (p : Option Pfx) (a : Sel) (lit : W32) (_ : State) (m : Me) (ty : ETy) (j : Nat) : Option TrapCode :=
  let d := accDesc m p a lit j
  let n := descTile d
  if m.wg.acc ≤ n then some .bounds
  else if accTy ty ≠ some (m.wg.tileType n) || (m.wg.tileType n = .fp64 && n % 2 = 1) then some .illegal
  else if 64 < bits d 16 6 + 8 then some .bounds
  else none

/-- An element of a tile as a thread's value. -/
def tileVal (ty : ETy) (g : Workgroup) (n i : Nat) : Nat := ((g.tile n).get i).toNat % 2 ^ ty.bits

/-- ACRD as a vector instruction: a tile that an incomplete command uses gives free values (R144, R200). -/
def acrdVec (p : Option Pfx) (n : Bool) (d a : Sel) (lit : W32) (len : Nat) : Vec :=
  { pfx := p, lit := lit, len := pfxLen p len, exec := true, ok := fun ty => (accTy ty).isSome,
    srcs := fun _ => [⟨a, .a, .n64⟩], dst := fun ty => .sel d n ty, pre := accCheck p a lit,
    run := fun i => i.lanes (fun e t =>
      let desc := BitVec.ofNat 64 (i.src 0 t)
      if i.s.tileBusy i.m.sid.wg (descTile desc) then .plain ((Config.freeValue (i.s.free + t)).toNat % 2 ^ i.ty.bits) e.srs
      else
        match i.s.wgs.find i.m.sid.wg with
        | some g => .plain (tileVal i.ty g (descTile desc) (descElem desc t)) e.srs
        | none => .plain 0 e.srs),
    post := fun s m _ j _ => if s.tileBusy m.sid.wg (descTile (accDesc m p a lit j)) then (s.takeFrees 8).2 else s }

/-- The sum of an ACWR ADD: as FADD, or as an integer addition. -/
def accSum (ty : ETy) (e : REnv) (x y : Nat) : FRes :=
  match ty.fmt with
  | some f => fusedSum f e true [] [f.read e.dnf x, f.read e.dnf y]
  | none => satResult ty e.sat (ty.toInt x + ty.toInt y)

/-- Write the elements of an ACWR: both copies of a shadowed tile (R261); free values where an incomplete command uses it (R144). -/
def State.putTile (s : State) (w : WgId) (n : Nat) (desc : W64) (vals : List (Nat × Nat)) : State :=
  let busy := s.tileBusy w n
  vals.foldl (fun s p =>
    let (x, s) := if busy then s.takeFree else (BitVec.ofNat 64 p.2, s)
    s.updWg w (fun g => g.setElem n (descElem desc p.1) x)) s

/-- ACWR as a vector instruction. -/
def acwrVec (p : Option Pfx) (add : Bool) (a b : Sel) (lit : W32) (len : Nat) : Vec :=
  { pfx := p, lit := lit, len := pfxLen p len, exec := true, ok := fun ty => (accTy ty).isSome,
    srcs := fun ty => [⟨a, .a, .n64⟩, ⟨b, .b, ty⟩], dst := fun _ => .none, pre := accCheck p a lit,
    run := fun i => i.lanes (fun e t =>
      let desc := BitVec.ofNat 64 (i.src 0 t)
      let old := match i.s.wgs.find i.m.sid.wg with
        | some g => tileVal i.ty g (descTile desc) (descElem desc t)
        | none => 0
      if add then elemOp i.ty (i.ty.fmt.isSome) e (fun e _ => accSum i.ty e old (i.src 1 t)) else .plain (i.src 1 t) e.srs),
    post := fun s m _ j o =>
      let desc := accDesc m p a lit j
      let s := s.putTile m.sid.wg (descTile desc) desc o.vals
      if m.wg.shadowed.contains (descTile desc) then s.putTile m.sid.wg (descTile desc + m.wg.acc / 2) desc o.vals else s }

def execAcrd (p : Option Pfx) (n : Bool) (d a : Sel) (s : State) : Out := runVec (acrdVec p n d a 0 4) s
def execAcrdX1 (p : Option Pfx) (d a : Sel) (lit : W32) (s : State) : Out := runVec (acrdVec p false d a lit 8) s
def execAcwr (p : Option Pfx) (add : Bool) (a b : Sel) (s : State) : Out := runVec (acwrVec p add a b 0 4) s
def execAcwrX1 (p : Option Pfx) (add : Bool) (a b : Sel) (lit : W32) (s : State) : Out := runVec (acwrVec p add a b lit 8) s

end Sys2Proof.Machine
end

