-- ==== Sys2Proof/Machine/Cistern.lean ====
section
/-!
DEFINITION. Machine/Cistern.lean: node descriptors (Table 16.1), record headers (R306), pushing a record (R305 to R311), launch errors
(R324), and counters: their adds, waits and armed targets (R274 to R282).
-/
namespace Sys2Proof.Machine
open Sys2Proof

/-! ### Node descriptors (Table 16.1) -/

/-- A word of a node descriptor. -/
def Node.word (n : Node) (i : Nat) : W64 := (n.desc[i]?).getD 0
/-- NA. -/
def Node.na (n : Node) : Nat := bits (n.word 5) 0 7
/-- NE. -/
def Node.ne (n : Node) : Nat := bits (n.word 5) 7 11
/-- The v registers of an execute strand. -/
def Node.vregs (n : Node) : Nat := 8 * bits (n.word 5) 18 4
/-- ISSUER. -/
def Node.issuer (n : Node) : Nat := bits (n.word 5) 22 6
/-- ACC. -/
def Node.acc (n : Node) : Nat := bits (n.word 5) 28 6
/-- PRIO. -/
def Node.prio (n : Node) : Nat := bits (n.word 5) 34 3
/-- SHARED. -/
def Node.shared (n : Node) : Nat := bits (n.word 6) 0 20
/-- SPILL. -/
def Node.spill (n : Node) : Nat := bits (n.word 6) 20 16
/-- RECSIZE. -/
def Node.recSize (n : Node) : Nat := bits (n.word 6) 36 9
/-- RECCOUNT. -/
def Node.recCount (n : Node) : Nat := bits (n.word 6) 45 11
/-- TIMER. -/
def Node.timer (n : Node) : Nat := bits (n.word 7) 0 16
/-- LM: the node learns its lease (R322). -/
def Node.lm (n : Node) : Bool := bit (n.word 7) 48
/-- LBASE in 4 KiB units. -/
def Node.lbase (n : Node) : Nat := bits (n.word 7) 16 16
/-- LPER in 4 KiB units, learned where the node measures it (R322). -/
def Node.lper (n : Node) : Nat := if n.lm then n.learned.getD 0 else bits (n.word 7) 32 16
/-- ROLE: the node is a pipeline stage (R323). -/
def Node.role (n : Node) : Bool := bit (n.word 8) 0
/-- MIN, LOW, HIGH of a stage. -/
def Node.minCores (n : Node) : Nat := bits (n.word 8) 1 8
/-- LOW. -/
def Node.low (n : Node) : Nat := bits (n.word 8) 9 16
/-- HIGH. -/
def Node.high (n : Node) : Nat := bits (n.word 8) 25 16
/-- NDEPS. -/
def Node.ndeps (n : Node) : Nat := bits (n.word 8) 41 3
/-- ORDER. -/
def Node.order (n : Node) : Nat := bits (n.word 8) 44 3
/-- The output list's valid entries (R305). -/
def Node.outs (n : Node) : List Nat :=
  (upto 8).filterMap (fun j => let e := bits (n.word (14 + j / 4)) (16 * (j % 4)) 16; if e / 2 ^ 15 = 1 then some (e % 2 ^ 12) else none)

/-- A round up to 32 (R307). -/
def align32 (x : Nat) : Nat := alignUp x 32
/-- The spill area's offset (R307). -/
def Node.spillOff (n : Node) : Nat := align32 (0x1400 + n.shared)
/-- RECBASE (R307). -/
def Node.recBase (n : Node) : Nat := n.spillOff + 32 * n.spill
/-- The shared allocation (R307). -/
def Node.alloc (n : Node) : Nat := alignUp (n.recBase + n.recCount * n.recSize) 4096

/-! ### Record headers (Table 16.2) -/

/-- The header of a record. -/
def recHeader (bs : List Byte) : W64 := w64OfBytes (bs.take 8)
/-- SIZE. -/
def hdrSize (h : W64) : Nat := bits h 12 9
/-- NODE. -/
def hdrNode (h : W64) : Nat := bits h 0 12
/-- GRID. -/
def hdrGrid (h : W64) : Bool := bit h 21
/-- SIZE is a legal record size: then SIZE bytes are copied, else the header alone (R290). -/
def sizeOk (n : Nat) : Bool := n % 8 = 0 && decide (8 ≤ n) && decide (n ≤ 256)
/-- How many bytes EMIT, LAUNCH and CARM copy (R280, R290). -/
def copyLen (h : W64) : Nat := if sizeOk (hdrSize h) then hdrSize h else 8

/-- Bytes that the Distributor holds for records not yet launched (R309). -/
def State.heldBytes (s : State) : Nat := s.nodes.foldl (fun a p => a + p.2.records.foldl (fun b r => b + r.bytes.length) 0) 0

/-- There is room for a record in the record buffer or the overflow region (R309). -/
def State.recordRoom (s : State) (n : Nat) : Bool := decide (s.heldBytes + n ≤ 8 * 2 ^ 20 + s.plat.ovfSize * 2 ^ 20)

/-! ### Launch errors (R324) -/

/-- Report a launch error: the context error log, that of the window's node for a host push, the emitting node's ERRCTR, or the push window's
count. -/
def State.launchError (s : State) (e : LaunchErr) (header : W64) (src : RecSrc) : State :=
  match src with
  | .host w =>
    let k := s.wins.findD w ⟨0, false⟩
    let s := { s with wins := s.wins.put w { k with errors := k.errors + 1 } }
    match (s.nodes.find w).orElse (fun _ => s.nodes.find (hdrNode header)) with
    | some n => s.logError n.ctx (.launch e header none false)
    | none => s
  | .wg task node ctx _ =>
    let s := s.logError ctx (.launch e header (some task) false)
    match s.nodes.find node with
    | none => s
    | some n =>
      if n.word 4 = 0 then s
      else
        let seq := ((s.ctxs.find ctx).map (fun c => c.errors.next)).getD 1 - 1
        { s with adds := s.adds ++ [PendAdd.mk s.serial n.ctx (n.word 4) 1 (some seq)], serial := s.serial + 1 }

/-! ### Pushing (R305 to R311) -/

/-- A record breaks a rule of R305 or R306. The node is the one that the header names, whichever window took it (log 80); its context is to be that of
the window's node. -/
def State.recordBad (s : State) (src : RecSrc) (bs : List Byte) : Bool :=
  let h := recHeader bs
  bits h 26 38 ≠ 0 || !sizeOk (hdrSize h) || bs.length ≠ hdrSize h ||
  (match s.nodes.find (hdrNode h) with
   | none => true
   | some n =>
     decide (n.recSize < hdrSize h) || n.closing.isSome ||
     (match src with
      | .host w => (match s.nodes.find w with | some k => decide (n.ctx ≠ k.ctx) | none => false)
      | .wg _ node ctx _ => decide (n.ctx ≠ ctx) ||
        (match s.nodes.find node with
         | some k => !k.outs.isEmpty && !k.outs.contains (hdrNode h)
         | none => false)))

/-- A launch of records for a node: the next sequence number (R311). -/
def State.launch (s : State) (node : Nat) (rs : List (List Byte)) (depth : Nat) (parent : Option W64) : State :=
  match s.nodes.find node with
  | none => s
  | some n =>
    { s with
      nodes := s.nodes.put node { n with nextSeq := (n.nextSeq + 1) % 2 ^ 32 }
      launched := s.launched.put s.serial { node := node, seq := n.nextSeq, records := rs, depth := depth, parent := parent, hold := .free }
      serial := s.serial + 1 }

/-- The rank of a source among those of one clock (R308): the host, then cores, then strands. -/
def RecSrc.rank : RecSrc → Nat
  | .host _ => 0
  | .wg _ _ _ sid => 1 + (sid.wg.core * 2 ^ 12 + sid.idx) * 2 + (match sid.slice with | .access => 0 | .execute => 1)

/-- Enter a record in a cistern: after those of earlier clocks, and of the same clock after those of no higher rank (R308). -/
def enterRec (l : List Rec) (r : Rec) : List Rec :=
  let before (x : Rec) : Bool := decide (x.at_ < r.at_) || (x.at_ = r.at_ && decide (RecSrc.rank x.src ≤ RecSrc.rank r.src))
  let k := (l.reverse.dropWhile (fun x => !before x)).length
  l.take k ++ r :: l.drop k

/-- The records of a cistern that wait to be coalesced. -/
def Node.loose (n : Node) : List Rec := n.records.filter (fun r => !hdrGrid (recHeader r.bytes))

/-- Deliver a record to the Work Distributor (R290, R291, R305 to R309): rejected with a launch error, kept in its cistern, or, for
a LAUNCH without GRID, launched alone; none while there is no room. -/
def State.pushRecord (s : State) (src : RecSrc) (bs : List Byte) (child : Option (Nat × W64)) : Option State :=
  let h := recHeader bs
  let full : Bool := match child with
    | some (_, t) => s.wgs.any (fun p => decide (p.2.task = t) && decide (256 ≤ p.2.childGrids))
    | none => false
  if s.recordBad src bs then some (s.launchError .nodeInvalid h src)
  else if full then some (s.launchError .depth h src)
  else if !s.recordRoom bs.length then none
  else
    match s.nodes.find (hdrNode h) with
    | none => some s
    | some n =>
      let depth := (child.map Prod.fst).getD 0
      let parent := child.map Prod.snd
      let s := match parent with
        | none => s
        | some t => s.onParent t (· + 1) (· + 1)
      if parent.isSome && !hdrGrid h then some (s.launch (hdrNode h) [bs] depth parent)
      else
        let start := n.loose.isEmpty && !hdrGrid h && decide (n.timer ≠ 0)
        let r : Rec := { id := s.serial, bytes := bs, src := src, at_ := s.clock, depth := depth, parent := parent }
        some { s with
          nodes := s.nodes.put (hdrNode h) { n with records := enterRec n.records r, timerFrom := if start then some s.clock else n.timerFrom }
          serial := s.serial + 1 }

/-! ### Counters (R274 to R282) -/

/-- The largest counter value; a counter that holds it is saturated (R277). -/
def ctrMax : Nat := 2 ^ 64 - 1

/-- The sum of a counter and an amount (R277). -/
def ctrSum (old amount : W64) : W64 := BitVec.ofNat 64 (min (old.toNat + amount.toNat) ctrMax)

/-- An add first saturates the counter. -/
def ctrSaturates (old amount : W64) : Bool := decide (old.toNat < ctrMax) && decide (ctrMax ≤ old.toNat + amount.toNat)

/-- The offset of a counter slot (Table 6.6). -/
def slotOff (n : Nat) : Nat := 0x1000 + 8 * n

/-- The value of a slot. -/
def Workgroup.slot (w : Workgroup) (n : Nat) : W64 := w.shared.word64 (slotOff n)

/-- Write a slot. -/
def Workgroup.setSlot (w : Workgroup) (n : Nat) (x : W64) : Workgroup := { w with shared := w.shared.setBytes (slotOff n) (w64Bytes x) }

/-- A target fires (R281): its notice is sent, or its record goes to the Distributor as an EMIT of the arming workgroup. -/
def State.fire (s : State) (act : TargetAct) (ctx node : Nat) (task : W64) (sid : StrandId) (slot : Option (Nat × W64)) (pa : Option Nat) : State :=
  match act with
  | .notice => s.notify (.counter ctx slot pa)
  | .emit r => { s with emits := s.emits ++ [(RecSrc.wg task node ctx sid, r)] }

/-- What an add to a slot does to a workgroup: the slot, the slot's target removed if it fires, and which target fires. -/
def Workgroup.addSlot (w : Workgroup) (n : Nat) (amount : W64) : Workgroup × Option SlotTarget × Bool :=
  let old := w.slot n
  let new := ctrSum old amount
  let hit := w.targets.find? (fun t => t.slot = n && decide (t.target.toNat ≤ new.toNat))
  ({ w.setSlot n new with targets := if hit.isSome then w.targets.filter (fun t => t.slot ≠ n) else w.targets }, hit, ctrSaturates old amount)

/-- An add to a slot of a resident workgroup, or of a saved one in the save area (R277, R281, R335). -/
def State.slotAdd (s : State) (task : W64) (n : Nat) (amount : W64) : State :=
  let after (s : State) (g : Workgroup) (r : Workgroup × Option SlotTarget × Bool) : State :=
    let s := if r.2.2 then s.logError g.ctx (.saturated (some n) none (some task)) else s
    match r.2.1 with
    | some t => s.fire t.act g.ctx g.node task t.strand (some (n, task)) none
    | none => s
  match s.wgs.find? (fun p => p.2.task = task) with
  | some (w, g) =>
    let r := g.addSlot n amount
    after (s.updWg w (fun _ => r.1)) g r
  | none =>
    match s.ctxs.find? (fun p => p.2.saved.any (fun v => v.wg.task = task)) with
    | none => s
    | some (c, k) =>
      match k.saved.find? (fun v => v.wg.task = task) with
      | none => s
      | some v =>
        let r := v.wg.addSlot n amount
        after (s.updCtx c (fun k => { k with saved := k.saved.map (fun u => if u.wg.task = task then { u with wg := r.1 } else u) })) v.wg r

/-- An add to a global counter at a local physical address (R277, R281). -/
def State.globalAdd (s : State) (ctx pa : Nat) (task : Option W64) (amount : W64) : State :=
  let old := s.physWord pa
  let new := ctrSum old amount
  let s := s.setPhysBytes pa (w64Bytes new)
  let s := if ctrSaturates old amount then s.logError ctx (.saturated none (some pa) task) else s
  match s.targets.find? (fun t => t.pa = pa && decide (t.target.toNat ≤ new.toNat)) with
  | none => s
  | some t =>
    ({ s with targets := s.targets.filter (fun u => u.pa ≠ pa) }).fire t.act t.ctx t.node t.task t.strand none (some pa)

/-- The check of a global counter's page (R276): usable, a failed check with its trap code, or a page that needs service. -/
inductive CtrPage where
  | ok (pa : Nat)
  | fail (c : TrapCode)
  | service
  | busy
deriving DecidableEq, Repr

/-- Checks 2 and 3 of R276 for an address of a context; a counter of the second tier is usable once its block is held (R98). -/
def State.counterPage (s : State) (core ctx : Nat) (va : W64) : State × CtrPage :=
  match s.translate core ctx va with
  | (s, .service) => (s, .service)
  | (s, .busy) => (s, .busy)
  | (s, .invalid) => (s, .fail .pageProt)
  | (s, .ok l) =>
    if !(l.r && l.w && l.a) then (s, .fail .pageProt)
    else if l.attr ≠ .coh then (s, .fail .counterInvalid)
    else
      match s.own ctx (l.pa va) with
      | .ok =>
        let s := s.fetchTier (l.pa va)
        (s, if s.served (l.pa va) then .ok (l.pa va) else .busy)
      | .other => (s, .fail .pageProt)
      | .mac => (s.noteMac ctx (l.pa va), .fail .pageProt)

/-- A launch error's entry, with its failed ERRCTR add noted (R324). -/
def ErrEntry.errctrFailed : ErrEntry → ErrEntry
  | .launch k h t _ => .launch k h t true
  | e => e

/-- Note in a launch error's entry that its ERRCTR add failed (R324). -/
def State.noteErrctr (s : State) (ctx seq : Nat) : State :=
  match s.ctxs.find ctx with
  | none => s
  | some c =>
    match c.errors.entries.find? (fun e => e.1 = seq) with
    | none => s
    | some e => (s.updCtx ctx (fun c => { c with errors := { c.errors with entries := c.errors.entries.map (fun x =>
        if x.1 = seq then (x.1, x.2.errctrFailed) else x) } })).writeEntry (c.saveBase + 131072) seq e.2.errctrFailed.bytes

/-- Make an add that the Distributor or an engine owes, where its page allows (R294, R324); it stays listed while the page needs
service. A failed ERRCTR add is recorded in its launch error's entry. -/
def State.tryAdd (s : State) (a : PendAdd) : State :=
  let drop (s : State) : State := { s with adds := s.adds.filter (fun b => b.id ≠ a.id) }
  let fail (s : State) : State := match a.note with
    | none => s
    | some seq => s.noteErrctr a.ctx seq
  if s.failed (.op a.id) a.va then (fail (drop s)).unfail (.op a.id)
  else if a.va.toNat % 8 ≠ 0 then fail (drop s)
  else if s.waitsPage (.op a.id) a.va then s
  else
    match s.counterPage noCore a.ctx a.va with
    | (s, .ok pa) => (drop s).globalAdd a.ctx pa none a.amount
    | (s, .fail _) => fail (drop s)
    | (s, .service) => s.request a.ctx a.va .atomic (.op a.id)
    | (s, .busy) => s

/-- Deliver what fired targets emitted, and make the adds that are owed, in order (R281, R309, R324). -/
def State.drain (s : State) : State :=
  let s := s.emits.foldl (fun s e => match s.pushRecord e.1 e.2 none with
    | some s' => { s' with emits := s'.emits.erase e }
    | none => s) s
  s.adds.foldl (fun s a => s.tryAdd a) s

end Sys2Proof.Machine
end

