-- ==== Sys2Proof/Machine/FabricOps.lean ====
section
/-!
DEFINITION. Machine/FabricOps.lean: planes, routes and packets of the Erjan fabric as this device sends them (R345 to R353).
-/
namespace Sys2Proof.Machine
open Sys2Proof

/-- h of R348: a line number and a destination device, or a piece number and a group. -/
def fabHash (line d : Nat) : Nat :=
  Nat.xor (Nat.xor (Nat.xor (line % 2 ^ 16) (line / 2 ^ 16 % 2 ^ 16)) (line / 2 ^ 32 % 2 ^ 11)) d % 2 ^ 16

/-- The plane of a line and a destination (R348). -/
def fabPlane (line d : Nat) : Nat := fabHash line d % 144

/-- The root spine of a reduction piece and the primary directory spine of a line (R357, R360). -/
def fabSpine (line d : Nat) : Nat := fabHash line d / 144 % 64

/-- The code of a packet type (Table 20.1). -/
def PktTy.code : PktTy → Nat
  | .read => 0 | .write => 1 | .atomic => 2 | .response => 3 | .ack => 4 | .nak => 5 | .dirreq => 6 | .dirfwd => 7 | .dirresp => 8
  | .census => 9 | .redcontrib => 10 | .redresult => 11

/-- The leaf of a device (R345). -/
def leafOfDev (d : Nat) : Nat := d / 64

/-- The port number of a leaf's up port s in ROUTE; down ports are 0..63 (the numbering is the model's, log 24). -/
def upPort (s : Nat) : Nat := 64 + s

/-- The route through a spine: HOPS and ROUTE (R349). -/
def routeVia (dst spine : Nat) : Nat × Nat := (3, upPort spine + leafOfDev dst * 2 ^ 7 + dst % 64 * 2 ^ 14)

/-- A source route (R349): one hop on the sender's own leaf, else through a spine. -/
def routeTo (src dst spine : Nat) : Nat × Nat := if leafOfDev src = leafOfDev dst then (1, dst % 64) else routeVia dst spine

/-- LEN: the payload flits of 64 bytes (R347). -/
def flitsOf (bytes : Nat) : BitVec 3 := BitVec.ofNat 3 ((bytes + 63) / 64)

/-- The header's three words, word 0 first (Table 20.1); a reserved TYPE stands as 12. -/
def Packet.header (p : Packet) : List W64 :=
  let typ : BitVec 4 := match p.typ with | some t => BitVec.ofNat 4 (PktTy.code t) | none => 12
  [p.tag ++ p.dst ++ p.src ++ p.plane ++ typ ++ p.len ++ p.bytes, p.seq ++ 0#2 ++ p.hops ++ p.route, p.addr]

/-- The path table's alternatives for a destination and plane. -/
def Fabric.alternatives (f : Fabric) (dst plane : Nat) : List Nat :=
  ((f.paths.find? (fun p => p.1 = dst && p.2.1 = plane)).map (fun p => p.2.2)).getD []

/-- The alternative whose up port last reported the lowest depth, the lower index winning a tie (R349). -/
def Fabric.bestAlt (f : Fabric) (dst plane : Nat) : Nat :=
  let d := f.depths.findD (plane, leafOfDev f.device) []
  let depth (i : Nat) : Nat := match (f.alternatives dst plane)[i]? with | some sp => (d[sp]?).getD 0 | none => 0
  (upto (f.alternatives dst plane).length).foldl (fun best i => if depth i < depth best then i else best) 0

/-- The spine of an alternative. -/
def Fabric.altSpine (f : Fabric) (dst plane i : Nat) : Nat := ((f.alternatives dst plane)[i]?).getD 0

/-- A device that this one can reach on a plane (R346, R351). -/
def Fabric.reaches (f : Fabric) (dst plane : Nat) : Bool := f.peers.contains dst && !f.unreach.contains (dst, plane)

/-! ### Whom a packet is numbered for (R350 to R352)

A destination is a device, a multicast group's leaf or its members, or a directory spine; the numbers of the last three begin at 2^12, 2^25
and 2^26 here (log 26). -/

/-- Whom a packet is sent to. -/
def Packet.peer (p : Packet) : Nat :=
  match p.typ, p.coh with
  | some .redcontrib, _ => 2 ^ 12 + p.dst.toNat
  | some .redresult, _ => 2 ^ 25 + p.dst.toNat
  | _, some c =>
    (match c.msg with
     | .req _ => 2 ^ 26 + c.spine
     | .done _ => 2 ^ 26 + c.spine
     | .data _ => p.dst.toNat
     | .ack => p.dst.toNat
     | .answer _ => p.dst.toNat
     | _ => 2 ^ 27 + c.spine * 2 ^ 12 + p.dst.toNat)
  | _, none => p.dst.toNat

/-- Whose packet it is at the receiver: a device's own, a contribution of a member to a group, a group's results, a device's messages to a
spine, or a spine's. -/
def Packet.source (p : Packet) : Nat :=
  match p.typ, p.coh with
  | some .redcontrib, _ => 2 ^ 12 * (1 + p.dst.toNat) + p.src.toNat
  | some .redresult, _ => 2 ^ 25 + p.dst.toNat
  | _, some c =>
    (match c.msg with
     | .req _ => 2 ^ 26 + c.spine * 2 ^ 12 + p.src.toNat
     | .done _ => 2 ^ 26 + c.spine * 2 ^ 12 + p.src.toNat
     | .data _ => p.src.toNat
     | .ack => p.src.toNat
     | .answer _ => p.src.toNat
     | _ => 2 ^ 27 + c.spine)
  | _, none => p.src.toNat

/-- Packets to a destination and plane that are not answered (R351). -/
def Fabric.unacked (f : Fabric) (dst plane : Nat) : Nat :=
  (f.sent.filter (fun k => Packet.peer k.pkt = dst && k.pkt.plane.toNat = plane)).length

/-- A further packet waits to be sent (R351). -/
def Fabric.crowded (f : Fabric) (p : Packet) : Bool := 4096 ≤ f.unacked (Packet.peer p) p.plane.toNat

/-! ### Making and sending packets -/

/-- A packet of this device to another, without a number, on the best of its routes (R349). -/
def Fabric.packet (f : Fabric) (typ : PktTy) (dst tag plane : Nat) (addr : W64) (bytes : Nat) (payload : List Byte) : Packet :=
  let r := routeTo f.device dst (f.altSpine dst plane (f.bestAlt dst plane))
  { addr := addr, seq := 0, hops := BitVec.ofNat 2 r.1, route := BitVec.ofNat 28 r.2, tag := BitVec.ofNat 16 tag, dst := BitVec.ofNat 12 dst,
    src := BitVec.ofNat 12 f.device, plane := BitVec.ofNat 8 plane, typ := some typ, len := flitsOf payload.length,
    bytes := BitVec.ofNat 9 bytes, payload := payload, virt := false, ctr := 0, red := none, coh := none, nak := none }

/-- A packet that goes through one spine, with no choice (R349). -/
def Packet.via (p : Packet) (spine : Nat) : Packet :=
  let r := routeVia p.dst.toNat spine
  { p with hops := BitVec.ofNat 2 r.1, route := BitVec.ofNat 28 r.2 }

/-- A packet with the next SEQ of its destination and plane (R351). -/
def Fabric.numbered (f : Fabric) (p : Packet) : Packet := { p with seq := BitVec.ofNat 32 (f.seqs.findD ((Packet.peer p), p.plane.toNat) 0) }

/-- Put a packet on the fabric under the next SEQ of its destination and plane. -/
def Fabric.post (f : Fabric) (p : Packet) : Fabric :=
  { f with
    seqs := f.seqs.put ((Packet.peer p), p.plane.toNat) ((f.seqs.findD ((Packet.peer p), p.plane.toNat) 0 + 1) % 2 ^ 32)
    wire := f.wire ++ [f.numbered p] }

/-- Send a packet, which is kept until it is answered (R351). -/
def State.sendPacket (s : State) (p : Packet) (use_ : PktUse) : State :=
  let f := s.fabric
  let k : Sent := { pkt := f.numbered p, at_ := s.clock, resends := 0, alt := f.bestAlt p.dst.toNat p.plane.toNat, use_ := use_ }
  { s with fabric := { f.post p with sent := f.sent ++ [k] } }

/-- An answer to a packet, which has its SEQ and no number of its own: ACK, NAK or RESPONSE (R351, R352). -/
def Fabric.answerTo (f : Fabric) (p : Packet) (typ : PktTy) (payload : List Byte) (nak : Option NakCause) : Packet :=
  { f.packet typ p.src.toNat p.tag.toNat p.plane.toNat p.addr payload.length payload with
    seq := p.seq, virt := p.virt, red := p.red, nak := nak }

/-- The FTAG of a context. -/
def State.ftagOf (s : State) (ctx : Nat) : Nat := ((s.ctxs.find ctx).map Ctx.ftag).getD 0

/-! ### The messages of the directory (R360, R361) -/

/-- The home device of a line, and its physical address there. -/
def lineHome (line : Nat) : Nat × Nat := (line / 2 ^ 43, line % 2 ^ 43 * 256)

/-- The directory plane of a line (R360). -/
def dirPlane (line : Nat) : Nat := fabPlane (line % 2 ^ 43) (line / 2 ^ 43)

/-- The directory spine of a line: the primary, or the secondary once the primary has failed (R360, R364). -/
def Fabric.dirSpine (f : Fabric) (line : Nat) : Nat :=
  let p := fabSpine (line % 2 ^ 43) (line / 2 ^ 43)
  if f.failedSpines.contains (dirPlane line, p) then Nat.xor p 32 else p

/-- The FTAG of a line's messages: that of this device's requests, or of the context that owns it here (R346). -/
def State.lineTag (s : State) (line : Nat) : Nat :=
  match s.fabric.tags.find line with
  | some t => t
  | none => if (lineHome line).1 = s.fabric.device then s.ftagOf (bits (s.owners.get ((lineHome line).2 / 2 ^ 16)) 0 16 - 1) else 0

/-- A message of the directory, through the line's directory spine; a spine's own have the home as their source. -/
def State.cohPacket (s : State) (typ : PktTy) (dst line : Nat) (msg : CohMsg) (bs : List Byte) : Packet :=
  let sp := s.fabric.dirSpine line
  let p := s.fabric.packet typ dst (s.lineTag line) (dirPlane line) (BitVec.ofNat 64 (lineHome line).2) bs.length bs
  { Packet.via p sp with coh := some ⟨line, sp, msg⟩ }

/-- Put a message of a line's spine to another device on the fabric; a NACK has no number (R351). -/
def State.fromSpine (s : State) (typ : PktTy) (dst line : Nat) (msg : CohMsg) : State :=
  let p := { s.cohPacket typ dst line msg [] with src := BitVec.ofNat 12 (lineHome line).1 }
  { s with fabric := if typ = .nak then { s.fabric with wire := s.fabric.wire ++ [p] } else s.fabric.post p }

/-- Put an answer of this device, which has no SEQ, on the fabric. -/
def State.cohAnswer (s : State) (typ : PktTy) (dst line : Nat) (msg : CohMsg) (bs : List Byte) : State :=
  { s with fabric := { s.fabric with wire := s.fabric.wire ++ [s.cohPacket typ dst line msg bs] } }

end Sys2Proof.Machine
end

