-- ==== Sys2Proof/Machine/Perform.lean ====
section
/-!
DEFINITION. Machine/Perform.lean: the performing of accesses: elements (R127, R139, R140), LOAD_RETURN and STORE_PERFORMED (R116),
QUEUE_ENTRY_FILL (R56, R57), packets of remote accesses (R353, R354) and the replay of the Mend log (R120).
-/
namespace Sys2Proof.Machine
open Sys2Proof

/-! ### Elements -/

/-- A packet of an access has performed these bytes at their device. -/
def State.carried (s : State) (a : Acc) (l : Loc) : Bool := a.lines.any (fun k => k.one && k.done && s.onLine k l)

/-- Write a COHF line that the device holds alone: its state becomes M (R361). -/
def State.ownLine (s : State) (l : Loc) : State :=
  let own (k : Nat) : State :=
    match s.fabric.lines.find k with
    | some _ => { s with fabric := { s.fabric with lines := s.fabric.lines.put k .m } }
    | none => s
  match l with
  | .remote _ dev pa => own (remKey dev pa / 256)
  | .phys .cohf pa => own (remKey s.fabric.device pa / 256)
  | _ => s

/-- Write a value's bytes at an element's places; bytes that packets carried are not written here. -/
def State.putElem (s : State) (a : Acc) (e : Elem) (x : W64) (home : Bool) : State :=
  (e.locs.zip (upto e.locs.length)).foldl (fun s p => match p.1 with
    | none => s
    | some l =>
      if s.carried a l then s
      else
        let b : Byte := x.extractLsb' (8 * p.2) 8
        if home then (s.ownLine l).setHome a.strand.wg.core l b else (s.ownLine l).writeByte a.strand.wg.core l b) s

/-- The value that a load or an atomic finds at an element's places. -/
def State.getElem (s : State) (a : Acc) (e : Elem) (home : Bool) : List Byte :=
  e.locs.map (fun o => match o with
    | none => 0
    | some l => if home then s.homeByte a.strand.wg.core l else s.loadByte a e.thread l)

/-- Deliver a value to an x register of a thread (R116, R217). -/
def State.deliverX (s : State) (a : Acc) (e : Elem) (xd : Option Nat) (x : W64) : State :=
  match xd with
  | some d => s.updStrand a.strand (fun st => st.xSet d e.thread x)
  | none => s

/-- The context of a strand's workgroup. -/
def State.ctxOf (s : State) (w : WgId) : Nat := ((s.wgs.find w).map Workgroup.ctx).getD (((s.core w.core).ctx).getD 0)

/-- Perform one element (R127, R139, R140, R277). -/
def State.performElem (s : State) (a : Acc) (e : Elem) : State :=
  let n := e.locs.length
  match a.kind with
  | .load xd sx =>
    let (s, bs) := s.landingRead e.locs (s.getElem a e false)
    let x := widen64 n sx (natOfBytes bs)
    let s := s.touchAll a.strand.wg false e.places
    (e.places.foldl (fun s l => s.cacheByte a.strand.wg.core l) s).deliverX a e (some xd) x
  | .deliver xd => s.deliverX a e (some xd) e.val
  | .store => (s.touchAll a.strand.wg true e.places).putElem a e e.val false
  | .add =>
    match e.places with
    | .phys _ pa :: _ => (s.touchAll a.strand.wg true e.places).globalAdd a.ctx pa (some a.task) e.val
    | .shared _ off :: _ => s.slotAdd a.task ((off - 0x1000) / 8) e.val
    | _ => s
  | k =>
    let uns := match k with | .atom _ u _ => u | _ => true
    let old := if e.places.isEmpty then 0 else natOfBytes (s.getElem a e true)
    let s := s.touchAll a.strand.wg true (e.places.filter (fun l => !l.nonCoh))
    let s := if e.places.isEmpty then s else s.putElem a e (BitVec.ofNat 64 (k.combine n old e.val.toNat e.cmp.toNat)) true
    s.deliverX a e k.xd (widen64 n (!uns) old)

/-- Mark the performed elements of an access. -/
def State.markDone (s : State) (id : Nat) (ts : TMask) : State :=
  { s with accs := s.accs.map (fun a =>
      if a.id = id then { a with elems := a.elems.map (fun e => if TMask.has ts e.thread then { e with done := true } else e) } else a) }

/-- What precedes an access is over, its second-tier blocks are held, its COHF lines are held and its packets are answered. -/
def State.mayPerform (s : State) (a : Acc) : Bool :=
  s.ready a.strand.wg a.deps && s.linesReady a.lines &&
  a.elems.all (fun e => e.done || e.places.all (fun l => match l with | .phys _ pa => s.served pa | _ => true))

/-- It reads the places that it names. -/
def AccKind.reads (k : AccKind) : Bool := k.isAtomic || (match k with | .load _ _ => true | _ => false)

/-- The places that an access is still to read. -/
def Acc.toRead (a : Acc) : List Loc := if a.kind.reads then (a.elems.filter (fun e => !e.done)).flatMap Elem.places else []

/-- The access may perform: besides, the bytes that it reads are at hand (R112, R117). -/
def State.canPerform (s : State) (a : Acc) : Bool := s.mayPerform a && a.toRead.all (s.here a.strand.wg.core)

/-- The elements that perform with the chosen threads: those of one atomic at the same places in one step (R139), and on DEV pages
every lower thread (R94). -/
def Acc.chosen (a : Acc) (ts : TMask) : TMask :=
  let left := a.elems.filter (fun e => !e.done)
  let pick := left.filter (fun e => TMask.has ts e.thread)
  maskOf (fun t => left.any (fun e => e.thread = t && (TMask.has ts t ||
    (a.kind.isAtomic && pick.any (fun p => p.meets e)) || (a.dev && pick.any (fun p => decide (t < p.thread))))))

/-- Perform the chosen elements of an access in ascending thread order, and count down what is over; where the bytes are not at hand it
sends L2 miss requests (R117). -/
def State.perform (s : State) (id : Nat) (ts : TMask) : State :=
  match s.accs.find? (fun a => a.id = id) with
  | none => s
  | some a =>
    if !s.mayPerform a then s
    else if !s.canPerform a then s.askBytes a.strand.wg.core a.strand.wg.slot a.toRead
    else
      let c := a.chosen ts
      let es := (TMask.list c).flatMap (fun t => a.elems.filter (fun e => !e.done && e.thread = t))
      ((es.foldl (fun s e => s.performElem a e) s).markDone id c).sweep

/-- Every element that has not performed. -/
def Acc.leftMask (a : Acc) : TMask := maskOf (fun t => a.elems.any (fun e => !e.done && e.thread = t))

/-! ### Packets of remote accesses (R353, R354) -/

/-- The bytes that a packet of a store to a DEV page carries. -/
def Acc.payload (a : Acc) (l : FabLine) : List Byte :=
  (upto l.len).map (fun i =>
    ((a.elems.filterMap (fun e => (e.locs.findIdx? (fun o => match o with
      | some (.remote _ dev pa) => dev = l.dev && decide (pa = l.pa + i)
      | _ => false)).map (fun j => e.val.extractLsb' (8 * j) 8))).getLast?).getD 0)

/-- Terminate the workgroup of an access that failed when it was too late to trap (R120, R354), if the workgroup is still there. -/
def State.failLate (s : State) (sid : StrandId) (task : W64) (pc : W64) (va : W64) (bf : Option (Nat × BitVec 16)) (cause : BitVec 8) : State :=
  match s.wgs.find sid.wg with
  | none => s
  | some g => if g.task = task then s.terminate sid.wg (some (terminationRecord g sid pc va bf cause)) else s

/-- The elements of an access that lines which have failed hold: what is still to perform, lowest thread first (R354). -/
def State.failing (s : State) (a : Acc) (ls : List FabLine) : List Elem :=
  (threads.flatMap (fun t => a.elems.filter (fun e => e.thread = t && !e.done))).filter (fun e => ls.any (fun k => e.places.any (s.onLine k)))

/-- A remote access has failed on some of its lines (R354): it is dropped and its workgroup terminated. -/
def State.failAcc (s : State) (id : Nat) (bad : FabLine → Bool) : State :=
  match s.accs.find? (fun a => a.id = id) with
  | none => s
  | some a =>
    let va := ((s.failing a (a.lines.filter bad)).head?.map Elem.va).getD 0
    State.failLate { s with accs := s.accs.filter (fun b => b.id ≠ id) } a.strand a.task a.pc va (a.bf.map (fun b => (b, a.bfTag))) 0x04

/-- The packet of a directory request of this device (R360). -/
def State.dirPacket (s : State) (line : Nat) (req : DirReq) : Packet :=
  s.cohPacket .dirreq (lineHome line).1 line (.req req) [match req with | .gets => 0 | .getm => 1 | .putm => 2]

/-- Enter a directory request of this device and send it; it waits to be sent while 4,096 are unanswered at its spine (R351). -/
def State.askSpine (s : State) (line : Nat) (req : DirReq) : State :=
  let p := s.dirPacket line req
  if s.fabric.crowded p then s
  else State.sendPacket { s with fabric := { s.fabric with wants := s.fabric.wants ++ [DirWant.mk line req none 0 false false none false] } } p (.dir line)

/-- A request of this device for a COHF line, to the line's directory spine (R360, R361). -/
def State.askDir (s : State) (ctx dev pa : Nat) (own : Bool) : State :=
  let key := remKey dev pa / 256
  if s.fabric.wants.any (fun k => k.line = key) then s
  else
    let s := { s with fabric := { s.fabric with tags := s.fabric.tags.put key (s.ftagOf ctx) } }
    s.askSpine key (if own then .getm else .gets)

/-- Send for one line of an access: a directory request for a COHF line, and for an element of a DEV page a READ or a WRITE; none while 4,096
are unanswered (R351, R353). -/
def State.sendLine (s : State) (ctx : Nat) (l : FabLine) (store : Bool) (payload : List Byte) (use_ : PktUse) : Option State :=
  let plane := fabPlane (l.pa / 256) l.dev
  if !l.one then some (s.askDir ctx l.dev l.pa l.own)
  else
    let p := s.fabric.packet (if store then .write else .read) l.dev (s.ftagOf ctx) plane (BitVec.ofNat 64 l.pa) l.len (if store then payload else [])
    if s.fabric.crowded p then none else some (s.sendPacket p use_)

/-- Send for the COHF lines of an engine's access that are not held (R360). -/
def State.askLines (s : State) (ctx : Nat) (ls : List FabLine) : State :=
  ls.foldl (fun s l => if l.one || s.cohReady l then s else s.askDir ctx l.dev l.pa l.own) s

/-- A line may be sent for now: it has not been, the device does not hold it, and on a DEV page every lower thread's element is done
(R94). -/
def State.sendable (s : State) (ls : List FabLine) (i : Nat) (l : FabLine) : Bool :=
  if l.one then !l.sent && (ls.take i).all (fun k => !k.one || k.done) else !l.done && !s.cohReady l

/-- The device of a line is another that cannot be reached, and it is still to be asked (R346, R354). -/
def State.lost (s : State) (l : FabLine) : Bool :=
  !l.done && !(l.one && l.sent) && !(!l.one && s.cohReady l) && decide (l.dev ≠ s.fabric.device) &&
  !s.fabric.reaches l.dev (fabPlane (l.pa / 256) l.dev)

/-- Mark a packet of an access as sent. -/
def sentAt (ls : List FabLine) (i : Nat) : List FabLine := listAdjust ls i (fun l => { l with sent := true })
/-- Mark a packet of an access as answered. -/
def doneAt (ls : List FabLine) (i : Nat) : List FabLine := listAdjust ls i (fun l => { l with done := true })

/-- Send for the lines of an access that may go out; an unreachable device fails it (R353, R354). -/
def State.pumpAcc (s : State) (id : Nat) : State :=
  match s.accs.find? (fun a => a.id = id) with
  | none => s
  | some a =>
    if !s.ready a.strand.wg a.deps then s
    else if a.lines.any s.lost then s.failAcc id s.lost
    else
      (upto a.lines.length).foldl (fun s i => match a.lines[i]? with
        | none => s
        | some l =>
          if !s.sendable a.lines i l then s
          else
            match s.sendLine a.ctx l a.kind.isStore (a.payload l) (.elem id i) with
            | none => s
            | some s => { s with accs := s.accs.map (fun b => if b.id = id then { b with lines := sentAt b.lines i } else b) }) s

/-- Apply a function to a queue entry of any workgroup. -/
def State.updEntry (s : State) (id : Nat) (g : QEntry → QEntry) : State :=
  { s with wgs := s.wgs.map (fun p =>
      if p.2.entries.any (fun e => e.id = id) then
        (p.1, { p.2 with queues := p.2.queues.map (fun q => (q.1, { q.2 with chans := q.2.chans.map (fun c => c.map (fun e =>
          if e.id = id then g e else e)) })) })
      else p) }

/-- The pending entry of a number, with its workgroup. -/
def State.pendEntry (s : State) (id : Nat) : Option (WgId × Workgroup × QEntry × Pend) :=
  s.wgs.findSome? (fun p => (p.2.entries.find? (fun e => e.id = id)).bind (fun e => e.pend.map (fun q => (p.1, p.2, e, q))))

/-- Send the packets of a pending entry. -/
def State.pumpEntry (s : State) (id : Nat) : State :=
  match s.pendEntry id with
  | none => s
  | some (_, g, _, p) =>
    (upto p.lines.length).foldl (fun s i => match p.lines[i]? with
      | none => s
      | some l =>
        if !s.sendable p.lines i l then s
        else
          match s.sendLine g.ctx l false [] (.entry id i) with
          | none => s
          | some s => s.updEntry id (fun e => { e with pend := e.pend.map (fun p => { p with lines := sentAt p.lines i }) })) s

/-- Send what remote accesses may send. -/
def State.pump (s : State) : State :=
  (s.accs.filter (fun a => a.lines.any (fun l => !l.done && !(l.one && l.sent)))).foldl (fun s a => s.pumpAcc a.id) s

/-! ### Queue entries (R56, R57) -/

/-- Fill an entry: its words and tag, or POISON with what its fault record names. -/
def State.fillEntry (s : State) (w : WgId) (id : Nat) (words : List W32) (tag : BitVec 2) (r : Option FaultRec) : State :=
  let s := s.updEntry id (fun e => { e with words := words, tag := tag, pend := none, poison := r })
  s.sweepQueues w

/-- The fault record of a POISON entry (R57, R58). -/
def poisonRec (g : Workgroup) (p : Pend) (cause : BitVec 8) (va : W64) (mask : TMask) : FaultRec :=
  { task := g.task, pc := p.pc, va := va, tag := p.bfTag, bf := p.bf, mask := mask, strand := p.strand.idx, slice := p.strand.slice,
    disp := 0, cause := cause, code := 0x03 }

/-- What the translation of a pending entry's elements finds. -/
structure Filled where
  wait  : Bool
  fails : List (Fetch × BitVec 8)
  data  : List (Fetch × List Loc)

/-- The places of the bytes of a local or remote element whose pages are found; a DEV element must have 4 or 8 aligned bytes. -/
def placesOf (l1 l2 : Leaf) (va : W64) (n : Nat) : List Loc :=
  (upto n).map (fun i =>
    let a := va + BitVec.ofNat 64 i
    let l := if a.toNat / 4096 = va.toNat / 4096 then l1 else l2
    match l.dev with
    | some d => .remote l.attr d (l.pa a)
    | none => .phys l.attr (l.pa a))

/-- An element has the size and alignment that its pages need where one is DEV (R94). -/
def devOk (p q : Leaf) (va : W64) (n : Nat) : Bool :=
  !(p.attr = .dev || q.attr = .dev) || ((n = 4 || n = 8) && va.toNat % n = 0)

/-- The 256-byte line of an address. -/
def lineOf (va : W64) : Nat := va.toNat / 256

/-- The last byte of an element. -/
def lastByte (va : W64) (n : Nat) : W64 := va + BitVec.ofNat 64 (n - 1)

/-- The lines that elements touch, each once, by the first element that touches it (R105). -/
def linesTouched (es : List (W64 × Nat)) : List Nat :=
  es.foldl (fun l e => [lineOf e.1, lineOf (lastByte e.1 e.2)].foldl (fun l k => if l.contains k then l else l ++ [k]) l) []

/-- Translate each line that elements touch once, in the order of `linesTouched`, and check it for an access kind (R104, R105). A failed
service of the joiner is an invalid page, and one whose request is not answered still needs service (R341). -/
def State.translateLines (s : State) (core ctx : Nat) (j : Joiner) (k : AKind) (es : List (W64 × Nat)) : State × List (Nat × Access) :=
  (linesTouched es).foldl (fun (s, l) n =>
    let va := BitVec.ofNat 64 (256 * n)
    if s.failed j va then (s, l ++ [(n, .fail)])
    else if s.waitsPage j va then (s, l ++ [(n, .service)])
    else
      let (s, a) := s.accessPage core ctx va k
      (s, l ++ [(n, a)])) (s, [])

/-- What the translation of an address's line found. -/
def lineAccess (ls : List (Nat × Access)) (va : W64) : Access := ((ls.find? (fun p => p.1 = lineOf va)).map Prod.snd).getD .busy

/-- The lines of an element's first and last byte. -/
def State.elemPages (s : State) (core ctx : Nat) (j : Joiner) (va : W64) (n : Nat) (k : AKind) : State × Access × Access :=
  let (s, ls) := s.translateLines core ctx j k [(va, n)]
  (s, lineAccess ls va, lineAccess ls (lastByte va n))

/-- Translate the elements of a pending entry (R56, R57, R105, R341). -/
def State.entryData (s : State) (core ctx id : Nat) (fs : List Fetch) : State × Filled :=
  let (s, ls) := s.translateLines core ctx (.entry id) .read (fs.map (fun f => (f.va, f.size)))
  fs.foldl (fun (s, d) f =>
    let last := lastByte f.va f.size
    match lineAccess ls f.va, lineAccess ls last with
    | .fail, _ => (s, { d with fails := d.fails ++ [(f, 0x04)] })
    | _, .fail => (s, { d with fails := d.fails ++ [(f, 0x04)] })
    | .service, _ => (s.request ctx f.va .read (.entry id), { d with wait := true })
    | _, .service => (s.request ctx last .read (.entry id), { d with wait := true })
    | .ok a, .ok b =>
      if devOk a b f.va f.size then (s, { d with data := d.data ++ [(f, placesOf a b f.va f.size)] })
      else (s, { d with fails := d.fails ++ [(f, 0x0D)] })
    | _, _ => (s, { d with wait := true })) (s, ⟨false, [], []⟩)

/-- The failing elements that decide a POISON entry: a page failure comes before a DEV failure (R104). -/
def decisive (fs : List (Fetch × BitVec 8)) : List (Fetch × BitVec 8) :=
  let p := fs.filter (fun f => f.2 = 0x04)
  if p.isEmpty then fs else p

/-- The 32-bit word that an element gives (R212). -/
def Fetch.word32 (f : Fetch) (bs : List Byte) : W32 :=
  let x := natOfBytes bs
  if f.sx then (sext64 (8 * f.size) x).truncate 32 else BitVec.ofNat 32 x

/-- The bytes that a pending entry reads at its places. -/
def State.pendByte (s : State) (core : Nat) (p : Pend) (l : Loc) : Byte :=
  match l with
  | .remote _ dev pa => let b := p.buf.get (remKey dev pa); if b ≠ 0 then b.truncate 8 else s.readByte core l
  | l => s.readByte core l

/-- The eight fetches of a 32-byte element at an address (R222). -/
def wideFetches (va : W64) : List Fetch :=
  (upto 8).map (fun w => { word := w, va := va + BitVec.ofNat 64 (4 * w), size := 4, sx := false })

/-- The element address of R102 from a record's words. -/
def recAddr (w0 w2 idx : W64) : W64 :=
  let swz := bits w2 36 4
  let o := (w2.extractLsb' 0 32).signExtend 64 * idx
  let o := if swz ≠ 0 then o ^^^ BitVec.ofNat 64 (o.toNat / 2 ^ (swz + 6) % 8 * 16) else o
  w0 + o

/-- The data of a pending entry's elements (R56, R57): a failure with its record, a wait, or the bytes of each element. -/
inductive Got where
  | poison (s : State) (r : FaultRec)
  | wait (s : State)
  | ok (s : State) (data : List (Fetch × List Byte))

/-- An address of a context lies on a DEV page, or what its page is is not known yet. -/
def State.mayDev (s : State) (core ctx : Nat) (va : W64) : Bool :=
  match (s.translate core ctx va).2 with
  | .ok l => l.attr = .dev
  | .invalid => false
  | _ => true

/-- What of a strand, issued before an access of number `lim` to a DEV page and before it in program order, must perform before that access:
accesses, pending entries and logged stores to DEV pages (R94, R126). -/
def State.devDeps (s : State) (sid : StrandId) (line : List Nat) (lim : Nat) : List Nat :=
  let core := sid.wg.core
  let ctx := s.ctxOf sid.wg
  let ents := ((s.wgs.find sid.wg).map Workgroup.entries).getD []
  (s.accs.filter (fun a => decide (a.id < lim) && a.dev && !a.over && decide (a.strand = sid) && lineBefore a.line line)).map Acc.id ++
  (ents.filter (fun e => decide (e.id < lim) && (match e.pend with
    | some p => decide (p.strand = sid) && lineBefore p.line line && p.fetches.any (fun f => s.mayDev core ctx f.va)
    | none => false))).map QEntry.id ++
  ((s.mends sid).filter (fun e => decide (e.id < lim) && lineBefore e.lin line && s.mayDev core ctx e.line)).map Mend.id

/-- What the reads of a queue entry of number `lim` must follow of what its strand issued before it (R119, R126): acquires, accesses and
entries that may reach the same bytes, and the logged stores to their lines. -/
def State.readDeps (s : State) (sid : StrandId) (line : List Nat) (lim : Nat) (fs : List Fetch) : List Nat :=
  let near (va n : Nat) : Bool := fs.any (fun x => mayAlias x.va.toNat x.size va n)
  let ents := ((s.wgs.find sid.wg).map Workgroup.entries).getD []
  (s.accs.filter (fun a => decide (a.id < lim) && decide (a.strand = sid) && lineBefore a.line line && !a.over &&
    (a.acq || a.elems.any (fun e => !e.done && near e.va.toNat e.locs.length)))).map Acc.id ++
  (ents.filter (fun e => decide (e.id < lim) && (match e.pend with
    | some p => decide (p.strand = sid) && lineBefore p.line line && p.fetches.any (fun x => near x.va.toNat x.size)
    | none => false))).map QEntry.id ++
  ((s.mends sid).filter (fun e => decide (e.id < lim) && ((e.acq && lineBefore e.lin line) ||
    fs.any (fun x => lineOf e.line = lineOf x.va || lineOf e.line = lineOf (lastByte x.va x.size))))).map Mend.id

/-- The fetches that lost lines hold, and the mask of their words (R58, R216). -/
def lostFetches (d : List (Fetch × List Loc)) (bad : Loc → Bool) : List Fetch := (d.filter (fun x => x.2.any bad)).map Prod.fst

/-- The mask of the words of some fetches. -/
def wordMask (fs : List Fetch) : TMask := maskOf (fun t => fs.any (fun f => f.word = t))

/-- Fetch the elements of an entry once their lines are held and their packets answered (R353); those of DEV pages follow what the strand
did on such pages before (R94). -/
def State.gather (s : State) (w : WgId) (g : Workgroup) (id : Nat) (p : Pend) (fs : List Fetch) : Got :=
  let (s, d) := s.entryData w.core g.ctx id fs
  match (decisive d.fails).head? with
  | some (f, cause) =>
    .poison (s.unfail (.entry id)) (poisonRec g p cause f.va (wordMask ((decisive d.fails).map Prod.fst)))
  | none =>
    if d.wait then .wait s
    else
      let places := d.data.flatMap Prod.snd
      let lines := if p.lines.isEmpty then s.linesOf false (d.data.map Prod.snd) else p.lines
      let out := lostFetches d.data (fun l => (lines.filter s.lost).any (fun k => s.onLine k l))
      if places.any Loc.isDev && !s.ready w (s.devDeps p.strand p.line id) then .wait s
      else if !out.isEmpty then .poison s (poisonRec g p 0x04 ((out.head?.map Fetch.va).getD 0) (wordMask out))
      else if !s.linesReady lines then .wait ((s.updEntry id (fun e => { e with pend := some { p with lines := lines } })).pumpEntry id)
      else if places.any (fun l => match l with | .phys _ pa => !s.served pa | _ => false) then .wait (s.fetchTiers places)
      else if !places.all (s.here w.core) then .wait (s.askBytes w.core w.slot places)
      else
        let data := d.data.map (fun x => (x.1, x.2.map (fun l => s.pendByte w.core p l)))
        .ok (places.foldl (fun s l => s.cacheByte w.core l) (s.touchAll w false places)) data

/-- Fill an entry, and with it the one that takes the high words of its 8-byte elements (R219). -/
def State.fillPair (s : State) (w : WgId) (id : Nat) (p : Pend) (lo hi : List W32) (r : Option FaultRec) : State :=
  let tag (p : Pend) : BitVec 2 := if r.isSome then 3 else if p.mark then 1 else 0
  let s := s.fillEntry w id lo (tag p) r
  match p.hi with
  | none => s
  | some h => s.fillEntry w h hi (((s.pendEntry h).map (fun x => tag x.2.2.2)).getD (tag p)) r

/-- Fill an entry from its fetches: a splat's one element goes to every word (R220). -/
def State.fillData (s : State) (w : WgId) (g : Workgroup) (id : Nat) (p : Pend) : State :=
  match s.gather w g id p p.fetches with
  | .poison s r => s.fillPair w id p zeroWords zeroWords (some (if p.wide || p.splat then { r with mask := 0xFF } else r))
  | .wait s => s
  | .ok s data =>
    let at_ (t : Nat) : Option (Fetch × List Byte) := data.find? (fun x => p.splat || x.1.word = t)
    s.fillPair w id p (threads.map (fun t => ((at_ t).map (fun x => x.1.word32 x.2)).getD 0))
      (threads.map (fun t => ((at_ t).map (fun x => BitVec.ofNat 32 (natOfBytes x.2 / 2 ^ 32))).getD 0)) none

/-- The pending entry that is filled for an entry: the one that takes the low words of its 8-byte elements, or itself (R219). -/
def State.lowEntry (s : State) (id : Nat) : Nat := ((s.pendEntry id).bind (fun x => x.2.2.2.lo)).getD id

/-- QUEUE_ENTRY_FILL: a pending entry's data arrive (R56), when what precedes it is over. A list-form entry reads its list element
first, and the element names its data, whose reads follow what precedes them in turn (R119, R222). -/
def State.fillPending (s : State) (id : Nat) : State :=
  let id := s.lowEntry id
  match s.pendEntry id with
  | none => s
  | some (w, g, _, p) =>
    if p.ue || !s.ready w p.deps then s
    else
      match p.list with
      | none => s.fillData w g id p
      | some l =>
        match s.gather w g id p l.fetch.toList with
        | .poison s r => s.fillEntry w id zeroWords 3 (some { r with mask := 0xFF })
        | .wait s => s
        | .ok s data =>
          let idx : W64 := match data.head? with | some (_, bs) => BitVec.ofNat 64 (natOfBytes bs) | none => 0
          let q : Pend := { p with list := none, bf := some l.dbf, bfTag := l.dtag, lines := [], buf := [] }
          if idx.toNat < bits l.w1 0 40 then
            let fs := wideFetches (recAddr l.w0 l.w2 idx)
            let q := { q with fetches := fs, deps := s.readDeps p.strand p.line id fs }
            let s := s.updEntry id (fun e => { e with pend := some q })
            if s.ready w q.deps then s.fillData w g id q else s
          else if bit l.w2 40 then s.fillEntry w id zeroWords (if p.mark then 1 else 0) none
          else s.fillEntry w id zeroWords 3 (some (poisonRec g q 0x05 (recAddr l.w0 l.w2 idx) 0xFF))

/-! ### The Mend log (R118 to R120) -/

/-- The kind of page access that an entry makes. -/
def AccKind.akind (k : AccKind) : AKind := if k.isAtomic then .atomic else if k.isStore then .write else .read

/-- Drop a Mend-log entry. -/
def State.dropMend (s : State) (core id : Nat) : State := s.updCore core (fun c => { c with mend := c.mend.filter (fun e => e.id ≠ id) })

/-- The lowest virtual address of an entry's mask. -/
def Mend.lowVa (m : Mend) : W64 :=
  let vas := m.parts.flatMap (fun p => p.bytes.map (fun i => p.va + BitVec.ofNat 64 i))
  match vas with
  | [] => m.line
  | v :: vs => vs.foldl (fun a x => if x.toNat < a.toNat then x else a) v

/-- A higher thread of an entry's store writes byte i of an element too, and its value is the one written; a DEV page takes every element
(R94, R105). -/
def Mend.hidden (m : Mend) (l : Leaf) (q : MendPart) (i : Nat) : Bool :=
  m.kind = .store && l.attr ≠ .dev &&
  m.parts.any (fun y => decide (q.thread < y.thread) && y.bytes.any (fun j => y.va + BitVec.ofNat 64 j = q.va + BitVec.ofNat 64 i))

/-- A logged element as one of an access to its page: the bytes that it writes have places (R118). -/
def Mend.elem (m : Mend) (l : Leaf) (q : MendPart) : Elem :=
  { thread := q.thread, va := q.va, val := q.val, cmp := q.cmp, done := false,
    locs := (placesOf l l q.va q.size).zipIdx.map (fun p => if q.bytes.contains p.2 && !m.hidden l q p.2 then some p.1 else none) }

/-- What the checks of a replayed entry find (R120): the entry's page, a failed check with its cause, or service once more. -/
def State.mendPage (s : State) (m : Mend) : State × Access × BitVec 8 :=
  let core := m.strand.wg.core
  let ctx := s.ctxOf m.strand.wg
  if s.failed (.op m.id) m.line then (s, .fail, 0x04)
  else
    let (s, p) := s.accessPage core ctx m.line (if m.kind = .add then .read else m.kind.akind)
    match p with
    | .ok l =>
      match m.kind with
      | .add =>
        if !(l.r && l.w && l.a) then (s, .fail, 0x04) else if l.attr ≠ .coh then (s, .fail, 0x0E) else (s, .ok l, 0)
      | _ => if m.parts.all (fun q => devOk l l q.va q.size) then (s, .ok l, 0) else (s, .fail, 0x0D)
    | p => (s, p, 0x04)

/-- Replay one entry: it becomes an access at the place its instruction took, and performs at once where nothing precedes it; a
failed check terminates its workgroup (R120). -/
def State.replayMend (s : State) (core id : Nat) : State :=
  match (s.core core).mend.find? (fun e => e.id = id) with
  | none => s
  | some m =>
    match s.mendPage m with
    | (s, .ok l, _) =>
      let s := s.dropMend core id
      let elems := m.parts.map (m.elem l)
      let dev := decide (l.attr = .dev)
      let a : Acc := { id := m.id, strand := m.strand, ctx := s.ctxOf m.strand.wg, task := ((s.wgs.find m.strand.wg).map Workgroup.task).getD 0,
                       line := m.lin, kind := m.kind, path := none, pc := m.pc, bf := m.bf, bfTag := m.bfTag, elems := elems,
                       deps := m.deps ++ (if dev then s.devDeps m.strand m.lin m.id else []), acq := m.acq, dev := dev,
                       lines := s.linesOf true (elems.map Elem.places), buf := [] }
      State.perform { s with accs := s.accs ++ [a] } m.id 0xFF
    | (s, .fail, cause) =>
      ((s.dropMend core id).failLate m.strand (((s.wgs.find m.strand.wg).map Workgroup.task).getD 0) m.pc m.lowVa (m.bf.map (fun b => (b, m.bfTag))) cause).unfail (.op m.id)
    | (s, .service, _) => s.request (s.ctxOf m.strand.wg) m.line m.kind.akind (.op m.id)
    | (s, _, _) => s

/-- The Mend-log entries of a page, in core order and log order. -/
def State.mendsOf (s : State) (asid vpage : Nat) : List (Nat × Nat) :=
  s.cores.flatMap (fun c => (c.2.mend.filter (fun m =>
    decide (bits m.line 12 45 = vpage) && ((s.ctxs.find (s.ctxOf m.strand.wg)).map Ctx.asid = some asid))).map (fun m => (c.1, m.id)))

/-- Replay the entries of a page in log order (R120). -/
def State.replayPage (s : State) (asid vpage : Nat) : State :=
  (s.mendsOf asid vpage).foldl (fun s p => s.replayMend p.1 p.2) s

/-- Try the Mend-log entries that wait for no page request, core by core in log order (R120, R121). -/
def State.replayMends (s : State) : State :=
  (s.cores.flatMap (fun c => c.2.mend.map (fun m => (c.1, m)))).foldl (fun s p =>
    if s.waitsPage (.op p.2.id) p.2.line then s else s.replayMend p.1 p.2.id) s

/-- PAGE_DONE (R341): with RETRY the joined accesses walk again and the page's Mend-log entries are replayed; with FAIL they are
treated as accesses to an invalid page. A withdrawn request is forgotten. -/
def State.pageDone (s : State) (req : Nat) (retry : Bool) : State :=
  match s.pageReqs.find? (fun r => r.num = req) with
  | none => s
  | some r =>
    let s := { s with pageReqs := s.pageReqs.filter (fun x => x.num ≠ req) }
    if r.withdrawn then s
    else
      let mends := s.mendsOf r.asid r.vpage
      let s := if retry then s else { s with fails := s.fails ++ (r.joined.map (fun j => (j, r.vpage)) ++ mends.map (fun m => (Joiner.op m.2, r.vpage))) }
      let s := s.replayPage r.asid r.vpage
      if retry then s
      else r.joined.foldl (fun s j => match j with | .entry id => s.fillPending id | _ => s) s

/-! ### Events -/

/-- LOAD_RETURN: chosen threads of a load, or of a fetching atomic, receive their values (R116). -/
def execLoadReturn (id : Nat) (threads : TMask) (s : State) : Out :=
  .next (match s.accs.find? (fun a => a.id = id) with
    | some a => if a.kind.isLoad then s.perform id threads else s
    | none => s)

/-- STORE_PERFORMED: chosen threads of a store or non-fetching atomic perform (R116). -/
def execStorePerformed (id : Nat) (threads : TMask) (s : State) : Out :=
  .next (match s.accs.find? (fun a => a.id = id) with
    | some a => if a.kind.isLoad then s else s.perform id threads
    | none => s)

/-- QUEUE_ENTRY_FILL (R56, R57). -/
def execQueueEntryFill (id : Nat) (s : State) : Out := .next (s.fillPending id)

/-- WALK_COMPLETE (R340). -/
def execWalkComplete (id : Nat) (s : State) : Out := .next (s.walkDone id)

/-- PAGE_DONE (R341). -/
def execPageDone (req : Nat) (retry : Bool) (s : State) : Out := .next (s.pageDone req retry)

end Sys2Proof.Machine
end

