-- ==== Sys2Proof/Machine/AccessOps.lean ====
section
/-!
DEFINITION. Machine/AccessOps.lean: operands of the access slice (R209), buffer records (R100 to R103), the checks of R104 in their
order, comparators (R382, R383), and the issue of loads, stores and atomics (R105, R116, R118, R217).
-/
namespace Sys2Proof.Machine
open Sys2Proof

/-! ### Operands -/

/-- A source of an access instruction for a thread (R209): registers whole, constants as i64, the literal sign-extended. -/
def Me.val64 (m : Me) (lit : W32) (x : Sel) (t : Nat) : W64 :=
  match x with
  | .reg n => m.st.xGet n.toNat t
  | .s n => m.st.sGet n.toNat
  | .latch n => m.st.latchGet n.toNat t
  | .const n => BitVec.ofNat 64 ((ETy.const .i64 n.toNat).getD 0)
  | .lit => lit.signExtend 64
  | .queue _ => 0

/-- A uniform operand: an x register or latch gives the lowest-indexed active thread's value (R209). -/
def Me.uni (m : Me) (lit : W32) (x : Sel) : W64 := m.val64 lit x (TMask.lowest m.em)

/-- The x registers among operands. -/
def xRegs (l : List Sel) : List Nat := l.filterMap (fun x => match x with | .reg n => some n.toNat | _ => none)

/-! ### Shared memory as a strand sees it (R108) -/

/-- A byte of the workgroup's allocation, with the strand's own stores that have not performed. -/
def State.ownShared (s : State) (m : Me) (off : Nat) : Byte :=
  let l : Loc := .shared m.sid.wg off
  let own := (s.accs.filter (fun a => decide (a.strand = m.sid) && a.kind = .store)).filterMap (fun a =>
    (a.elems.filterMap (fun e => if e.done then none else
      (e.locs.findIdx? (fun y => y = some l)).map (fun i => e.val.extractLsb' (8 * i) 8))).getLast?)
  match own.getLast? with
  | some b => b
  | none => m.wg.shared.get off

/-- A 64-bit word of the workgroup's allocation as a strand sees it. -/
def State.ownWord (s : State) (m : Me) (off : Nat) : W64 := w64OfBytes ((upto 8).map (fun i => s.ownShared m (off + i)))

/-! ### Buffer records (Table 6.5) -/

/-- A buffer record's four words. -/
structure BufRec where
  w0 : W64
  w1 : W64
  w2 : W64
  w3 : W64

/-- The record as read at issue. -/
def State.bufRec (s : State) (m : Me) (n : Nat) : BufRec :=
  ⟨s.ownWord m (32 * n), s.ownWord m (32 * n + 8), s.ownWord m (32 * n + 16), s.ownWord m (32 * n + 24)⟩

/-- EXTENT. -/
def BufRec.extent (b : BufRec) : Nat := bits b.w1 0 40
/-- ESIZE's code. -/
def BufRec.ecode (b : BufRec) : Nat := bits b.w2 32 3
/-- The element size in bytes. -/
def BufRec.esize (b : BufRec) : Nat := 2 ^ b.ecode
/-- SWZ. -/
def BufRec.swz (b : BufRec) : Nat := bits b.w2 36 4
/-- OOBZ. -/
def BufRec.oobz (b : BufRec) : Bool := bit b.w2 40
/-- RO. -/
def BufRec.ro (b : BufRec) : Bool := bit b.w2 41
/-- TAG. -/
def BufRec.tag (b : BufRec) : BitVec 16 := b.w3.truncate 16

/-- A malformed record (R101); `ok` are the element sizes that the instruction accepts. -/
def BufRec.bad (b : BufRec) (ok : Nat → Bool) : Bool :=
  bits b.w3 16 48 ≠ 0 || bits b.w2 42 22 ≠ 0 || bit b.w2 35 || bits b.w1 40 24 ≠ 0 ||
  decide (5 < b.ecode) || decide (8 < b.swz) || !canonical b.w0 || !ok b.esize

/-- The address of an element (R102). -/
def BufRec.addr (b : BufRec) (idx : W64) : W64 := recAddr b.w0 b.w2 idx

/-- The element is in bounds (R103). -/
def BufRec.inBounds (b : BufRec) (idx : W64) : Bool := decide (idx.toNat < b.extent)

/-! ### Comparators (R382, R383) -/

/-- The kinds of access that comparators watch (R382). -/
inductive WKind where
  | r | w | a
deriving DecidableEq, Repr

/-- A comparator selects a kind. -/
def Watch.selects (w : Watch) : WKind → Bool
  | .r => w.read | .w => w.write | .a => w.atom

/-- A comparator's range meets n bytes at an address. -/
def Watch.meets (w : Watch) (va : W64) (n : Nat) : Bool :=
  decide (va.toNat < w.addr.toNat + w.len.toNat) && decide (w.addr.toNat < va.toNat + n)

/-- The comparators of the core that match some accesses, each an address and its bytes. -/
def State.compsOf (s : State) (core : Nat) (k : WKind) (l : List (W64 × Nat)) : TMask :=
  let ws := (s.core core).watches.filter (fun w => w.selects k && l.any (fun a => w.meets a.1 a.2))
  maskOf (fun t => ws.any (fun w => w.num = t))

/-- An access of n bytes matches a comparator of the core. -/
def State.watched (s : State) (core : Nat) (k : WKind) (va : W64) (n : Nat) : Bool :=
  (s.core core).watches.any (fun w => w.selects k && w.meets va n)

/-! ### The checks of R104 and the pages of an access -/

/-- A thread's element: its address, size, value and compared value; `skip` where it is out of bounds of an OOBZ record. -/
structure Req where
  thread : Nat
  va     : W64
  size   : Nat
  val    : W64
  cmp    : W64
  skip   : Bool

/-- An access instruction for the driver. -/
structure Ask where
  kind  : AccKind
  akind : AKind
  path  : Path
  bf    : Option (Nat × BitVec 16)
  watch : WKind
  acq   : Bool
  rel   : Bool
  reqs  : List Req

/-- A request with its pages. -/
structure Paged where
  req : Req
  p   : Access
  q   : Access

/-- The mask of a list of requests, and the address of the lowest one. -/
def failTrap (c : TrapCode) (bf : Option (Nat × BitVec 16)) (l : List Req) : Trap :=
  { code := c, mask := some (maskOf (fun t => l.any (fun r => r.thread = t))),
    va := (l.head?.map Req.va).getD 0, bf := bf }

/-- The outcome of the checks of an access. -/
inductive Checked where
  | trap (s : State) (t : Trap)
  | stall (s : State)
  | ok (s : State) (ps : List Paged)

/-- Find the pages of every request (step 4 of R104). -/
def State.pagesOf (s : State) (m : Me) (a : Ask) : State × List Paged :=
  let rs := a.reqs.filter (fun r => !r.skip)
  let (s, ls) := s.translateLines m.core m.wg.ctx (.inst m.sid m.f.born) a.akind (rs.map (fun r => (r.va, r.size)))
  (s, rs.map (fun r => ⟨r, lineAccess ls r.va, lineAccess ls (lastByte r.va r.size)⟩))

/-- A request's DEV check fails on one of its pages (R94). -/
def Paged.devBad (x : Paged) : Bool :=
  match x.p, x.q with
  | .ok l, .ok r => !devOk l r x.req.va x.req.size
  | .ok l, _ => !devOk l l x.req.va x.req.size
  | _, .ok r => !devOk r r x.req.va x.req.size
  | _, _ => false

/-- Steps 4 and 5 of R104 and the comparators of R383, once every line's translation is known. A load that needs service joins its page
requests and stalls (R217). -/
def State.checkPages (s : State) (m : Me) (a : Ask) : Checked :=
  let (s1, ps) := s.pagesOf m a
  let bad := ps.filter (fun x => x.p = .fail || x.q = .fail)
  let dev := ps.filter Paged.devBad
  let w := ps.filter (fun x => s.watched m.core a.watch x.req.va x.req.size)
  if ps.any (fun x => x.p = .busy || x.q = .busy) then .stall s
  else if !bad.isEmpty then .trap (s1.unfail (.inst m.sid m.f.born)) (failTrap .pageProt a.bf (bad.map Paged.req))
  else if !dev.isEmpty then .trap s1 (failTrap .align_ a.bf (dev.map Paged.req))
  else if !w.isEmpty && !m.st.watchSkip then .trap s1
    { failTrap .watch a.bf (w.map Paged.req) with comps := s.compsOf m.core a.watch (w.map (fun x => (x.req.va, x.req.size))) }
  else if a.kind.isLoad && ps.any (fun x => x.p = .service || x.q = .service) then
    .stall (ps.foldl (fun s x =>
      let s := if x.p = .service then s.request m.wg.ctx x.req.va a.akind (.inst m.sid m.f.born) else s
      if x.q = .service then s.request m.wg.ctx (lastByte x.req.va x.req.size) a.akind (.inst m.sid m.f.born) else s) s1)
  else .ok s1 ps

/-! ### Issue (R105, R116, R118) -/

/-- A counter of a path cannot be raised (R116). -/
def State.pathFull (s : State) (w : WgId) (p : Path) : Bool := decide (1023 ≤ s.inflight w p)

/-- The lines of a store that enter the Mend log: their page needs service, or the strand has an entry for them (R118). -/
def State.mendLines (s : State) (m : Me) (ps : List Paged) : List Nat :=
  let own := (s.mends m.sid).map (fun e => lineOf e.line)
  ps.foldl (fun l x =>
    let a := lineOf x.req.va
    let b := lineOf (lastByte x.req.va x.req.size)
    let l := if (x.p = .service || own.contains a) && !l.contains a then l ++ [a] else l
    if (x.q = .service || own.contains b) && !l.contains b then l ++ [b] else l) []

/-- Byte i of a request is written by a higher thread of the instruction (R105). -/
def overridden (ps : List Paged) (r : Req) (i : Nat) : Bool :=
  let b := r.va.toNat + i
  ps.any (fun y => decide (r.thread < y.req.thread) && decide (y.req.va.toNat ≤ b) && decide (b < y.req.va.toNat + y.req.size))

/-- The places of a request's bytes outside the Mend log; a byte that a higher thread writes too is left to it, but for a DEV page, which
takes every element (R94, R105). -/
def reqLocs (ps : List Paged) (k : AccKind) (logged : List Nat) (x : Paged) : List (Option Loc) :=
  (upto x.req.size).map (fun i =>
    let a := x.req.va + BitVec.ofNat 64 i
    if logged.contains (lineOf a) then none
    else
      match (if lineOf a = lineOf x.req.va then x.p else x.q) with
      | .ok l =>
        if k = .store && l.attr ≠ .dev && overridden ps x.req i then none
        else (match l.dev with | some d => some (.remote l.attr d (l.pa a)) | none => some (.phys l.attr (l.pa a)))
      | _ => none)

/-- The part of a request within a logged line. -/
def mendPart (line : Nat) (r : Req) : Option MendPart :=
  let is := (upto r.size).filter (fun i => lineOf (r.va + BitVec.ofNat 64 i) = line)
  if is.isEmpty then none else some ⟨r.thread, r.va, r.size, r.val, r.cmp, is⟩

/-- A logged entry may reach bytes of a range (R88). -/
def Mend.near (e : Mend) (va n : Nat) : Bool := e.parts.any (fun q => mayAlias q.va.toNat q.size va n)

/-- What a new access must wait for (R119, R126). A load waits for the strand's logged entries on its lines. -/
def State.depsOf (s : State) (m : Me) (k : AccKind) (rel dev : Bool) (elems : List Elem) : List Nat :=
  let held := s.accs.filter (fun a => m.after a && !a.over && (
    a.acq || (a.kind.isLoad && k.isStore) ||
    (rel && (!m.diverged || a.elems.any (fun e => !e.done && TMask.has m.em e.thread))) ||
    a.elems.any (fun e => !e.done && elems.any (fun f => overlapOrder a.kind k e f))))
  let pends := m.pendings.filter (fun q => k.isStore || rel ||
    (match q.pend with
     | some p => p.fetches.any (fun x => elems.any (fun e => mayAlias x.va.toNat x.size e.va.toNat e.locs.length))
     | none => false))
  let plain (e : Elem) : Bool := e.places.any (fun l => match l with | .shared _ _ => false | .pipe _ _ => false | _ => true)
  let mends := (s.mends m.sid).filter (fun q => rel ||
    (lineBefore q.lin m.line && (q.acq || elems.any (fun e => plain e && q.near e.va.toNat e.locs.length))) ||
    (k.isLoad && elems.any (fun e => plain e && (lineOf q.line = lineOf e.va || lineOf q.line = lineOf (lastByte e.va e.locs.length)))))
  held.map Acc.id ++ pends.map QEntry.id ++ mends.map Mend.id ++ (if dev then s.devDeps m.sid m.line s.serial else [])

/-- What a logged store must follow when it performs (R125, R126): what an access would, and the strand's earlier entries of its line, so
that the strand's order is kept (R118); a logged release follows all that it covers (R120, R129). -/
def State.mendDeps (s : State) (m : Me) (rel : Bool) (line : Nat) (rs : List Req) : List Nat :=
  (if rel then (s.covered m).map Acc.id else []) ++
  ((s.accs.filter (fun a => m.after a && !a.over &&
    (a.kind.isLoad || a.acq || a.elems.any (fun e => !e.done && rs.any (fun r => mayAlias e.va.toNat e.locs.length r.va.toNat r.size))))).map Acc.id) ++
  m.pendings.map QEntry.id ++
  ((s.mends m.sid).filter (fun e => rel || lineOf e.line = line ||
    (lineBefore e.lin m.line && (e.acq || rs.any (fun r => e.near r.va.toNat r.size))))).map Mend.id

/-- Enter a line of a store in the Mend log, joining its page's request (R118, R341). -/
def State.logLine (s : State) (m : Me) (a : Ask) (ps : List Paged) (line : Nat) : State :=
  let rs := ps.map Paged.req
  let va := BitVec.ofNat 64 (line * 256)
  let id := s.serial
  let e : Mend := { id := id, strand := m.sid, line := va, lin := m.line, kind := a.kind, pc := m.pc, bf := a.bf.map Prod.fst,
                    bfTag := (a.bf.map Prod.snd).getD 0, parts := rs.filterMap (mendPart line), deps := s.mendDeps m a.rel line rs, acq := a.acq }
  let s := ({ s with serial := id + 1 }).updCore m.core (fun c => { c with mend := c.mend ++ [e] })
  s.request m.wg.ctx va a.akind (.op id)

/-- An element lies on a DEV page. -/
def Elem.isDev (e : Elem) : Bool := e.places.any Loc.isDev

/-- List an access in flight (R116); `dev` says that it is ordered as a device access (R94). -/
def State.addAcc (s : State) (m : Me) (a : Ask) (dev : Bool) (path : Option Path) (elems : List Elem) : State :=
  let lines := s.linesOf a.kind.isStore (elems.map Elem.places)
  let acc : Acc := { id := s.serial, strand := m.sid, ctx := m.wg.ctx, task := m.wg.task, line := m.line, kind := a.kind, path := path, pc := m.pc, bf := a.bf.map Prod.fst,
                     bfTag := (a.bf.map Prod.snd).getD 0, elems := elems, deps := s.depsOf m a.kind a.rel dev elems, acq := a.acq,
                     dev := dev, lines := lines, buf := [] }
  { s with accs := s.accs ++ [acc], serial := s.serial + 1 }

/-- List an access in flight. -/
def State.listAcc (s : State) (m : Me) (a : Ask) (path : Option Path) (elems : List Elem) : State :=
  s.addAcc m a (elems.any Elem.isDev) path elems

/-- An element reaches another device. -/
def Elem.isRemote (e : Elem) : Bool := e.places.any (fun l => match l with | .remote _ _ _ => true | _ => false)

/-- The elements of an access in runs of the same side, local or remote, in thread order. -/
def sideRuns (es : List Elem) : List (List Elem) :=
  es.foldr (fun e rs => match rs with
    | (f :: r) :: rs => if e.isRemote = f.isRemote then (e :: f :: r) :: rs else [e] :: (f :: r) :: rs
    | rs => [e] :: rs) []

/-- List the local and the remote elements of an access on their paths. Where DEV pages of both sides take part they are listed in runs of
ascending threads, which follow one another (R94); the last run of a side stands for its path. -/
def State.listSides (s : State) (m : Me) (a : Ask) (es : List Elem) : State :=
  let far := es.filter Elem.isRemote
  let near := es.filter (fun e => !e.isRemote)
  if far.any Elem.isDev && near.any Elem.isDev then
    let rs := sideRuns es
    rs.zipIdx.foldl (fun s r =>
      let remote (l : List Elem) : Bool := l.any Elem.isRemote
      let last := !(rs.drop (r.2 + 1)).any (fun q => remote q = remote r.1)
      s.addAcc m a true (if last then some (if remote r.1 then .fab else a.path) else none) r.1) s
  else
    let s := if far.isEmpty || !near.isEmpty then s.listAcc m a (some a.path) near else s
    if far.isEmpty then s else s.listAcc m a (some .fab) far

/-- The Mend log of a core has no room for an access that may enter it: while it is full every store stalls (R118). -/
def State.logFull (s : State) (core : Nat) (k : AccKind) (logged : List Nat) : Bool :=
  let n := (s.core core).mend.length
  !k.isLoad && (decide (256 ≤ n) || decide (256 < n + logged.length))

/-- Issue an access whose checks have passed: its logged lines enter the Mend log, its local and its remote elements are listed on
their paths (R105, R116, R118); none where a counter or the log is full. -/
def State.issue (s : State) (m : Me) (a : Ask) (ps : List Paged) : Option State :=
  let logged := if a.kind.isLoad then [] else s.mendLines m ps
  let elems := a.reqs.filterMap (fun r =>
    if r.skip then
      (if a.kind.isLoad then some { thread := r.thread, va := r.va, locs := List.replicate r.size none, val := r.val, cmp := r.cmp, done := false : Elem }
       else none)
    else (ps.find? (fun x => x.req.thread = r.thread)).map (fun x =>
      { thread := r.thread, va := r.va, locs := reqLocs ps a.kind logged x, val := r.val, cmp := r.cmp, done := false : Elem }))
  let elems := if a.kind.isLoad then elems else elems.filter (fun e => !e.places.isEmpty)
  let far := elems.any Elem.isRemote
  if s.logFull m.core a.kind logged then none
  else if ((!far || elems.any (fun e => !e.isRemote)) && s.pathFull m.sid.wg a.path) || (far && s.pathFull m.sid.wg .fab) then none
  else some ((logged.foldl (fun s l => s.logLine m a ps l) s).listSides m a elems).sweep

/-- Store issue has stalled on a full Mend log: a clock counts once in counter 11 (R388). -/
def State.countMendFull (s : State) (core : Nat) : State :=
  if (s.core core).mendFull = some s.clock then s else (s.count core 11 1).updCore core (fun c => { c with mendFull := some s.clock })

/-- The stall of an issue on a full counter or a full Mend log (R116, R118, R388). -/
def State.issueStall (s : State) (m : Me) (a : Ask) (ps : List Paged) : State :=
  if s.logFull m.core a.kind (s.mendLines m ps) then s.countMendFull m.core else s

/-- Steps 4 to 6 of R104 and the issue; `go` continues after an access that issued. -/
def State.access (s : State) (m : Me) (a : Ask) (go : State → State) : State :=
  match s.checkPages m a with
  | .trap s t => s.trap m t
  | .stall s => s
  | .ok s1 ps =>
    match s1.issue m a ps with
    | none => s.issueStall m a ps
    | some s => go s

/-- An access through a buffer record, which is read once no acquire before it is outstanding (R126): steps 1 to 3 of R104, then the rest.
`strong` asks for natural alignment. -/
def State.recAccess (s : State) (m : Me) (bf : Nat) (sizes : Nat → Bool) (strong : Bool) (idx : Nat → W64) (val cmp : Nat → W64)
    (a : Ask) (go : State → State) : State :=
  let b := s.bufRec m bf
  let tag := some (bf, b.tag)
  let ts := TMask.list m.em
  let req (t : Nat) : Req := { thread := t, va := b.addr (idx t), size := b.esize, val := val t, cmp := cmp t, skip := !b.inBounds (idx t) }
  let rs := ts.map req
  let mis := rs.filter (fun r => decide (r.va.toNat % r.size ≠ 0))
  let oob := rs.filter Req.skip
  if s.acqHeld m then s
  else if b.bad sizes then s.trap m { code := .bfInvalid, bf := tag }
  else if a.kind.isStore && b.ro then s.trap m { code := .pageProt, bf := tag }
  else if strong && !mis.isEmpty then s.trap m (failTrap .align_ tag mis)
  else if !b.oobz && !oob.isEmpty then s.trap m (failTrap .bounds tag oob)
  else s.access m { a with bf := tag, reqs := rs } go

end Sys2Proof.Machine
end

