-- ==== Sys2Proof/Machine/Access.lean ====
section
/-!
DEFINITION. Machine/Access.lean: loads and stores between memory and x registers, shared and full/empty accesses, buffer records,
prefetch, in-flight counters and landing regions (R208 to R213, R217, R218, R227 to R235).
-/
namespace Sys2Proof.Machine
open Sys2Proof

/-- The frame of every access instruction of the main map (R164, R208): the issuer's waiting trap for a yield-class one, full
predication, the slice, and the stall on an outstanding load of a register it names. -/
def asAccess (yields : Bool) (len : Nat) (regs : List Nat) (s : State) (k : Me → State) : Out :=
  (if yields then asYielding else asStrand) s (fun m =>
    if m.em = 0 then s.finishVec m yields 1 len
    else if !m.access then s.raise m .illegal
    else if s.xBusy m.sid regs then s
    else k m)

/-- The end of an access instruction. -/
def State.done (s : State) (m : Me) (yields : Bool) (len : Nat) : State := s.finishVec m yields 8 len

/-- ESIZE 1, 2, 4 or 8 (Table 11.1). -/
def sizes1248 (n : Nat) : Bool := n = 1 || n = 2 || n = 4 || n = 8

/-- An access to ask for, its requests to come. -/
def ask (kind : AccKind) (akind : AKind) (path : Path) (watch : WKind) : Ask :=
  { kind := kind, akind := akind, path := path, bf := none, watch := watch, acq := false, rel := false, reqs := [] }

/-- LD (R217). -/
def execLd (p : Option Pfx) (d : BitVec 5) (idx : Sel) (sx : Bool) (bf : BitVec 6) (s : State) : Out :=
  asAccess false (pfxLen p 8) (d.toNat :: xRegs [idx]) s (fun m =>
    s.recAccess m bf.toNat sizes1248 false (m.val64 0 idx) (fun _ => 0) (fun _ => 0) (ask (.load d.toNat sx) .read .ldg .r)
      (fun s => s.done m false (pfxLen p 8)))

/-- ST (R218). -/
def execSt (p : Option Pfx) (idx v : Sel) (bf : BitVec 6) (s : State) : Out :=
  asAccess false (pfxLen p 8) (xRegs [idx, v]) s (fun m =>
    s.recAccess m bf.toNat sizes1248 false (m.val64 0 idx) (m.val64 0 v) (fun _ => 0) (ask .store .write .sto .w)
      (fun s => s.done m false (pfxLen p 8)))

/-! ### Shared memory (R106 to R108, R227) -/

/-- The bytes from a shared offset satisfy R108; plain accesses keep out of 0x1000..0x13FF. -/
def Me.sharedOk (m : Me) (off : W64) (n : Nat) : Bool :=
  let o := off.toNat
  if 2 ^ 32 < o + n then false
  else if 2 ^ 31 ≤ o then o / 2 ^ 17 % 2 ^ 14 = 0 && decide (o % 2 ^ 17 + n ≤ 2 ^ 17)
  else decide (o + n ≤ m.wg.size) && (decide (o + n ≤ 0x1000) || decide (0x1400 ≤ o))

/-- The place of a shared offset of a workgroup (R108). -/
def sharedPlace (w : WgId) (off : Nat) : Loc := if 2 ^ 31 ≤ off then .pipe w.core (off % 2 ^ 17) else .shared w off

/-- The place of a shared offset of the strand's workgroup. -/
def Me.sharedLoc (m : Me) (off : Nat) : Loc := sharedPlace m.sid.wg off

/-- A thread's element of a shared access. -/
def Me.sharedElem (m : Me) (off : W64) (n t : Nat) (val : W64) (drop : Nat → Bool) (done : Bool) : Elem :=
  { thread := t, va := off, locs := (upto n).map (fun i => if drop (off.toNat + i) then none else some (m.sharedLoc (off.toNat + i))),
    val := val, cmp := 0, done := done }

/-- The elements of a shared access by every active thread; a byte that a higher thread writes too is left to it (R105). -/
def Me.sharedElems (m : Me) (off val : Nat → W64) (n : Nat) (store : Bool) : List Elem :=
  let ts := TMask.list m.em
  ts.map (fun t => m.sharedElem (off t) n t (val t)
    (fun b => store && ts.any (fun u => decide (t < u) && decide ((off u).toNat ≤ b) && decide (b < (off u).toNat + n))) false)

/-- BOUNDS for the threads whose offsets break R108. -/
def Me.sharedTrap (m : Me) (off : Nat → W64) (n : Nat) : Option Trap :=
  let bad := (TMask.list m.em).filter (fun t => !m.sharedOk (off t) n)
  match bad.head? with
  | none => none
  | some t => some { code := .bounds, mask := some (maskOf (fun u => bad.contains u)), va := off t }

/-- LDS in both forms (R227). -/
def runLds (p : Option Pfx) (d : BitVec 5) (off : Sel) (sz : SZ) (lit : W32) (len : Nat) (s : State) : Out :=
  asAccess false (pfxLen p len) (d.toNat :: xRegs [off]) s (fun m =>
    match m.sharedTrap (m.val64 lit off) sz.bytes with
    | some t => s.trap m t
    | none =>
      if s.pathFull m.sid.wg .ldsh then s
      else
        let a := ask (.load d.toNat sz.signed) .read .ldsh .r
        (s.listAcc m a (some .ldsh) (m.sharedElems (m.val64 lit off) (fun _ => 0) sz.bytes false)).done m false (pfxLen p len))

/-- STS in both forms (R227). -/
def runSts (p : Option Pfx) (sz : SZ) (off v : Sel) (lit : W32) (len : Nat) (s : State) : Out :=
  asAccess false (pfxLen p len) (xRegs [off, v]) s (fun m =>
    match m.sharedTrap (m.val64 lit off) sz.bytes with
    | some t => s.trap m t
    | none =>
      if s.pathFull m.sid.wg .sto then s
      else (s.listAcc m (ask .store .write .sto .w) (some .sto)
        (m.sharedElems (m.val64 lit off) (m.val64 lit v) sz.bytes true)).done m false (pfxLen p len))

def execLds (p : Option Pfx) (d : BitVec 5) (off : Sel) (sz : SZ) (s : State) : Out := runLds p d off sz 0 4 s
def execLdsX1 (p : Option Pfx) (d : BitVec 5) (off : Sel) (sz : SZ) (lit : W32) (s : State) : Out := runLds p d off sz lit 8 s
def execSts (p : Option Pfx) (sz : SZ) (off v : Sel) (s : State) : Out := runSts p sz off v 0 4 s
def execStsX1 (p : Option Pfx) (sz : SZ) (off v : Sel) (lit : W32) (s : State) : Out := runSts p sz off v lit 8 s

/-! ### Full/empty lines (R110, R111, R228, R229) -/

/-- The number of the line of a shared offset; lines of the pipe region are numbered from 2^24. -/
def feLine (off : Nat) : Nat := if 2 ^ 31 ≤ off then 2 ^ 24 + off % 2 ^ 17 / 128 else off / 128

/-- The full/empty bit of a line. -/
def State.fullBit (s : State) (w : WgId) (line : Nat) : Bool :=
  if 2 ^ 24 ≤ line then (s.core w.core).pipeFull.get (line - 2 ^ 24) = 1
  else match s.wgs.find w with | some g => g.full.get line = 1 | none => false

/-- Set the full/empty bit of a line. -/
def State.setFull (s : State) (w : WgId) (line : Nat) (b : Bool) : State :=
  let x : BitVec 1 := if b then 1 else 0
  if 2 ^ 24 ≤ line then s.updCore w.core (fun c => { c with pipeFull := c.pipeFull.set (line - 2 ^ 24) x })
  else s.updWg w (fun g => { g with full := g.full.set line x })

/-- The waiters on a line, oldest first (R111). -/
def State.feWaiters (s : State) (w : WgId) (line : Nat) : List FeWaiter :=
  (if 2 ^ 24 ≤ line then (s.core w.core).pipeFeq else ((s.wgs.find w).map Workgroup.feq).getD []).filter (fun x => x.line = line)

/-- Apply a function to the list of waiters that holds a line's. -/
def State.updFeq (s : State) (w : WgId) (line : Nat) (g : List FeWaiter → List FeWaiter) : State :=
  if 2 ^ 24 ≤ line then s.updCore w.core (fun c => { c with pipeFeq := g c.pipeFeq })
  else s.updWg w (fun k => { k with feq := g k.feq })

/-- An LDC, or an STF, of a fragment may proceed on a line: its condition holds and no older waiter of its kind waits (R111). -/
def State.feTurn (s : State) (sid : StrandId) (born line : Nat) (load : Bool) : Bool :=
  (s.fullBit sid.wg line == load) &&
  (match (s.feWaiters sid.wg line).find? (fun x => x.load = load) with
   | none => true
   | some x => decide (x.strand = sid) && x.frag = born)

/-- A fragment no longer waits on a full/empty line. -/
def State.feLeave (s : State) (x : FeWaiter) : State :=
  s.updFeq x.strand.wg x.line (fun l => l.filter (fun y => !(decide (y.strand = x.strand) && y.frag = x.frag)))

/-- The LDC or STF of the issuing fragment. -/
def Me.fe (m : Me) (load : Bool) (xd : Nat) (sz : SZ) (off val : Nat → W64) (len : Nat) : FeWaiter :=
  { strand := m.sid, frag := m.f.born, load := load, line := feLine (off (TMask.lowest m.em)).toNat, xd := xd, size := sz.bytes,
    sx := sz.signed, reqs := (TMask.list m.em).map (fun t => (t, off t, val t)), len := len }

/-- The places that an LDC or STF reaches for a thread. -/
def FeWaiter.places (x : FeWaiter) (r : Nat × W64 × W64) : List Loc :=
  (upto x.size).map (fun i => sharedPlace x.strand.wg (r.2.1.toNat + i))

/-- The fragment waits on its line, behind those that already do. -/
def State.feWait (s : State) (m : Me) (x : FeWaiter) : State :=
  ((s.feLeave x).updFeq m.sid.wg x.line (fun l => l ++ [x])).block m (.fullEmpty x.line x.load)

/-- The path of an LDC or STF (Table 6.7). -/
def FeWaiter.path (x : FeWaiter) : Path := if x.load then .ldsh else .sto

/-- List an LDC or STF as an access in flight: what is left of it is the delivery of an LDC's values. -/
def State.feList (s : State) (x : FeWaiter) (elems : List Elem) : State :=
  match s.strands.find x.strand, s.wgs.find x.strand.wg with
  | some st, some g =>
    let pc : W64 := (((st.all.find? (fun f => f.born = x.frag)).map Frag.pc).getD 0) ++ 0#2
    let a : Acc := { id := s.serial, strand := x.strand, ctx := g.ctx, task := g.task, line := lineage st.all 1024 x.frag,
                     kind := if x.load then .deliver x.xd else .store, path := some x.path, pc := pc, bf := none, bfTag := 0,
                     elems := elems, deps := [], acq := false, dev := false, lines := [], buf := [] }
    State.sweep { s with accs := s.accs ++ [a], serial := s.serial + 1 }
  | _, _ => s

/-- An LDC or STF does its work on its line: it reads or writes its bytes, the higher thread's value standing, and changes the bit once
(R110, R228). -/
def State.feAct (s : State) (x : FeWaiter) : State :=
  let s := (s.feLeave x).setFull x.strand.wg x.line (!x.load)
  let core := x.strand.wg.core
  let e (r : Nat × W64 × W64) (val : W64) (done : Bool) : Elem := { thread := r.1, va := r.2.1, locs := [], val := val, cmp := 0, done := done }
  if x.load then
    let (s, es) := x.reqs.foldl (fun (s, l) r =>
      let ls := x.places r
      let (s, bs) := s.landingRead (ls.map some) (ls.map (s.readByte core))
      (s, l ++ [e r (widen64 x.size x.sx (natOfBytes bs)) false])) (s, ([] : List Elem))
    s.feList x es
  else
    let s := x.reqs.foldl (fun s r => ((x.places r).zip (upto x.size)).foldl (fun s p =>
      s.writeByte core p.1 (r.2.2.extractLsb' (8 * p.2) 8)) s) s
    s.feList x (x.reqs.map (fun r => e r r.2.2 true))

/-- LDC and STF are strong accesses: ALIGN where a thread is misaligned or the threads address several lines, then BOUNDS (R104,
R110, R228). -/
def Me.feTrap (m : Me) (off : Nat → W64) (n : Nat) : Option Trap :=
  let ts := TMask.list m.em
  let mis := ts.filter (fun t => decide ((off t).toNat % n ≠ 0))
  let lines := ts.map (fun t => (off t).toNat / 128)
  let one := match lines with | [] => true | l :: ls => ls.all (fun k => k = l)
  match mis.head? with
  | some t => some { code := .align_, mask := some (maskOf (fun u => mis.contains u)), va := off t }
  | none => if !one then some { code := .align_, va := off (TMask.lowest m.em) } else m.sharedTrap off n

/-- LDC (R228): after the wait the values are read and the line is set empty; they arrive in xD later. It reads once no acquire before it is
outstanding, nor an access to its bytes (R126). -/
def execLdc (p : Option Pfx) (d : BitVec 5) (off : Sel) (sz : SZ) (s : State) : Out :=
  asAccess true (pfxLen p 4) (d.toNat :: xRegs [off]) s (fun m =>
    let o := m.val64 0 off
    match m.feTrap o sz.bytes with
    | some t => s.trap m t
    | none =>
      let x := m.fe true d.toNat sz o (fun _ => 0) (pfxLen p 4)
      if s.pathFull m.sid.wg .ldsh || !s.clear m false (m.sharedElems o (fun _ => 0) sz.bytes false) then s
      else if !s.feTurn m.sid m.f.born x.line true then s.feWait m x
      else (s.feAct x).done m true (pfxLen p 4))

/-- STF (R228): a release at CORE scope; after the wait the bytes are written and the line is set full. -/
def execStf (p : Option Pfx) (sz : SZ) (off v : Sel) (s : State) : Out :=
  asAccess true (pfxLen p 4) (xRegs [off, v]) s (fun m =>
    let o := m.val64 0 off
    match m.feTrap o sz.bytes with
    | some t => s.trap m t
    | none =>
      let x := m.fe false 0 sz o (m.val64 0 v) (pfxLen p 4)
      if !s.allPrior m || s.pathFull m.sid.wg .sto then s
      else if !s.feTurn m.sid m.f.born x.line false then s.feWait m x
      else (s.feAct x).done m true (pfxLen p 4))

/-! #### Waiters (R111) -/

/-- A waiter may proceed: its line's bit meets its condition, its counter can be raised, and its strand may run its fragment. -/
def State.feMay (s : State) (x : FeWaiter) : Bool :=
  (s.fullBit x.strand.wg x.line == x.load) && !s.pathFull x.strand.wg x.path &&
  (match s.strands.find x.strand with
   | none => false
   | some st => !st.stopped && st.all.any (fun f => f.born = x.frag && st.runs f))

/-- A waiter proceeds: it does its work, and its fragment goes on after its instruction. -/
def State.feGo (s : State) (x : FeWaiter) : State :=
  (s.feAct x).updStrand x.strand (fun st =>
    ({ st with frags := st.frags.map (fun (f : Frag) => if f.born = x.frag && f.st ≠ FState.free then
        { f with pc := f.pc + BitVec.ofNat 62 (x.len / 4), st := .ready, wait := none } else f) }).settleFrags)

/-- The waiters on full/empty lines, each line's in the order in which they blocked. -/
def State.feAll (s : State) : List FeWaiter := s.wgs.flatMap (fun g => g.2.feq) ++ s.cores.flatMap (fun c => c.2.pipeFeq)

/-- The oldest waiter of a line whose condition holds proceeds, and the line is examined again (R111). -/
def State.feServe : Nat → State → State
  | 0, s => s
  | n + 1, s => match s.feAll.find? s.feMay with
    | none => s
    | some x => State.feServe n (s.feGo x)

/-- Write x results at issue, with the latches and N (R213), and go on. -/
def State.writeX (s : State) (m : Me) (n : Bool) (d : Nat) (vals : List (Nat × W64)) (len : Nat) : State :=
  (s.updStrand m.sid (fun st =>
    let st := if n then st else vals.foldl (fun st p => st.xSet d p.1 p.2) st
    st.latch vals)).done m false len

/-- FEQ (R229): the bits before the operation by ascending thread; its threads act before waiters do (log 91). -/
def execFeq (p : Option Pfx) (n : Bool) (d : BitVec 5) (off : Sel) (op : FeqOp) (s : State) : Out :=
  asAccess false (pfxLen p 4) (d.toNat :: xRegs [off]) s (fun m =>
    let o := m.val64 0 off
    match m.sharedTrap o 1 with
    | some t => s.trap m t
    | none =>
      if s.acqHeld m then s
      else
      let (s, vals) := (TMask.list m.em).foldl (fun (s, l) t =>
        let line := feLine (o t).toNat
        let old : W64 := if s.fullBit m.sid.wg line then 1 else 0
        let s := match op with
          | .read => s
          | .fill => s.setFull m.sid.wg line true
          | .empty => s.setFull m.sid.wg line false
        (s, l ++ [(t, old)])) (s, ([] : List (Nat × W64)))
      s.writeX m n d.toNat vals (pfxLen p 4))

/-! ### Buffer records (R231) -/

/-- BFSET: a plain coherent store of 8 bytes to the record's word. -/
def execBfset (p : Option Pfx) (bf : BitVec 6) (word : BitVec 2) (v : Sel) (s : State) : Out :=
  asAccess false (pfxLen p 4) (xRegs [v]) s (fun m =>
    let off := BitVec.ofNat 64 (32 * bf.toNat + 8 * word.toNat)
    let e := m.sharedElem off 8 (TMask.lowest m.em) (m.uni 0 v) (fun _ => false) false
    (s.listAcc m (ask .store .write .sto .w) none [e]).done m false (pfxLen p 4))

/-- BFGET: a word of a record into every active thread. -/
def execBfget (p : Option Pfx) (n : Bool) (d : BitVec 5) (bf : BitVec 6) (word : BitVec 2) (s : State) : Out :=
  asAccess false (pfxLen p 4) [d.toNat] s (fun m =>
    let off := 32 * bf.toNat + 8 * word.toNat
    let x := s.ownWord m off
    if !s.clear m true [m.sharedElem (BitVec.ofNat 64 off) 8 0 0 (fun _ => false) false] then s
    else s.writeX m n d.toNat ((TMask.list m.em).map (fun t => (t, x))) (pfxLen p 4))

/-! ### Prefetch (R99, R232) -/

/-- Start a prefetch over a range, at most 16 of a workgroup at once (R232). -/
def runPf (tier : Bool) (p : Option Pfx) (va len : Sel) (ctr : BitVec 6) (s : State) : Out :=
  asAccess true (pfxLen p 8) (xRegs [va, len]) s (fun m =>
    if 16 ≤ (s.prefetches.filter (fun f => f.task = m.wg.task)).length then s.block m (.engine .prefetch)
    else
      let n := (m.uni 0 len).toNat
      if n = 0 then s.done m true (pfxLen p 8)
      else
        let f : Prefetch := { id := s.serial, task := m.wg.task, core := m.core, slot := m.sid.wg.slot, ctx := m.wg.ctx, tier := tier, va := (m.uni 0 va).toNat, len := n,
                              ctr := ctr.toNat, pc := m.pc, done := [] }
        ({ s with prefetches := s.prefetches ++ [f], serial := s.serial + 1 }).done m true (pfxLen p 8))

def execPfr (p : Option Pfx) (va len : Sel) (ctr : BitVec 6) (s : State) : Out := runPf false p va len ctr s
def execPft (p : Option Pfx) (va len : Sel) (ctr : BitVec 6) (s : State) : Out := runPf true p va len ctr s

/-! ### In-flight counters (R233) -/

/-- WAITF. -/
def execWaitf (p : Option Pfx) (path : Path) (thr : Sel) (s : State) : Out :=
  asAccess true (pfxLen p 4) (xRegs [thr]) s (fun m =>
    let t := (m.uni 0 thr).toNat
    if s.inflight m.sid.wg path ≤ t then s.done m true (pfxLen p 4) else s.block m (.waitf path t))

/-- INFL. -/
def execInfl (p : Option Pfx) (n : Bool) (d : BitVec 5) (path : Path) (s : State) : Out :=
  asAccess false (pfxLen p 4) [d.toNat] s (fun m =>
    let x := BitVec.ofNat 64 (s.inflight m.sid.wg path)
    s.writeX m n d.toNat ((TMask.list m.em).map (fun t => (t, x))) (pfxLen p 4))

/-! ### Landing regions (R234, R235) -/

/-- The checks of LAND's operands (R234). -/
def Me.landOk (m : Me) (l : Nat) (o c : W64) : Bool :=
  let off := o.toNat
  let n := c.toNat
  off % 4096 = 0 && decide (0x2000 ≤ off) && decide (off < 2 ^ 31) && decide (off + 4096 * n ≤ m.wg.size) && decide (n ≤ 64) &&
  (n = 0 || m.wg.landings.all (fun r => r.region = l || decide (r.off + 4096 * r.count ≤ off) || decide (off + 4096 * n ≤ r.off)))

/-- LAND. -/
def execLand (p : Option Pfx) (l : BitVec 3) (off cnt : Sel) (s : State) : Out :=
  asAccess true (pfxLen p 4) (xRegs [off, cnt]) s (fun m =>
    let o := m.uni 0 off
    let c := m.uni 0 cnt
    if !m.landOk l.toNat o c then s.raise m .bounds
    else if m.wg.landings.any (fun r => r.region = l.toNat && !r.claims.isEmpty) then s.block m (.land l.toNat)
    else
      let keep := m.wg.landings.filter (fun r => r.region ≠ l.toNat)
      let new : List Landing := if c = 0 then [] else [{ region := l.toNat, off := o.toNat, count := c.toNat, permits := upto c.toNat, claims := [] }]
      (s.updWg m.sid.wg (fun g => { g with landings := keep ++ new })).done m true (pfxLen p 4))

end Sys2Proof.Machine
end

