-- ==== Sys2Proof/Machine/Canon.lean ====
section
/-!
DEFINITION. Machine/Canon.lean: the canonical layout of shared memory (R244), format codes (Table 13.2), operand descriptors (R245)
and conversion between formats as MFILL, MDRAIN and TSTORE make it (R71, R79).
-/
namespace Sys2Proof.Machine
open Sys2Proof

/-! ### Format codes (Table 13.2) -/

/-- The floating format of a code's elements; none for an integer format. -/
def fcFmt : Nat → Option Fmt
  | 0 => some .f64 | 1 => some .f32 | 2 => some .e8m10 | 3 => some .bf16 | 4 => some .f16 | 5 => some .e5m2 | 6 => some .e4m3
  | 7 => some .dm8 | 8 => some .e3m2 | 9 => some .e2m3 | 10 => some .e2m1 | 15 => some .e4m3 | 16 => some .e5m2 | 17 => some .e2m1
  | 19 => some .dm8 | _ => none

/-- Width and signedness of an integer format's elements. -/
def fcInt : Nat → Bool × Nat
  | 11 => (true, 8) | 12 => (false, 8) | 13 => (true, 4) | 14 => (false, 4) | 18 => (true, 8) | _ => (true, 32)

/-- Half-bytes of an element in the canonical layout (R67, R244). -/
def fcHalves : Nat → Nat
  | 0 => 16 | 1 => 8 | 2 => 8 | 3 => 4 | 4 => 4 | 10 => 1 | 13 => 1 | 14 => 1 | 17 => 1 | 20 => 8 | _ => 2

/-- Bits of an element in packed storage (R263). -/
def fcBits : Nat → Nat
  | 8 => 6 | 9 => 6 | c => 4 * fcHalves c

/-- A block-scaled format. -/
def fcBlock (c : Nat) : Bool := decide (15 ≤ c) && decide (c ≤ 19)

/-- A code that is not reserved. -/
def fcOk (c : Nat) : Bool := decide (c ≤ 20)

/-- emax of a block format's elements (Table 4.4). -/
def fcEmax : Nat → Int
  | 15 => 8 | 16 => 15 | 17 => 2 | _ => 0

/-- The value of an element's canonical bits, a block's scale apart; MX-INT8 is integer × 2^−6 (Table 4.4). E8M10 stands in its
container (R66), a 6-bit element in the low bits of its byte (R67). -/
def fcValue (c x : Nat) : FV :=
  match fcFmt c with
  | some .e8m10 => Fmt.e8m10.decode (x / 2 ^ 13)
  | some f => f.decode x
  | none =>
    let (sg, w) := fcInt c
    let v : Int := if sg then toSigned w x else ((x % 2 ^ w : Nat) : Int)
    if v = 0 then .zero false else .fin (decide (v < 0)) v.natAbs (if c = 18 then -6 else 0)

/-- The canonical bits that hold a format's code. -/
def fcContainer (c x : Nat) : Nat := if c = 2 then x * 2 ^ 13 else x

/-- Convert a value into an unscaled format (R79); `int` gives the value and width of an integer source, which narrows or widens as
an integer. -/
def fcConvert (c : Nat) (rm : RMode) (sat : Bool) (int : Option (Int × Nat)) (v : FV) : Nat :=
  let e : REnv := ⟨rm, sat, false, 0⟩
  match fcFmt c with
  | some f => fcContainer c (convFF f e v).code
  | none =>
    let (sg, w) := fcInt c
    match int with
    | some (i, n) => (intDeliver sg w (sat && decide (w ≤ n)) i).code
    | none => (convFI sg w e v).code

/-- The scale code and the element codes of a block (R71). -/
def fcBlockCodes (c : Nat) (rm : RMode) (vs : List FV) : Nat × List Nat :=
  let sc := scaleCode (fcEmax c) vs
  if vs.all FV.isZero then (0, vs.map (fun _ => 0))
  else
    (sc, vs.map (fun v => match fcFmt c with
      | some f => blockElem f rm sc v
      | none => blockElemInt8 rm sc v))

/-- The value of an element with an E8M0 scale code (R70). -/
def scaled (sc : Nat) (v : FV) : FV :=
  if sc = 255 then .nan false
  else match v with
    | .fin n m x => .fin n m (x + ((sc : Int) - 127))
    | v => v

/-! ### The canonical layout (R244) -/

/-- The swizzle of a logical offset. -/
def swz (o : Nat) : Nat := Nat.xor o (o / 128 % 8 * 16)

/-- The byte of shared memory at a shared offset, for a workgroup (R108). -/
def State.shByte (s : State) (w : WgId) (off : Nat) : Byte :=
  if 2 ^ 31 ≤ off then (s.core w.core).pipe.get (off % 2 ^ 17) else ((s.wgs.find w).map (fun g => g.shared.get off)).getD 0

/-- Write a byte of shared memory at a shared offset. -/
def State.setSh (s : State) (w : WgId) (off : Nat) (b : Byte) : State :=
  if 2 ^ 31 ≤ off then s.updCore w.core (fun c => { c with pipe := c.pipe.set (off % 2 ^ 17) b })
  else s.updWg w (fun g => { g with shared := g.shared.set off b })

/-- The shared offsets of the bytes of an element at a logical half-byte position. -/
def elemOffs (halves p : Nat) : List Nat := if halves = 1 then [swz (p / 2)] else (upto (halves / 2)).map (fun i => swz (p / 2 + i))

/-- The canonical bits of an element at a logical half-byte position. -/
def State.canonRead (s : State) (w : WgId) (halves p : Nat) : Nat :=
  let x := natOfBytes ((elemOffs halves p).map (s.shByte w))
  if halves = 1 then (if p % 2 = 1 then x / 16 else x % 16) else x

/-- Write an element's canonical bits; the other nibble of a byte stays. -/
def State.canonWrite (s : State) (w : WgId) (halves p x : Nat) : State :=
  if halves = 1 then
    let o := swz (p / 2)
    let old := (s.shByte w o).toNat
    s.setSh w o (BitVec.ofNat 8 (if p % 2 = 1 then old % 16 + x % 16 * 16 else old / 16 * 16 + x % 16))
  else
    ((elemOffs halves p).zip (bytesOfNat (halves / 2) x)).foldl (fun s q => s.setSh w q.1 q.2) s

/-! ### Operand descriptors (Table 13.1) -/

/-- OFF. -/
def odOff (d : W64) : Nat := bits d 0 32
/-- PITCH in bytes. -/
def odPitch (d : W64) : Nat := 128 * bits d 32 12
/-- FMT. -/
def odFmt (d : W64) : Nat := bits d 44 5
/-- T. -/
def odT (d : W64) : Bool := bit d 49
/-- The offset of the scale plane (R247). -/
def odScale (d : W64) : Nat := odOff d + 128 * bits d 50 14

/-- A legal operand descriptor (R245). -/
def odOk (d : W64) : Bool :=
  fcOk (odFmt d) && decide (0 < odPitch d) && odOff d % 64 = 0 && (fcBlock (odFmt d) || bits d 50 14 = 0)

/-- The stored row holds n elements: PITCH × 128 bytes (R250, R258, R259, R272). -/
def odHolds (d : W64) (n : Nat) : Bool := decide (n * fcHalves (odFmt d) ≤ 2 * odPitch d)

/-- The half-byte position of the element in stored row r at place c. -/
def odPos (d : W64) (r c : Nat) : Nat := 2 * (odOff d + r * odPitch d) + c * fcHalves (odFmt d)

/-- A range of shared bytes that a command may use (R248). -/
def Me.cmdRange (m : Me) (r : Nat × Nat) : Bool :=
  (decide (0x1400 ≤ r.1) && decide (r.2 < m.wg.size)) || (decide (2 ^ 31 ≤ r.1) && decide (r.2 < 2 ^ 31 + 2 ^ 17))

/-- The range of a canonical array of rows × cols elements, and that of its scale plane. -/
def odRanges (d : W64) (rows cols : Nat) : List (Nat × Nat) :=
  (odOff d, (odPos d (rows - 1) (cols - 1) + fcHalves (odFmt d) - 1) / 2) ::
  (if fcBlock (odFmt d) then [(odScale d, odScale d + 64 * ((cols - 1) / 32) + rows - 1)] else [])

end Sys2Proof.Machine
end

