-- ==== Sys2Proof/Machine/Matrix.lean ====
section
/-!
DEFINITION. Machine/Matrix.lean: matrix commands (R237 to R261): the checks at issue, the steps of the matrix engine (R82 to R86), and
the events MATRIX_COMMAND_EXECUTE and MATRIX_COMMAND_COMPLETE.
-/
namespace Sys2Proof.Machine
open Sys2Proof

/-! ### Issue (R237 to R243) -/

/-- The frame of an engine command (R164, R237): what its encoding asks of the workgroup, then the issue right. -/
def asEngine (len : Nat) (regs : List Nat) (enc : Me → Bool) (s : State) (k : Me → State) : Out :=
  asAccess true len regs s (fun m =>
    if !enc m then s.raise m .illegal
    else if m.sid.idx ≠ m.wg.issuer then s.raise m .issueRights
    else k m)

/-- The tiles that a command names: a pair for FP64 (R242). -/
def namedTiles (tile : Nat) (tt : TileTy) : List Nat := if tt = .fp64 then [tile, tile + 1] else [tile]

/-- A workgroup can name a tile with a type, under RED within the lower half (R242, R261). -/
def Me.tileOk (m : Me) (tile : Nat) (tt : TileTy) (red : Bool) : Bool :=
  (if tt = .fp64 then tile % 2 = 0 && decide (tile + 1 < m.wg.acc) else decide (tile < m.wg.acc)) &&
  (!red || (namedTiles tile tt).all (fun n => decide (n < m.wg.acc / 2)))

/-- The tiles of a command with their shadows under RED (R261). -/
def Me.usedTiles (m : Me) (tile : Nat) (tt : TileTy) (red : Bool) : List Nat :=
  let ts := namedTiles tile tt
  ts ++ (if red then ts.map (fun n => n + m.wg.acc / 2) else [])

/-- The other member of a tile's pair. -/
def pairOf (n : Nat) : Nat := if n % 2 = 0 then n + 1 else n - 1

/-- The members of FP64 pairs that a command redefining some tiles leaves behind (R242). -/
def Workgroup.wrecked (g : Workgroup) (ts : List Nat) : List Nat :=
  (ts.filter (fun n => g.tileType n = .fp64 && !ts.contains (pairOf n))).map pairOf

/-- Set issued types (R242, R243). -/
def Workgroup.retype (g : Workgroup) (ts : List Nat) (tt : TileTy) : Workgroup :=
  let types := (g.wrecked ts).foldl (fun l n => l.put n TileTy.fp32) g.tileTy
  { g with tileTy := ts.foldl (fun l n => l.put n tt) types }

/-- The shadow mark of a tile (R261). -/
def Workgroup.mark (g : Workgroup) (tile : Nat) (b : Bool) : Workgroup :=
  { g with shadowed := g.shadowed.filter (fun n => n ≠ tile) ++ (if b then [tile] else []) }

/-- The defining commands set issued types and the mark at issue (R243, R261); the others that change a tile set the mark under
RED. -/
def Workgroup.issued (g : Workgroup) (cmd : MCmd) (ts : List Nat) (acc : TileTy) : Workgroup :=
  match cmd with
  | .loop t _ _ _ accum _ _ _ _ red => if accum then (if red then g.mark t true else g) else (g.retype ts acc).mark t red
  | .zero t tt red => (g.retype ts tt).mark t red
  | .fill t _ tt red => (g.retype ts tt).mark t red
  | .scale t _ red => if red then g.mark t true else g
  | .drain _ _ _ _ _ _ _ => g
  | .cfg => g

/-- The number of steps of a command. -/
def MCmd.work : MCmd → Nat
  | .loop _ _ _ n _ _ _ _ _ _ => n
  | _ => 1

/-- A command defines its tile (R243). -/
def MCmd.defines : MCmd → Bool
  | .loop _ _ _ _ accum _ _ _ _ _ => !accum
  | .zero _ _ _ => true
  | .fill _ _ _ _ => true
  | _ => false

/-- Queue a command whose checks have passed, or block while the queue is full (R239). -/
def State.queueCmd (s : State) (m : Me) (len : Nat) (cmd : MCmd) (ts : List Nat) (acc : TileTy) (ctr : Nat) (conf : Option MConf) : State :=
  if 16 ≤ (s.core m.core).mqueue.length then s.block m (.engine .matrix)
  else
    let e : MEntry := { id := s.serial, wg := m.sid.wg, pc := m.pc, cmd := cmd, ctr := ctr, done := 0, left := cmd.work, running := false,
                        uses := ts, wrecks := if cmd.defines then m.wg.wrecked ts else [], taint := [], mute := false, em := m.em,
                        deps := s.priorIds m }
    let s := { s with serial := s.serial + 1 }
    let s := s.updCore m.core (fun c => { c with mqueue := c.mqueue ++ [e] })
    let s := s.updWg m.sid.wg (fun g => let g := g.issued cmd ts acc; match conf with | some c => { g with mconf := c } | none => g)
    s.done m true len

/-! ### MLOOP's operands (R249 to R252) -/

/-- The row of Table 4.10 and its k and accumulator. -/
def fcRow (c : Nat) : Option (Nat × Nat × TileTy) :=
  if c = 3 || c = 4 then some (0, 4, .fp32)
  else if c = 5 || c = 6 || c = 7 || c = 15 || c = 16 || c = 18 || c = 19 then some (1, 8, .fp32)
  else if c = 11 || c = 12 then some (2, 8, .int32)
  else if c = 8 || c = 9 || c = 10 || c = 17 then some (3, 16, .fp32)
  else if c = 13 || c = 14 then some (4, 16, .int32)
  else if c = 2 then some (5, 2, .fp32)
  else if c = 1 then some (6, 1, .fp32)
  else if c = 0 then some (7, 1, .fp64)
  else none

/-- The pairing of two formats (R82): k and the accumulator type. -/
def pairing (a b : Nat) : Option (Nat × TileTy) :=
  match fcRow a, fcRow b with
  | some (i, k, t), some (j, _, _) => if i = j then some (k, t) else none
  | _, _ => none

/-- The fields of a window geometry, decoded (Table 13.6, R252). -/
structure Geo where
  cs : Nat
  sx : Nat
  sy : Nat
  fw : Nat
  fh : Nat
  ow : Nat
  iw : Nat

/-- Decode a window geometry. -/
def Geo.ofWord (w : W64) : Geo :=
  ⟨bits w 26 10 + 1, bits w 24 2 + 1, bits w 22 2 + 1, bits w 19 3 + 1, bits w 16 3 + 1, bits w 8 8, bits w 0 8⟩

/-- A legal window geometry (R260); none where IW = OW = 0. -/
def geoOk (w : W64) : Bool :=
  let iw := bits w 0 8
  let ow := bits w 8 8
  bits w 36 28 = 0 && decide ((iw = 0) = (ow = 0)) && decide (ow ≤ 64)

/-- The half-byte position of the element of an operand at step s, position r and place j (R250, R252). -/
def operandPos (d : W64) (k inc : Nat) (geo : Option Geo) (s r j : Nat) : Nat :=
  let h := fcHalves (odFmt d)
  let b2 := k * h
  match geo with
  | some g =>
    let tap := s / g.cs
    let row := (r / g.ow * g.sy + tap / g.fw) * g.iw + r % g.ow * g.sx + tap % g.fw
    2 * (odOff d + row * odPitch d) + s % g.cs * b2 + j * h
  | none =>
    if odT d then
      let m := 128 / b2
      2 * (odOff d + s / m * inc * 64 + r * odPitch d) + s % m * b2 + j * h
    else 2 * (odOff d + s * inc * 64 + j * odPitch d) + r * h

/-- The greatest of a list of numbers. -/
def maxOf (l : List Nat) : Nat := l.foldl max 0

/-- The range of an operand over KS steps, and of its scale plane (R248). -/
def operandRanges (d : W64) (k inc ks : Nat) (geo : Option Geo) : List (Nat × Nat) :=
  let last := match geo with
    | some _ => maxOf ((upto ks).flatMap (fun s => (upto 64).map (fun r => operandPos d k inc geo s r (k - 1))))
    | none => maxOf ((upto ks).map (fun s => operandPos d k inc none s 63 (k - 1)))
  (odOff d, (last + fcHalves (odFmt d) - 1) / 2) ::
  (if fcBlock (odFmt d) then [(odScale d, odScale d + 64 * ((ks * k - 1) / 32) + 63)] else [])

/-- The legality of an operand's orientation and pitch (R247, R250). -/
def operandOk (d : W64) : Bool := odOk d && (!fcBlock (odFmt d) || odT d) && (odT d || odHolds d 64)

/-- MLOOP (R249 to R254). -/
def execMloop (p : Option Pfx) (o : MloopF) (s : State) : Out :=
  let len := pfxLen p 8
  asEngine len [] (fun m => decide (o.tile.toNat < m.wg.acc)) s (fun m =>
    let da := m.st.sGet o.a.toNat
    let db := m.st.sGet o.b.toNat
    let t := o.tile.toNat
    let ks := o.ks.toNat + 1
    let red := m.wg.mconf.red
    let geoW := if o.win then m.wg.mconf.geo else none
    let geo := geoW.map Geo.ofWord
    let winOk := !o.win || (odT da && o.ainc = 0 && !fcBlock (odFmt da) &&
      (match geo with | some g => decide (ks ≤ g.fh * g.fw * g.cs) | none => false))
    if !(odOk da && odOk db) then s.raise m .illegal
    else
      match pairing (odFmt da) (odFmt db) with
      | none => s.raise m .illegal
      | some (k, acc) =>
        if !(operandOk da && operandOk db && winOk && m.tileOk t acc red) then s.raise m .illegal
        else if o.accum && m.wg.tileType t ≠ acc then s.raise m .illegal
        else if !((operandRanges da k o.ainc.toNat ks geo ++ operandRanges db k o.binc.toNat ks none).all m.cmdRange) then s.raise m .bounds
        else
          s.queueCmd m len (.loop t da db ks o.accum o.ainc.toNat o.binc.toNat geoW m.wg.mconf.arm red)
            (m.usedTiles t acc red) acc o.ctr.toNat none)

/-- MZERO (R256). -/
def execMzero (p : Option Pfx) (tile : BitVec 5) (ctr : BitVec 6) (tt : TileTy) (s : State) : Out :=
  let t := tile.toNat
  asEngine (pfxLen p 4) [] (fun m => m.tileOk t tt false) s (fun m =>
    let red := m.wg.mconf.red
    if !m.tileOk t tt red then s.raise m .illegal
    else s.queueCmd m (pfxLen p 4) (.zero t tt red) (m.usedTiles t tt red) tt ctr.toNat none)

/-- MSCL's scalar as FP32 bits (R257). -/
def msclVal (m : Me) (lit : W32) (x : Sel) : W32 :=
  match x with
  | .s n => (m.st.sGet n.toNat).truncate 32
  | .const n => BitVec.ofNat 32 ((ETy.const .f32 n.toNat).getD 0)
  | _ => lit

/-- MSCL in both forms. -/
def runMscl (len : Nat) (tile : BitVec 5) (x : Sel) (lit : W32) (ctr : BitVec 6) (s : State) : Out :=
  let t := tile.toNat
  asEngine len [] (fun m => decide (t < m.wg.acc)) s (fun m =>
    let red := m.wg.mconf.red
    if m.wg.tileType t ≠ .fp32 || !m.tileOk t .fp32 red then s.raise m .illegal
    else s.queueCmd m len (.scale t (msclVal m lit x) red) (m.usedTiles t .fp32 red) .fp32 ctr.toNat none)

def execMscl (p : Option Pfx) (tile : BitVec 5) (src : Sel) (ctr : BitVec 6) (s : State) : Out := runMscl (pfxLen p 4) tile src 0 ctr s
def execMsclX1 (p : Option Pfx) (tile : BitVec 5) (src : Sel) (ctr : BitVec 6) (lit : W32) (s : State) : Out :=
  runMscl (pfxLen p 8) tile src lit ctr s

/-- The formats that MFILL converts exactly into a tile type (R258). -/
def fillOk (tt : TileTy) (c : Nat) : Bool :=
  match tt with
  | .fp32 => decide (1 ≤ c) && decide (c ≤ 10)
  | .int32 => (decide (11 ≤ c) && decide (c ≤ 14)) || c = 20
  | .fp64 => decide (c ≤ 10)

/-- MFILL (R258). -/
def execMfill (p : Option Pfx) (tile : BitVec 5) (x : BitVec 5) (tt : TileTy) (ctr : BitVec 6) (s : State) : Out :=
  let t := tile.toNat
  asEngine (pfxLen p 8) [] (fun m => m.tileOk t tt false) s (fun m =>
    let d := m.st.sGet x.toNat
    let red := m.wg.mconf.red
    if !(odOk d && fillOk tt (odFmt d) && odHolds d 64 && m.tileOk t tt red) then s.raise m .illegal
    else if !((odRanges d 64 64).all m.cmdRange) then s.raise m .bounds
    else s.queueCmd m (pfxLen p 8) (.fill t d tt red) (m.usedTiles t tt red) tt ctr.toNat none)

/-- MDRAIN (R259). An odd tile of an FP64 pair is named by no command. -/
def execMdrain (p : Option Pfx) (tile : BitVec 5) (x : BitVec 5) (relu : Bool) (ctr : BitVec 6) (s : State) : Out :=
  let t := tile.toNat
  asEngine (pfxLen p 8) [] (fun m => decide (t < m.wg.acc)) s (fun m =>
    let d := m.st.sGet x.toNat
    let tt := m.wg.tileType t
    let rm := effRM p m.st.mode
    if !(odOk d && odHolds d 64 && !(fcBlock (odFmt d) && odT d) && m.tileOk t tt m.wg.mconf.red) || rm = .rst then s.raise m .illegal
    else if !((odRanges d 64 64).all m.cmdRange) then s.raise m .bounds
    else s.queueCmd m (pfxLen p 8) (.drain t tt d rm (effSat p m.st.mode) relu (m.wg.shadowed.contains t)) (m.usedTiles t tt false) tt ctr.toNat none)

/-- MCFG (R260, R261). -/
def execMcfg (p : Option Pfx) (red : Bool) (arm : RMode) (geo : Option (BitVec 5)) (ctr : BitVec 6) (s : State) : Out :=
  asEngine (pfxLen p 8) [] (fun _ => true) s (fun m =>
    let w : W64 := match geo with | some r => m.st.sGet r.toNat | none => 0
    if !geoOk w || (red && (m.wg.acc = 0 || m.wg.acc % 2 = 1)) then s.raise m .illegal
    else s.queueCmd m (pfxLen p 8) .cfg [] .fp32 ctr.toNat (some ⟨red, arm, if bits w 0 8 = 0 then none else some w⟩))

/-! ### The engine's steps -/

/-- The value of an accumulator element's bits. -/
def accValue (tt : TileTy) (x : W64) : FV :=
  match tt with
  | .fp32 => Fmt.f32.decode (x.toNat % 2 ^ 32)
  | .fp64 => Fmt.f64.decode x.toNat
  | .int32 => let v := toSigned 32 x.toNat; if v = 0 then .zero false else .fin (decide (v < 0)) v.natAbs 0

/-- The value of an INT32 element; none for a floating tile. -/
def accInt (tt : TileTy) (x : W64) : Option Int := if tt = .int32 then some (toSigned 32 x.toNat) else none

/-- An operand's elements at a step: for each position r, its k elements with their scales, and whether a byte was written since the
issue or lies in a landing in progress (R83, R144, R250). -/
def State.operand (s : State) (w : WgId) (e : MEntry) (d : W64) (k inc : Nat) (geo : Option Geo) (step : Nat) : List (List (FV × Int) × Bool) :=
  let c := odFmt d
  let h := fcHalves c
  (upto 64).map (fun r =>
    let ps := (upto k).map (fun j => operandPos d k inc geo step r j)
    let scaleOff := odScale d + 64 * (step * k / 32) + r
    let sc := if fcBlock c then (s.shByte w scaleOff).toNat else 127
    let offs := ps.flatMap (elemOffs h) ++ (if fcBlock c then [scaleOff] else [])
    (ps.map (fun p =>
      let x := s.canonRead w h p
      let (sg, wd) := fcInt c
      (scaled sc (fcValue c x), if sg then toSigned wd x else ((x % 2 ^ wd : Nat) : Int))),
     offs.any (fun o => e.taint.get o ≠ 0 || s.landing w o)))

/-- One output element of a step (R84, R85). -/
def stepElem (acc : TileTy) (arm : RMode) (a b : List (FV × Int)) (c : W64) : W64 :=
  match acc with
  | .int32 => BitVec.ofNat 64 (ofSigned 32 (toSigned 32 c.toNat + ((a.zip b).foldl (fun t p => t + p.1.2 * p.2.2) 0)))
  | .fp32 => BitVec.ofNat 64 (windowSum .f32 arm 26 ((a.zip b).map (fun p => (p.1.1, p.2.1))) (accValue .fp32 c))
  | .fp64 => BitVec.ofNat 64 (windowSum .f64 arm 55 ((a.zip b).map (fun p => (p.1.1, p.2.1))) (accValue .fp64 c))

/-- A step on one tile; elements whose operands were disturbed become free values, numbered from `base` (R144). -/
def State.stepTile (s : State) (w : WgId) (tile : Nat) (acc : TileTy) (arm : RMode) (zero : Bool) (as bs : List (List (FV × Int) × Bool))
    (base : Nat) : State :=
  s.updWg w (fun g =>
    let old : SMap 64 := if zero then [] else g.tile tile
    let f (i : Nat) : W64 :=
      let a := (as[i / 64]?).getD ([], false)
      let b := (bs[i % 64]?).getD ([], false)
      if a.2 || b.2 then Config.freeValue (base + i) else stepElem acc arm a.1 b.1 (SMap.get old i)
    { g with tiles := g.tiles.put tile (SMap.table 4096 f) })

/-- Step `n` of an MLOOP (R254, R261). -/
def State.loopStep (s : State) (e : MEntry) (tile : Nat) (a b : W64) (accum : Bool) (ainc binc : Nat) (geoW : Option W64) (arm : RMode)
    (red : Bool) (n : Nat) : State :=
  match pairing (odFmt a) (odFmt b), s.wgs.find e.wg with
  | some (k, acc), some g =>
    let zero := n = 0 && !accum
    let as := s.operand e.wg e a k ainc (geoW.map Geo.ofWord) n
    let bs := s.operand e.wg e b k binc none n
    let base := s.free
    let s := if as.any Prod.snd || bs.any Prod.snd then { s with free := base + 4096 } else s
    let s := s.stepTile e.wg tile acc arm zero as bs base
    let twin := tile + g.acc / 2
    let s := if red then s.stepTile e.wg twin acc arm zero as bs base else s
    s.updWg e.wg (fun g =>
      let (k, bad) := if zero then (0, none) else g.msteps.findD tile (0, none)
      let bad := if red && bad.isNone && g.tile tile ≠ g.tile twin then some k else bad
      { g with msteps := g.msteps.put tile (k + 1, bad) })
  | _, _ => s

/-- The positions of an operand that some step of an MLOOP read from a byte which has been written since its issue, or lies in a landing in
progress (R144, R254). -/
def State.loopTaint (s : State) (e : MEntry) (d : W64) (k inc : Nat) (geo : Option Geo) : List Nat :=
  (upto 64).filter (fun r => (upto e.done).any (fun n =>
    let offs := (upto k).flatMap (fun j => elemOffs (fcHalves (odFmt d)) (operandPos d k inc geo n r j)) ++
      (if fcBlock (odFmt d) then [odScale d + 64 * (n * k / 32) + r] else [])
    offs.any (fun o => e.taint.get o ≠ 0 || s.landing e.wg o)))

/-- A completed MLOOP: bytes that changed before its completion leave the tile elements concerned undefined, whichever step read them
(R144, R254). -/
def State.loopEnd (s : State) (e : MEntry) : State :=
  match e.cmd, s.wgs.find e.wg with
  | .loop t a b _ _ ainc binc geo _ red, some _ =>
    match pairing (odFmt a) (odFmt b) with
    | none => s
    | some (k, _) =>
      let ra := s.loopTaint e a k ainc (geo.map Geo.ofWord)
      let rb := s.loopTaint e b k binc none
      if ra.isEmpty && rb.isEmpty then s
      else
        let base := s.free
        let f (old : SMap 64) (i : Nat) : W64 :=
          if ra.contains (i / 64) || rb.contains (i % 64) then Config.freeValue (base + i) else SMap.get old i
        State.updWg { s with free := base + 4096 } e.wg (fun g =>
          let one (l : AList Nat (SMap 64)) (n : Nat) : AList Nat (SMap 64) := l.put n (SMap.table 4096 (f (l.findD n [])))
          { g with tiles := if red then one (one g.tiles t) (t + g.acc / 2) else one g.tiles t })
  | _, _ => s

/-- Set every element of a command's tile, and of its shadow under RED (R256 to R258, R261). -/
def State.setTile (s : State) (w : WgId) (tile : Nat) (red fresh : Bool) (f : SMap 64 → Nat → W64) : State :=
  s.updWg w (fun g =>
    let one (g : Workgroup) (n : Nat) : Workgroup := { g with tiles := g.tiles.put n (SMap.table 4096 (f (g.tile n))) }
    let g := one g tile
    let g := if red then one g (tile + g.acc / 2) else g
    if fresh then { g with msteps := g.msteps.put tile (0, none) } else g)

/-- MFILL's element (R258). -/
def State.fillElem (s : State) (w : WgId) (d : W64) (tt : TileTy) (i : Nat) : W64 :=
  let (r, c) := if odT d then (i % 64, i / 64) else (i / 64, i % 64)
  let x := s.canonRead w (fcHalves (odFmt d)) (odPos d r c)
  match tt with
  | .int32 => let (sg, wd) := fcInt (odFmt d); BitVec.ofNat 64 (ofSigned 32 (if sg then toSigned wd x else ((x % 2 ^ wd : Nat) : Int)))
  | .fp32 => BitVec.ofNat 64 (convFF .f32 (.plain .rne) (fcValue (odFmt d) x)).code
  | .fp64 => BitVec.ofNat 64 (convFF .f64 (.plain .rne) (fcValue (odFmt d) x)).code

/-- MDRAIN's value of an element: RELU takes every negative value and −0 to +0 (R259). -/
def drainVal (tt : TileTy) (relu : Bool) (x : W64) : FV × Option (Int × Nat) :=
  let v := accValue tt x
  let i := accInt tt x
  if relu && v.neg && !v.isNan then (.zero false, i.map (fun _ => (0, 32))) else (v, i.map (fun n => (n, 32)))

/-- Write the tile to shared memory (R259). -/
def State.drainTile (s : State) (w : WgId) (g : Workgroup) (tile : Nat) (tt : TileTy) (d : W64) (rm : RMode) (sat relu : Bool) : State :=
  let c := odFmt d
  let val (i n : Nat) : FV × Option (Int × Nat) := drainVal tt relu ((g.tile tile).get (64 * i + n))
  let put (s : State) (i n x : Nat) : State :=
    s.canonWrite w (fcHalves c) (if odT d then odPos d n i else odPos d i n) x
  (upto 64).foldl (fun s i =>
    if fcBlock c then
      (upto 2).foldl (fun s b =>
        let (sc, es) := fcBlockCodes c rm ((upto 32).map (fun n => (val i (32 * b + n)).1))
        let s := s.setSh w (odScale d + 64 * b + i) (BitVec.ofNat 8 sc)
        ((upto 32).zip es).foldl (fun s q => put s i (32 * b + q.1) q.2) s) s
    else (upto 64).foldl (fun s n => let v := val i n; put s i n (fcConvert c rm sat v.2 v.1)) s) s

/-- The issuer's trap that waits, or the end of a workgroup whose issuer has exited (R261). -/
def State.issuerTrap (s : State) (w : WgId) (g : Workgroup) (r : FaultRec) : State :=
  match s.strands.find ⟨w, .access, g.issuer⟩ with
  | some st => if st.exited then s.terminate w (some r) else s.updWg w (fun g => { g with pend := g.pend ++ [r] })
  | none => s.terminate w (some r)

/-- The record of a matrix mismatch (R261), with EM at the MDRAIN (R331). -/
def mismatchRec (g : Workgroup) (pc : W64) (em : TMask) (tile step : Nat) : FaultRec :=
  { task := g.task, pc := pc, va := BitVec.ofNat 64 (tile * 2 ^ 32 + step), tag := 0, bf := none, mask := em, strand := g.issuer,
    slice := .access, disp := 0, cause := 0x0B, code := 0x0B }

/-- Contents that a command leaves undefined (R242). -/
def State.wreck (s : State) (w : WgId) (ts : List Nat) : State :=
  ts.foldl (fun s n =>
    let base := s.free
    ({ s with free := base + 4096 }).updWg w (fun g => { g with tiles := g.tiles.put n (SMap.table 4096 (fun i => Config.freeValue (base + i))) })) s

/-- Apply one unit of a command's work: a step of an MLOOP, or the whole of another command. -/
def State.matrixStep (s : State) (e : MEntry) (g : Workgroup) : State × Bool :=
  match e.cmd with
  | .loop t a b _ accum ainc binc geo arm red => (s.loopStep e t a b accum ainc binc geo arm red e.done, false)
  | .zero t _ red => (s.setTile e.wg t red true (fun _ _ => 0), false)
  | .scale t by_ red =>
    (s.setTile e.wg t red false (fun old i =>
      BitVec.ofNat 64 (fusedSum .f32 (.plain .rne) true [(Fmt.f32.decode ((SMap.get old i).toNat % 2 ^ 32), Fmt.f32.decode by_.toNat)] []).code), false)
  | .fill t d tt red => (s.setTile e.wg t red true (fun _ i => s.fillElem e.wg d tt i), false)
  | .drain t tt d rm sat relu shadowed =>
    (match shadowed, (g.msteps.findD t (0, none)).2 with
     | true, some step => (s.issuerTrap e.wg g (mismatchRec g e.pc e.em t step), true)
     | _, _ => (s.drainTile e.wg g t tt d rm sat relu, false))
  | .cfg => (s, false)

/-- The command that the engine takes next: the oldest of the next workgroup in round-robin order of slots (R239); none of a
workgroup that a pre-emption stops. -/
def State.nextCmd (s : State) (core : Nat) : Option MEntry :=
  let c := s.core core
  let held (w : WgId) : Bool := match (s.wgs.find w).bind (fun g => s.ctxs.find g.ctx) with
    | some x => x.state = .saving
    | none => true
  let ready := c.mqueue.filter (fun e => !held e.wg)
  match c.mqueue.find? (fun e => e.running) with
  | some e => if 0 < e.left && !held e.wg then some e else none
  | none =>
    let after := ready.filter (fun e => decide (c.mlast < e.wg.slot))
    let pool := if after.isEmpty then ready else after
    let slot := pool.foldl (fun a e => min a e.wg.slot) ((pool.head?.map (fun e => e.wg.slot)).getD 0)
    pool.find? (fun e => e.wg.slot = slot)

/-- Replace an entry of a core's queue. -/
def State.putCmd (s : State) (core id : Nat) (g : MEntry → MEntry) : State :=
  s.updCore core (fun c => { c with mqueue := c.mqueue.map (fun e => if e.id = id then g e else e) })

/-- One unit of work of the engine of a core, once what precedes the command has performed (R142). -/
def State.engineStep (s : State) (core : Nat) : State :=
  match s.nextCmd core with
  | none => s
  | some e =>
    match s.wgs.find e.wg with
    | none => s
    | some g =>
      if !s.ready e.wg e.deps then s
      else
      let s := if e.done = 0 then s.wreck e.wg e.wrecks else s
      let (s, mute) := s.matrixStep e g
      let s := (s.putCmd core e.id (fun e => { e with running := true, done := e.done + 1, left := e.left - 1, mute := mute }))
      let s := match e.cmd with | .loop _ _ _ _ _ _ _ _ _ _ => s.count core 14 1 | _ => s
      s.updCore core (fun c => { c with mlast := e.wg.slot })

/-- Several units of work. -/
def State.engineSteps (s : State) (core : Nat) : Nat → State
  | 0 => s
  | n + 1 => (s.engineStep core).engineSteps core n

/-- The running command of a core has finished its effects: it adds to its counter and leaves the queue (R240). -/
def State.engineDone (s : State) (core : Nat) : State :=
  match (s.core core).mqueue.find? (fun e => e.running && e.left = 0) with
  | none => s
  | some e =>
    let s := (s.loopEnd e).updCore core (fun c => { c with mqueue := c.mqueue.filter (fun x => x.id ≠ e.id) })
    match s.wgs.find e.wg with
    | none => s
    | some g => if e.mute then s else s.slotAdd g.task e.ctr 1

/-- MATRIX_COMMAND_EXECUTE: the engine of a core takes its next command, or goes on with an MLOOP, for some steps (R239, R251). -/
def execMatrixCommandExecute (core steps : Nat) (s : State) : Out :=
  .next (if (s.core core).mqueue.any (fun e => e.running && e.left = 0) then s else s.engineSteps core (match s.nextCmd core with
    | some e => min steps e.left
    | none => 0))

/-- MATRIX_COMMAND_COMPLETE (R240). -/
def execMatrixCommandComplete (core : Nat) (s : State) : Out := .next (s.engineDone core)

end Sys2Proof.Machine
end

