-- ==== Sys2Proof/Machine/Copy.lean ====
section
/-!
DEFINITION. Machine/Copy.lean: tensor descriptors (R262 to R264), TCOPY, TMCAST, TSTORE and TDSET (R265 to R273), and the copy units'
events COPY_PIECE, TCOPY_LANDED, TMCAST_DELIVERY_START and TSTORE_COMPLETE.
-/
namespace Sys2Proof.Machine
open Sys2Proof

/-! ### Tensor descriptors (Table 13.7) -/

/-- A word of a tensor descriptor. -/
def tdWord (td : List W64) (i : Nat) : W64 := (td[i]?).getD 0

/-- A signed field of 40 bits at the bottom of a word. -/
def tdStr (td : List W64) (i : Nat) : Int := toSigned 40 (tdWord td i).toNat

/-- DIM0 to DIM3. -/
def tdDim (td : List W64) (i : Nat) : Nat := bits (tdWord td (1 + i / 2)) (32 * (i % 2)) 32
/-- FMT. -/
def tdFmt (td : List W64) : Nat := bits (tdWord td 6) 0 5
/-- T. -/
def tdT (td : List W64) : Bool := bit (tdWord td 6) 5
/-- GATH. -/
def tdGath (td : List W64) : Bool := bit (tdWord td 6) 6
/-- GBF. -/
def tdGbf (td : List W64) : Nat := bits (tdWord td 6) 7 6
/-- Tile rows. -/
def tdRows (td : List W64) : Nat := bits (tdWord td 6) 13 8 + 1
/-- Tile columns. -/
def tdCols (td : List W64) : Nat := bits (tdWord td 6) 21 12 + 1
/-- HT. -/
def tdHT (td : List W64) : Nat := bits (tdWord td 6) 33 4
/-- HB. -/
def tdHB (td : List W64) : Nat := bits (tdWord td 6) 37 4
/-- HL. -/
def tdHL (td : List W64) : Nat := bits (tdWord td 6) 41 4
/-- HR. -/
def tdHR (td : List W64) : Nat := bits (tdWord td 6) 45 4
/-- PITCH. -/
def tdPitch (td : List W64) : Nat := bits (tdWord td 6) 49 12
/-- Any halo. -/
def tdHalo (td : List W64) : Bool := bits (tdWord td 6) 33 16 ≠ 0
/-- SSTR. -/
def tdSstr (td : List W64) : Nat := bits (tdWord td 5) 40 24

/-- Source rows and columns of a landing (R268). -/
def landRows (td : List W64) : Nat := tdRows td + tdHT td + tdHB td
/-- Source columns. -/
def landCols (td : List W64) : Nat := tdCols td + tdHL td + tdHR td
/-- Elements of a canonical row: source columns, or rows under T. -/
def landE (td : List W64) (t : Bool) : Nat := if t then landRows td else landCols td
/-- Canonical rows. -/
def landR (td : List W64) (t : Bool) : Nat := if t then landCols td else landRows td
/-- The minimum pitch in units of 128 bytes. -/
def minPitch (td : List W64) (t : Bool) : Nat := (landE td t * fcHalves (tdFmt td) + 255) / 256
/-- The landing's row pitch in bytes. -/
def landPitch (td : List W64) : Nat := 128 * (if tdPitch td = 0 then minPitch td (tdT td) else tdPitch td)
/-- The bytes of the data plane. -/
def landData (td : List W64) : Nat := landR td (tdT td) * landPitch td
/-- The bytes of the landing with its scale plane (R268). -/
def landBytes (td : List W64) : Nat := landData td + (if fcBlock (tdFmt td) then (landCols td + 31) / 32 * 64 else 0)
/-- The slots of the landing. -/
def landSlots (td : List W64) : Nat := (landBytes td + 4095) / 4096

/-- A coordinate of the origin (R267). -/
def originAt (o : List W64) (i : Nat) : Int := toSigned 64 ((o[i]?).getD 0).toNat

/-- A malformed descriptor (R264); `gbad` says that its gather record is malformed. -/
def tdBad (td o : List W64) (store gbad : Bool) : Bool :=
  let c := tdFmt td
  let t := !store && tdT td
  bits (tdWord td 6) 61 3 ≠ 0 || bits (tdWord td 4) 40 24 ≠ 0 || bits (tdWord td 3) 40 24 ≠ 0 || !fcOk c ||
  (upto 4).any (fun i => tdDim td i = 0) || !canonical (tdWord td 0) || !canonical (tdWord td 7) ||
  (tdGath td && (tdHalo td || gbad)) ||
  (fcBlock c && (decide (1 < tdDim td 2) || decide (1 < tdDim td 3))) ||
  (!store && fcBlock c && (tdT td || decide (64 < landRows td) || decide ((originAt o 0 - tdHL td) % 32 ≠ 0))) ||
  (store && fcBlock c && (decide (originAt o 0 % 32 ≠ 0) || tdCols td % 32 ≠ 0)) ||
  (tdPitch td ≠ 0 && decide (tdPitch td < minPitch td t)) || (store && tdHalo td)

/-! ### Issue (R265 to R272) -/

/-- The words of a tensor descriptor as a strand sees them. -/
def State.tensor (s : State) (m : Me) (n : Nat) : List W64 := (upto 8).map (fun i => s.ownWord m (0x800 + 64 * n + 8 * i))

/-- The origin registers. -/
def Me.origin (m : Me) (sc : BitVec 5) : List W64 := (upto 4).map (fun i => m.st.sGet (sc.toNat + i))

/-- The gather record bound at issue. -/
def State.gatherRec (s : State) (m : Me) (td : List W64) : BufRec := s.bufRec m (tdGbf td)

/-- The record is malformed as a gather list (R264). -/
def State.gatherBad (s : State) (m : Me) (td : List W64) : Bool := tdGath td && (s.gatherRec m td).bad (fun n => n = 4 || n = 8)

/-- The address of a tensor element's first byte, and where its bits lie: shift and number of bytes (R263). -/
def elemPlace (td : List W64) (d0 d1 d2 d3 : Nat) : W64 × Nat × Nat :=
  let w := fcBits (tdFmt td)
  let b := d0 * w
  let a : Int := (tdWord td 0).toNat + d1 * tdStr td 3 + d2 * tdStr td 4 + d3 * tdStr td 5 + (b / 8 : Nat)
  (BitVec.ofInt 64 a, b % 8, (b % 8 + w + 7) / 8)

/-- The address of a scale (R263). -/
def scalePlace (td : List W64) (d0 d1 : Nat) : W64 := tdWord td 7 + BitVec.ofNat 64 (d1 * tdSstr td + d0 / 32)

/-- A coordinate inside a dimension. -/
def inDim (td : List W64) (i : Nat) (d : Int) : Bool := decide (0 ≤ d) && decide (d < (tdDim td i : Int))

/-- The first coordinate of some consecutive ones that lies inside a dimension. -/
def firstInside (td : List W64) (i : Nat) (from_ : Int) (n : Nat) : Option Nat :=
  let d := max 0 from_
  if decide (d < from_ + n) && inDim td i d then some d.toNat else none

/-- The tensor element that a copy reads or writes first, its row `d1` given where a gather list names it; none where every element lies
outside the tensor. -/
def firstElem (td o : List W64) (store : Bool) (d1 : Option Nat) : Option W64 :=
  let edge (n : Nat) : Int := if store then 0 else n
  let row : Option Nat := match d1 with
    | some d => if inDim td 1 d then some d else none
    | none => firstInside td 1 (originAt o 1 - edge (tdHT td)) (if store then tdRows td else landRows td)
  match firstInside td 0 (originAt o 0 - edge (tdHL td)) (if store then tdCols td else landCols td), row with
  | some d0, some d1 =>
    if inDim td 2 (originAt o 2) && inDim td 3 (originAt o 3) then
      some (elemPlace td d0 d1 (originAt o 2).toNat (originAt o 3).toNat).1
    else none
  | _, _ => none

/-- Bytes of memory as they stand at the issue of a copy. -/
def State.peekBytes (s : State) (core ctx : Nat) (va : W64) (n : Nat) : List Byte :=
  (upto n).map (fun i =>
    let a := va + BitVec.ofNat 64 i
    match s.peek core ctx a with
    | some l => if l.dev.isNone then s.physByte (l.pa a) else 0
    | none => 0)

/-- The address of the first byte that a copy reads or, with `store`, writes (R265): under GATH a read begins at the list. -/
def State.firstByte (s : State) (m : Me) (td o : List W64) (store : Bool) : Option W64 :=
  if tdGath td then
    let b := s.gatherRec m td
    let p := (o[1]?).getD 0
    if b.inBounds p then
      if store then firstElem td o store (some (natOfBytes (s.peekBytes m.core m.wg.ctx (b.addr p) b.esize))) else some (b.addr p)
    else firstElem td o store (some 0)
  else firstElem td o store none

/-- The copy unit of a command: beside the channel of the first byte that it reads or writes where that is in HBM4E, else the core's
(R265). -/
def State.unitFor (s : State) (m : Me) (td o : List W64) (store : Bool) : Nat :=
  match s.firstByte m td o store with
  | none => m.core
  | some va =>
    match s.peek m.core m.wg.ctx va with
    | some l => if l.dev.isNone && isHbm (l.pa va) then channelOf (l.pa va) else m.core
    | none => m.core

/-- The copy unit that serves commands of a unit: the next one in service, in ascending number and wrapping (R378). -/
def State.unitInService (s : State) (u : Nat) : Nat :=
  (((upto 256).map (fun i => (u + i) % 256)).find? (fun v => !s.domDead (.copyUnit v) && !s.domWaits (.copyUnit v))).getD u

/-- Queue a copy command, or block at the limit of 32 of a core (R241). -/
def State.queueCopy (s : State) (m : Me) (len : Nat) (td o : List W64) (kind : CopyKind) (ctr : Nat) (dlv : List Delivery) : State :=
  if 32 ≤ (s.core m.core).copies then s.block m (.engine .copies)
  else
    let g := s.gatherRec m td
    let c : Copy := { id := s.serial, core := m.core, wg := m.sid.wg, ctx := m.wg.ctx, pc := m.pc, unit := some (s.unitInService (s.unitFor m td o (match kind with | .tstore _ _ _ => true | _ => false))), kind := kind,
                      td := td, origin := o, gather := if tdGath td then some [g.w0, g.w1, g.w2, g.w3] else none, ctr := ctr, started := false,
                      told := false, wrote := 0, dlv := dlv, done := 0, deps := s.priorIds m }
    let s := { s with copies := s.copies ++ [c], serial := s.serial + 1 }
    (s.updCore m.core (fun k => { k with copies := k.copies + 1 })).done m true len

/-- The landing's slots are granted with unclaimed permits in a region (R269). -/
def Landing.free (r : Landing) (slot n : Nat) : Bool :=
  decide (slot + n ≤ r.count) && (upto n).all (fun i => r.permits.contains (slot + i))

/-- Claim slots of a region (R269). -/
def Landing.claim (r : Landing) (slot n : Nat) : Landing :=
  { r with permits := r.permits.filter (fun p => !(decide (slot ≤ p) && decide (p < slot + n))),
           claims := r.claims ++ (upto n).map (fun i => slot + i) }

/-- Claim slots of a workgroup's region. -/
def Workgroup.claim (g : Workgroup) (region slot n : Nat) : Workgroup :=
  { g with landings := g.landings.map (fun r => if r.region = region then r.claim slot n else r) }

/-- The delivery into a workgroup's landing; none where its slots are not free. -/
def Workgroup.delivery (g : Workgroup) (w : WgId) (region slot n : Nat) : Option Delivery :=
  match g.landings.find? (fun r => r.region = region) with
  | none => none
  | some r => if r.free slot n then some { wg := w, base := r.off + 4096 * slot, slots := (upto n).map (fun i => slot + i), done := 0, taint := [] } else none

/-- TCOPY (R267 to R270). -/
def execTcopy (p : Option Pfx) (o : TcopyF) (s : State) : Out :=
  asEngine (pfxLen p 8) [] (fun _ => true) s (fun m =>
    let td := s.tensor m o.td.toNat
    let org := m.origin o.sc
    let n := landSlots td
    if s.acqHeld m then s
    else if tdBad td org false (s.gatherBad m td) then s.raise m .bfInvalid
    else
      match m.wg.delivery m.sid.wg o.l.toNat o.slot.toNat n with
      | none => s.raise m .landing
      | some d =>
        if 32 ≤ (s.core m.core).copies then s.block m (.engine .copies)
        else
          (s.updWg m.sid.wg (fun g => g.claim o.l.toNat o.slot.toNat n)).queueCopy m (pfxLen p 8) td org
            (.tcopy o.l.toNat o.slot.toNat) o.ctr.toNat [d])

/-- The receivers that RMASK names, by linear index in the issuer's grid (R271). -/
def mcastReceivers (lin : Nat) (mask : BitVec 16) : List Nat :=
  (upto 16).filterMap (fun j => if mask.getLsbD j then some (lin / 16 * 16 + j) else none)

/-- TMCAST (R271): the receivers' regions are checked when the delivery starts. -/
def execTmcast (p : Option Pfx) (o : TcopyF) (rmask : BitVec 16) (s : State) : Out :=
  asEngine (pfxLen p 8) [] (fun _ => true) s (fun m =>
    let td := s.tensor m o.td.toNat
    let org := m.origin o.sc
    if s.acqHeld m then s
    else if tdBad td org false (s.gatherBad m td) then s.raise m .bfInvalid
    else
      match m.wg.grid with
      | none => s.raise m .landing
      | some (g, lin) =>
        let rs := mcastReceivers lin rmask
        let total := m.wg.dims.1 * m.wg.dims.2.1 * m.wg.dims.2.2
        if rs.isEmpty || rs.any (fun r => decide (total ≤ r)) then s.raise m .landing
        else s.queueCopy m (pfxLen p 8) td org (.tmcast o.l.toNat o.slot.toNat g rs) o.ctr.toNat [])

/-- TSTORE (R272). -/
def execTstore (p : Option Pfx) (td ss : BitVec 5) (ctr : BitVec 6) (sc : BitVec 5) (s : State) : Out :=
  asEngine (pfxLen p 8) [] (fun _ => true) s (fun m =>
    let t := s.tensor m td.toNat
    let org := m.origin sc
    let d := m.st.sGet ss.toNat
    let rm := effRM p m.st.mode
    let rows := if odT d then tdCols t else tdRows t
    let cols := if odT d then tdRows t else tdCols t
    if !(odOk d && odHolds d cols) || (fcBlock (odFmt d) && (odT d || decide (64 < tdRows t))) || rm = .rst then s.raise m .illegal
    else if s.acqHeld m then s
    else if tdBad t org true (s.gatherBad m t) then s.raise m .bfInvalid
    else if !((odRanges d rows cols).all m.cmdRange) then s.raise m .bounds
    else s.queueCopy m (pfxLen p 8) t org (.tstore d rm (effSat p m.st.mode)) ctr.toNat [])

/-- TDSET (R273): a plain coherent store of 8 bytes to the descriptor's word. -/
def execTdset (p : Option Pfx) (td : BitVec 5) (word : BitVec 3) (src : Sel) (s : State) : Out :=
  asEngine (pfxLen p 4) (xRegs [src]) (fun _ => true) s (fun m =>
    let off := BitVec.ofNat 64 (0x800 + 64 * td.toNat + 8 * word.toNat)
    let e := m.sharedElem off 8 (TMask.lowest m.em) (m.uni 0 src) (fun _ => false) false
    (s.listAcc m (ask .store .write .sto .w) none [e]).done m true (pfxLen p 4))

/-! ### Pieces (R265, R266, R270) -/

/-- What a copy's access of global memory finds: what it asks for, a wait with what is to be asked for meanwhile, or the end of the copy with
its cause. -/
inductive CopyRes (α : Type) where
  | ok (s : State) (x : α)
  | wait (ask : State → State)
  | stop (s : State) (cause : BitVec 8) (va : W64)

/-- Then: go on with what an access gave. -/
def CopyRes.bind {α β : Type} (x : CopyRes α) (f : State → α → CopyRes β) : CopyRes β :=
  match x with
  | .ok s a => f s a
  | .wait g => .wait g
  | .stop s c va => .stop s c va

/-- The pages of an access of up to 256 bytes that an engine or the Distributor makes (R266): one that needs service makes it wait. -/
def State.enginePages (s : State) (core ctx id : Nat) (va : W64) (n : Nat) (k : AKind) : CopyRes (Leaf × Leaf) :=
  let j := Joiner.op id
  let last := lastByte va n
  match s.elemPages core ctx j va n k with
  | (s, .fail, _) => .stop (s.unfail j) 0x04 va
  | (s, _, .fail) => .stop (s.unfail j) 0x04 last
  | (_, .service, _) => .wait (fun s => s.request ctx va k j)
  | (_, _, .service) => .wait (fun s => s.request ctx last k j)
  | (s, .ok a, .ok b) => .ok s (a, b)
  | (_, _, _) => .wait (fun s => s.elemPages core ctx j va n k |>.1)

/-- A byte of local memory is at L2: no request to HBM4E is needed (R117). -/
def State.atL2 (s : State) (l : Loc) : Bool :=
  match l with
  | .phys attr pa => isReg pa || attr = .dev || !isHbm pa || s.l2Has none pa
  | _ => true

/-- Local places as an engine reads or writes them at the L2 home slices (R266): their second-tier blocks are held, and their COHF lines; what
is to be read has come from HBM4E (R98, R117, R360). -/
def State.engineReady (s : State) (core ctx slot : Nat) (k : AKind) (pl : List Loc) : CopyRes (List Loc) :=
  let lines := s.linesOf (k = .write) [pl]
  if pl.any (fun l => match l with | .phys _ pa => !s.served pa | _ => false) then .wait (fun s => s.fetchTiers pl)
  else if !s.linesReady lines then .wait (fun s => s.askLines ctx lines)
  else if k = .read && !pl.all s.atL2 then .wait (fun s => pl.foldl (fun s l => match l with
    | .phys _ pa => if s.atL2 l then s else s.askLine core slot pa
    | _ => s) s)
  else .ok s pl

/-- The places of an engine's access for a core, a slot and a context (R266): a DEV page and one of another device stop it. -/
def State.enginePlaces (s : State) (core ctx slot id : Nat) (va : W64) (n : Nat) (k : AKind) : CopyRes (List Loc) :=
  let bad (l : Leaf) : Bool := l.attr = .dev || l.dev.isSome
  (s.enginePages core ctx id va n k).bind (fun s p =>
    if bad p.1 then .stop s 0x04 va
    else if bad p.2 then .stop s 0x04 (lastByte va n)
    else s.engineReady core ctx slot k (placesOf p.1 p.2 va n))

/-- The places of a copy's access. -/
def State.copyPlaces (s : State) (c : Copy) (va : W64) (n : Nat) (k : AKind) : CopyRes (List Loc) :=
  s.enginePlaces c.core c.ctx c.wg.slot c.id va n k

/-- Read bytes at the L2 home for a core's engine: the core first writes back the lines (R142). -/
def State.engineRead (s : State) (core : Nat) (pl : List Loc) : State × List Byte :=
  let pas := pl.filterMap (fun l => match l with | .phys a pa => some (a, pa) | _ => none)
  let s := pas.foldl (fun s p => if p.1.nonCoh then s.writeBack core (fun a => a / 256 = p.2 / 256) else s) s
  let s := pl.foldl (fun s l => match l with | .phys _ pa => if s.atL2 l then s else s.l2Fill none (pa / 256) (sectorBit pa) | _ => s) s
  (s, pas.map (fun p => s.physByte p.2))

/-- What an engine of a core is about to write leaves L1s: the core's sectors are written back and discarded (R143), and no core holds a
coherent line. -/
def State.enginePurge (s : State) (core : Nat) (pl : List Loc) : State :=
  pl.foldl (fun s l => match l with
    | .phys a pa => if a.nonCoh then s.purge core (fun x => x / 64 = pa / 64) else s.l1Own noCore (pa / 256)
    | _ => s) s

/-- Write bytes at the L2 home for a core's engine (R143). -/
def State.engineWrite (s : State) (core : Nat) (pl : List Loc) (bs : List Byte) : State :=
  let s := s.enginePurge core pl
  ((pl.zip bs).foldl (fun s p => match p.1 with
    | .phys _ pa => (s.ownLine p.1).setPhys pa p.2
    | _ => s) s)

/-- The bytes of a copy's read, from the L2 home: the issuing core first writes back the lines (R142, R266). -/
def State.copyRead (s : State) (c : Copy) (va : W64) (n : Nat) : CopyRes (List Byte) :=
  (s.copyPlaces c va n .read).bind (fun s pl =>
    let (s, bs) := s.engineRead c.core pl
    .ok s bs)

/-- The third and fourth coordinates of a copy lie inside the tensor. -/
def Copy.inside (c : Copy) : Bool := inDim c.td 2 (originAt c.origin 2) && inDim c.td 3 (originAt c.origin 3)

/-- The coordinate d1 of a row: from the origin, or from the gather list (R270); none where the list has no such row. -/
def State.copyRow (s : State) (c : Copy) (r : Nat) (first : Int) : CopyRes Int :=
  match c.gather with
  | none => .ok s (first + r)
  | some g =>
    let w (i : Nat) : W64 := (g[i]?).getD 0
    let b : BufRec := ⟨w 0, w 1, w 2, w 3⟩
    let i := (c.origin[1]?).getD 0 + BitVec.ofNat 64 r
    if b.inBounds i then (s.copyRead c (b.addr i) b.esize).bind (fun s bs => .ok s (natOfBytes bs))
    else if b.oobz then .ok s 0
    else .stop s 0x05 (b.addr i)

/-- The bits of a tensor element as its canonical element; code 0 outside the tensor (R270). -/
def State.copyElem (s : State) (c : Copy) (d0 d1 : Int) : CopyRes (Nat × List (W64 × Nat)) :=
  let o2 := originAt c.origin 2
  let o3 := originAt c.origin 3
  if !(inDim c.td 0 d0 && inDim c.td 1 d1 && inDim c.td 2 o2 && inDim c.td 3 o3) then .ok s (0, [])
  else
    let (va, sh, n) := elemPlace c.td d0.toNat d1.toNat o2.toNat o3.toNat
    (s.copyRead c va n).bind (fun s bs => .ok s (natOfBytes bs / 2 ^ sh % 2 ^ fcBits (tdFmt c.td), [(va, n)]))

/-- The element of the landing at canonical row r and place e (R268, R270). -/
def State.landElem (s : State) (c : Copy) (r e : Nat) : CopyRes (Nat × List (W64 × Nat)) :=
  let td := c.td
  let (sr, sc) := if tdT td then (e, r) else (r, e)
  (s.copyRow c sr (originAt c.origin 1 - tdHT td)).bind (fun s d1 => s.copyElem c (originAt c.origin 0 - tdHL td + sc) d1)

/-- The byte of the landing at a logical offset, with what it read (R268, R270). -/
def State.landByte (s : State) (c : Copy) (o : Nat) : CopyRes (Byte × List (W64 × Nat)) :=
  let td := c.td
  let h := fcHalves (tdFmt td)
  if landData td ≤ o then
    let k := o - landData td
    let r := k % 64
    let first := originAt c.origin 0 - tdHL td + 32 * (k / 64)
    if landRows td ≤ r then .ok s (0, [])
    else
      (s.copyRow c r (originAt c.origin 1 - tdHT td)).bind (fun s d1 =>
        if inDim td 0 first && inDim td 1 d1 && c.inside then
          (s.copyRead c (scalePlace td first.toNat d1.toNat) 1).bind (fun s bs =>
            .ok s (bs.headD 0, [(scalePlace td first.toNat d1.toNat, 1)]))
        else .ok s (127, []))
  else
    let r := o / landPitch td
    let b := o % landPitch td
    let n := landE td (tdT td)
    if h = 1 then
      if n ≤ 2 * b then .ok s (0, [])
      else
        (s.landElem c r (2 * b)).bind (fun s x =>
          if n ≤ 2 * b + 1 then .ok s (BitVec.ofNat 8 x.1, x.2)
          else (s.landElem c r (2 * b + 1)).bind (fun s y => .ok s (BitVec.ofNat 8 (x.1 + 16 * y.1), x.2 ++ y.2)))
    else
      let e := b / (h / 2)
      if n ≤ e then .ok s (0, [])
      else (s.landElem c r e).bind (fun s x => .ok s (BitVec.ofNat 8 (x.1 / 2 ^ (8 * (b % (h / 2)))), x.2))

/-- Read several landing bytes in order. -/
def State.landBytesFrom (s : State) (c : Copy) (o : Nat) : Nat → CopyRes (List Byte × List (W64 × Nat))
  | 0 => .ok s ([], [])
  | n + 1 =>
    (s.landByte c o).bind (fun s x =>
      (s.landBytesFrom c (o + 1) n).bind (fun s r => .ok s (x.1 :: r.1, x.2 ++ r.2)))

/-- Write landing bytes into a receiver's shared memory; a byte that a strand stored to meanwhile becomes a free value (R144). -/
def State.deliverBytes (s : State) (c : Copy) (d : Delivery) (o : Nat) (bs : List Byte) : State :=
  ((upto bs.length).zip bs).foldl (fun s p =>
    let l := o + p.1
    let off := if l < landData c.td then swz (d.base + l) else d.base + l
    let (b, s) := if d.taint.contains off then (let (x, s) := s.takeFree; (x.setWidth 8, s)) else (p.2, s)
    (s.disturb d.wg.core (fun e => decide (e.wg = d.wg)) off).updWg d.wg (fun g => { g with shared := g.shared.set off b })) s

/-! ### Comparators on copies (R384) -/

/-- The lowest matching byte of a piece and the comparators that matched. -/
def State.pieceMatch (s : State) (core : Nat) (k : WKind) (acc : List (W64 × Nat)) : Option (Nat × TMask) :=
  let ws := (s.core core).watches.filter (fun w => w.selects k && acc.any (fun a => w.meets a.1 a.2))
  let hits := ws.flatMap (fun w => acc.filterMap (fun a => if w.meets a.1 a.2 then some (max a.1.toNat w.addr.toNat) else none))
  match hits with
  | [] => none
  | h :: hs => some (hs.foldl min h, maskOf (fun t => ws.any (fun w => w.num = t)))

/-- Report a command's first match: WATCH at the issuer's next yield-class instruction, or a detached watch event. -/
def State.tellWatch (s : State) (c : Copy) (k : WKind) (acc : List (W64 × Nat)) : State :=
  if c.told then s
  else
    match s.pieceMatch c.core k acc, s.wgs.find c.wg with
    | some (va, comps), some g =>
      let s := { s with copies := s.copies.map (fun (x : Copy) => if x.id = c.id then { x with told := true } else x) }
      let gone := match s.strands.find ⟨c.wg, .access, g.issuer⟩ with | some st => st.exited | none => true
      if gone then (s.count c.core 15 1).logDbg (.detachedWatch comps (BitVec.ofNat 64 va) c.pc g.task)
      else
        let r : FaultRec := { task := g.task, pc := c.pc, va := BitVec.ofNat 64 va, tag := 0, bf := none, mask := 0, strand := g.issuer,
                              slice := .access, disp := 0, cause := 0x06, code := 0x06 }
        s.updWg c.wg (fun g => { g with pend := g.pend ++ [r] })
    | _, _ => s

/-! ### TSTORE's pieces (R272) -/

/-- Elements of a TSTORE's piece: 256 bytes of its array, in whole blocks of 32. -/
def storePiece (d : W64) : Nat := 512 / fcHalves (odFmt d)

/-- The value of a TSTORE's source element at tile row r and column c, with its integer reading. -/
def State.storeVal (s : State) (w : WgId) (d : W64) (r c : Nat) : FV × Option (Int × Nat) :=
  let f := odFmt d
  let x := s.canonRead w (fcHalves f) (if odT d then odPos d c r else odPos d r c)
  let sc := if fcBlock f then (s.shByte w (odScale d + 64 * (c / 32) + r)).toNat else 127
  let int := match fcFmt f with
    | some _ => none
    | none => if f = 18 then none else let (sg, wd) := fcInt f; some (if sg then toSigned wd x else ((x % 2 ^ wd : Nat) : Int), wd)
  (scaled sc (fcValue f x), int)

/-- Write bits of global memory for a copy (R143, R266): the issuing core's sector is written back and discarded first. -/
def State.copyWrite (s : State) (c : Copy) (va : W64) (sh width n x : Nat) : CopyRes Unit :=
  (s.copyPlaces c va n .write).bind (fun s pl =>
    let s := s.enginePurge c.core pl
    let old := natOfBytes (pl.map (s.readByte c.core))
    let new := old - old / 2 ^ sh % 2 ^ width * 2 ^ sh + x % 2 ^ width * 2 ^ sh
    .ok (s.engineWrite c.core pl (bytesOfNat n new)) ())

/-- Store one element with its code; answers the bytes that it adds to those written and what it accessed. -/
def State.storeElem (s : State) (c : Copy) (d0 d1 : Int) (first : Bool) (x : Nat) : CopyRes (Nat × List (W64 × Nat)) :=
  let o2 := originAt c.origin 2
  let o3 := originAt c.origin 3
  if !(inDim c.td 0 d0 && inDim c.td 1 d1 && inDim c.td 2 o2 && inDim c.td 3 o3) then .ok s (0, [])
  else
    let (va, sh, n) := elemPlace c.td d0.toNat d1.toNat o2.toNat o3.toNat
    let shared := !first && inDim c.td 0 (d0 - 1) && sh ≠ 0
    (s.copyWrite c va sh (fcBits (tdFmt c.td)) n x).bind (fun s _ => .ok s (if shared then n - 1 else n, [(va, n)]))

/-- The code that a tensor's packed storage holds for a canonical element. -/
def storeCode (c x : Nat) : Nat := x % 2 ^ fcBits c

/-- Store a run of elements of the tile in its own order, from element i on: tile row i / columns (R272). -/
def State.storeRun (s : State) (c : Copy) (d : W64) (rm : RMode) (sat : Bool) (i : Nat) : Nat → CopyRes (Nat × List (W64 × Nat))
  | 0 => .ok s (0, [])
  | n + 1 =>
    let cols := tdCols c.td
    let r := i / cols
    let k := i % cols
    let f := tdFmt c.td
    (s.copyRow c r (originAt c.origin 1)).bind (fun s d1 =>
      let d0 := originAt c.origin 0 + k
      let blk := (upto 32).map (fun j => (s.storeVal c.wg d r (k / 32 * 32 + j)).1)
      let codes := fcBlockCodes f rm blk
      let v := s.storeVal c.wg d r k
      let x := if fcBlock f then (codes.2[k % 32]?).getD 0 else fcConvert f rm sat v.2 v.1
      (if fcBlock f && k % 32 = 0 && inDim c.td 0 d0 && inDim c.td 1 d1 && c.inside then
        (s.copyWrite c (scalePlace c.td d0.toNat d1.toNat) 0 8 1 codes.1).bind (fun s _ => .ok s (1, [(scalePlace c.td d0.toNat d1.toNat, 1)]))
       else .ok s (0, [])).bind (fun s a =>
        (s.storeElem c d0 d1 (k = 0) (storeCode f x)).bind (fun s b =>
          (s.storeRun c d rm sat (i + 1) n).bind (fun s t => .ok s (a.1 + b.1 + t.1, a.2 ++ b.2 ++ t.2)))))

/-! ### Events -/

/-- Replace a copy. -/
def State.putCopy (s : State) (id : Nat) (g : Copy → Copy) : State :=
  { s with copies := s.copies.map (fun c => if c.id = id then g c else c) }

/-- Remove a copy that is over (R241). -/
def State.endCopy (s : State) (c : Copy) : State :=
  ({ s with copies := s.copies.filter (fun x => x.id ≠ c.id) }).updCore c.core (fun k => { k with copies := k.copies - 1 })

/-- A copy has a piece to move. -/
def Copy.hasPiece (c : Copy) : Bool :=
  match c.kind with
  | .tcopy _ _ => decide (c.done < landBytes c.td)
  | .tmcast _ _ _ _ => !c.dlv.isEmpty && decide (c.done < landBytes c.td)
  | .tstore _ _ _ => decide (c.done < tdRows c.td * tdCols c.td)

/-- Commands take the 16 slots of their unit in arrival order (R265). -/
def State.takeSlots (s : State) (unit : Nat) : State :=
  let mine := s.copies.filter (fun c => c.unit = some unit)
  let held := (mine.filter (fun c => c.started)).length
  let next := ((mine.filter (fun c => !c.started)).take (16 - held)).map Copy.id
  { s with copies := s.copies.map (fun c => if next.contains c.id then { c with started := true } else c) }

/-- The smallest number above a bound among a list, or the smallest of all: one turn of a round robin. -/
def nextTurn (last : Option Nat) (l : List Nat) : Option Nat :=
  let least (l : List Nat) : Option Nat := match l with | [] => none | x :: xs => some (xs.foldl min x)
  match last with
  | none => least l
  | some k => match least (l.filter (fun x => decide (k < x))) with | some x => some x | none => least l

/-- The command whose turn it is at a unit, among those whose reads may begin (R142): round robin over the cores, and within a core over its
slots (R265). -/
def State.nextPiece (s : State) (unit : Nat) : Option Copy :=
  let cs := s.copies.filter (fun c => c.unit = some unit && c.started && c.hasPiece && s.ready c.wg c.deps)
  match nextTurn (s.unitCore.find unit) (cs.map Copy.core) with
  | none => none
  | some core =>
    let own := cs.filter (fun c => c.core = core)
    match nextTurn (s.unitCopy.find (unit, core)) (own.map Copy.id) with
    | none => none
    | some id => own.find? (fun c => c.id = id)

/-- A copy has failed (R266): its workgroup is terminated. -/
def State.copyFail (s : State) (c : Copy) (cause : BitVec 8) (va : W64) : State :=
  match s.wgs.find c.wg with
  | none => s
  | some g => s.terminate c.wg (some (terminationRecord g ⟨c.wg, .access, g.issuer⟩ c.pc va none cause))

/-- Move one piece of a command; nothing moves while a page needs service. -/
def State.movePiece (s : State) (c : Copy) : State :=
  match c.kind with
  | .tstore d rm sat =>
    let n := min (storePiece d) (tdRows c.td * tdCols c.td - c.done)
    (match s.storeRun c d rm sat c.done n with
     | .ok s r => (s.putCopy c.id (fun c => { c with done := c.done + n, wrote := c.wrote + r.1 })).tellWatch c .w r.2
     | .wait f => f s
     | .stop s x va => s.copyFail c x va)
  | _ =>
    let n := min 256 (landBytes c.td - c.done)
    (match s.landBytesFrom c c.done n with
     | .ok s r =>
       let s := c.dlv.foldl (fun s d => s.deliverBytes c d c.done r.1) s
       (s.putCopy c.id (fun x => { x with done := x.done + n, dlv := x.dlv.map (fun d => { d with done := c.done + n }) })).tellWatch c .r r.2
     | .wait f => f s
     | .stop s x va => s.copyFail c x va)

/-- COPY_PIECE: a unit moves one piece of the command whose turn it is (R265). -/
def execCopyPiece (unit : Nat) (s : State) : Out :=
  let s := s.takeSlots unit
  .next (match s.nextPiece unit with
    | none => s
    | some c => { s.movePiece c with unitCore := s.unitCore.put unit c.core, unitCopy := s.unitCopy.put (unit, c.core) c.id })

/-- The landing of one receiver is whole: its permits are consumed and its counter rises by the landing's bytes (R269, R270). -/
def State.landed1 (s : State) (c : Copy) (d : Delivery) : State :=
  let s := s.updWg d.wg (fun g => { g with landings := g.landings.map (fun r =>
    if decide (r.off ≤ d.base) && decide (d.base < r.off + 4096 * r.count) then { r with claims := r.claims.filter (fun k => !d.slots.contains k) } else r) })
  match s.wgs.find d.wg with
  | none => s
  | some g => s.slotAdd g.task c.ctr (BitVec.ofNat 64 (landBytes c.td))

/-- TCOPY_LANDED: landing number `rcv` of a copy is whole; the copy ends with its last one (R270, R271). -/
def execTcopyLanded (id rcv : Nat) (s : State) : Out :=
  .next (match s.copies.find? (fun c => c.id = id) with
    | none => s
    | some c =>
      match c.kind, c.dlv[rcv]? with
      | .tstore _ _ _, _ => s
      | _, none => s
      | _, some d =>
        if c.done < landBytes c.td then s
        else
          let left := c.dlv.eraseIdx rcv
          let s := s.putCopy id (fun c => { c with dlv := left })
          let s := s.landed1 c d
          if left.isEmpty then s.endCopy c else s)

/-- The receiver of a linear index, resident in a grid. -/
def State.memberOf (s : State) (grid lin : Nat) : Option (WgId × Workgroup) := s.wgs.find? (fun p => p.2.grid = some (grid, lin))

/-- A member of a grid will receive nothing more: it has been admitted and is neither resident nor saved, or its grid was cancelled before its
admission (R271). -/
def State.memberGone (s : State) (grid lin : Nat) : Bool :=
  match s.grids.find grid with
  | none => true
  | some g =>
    if g.admitted.contains lin then
      (s.memberOf grid lin).isNone && s.ctxs.all (fun c => c.2.saved.all (fun v => v.wg.grid ≠ some (grid, lin)))
    else g.cancelled

/-- TMCAST_DELIVERY_START: receivers that have retired or were terminated are forgotten; every other one has unclaimed permits, and all of
them are claimed at once (R271); a command whose receivers are all gone is over. -/
def execTmcastDeliveryStart (id : Nat) (s : State) : Out :=
  .next (match s.copies.find? (fun c => c.id = id) with
    | none => s
    | some c =>
      match c.kind with
      | .tmcast region slot grid rs =>
        let rs := rs.filter (fun r => !s.memberGone grid r)
        if !c.dlv.isEmpty || 0 < c.done then s
        else if rs.isEmpty then s.endCopy c
        else
          let n := landSlots c.td
          let ds := rs.filterMap (fun r => (s.memberOf grid r).bind (fun p => p.2.delivery p.1 region slot n))
          if ds.length < rs.length then s
          else
            let s := ds.foldl (fun s d => s.updWg d.wg (fun g => g.claim region slot n)) s
            s.putCopy id (fun c => { c with dlv := ds })
      | _ => s)

/-- TSTORE_COMPLETE: the writes have performed, and the slot rises by the bytes written (R272). -/
def execTstoreComplete (id : Nat) (s : State) : Out :=
  .next (match s.copies.find? (fun c => c.id = id) with
    | none => s
    | some c =>
      match c.kind with
      | .tstore _ _ _ =>
        if c.done < tdRows c.td * tdCols c.td then s
        else
          let s := s.endCopy c
          (match s.wgs.find c.wg with
           | none => s
           | some g => s.slotAdd g.task c.ctr (BitVec.ofNat 64 c.wrote))
      | _ => s)

end Sys2Proof.Machine
end

