-- ==== Sys2Proof/Machine/Schedule.lean ====
section
/-!
DEFINITION. Machine/Schedule.lean: the Work Distributor: launches by count and timer (R310, R311), grids (R312 to R315), leases and parking
(R320, R321), what a core can hold (R11, R12, R107, R318), and the Weir governor (R323).
-/
namespace Sys2Proof.Machine
open Sys2Proof

/-! ### Launches (R310, R311) -/

/-- A cistern without its n oldest loose records. -/
def dropLoose : List Rec → Nat → List Rec
  | [], _ => []
  | r :: l, 0 => r :: l
  | r :: l, n + 1 => if hdrGrid (recHeader r.bytes) then r :: dropLoose l (n + 1) else dropLoose l n

/-- Launch a node's oldest loose records; the timer restarts with what is left and stops with an empty cistern (R310). -/
def State.launchLoose (s : State) (node n : Nat) : State :=
  match s.nodes.find node with
  | none => s
  | some k =>
    let take := k.loose.take n
    let left := dropLoose k.records n
    let s := { s with nodes := s.nodes.put node { k with
      records := left
      timerFrom := if left.any (fun (r : Rec) => !hdrGrid (recHeader r.bytes)) && k.timer ≠ 0 then some s.clock else none } }
    s.launch node (take.map Rec.bytes) 0 none

/-- CISTERN_COUNT_LAUNCH (R310): the cistern holds C records. -/
def execCisternCountLaunch (node : Nat) (s : State) : Out :=
  .next (match s.nodes.find node with
    | none => s
    | some k => if k.recCount ≤ k.loose.length && 0 < k.recCount then s.launchLoose node k.recCount else s)

/-- CISTERN_TIMER_LAUNCH (R310): the timer has run T × 64 clocks; at the count, the count launch alone takes place. -/
def execCisternTimerLaunch (node : Nat) (s : State) : Out :=
  .next (match s.nodes.find node with
    | none => s
    | some k =>
      match k.timerFrom with
      | none => s
      | some t =>
        if k.timer ≠ 0 && decide (t + 64 * k.timer ≤ s.clock) && !k.loose.isEmpty && decide (k.loose.length < k.recCount) then
          s.launchLoose node k.loose.length
        else s)

/-! ### Grid geometry (R312, R313, Table 16.3) -/

/-- The axes of an order, most significant first; none for a reserved code. -/
def axesOf : Nat → Option (Nat × Nat × Nat)
  | 0 => some (0, 1, 2) | 1 => some (0, 2, 1) | 2 => some (1, 0, 2) | 3 => some (1, 2, 0) | 4 => some (2, 0, 1) | 5 => some (2, 1, 0)
  | _ => none

/-- A component of a triple. -/
def axis {α : Type} (p : α × α × α) (i : Nat) : α := if i = 0 then p.1 else if i = 1 then p.2.1 else p.2.2

/-- The linear index of coordinates (Table 16.3). -/
def linOf (order : Nat) (d c : Nat × Nat × Nat) : Nat :=
  let a := (axesOf order).getD (0, 1, 2)
  (axis c a.1 * axis d a.2.1 + axis c a.2.1) * axis d a.2.2 + axis c a.2.2

/-- The coordinates of a linear index. -/
def coordOf (order : Nat) (d : Nat × Nat × Nat) (l : Nat) : Nat × Nat × Nat :=
  let a := (axesOf order).getD (0, 1, 2)
  let v2 := l % axis d a.2.2
  let v1 := l / axis d a.2.2 % axis d a.2.1
  let v0 := l / (axis d a.2.2 * axis d a.2.1)
  let at_ (i : Nat) : Nat := if a.1 = i then v0 else if a.2.1 = i then v1 else v2
  (at_ 0, at_ 1, at_ 2)

/-- Vector i of a DEPS word: dx, dy, dz. -/
def depVec (w : W64) (i : Nat) : Int × Int × Int :=
  let f (k : Nat) : Int := toSigned 5 (bits w (15 * i + 5 * k) 5)
  (f 0, f 1, f 2)

/-- A vector passes R313: components in −8..8, not zero, lexicographically positive in the order. -/
def depOk (order : Nat) (v : Int × Int × Int) : Bool :=
  let a := (axesOf order).getD (0, 1, 2)
  let l := [axis v a.1, axis v a.2.1, axis v a.2.2]
  l.all (fun x => decide (-8 ≤ x) && decide (x ≤ 8)) && (match l.find? (fun x => decide (x ≠ 0)) with | some x => decide (0 < x) | none => false)

/-- The linear index of a member's predecessor by a vector, where it lies within the grid. -/
def predOf (order : Nat) (d : Nat × Nat × Nat) (l : Nat) (v : Int × Int × Int) : Option Nat :=
  let c := coordOf order d l
  let p (i : Nat) : Int := ((axis c i : Nat) : Int) - axis v i
  if (upto 3).all (fun i => decide (0 ≤ p i) && decide (p i < ((axis d i : Nat) : Int))) then
    some (linOf order d ((p 0).toNat, (p 1).toNat, (p 2).toNat))
  else none

/-- A member is released: every predecessor within the grid has its bit set (R315). -/
def Grid.free (g : Grid) (l : Nat) : Bool :=
  g.deps.all (fun v => match predOf g.order g.dims l v with | some p => g.retired.contains p | none => true)

/-- The head of the release list: its lowest linear index (R315). -/
def Grid.head (g : Grid) : Option Nat :=
  match g.released with
  | [] => none
  | x :: xs => some (xs.foldl min x)

/-! ### GRID_EXPAND (R312 to R315) -/

/-- What a grid record asks for. -/
structure GridAsk where
  dims  : Nat × Nat × Nat
  order : Nat
  deps  : List (Int × Int × Int)
  place : W64

/-- Read a grid record (Table 16.4); none where it is rejected with NODE_INVALID (R312). -/
def gridAsk (n : Node) (bs : List Byte) : Option GridAsk :=
  let h := recHeader bs
  let w (i : Nat) : W64 := w64OfBytes ((bs.drop (8 + 8 * i)).take 8)
  let src := bit h 25
  let order := if src then bits h 22 3 else n.order
  let nd := if src then bits (w 0) 48 3 else n.ndeps
  let vs := if src then w 1 else n.word 9
  let d : Nat × Nat × Nat := (bits (w 0) 0 16, bits (w 0) 16 16, bits (w 0) 32 16)
  if hdrSize h < 40 || d.1 = 0 || d.2.1 = 0 || d.2.2 = 0 || decide (2 ^ 24 < d.1 * d.2.1 * d.2.2) || decide (4 < bits (w 0) 48 3) ||
      bits (w 0) 51 13 ≠ 0 || bits (w 1) 60 4 ≠ 0 || (axesOf order).isNone then none
  else some { dims := d, order := order, deps := (upto nd).map (depVec vs), place := if w 2 = 0 then n.word 3 else w 2 }

/-- What reading a placement map comes to (R314). -/
inductive PlaceRes where
  | ok (s : State) (m : List Nat)
  | wait (s : State)
  | bad (s : State)

/-- A core is out of service: its domain is quiesced or has failed its test (R378). -/
def State.coreOut (s : State) (core : Nat) : Bool := (s.core core).fenced || s.doms.any (fun d => d.dom = .core core && d.quiesced)

/-- An entry of a placement map names a core of the context that is not fenced. -/
def State.placeOk (s : State) (ctx v : Nat) : Bool :=
  v = 0xFFFF || (decide (v < 224) && decide ((s.core v).ctx = some ctx) && !s.coreOut v)

/-- The places of an entry of a placement map, on any page with R (R314); another device's lines are read under the directory. -/
def State.mapPlaces (s : State) (ctx id : Nat) (va : W64) : CopyRes (List Loc) :=
  let held (l : Loc) : Loc := match l with | .remote _ dev pa => .remote .cohf dev pa | l => l
  (s.enginePages noCore ctx id va 2 .read).bind (fun s p => s.engineReady noCore ctx 0 .read ((placesOf p.1 p.2 va 2).map held))

/-- Read a placement map through the context's translation, from entry i on; `n` entries are left. -/
def State.readPlaces (s : State) (ctx id : Nat) (va : W64) (i : Nat) : Nat → PlaceRes
  | 0 => .ok s []
  | n + 1 =>
    match s.mapPlaces ctx id (va + BitVec.ofNat 64 (2 * i)) with
    | .stop s _ _ => .bad s
    | .wait ask => .wait (ask s)
    | .ok s pl =>
      let s := (s.engineRead noCore pl).1
      let v := natOfBytes (pl.map (s.readByte noCore))
      if !s.placeOk ctx v then .bad s
      else
        match s.readPlaces ctx id va (i + 1) n with
        | .ok s m => .ok s (v :: m)
        | r => r

/-- Take a grid record out of its cistern. -/
def State.dropRecord (s : State) (node : Nat) (r : Rec) : State :=
  { s with nodes := s.nodes.adjust node (fun k => { k with records := k.records.erase r }) }

/-- A grid record is rejected at expansion: its launch error is reported and its parent counts no child (R324, R325). -/
def State.rejectGrid (s : State) (node : Nat) (r : Rec) (e : LaunchErr) : State :=
  ((s.dropRecord node r).launchError e (recHeader r.bytes) r.src).childGone r.parent 1 1

/-- The number of workgroups that a grid record asks for. -/
def GridAsk.total (a : GridAsk) : Nat := a.dims.1 * a.dims.2.1 * a.dims.2.2

/-- Create the grid of a record (R312, R315): its block of sequence numbers is taken, and its parent counts its further members (R325). -/
def State.makeGrid (s : State) (node : Nat) (k : Node) (r : Rec) (a : GridAsk) (place : Option (List Nat)) : State :=
  let n := a.total
  let g : Grid := { node := node, first := k.nextSeq, record := r.bytes, dims := a.dims, order := a.order, deps := a.deps, place := place,
                    retired := [], ended := 0, released := [], admitted := [], cancelled := false, lost := false, src := r.src,
                    depth := r.depth, parent := r.parent, hold := .free }
  let s := s.dropRecord node r
  let s := match r.parent with
    | none => s
    | some t => s.onParent t (fun c => c + n - 1) id
  { s with
    grids := s.grids.put s.serial { g with released := (upto n).filter (fun l => g.free l) }
    nodes := s.nodes.adjust node (fun k => { k with nextSeq := (k.nextSeq + n) % 2 ^ 32 })
    serial := s.serial + 1 }

/-- Expand a grid record (R312 to R315); none while a page of its map is not at hand, with what that asks for. -/
def State.expandGrid (s : State) (node : Nat) (k : Node) (r : Rec) : State × Bool :=
  match gridAsk k r.bytes with
  | none => (s.rejectGrid node r .nodeInvalid, true)
  | some a =>
    if !a.deps.all (depOk a.order) then (s.rejectGrid node r .cycle, true)
    else if a.place = 0 then (s.makeGrid node k r a none, true)
    else
      match s.readPlaces k.ctx r.id a.place 0 a.total with
      | .ok s m => (s.makeGrid node k r a (some m), true)
      | .wait s => (s, false)
      | .bad s => (s.rejectGrid node r .placement, true)

/-- Expand the first of some grid records that need not wait. -/
def State.expandFirst (s : State) (node : Nat) (k : Node) : List Rec → State
  | [] => s
  | r :: l =>
    match s.expandGrid node k r with
    | (s, true) => s
    | (s, false) => s.expandFirst node k l

/-- GRID_EXPAND: the oldest grid record of a cistern that does not wait for its map (R312 to R315). -/
def execGridExpand (node : Nat) (s : State) : Out :=
  .next (match s.nodes.find node with
    | none => s
    | some k => s.expandFirst node k (k.records.filter (fun r => hdrGrid (recHeader r.bytes))))

/-! ### Leases and parking (R320, R321) -/

/-- The granted leases of a core's residents (R320). -/
def State.grantedAll (s : State) (core : Nat) : Nat := (s.residents core).foldl (fun a p => a + s.granted p.1 p.2) 0

/-- The lease budget of a core for its context (R320). -/
def State.budget (s : State) (core extra : Nat) : Nat :=
  let f := (((s.core core).ctx.bind (fun c => s.ctxs.find c)).map Ctx.over).getD 16
  s.l1Size core extra * f / 16 - (s.core core).throttle

/-- A workgroup's minimum lease (R320). -/
def Workgroup.minLease (g : Workgroup) : Nat := 4096 * (g.lbase + (if g.ne = 0 then 0 else g.lper))

/-- The most strands of a workgroup that were active at once (R322). -/
def State.noteActive (s : State) (w : WgId) : State :=
  s.updWg w (fun g => { g with maxActive := max g.maxActive (s.strands.filter (fun p =>
    decide (p.1.wg = w) && decide (p.1.slice = .execute) && !p.2.parked && !p.2.exited)).length })

/-- Activate a strand. -/
def State.unpark (s : State) (sid : StrandId) : State := (s.updStrand sid (fun st => { st with parked := false })).noteActive sid.wg

/-- The parked strands of a core, by admission and index (R321). -/
def State.parkedOf (s : State) (core : Nat) : List (StrandId × Nat) :=
  (s.residents core).flatMap (fun p =>
    (upto p.2.ne).filterMap (fun i =>
      match s.strands.find ⟨p.1, .execute, i⟩ with
      | some st => if st.parked && !st.exited then some (⟨p.1, .execute, i⟩, p.2.lper) else none
      | none => none))

/-- Activate strands in order while the granted leases fit the budget (R321). -/
def activateList (s : State) (core : Nat) : List (StrandId × Nat) → State
  | [] => s
  | (sid, lper) :: l => if s.grantedAll core + 4096 * lper ≤ s.budget core 0 then activateList (s.unpark sid) core l else s

/-- Activation on a core. -/
def State.activate (s : State) (core : Nat) : State := activateList s core (s.parkedOf core)

/-- The strand that the core parks next while the granted leases exceed the budget (R321). -/
def State.parkNext (s : State) (core : Nat) : Option StrandId :=
  if s.grantedAll core ≤ s.budget core 0 then none
  else
    ((s.residents core).reverse.findSome? (fun p =>
      let l := (upto p.2.ne).filter (fun i => match s.strands.find ⟨p.1, .execute, i⟩ with | some st => !st.parked && !st.exited | none => false)
      if 1 < l.length then l.getLast?.map (fun i => (⟨p.1, .execute, i⟩ : StrandId)) else none))

/-- A strand at a yield point is parked if it is the one to park and is not blocked (R321). -/
def State.parkAtYield (s : State) (sid : StrandId) : State :=
  if s.parkNext sid.wg.core = some sid then
    s.updStrand sid (fun st => if st.frags.any (fun f => f.st = .ready) then { st with parked := true } else st)
  else s

/-- VICTIM_WINDOW: after 65,536 L1 accesses the throttle J follows the victim-tag hits (R321). -/
def execVictimWindow (core : Nat) (s : State) : Out :=
  .next (
    let c := s.core core
    match c.ctx.bind (fun x => s.ctxs.find x) with
    | none => s
    | some x =>
      if c.l1count < 65536 then s
      else
        let rs := s.residents core
        let share := 4096 * max 1 (rs.foldl (fun a p => max a p.2.lper) 0)
        let least := rs.foldl (fun a p => max a p.2.minLease) 0
        let limit := s.l1Size core 0 * x.over / 16 - least
        let up := decide (x.vth < c.victimHits)
        let j := if up then max c.throttle (min (c.throttle + share) limit) else if c.victimHits = 0 then c.throttle - share else c.throttle
        let s := s.updCore core (fun c => { c with throttle := j, victimHits := 0, l1count := c.l1count - 65536 })
        let s := if c.throttle < j then s.count core 8 1 else s
        s.activate core)

/-! ### What a core can hold (R11, R12, R107, R318) -/

/-- What a workgroup needs of a core. -/
structure Needs where
  na    : Nat
  ne    : Nat
  vregs : Nat
  size  : Nat
  queue : Nat
  acc   : Nat

/-- A queue of a node (Table 16.1); none where it is not declared. -/
def Node.qdecl (n : Node) (i : Nat) : Option QDecl :=
  let e := bits (n.word (10 + i / 4)) (16 * (i % 4)) 16
  let kind : Option QKind := match e % 4 with | 1 => some .oq | 2 => some .sq | 3 => some .cq | _ => none
  kind.map (fun k => { kind := k, bcast := e / 4 % 2 = 1, depth := e / 8 % 2 ^ 12 + 1 })

/-- The channels of a queue (R46, R304). -/
def QDecl.channels (d : QDecl) (na ne : Nat) : Nat := if d.bcast then 1 else match d.kind with | .oq => ne | _ => na

/-- The queue memory of a node. -/
def Node.queueMem (n : Node) : Nat :=
  (upto 16).foldl (fun a i => match n.qdecl i with | some d => a + d.depth * d.channels n.na n.ne | none => a) 0

/-- A node's needs. -/
def Node.needs (n : Node) : Needs := { na := n.na, ne := n.ne, vregs := n.vregs, size := n.alloc, queue := n.queueMem, acc := n.acc }

/-- The queue memory of a workgroup. -/
def Workgroup.queueMem (g : Workgroup) : Nat := g.queues.foldl (fun a q => a + q.2.decl.depth * q.2.chans.length) 0

/-- A workgroup's needs. -/
def Workgroup.needs (g : Workgroup) : Needs :=
  { na := g.na, ne := g.ne, vregs := g.vregs, size := g.size, queue := g.queueMem, acc := g.acc }

/-- The free places of a slice on a core: lanes with a slot, and on an execute lane the words, for strands of `words` words (R11). -/
def State.freePlaces (s : State) (core : Nat) (sl : Slice) (words : Nat) : List (Nat × Nat) :=
  let mine := s.strands.filterMap (fun p =>
    if p.1.wg.core = core && p.1.slice = sl then some (p.2.lane, p.2.slot, ((s.wgs.find p.1.wg).map (fun g => 8 * g.vregs)).getD 0) else none)
  let lanes := match sl with | .access => 64 | .execute => 1024
  (upto lanes).flatMap (fun l =>
    let on := mine.filter (fun x => x.1 = l)
    let used := on.foldl (fun a x => a + x.2.2) 0
    let fit := match sl with | .access => 4 - on.length | .execute => min (4 - on.length) ((512 - used) / max 1 words)
    (((upto 4).filter (fun k => on.all (fun x => x.2.1 ≠ k))).take fit).map (fun k => (l, k)))

/-- The resources of R318 but for the lease. -/
def State.holdsAll (s : State) (core : Nat) (n : Needs) : Bool :=
  let rs := s.residents core
  decide (n.ne ≤ (s.freePlaces core .execute (8 * n.vregs)).length) && decide (n.na ≤ (s.freePlaces core .access 0).length) &&
  decide (rs.foldl (fun a p => a + p.2.size) n.size ≤ 768 * 1024) &&
  decide (rs.foldl (fun a p => a + p.2.queueMem) n.queue ≤ 8192) && decide (rs.foldl (fun a p => a + p.2.acc) n.acc ≤ 32)

/-- The minimum lease fits the core's budget; an empty core takes any workgroup (R320). -/
def State.leaseFits (s : State) (core : Nat) (size least : Nat) : Bool :=
  (s.residents core).isEmpty || decide (s.grantedAll core + least ≤ s.budget core size)

/-- A node's minimum lease; a node that still measures runs without one (R322). -/
def Node.minLease (n : Node) : Nat := 4096 * ((if n.lm then 0 else n.lbase) + (if n.ne = 0 then 0 else n.lper))

/-- The core serves a node's role, and what was resident when it last moved has retired (R323). -/
def State.roleFits (s : State) (core node : Nat) (n : Node) : Bool :=
  decide ((s.core core).stage = if n.role then some node else none) &&
  (s.residents core).all (fun p => !(s.core core).leaving.contains p.2.task)

/-- A context admits work: it is active, and the device is neither hot nor off (R333, R403). -/
def State.admits (s : State) (ctx : Nat) : Bool :=
  (match s.ctxs.find ctx with | some c => decide (c.state = .active) | none => false) &&
  (match s.plat.pstate with | .active => true | .idle => true | _ => false)

/-- A core is in a context's partition and takes work. -/
def State.coreTakes (s : State) (ctx core : Nat) : Bool :=
  decide (core < 224) && decide ((s.core core).ctx = some ctx) && !s.coreOut core

/-- A workgroup of a node fits a core (R318); `place` is its entry of the placement map. -/
def State.fitsNode (s : State) (node : Nat) (n : Node) (place : Option Nat) (core : Nat) : Bool :=
  s.coreTakes n.ctx core && (match place with | some p => decide (p = core) | none => s.roleFits core node n) &&
  s.holdsAll core n.needs && s.leaseFits core n.alloc n.minLease

/-- The core that a grid's map names for a member. -/
def Grid.placeOf (g : Grid) (l : Nat) : Option Nat :=
  match g.place.bind (fun m => m[l]?) with
  | some v => if v = 0xFFFF then none else some v
  | none => none

/-! ### The Weir governor (R323) -/

/-- A stage's occupancy: its cistern's records and those of launched workgroups that are not admitted. -/
def State.occupancy (s : State) (node : Nat) : Nat :=
  ((s.nodes.find node).map (fun k => k.records.length)).getD 0 +
  (s.launched.filter (fun p => p.2.node = node)).foldl (fun a p => a + p.2.records.length) 0

/-- The movable cores of a stage, lowest first: none has moved in the last 16 evaluations. -/
def State.movable (s : State) (node : Nat) : List Nat :=
  (upto 224).filter (fun c => decide ((s.core c).stage = some node) &&
    (match (s.core c).movedAt with | some k => decide (k + 16 < s.weirCount) | none => true))

/-- The stage with the largest positive amount, the lower node number of several. -/
def largest (l : List (Nat × Nat)) : Option (Nat × Nat) :=
  l.foldl (fun a x => if x.2 = 0 then a else match a with
    | none => some x
    | some y => if y.2 < x.2 || (x.2 = y.2 && x.1 < y.1) then some x else a) none

/-- The donor and the receiver among a context's stages, with their amounts. -/
def State.weirPair (s : State) (ctx : Nat) : Option ((Nat × Nat) × Nat × Nat) :=
  let stages := s.nodes.filter (fun p => p.2.role && p.2.ctx = ctx)
  let cores (n : Nat) : Nat := ((upto 224).filter (fun c => (s.core c).stage = some n)).length
  let donors := (stages.filter (fun p => decide (p.2.minCores < cores p.1) && !(s.movable p.1).isEmpty)).map (fun p => (p.1, p.2.low - s.occupancy p.1))
  let takers := stages.map (fun p => (p.1, s.occupancy p.1 - p.2.high))
  match largest donors, largest takers with
  | some d, some t => some (d, t)
  | _, _ => none

/-- Move a stage's lowest movable core to another stage; what is resident on it runs to retirement first (R323). -/
def State.moveCore (s : State) (donor taker : Nat) : State :=
  match (s.movable donor).head? with
  | some c => s.updCore c (fun k => { k with stage := some taker, movedAt := some s.weirCount, leaving := (s.residents c).map (fun p => p.2.task) })
  | none => s

/-- WEIR_EVALUATE: every 4,096 clocks at most one core moves (R323); a context that is being saved moves none (R333). Stages of one context exchange
cores, and of several contexts the one with the largest donor does (log 34). -/
def execWeirEvaluate (s : State) : Out :=
  .next (if s.clock < s.lastWeir + 4096 then s
    else
      let s := { s with lastWeir := s.clock, weirCount := s.weirCount + 1 }
      let pairs := (s.ctxs.filter (fun c => c.2.state = .active)).filterMap (fun c => s.weirPair c.1)
      match largest (pairs.map Prod.fst) with
      | none => s
      | some d => match pairs.find? (fun p => p.1 = d) with
        | some p => s.moveCore d.1 p.2.1
        | none => s)

end Sys2Proof.Machine
end

