-- ==== Sys2Proof/Machine/Yield.lean ====
section
/-!
DEFINITION. Machine/Yield.lean: which instructions are yield-class (R38, Table 2.3), from the encoding alone.
-/
namespace Sys2Proof.Machine
open Sys2Proof

/-- The operand selectors of the common forms. -/
def V3.sels (o : V3) : List Sel := [o.d, o.a, o.b]
def V3u.sels (o : V3u) : List Sel := [o.d, o.a]
def X1.sels (o : X1) : List Sel := [o.d, o.a, o.b]
def X1u.sels (o : X1u) : List Sel := [o.d, o.a]
def X2c.sels (o : X2c) : List Sel := [o.d, o.a, o.b, o.c]
def CvtF.sels (o : CvtF) : List Sel := [o.d, o.a]

/-- The operand selectors of an instruction that is not yield-class by its opcode. -/
def Instr.sels : Instr → List Sel
  | .vadd _ o => V3.sels o
  | .vaddX1 _ o => X1.sels o
  | .vsub _ o => V3.sels o
  | .vsubX1 _ o => X1.sels o
  | .vmul _ o => V3.sels o
  | .vmulX1 _ o => X1.sels o
  | .vmulh _ o => V3.sels o
  | .vmulhX1 _ o => X1.sels o
  | .vmad _ o => X2c.sels o
  | .vneg _ o => V3u.sels o
  | .vnegX1 _ o => X1u.sels o
  | .vabs _ o => V3u.sels o
  | .vabsX1 _ o => X1u.sels o
  | .vmin _ o => V3.sels o
  | .vminX1 _ o => X1.sels o
  | .vmax _ o => V3.sels o
  | .vmaxX1 _ o => X1.sels o
  | .vavg _ o => V3.sels o
  | .vavgX1 _ o => X1.sels o
  | .vsad _ o => V3.sels o
  | .vsadX1 _ o => X1.sels o
  | .vaddc _ o => V3.sels o
  | .vaddcX1 _ o => X1.sels o
  | .vand _ o => V3.sels o
  | .vandX1 _ o => X1.sels o
  | .vor _ o => V3.sels o
  | .vorX1 _ o => X1.sels o
  | .vxor _ o => V3.sels o
  | .vxorX1 _ o => X1.sels o
  | .vnot _ o => V3u.sels o
  | .vnotX1 _ o => X1u.sels o
  | .vshl _ o => V3.sels o
  | .vshlX1 _ o => X1.sels o
  | .vshr _ o => V3.sels o
  | .vshrX1 _ o => X1.sels o
  | .vsra _ o => V3.sels o
  | .vsraX1 _ o => X1.sels o
  | .vrot _ o => V3.sels o
  | .vrotX1 _ o => X1.sels o
  | .vpopc _ o => V3u.sels o
  | .vclz _ o => V3u.sels o
  | .vbrev _ o => V3u.sels o
  | .vbfx _ d a _ _ _ => [d, a]
  | .vbfi _ d a b _ _ => [d, a, b]
  | .vsel _ d a b _ => [d, a, b]
  | .vmov _ o => V3u.sels o
  | .vmovX1 _ o => X1u.sels o
  | .vdiv _ o => V3.sels o
  | .vdivX1 _ o => X1.sels o
  | .vrem _ o => V3.sels o
  | .vremX1 _ o => X1.sels o
  | .vcmp _ _ _ a b => [a, b]
  | .vcmpX1 _ _ _ a b _ => [a, b]
  | .vclamp _ o => X2c.sels o
  | .vshuf _ o => V3.sels o
  | .vshufX1 _ o => X1.sels o
  | .vbcast _ o => V3.sels o
  | .vbcastX1 _ o => X1.sels o
  | .vrott _ o => V3.sels o
  | .vrottX1 _ o => X1.sels o
  | .vred _ d a _ => [d, a]
  | .vscan _ d a _ _ _ => [d, a]
  | .v2s _ _ _ a => [a]
  | .vidx _ o => V3.sels o
  | .ktos _ _ d _ => [d]
  | .kpopc _ _ d _ => [d]
  | .kffs _ _ d _ => [d]
  | .fadd _ o => V3.sels o
  | .faddX1 _ o => X1.sels o
  | .fsub _ o => V3.sels o
  | .fsubX1 _ o => X1.sels o
  | .fmul _ o => V3.sels o
  | .fmulX1 _ o => X1.sels o
  | .fma _ o => X2c.sels o
  | .fmac _ o => V3.sels o
  | .fmacX1 _ o => X1.sels o
  | .fmin _ o => V3.sels o
  | .fminX1 _ o => X1.sels o
  | .fmax _ o => V3.sels o
  | .fmaxX1 _ o => X1.sels o
  | .fabs _ o => V3u.sels o
  | .fabsX1 _ o => X1u.sels o
  | .fneg _ o => V3u.sels o
  | .fnegX1 _ o => X1u.sels o
  | .frcp _ o => V3u.sels o
  | .frcpX1 _ o => X1u.sels o
  | .frsq _ o => V3u.sels o
  | .frsqX1 _ o => X1u.sels o
  | .fsqrt _ o => V3u.sels o
  | .fsqrtX1 _ o => X1u.sels o
  | .fdiv _ o => V3.sels o
  | .fdivX1 _ o => X1.sels o
  | .fexp2 _ o => V3u.sels o
  | .fexp2X1 _ o => X1u.sels o
  | .flog2 _ o => V3u.sels o
  | .flog2X1 _ o => X1u.sels o
  | .fsin _ o => V3u.sels o
  | .fsinX1 _ o => X1u.sels o
  | .fcos _ o => V3u.sels o
  | .fcosX1 _ o => X1u.sels o
  | .frint _ o => V3u.sels o
  | .frintX1 _ o => X1u.sels o
  | .fclass _ o => V3u.sels o
  | .fclassX1 _ o => X1u.sels o
  | .fscl _ o => V3.sels o
  | .fsclX1 _ o => X1.sels o
  | .fcmp _ _ _ a b => [a, b]
  | .fcmpX1 _ _ _ a b _ => [a, b]
  | .fdot2 _ o => V3.sels o
  | .fdot2X1 _ o => X1.sels o
  | .fdot4 _ o => V3.sels o
  | .fdot4X1 _ o => X1.sels o
  | .fclamp _ o => X2c.sels o
  | .ftanh _ o => V3u.sels o
  | .ftanhX1 _ o => X1u.sels o
  | .cvt _ o => CvtF.sels o
  | .pack _ o => V3.sels o
  | .packX1 _ o => X1.sels o
  | .unpack _ o => V3.sels o
  | .unpackX1 _ o => X1.sels o
  | .qscale _ o => V3u.sels o
  | .qcnt _ _ d _ => [d]
  | .acrd _ _ d a => [d, a]
  | .acrdX1 _ d a _ => [d, a]
  | .acwr _ _ a b => [a, b]
  | .acwrX1 _ _ a b _ => [a, b]
  | .ld _ _ idx _ _ => [idx]
  | .st _ idx v _ => [idx, v]
  | .lds _ _ off _ => [off]
  | .ldsX1 _ _ off _ _ => [off]
  | .sts _ _ off v => [off, v]
  | .stsX1 _ _ off v _ => [off, v]
  | .feq _ _ _ off _ => [off]
  | .bfset _ _ _ v => [v]
  | _ => []

/-- The opcodes of Table 2.3, by map. -/
def yieldOpcode (second : Bool) (op : Nat) : Bool :=
  if second then (decide (0x01 ≤ op) && decide (op ≤ 0x09)) || [0x41, 0x49, 0x70, 0x71, 0x72, 0x73].contains op
  else [0x70, 0x71, 0x73, 0x82, 0x83, 0x84, 0x85, 0x86, 0x89, 0x8A, 0x8C, 0x8D, 0x90, 0x91, 0x92, 0x93, 0x95].contains op ||
    (decide (0xA0 ≤ op) && decide (op ≤ 0xA9))

/-- A 7-bit selector field names a queue (R154). -/
def queueField (x : BitVec 7) : Bool := decide (100 ≤ x.toNat) && decide (x.toNat ≤ 115)

/-- Whether D, A and B of a main-map opcode are operand selectors (Tables 10.2, 10.11, 11.3): some hold mask numbers, buffer records or
paths, or are unused. -/
def selectorFields (op : Nat) : Bool × Bool × Bool :=
  if [0x30, 0x35].contains op then (false, false, false)
  else if [0x1E, 0x31, 0x36, 0x54, 0x88].contains op then (false, true, true)
  else if [0x32, 0x33, 0x34, 0x37, 0x72, 0x94].contains op then (true, false, true)
  else if op = 0x87 || op = 0x8B then (true, true, false)
  else if op = 0x8E then (false, false, true)
  else if op = 0x8F then (true, false, false)
  else (true, true, true)

/-- Yield class of words that are no legal instruction (R38): it is static, so it follows the opcode and the operand selectors (log 45). -/
def yieldWords (w e : W32) : Bool :=
  let second := if isLong w then bitAt 29 w else bitAt 30 w
  let op := (if isLong w then fld 8 21 w else fld 8 22 w).toNat
  yieldOpcode second op ||
    (!second && (match candidate none w e with
      | some i => (Instr.sels i).any Sel.isQueue
      | none =>
        let (d, a, b) := selectorFields op
        (d && queueField (fld 7 14 w)) || (a && queueField (fld 7 7 w)) || (b && queueField (fld 7 0 w))))

/-- Yield-class (Table 2.3): by its opcode, or by a queue operand. -/
def Instr.yieldClass (i : Instr) : Bool :=
  (match i with
    | .deq _ _ _ => true
    | .enq _ _ _ _ => true
    | .enqX2 _ _ _ _ _ => true
    | .qdrop _ _ => true
    | .ldq _ _ _ _ _ _ => true
    | .ldqb _ _ => true
    | .gatherq _ _ _ _ _ _ _ => true
    | .gatherqList _ _ => true
    | .stq _ _ _ _ => true
    | .scatq _ _ _ _ => true
    | .ldc _ _ _ _ => true
    | .stf _ _ _ _ => true
    | .ldsq _ _ _ _ _ _ => true
    | .stsq _ _ _ _ => true
    | .pfr _ _ _ _ => true
    | .pft _ _ _ _ => true
    | .nzscan _ _ => true
    | .waitf _ _ _ => true
    | .land _ _ _ _ => true
    | .mloop _ _ => true
    | .mzero _ _ _ _ => true
    | .mscl _ _ _ _ => true
    | .msclX1 _ _ _ _ _ => true
    | .mdrain _ _ _ _ _ => true
    | .mfill _ _ _ _ _ => true
    | .mcfg _ _ _ _ _ => true
    | .tcopy _ _ => true
    | .tstore _ _ _ _ _ => true
    | .tmcast _ _ _ => true
    | .tdset _ _ _ _ => true
    | .br _ => true
    | .brc _ _ _ => true
    | .brd _ _ _ _ => true
    | .brt _ _ _ => true
    | .loop _ _ => true
    | .call _ _ => true
    | .ret _ => true
    | .cwait _ _ _ => true
    | .cwaitX1 _ _ _ => true
    | .barw _ _ => true
    | .fbwr _ => true
    | .fbrd _ => true
    | .fbred _ _ _ => true
    | .ueget _ _ => true
    | .exit => true
    | .yield => true
    | .reservedOpcode _ w e => yieldWords w e
    | _ => false) || (Instr.sels i).any Sel.isQueue

end Sys2Proof.Machine
end

