-- ==== Sys2Proof/Machine/System.lean ====
section
/-!
DEFINITION. Machine/System.lean: traps and their return, fault records, comparators, debug stops and samples (R297 to R302), and words
that are no instruction (R157, R164, R165).
-/
namespace Sys2Proof.Machine
open Sys2Proof

/-- TRAP (R297): SOFTWARE, whatever EM; the resume point is the next instruction. -/
def execTrap (code : BitVec 16) (s : State) : Out :=
  asStrand s (fun m => s.trapAt m (m.pc + 4) { code := .software, va := code.setWidth 64 })

/-- RFT (R298): from the fragment that runs the handler. -/
def execRft (s : State) : Out :=
  asStrand s (fun m =>
    match m.st.frame with
    | some fr => if fr.frag = m.f.born then s.returnFromTrap m fr else s.raise m .illegal
    | none => s.raise m .illegal)

/-- Write words to s registers from a number up, without the latches (R299, R302). -/
def State.writeSs (s : State) (m : Me) (d : Nat) (ws : List W64) : State :=
  s.updStrand m.sid (fun st => ((upto ws.length).zip ws).foldl (fun st p => st.sSet (d + p.1) p.2) st)

/-- RDFLT (R299): the record of the strand's most recent trap, zeros before one. -/
def execRdflt (d : BitVec 3) (s : State) : Out :=
  asStrand s (fun m =>
    let ws := match m.st.fault with | some r => r.words | none => [0, 0, 0, 0]
    (s.writeSs m (4 * d.toNat) ws).advance m 4)

/-- WPSET (R300). -/
def execWpset (wp : BitVec 3) (r w a : Bool) (x : BitVec 5) (s : State) : Out :=
  asStrand s (fun m =>
    let len := m.st.sGet (x.toNat + 1)
    if !m.access || x = 31 || !(r || w || a) || len = 0 then s.raise m .illegal
    else
      let c : Watch := { num := wp.toNat, read := r, write := w, atom := a, addr := m.st.sGet x.toNat, len := len }
      (s.updCore m.core (fun k => { k with watches := k.watches.filter (fun v => v.num ≠ wp.toNat) ++ [c] })).advance m 4)

/-- WPCLR (R300). -/
def execWpclr (wp : BitVec 3) (s : State) : Out :=
  asStrand s (fun m =>
    if !m.access then s.raise m .illegal
    else (s.updCore m.core (fun k => { k with watches := k.watches.filter (fun v => v.num ≠ wp.toNat) })).advance m 4)

/-- The debug port is open (R377): unlocked, or in a lifecycle state that opens it. -/
def Trust.debugOpen (t : Trust) : Bool :=
  t.portOpen || (match t.lifecycle with | .manufacture => true | .rma => true | _ => false)

/-- BKPT (R301, R392). -/
def execBkpt (s : State) : Out :=
  asStrand s (fun m =>
    (if Trust.debugOpen s.trust then s.updWg m.sid.wg (fun g => { g with stopAfter := true }) else s).advance m 4)

/-- SMPRD (R302): the core's sample of the reading context, zeros otherwise. -/
def execSmprd (d : BitVec 2) (sampler : BitVec 3) (s : State) : Out :=
  asStrand s (fun m =>
    let ws := match (s.core m.core).samples.find sampler.toNat with
      | some x => if x.ctx = m.wg.ctx then x.words else List.replicate 8 0
      | none => List.replicate 8 0
    (s.writeSs m (8 * d.toNat) ws).advance m 4)

/-- The clocks of a skipped instruction with a prefix word (R21). -/
def reservedClocks (p : Option W32) : Nat := match p with | some w => if bitAt 14 w then (fld 4 10 w).toNat + 1 else 1 | none => 1

/-- Words that are no legal instruction (R31, R164): a fragment with an empty EM skips a main-map word, otherwise ILLEGAL. Those whose
opcode or operands make them yield-class are a yield point, before which the issuer's waiting trap is taken (R38, R41, R261). -/
def execReservedOpcode (p : Option W32) (w ext : W32) (s : State) : Out :=
  asStrand s (fun m =>
    let yields := yieldWords w ext
    match (if yields then m.pending else none) with
    | some r => s.takePending m r
    | none =>
      if m.em = 0 && isMain w then s.finishVec m yields (reservedClocks p) (Instr.length (.reservedOpcode p w ext)) else s.raise m .illegal)

/-- A prefix word without the instruction that it needs (R157): whatever EM. -/
def execOrphanPrefix (s : State) : Out := asStrand s (fun m => s.raise m .orphanPrefix)

end Sys2Proof.Machine
end

