-- ==== Sys2Proof/Machine/Admit.lean ====
section
/-!
DEFINITION. Machine/Admit.lean: admission (R318, R319), the resumption of saved workgroups (R337), retirement (R316, R28, R322) and debug
stops at task boundaries (R392).
-/
namespace Sys2Proof.Machine
open Sys2Proof

/-! ### A new workgroup (R24, R27, R307, R319) -/

/-- A task identity (Table 2.1). -/
def taskId (ctx seq core node : Nat) : W64 :=
  BitVec.ofNat 64 (putField ctx 52 12 + putField seq 20 32 + putField core 12 8 + putField node 0 12)

/-- MODE at the start of a strand (R72). -/
def startMode : Slice → BitVec 9
  | .access => 0x00A | .execute => 0x002

/-- The root fragment at an entry address (R24). -/
def rootFrag (entry : W64) : Frag :=
  { pc := entry.extractLsb' 2 62, join := 0, fm := 0xFF, em := 0xFF, parent := 15, st := .ready, born := 0, pborn := none, split := false,
    wait := none, rc := 0, scan := none }

/-- A strand at its first instruction (R24, R75). -/
def startStrand (sl : Slice) (entry : W64) (lane slot : Nat) (parked : Bool) : Strand :=
  { v := [], x := [], s := [], k := [], latches := [], qt := 0, mode := startMode sl, flags := 0, srs := seedSrs 0x9E3779B9,
    frags := rootFrag entry :: List.replicate 7 Frag.free, spilled := [], nextFrag := 0, nborn := 1, frame := none, fault := none,
    parked := parked, exited := false, stopped := false, lane := lane, slot := slot, watchSkip := false }

/-- The queues of a node with empty channels (R46, R115). -/
def Node.queues (n : Node) : AList Nat Queue :=
  (upto 16).filterMap (fun i => (n.qdecl i).map (fun d => (i, { decl := d, chans := List.replicate (d.channels n.na n.ne) [] })))

/-- What places a workgroup: its sequence number, records, grid member, depth and parent. -/
structure Launch where
  seq     : Nat
  records : List (List Byte)
  grid    : Option (Nat × Nat)
  dims    : Nat × Nat × Nat
  coords  : Nat × Nat × Nat
  depth   : Nat
  parent  : Option W64
  placed  : Bool

/-- The workgroup of a launch on a core (R307, R319). -/
def Node.workgroup (n : Node) (node core : Nat) (l : Launch) : Workgroup :=
  { node := node, ctx := n.ctx, task := taskId n.ctx l.seq core node, seqNo := l.seq, grid := l.grid, dims := l.dims, coords := l.coords,
    depth := l.depth, parent := l.parent, na := n.na, ne := n.ne, issuer := n.issuer, prio := n.prio, vregs := n.vregs, acc := n.acc,
    recCount := l.records.length, recBase := n.recBase, tentry := n.word 2, out := n.outs, errctr := n.word 4, size := n.alloc,
    shared := ((upto l.records.length).zip l.records).foldl (fun m p => m.setBytes (n.recBase + p.1 * n.recSize) p.2) [],
    full := [], feq := [], queues := n.queues, barriers := [], targets := [], landings := [], tiles := [], tileTy := [], shadowed := [],
    msteps := [], mconf := ⟨false, .rne, none⟩, pend := [], memClass := bit (n.word 5) 37, lbase := if n.lm then 0 else n.lbase, lper := n.lper,
    measuring := n.lm && decide (n.measured < 16), lines := [], maxActive := 0, placed := l.placed, children := 0, childGrids := 0,
    spillOff := n.spillOff, spillRoom := n.spill, stopAfter := false, hold := .free }

/-- The lowest workgroup slot that is free on a core. -/
def State.freeSlot (s : State) (core : Nat) : Nat :=
  ((upto ((s.residents core).length + 1)).find? (fun k => (s.residents core).all (fun p => p.1.slot ≠ k))).getD 0

/-- Place strands of a slice on free places; from the second execute strand on they are parked until activation (R321). -/
def placeStrands (w : WgId) (sl : Slice) (n : Nat) (at_ : List (Nat × Nat)) (mk : Nat → Nat × Nat → Strand) : List (StrandId × Strand) :=
  ((upto n).zip at_).map (fun p => (⟨w, sl, p.1⟩, mk p.1 p.2))

/-- Place a workgroup's strands on its core and activate what the budget allows (R319, R321); its allocation shrinks the L1 (R107). -/
def State.settleIn (s : State) (w : WgId) (g : Workgroup) (mk : Slice → Nat → Nat × Nat → Strand) : State :=
  let acc := placeStrands w .access g.na (s.freePlaces w.core .access 0) (mk .access)
  let exe := placeStrands w .execute g.ne (s.freePlaces w.core .execute (8 * g.vregs)) (mk .execute)
  let s := (({ s with wgs := s.wgs ++ [(w, g)], strands := s.strands ++ acc ++ exe }).phaseAcquire w.core).l1Trim w.core w.slot
  (s.noteActive w).activate w.core

/-- Admit a workgroup of a node on a core (R319); admission is a phase acquire (R137). -/
def State.placeNew (s : State) (core node : Nat) (n : Node) (l : Launch) : State :=
  let w : WgId := ⟨core, s.freeSlot core⟩
  let g := n.workgroup node core l
  let s := { s with nodes := if g.measuring then s.nodes.put node { n with measured := n.measured + 1 } else s.nodes, rrNode := s.rrNode.put n.prio node }
  s.settleIn w g (fun sl i p =>
    startStrand sl (match sl with | .access => n.word 0 | .execute => n.word 1) p.1 p.2 (decide (sl = .execute) && decide (0 < i)))

/-! ### The Distributor's choice (R315, R318) -/

/-- A stop on its node holds a workgroup at admission until the debugger continues it (R392). -/
def Hold.passes (h : Hold) (stop : Bool) : Bool := match h with | .continued => true | .halted => false | .free => !stop

/-- What each node offers: its oldest launched workgroup and the heads of its grids. -/
def State.offers (s : State) : List (AdmitSrc × Nat) :=
  s.nodes.flatMap (fun p =>
    (match s.launched.find? (fun l => l.2.node = p.1) with
     | some l => if l.2.hold.passes p.2.stopSet then [(AdmitSrc.launched l.1, p.1)] else []
     | none => []) ++
    (s.grids.filter (fun g => decide (g.2.node = p.1) && g.2.head.isSome && g.2.hold.passes p.2.stopSet)).map (fun g => (AdmitSrc.grid g.1, p.1)))

/-- An offer fits a core. -/
def State.fits (s : State) (o : AdmitSrc × Nat) (core : Nat) : Bool :=
  match s.nodes.find o.2 with
  | none => false
  | some n =>
    s.admits n.ctx && (match o.1 with
      | .grid id =>
        (match s.grids.find id with
         | some g => (match g.head with | some l => s.fitsNode o.2 n (g.placeOf l) core | none => false)
         | none => false)
      | _ => s.fitsNode o.2 n none core)

/-- The offers that some core can take. -/
def State.eligible (s : State) : List (AdmitSrc × Nat) :=
  s.offers.filter (fun o => (s.cores.map Prod.fst).any (fun c => s.fits o c))

/-- A node's priority. -/
def State.prioOf (s : State) (node : Nat) : Nat := ((s.nodes.find node).map Node.prio).getD 0

/-- The node whose turn it is: the highest priority, round robin within it (R318). -/
def State.turn (s : State) : Option Nat :=
  let l := s.eligible.map Prod.snd
  let top := l.foldl (fun a n => max a (s.prioOf n)) 0
  nextTurn (s.rrNode.find top) (l.filter (fun n => s.prioOf n = top))

/-- Admit a launched workgroup or a grid's head on a core (R318, R319). -/
def State.admitNew (s : State) (src : AdmitSrc) (core : Nat) : State :=
  match s.turn with
  | none => s
  | some node =>
    if !(s.offers.contains (src, node) && s.fits (src, node) core) then s
    else
      match s.nodes.find node, src with
      | some n, .launched id =>
        (match s.launched.find id with
         | none => s
         | some l =>
           State.placeNew { s with launched := s.launched.erase id } core node n
             { seq := l.seq, records := l.records, grid := none, dims := (1, 1, 1), coords := (0, 0, 0), depth := l.depth, parent := l.parent,
               placed := false })
      | some n, .grid id =>
        (match s.grids.find id with
         | none => s
         | some g =>
           match g.head with
           | none => s
           | some l =>
             let g' := { g with released := g.released.filter (fun x => x ≠ l), admitted := g.admitted ++ [l], hold := .free }
             State.placeNew { s with grids := s.grids.put id g' } core node n
               { seq := (g.first + l) % 2 ^ 32, records := [g.record], grid := some (id, l), dims := g.dims, coords := coordOf g.order g.dims l,
                 depth := g.depth, parent := g.parent, placed := (g.placeOf l).isSome })
      | _, _ => s

/-! ### Resumption (R337) -/

/-- A saved workgroup that cannot resume on its named core is terminated without a trap (R337). -/
def State.failPlacement (s : State) (ctx : Nat) (v : SavedWg) : State :=
  let h : W64 := match v.wg.grid.bind (fun g => s.grids.find g.1) with | some g => recHeader g.record | none => BitVec.ofNat 64 v.wg.node
  (s.logError ctx (.launch .placement h (some v.wg.task) false)).terminateSaved ctx v (terminationRecord v.wg ⟨v.from_, .access, 0⟩ 0 0 none 0x81)

/-- A saved workgroup whose context's save does not fit is terminated without a trap (R330, R336); the spec names no cause for it, which is
a free value (log 81). -/
def State.failSave (s : State) (ctx : Nat) (v : SavedWg) : State :=
  let (x, s) := s.takeFree
  s.terminateSaved ctx v (terminationRecord v.wg ⟨v.from_, .access, 0⟩ 0 0 none (x.setWidth 8))

/-- A core is not in a context's partition, or is fenced (R337). -/
def State.coreLost (s : State) (ctx core : Nat) : Bool :=
  decide (224 ≤ core) || decide ((s.core core).ctx ≠ some ctx) || s.coreOut core

/-- The saved workgroup of a number with its context. -/
def State.savedWg (s : State) (id : Nat) : Option (Nat × Ctx × SavedWg) :=
  s.ctxs.findSome? (fun c => (c.2.saved.find? (fun v => v.id = id)).map (fun v => (c.1, c.2, v)))

/-- A strand's identity in its new workgroup. -/
def StrandId.moved (x : StrandId) (w : WgId) : StrandId := { x with wg := w }

/-- Pending entries name their strand in the workgroup that now holds them. -/
def Workgroup.rehome (g : Workgroup) (w : WgId) : Workgroup :=
  { g with
    queues := g.queues.map (fun q => (q.1, { q.2 with chans := q.2.chans.map (fun c => c.map (fun e =>
      { e with pend := e.pend.map (fun (p : Pend) => { p with strand := StrandId.moved p.strand w, lines := [], buf := [] }) })) }))
    targets := g.targets.map (fun (t : SlotTarget) => { t with strand := StrandId.moved t.strand w })
    feq := g.feq.map (fun (x : FeWaiter) => { x with strand := StrandId.moved x.strand w }) }

/-- Restore the comparators of a core that a workgroup was saved from on the core where it resumes, once (R300). -/
def State.rewatch (s : State) (ctx from_ core : Nat) : State :=
  match s.ctxs.find ctx with
  | none => s
  | some c =>
    let ws := (c.watches.find from_).getD []
    if c.rewatched.contains (from_, core) then s
    else
      (s.updCtx ctx (fun c => { c with rewatched := c.rewatched ++ [(from_, core)] })).updCore core (fun k =>
        { k with watches := k.watches ++ ws.filter (fun x => k.watches.all (fun y => y.num ≠ x.num)) })

/-- Reinstate a saved workgroup on a core (R321, R335, R337): its strands are activated afresh, its commands, copies and Mend-log entries come with it,
whatever else the core holds of them (log 92), and its core's comparators. -/
def State.reinstate (s : State) (ctx : Nat) (v : SavedWg) (core : Nat) : State :=
  let w : WgId := ⟨core, s.freeSlot core⟩
  let s := s.updCtx ctx (fun c => { c with saved := c.saved.filter (fun x => x.id ≠ v.id) })
  let find (sl : Slice) (i : Nat) : Strand :=
    ((v.strands.find? (fun x => x.1 = sl && x.2.1 = i)).map (fun x => x.2.2)).getD (startStrand sl 0 0 0 false)
  let s := s.settleIn w (v.wg.rehome w) (fun sl i p =>
    { find sl i with lane := p.1, slot := p.2, stopped := false, parked := decide (sl = .execute) && decide (0 < i) })
  let cmds := v.cmds.map (fun (e : MEntry) => { e with wg := w, running := false })
  let mend := v.mend.map (fun (e : Mend) => { e with strand := StrandId.moved e.strand w })
  let s := (s.rewatch ctx v.from_.core core).updCore core (fun k => { k with
    mqueue := k.mqueue ++ cmds
    mend := k.mend ++ mend
    copies := k.copies + v.copies.length })
  { s with
    copies := s.copies ++ v.copies.map (fun (k : Copy) => { k with wg := w, core := core })
    targets := s.targets.map (fun (t : GlobalTarget) => if t.task = v.wg.task then { t with strand := StrandId.moved t.strand w } else t)
    ueGets := s.ueGets.map (fun (u : UeGet) => if u.task = v.wg.task then { u with strand := StrandId.moved u.strand w } else u)
    pageReqs := s.pageReqs.map (fun (r : PageReq) => { r with joined := r.joined.filter (fun j => match j with
      | .inst sid _ => decide (sid.wg ≠ v.from_)
      | _ => true) }) }

/-- Resume the first saved workgroup of a context (R337): it needs the resources of R318 but the lease. -/
def State.admitSaved (s : State) (id core : Nat) : State :=
  match s.savedWg id with
  | none => s
  | some (ctx, c, v) =>
    if c.state ≠ .resuming || (c.saved.head?.map SavedWg.id) ≠ some id then s
    else
      let named := bits v.wg.task 12 8
      if v.wg.placed && s.coreLost ctx named then s.failPlacement ctx v
      else if s.coreTakes ctx core && (!v.wg.placed || named = core) && s.holdsAll core v.wg.needs then s.reinstate ctx v core
      else s

/-- ADMIT (R318, R319, R337). -/
def execAdmitWg (src : AdmitSrc) (core : Nat) (s : State) : Out :=
  .next (match src with
    | .saved id => s.admitSaved id core
    | src => s.admitNew src core)

/-! ### Retirement (R28, R316) -/

/-- Every strand has exited, every engine operation has completed, the Mend-log entries are replayed and every access has performed. -/
def State.quiet (s : State) (w : WgId) (g : Workgroup) : Bool :=
  s.strands.all (fun p => decide (p.1.wg ≠ w) || p.2.exited) &&
  (s.core w.core).mqueue.all (fun e => e.wg ≠ w) && s.copies.all (fun c => c.wg ≠ w) && s.prefetches.all (fun p => p.task ≠ g.task) &&
  s.fabric.xfers.all (fun x => x.task ≠ g.task || x.stopped) && s.ueGets.all (fun u => u.task ≠ g.task) &&
  (s.core w.core).mend.all (fun e => e.strand.wg ≠ w) && s.accs.all (fun a => a.strand.wg ≠ w || a.over)

/-- A debug stop is pending on a workgroup (R301, R392). -/
def State.stopDue (s : State) (g : Workgroup) : Bool :=
  (g.stopAfter || ((s.nodes.find g.node).map Node.stopSet).getD false) && decide (g.hold ≠ .continued)

/-- The per-strand figure of a measured workgroup (R322). -/
def Workgroup.figure (g : Workgroup) : Option Nat :=
  if !g.measuring then none
  else some (if g.maxActive = 0 then 0 else (256 * g.lines.length + 4096 * g.maxActive - 1) / (4096 * g.maxActive))

/-- The retirement of a measured workgroup: the node learns LPER from the sixteenth (R322). -/
def State.learnLease (s : State) (node : Nat) (figure : Option Nat) : State :=
  match figure with
  | none => s
  | some fig =>
    { s with nodes := s.nodes.adjust node (fun n =>
        let best := max n.bestMeas fig
        { n with measDone := n.measDone + 1, bestMeas := best, learned := if n.measDone + 1 = 16 then some best else n.learned }) }

/-- Set a member's scoreboard bit, with every release that it triggers (R315, R316). -/
def State.setBit (s : State) (grid : Option (Nat × Nat)) : State :=
  match grid with
  | none => s
  | some (id, l) =>
    match s.grids.find id with
    | none => s
    | some g =>
      let g := { g with retired := g.retired ++ [l] }
      let c := coordOf g.order g.dims l
      let succ := g.deps.filterMap (fun v =>
        let q (i : Nat) : Int := ((axis c i : Nat) : Int) + axis v i
        if (upto 3).all (fun i => decide (0 ≤ q i) && decide (q i < ((axis g.dims i : Nat) : Int))) then
          some (linOf g.order g.dims ((q 0).toNat, (q 1).toNat, (q 2).toNat)) else none)
      let new := succ.foldl (fun a x => if g.free x && !g.admitted.contains x && !g.released.contains x && !a.contains x then a ++ [x] else a) []
      { s with grids := s.grids.put id { g with released := if g.cancelled then [] else g.released ++ new } }

/-- A workgroup's resources are freed (R28, R55, R58, R282). -/
def State.freeAll (s : State) (w : WgId) (g : Workgroup) : State := (((s.discardQueues g).dropReceiver (some w) g).freeWg w).activate w.core

/-- RETIRE (R316): the phase release, the scoreboard bit, and the resources in turn; a workgroup with unretired children keeps its
retirement record (R28). -/
def execRetire (wg : WgId) (s : State) : Out :=
  .next (match s.wgs.find wg with
    | none => s
    | some g =>
      if !s.quiet wg g || s.stopDue g then s
      else if g.children = 0 then
        (((((s.phaseRelease wg.core).learnLease g.node g.figure).setBit g.grid).freeAll wg g).wgEnded g.grid g.parent)
      else
        let s := s.freeAll wg g
        { s with retRecs := s.retRecs ++ [RetRec.mk g.task wg g.ctx g.node g.grid g.children g.childGrids g.parent false g.figure] })

/-- Retirement records whose last child has retired (R28, R325): the retirement takes place. -/
def State.finishRecs (s : State) : State :=
  (s.retRecs.filter (fun r => r.children = 0)).foldl (fun s r =>
    let s := { s with retRecs := s.retRecs.filter (fun x => x.task ≠ r.task) }
    let s := if r.dead then s else ((s.phaseRelease r.wg.core).learnLease r.node r.figure).setBit r.grid
    s.wgEnded r.grid r.parent) s

/-! ### Debug stops (R392) -/

/-- DEBUG_STOP_HALT (R392): a task halts before its retirement, or a workgroup is held at admission; a STOPPED event is written. A held
workgroup's identity has no core yet: its CORE field is written as zero (log 35). -/
def execDebugStopHalt (at_ : HaltAt) (s : State) : Out :=
  .next (match at_ with
    | .afterTask w =>
      (match s.wgs.find w with
       | some g => if s.stopDue g && g.hold = .free && s.quiet w g then
           (s.updWg w (fun g => { g with hold := .halted })).logDbg (.stopped g.task) else s
       | none => s)
    | .beforeTask id =>
      (match s.launched.find id with
       | some l =>
         (match s.nodes.find l.node with
          | some n => if n.stopSet && l.hold = .free then
              ({ s with launched := s.launched.put id { l with hold := .halted } }).logDbg (.stopped (taskId n.ctx l.seq 0 l.node)) else s
          | none => s)
       | none => s)
    | .beforeGrid id =>
      (match s.grids.find id with
       | some g =>
         (match s.nodes.find g.node, g.head with
          | some n, some l => if n.stopSet && g.hold = .free then
              ({ s with grids := s.grids.put id { g with hold := .halted } }).logDbg (.stopped (taskId n.ctx ((g.first + l) % 2 ^ 32) 0 g.node)) else s
          | _, _ => s)
       | none => s))

end Sys2Proof.Machine
end

