-- ==== Sys2Proof/Machine/Directory.lean ====
section
/-!
DEFINITION. Machine/Directory.lean: the switch-held directory of COHF lines (R360 to R364): what this device holds and asks for, and the
entries of the spines with what they send.
-/
namespace Sys2Proof.Machine
open Sys2Proof

/-! ### Lines that this device holds (R361) -/

/-- Apply a function to this device's request for a line. -/
def Fabric.updWant (f : Fabric) (line : Nat) (g : DirWant → DirWant) : Fabric :=
  { f with wants := f.wants.map (fun k => if k.line = line then g k else k) }

/-- This device's request for a line is over. -/
def Fabric.endWant (f : Fabric) (line : Nat) : Fabric :=
  { f with wants := f.wants.filter (fun x => x.line ≠ line), sent := f.sent.filter (fun x => x.use_ ≠ .dir line) }

/-- The bytes of a line as this device holds it: the memory of a line of its own. -/
def State.lineBytes (s : State) (line : Nat) : List Byte :=
  if (lineHome line).1 = s.fabric.device then s.physBytes (lineHome line).2 256 else s.fabric.data.bytes (256 * line) 256

/-- Take a line's bytes: in memory for a line of this device, else beside L2. -/
def State.setLine (s : State) (line : Nat) (bs : List Byte) : State :=
  let (home, pa) := lineHome line
  if home = s.fabric.device then s.setPhysBytes pa (bs.take 256)
  else State.l2Fill { s with fabric := { s.fabric with data := s.fabric.data.setBytes (256 * line) (bs.take 256) } } (some home) (pa / 256) 0xF

/-- Hold a line no longer: it leaves L2, where it is another device's, and every core's L1. -/
def State.dropLine (s : State) (line : Nat) : State :=
  let (home, pa) := lineHome line
  let own := decide (home = s.fabric.device)
  let key := if own then pa / 256 else remLine home pa
  { s with
    fabric := { s.fabric with lines := s.fabric.lines.erase line, data := s.fabric.data.keep (fun a => a / 256 ≠ line) }
    l2 := s.l2.filter (fun k => own || !(k.dev = some home && k.line = pa / 256))
    cores := s.cores.map (fun c => (c.1, { c.2 with l1 := c.2.l1.filter (fun k => k.1 ≠ key) })) }

/-- An owner's state: M, O or E. -/
def Moesi.owns : Moesi → Bool
  | .m => true | .o => true | .e => true | _ => false

/-- A line of this device may have been written since its home had it. -/
def Fabric.written (f : Fabric) (line : Nat) : Bool :=
  match f.lines.find line with | some .m => true | some .o => true | _ => false

/-- Give up a line (R361, R363): the bytes of one that this device owns go to the home, where it is another. -/
def State.giveUp (s : State) (line : Nat) : State :=
  let (home, pa) := lineHome line
  let owns := match s.fabric.lines.find line with | some st => Moesi.owns st | none => false
  let s :=
    if owns && decide (home ≠ s.fabric.device) then
      s.sendPacket (s.fabric.packet .write home (s.lineTag line) (dirPlane line) (BitVec.ofNat 64 pa) 256 (s.lineBytes line)) (.back line)
    else s
  s.dropLine line

/-- A request whose data and acknowledgements have all arrived (R361): the device holds the line, M for a GETM, E or S for a GETS, and its DONE
goes to the spine. -/
def State.settleWant (s : State) (line : Nat) : State :=
  match s.fabric.wants.find? (fun k => k.line = line) with
  | none => s
  | some k =>
    if k.data && decide (k.acks = some k.got) then
      let st : Moesi := match k.req with | .getm => .m | _ => if k.alone then .e else .s
      let f := s.fabric.endWant line
      State.cohAnswer { s with fabric := { f with lines := f.lines.put line st } } .ack (lineHome line).1 line (.done k.kept) []
    else s

/-- The data of a line arrive for this device's request. -/
def State.lineArrives (s : State) (line : Nat) (kept : Bool) (bs : List Byte) : State :=
  if s.fabric.wants.any (fun k => k.line = line && k.req ≠ .putm) then
    let s := s.setLine line bs
    State.settleWant { s with fabric := s.fabric.updWant line (fun k => { k with data := true, kept := kept }) } line
  else s

/-- An acknowledgement of an invalidation arrives. -/
def State.ackArrives (s : State) (line : Nat) : State :=
  State.settleWant { s with fabric := s.fabric.updWant line (fun k => { k with got := k.got + 1 }) } line

/-- Supply a line to a requester (R361): the copy stays supplied until the directory confirms. -/
def State.supply (s : State) (line : Nat) (req : DirReq) (requester : Nat) : State :=
  let kept := decide (req = .gets) && s.fabric.written line
  if requester = s.fabric.device then s.lineArrives line kept (s.lineBytes line)
  else
    let t := s.cohAnswer .response requester line (.data kept) (s.lineBytes line)
    { t with fabric := { t.fabric with supplied := t.fabric.supplied.filter (fun k => k.1 ≠ line) ++ [(line, req, requester)] } }

/-- The directory confirms (R361): the supplied copy takes the state of Table 20.2. -/
def State.confirm (s : State) (line : Nat) : State :=
  match s.fabric.supplied.find? (fun k => k.1 = line) with
  | none => s
  | some (_, req, _) =>
    let s := { s with fabric := { s.fabric with supplied := s.fabric.supplied.filter (fun k => k.1 ≠ line) } }
    match req, s.fabric.lines.find line with
    | .gets, some .e => { s with fabric := { s.fabric with lines := s.fabric.lines.put line .s } }
    | .gets, some .m => { s with fabric := { s.fabric with lines := s.fabric.lines.put line .o } }
    | .gets, _ => s
    | _, _ => s.dropLine line

/-- A line of another device leaves L2: this device drops one that it shares and asks to put back one that it owns (R361). -/
def State.l2Give (s : State) (k : L2Line) : State :=
  let line := remKey (k.dev.getD 0) (256 * k.line) / 256
  match s.fabric.lines.find line with
  | some .s => s.dropLine line
  | some _ => if s.fabric.wants.any (fun w => w.line = line) then s else s.askSpine line .putm
  | none => s.dropLine line

/-- A line of another device leaves L2 with its written bytes discarded (R374): its ownership is put back without them. -/
def State.l2Discard (s : State) (k : L2Line) : State :=
  let line := remKey (k.dev.getD 0) (256 * k.line) / 256
  match s.fabric.lines.find line with
  | some st => if Moesi.owns st then (s.dropLine line).askSpine line .putm else s.dropLine line
  | none => s.dropLine line

/-- Lines that their home slices have given up leave L2, written back (R114, R378); one of another device that this device owns stays, in
its new home slice, until that device has it. -/
def State.l2Rehome (s : State) : State :=
  let out (k : L2Line) : Bool := k.slice ≠ s.homeOf k.line
  let t := { s with l2 := (s.l2.filter (fun k => !(out k && k.dev.isNone))).map (fun k => { k with slice := s.homeOf k.line }) }
  (s.l2.filter (fun k => out k && k.dev.isSome)).foldl State.l2Give t

/-- Lines of other devices for which L2 has no room leave. -/
def State.l2Trim (s : State) : State :=
  let crowd (k : L2Line) : Bool := 8192 < (s.l2.filter (fun x => x.slice = k.slice)).length
  if s.l2.length ≤ 8192 then s
  else
    match s.l2.find? (fun k => k.dev.isSome && crowd k) with
    | none => s
    | some k => s.l2Give k

/-! ### Entries (R361 to R363) -/

/-- The entry of a line that no device holds. -/
def DirLine.none_ (line : Nat) : DirLine :=
  { line := line, owner := none, sharers := [], busy := none, queue := [], blocked := false, fwd := none, invs := [], acks := 0, evict := [] }

/-- A line's entry. -/
def Fabric.dirLine (f : Fabric) (line : Nat) : DirLine := (f.dir.find? (fun d => d.line = line)).getD (DirLine.none_ line)

/-- Replace a line's entry; one that holds nothing is free. -/
def Fabric.putDir (f : Fabric) (d : DirLine) : Fabric :=
  { f with dir := f.dir.filter (fun e => e.line ≠ d.line) ++ (if d = DirLine.none_ d.line then [] else [d]) }

/-- The devices that hold a line, its owner first. -/
def DirLine.holders (d : DirLine) : List Nat := (d.owner.map Prod.fst).toList ++ d.sharers.filter (fun x => d.owner.map Prod.fst ≠ some x)

/-- A request receives a NACK (R362). -/
def State.nack (s : State) (line dev : Nat) : State :=
  if dev = s.fabric.device then
    let f := s.fabric.updWant line (fun k => { k with nackAt := some s.clock })
    { s with fabric := { f with sent := f.sent.filter (fun k => k.use_ ≠ .dir line) } }
  else s.fromSpine .nak dev line .nack

/-- The holders of an entry that is to be freed give their copies up (R363): this device at once, and the others on an INV. What it writes
back to another device is awaited. -/
def State.recall (s : State) (line : Nat) : State :=
  (s.fabric.dirLine line).evict.foldl (fun s dev =>
    if dev = s.fabric.device then
      let s := s.giveUp line
      if s.fabric.sent.any (fun k => k.use_ = .back line) then s
      else
        let d := s.fabric.dirLine line
        { s with fabric := s.fabric.putDir { d with evict := d.evict.filter (fun x => x ≠ dev) } }
    else if (s.fabric.dirLine line).busy = some (.putm, dev) then s
    else s.fromSpine .dirfwd dev line (.inv none)) s

/-- An entry whose holders have all given up is freed (R363); so ends a PUTM (R361). -/
def State.freeDir (s : State) (line : Nat) : State :=
  let d := s.fabric.dirLine line
  if !d.evict.isEmpty then s
  else
    let f := if d.busy = some (.putm, s.fabric.device) then s.fabric.endWant line else s.fabric
    { s with fabric := f.putDir { d with owner := none, sharers := [], busy := none, fwd := none, invs := [], acks := 0 } }

/-- Begin to free an entry. -/
def State.evictDir (s : State) (d : DirLine) : State :=
  State.freeDir (State.recall { s with fabric := s.fabric.putDir { d with evict := d.holders } } d.line) d.line

/-- The spine of an entry, with its plane. -/
def Fabric.spineOf (f : Fabric) (line : Nat) : Nat × Nat := (dirPlane line, f.dirSpine line)

/-- A spine has room for a line's entry. -/
def Fabric.hasRoom (f : Fabric) (line : Nat) : Bool :=
  f.dir.any (fun d => d.line = line) || decide ((f.dir.filter (fun d => f.spineOf d.line = f.spineOf line)).length < Config.directoryEntries)

/-- A full spine evicts an entry that no request is using (R363): here the oldest. -/
def State.dirRoom (s : State) (line : Nat) : State :=
  if s.fabric.hasRoom line then s
  else
    match s.fabric.dir.find? (fun d => s.fabric.spineOf d.line = s.fabric.spineOf line && d.busy.isNone && !d.blocked && d.queue.isEmpty && d.evict.isEmpty) with
    | none => s
    | some d => s.evictDir d

/-- Begin a request (Table 20.2): a forward to the owner or the home, an INV to every other sharer, and the response. A PUTM of the owner clears
the entry once its data are at the home; one of another device does nothing. -/
def State.beginDir (s : State) (d : DirLine) (req : DirReq) (dev : Nat) : State :=
  match req with
  | .putm =>
    if d.owner.map Prod.fst = some dev then
      State.freeDir (State.recall { s with fabric := s.fabric.putDir { d with busy := some (.putm, dev), evict := d.holders } } d.line) d.line
    else
      let f := s.fabric.putDir d
      { s with fabric := if dev = f.device then f.endWant d.line else f }
  | r =>
    let dest := (d.owner.map Prod.fst).getD (lineHome d.line).1
    let invs := if r = .getm then d.sharers.filter (fun x => x ≠ dev) else []
    let away (x : Nat) : Bool := x ≠ s.fabric.device
    let alone := d.owner.isNone && d.sharers.isEmpty
    let s := { s with fabric := s.fabric.putDir { d with busy := some (r, dev), fwd := some dest, invs := invs, acks := invs.length } }
    let s := if away dest then s.fromSpine .dirfwd dest d.line (.fwd r dev) else s
    let s := (invs.filter away).foldl (fun s x => s.fromSpine .dirfwd x d.line (.inv (some dev))) s
    if away dev then s.fromSpine .dirresp dev d.line (.resp invs.length alone) else s

/-- The waiting requests of a line begin, each when the one before it is over (R362). -/
def State.nextDir (s : State) (line : Nat) : Nat → State
  | 0 => s
  | n + 1 =>
    let d := s.fabric.dirLine line
    match d.queue with
    | [] => s
    | (r, dev) :: q =>
      if d.busy.isSome || d.blocked || !d.evict.isEmpty then s else State.nextDir (s.beginDir { d with queue := q } r dev) line n

/-- A request reaches its spine (R362 to R364): it begins, waits behind at most seven others, or receives a NACK. The first that waits for a
census has it sent. -/
def State.dirRequest (s : State) (line : Nat) (req : DirReq) (dev : Nat) : State :=
  let s := s.dirRoom line
  let d := s.fabric.dirLine line
  if !s.fabric.hasRoom line || (d.busy.isNone && !d.evict.isEmpty) then s.nack line dev
  else if d.blocked || d.busy.isSome then
    if d.queue.length < 8 then
      let s := { s with fabric := s.fabric.putDir { d with queue := d.queue ++ [(req, dev)] } }
      if d.blocked && d.queue.isEmpty then
        (s.fabric.peers.filter (fun x => x ≠ s.fabric.device)).foldl (fun s x => s.fromSpine .census x line .census) s
      else s
    else s.nack line dev
  else s.beginDir d req dev

/-- A device's write-back or acknowledgement for an entry that is being freed has arrived. -/
def State.evicted (s : State) (line dev : Nat) : State :=
  let d := s.fabric.dirLine line
  if d.evict.contains dev then
    State.nextDir (State.freeDir { s with fabric := s.fabric.putDir { d with evict := d.evict.filter (fun x => x ≠ dev) } } line) line 8
  else s

/-- The entry once a request is done (Table 20.2); `kept` says that the owner keeps a written copy. -/
def DirLine.done (d : DirLine) (req : DirReq) (dev : Nat) (kept : Bool) : DirLine :=
  let d := { d with busy := none, fwd := none, invs := [], acks := 0 }
  let more (l : List Nat) : List Nat := if l.contains dev then l else l ++ [dev]
  match req with
  | .getm => { d with owner := some (dev, .m), sharers := [] }
  | .putm => d
  | .gets =>
    match d.owner with
    | some (o, _) =>
      if kept then { d with owner := some (o, .o), sharers := if dev = o then d.sharers else more d.sharers }
      else { d with owner := none, sharers := more (if d.sharers.contains o then d.sharers else d.sharers ++ [o]) }
    | none => if d.sharers.isEmpty then { d with owner := some (dev, .e) } else { d with sharers := more d.sharers }

/-- A requester's DONE reaches the directory, which confirms to the supplier and frees the entry for the next request (R361, R362). -/
def State.dirDone (s : State) (line dev : Nat) (kept : Bool) : State :=
  let d := s.fabric.dirLine line
  match d.busy with
  | some (r, k) =>
    if k ≠ dev || r = .putm then s
    else
      let by_ := (d.owner.map Prod.fst).getD (lineHome line).1
      let kept := if by_ = s.fabric.device then s.fabric.written line else kept
      let s := if by_ = s.fabric.device || by_ = dev then s else s.fromSpine .dirresp by_ line .confirm
      let s := if dev = s.fabric.device then s else s.confirm line
      State.nextDir { s with fabric := s.fabric.putDir (d.done r dev kept) } line 8
  | none => s

/-! ### The events of a line (R361 to R364) -/

/-- DIRFWD (R361): this device, as the owner or the home, supplies the line that the directory forwards to it. A home never supplies a line
that an owner holds. -/
def execDirfwd (line : Nat) (req : DirReq) (requester : Nat) (s : State) : Out :=
  let d := s.fabric.dirLine line
  .next (if d.busy = some (req, requester) && d.fwd = some s.fabric.device && !d.blocked then
      State.supply { s with fabric := s.fabric.putDir { d with fwd := none } } line req requester
    else s)

/-- DIRRESP (R361): the directory tells this device how many acknowledgements to await, and for a GETS whether it is alone. -/
def execDirresp (line acks : Nat) (s : State) : Out :=
  let d := s.fabric.dirLine line
  let mine := match d.busy with | some (_, dev) => decide (dev = s.fabric.device) | none => false
  .next (if mine && d.acks = acks && !d.blocked then
      State.settleWant { s with fabric := s.fabric.updWant line (fun k => { k with acks := some acks, alone := d.owner.isNone && d.sharers.isEmpty }) } line
    else s)

/-- DIRECTORY_INV (R361): this sharer invalidates its copy and acknowledges to the requester. -/
def execDirectoryInv (line requester : Nat) (s : State) : Out :=
  let d := s.fabric.dirLine line
  .next (if d.busy = some (.getm, requester) && d.invs.contains s.fabric.device && !d.blocked then
      let s := { s with fabric := s.fabric.putDir { d with invs := d.invs.filter (fun x => x ≠ s.fabric.device) } }
      (s.dropLine line).cohAnswer .ack requester line .ack []
    else s)

/-- Send this device's request for a line again; one that may not be sent yet is retried later (R351, R362). -/
def State.resendDir (s : State) (line : Nat) (w : DirWant) : State :=
  let p := s.dirPacket line w.req
  if s.fabric.crowded p then { s with fabric := s.fabric.updWant line (fun k => { k with nackAt := some (w.nackAt.getD s.clock) }) }
  else State.sendPacket { s with fabric := s.fabric.updWant line (fun k => { k with nackAt := none }) } p (.dir line)

/-- DIRECTORY_RETRY (R362): 256 clocks after a NACK. -/
def execDirectoryRetry (line : Nat) (s : State) : Out :=
  .next (match s.fabric.wants.find? (fun k => k.line = line) with
    | some w =>
      (match w.nackAt with
       | some t => if t + 256 ≤ s.clock then s.resendDir line w else s
       | none => s)
    | none => s)

/-- A spine fails (R364): its entries are lost, and each of its lines waits for a census at its secondary. -/
def Fabric.failSpine (f : Fabric) (plane spine : Nat) : Fabric :=
  if f.failedSpines.contains (plane, spine) then f
  else
    { f with
      dir := f.dir.map (fun d => if f.spineOf d.line = (plane, spine) then { d with busy := none, blocked := true, queue := [], fwd := none, invs := [], acks := 0, evict := [] } else d)
      failedSpines := f.failedSpines ++ [(plane, spine)] }

/-- DIRECTORY_FAILOVER (R364): a request that its primary spine has not answered in time goes to the secondary, which blocks the line for a
census; the primary is marked failed. -/
def execDirectoryFailover (line : Nat) (s : State) : Out :=
  let sp := fabSpine (line % 2 ^ 43) (line / 2 ^ 43)
  .next (match s.fabric.wants.find? (fun k => k.line = line),
      s.fabric.sent.find? (fun k => decide (k.use_ = .dir line) && decide (k.at_ + 2 ^ 18 ≤ s.clock) && decide (k.pkt.coh.map Coh.spine = some sp)) with
    | some w, some k =>
      let f := { s.fabric with sent := s.fabric.sent.filter (fun x => x ≠ k) }
      let f := f.failSpine (dirPlane line) sp
      State.resendDir { s with fabric := f.putDir { f.dirLine line with blocked := true } } line w
    | _, _ => s)

/-! ### The census (R364, Table 20.3) -/

/-- The code of a MOESI state in a census answer (the layout is the model's, log 26). -/
def Moesi.code : Moesi → Byte
  | .m => 0 | .o => 1 | .e => 2 | .s => 3 | .i => 4

/-- What this device answers to a census: its state, whether it is a supplier, and its pending request with whether the data have
arrived. -/
def Fabric.census (f : Fabric) (line : Nat) : CensusAns :=
  { dev := f.device, st := (f.lines.find line).getD .i, supplied := f.supplied.any (fun k => k.1 = line)
    pending := (f.wants.find? (fun k => k.line = line)).map (fun w => (w.req, w.data)) }

/-- The bytes of an answer: the state, whether supplied, the pending request and whether its data have arrived. -/
def CensusAns.bytes (a : CensusAns) : List Byte :=
  let flag (b : Bool) : Byte := if b then 1 else 0
  [Moesi.code a.st, flag a.supplied] ++ (match a.pending with
    | some (r, data) => [match r with | .gets => 1 | .getm => 2 | .putm => 3, flag data]
    | none => [0, 0])

/-- CENSUS (R364): this device answers, to the secondary spine. -/
def execCensus (line : Nat) (s : State) : Out :=
  let a := s.fabric.census line
  .next (s.cohAnswer .response (lineHome line).1 line (.answer a) (CensusAns.bytes a))

/-- What a census finds: who owns the line, whose copy is supplied, who has data and whose copies are shared. -/
structure CensusFound where
  owner    : Option (Nat × Moesi)
  supplier : Option (Nat × Moesi)
  fed      : Option (DirReq × Nat)
  sharers  : List Nat

/-- The findings of some answers. -/
def censusFound (as : List CensusAns) : CensusFound :=
  { owner := (as.find? (fun a => Moesi.owns a.st && !a.supplied)).map (fun a => (a.dev, a.st))
    supplier := (as.find? (fun a => a.supplied)).map (fun a => (a.dev, a.st))
    fed := as.findSome? (fun a => match a.pending with
      | some (.putm, _) => none
      | some (r, true) => some (r, a.dev)
      | _ => none)
    sharers := (as.filter (fun a => a.st = .s)).map CensusAns.dev }

/-- The rebuilt entry (Table 20.3). A requester that has the data completes its request: sharers that are left have still to be invalidated
for a GETM. Without one the supplier stays the owner, the home as the data source, and beside sharers in the state of Table 20.2; one whose request
is complete already is no holder. -/
def CensusFound.entry (c : CensusFound) (line : Nat) (queue : List (DirReq × Nat)) : DirLine :=
  let base := { DirLine.none_ line with owner := c.owner, sharers := c.sharers, queue := queue }
  match c.supplier, c.fed with
  | some (q, st), some (r, dev) =>
    let invs := if r = .getm then c.sharers.filter (fun x => x ≠ dev) else []
    { base with owner := if st = .i then c.owner else some (q, st), sharers := c.sharers.filter (fun x => x ≠ q), busy := some (r, dev)
                queue := queue.filter (fun x => x.2 ≠ dev), invs := invs, acks := invs.length }
  | some (q, st), none =>
    let rest := c.sharers.filter (fun x => x ≠ q)
    if st = .i || c.owner.isSome then base
    else if rest.isEmpty then { base with owner := some (q, st), sharers := [] }
    else if st = .e then { base with sharers := rest ++ [q] }
    else { base with owner := some (q, .o), sharers := rest }
  | none, _ => base

/-- This device's supplied copy after a census: it stays supplied while its requester completes, and is held again, or given up to an owner. -/
def State.afterCensus (s : State) (d : DirLine) : State :=
  let me := s.fabric.device
  if d.busy.isSome || !s.fabric.supplied.any (fun k => k.1 = d.line) then s
  else
    let f := { s.fabric with supplied := s.fabric.supplied.filter (fun k => k.1 ≠ d.line) }
    match d.owner with
    | some (o, st) => if o = me then { s with fabric := { f with lines := f.lines.put d.line st } } else State.dropLine { s with fabric := f } d.line
    | none => { s with fabric := if d.sharers.contains me then { f with lines := f.lines.put d.line .s } else f }

/-- CENSUS_REBUILD (R364): with the answer of every device of the partition, this one's as it is, the secondary spine rebuilds the entry and
unblocks the line. -/
def execCensusRebuild (line : Nat) (answers : List CensusAns) (s : State) : Out :=
  let me := s.fabric.device
  let old := s.fabric.dirLine line
  let as := answers.filter (fun a => a.dev ≠ me) ++ [s.fabric.census line]
  .next (if !old.blocked || !s.fabric.peers.all (fun x => x = me || as.any (fun a => a.dev = x)) then s
    else
      let d := (censusFound as).entry line old.queue
      let s := { s with fabric := (s.fabric.putDir d).updWant line (fun k => { k with acks := none, got := 0, data := k.data && d.busy.isSome }) }
      let s := s.afterCensus d
      let s := (d.invs.filter (fun x => x ≠ me)).foldl (fun s x => s.fromSpine .dirfwd x line (.inv (d.busy.map Prod.snd))) s
      let s := match d.busy with
        | some (_, dev) => if dev = me then s else s.fromSpine .dirresp dev line (.resp d.acks false)
        | none => s
      s.nextDir line 8)

end Sys2Proof.Machine
end

