-- ==== Sys2Proof/Machine/MemEvents.lean ====
section
/-!
DEFINITION. Machine/MemEvents.lean: events of the memory system: read groups of the channel schedulers (R117), the tier cache (R98),
prefetched pages (R99), and the host's INV and SYNC (R342, R343).
-/
namespace Sys2Proof.Machine
open Sys2Proof

/-! ### Channel schedulers (R117, R380) -/

/-- CHANNEL_GROUP_SELECT: among the channel's 256 oldest requests those of the oldest one's group (core and slot) are served, which fills
their sectors at L2 (R112, R117). A quiesced channel serves none (R378). -/
def execChannelGroupSelect (ch : Nat) (s : State) : Out :=
  let window := (s.reads.filter (fun r => decide (channelOf (256 * r.line) = ch))).take 256
  .next (match window.head? with
    | none => s
    | some o =>
      if s.domWaits (.channel ch) then s
      else
        let group := window.filter (fun r => r.core = o.core && r.slot = o.slot)
        let s := { s with reads := s.reads.filter (fun r => !group.contains r) }
        (group.foldl (fun s r => s.l2Fill none r.line r.sectors) s).updChannel ch (fun c => { c with group := some (o.core, o.slot) }))

/-! ### The tier cache (R98) -/

/-- TIER_FILL (R98): the accesses that wait for the block can then perform. -/
def execTierFill (port block : Nat) (s : State) : Out := .next (s.fillBlock port block)

/-! ### Prefetch (R99, R232) -/

/-- The pages of a prefetch. -/
def Prefetch.hasPage (f : Prefetch) (page : Nat) : Bool := decide (f.va / 4096 ≤ page) && decide (page * 4096 < f.va + f.len)

/-- The first address of a page that lies in the range, and the address after the last. -/
def Prefetch.span (f : Prefetch) (page : Nat) : Nat × Nat := (max (page * 4096) f.va, min (page * 4096 + 4096) (f.va + f.len))

/-- The bytes of a page within the range. -/
def Prefetch.bytesIn (f : Prefetch) (page : Nat) : Nat := (f.span page).2 - (f.span page).1

/-- The number of pages. -/
def Prefetch.pages (f : Prefetch) : Nat := (f.va + f.len + 4095) / 4096 - f.va / 4096

/-- The sectors of a page within the range, each by the place of its first byte. -/
def Prefetch.sectors (f : Prefetch) (page : Nat) (l : Leaf) : List Loc :=
  let lo := (f.span page).1 / 64
  (upto (((f.span page).2 + 63) / 64 - lo)).map (fun i =>
    let va := BitVec.ofNat 64 (64 * (lo + i))
    match l.dev with
    | some d => .remote l.attr d (l.pa va)
    | none => .phys l.attr (l.pa va))

/-- A page of a prefetch adds its bytes and is done (R99). -/
def State.pageFetched (s : State) (f : Prefetch) (page : Nat) : State :=
  let f' := { f with done := f.done ++ [page] }
  let s := { s with prefetches := s.prefetches.filterMap (fun (g : Prefetch) =>
    if g.id = f.id then (if f'.pages ≤ f'.done.length then none else some f') else some g) }
  s.slotAdd f.task f.ctr (BitVec.ofNat 64 (f.bytesIn page))

/-- Bring the lines of a page to L2, or with PFT only its second-tier blocks into the tier cache (R99): done, or what is asked for first.
What cannot be brought counts as done: a lost line, and a block for which the tier cache has no room. -/
def State.prefetchPage (s : State) (f : Prefetch) (page : Nat) (l : Leaf) : State :=
  let pl := f.sectors page l
  let s := s.fetchTiers pl
  let lines := (s.linesOf false [pl]).filter (fun k => !s.lost k)
  let waits (x : Loc) : Bool := match x with
    | .phys _ pa => (s.isTier pa && s.domWaits (.cxlPort (tierPort pa))) || (isHbm pa && s.domWaits (.channel (channelOf pa)))
    | _ => false
  if pl.any waits then s
  else if f.tier then s.pageFetched f page
  else if !s.linesReady lines then s.askLines f.ctx lines
  else if !pl.all (s.here f.core) then s.askBytes f.core f.slot pl
  else (pl.foldl (fun s x => match x with
    | .phys _ pa => if s.l2Has none pa then s else s.l2Fill none (pa / 256) (sectorBit pa)
    | _ => s) s).pageFetched f page

/-- PREFETCH_PAGE_DONE (R99): a page's lines reach L2, or its second-tier block the tier cache; a page that is beyond the address space, is
invalid, needs service, lacks R, is DEV or is another context's is skipped. Its bytes are added either way. -/
def execPrefetchPageDone (id page : Nat) (s : State) : Out :=
  .next (match s.prefetches.find? (fun f => f.id = id) with
    | none => s
    | some f =>
      if !f.hasPage page || f.done.contains page then s
      else if 2 ^ 52 ≤ page then s.pageFetched f page
      else
        let va := BitVec.ofNat 64 (page * 4096)
        match s.translate f.core f.ctx va with
        | (s, .busy) => s
        | (s, .ok l) =>
          if l.r && decide (l.attr ≠ .dev) && (l.dev.isSome || decide (s.own f.ctx (l.pa va) = .ok)) then s.prefetchPage f page l
          else s.pageFetched f page
        | (s, _) => s.pageFetched f page)

/-! ### INV and SYNC (R342, R343, Table 18.5) -/

/-- A TLB entry maps a page that an INV names. -/
def Tlb.covered (t : Tlb) (asid : Nat) (range : Option (Nat × Nat)) : Bool :=
  decide (t.asid = asid) && (match range with
    | none => true
    | some (vp, n) =>
      let lo := t.vpn * 2 ^ (t.size - 12) % 2 ^ 45
      decide (lo < vp + n) && decide (vp < lo + 2 ^ (t.size - 12)))

/-- Remove every cached translation that meets a test; a walk in progress caches nothing. -/
def State.dropTlb (s : State) (f : Tlb → Bool) : State :=
  { s with
    cores := s.cores.map (fun (c : Nat × Core) => (c.1, { c.2 with tlb := c.2.tlb.filter (fun t => !f t) }))
    sharedTlb := s.sharedTlb.map (fun u => (u.1, u.2.filter (fun t => !f t)))
    walkCache := s.walkCache.map (fun u => (u.1, u.2.filter (fun t => !f t)))
    walks := s.walks.map (fun (w : Walk) => if f w.entry then { w with cache := false } else w) }

/-- INV (R343): the matching TLB and walk-cache entries of an ASID are removed. -/
def execInv (asid : Nat) (range : Option (Nat × Nat)) (s : State) : Out := .next (s.dropTlb (fun t => t.covered asid range))

/-- SYNC (R342): its acknowledgement waits for the walks in progress and for every access that has translated: those in flight, and
queue entries with packets under way. -/
def execSync (tag : Nat) (s : State) : Out :=
  let accs := (s.accs.filter (fun a => !a.over)).map Acc.id
  let entries := s.wgs.flatMap (fun g => (g.2.entries.filter (fun e => match e.pend with | some p => !p.lines.isEmpty | none => false)).map QEntry.id)
  .next { s with syncs := s.syncs ++ [{ tag := tag, waits := accs ++ entries, walks := s.walks.map Walk.id }] }

/-- SYNC_ACK (R342): the oldest SYNC is acknowledged once all that it waits for is over. -/
def execSyncAck (s : State) : Out :=
  .next (match s.syncs with
    | [] => s
    | q :: qs =>
      if q.waits.all (fun id => s.accs.all (fun a => a.id ≠ id || a.over) && (s.pendEntry id).isNone) &&
          q.walks.all (fun id => s.walks.all (fun w => w.id ≠ id)) then
        State.send { s with syncs := qs } (.syncAck q.tag)
      else s)

end Sys2Proof.Machine
end

