-- ==== Sys2Proof/Machine/Trace.lean ====
section
/-!
DEFINITION. Machine/Trace.lean: the trace units and their registers (R389 to R391, Tables 23.4 and 23.5) and the Stitch samplers (R386,
R387).
-/
namespace Sys2Proof.Machine
open Sys2Proof

/-! ### Trace registers (R390) -/

/-- The unit is ARMED or CAPTURING. -/
def TraceUnit.live (u : TraceUnit) : Bool := match u.state with | .armed => true | .capturing => true | _ => false

/-- The first address of the TC's region (R96). -/
def tcBase : Nat := 2 ^ 39 - 2 ^ 30

/-- A range of HBM4E outside the TC's region whose granules no context owns (R390, R401). -/
def State.openRange (s : State) (pa len : Nat) : Bool :=
  decide (pa + len ≤ tcBase) && s.owners.all (fun g => !(decide (pa < (g.1 + 1) * 2 ^ 16) && decide (g.1 * 2 ^ 16 < pa + len)))

/-- A write of ARM (R389, R390): a unit with a usable buffer becomes ARMED with sequence number 0. -/
def State.armTrace (s : State) (core : Nat) : State :=
  let u := (s.core core).trace
  if u.len = 0 || !s.openRange u.base.toNat u.len.toNat then s
  else s.updCore core (fun c => { c with trace := { c.trace with state := .armed, count := 0, issued := [], traps := [], comps := 0 } })

/-- TRCCTL after a write: START, STOP and WRAP are written, OVF is cleared by a 1. -/
def ctlWrite (old new : W64) : W64 := (new &&& 0x1FC) ||| (old &&& ~~~new &&& 0x800)

/-- Write a trace register (Table 23.5). -/
def State.setTraceReg (s : State) (core off : Nat) (x : W64) : State :=
  let set (g : TraceUnit → TraceUnit) : State := s.updCore core (fun c => { c with trace := g c.trace })
  let held := (s.core core).trace.live
  if off = 0x00 then
    let s := set (fun u => { u with ctl := ctlWrite u.ctl x })
    if x.getLsbD 0 then s.armTrace core else s
  else if held then s
  else if off = 0x08 then set (fun u => { u with base := x &&& 0x0007FFFFFFFFFFE0 })
  else if off = 0x10 then set (fun u => { u with len := x &&& 0xFFFFFFE0 })
  else if off = 0x18 then set (fun u => { u with startv := x })
  else if off = 0x20 then set (fun u => { u with stopv := x })
  else s

/-- STATE's code (Table 23.4). -/
def TraceState.code : TraceState → Nat
  | .idle => 0 | .armed => 1 | .capturing => 2 | .done => 3

/-- A trace register as the open debug port reads it. -/
def TraceUnit.read (u : TraceUnit) (off : Nat) : W64 :=
  if off = 0x00 then u.ctl ||| BitVec.ofNat 64 (TraceState.code u.state * 2 ^ 9)
  else if off = 0x08 then u.base
  else if off = 0x10 then u.len
  else if off = 0x18 then u.startv
  else if off = 0x20 then u.stopv
  else if off = 0x28 then BitVec.ofNat 64 u.count
  else 0

/-! ### Triggers (R389, R391) -/

/-- A condition holds in the present clock. -/
def Core.condHolds (c : Core) (kind : Nat) (v : W64) : Bool :=
  let u := c.trace
  match kind with
  | 1 => true
  | 2 => u.issued.any (fun r => r.pc = v)
  | 3 => u.traps.contains (bits v 0 8)
  | 4 => u.comps.getLsbD (bits v 0 3)
  | 5 => decide (bits v 8 56 ≤ (c.counts.get (bits v 0 4)).toNat)
  | _ => false

/-- The START condition holds. -/
def Core.startHolds (c : Core) : Bool := c.condHolds (bits c.trace.ctl 3 3) c.trace.startv
/-- The STOP condition holds. -/
def Core.stopHolds (c : Core) : Bool := c.condHolds (bits c.trace.ctl 6 3) c.trace.stopv

/-- Write one trace record, unless the unit has become DONE; a full buffer without WRAP sets OVF (R391). -/
def State.writeTrace (s : State) (core : Nat) (r : TraceRec) : State :=
  let u := (s.core core).trace
  match u.state with
  | .capturing =>
    let s := s.setPhysBytes (u.base.toNat + 32 * u.count % u.len.toNat)
      ((w64Bytes r.task) ++ (w64Bytes r.pc) ++ (w64Bytes (BitVec.ofNat 64 u.count)) ++ (w64Bytes r.w3))
    let full := !u.ctl.getLsbD 2 && decide (u.len.toNat ≤ 32 * (u.count + 1))
    s.updCore core (fun c => { c with trace := { c.trace with
      count := u.count + 1
      ctl := if full then c.trace.ctl ||| 0x800 else c.trace.ctl
      state := if full then .done else .capturing } })
  | _ => s

/-- Change the state of a core's unit. -/
def State.setTraceState (s : State) (core : Nat) (x : TraceState) : State :=
  s.updCore core (fun c => { c with trace := { c.trace with state := x } })

/-- The records of a clock, by ascending scheduler number. -/
def TraceUnit.sorted (u : TraceUnit) : List TraceRec := (upto 5).flatMap (fun k => u.issued.filter (fun r => r.sched = k))

/-- Capture the present clock; the unit is DONE where STOP holds or the buffer filled, which writes a TRACE_END event (R391). -/
def State.captureClock (s : State) (core : Nat) (stop : Bool) : State :=
  let s := (s.core core).trace.sorted.foldl (fun s r => s.writeTrace core r) (s.setTraceState core .capturing)
  let s := if stop then s.setTraceState core .done else s
  let u := (s.core core).trace
  match u.state with
  | .done => s.logDbg (.traceEnd core u.count)
  | _ => s

/-- The evaluation of a core's clock (R391): what happened in it is forgotten afterwards. -/
def State.evalTrace (s : State) (core : Nat) : State :=
  let c := s.core core
  let s := match c.trace.state with
    | .armed => if c.startHolds then s.captureClock core c.stopHolds else s
    | .capturing => s.captureClock core c.stopHolds
    | _ => s
  if c.trace.live then s.updCore core (fun c => { c with trace := { c.trace with issued := [], traps := [], comps := 0 } }) else s

/-- TRACE_ARM: a write of ARM to a core's TRCCTL through the open debug port (R389, R390). -/
def execTraceArm (core : Nat) (s : State) : Out :=
  .next (if core < 224 && Trust.debugOpen s.trust then s.armTrace core else s)

/-- TRACE_TRIGGER: the evaluation of a core's clock in which a condition has come to hold (R391). -/
def execTraceTrigger (core : Nat) (s : State) : Out := .next (if core < 224 then s.evalTrace core else s)

/-! ### Stitch samples (R386, R387) -/

/-- A sampler as it stands after reset: the model's choice (log 28). -/
def Sampler.fresh : Sampler := { lfsr := 1, left := 65536, tagged := false, seq := 0, held := none }

/-- The sampler draws an interval of 1..65,536 instructions from its LFSR (R386). -/
def Sampler.draw (k : Sampler) : Sampler :=
  let x := Config.sampleLfsr k.lfsr
  { k with lfsr := x, left := x.toNat + 1, tagged := false, held := none }

/-- The sampler of a scheduler. -/
def Core.sampler (c : Core) (n : Nat) : Sampler := c.samplers.findD n Sampler.fresh

/-- Put a sampler. -/
def State.putSampler (s : State) (core n : Nat) (k : Sampler) : State := s.updCore core (fun c => { c with samplers := c.samplers.put n k })

/-- STITCH_SAMPLE_TAG: the sampler's interval ends and it tags the next instruction that its scheduler issues (R386). -/
def execStitchSampleTag (core sampler : Nat) (s : State) : Out :=
  let k := (s.core core).sampler sampler
  .next (if core < 224 && decide (sampler < 5) && decide (k.left = 1) && k.held.isNone && !k.tagged then s.putSampler core sampler { k with tagged := true }
    else s)

/-- The scheduler of a strand: the quarter of its execute lane, or 4 (R386). -/
def schedOf (sl : Slice) (lane : Nat) : Nat := match sl with | .access => 4 | .execute => lane / 256 % 4

/-- Words 1 and 3 of a trace record, and what they share with a sample: PC, EM, MAP and opcode. -/
structure IssueNote where
  sid   : StrandId
  ctx   : Nat
  sched : Nat
  task  : W64
  pc    : W64
  em    : TMask
  second : Bool
  opc   : Nat
  yld   : Bool

/-- Note an issued instruction for the trace unit (R389). -/
def State.noteTrace (s : State) (n : IssueNote) : State :=
  s.updCore n.sid.wg.core (fun c =>
    if c.trace.live then
      let w3 := BitVec.ofNat 64 (putField n.opc 24 8 + n.em.toNat * 2 ^ 8 + n.sched * 2 ^ 5 + (if n.second then 2 ^ 4 else 0))
      { c with trace := { c.trace with issued := c.trace.issued ++ [⟨n.sched, n.task, n.pc, w3⟩] } }
    else c)

/-- The sample of an instruction (Table 23.2): SEQ counts the sampler's samples; the latencies and LEVEL are free values (log 28). -/
def State.sampleOf (s : State) (n : IssueNote) (seq : W32) : State × Sample :=
  let (ws, s) := s.takeFrees 3
  let lat := (ws[0]?).getD 0
  let blk := (ws[1]?).getD 0
  let level := ((ws[2]?).getD 0).extractLsb' 0 3
  let w2 := BitVec.ofNat 64 (putField seq.toNat 32 32 + n.em.toNat * 2 ^ 24 + putField n.opc 16 8 + (if n.second then 2 ^ 15 else 0) +
    level.toNat * 2 ^ 12 + (if n.yld then 2 ^ 11 else 0) + (if n.sid.slice = .execute then 2 ^ 10 else 0) + putField n.sid.idx 0 10)
  (s, { ctx := n.ctx, words := [n.task, n.pc, w2, lat, blk &&& 0xFFFFFFFF, 0, 0, 0] })

/-- A sample completes: it replaces the previous one, and the sampler draws again. -/
def State.completeSample (s : State) (core n : Nat) (x : Sample) : State :=
  let k := (s.core core).sampler n
  s.updCore core (fun c => { c with samples := c.samples.put n x, samplers := c.samplers.put n { k.draw with seq := k.seq + 1 } })

/-- The load that an instruction has issued and that has still to write back: the strand's last register load numbered `since` or above. -/
def State.loadSince (s : State) (sid : StrandId) (since : Nat) : Option Nat :=
  (s.accs.filter (fun a => decide (a.strand = sid) && decide (since ≤ a.id) && a.kind.isLoad && !a.over)).getLast?.map Acc.id

/-- An issued instruction counts in the interval of its scheduler's sampler. The one that ends it is sampled once it has written back, or gives
no sample because it trapped or ended its workgroup (R386). Accesses numbered `since` or above are its own. -/
def State.noteSample (s : State) (n : IssueNote) (since : Nat) (dropped : Bool) : State :=
  let core := n.sid.wg.core
  let k := (s.core core).sampler n.sched
  if k.held.isSome then s
  else if decide (1 < k.left) && !k.tagged then s.putSampler core n.sched { k with left := k.left - 1 }
  else if dropped then s.putSampler core n.sched k.draw
  else
    let (s, x) := s.sampleOf n (k.seq + 1)
    match s.loadSince n.sid since with
    | some a => s.putSampler core n.sched { k with held := some (a, x) }
    | none => s.completeSample core n.sched x

/-- Samples of loads that have written back complete; one whose workgroup is no longer on the core is dropped (R386). -/
def State.closeSamples (s : State) (core : Nat) : State :=
  (s.core core).samplers.foldl (fun s p => match p.2.held with
    | none => s
    | some (a, x) =>
      if !s.wgs.any (fun g => g.1.core = core && x.words.head? = some g.2.task) then s.putSampler core p.1 p.2.draw
      else if s.accs.any (fun b => b.id = a && !b.over) then s
      else s.completeSample core p.1 x) s

end Sys2Proof.Machine
end

