-- ==== Sys2Proof/Machine/Host.lean ====
section
/-!
DEFINITION. Machine/Host.lean: what the host and Ultra Ethernet peers do to memory and registers: MEM accesses (R395, R396), record pushes
(R397), register writes (R399, R390) and peer accesses (R365).
-/
namespace Sys2Proof.Machine
open Sys2Proof

/-- An arriving record, command or MEM access returns the device from IDLE to ACTIVE (R402). -/
def State.wake (s : State) : State :=
  match s.plat.pstate with
  | .idle => { s with plat := { s.plat with pstate := .active } }
  | _ => s

/-! ### Push windows (R397) -/

/-- A host write of a record at an offset of a push window (R397): accepted, rejected with NODE_INVALID, or refused as BUSY. -/
def State.hostPush (s : State) (node off : Nat) (bs : List Byte) : State :=
  let setBusy (s : State) (b : Bool) : State := { s with wins := s.wins.put node { (s.wins.findD node ⟨0, false⟩) with busy := b } }
  if 4096 ≤ node then s
  else if off ≠ 0 then (setBusy (s.launchError .nodeInvalid (recHeader bs) (.host node)) false).send (.pushDone node true)
  else
    match s.pushRecord (.host node) bs none with
    | some s => (setBusy s false).send (.pushDone node true)
    | none => (setBusy s true).send (.pushDone node false)

/-- HOST_RECORD_PUSH (R397). -/
def execHostRecordPush (node : Nat) (off : Nat) (bs : List Byte) (s : State) : Out := .next (s.wake.hostPush node off bs)

/-! ### Registers (R395, R399, R390) -/

/-- The bytes of the register space that trace registers take at the debug port (R390). -/
def isTraceReg (addr : Nat) : Bool := decide (0x100000 ≤ addr) && decide (addr < 0x100000 + 0x40 * 224)

/-- REGISTER_WRITE: a 64-bit write of a platform register (Table 25.4), or of a trace register through the open debug port (R390). -/
def execRegisterWrite (addr : Nat) (val : W64) (s : State) : Out :=
  .next (if isReg addr then
      let s := s.wake
      ((upto 8).zip (w64Bytes val)).foldl (fun s p => s.setRegByte (addr / 8 * 8 + p.1 - regBase) p.2) s
    else if isTraceReg addr && Trust.debugOpen s.trust then
      s.setTraceReg ((addr - 0x100000) / 0x40) ((addr - 0x100000) % 0x40 / 8 * 8) val
    else s)

/-! ### MEM accesses (R395, R396) -/

/-- What a host access may touch (R396): bytes of the named context, or of none; a read may meet a MAC failure. -/
inductive HostOwn where
  | ok | denied | mac
deriving DecidableEq, Repr

/-- The check of R396 for one byte. -/
def State.hostOwn (s : State) (ctx pa : Nat) : HostOwn :=
  let o := s.owners.get (pa / 2 ^ 16)
  let owned : Bool :=
    if ctx = noCtx then decide (o = 0)
    else match s.ctxs.find ctx with
      | some c => decide (c.state ≠ .releasing) && decide (o = ownerMark ctx c.key)
      | none => false
  if !(isHbm pa || s.isTier pa) || (s.isTier pa && s.portDead (tierPort pa)) || !owned then .denied
  else if s.badLines.get (pa / 256) ≠ 0 || s.channelDead pa then .mac
  else .ok

/-- The bytes of an access. -/
def MemOp.size : MemOp → Nat
  | .read n => n
  | .write bs => bs.length
  | .atomicAdd _ => 8

/-- Perform an access at the L2 home slices (R394); a read gives its bytes. -/
def State.memOp (s : State) (ctx pa : Nat) (op : MemOp) : State × List Byte :=
  let owned (s : State) : State := (upto (MemOp.size op)).foldl (fun s i => (s.ownLine (.phys .cohf (pa + i))).l1Own noCore ((pa + i) / 256)) s
  match op with
  | .read n => (s, s.physBytes pa n)
  | .write bs => ((owned s).setPhysBytes pa bs, [])
  | .atomicAdd x => ((owned s).globalAdd ctx pa none x, [])

/-- The lines of an access that another device holds, or is to get, so that this device must have them first (R127, R146). -/
def State.hostLines (s : State) (pa : Nat) (op : MemOp) : List FabLine :=
  let own : Bool := match op with | .read _ => false | _ => true
  let me := s.fabric.device
  (upto ((pa + MemOp.size op - 1) / 256 + 1 - pa / 256)).filterMap (fun i =>
    let l := pa / 256 + i
    let d := s.fabric.dirLine (remKey me (256 * l) / 256)
    let away : Bool := match d.owner with | some o => decide (o.1 ≠ me) | none => false
    if d.busy.isSome || away || (own && d.holders.any (fun x => decide (x ≠ me))) then some ⟨me, 256 * l, 256, false, own, false, false⟩ else none)

/-- The access may be served now (R98, R378): its second-tier blocks are held and no quiesced channel or port holds it up. -/
def State.hostServed (s : State) (pa : Nat) (op : MemOp) : Bool := s.served pa && s.served (pa + MemOp.size op - 1)

/-- The check of an access of the host (R396), or of an Ultra Ethernet peer, which stays in a region registered for the context (R365); an
atomic needs natural alignment. A read may meet a MAC failure. -/
def State.hostCheck (s : State) (h : HostOp) : HostOwn :=
  let n := MemOp.size h.op
  let own := (upto n).map (fun i => s.hostOwn h.ctx (h.pa + i))
  let atomic : Bool := match h.op with | .atomicAdd _ => true | _ => false
  let isRead : Bool := match h.op with | .write _ => false | _ => true
  let odd : Bool := if h.ue then atomic || !(upto n).all (fun i => Config.ueRegistered h.ctx (h.pa + i)) else atomic && decide (h.pa % 8 ≠ 0)
  if n = 0 || odd || own.contains .denied then .denied else if isRead && own.contains .mac then .mac else .ok

/-- The completion of an access to memory. -/
def HostOp.reply (h : HostOp) (ok : Bool) (bs : List Byte) : OutMsg := if h.ue then .ueDone ok bs else .memDone ok bs

/-- An access that fails completes with ACCESS_ERROR, and one of the host is recorded in the device error log (R396). -/
def State.accessError (s : State) (h : HostOp) : State :=
  (if h.ue then s else s.logDev (.accessError h.ctx h.pa)).send (h.reply false [])

/-- Try an access to memory: it completes, or waits for what it has asked for. -/
def State.hostMem (s : State) (h : HostOp) : State × Bool :=
  match s.hostCheck h with
  | .denied => (s.accessError h, true)
  | .mac => ((s.noteMac h.ctx h.pa).accessError h, true)
  | .ok =>
    let s := (s.fetchTier h.pa).fetchTier (h.pa + MemOp.size h.op - 1)
    let lines := s.hostLines h.pa h.op
    if !s.hostServed h.pa h.op then (s, false)
    else if !s.linesReady lines then (s.askLines h.ctx lines, false)
    else
      let (s, bs) := s.memOp h.ctx h.pa h.op
      (s.send (h.reply true bs), true)

/-- An access to the device-register range (R395): registers byte by byte, records at push windows, whose
write completes as R397 says; an atomic there changes nothing. -/
def State.hostReg (s : State) (ctx pa : Nat) (op : MemOp) : State :=
  let off := pa - regBase
  match op with
  | .read n => s.send (.memDone true ((upto n).map (fun i => s.regByte (off + i))))
  | .write bs =>
    if 0x10000000 ≤ off && decide (off < 0x10000000 + 4096 * 4096) then
      s.hostPush ((off - 0x10000000) / 4096) ((off - 0x10000000) % 4096) bs
    else (((upto bs.length).zip bs).foldl (fun s p => s.setRegByte (off + p.1) p.2) s).send (.memDone true [])
  | .atomicAdd _ => s.accessError ⟨false, ctx, pa, op⟩

/-- Serve the accesses that have arrived, in order (R394), up to the first that waits; `n` bounds how many. -/
def State.serveHost : Nat → State → State
  | 0, s => s
  | n + 1, s =>
    match s.hostOps with
    | [] => s
    | h :: l =>
      let t := { s with hostOps := l }
      if !h.ue && isReg h.pa then State.serveHost n (t.hostReg h.ctx h.pa h.op)
      else
        match t.hostMem h with
        | (t, true) => State.serveHost n t
        | (t, false) => { t with hostOps := h :: l }

/-- Serve every access that can be served. -/
def State.serveHosts (s : State) : State := State.serveHost s.hostOps.length s

/-- An access arrives; it is served once those before it have been. -/
def State.hostArrives (s : State) (h : HostOp) : State := State.serveHosts { s.wake with hostOps := s.hostOps ++ [h] }

/-- HOST_MEM_ACCESS (R396). -/
def execHostMemAccess (ctx : Nat) (pa : Nat) (op : MemOp) (s : State) : Out := .next (s.hostArrives ⟨false, ctx, pa, op⟩)

/-- UE_PEER_ACCESS (R365): a peer reads or writes a region that the driver registered for a context; anything else is
answered with an error. -/
def execUePeerAccess (ctx : Nat) (pa : Nat) (op : MemOp) (s : State) : Out := .next (s.hostArrives ⟨true, ctx, pa, op⟩)

end Sys2Proof.Machine
end

