-- ==== Sys2Proof/Machine/Mgmt.lean ====
section
/-!
DEFINITION. Machine/Mgmt.lean: management commands (R398, R401): their completions, contexts and frames (R371 to R373), nodes (R303,
R304).
-/
namespace Sys2Proof.Machine
open Sys2Proof

/-! ### Completions (R398, R401) -/

/-- The tag of no command: a release that a debug unlock makes (R377). -/
def noTag : Nat := 2 ^ 16

/-- The first command of a tag that has no completion gets it. -/
def Cmd.answer (tag : Nat) (o : OutMsg) : List Cmd → List Cmd
  | [] => []
  | c :: l => if c.tag = tag && c.reply.isNone then { c with reply := some o } :: l else c :: Cmd.answer tag o l

/-- The commands that stay and the completions that go out, in order: those of a context in which no earlier command is without one (R398). -/
def Cmd.release : List Nat → List Cmd → List Cmd × List OutMsg
  | _, [] => ([], [])
  | busy, c :: l =>
    match c.reply with
    | none => let r := Cmd.release (c.ctx :: busy) l; (c :: r.1, r.2)
    | some o => let r := Cmd.release busy l; if busy.contains c.ctx then (c :: r.1, r.2) else (r.1, o :: r.2)

/-- A completion goes out at once, or when those of the earlier commands of its context have (R398). -/
def State.reply (s : State) (tag : Nat) (o : OutMsg) : State :=
  if s.cmds.any (fun c => c.tag = tag && c.reply.isNone) then
    let r := Cmd.release [] (Cmd.answer tag o s.cmds)
    { s with cmds := r.1, out := s.out ++ r.2 }
  else s.send o

/-- Complete a command: 0 done, 1 refused, 2 invalid, with DETAIL, RESULT0 and result bytes (Table 25.6). -/
def State.complete (s : State) (tag status detail : Nat) (r0 : W64) (bs : List Byte) : State :=
  if tag < noTag then s.reply tag (.complete tag status detail r0 bs) else s

/-- Complete a command as done. -/
def State.accepted (s : State) (tag : Nat) : State := s.complete tag 0 0 0 []
/-- Complete a command as refused. -/
def State.refuse (s : State) (tag detail : Nat) : State := s.complete tag 1 detail 0 []
/-- Complete a command as invalid: a field is out of range or reserved. -/
def State.invalid (s : State) (tag : Nat) : State := s.complete tag 2 6 0 []

/-- A command other than ATTEST before READY is refused (R398); any command wakes the device (R402). One that names a context takes its place
among those of the context. -/
def asMgmt (s : State) (tag ctx : Nat) (k : State → State) : Out :=
  let s := s.wake
  let s := if ctx = noCtx then s else { s with cmds := s.cmds ++ [⟨ctx, tag, none⟩] }
  .next (if s.plat.ready then k s else s.refuse tag 1)

/-! ### Context creation (R343, R371, R372) -/

/-- Two ranges of addresses overlap. -/
def rangesMeet (a la b lb : Nat) : Bool := decide (a < b + lb) && decide (b < a + la) && decide (0 < la) && decide (0 < lb)

/-- The base and size of the tier cache and of the overflow region (Table 25.4). -/
def Platform.regions (p : Platform) : List (Nat × Nat) :=
  [(p.tierBase * 2 ^ 30, p.tierSize * 2 ^ 30), (p.ovfBase * 2 ^ 21, p.ovfSize * 2 ^ 20)]

/-- A context descriptor's word. -/
def descWord (d : List W64) (i : Nat) : W64 := (d[i]?).getD 0

/-- The cores of a descriptor's partition (Table 22.4). -/
def descPart (d : List W64) : List Nat := (upto 224).filter (fun c => (descWord d (1 + c / 64)).getLsbD (c % 64))

/-- A field of a context descriptor is out of range or reserved (R371); its save area lies in HBM4E outside the device's own regions. -/
def State.descBad (s : State) (d : List W64) : Bool :=
  let base := (descWord d 8).toNat
  let len := (descWord d 9).toNat
  decide (d.length ≠ 16) || (upto 6).any (fun i => descWord d (10 + i) ≠ 0) || bits (descWord d 5) 51 13 ≠ 0 || bits (descWord d 4) 32 32 ≠ 0 ||
  decide ((descWord d 0).toNat % 4096 ≠ 0) || (descPart d).isEmpty || decide (base % 4096 ≠ 0) || decide (len % 4096 ≠ 0) ||
  decide (len < 262144) || decide (tcBase < base + len) || s.plat.regions.any (fun r => rangesMeet base len r.1 r.2)

/-- What a new context would share: its number, its ASID, a core or its save area is in use, or a core is fenced (R371). -/
def State.descTaken (s : State) (ctx : Nat) (d : List W64) : Bool :=
  (s.ctxs.find ctx).isSome || s.ctxs.any (fun c => c.2.asid = bits (descWord d 5) 0 12) ||
  (descPart d).any (fun c => (s.core c).ctx.isSome || s.coreOut c) ||
  s.ctxs.any (fun c => rangesMeet (descWord d 8).toNat (descWord d 9).toNat c.2.saveBase c.2.saveLen) ||
  s.ctxs.any (fun c => c.2.part.any (fun k => decide (c.2.state = .releasing) && (descPart d).contains k))

/-- A core's stage in a context's role map (R323, Table 22.4); log 36. -/
def State.roleOf (s : State) (rolemap : W64) (core : Nat) : Option Nat :=
  if rolemap = 0 then none
  else
    let v := natOfBytes (s.physBytes (rolemap.toNat + 2 * core) 2)
    if v = 0xFFFF then none else some v

/-- Bind a core to a context: its pipe region and counters are cleared, and its L1 holds nothing (R109, R371, R388). -/
def State.bindCore (s : State) (ctx : Nat) (rolemap : W64) (core : Nat) : State :=
  let st := s.roleOf rolemap core
  s.updCore core (fun c =>
    { Core.reset with ctx := some ctx, resetAt := c.resetAt, fenced := c.fenced, tlb := c.tlb,
                      samples := c.samples, samplers := c.samplers, trace := c.trace, stage := st })

/-- A channel still has lines to rinse (R379). -/
def State.rinsing (s : State) : Bool :=
  s.rinse.opened && (upto 256).any (fun ch => decide ((s.channel ch).boundary < 2 ^ 23) && !s.domDead (.channel ch))

/-- Create a context whose checks have passed (R343, R371, R372). -/
def State.makeCtx (s : State) (tag ctx : Nat) (d : List W64) : State :=
  let asid := bits (descWord d 5) 0 12
  let gen := ((s.gens.get asid).toNat + 1) % 16
  let s := if gen = 0 then s.dropTlb (fun t => decide (t.asid = asid)) else s
  let c : Ctx := { desc := d, gen := gen, key := s.serial, keyVer := (s.rinse.version, if s.rinse.opened then some (s.rinse.version + 1) else none),
                   part := descPart d, state := .active, stopAt := none, faults := ⟨[], 0, 0⟩, errors := ⟨[], 0, 0⟩, saved := [],
                   pipes := [], watches := [], rewatched := [], pending := [] }
  let s := { s with serial := s.serial + 1, gens := s.gens.set asid (BitVec.ofNat 4 gen), ctxs := s.ctxs.put ctx c }
  let s := (descPart d).foldl (fun s k => s.bindCore ctx (descWord d 6) k) s
  (s.audit .ctxCreated ctx (openPayload .ctxCreated [ctx, asid, gen])).accepted tag

/-- The lifecycle state permits contexts (Table 22.1). -/
def Lifecycle.tenants : Lifecycle → Bool
  | .manufacture => false | .production => true | .debug => true | .rma => false

/-- CTX_CREATE after READY: it waits for an audit entry (R376). -/
def State.createCtx (s : State) (tag ctx : Nat) (d : List W64) : State :=
  if 4096 ≤ ctx || s.descBad d then s.invalid tag
  else if !s.trust.lifecycle.tenants then s.refuse tag 3
  else if s.trust.unlocking.isSome then s.refuse tag 2
  else if s.descTaken ctx d then s.refuse tag 5
  else if !s.auditRoom then { s with waiting := s.waiting ++ [.create tag ctx d] }
  else s.makeCtx tag ctx d

/-- CTX_CREATE (R371). -/
def execCtxCreate (tag ctx : Nat) (desc : List W64) (s : State) : Out := asMgmt s tag ctx (fun s => s.createCtx tag ctx desc)

/-! ### FRAME_ASSIGN (R96, R372) -/

/-- A range of whole granules of HBM4E or of a CXL port. -/
def State.granulesOk (s : State) (pa count : Nat) : Bool :=
  let last := pa + count * 2 ^ 16 - 1
  pa % 2 ^ 16 = 0 && ((isHbm pa && isHbm last) || (s.isTier pa && s.isTier last && decide (tierPort pa = tierPort last)))

/-- Assign granules: their owner is recorded, and their bytes become zero with valid MACs wherever they stand. -/
def State.assign (s : State) (mark : W64) (pa count : Nat) : State :=
  let out (a : Nat) : Bool := decide (a < pa) || decide (pa + count * 2 ^ 16 ≤ a)
  { s with
    mem := s.mem.keep out
    tier := s.tier.keep out
    badLines := s.badLines.keep (fun l => out (256 * l))
    owners := SMap.sets (s.owners.keep (fun g => out (g * 2 ^ 16))) (if mark = 0 then [] else (upto count).map (fun i => (pa / 2 ^ 16 + i, mark)))
    cores := s.cores.map (fun (c : Nat × Core) => (c.1, { c.2 with dirty := c.2.dirty.keep out, clean := c.2.clean.keep out })) }

/-- FRAME_ASSIGN (R372). -/
def execFrameAssign (tag ctx : Nat) (pa count : Nat) (s : State) : Out :=
  asMgmt s tag ctx (fun s =>
    if count = 0 || !s.granulesOk pa count then s.invalid tag
    else if isHbm pa && decide (tcBase < pa + count * 2 ^ 16) then s.refuse tag 5
    else if ctx = noCtx then (s.assign 0 pa count).accepted tag
    else
      match s.ctxs.find ctx with
      | none => s.invalid tag
      | some c => if c.state = .releasing then s.refuse tag 2 else (s.assign (ownerMark ctx c.key) pa count).accepted tag)

/-! ### Nodes (R303, R304) -/

/-- A queue entry of a descriptor is not allowed (R304). -/
def Node.queueBad (n : Node) (i : Nat) : Bool :=
  let e := bits (n.word (10 + i / 4)) (16 * (i % 4)) 16
  decide (2 ^ 15 ≤ e) || (if e % 4 = 0 then decide (e ≠ 0) else decide (e / 8 % 2 ^ 12 = 0)) || (decide (e % 4 = 1) && decide (n.ne = 0))

/-- A descriptor breaks a rule of R304. -/
def Node.bad (n : Node) (ctx : Nat) : Bool :=
  let w := n.word
  let role := bits (w 8) 1 40
  let out (j : Nat) : Bool := decide (bits (w (14 + j / 4)) (16 * (j % 4) + 12) 3 ≠ 0)
  decide (n.desc.length ≠ 32) || (upto 16).any (fun i => w (16 + i) ≠ 0) || bits (w 9) 60 4 ≠ 0 || bits (w 8) 47 17 ≠ 0 || bits (w 7) 49 15 ≠ 0 ||
  bits (w 6) 56 8 ≠ 0 || bits (w 5) 50 14 ≠ 0 || (upto 8).any out || (upto 16).any (fun i => n.queueBad i) ||
  (upto 3).any (fun i => decide ((w i).toNat % 8 ≠ 0)) ||
  n.na = 0 || decide (64 < n.na) || decide (1024 < n.ne) || n.vregs = 0 || decide (64 < n.vregs) || decide (32 < n.acc) ||
  n.recCount = 0 || decide (1024 < n.recCount) || decide (n.recSize < 8) || decide (256 < n.recSize) || n.recSize % 8 ≠ 0 ||
  decide (n.na ≤ n.issuer) || decide (8192 < n.queueMem) || decide (768 * 1024 < n.alloc) ||
  (n.lm && bits (w 7) 16 32 ≠ 0) ||
  (if n.role then n.minCores = 0 || decide (224 < n.minCores) || decide (n.high ≤ n.low) else role ≠ 0) ||
  decide (6 ≤ n.order) || decide (4 < n.ndeps) || bits (w 9) (15 * n.ndeps) (60 - 15 * n.ndeps) ≠ 0 || decide (bits (w 5) 38 12 ≠ ctx)

/-- A node as registration leaves it: its node state is clear (R303). -/
def Node.fresh (desc : List W64) (ctx : Nat) : Node :=
  { desc := desc, ctx := ctx, nextSeq := 0, records := [], timerFrom := none, learned := none, measured := 0, measDone := 0, bestMeas := 0,
    stopSet := false, closing := none }

/-- A context that commands may name: it exists and is not being released (R374). -/
def State.named (s : State) (tag ctx : Nat) (k : Ctx → State) : State :=
  match s.ctxs.find ctx with
  | none => s.invalid tag
  | some c => if c.state = .releasing then s.refuse tag 2 else k c

/-- NODE_REG (R303, R304): a registered node is replaced once it is drained. -/
def execNodeReg (tag ctx num : Nat) (desc : List W64) (s : State) : Out :=
  asMgmt s tag ctx (fun s =>
    if 4096 ≤ num then s.invalid tag
    else s.named tag ctx (fun _ =>
      if (Node.fresh desc ctx).bad ctx then s.refuse tag 3
      else
        match s.nodes.find num with
        | none => State.accepted { s with nodes := s.nodes.put num (Node.fresh desc ctx) } tag
        | some n =>
          if n.ctx ≠ ctx || n.closing.isSome then s.refuse tag 5
          else { s with nodes := s.nodes.put num { n with closing := some (tag, some desc) } }))

/-- NODE_UNREG (R303): it completes when the node is drained. -/
def execNodeUnreg (tag ctx num : Nat) (s : State) : Out :=
  asMgmt s tag ctx (fun s => s.named tag ctx (fun _ =>
    match s.nodes.find num with
    | none => s.invalid tag
    | some n =>
      if n.ctx ≠ ctx || n.closing.isSome then s.refuse tag 5
      else { s with nodes := s.nodes.put num { n with closing := some (tag, none) } }))

/-- A node's cistern is empty and every workgroup of it has retired (R303). -/
def State.drained (s : State) (num : Nat) (n : Node) : Bool :=
  n.records.isEmpty && s.launched.all (fun l => l.2.node ≠ num) && s.grids.all (fun g => g.2.node ≠ num) && s.wgs.all (fun g => g.2.node ≠ num) &&
  s.retRecs.all (fun r => r.node ≠ num) && s.ctxs.all (fun c => c.2.saved.all (fun v => v.wg.node ≠ num))

/-- NODE_DRAINED (R303): the node is removed or replaced, and its command completes. -/
def execNodeDrained (num : Nat) (s : State) : Out :=
  .next (match s.nodes.find num with
    | none => s
    | some n =>
      match n.closing with
      | none => s
      | some (tag, d) =>
        if !s.drained num n then s
        else
          match d with
          | none => State.accepted { s with nodes := s.nodes.erase num } tag
          | some d => State.accepted { s with nodes := s.nodes.put num (Node.fresh d n.ctx) } tag)

end Sys2Proof.Machine
end

