-- ==== Sys2Proof/Machine/Context.lean ====
section
/-!
DEFINITION. Machine/Context.lean: pre-emption and its save (R333 to R336), resumption (R337), and the release of a context with its scrub
(R338, R374).
-/
namespace Sys2Proof.Machine
open Sys2Proof

/-! ### Pre-emption (R333, R334) -/

/-- Begin to save a context: admission stops, and its strands stop at their yield points (R333). -/
def State.beginSave (s : State) (ctx : Nat) : State :=
  s.updCtx ctx (fun c => { c with state := .saving, stopAt := some s.clock, watches := [], rewatched := [] })

/-- A context may be pre-empted: it is active, or resumes workgroups without a command (R378). -/
def State.canSave (s : State) (ctx : Nat) (c : Ctx) : Bool :=
  match c.state with
  | .active => true
  | .resuming => s.waiting.all (fun w => match w with | .resume _ k => decide (k ≠ ctx) | _ => true)
  | _ => false

/-- PREEMPT (R333): it completes at acceptance. -/
def execPreempt (tag ctx : Nat) (s : State) : Out :=
  asMgmt s tag ctx (fun s => s.named tag ctx (fun c => if s.canSave ctx c then (s.beginSave ctx).accepted tag else s.refuse tag 2))

/-- A core's workgroups are being saved because its domain is quiesced, from the clock of its last error (R378). -/
def State.quiescedFrom (s : State) (core : Nat) : Option Nat :=
  (s.doms.find? (fun d => decide (d.dom = .core core) && d.quiesced)).map (fun d => d.recent.foldl max 0)

/-- A workgroup is being saved, and from which clock. -/
def State.savingFrom (s : State) (w : WgId) (g : Workgroup) : Option Nat :=
  match s.ctxs.find g.ctx with
  | some c => if c.state = .saving then c.stopAt else s.quiescedFrom w.core
  | none => none

/-- Stop a strand at an instruction boundary; its latches stay (R333). -/
def State.stopStrand (s : State) (sid : StrandId) : State :=
  (s.updLane sid (fun l => match l.cur with
    | some (x, _) => if x = sid then { l with cur := none } else l
    | none => l)).updStrand sid (fun st => { st with stopped := true })

/-- PREEMPT_FORCE_STOP (R333): a strand that has reached no yield point in 16,384 clocks stops, and its latches are saved. -/
def execPreemptForceStop (strand : StrandId) (s : State) : Out :=
  .next (match s.wgs.find strand.wg, s.strands.find strand with
    | some g, some st =>
      (match s.savingFrom strand.wg g with
       | some t => if st.exited || st.stopped || decide (s.clock < t + 16384) then s else s.stopStrand strand
       | none => s)
    | _, _ => s)

/-- Strands of workgroups that are being saved stop where they are between yield points (R333, R334). -/
def State.stopSaving (s : State) : State :=
  s.strands.foldl (fun s p =>
    match s.wgs.find p.1.wg with
    | none => s
    | some g =>
      if (s.savingFrom p.1.wg g).isNone || p.2.exited || p.2.stopped || decide (((s.laneOf p.1).cur.map Prod.fst) = some p.1) then s
      else s.stopStrand p.1) s

/-! ### The save (R333 to R336, Table 18.3) -/

/-- A copy has begun: it writes, or has claimed permits (R335). -/
def Copy.begun (c : Copy) : Bool :=
  match c.kind with
  | .tmcast _ _ _ _ => !c.dlv.isEmpty
  | .tcopy _ _ => c.started || !c.dlv.isEmpty || decide (0 < c.done)
  | .tstore _ _ _ => decide (0 < c.done)

/-- A workgroup can be saved: its strands have stopped, its accesses are over, and no copy of it or landing in it is under way (R333,
R335). -/
def State.canStore (s : State) (w : WgId) : Bool :=
  s.strands.all (fun p => p.1.wg ≠ w || p.2.exited || p.2.stopped) && s.accs.all (fun a => a.strand.wg ≠ w || a.over) &&
  s.copies.all (fun c => (c.wg ≠ w || !c.begun) && c.dlv.all (fun d => d.wg ≠ w))

/-- A fragment as saved (R334): a blocked one stops before its instruction, but an arrived BARW stays arrived. -/
def Frag.saved (f : Frag) : Frag :=
  match f.st, f.wait with
  | .blocked, some (.barrier _ _) => f
  | .blocked, _ => { f with st := .ready, wait := none, scan := f.scan.map (fun (c : Scan) => { c with fetch := none }) }
  | _, _ => { f with scan := f.scan.map (fun (c : Scan) => { c with fetch := none }) }

/-- A resident workgroup as saved (Table 18.3). -/
def State.savedOf (s : State) (w : WgId) (g : Workgroup) (id : Nat) : SavedWg :=
  { id := id, from_ := w, wg := { g with feq := [] }
    strands := s.strands.filterMap (fun p => if p.1.wg = w then
      some (p.1.slice, p.1.idx, { p.2 with frags := p.2.frags.map Frag.saved, watchSkip := false }) else none)
    cmds := (s.core w.core).mqueue.filter (fun e => e.wg = w)
    copies := s.copies.filter (fun c => c.wg = w)
    mend := (s.core w.core).mend.filter (fun e => e.strand.wg = w) }

/-- Packets for the pending entries of a saved workgroup are answered to nobody: its reads are asked for again (R59). -/
def State.forgetEntries (s : State) (g : Workgroup) : State :=
  let mine (u : PktUse) : Bool := match u with | .entry id _ => g.entries.any (fun e => e.id = id) | _ => false
  { s with fabric := { s.fabric with sent := s.fabric.sent.map (fun k => if mine k.use_ then { k with use_ := .message } else k) } }

/-- Save one workgroup and free its place; stopped strands' packets and waits go with it. -/
def State.storeWg (s : State) (w : WgId) (g : Workgroup) : State :=
  let v := s.savedOf w g s.serial
  let s := v.copies.foldl (fun s c => s.updCore c.core (fun k => { k with copies := k.copies - 1 })) (s.forgetEntries g)
  let s := { s with copies := s.copies.filter (fun c => c.wg ≠ w), serial := s.serial + 1 }
  (s.freeWg w).updCtx g.ctx (fun c => { c with saved := c.saved ++ [v] })

/-- Save a core's comparators with a context (R300). -/
def State.storeWatches (s : State) (ctx core : Nat) : State :=
  s.updCtx ctx (fun c => { c with watches := c.watches.put core (s.core core).watches, rewatched := c.rewatched.filter (fun p => p.1 ≠ core) })

/-- The save area that a saved workgroup takes (Table 18.4). -/
def SavedWg.bytes (v : SavedWg) : Nat :=
  8192 + 2560 * v.wg.na + (32 * v.wg.vregs + 512) * v.wg.ne + v.wg.size * 1025 / 1024 + 33 * v.wg.queueMem + 16384 * v.wg.acc + 320 * v.mend.length

/-- The grids of a context's nodes. -/
def State.gridsOf (s : State) (ctx : Nat) : List (Nat × Grid) := s.grids.filter (fun g => (s.nodes.find g.2.node).map Node.ctx = some ctx)

/-- The save area that a context takes (Table 18.4). -/
def State.saveBytes (s : State) (ctx : Nat) (c : Ctx) : Nat :=
  262144 + c.saved.foldl (fun a v => a + v.bytes) 0 + 131200 * c.part.length +
  (s.gridsOf ctx).foldl
    (fun a g => a + (g.2.total + 7) / 8 + 4 * g.2.released.length) 0

/-- The resident workgroups of a context, in admission order. -/
def State.wgsOf (s : State) (ctx : Nat) : List (WgId × Workgroup) := s.wgs.filter (fun p => p.2.ctx = ctx)

/-- A context's state as its save area holds it (Table 18.3), with the grids of its nodes: the spec lays out none of it, so the bytes are a free
function of what is saved (R333; log 93). -/
opaque Config.saveImage : Ctx → List (Nat × Grid) → List Byte

/-- Write a context's saved state behind its logs in its save area (R333). -/
def State.writeSave (s : State) (ctx : Nat) : State :=
  match s.ctxs.find ctx with
  | none => s
  | some c => s.setPhysBytes (c.saveBase + 262144) ((Config.saveImage c (s.gridsOf ctx)).take (c.saveLen - 262144))

/-- A save is at its end (R333, R336): its state is in the save area, or it does not fit, is logged, and every saved workgroup is terminated. -/
def State.checkSave (s : State) (ctx : Nat) : State × Bool :=
  match s.ctxs.find ctx with
  | none => (s, true)
  | some c =>
    if s.saveBytes ctx c ≤ c.saveLen then (s.writeSave ctx, true)
    else ((c.saved.foldl (fun s v => s.failSave ctx v) s).logError ctx .failedSave, false)

/-- Save a core's pipe region and comparators and unbind the core (R109, R300, R333; log 31). -/
def State.storeCore (s : State) (ctx core : Nat) : State :=
  let s := (s.phaseRelease core).storeWatches ctx core
  let k := s.core core
  (s.updCtx ctx (fun c => { c with pipes := c.pipes.put core (k.pipe, k.pipeFull) })).updCore core (fun k =>
    { k with ctx := none, pipe := [], pipeFull := [], pipeFeq := [], clean := [], dirty := [], watches := [], stage := none, victims := [] })

/-- SAVE_COMPLETE (R333, R336): the state is in the save area, the cores are free, and a SAVED notice is sent; a save that does not fit
terminates every saved workgroup. -/
def execSaveComplete (ctx : Nat) (s : State) : Out :=
  .next (match s.ctxs.find ctx with
    | none => s
    | some c =>
      if c.state ≠ .saving || !(s.wgsOf ctx).all (fun p => s.canStore p.1) then s
      else
        let s := (s.wgsOf ctx).foldl (fun s p => s.storeWg p.1 p.2) s
        let s := c.part.foldl (fun s k => s.storeCore ctx k) s
        let (s, ok) := State.checkSave (s.updCtx ctx (fun c => { c with state := .saved, stopAt := none })) ctx
        s.notify (.saved ctx c.part ok))

/-- The workgroups of a core whose domain is quiesced are saved, as by a pre-emption, and then resumed elsewhere without a command (R336, R378). -/
def State.storeQuiesced (s : State) : State :=
  s.doms.foldl (fun s d => match d.dom with
    | .core n =>
      let ws := s.residents n
      if !d.quiesced || ws.isEmpty || !ws.all (fun p => s.canStore p.1) then s
      else
        let s := ws.foldl (fun s p => s.storeWg p.1 p.2) (s.phaseRelease n)
        (match (s.core n).ctx with
         | some ctx =>
           (((s.storeWatches ctx n).updCtx ctx (fun c => { c with state := if c.state = .active then .resuming else c.state })).checkSave ctx).1
         | none => s)
    | _ => s) s

/-! ### RESUME (R337) -/

/-- RESUME on a list of cores. -/
def State.resumeOn (s : State) (tag ctx : Nat) (c : Ctx) (cores : List Nat) : State :=
  let rolemap := c.word 6
  let s := s.updCtx ctx (fun c => { c with state := .resuming, part := cores })
  let s := cores.foldl (fun s k =>
    let s := s.bindCore ctx rolemap k
    let s := s.rewatch ctx k k
    match c.pipes.find k with
    | some (b, f) => s.updCore k (fun x => { x with pipe := b, pipeFull := f })
    | none => s) s
  let s := s.updCtx ctx (fun c => { c with pipes := [] })
  { s with waiting := s.waiting ++ [.resume tag ctx] }

/-- RESUME (R337): the named cores are free and not fenced; it completes when every saved workgroup has resumed or ended. -/
def execResume (tag ctx : Nat) (cores : List Nat) (s : State) : Out :=
  asMgmt s tag ctx (fun s => s.named tag ctx (fun c =>
    if cores.isEmpty || cores.any (fun k => decide (224 ≤ k)) then s.invalid tag
    else if c.state ≠ .saved then s.refuse tag 2
    else if cores.any (fun k => s.coreOut k || (s.core k).ctx.isSome) then s.refuse tag 5
    else s.resumeOn tag ctx c ((upto 224).filter (fun k => cores.contains k))))

/-! ### Release (R338, R341, R374) -/

/-- Terminate a context's work and unregister its nodes (R338): resident workgroups without a handler, saved ones, prefetches,
transfers, targets, cisterns and page requests. -/
def State.beginRelease (s : State) (tag ctx : Nat) : State :=
  match s.ctxs.find ctx with
  | none => s
  | some c =>
    let s := (s.wgsOf ctx).foldl (fun s p => s.terminate p.1 none) s
    let s := c.saved.foldl (fun s v => s.endSaved ctx v) s
    let closing := s.nodes.filterMap (fun n => if n.2.ctx = ctx then n.2.closing.map Prod.fst else none)
    let mine (n : Nat) : Bool := (s.nodes.find n).map Node.ctx = some ctx
    let s := { s with
      prefetches := s.prefetches.filter (fun f => f.ctx ≠ ctx)
      ueGets := s.ueGets.filter (fun u => u.ctx ≠ ctx)
      fabric := { s.fabric with xfers := s.fabric.xfers.map (fun (x : Xfer) => if x.ctx = ctx then { x with stopped := true } else x) }
      targets := s.targets.filter (fun t => t.ctx ≠ ctx)
      adds := s.adds.filter (fun a => a.ctx ≠ ctx)
      emits := s.emits.filter (fun e => match e.1 with | RecSrc.wg _ _ k _ => decide (k ≠ ctx) | RecSrc.host w => !mine w)
      launched := s.launched.filter (fun l => !mine l.2.node)
      grids := s.grids.filter (fun g => !mine g.2.node)
      retRecs := s.retRecs.filter (fun r => r.ctx ≠ ctx)
      nodes := s.nodes.filter (fun n => n.2.ctx ≠ ctx)
      pageReqs := s.pageReqs.map (fun (r : PageReq) => if r.asid = c.asid && r.gen = c.gen then { r with withdrawn := true, joined := [] } else r)
      waiting := s.waiting ++ [Waiting.released tag ctx] }
    closing.foldl (fun s t => s.accepted t) (s.updCtx ctx (fun c => { c with state := .releasing, saved := [] }))

/-- A release waits for a pre-emption or resumption of its context (R398). -/
def State.releaseCtx (s : State) (tag ctx : Nat) (c : Ctx) : State :=
  match c.state with
  | .saving => { s with waiting := s.waiting ++ [.release tag ctx] }
  | .resuming => { s with waiting := s.waiting ++ [.release tag ctx] }
  | _ => s.beginRelease tag ctx

/-- A release of the context is waiting. -/
def State.releaseWaits (s : State) (ctx : Nat) : Bool :=
  s.waiting.any (fun w => match w with | .release _ k => decide (k = ctx) | .released _ k => decide (k = ctx) | _ => false)

/-- CTX_RELEASE (R338, R374). -/
def execCtxRelease (tag ctx : Nat) (s : State) : Out :=
  asMgmt s tag ctx (fun s => s.named tag ctx (fun c => if s.releaseWaits ctx then s.refuse tag 2 else s.releaseCtx tag ctx c))

/-- Steps 1 and 2 of R374 on a core: its state reads as zero, its lines are dropped without being written, and it is free. -/
def Core.scrub (c : Core) : Core :=
  { Core.reset with resetAt := c.resetAt, fenced := c.fenced, tlb := c.tlb, trace := c.trace }

/-- A line of another device is held, or asked for, for the context of a fabric tag. -/
def Fabric.tagged (f : Fabric) (ftag line : Nat) : Bool := f.tags.any (fun t => t.1 = line && t.2 = ftag)

/-- The scrub, the key's end and the audit entry of a release (R374); no core keeps a sample of the context (R302). -/
def State.finishRelease (s : State) (tag ctx : Nat) (c : Ctx) : State :=
  let held := c.part.filter (fun k => (s.core k).ctx = some ctx)
  let s := held.foldl (fun s k => s.updCore k Core.scrub) s
  let s := { s with cores := s.cores.map (fun (k : Nat × Core) => (k.1, { k.2 with samples := k.2.samples.filter (fun x => x.2.ctx ≠ ctx) })) }
  let s := (s.dropTlb (fun t => decide (t.asid = c.asid) && decide (t.gen = c.gen)))
  let mine (k : L2Line) : Bool := match k.dev with
    | none => decide (s.owners.get (k.line / 2 ^ 8) = ownerMark ctx c.key)
    | some d => s.fabric.tagged c.ftag (remKey d (256 * k.line) / 256)
  let s := (s.l2.filter (fun k => mine k && k.dev.isSome)).foldl State.l2Discard { s with l2 := s.l2.filter (fun k => !(mine k && k.dev.isNone)) }
  let lo := c.saveBase + 262144
  let hi := c.saveBase + c.saveLen
  let s := { s with
    reads := s.reads.filter (fun r => !held.contains r.core)
    accs := s.accs.filter (fun a => !held.contains a.strand.wg.core)
    mem := s.mem.keep (fun a => decide (a < lo) || decide (hi ≤ a))
    fails := s.fails.filter (fun f => match f.1 with | .inst sid _ => !held.contains sid.wg.core | _ => true)
    waiting := s.waiting.filter (fun w => match w with | .released _ k => decide (k ≠ ctx) | _ => true)
    ctxs := s.ctxs.erase ctx }
  (s.audit .ctxReleased ctx (openPayload .ctxReleased [ctx, c.asid, c.gen])).accepted tag

/-- CTX_RELEASE_DONE (R374, R376): the release completes once an audit entry is free and the context's requests for lines of other devices are
answered. -/
def execCtxReleaseDone (ctx : Nat) (s : State) : Out :=
  .next (match s.ctxs.find ctx, s.waiting.findSome? (fun w => match w with | Waiting.released t k => if k = ctx then some t else none | _ => none) with
    | some c, some tag => if c.state = .releasing && s.auditRoom && s.fabric.wants.all (fun w => !s.fabric.tagged c.ftag w.line) then s.finishRelease tag ctx c else s
    | _, _ => s)

end Sys2Proof.Machine
end

