-- ==== Sys2Proof/Machine/Security.lean ====
section
/-!
DEFINITION. Machine/Security.lean: the Trust Controller's commands and events: attestation (R370), lifecycle (R367), debug unlock (R377), the
audit log (R375, R376), measurements (R369) and the Rinse pass (R379), with the commands that wait.
-/
namespace Sys2Proof.Machine
open Sys2Proof

/-! ### Buffers and tokens (R401) -/

/-- A range of HBM4E whose granules no context owns, as a result buffer or a token must be (R401). -/
def State.bufferOk (s : State) (pa len : Nat) : Bool :=
  decide (pa + len ≤ 2 ^ 39) && s.owners.all (fun g => !(decide (pa < (g.1 + 1) * 2 ^ 16) && decide (g.1 * 2 ^ 16 < pa + len)))

/-- Extend a measurement register (R369). -/
def Trust.extend (t : Trust) (n : Nat) (d : List Byte) : Trust := { t with meas := listAdjust t.meas n (fun m => sha384 (m ++ d)) }

/-- The codes of the lifecycle states (Table 22.3). -/
def Lifecycle.code : Lifecycle → Nat
  | .manufacture => 0 | .production => 1 | .debug => 2 | .rma => 3

/-- The state of a code. -/
def Lifecycle.ofCode : Nat → Option Lifecycle
  | 0 => some .manufacture | 1 => some .production | 2 => some .debug | 3 => some .rma | _ => none

/-- A transition of Table 22.1. -/
def Lifecycle.goesTo : Lifecycle → Lifecycle → Bool
  | .manufacture, .production => true
  | .manufacture, .debug => true
  | .production, .rma => true
  | .debug, .rma => true
  | _, _ => false

/-! ### ATTEST (R370) -/

/-- Bytes 0..503 of a report (Table 22.3). -/
def Trust.report (t : Trust) (nonce : List Byte) : List Byte :=
  bytesOfNat 32 Config.identity.toNat ++ [BitVec.ofNat 8 t.lifecycle.code, if t.debugOpen then 1 else 0] ++ List.replicate 6 0 ++
  nonce ++ t.meas.flatten ++ bytesOfNat 8 (t.auditNext - 1) ++ t.auditHead.take 24

/-- The keys that the present boot derived (R370). -/
def Trust.keys (t : Trust) : BitVec 384 := Config.attestKeys Config.deviceSecret ((t.meas[1]?).getD []) t.boots

/-- The fused security version: the number of burnt bits (R367). -/
def Trust.version (t : Trust) : Nat := (upto 64).countP t.secVersion.getLsbD

/-- A thermometer code: a version's bits are burnt from bit 0 up; 64 is the highest (R367). -/
def thermometer (n : Nat) : BitVec 64 := BitVec.ofNat 64 (2 ^ min n 64 - 1)

/-- ATTEST (R370, R398): served before READY too; refused once the tree is exhausted. -/
def execAttest (tag : Nat) (nonce : List Byte) (buf len : Nat) (s : State) : Out :=
  let s := s.wake
  let body := s.trust.report nonce
  let report := body ++ Config.attestSign s.trust.keys body s.trust.lmsUsed
  .next (if nonce.length ≠ 48 || !s.bufferOk buf len || decide (len < report.length) then s.invalid tag
    else if Config.lmsKeys ≤ s.trust.lmsUsed then s.refuse tag 5
    else
      let s := s.setPhysBytes buf report
      ({ s with trust := { s.trust with lmsUsed := s.trust.lmsUsed + 1 } }).complete tag 0 0 (BitVec.ofNat 64 report.length) [])

/-! ### Lifecycle (R367) -/

/-- A transition with a verified token: it is audited and takes effect at the next reset; it waits for an audit entry (R376). -/
def State.setLifecycle (s : State) (tag : Nat) (dest : Lifecycle) : State :=
  if !s.auditRoom then { s with waiting := s.waiting ++ [.lifecycle tag dest] }
  else
    let s := s.audit .lifecycle noCtx (openPayload .lifecycle [s.trust.lifecycle.code, dest.code])
    ({ s with trust := { s.trust with nextLife := some dest } }).accepted tag

/-- LIFECYCLE (R367). -/
def execLifecycle (tag : Nat) (addr len : Nat) (s : State) : Out :=
  asMgmt s tag noCtx (fun s =>
    if !s.bufferOk addr len then s.invalid tag
    else
      match (Config.lifecycleToken (s.physBytes addr len)).bind Lifecycle.ofCode with
      | none => s.refuse tag 4
      | some dest => if s.trust.lifecycle.goesTo dest then s.setLifecycle tag dest else s.refuse tag 3)

/-! ### Debug unlock (R377) -/

/-- UNLOCK_NONCE: a fresh nonce of 48 bytes, in place of an earlier one. -/
def execUnlockNonce (tag : Nat) (s : State) : Out :=
  asMgmt s tag noCtx (fun s =>
    let (ws, s) := s.takeFrees 6
    let n := ws.flatMap w64Bytes
    ({ s with trust := { s.trust with nonce := some n, nonces := s.trust.nonces + 1 } }).complete tag 0 0 0 n)

/-- Step 5 of an unlock: every context is released. -/
def State.releaseAll (s : State) : State :=
  s.ctxs.foldl (fun s p => match s.ctxs.find p.1 with
    | some c => if c.state = .releasing || s.releaseWaits p.1 then s else s.releaseCtx noTag p.1 c
    | none => s) s

/-- UNLOCK (R377): a token that verifies starts the release of every context; the nonce serves one attempt. -/
def execUnlock (tag : Nat) (addr len : Nat) (s : State) : Out :=
  asMgmt s tag noCtx (fun s =>
    if !s.bufferOk addr len then s.invalid tag
    else if s.trust.debugOpen then s.refuse tag 3
    else if s.trust.unlocking.isSome then s.refuse tag 5
    else
      let token := s.physBytes addr len
      let ok := match s.trust.nonce with | some n => Config.unlockToken token n s.trust.lifecycle.code | none => false
      let s := { s with trust := { s.trust with nonce := none } }
      if !ok then s.refuse tag 4
      else State.releaseAll { s with trust := { s.trust with unlocking := some (tag, sha384 token) } })

/-- Steps 6 to 9 of an unlock, once every context is released and an audit entry is free. -/
def State.finishUnlock (s : State) : State :=
  match s.trust.unlocking with
  | none => s
  | some (tag, digest) =>
    if !s.ctxs.isEmpty || !s.auditRoom then s
    else
      let s := { s with trust := s.trust.extend 0 (bytesOfNat 48 Config.openDigest.toNat) }
      let s := s.audit .debugUnlock noCtx digest
      ({ s with trust := { s.trust with portOpen := true, unlocking := none } }).accepted tag

/-! ### Commands that wait (R374, R376, R398) -/

/-- Try a waiting command again. -/
def State.retryWaiting (s : State) (w : Waiting) : State :=
  let drop (s : State) : State := { s with waiting := s.waiting.erase w }
  match w with
  | .release tag ctx =>
    (match s.ctxs.find ctx with
     | none => (drop s).accepted tag
     | some c => (match c.state with
       | .saving => s
       | .resuming => s
       | _ => (drop s).beginRelease tag ctx))
  | .released _ _ => s
  | .resume tag ctx =>
    (match s.ctxs.find ctx with
     | none => drop s
     | some c => if c.state = .resuming && c.saved.isEmpty then ((drop s).updCtx ctx (fun c => { c with state := .active })).accepted tag else s)
  | .create tag ctx d => if s.auditRoom then (drop s).createCtx tag ctx d else s
  | .lifecycle tag dest => if s.auditRoom then (drop s).setLifecycle tag dest else s

/-- A context that resumes without a command is active again once nothing of it is saved (R378). -/
def State.endResumes (s : State) : State :=
  s.ctxs.foldl (fun s p =>
    if p.2.state = .resuming && p.2.saved.isEmpty && s.waiting.all (fun w => match w with | .resume _ k => decide (k ≠ p.1) | _ => true) then
      s.updCtx p.1 (fun c => { c with state := .active })
    else s) s

/-- Every waiting command, in order. -/
def State.retryAll (s : State) : State := (s.waiting.foldl (fun s w => s.retryWaiting w) s).endResumes.finishUnlock

/-! ### Audit log and measurements (R369, R375, R376) -/

/-- AUDIT_EXPORT_ACK (R376): exported entries up to a sequence number are freed. -/
def execAuditExportAck (upTo : Nat) (s : State) : Out :=
  .next { s with trust := { s.trust with audit := s.trust.audit.filter (fun e => decide (upTo < e.seq)) } }

/-- AUDIT_TYPED_APPEND (R375): firmware's payload of 48 bytes; it waits for a free entry. -/
def execAuditTypedAppend (payload : List Byte) (s : State) : Out :=
  .next (if payload.length = 48 && s.auditRoom then s.audit .typed noCtx payload else s)

/-- MEAS_EXTEND (R369): a typed extend of MEAS6 or MEAS7. -/
def execMeasExtend (n : Nat) (d : List Byte) (s : State) : Out :=
  .next (if (n = 6 || n = 7) && decide (d.length = 48) then { s with trust := s.trust.extend n d } else s)

end Sys2Proof.Machine
end

