-- ==== Sys2Proof/Machine/Errors.lean ====
section
/-!
DEFINITION. Machine/Errors.lean: reliability: containment domains, self-test and fencing (R378, R114, R314), the Rinse pass (R379), refresh (R380)
and its takeover (R381).
-/
namespace Sys2Proof.Machine
open Sys2Proof

/-! ### Domains (R378, Table 22.6) -/

/-- A domain's state; one without errors is in service. -/
def State.dom (s : State) (d : Domain) : DomState := (s.doms.find? (fun x => x.dom = d)).getD ⟨d, [], 0, 0, false, false, false, []⟩

/-- Replace a domain's state. -/
def State.putDom (s : State) (x : DomState) : State := { s with doms := s.doms.filter (fun y => y.dom ≠ x.dom) ++ [x] }

/-- Apply a function to a domain's state. -/
def State.updDom (s : State) (d : Domain) (g : DomState → DomState) : State := s.putDom (g (s.dom d))

/-- A domain of Table 22.6: 224 cores and L2 slices, 256 channels and copy units, 144 fabric ports and 16 CXL ports. -/
def Domain.ok : Domain → Bool
  | .core n => decide (n < 224)
  | .l2slice n => decide (n < 224)
  | .channel n => decide (n < 256)
  | .copyUnit n => decide (n < 256)
  | .fabricPort n => decide (n < 144)
  | .cxlPort n => decide (n < 16)

/-! ### The home table (R114) -/

/-- The entries of the home table that name a slice, in ascending index. -/
def entriesOf (ht : List Nat) (n : Nat) : List Nat := (upto ht.length).filter (fun i => decide (ht[i]? = some n))

/-- The slice in service that holds the fewest entries, the lowest-numbered of several. -/
def leastSlice (ht : List Nat) (ok : Nat → Bool) : Option Nat :=
  (upto 224).foldl (fun best n =>
    if !ok n then best
    else match best with
      | none => some n
      | some b => if (entriesOf ht n).length < (entriesOf ht b).length then some n else best) none

/-- Give away a slice's entries one by one (R114). -/
def giveEntries (ok : Nat → Bool) : List Nat → List Nat → List Nat
  | [], ht => ht
  | i :: l, ht => match leastSlice ht ok with | some n => giveEntries ok l (listSet ht i n) | none => giveEntries ok l ht

/-- A slice leaves service: its entries move as R114 moves them, and its lines are written back. -/
def State.moveSlice (s : State) (n : Nat) : State :=
  let es := entriesOf s.homeTable n
  let ok (m : Nat) : Bool := decide (m ≠ n) && !(s.dom (.l2slice m)).quiesced && !(s.dom (.l2slice m)).fenced
  (State.updDom { s with homeTable := giveEntries ok es s.homeTable } (.l2slice n) (fun d => { d with entries := es })).l2Rehome

/-- A slice returns to service with the entries that it gave away, whose holders write back their lines. -/
def State.returnSlice (s : State) (n : Nat) : State :=
  let es := (s.dom (.l2slice n)).entries
  (State.updDom { s with homeTable := es.foldl (fun ht i => listSet ht i n) s.homeTable } (.l2slice n) (fun d => { d with entries := [] })).l2Rehome

/-! ### Quiescing (R378) -/

/-- Commands of a copy unit go to the next unit in service; one that moves on starts again there with what it has done. -/
def State.moveCopies (s : State) (u : Nat) : State :=
  { s with copies := s.copies.map (fun (c : Copy) => if c.unit = some u then { c with unit := some (s.unitInService u), started := false } else c) }

/-- A core that maps name leaves service: their grids lose their unadmitted members and each reports PLACEMENT once (R314; log 94). -/
def State.fenceGrids (s : State) (n : Nat) : State :=
  s.grids.foldl (fun s g =>
    if (g.2.place.getD []).contains n && !g.2.lost then
      let t := { s with grids := s.grids.map (fun (x : Nat × Grid) => if x.1 = g.1 then (x.1, { x.2 with lost := true }) else x) }
      (t.cancelMembers g.1).launchError .placement (recHeader g.2.record) g.2.src
    else s) s

/-- A domain is quiesced (R378): the notice is sent, and its work waits, moves or is saved. -/
def State.quiesce (s : State) (d : Domain) : State :=
  let s := ((s.updDom d (fun x => { x with quiesced := true })).logDev (.domain d)).notify (.error d)
  match d with
  | .l2slice n => s.moveSlice n
  | .copyUnit u => s.moveCopies u
  | .core n => s.fenceGrids n
  | _ => s

/-- CORRECTED_ERROR: counted; a 16th within 2^32 clocks of the first of the 16 quiesces the domain. -/
def execCorrectedError (dom : Domain) (s : State) : Out :=
  .next (
    let x := s.dom dom
    if !Domain.ok dom || x.fenced then s
    else
      let recent := (x.recent ++ [s.clock]).drop ((x.recent.length + 1) - 16)
      let s := s.updDom dom (fun x => { x with recent := recent, total := x.total + 1 })
      if decide (recent.length = 16) && decide (s.clock ≤ recent.headD 0 + 2 ^ 32) && !x.quiesced then s.quiesce dom else s)

/-- Terminate a workgroup for an error in a domain (R331, R378): its error-log entry names the domain. -/
def State.failDomain (s : State) (d : Domain) (w : WgId) (g : Workgroup) (pc : W64) : State :=
  (s.logError g.ctx (.domain d g.task)).terminate w (some (terminationRecord g ⟨w, .access, 0⟩ pc 0 none 0x80))

/-- The lines that an L2 slice holds and ECC does not correct: among its written lines those that a free value names. One of local memory is
marked, so that later reads fail; one of another device keeps free bytes, since no packet carries a marker (log 65). -/
def State.loseSlice (s : State) (n : Nat) : State :=
  let (ws, s) := s.takeFrees 1
  let gone (k : L2Line) : Bool := k.slice = n && Config.lostLine k.line ((ws[0]?).getD 0)
  (s.l2.filter gone).foldl (fun s k => match k.dev with
    | none => if k.mask = 0 then s else { s with badLines := s.badLines.set k.line 1 }
    | some d =>
      if s.fabric.written (remKey d (256 * k.line) / 256) then
        let (xs, s) := s.takeFrees 256
        { s with fabric := { s.fabric with data := s.fabric.data.setBytes (remKey d (256 * k.line)) (xs.map (fun (x : W64) => x.setWidth 8)) } }
      else s) s

/-- What an uncorrected error does at once (Table 22.6). -/
def State.hitDomain (s : State) (d : Domain) : State :=
  match d with
  | .core n => (s.residents n).foldl (fun s p => s.failDomain d p.1 p.2 0) s
  | .l2slice n => s.loseSlice n
  | .copyUnit u =>
    (s.copies.filter (fun c => decide (c.unit = some u) && c.started)).foldl (fun s c => match s.wgs.find c.wg with
      | some g => s.failDomain d c.wg g c.pc
      | none => s) s
  | d => s.updDom d (fun x => { x with dead := true })

/-- An uncorrected error (R378): the domain's work stops or is lost, and the domain is quiesced. -/
def State.uncorrected (s : State) (dom : Domain) : State :=
  if !Domain.ok dom || (s.dom dom).fenced then s
  else
    let s := (s.updDom dom (fun x => { x with recent := x.recent ++ [s.clock] })).hitDomain dom
    if (s.dom dom).quiesced then s else s.quiesce dom

/-- UNCORRECTED_ERROR (R378). -/
def execUncorrectedError (dom : Domain) (s : State) : Out := .next (s.uncorrected dom)

/-- A core is fenced until reset. -/
def State.fenceCore (s : State) (n : Nat) : State := (s.updCore n (fun c => { c with fenced := true })).fenceGrids n

/-- SELF_TEST_DONE (R378): a passed test counts a soft error and returns the domain to service; a failed one fences it, once an audit
entry is free. A core is tested when nothing is resident on it. -/
def execSelfTestDone (dom : Domain) (pass : Bool) (s : State) : Out :=
  .next (
    let busy : Bool := match dom with | .core n => !(s.residents n).isEmpty | _ => false
    if !Domain.ok dom || !(s.dom dom).quiesced || busy then s
    else if pass then
      let s := s.updDom dom (fun x => { x with quiesced := false, recent := [], soft := x.soft + 1 })
      match dom with
      | .l2slice n => s.returnSlice n
      | .core n => s.activate n
      | _ => s
    else if !s.auditRoom then s
    else
      let s := (s.updDom dom (fun x => { x with quiesced := false, fenced := true })).audit .fenced noCtx (openPayload .fenced (Domain.nums dom))
      match dom with
      | .core n => s.fenceCore n
      | _ => s)

/-! ### The Rinse pass (R379) -/

/-- Line number k of a channel in ascending address order (R97). -/
def channelLine (ch k : Nat) : Nat :=
  k * 256 + Nat.xor (Nat.xor ch (k % 256)) (Nat.xor (k / 2 ^ 8 % 256) (k / 2 ^ 16 % 256))

/-- The pass is over: old versions are destroyed and RINSE_DONE is written (R379). -/
def State.rinseDone (s : State) : State :=
  let s := s.audit .rinseDone noCtx (openPayload .rinseDone ((upto 256).map (fun ch => (s.channel ch).errors)))
  let v := s.rinse.version + 1
  { s with
    rinse := { s.rinse with version := v, opened := false }
    ctxs := s.ctxs.map (fun (c : Nat × Ctx) => (c.1, { c.2 with keyVer := (v, none) })) }

/-- RINSE_STEP (R379): a channel rinses its next line and advances its boundary; a line whose check fails is an uncorrected error of the
channel. The last step of a pass waits for an audit entry. -/
def execRinseStep (ch : Nat) (s : State) : Out :=
  .next (
    let c := s.channel ch
    let last (s : State) : Bool := !s.rinsing
    if 256 ≤ ch || !s.rinsing || decide (2 ^ 23 ≤ c.boundary) || s.domDead (.channel ch) then s
    else
      let bad := s.badLines.get (channelLine ch c.boundary) ≠ 0
      let t := s.updChannel ch (fun c => { c with boundary := c.boundary + 1, errors := if bad then c.errors + 1 else c.errors })
      let pa := 256 * channelLine ch c.boundary
      let t := if bad then (t.noteMac (t.keyOwner pa) pa).uncorrected (.channel ch) else t
      if !last t then t else if s.auditRoom then t.rinseDone else s)

/-- RINSE_PASS_START (R379): 2^47 clocks after the last pass began every live context gains version v + 1. The first pass begins when the
device is ready. A pass whose last channels left service is closed first. -/
def execRinsePassStart (s : State) : Out :=
  .next (
    let due : Bool := match s.rinse.began with | none => s.plat.ready | some t => decide (t + 2 ^ 47 ≤ s.clock)
    if !due || s.rinsing || (s.rinse.opened && !s.auditRoom) then s
    else
      let s := if s.rinse.opened then s.rinseDone else s
      { s with
        rinse := { s.rinse with began := some s.clock, opened := true }
        channels := s.channels.map (fun (c : Nat × Channel) => (c.1, { c.2 with boundary := 0, errors := 0 }))
        ctxs := s.ctxs.map (fun (c : Nat × Ctx) => (c.1, { c.2 with keyVer := (s.rinse.version, some (s.rinse.version + 1)) })) })

/-! ### Refresh (R380, R381) -/

/-- A channel runs in a compute interval (R380). -/
def State.computing (s : State) (ch : Nat) : Bool := match (s.channel ch).lastMem with | none => true | some t => decide (t + 4096 ≤ s.clock)

/-- The HBM4E refresh interval in clocks: 3.9 µs at 1.9 GHz, which the spec leaves to the HBM4E standard (log 100). -/
def refreshInterval : Nat := 7410

/-- The next refresh of a channel is due. -/
def State.refreshDue (s : State) (ch : Nat) : Bool := decide ((s.channel ch).lastRef + refreshInterval ≤ s.clock)

/-- REFRESH (R380): one that is due is issued, or, in a memory interval while the bank holds any, postponed, which spends a banked one; before that one is
issued ahead and banked, up to 8, in a compute interval alone. -/
def State.refresh (s : State) (ch : Nat) : State :=
  let bank := (s.channel ch).banked
  if s.refreshDue ch then s.updChannel ch (fun c => { c with lastRef := s.clock, banked := if s.computing ch then bank else bank - 1 })
  else if s.computing ch && decide (bank < 8) then s.updChannel ch (fun c => { c with banked := bank + 1 })
  else s

/-- REFRESH of a channel. -/
def execRefresh (ch : Nat) (s : State) : Out := .next (if 256 ≤ ch then s else s.refresh ch)

/-- The channels are refreshed: HBM4E has been trained, and the Pledan cores run (Table 25.5). -/
def State.refreshing (s : State) : Bool := decide (5 ≤ s.plat.stage)

/-- No refresh is issued later than the interval allows (R380): the ones that are due. -/
def State.refreshAll (s : State) : State :=
  if s.refreshing && decide (refreshInterval ≤ s.clock) then (upto 256).foldl (fun s ch => if s.refreshDue ch then s.refresh ch else s) s else s

/-- HEARTBEAT (R381): ignored after a takeover. -/
def execHeartbeat (stack : Nat) (s : State) : Out :=
  .next { s with pledans := listAdjust s.pledans stack (fun p => if p.takenOver then p else { p with lastBeat := s.clock }) }

/-- The clocks of 1 µs at 1.9 GHz. -/
def beatClocks : Nat := 1900

/-- REFRESH_TAKEOVER (R381): after two missing heartbeats the stack's 32 schedulers issue what it is owed and go on alone; it waits for an
audit entry (R376). -/
def execRefreshTakeover (stack : Nat) (s : State) : Out :=
  .next (match s.pledans[stack]? with
    | none => s
    | some p =>
      if p.takenOver || decide (s.clock < p.lastBeat + 2 * beatClocks) || !s.auditRoom then s
      else
        let s := { s with pledans := listAdjust s.pledans stack (fun p => { p with takenOver := true }) }
        let s := (upto 32).foldl (fun s i => s.updChannel (32 * stack + i) (fun c => { c with lastRef := s.clock, banked := 0 })) s
        ((s.audit .refreshTakeover noCtx (openPayload .refreshTakeover [stack])).logDev (.refreshTakeover stack)).notify (.stackError stack))

end Sys2Proof.Machine
end

