-- ==== Sys2Proof/Machine/Debug.lean ====
section
/-!
DEFINITION. Machine/Debug.lean: what the host reads: event counters (R388), logs (R332, R385) and RESYNC (R344); and debug stops (R392).
-/
namespace Sys2Proof.Machine
open Sys2Proof

/-! ### Counters (R388) -/

/-- PERF_READ (R388): counters 0..15 of a core of the context's partition. -/
def execPerfRead (tag ctx : Nat) (core : Nat) (s : State) : Out :=
  asMgmt s tag ctx (fun s => s.named tag ctx (fun _ =>
    if core < 224 && decide ((s.core core).ctx = some ctx) then
      s.complete tag 0 0 0 ((upto 16).flatMap (fun i => w64Bytes ((s.core core).counts.get i)))
    else s.invalid tag))

/-! ### Logs (R332, R385) -/

/-- The entries of a ring from a sequence number on, by 32-bit distance. -/
def RingLog.from_ {α : Type} (r : RingLog α) (first : Nat) : List (Nat × α) :=
  r.entries.filter (fun e => decide ((e.1 + 2 ^ 32 - first % 2 ^ 32) % 2 ^ 32 < 2 ^ 31))

/-- Copy entries of 32 bytes into a buffer, as many as fit; RESULT0 is their number. -/
def State.copyOut (s : State) (tag buf len : Nat) (es : List (List Byte)) : State :=
  let out := es.take (len / 32)
  (s.setPhysBytes buf out.flatten).complete tag 0 0 (BitVec.ofNat 64 out.length) []

/-- LOG_READ (R332): the fault log is 0, the error log 1. -/
def execLogRead (tag ctx : Nat) (log first buf len : Nat) (s : State) : Out :=
  asMgmt s tag ctx (fun s => s.named tag ctx (fun c =>
    if 1 < log || !s.bufferOk buf len then s.invalid tag
    else if log = 0 then s.copyOut tag buf len ((c.faults.from_ first).map (fun e => e.2.bytes))
    else s.copyOut tag buf len ((c.errors.from_ first).map (fun e => e.2.bytes))))

/-- A debug event entry (Table 23.1). -/
def DbgEvent.bytes (seq : Nat) : DbgEvent → List Byte
  | .detachedWatch comps va pc task =>
    w64Bytes task ++ w64Bytes pc ++ w64Bytes va ++ bytesOfNat 8 (seq * 2 ^ 32 + comps.toNat * 2 ^ 8 + 1)
  | .stopped task => w64Bytes task ++ w64Bytes 0 ++ w64Bytes 0 ++ bytesOfNat 8 (seq * 2 ^ 32 + 2)
  | .traceEnd core n => bytesOfNat 8 (core * 2 ^ 12) ++ w64Bytes 0 ++ bytesOfNat 8 n ++ bytesOfNat 8 (seq * 2 ^ 32 + 3)

/-- The context of a debug event's task; TRACE_END names none. -/
def DbgEvent.ctx : DbgEvent → Option Nat
  | .detachedWatch _ _ _ t => some (bits t 52 12)
  | .stopped t => some (bits t 52 12)
  | .traceEnd _ _ => none

/-- EVLOG_READ (R385): the entries of the named context, or of every context of the host where none is named. -/
def execEvlogRead (tag ctx : Nat) (buf len : Nat) (s : State) : Out :=
  asMgmt s tag ctx (fun s =>
    if !s.bufferOk buf len then s.invalid tag
    else
      let mine (e : DbgEvent) : Bool := match e.ctx with
        | none => false
        | some c => if ctx = noCtx then (s.ctxs.find c).isSome else decide (c = ctx)
      s.copyOut tag buf len ((s.dbg.entries.filter (fun e => mine e.2)).map (fun e => e.2.bytes e.1)))

/-! ### RESYNC (R344) -/

/-- A context's state in RESYNC: active, pre-empted or releasing. -/
def CtxState.report : CtxState → Nat
  | .active => 0 | .resuming => 0 | .saving => 1 | .saved => 1 | .releasing => 2

/-- A target's action as RESYNC reports it (R282): a notice, or an emit with its record's length and bytes. -/
def TargetAct.nums : TargetAct → List Nat
  | .notice => [0]
  | .emit r => [1, r.length, natOfBytes r]

/-- The contents of the sections of Table 18.6, in its order; the audit sequence number is read last. -/
def State.resyncSections (s : State) : List (List Nat) :=
  [s.ctxs.flatMap (fun c => [c.1, c.2.state.report, c.2.asid, c.2.gen, c.2.part.length] ++ c.2.part),
   s.nodes.flatMap (fun n => [n.1, n.2.records.length, n.2.nextSeq] ++ n.2.learned.toList),
   s.wgs.flatMap (fun g => [g.2.task.toNat, g.1.core]) ++ s.ctxs.flatMap (fun c => c.2.saved.flatMap (fun v => [v.wg.task.toNat, v.from_.core])),
   s.copies.flatMap (fun c => [0, c.id, (((s.wgs.find c.wg).map Workgroup.task).getD 0).toNat]) ++
     s.ctxs.flatMap (fun k => k.2.saved.flatMap (fun v => v.copies.flatMap (fun c => [0, c.id, v.wg.task.toNat]))) ++ s.prefetches.flatMap (fun f => [1, f.id, f.task.toNat]) ++
     s.fabric.xfers.flatMap (fun (x : Xfer) => [2, x.id, x.task.toNat]),
   s.targets.flatMap (fun t => [t.pa, t.ctx, t.target.toNat] ++ t.act.nums),
   s.doms.flatMap (fun d => Domain.nums d.dom ++ [d.soft, if d.fenced || d.quiesced then 1 else 0]) ++ s.homeTable,
   s.ctxs.flatMap (fun c => [c.1, c.2.faults.entries.length, c.2.faults.next, c.2.faults.overflow, c.2.errors.entries.length, c.2.errors.next,
     c.2.errors.overflow]),
   [s.trust.auditNext]]

/-- RESYNC (R344): the header and the sections, or the header alone in a buffer that is too small; RESULT0 is the length. -/
def execResync (tag : Nat) (buf len : Nat) (s : State) : Out :=
  asMgmt s tag noCtx (fun s =>
    if !s.bufferOk buf len then s.invalid tag
    else
      let secs := ((upto 8).zip s.resyncSections).map (fun p => Config.resyncSection p.1 p.2)
      let hdr := Config.resyncHeader (secs.map List.length)
      let all := hdr ++ secs.flatten
      let out := if all.length ≤ len then all else hdr.take len
      (s.setPhysBytes buf out).complete tag 0 0 (BitVec.ofNat 64 all.length) [])

/-! ### Debug stops (R392) -/

/-- STOP (R392): refused unless the debug port is open. -/
def execStop (tag : Nat) (node : Nat) (set : Bool) (s : State) : Out :=
  asMgmt s tag noCtx (fun s =>
    if !s.trust.debugOpen then s.refuse tag 3
    else if (s.nodes.find node).isNone then s.invalid tag
    else State.accepted { s with nodes := s.nodes.adjust node (fun n => { n with stopSet := set }) } tag)

/-- The identity of a workgroup held at admission; its CORE is written as zero (log 35). -/
def State.heldId (s : State) (node seq : Nat) : W64 := taskId (((s.nodes.find node).map Node.ctx).getD 0) seq 0 node

/-- CONTINUE (R392): a halted task, resident, saved or held at admission, goes on. -/
def execContinueTask (tag : Nat) (task : W64) (s : State) : Out :=
  asMgmt s tag noCtx (fun s =>
    let go (h : Hold) : Hold := match h with | .halted => .continued | h => h
    let wgHit (g : Workgroup) : Bool := decide (g.task = task) && decide (g.hold = .halted)
    let lHit (l : Launched) : Bool := decide (l.hold = .halted) && decide (s.heldId l.node l.seq = task)
    let gHit (g : Grid) : Bool := decide (g.hold = .halted) &&
      (match g.head with | some i => decide (s.heldId g.node ((g.first + i) % 2 ^ 32) = task) | none => false)
    let hit := s.wgs.any (fun g => wgHit g.2) || s.ctxs.any (fun c => c.2.saved.any (fun v => wgHit v.wg)) || s.launched.any (fun l => lHit l.2) ||
      s.grids.any (fun g => gHit g.2)
    if !hit then s.invalid tag
    else
      State.accepted { s with
        wgs := s.wgs.map (fun (p : WgId × Workgroup) => if wgHit p.2 then (p.1, { p.2 with hold := go p.2.hold }) else p)
        ctxs := s.ctxs.map (fun (p : Nat × Ctx) => (p.1, { p.2 with saved := p.2.saved.map (fun (v : SavedWg) =>
          if wgHit v.wg then { v with wg := { v.wg with hold := go v.wg.hold } } else v) }))
        launched := s.launched.map (fun (p : Nat × Launched) => if lHit p.2 then (p.1, { p.2 with hold := go p.2.hold }) else p)
        grids := s.grids.map (fun (p : Nat × Grid) => if gHit p.2 then (p.1, { p.2 with hold := go p.2.hold }) else p) } tag)

end Sys2Proof.Machine
end

