-- ==== Sys2Proof/Machine/Power.lean ====
section
/-!
DEFINITION. Machine/Power.lean: bring-up (R400, R368, R369, Table 25.5), reset, and power and temperature (R402, R403).
-/
namespace Sys2Proof.Machine
open Sys2Proof

/-! ### Bring-up (Table 25.5) -/

/-- The platform registers at a bring-up step. -/
def State.atStage (s : State) (n : Nat) : State := { s with plat := { s.plat with stage := n } }

/-- A step fails: bring-up stops with STAGE and FAILCHK naming the failure (R368, R400). -/
def State.bootFails (s : State) (chk : Nat) : State := { s with plat := { s.plat with failChk := chk } }

/-- Step 1: the TC reads the fuses, extends MEAS0 and writes the BOOT entry (R369, R375). -/
def State.bootFuses (s : State) : State :=
  let t := s.trust
  let now := [t.lifecycle.code, t.version, if t.debugOpen then 1 else 0]
  let s := { s with trust := t.extend 0 (bytesOfNat 48 (Config.measured 0 now).toNat) }
  s.audit .boot noCtx (sha384 (bytesOfNat 32 Config.identity.toNat ++ (s.trust.meas[0]?).getD []))

/-- The firmware stages run: the fabric has what management firmware assigns (R345, R346, R349, R357). -/
def State.assignFabric (s : State) : State :=
  { s with fabric := { s.fabric with
      device := Config.fabricDevice % 4096
      peers := Config.fabricPeers
      paths := Config.fabricPaths
      groups := Config.fabricGroups.map (fun g => ⟨g.1, g.2⟩) } }

/-- The check of a firmware stage as a code of FAILCHK, 0 for a stage that is accepted (R368, Table 25.4). -/
def Trust.stageCheck (t : Trust) (k : Nat) : Nat :=
  if !Config.ecdsaOk Config.ecdsaRoot k then 1
  else if !Config.lmsOk Config.lmsRoot k then 2
  else if Config.stageVersion k < t.version then 3
  else 0

/-- Step 2: firmware stage k, 1 to 4, is checked, measured and started (R368, R369); a higher version burns the fused one up to it. -/
def State.bootFirmware (s : State) (k : Nat) : State :=
  let chk := s.trust.stageCheck k
  if chk ≠ 0 then s.bootFails chk
  else
    let t := s.trust.extend k (bytesOfNat 48 (Config.measured k [Config.stageVersion k]).toNat)
    let s := { s with trust := { t with bootStage := k, secVersion := t.secVersion ||| thermometer (Config.stageVersion k) } }
    if k = 4 then s.assignFabric else s

/-- The tier cache, the overflow region and the TC's region lie in HBM4E without overlap (R96). -/
def Platform.regionsOk (p : Platform) : Bool :=
  p.regions.all (fun r => r.2 = 0 || decide (r.1 + r.2 ≤ tcBase)) &&
  (match p.regions with
   | [a, b] => !rangesMeet a.1 a.2 b.1 b.2
   | _ => true)

/-- One step of bring-up (R400); nothing once a step has failed or the device is ready. -/
def State.bringUp (s : State) : State :=
  let p := s.plat
  if p.ready || p.failChk ≠ 0 then s
  else
    match p.stage with
    | 0 => (s.atStage 1).bootFuses
    | 1 => s.atStage 2
    | 2 => if s.trust.bootStage < 4 then s.bootFirmware (s.trust.bootStage + 1) else s.atStage 3
    | 3 => if Config.trainingOk then s.atStage 4 else s.bootFails 4
    | 4 => { s.atStage 5 with pledans := s.pledans.map (fun (p : Pledan) => { p with lastBeat := s.clock }) }
    | 5 =>
      if p.regionsOk then
        let s := { s with trust := s.trust.extend 5 (bytesOfNat 48 (Config.measured 5 s.homeTable).toNat) }
        { s.atStage 6 with plat := { s.plat with ready := true, stage := 6 } }
      else s.bootFails 5
    | _ => s

/-! ### Reset and power (R367, R402) -/

/-- The device after a reset or with power removed: all state is lost but the fuses, into which a lifecycle transition is burnt, the
attached capacity of the CXL ports, and the model's own schedule and counters (log 33). -/
def State.restart (s : State) (p : PState) : State :=
  { State.reset with
    moves := s.moves
    free := s.free
    serial := s.serial
    trust := { Trust.reset with lifecycle := s.trust.nextLife.getD s.trust.lifecycle, secVersion := s.trust.secVersion, boots := s.trust.boots + 1 }
    plat := { Platform.reset with ports := s.plat.ports, pstate := p } }

/-- RESET (R400): bring-up begins. -/
def execReset (s : State) : Out := .next (s.restart .active)

/-- POWER_OFF (R402). -/
def execPowerOff (s : State) : Out := .next (s.restart .off)

/-- Nothing is resident or outstanding and no Rinse step is due (R402). -/
def State.idle (s : State) : Bool :=
  s.wgs.isEmpty && s.copies.isEmpty && s.prefetches.isEmpty && s.fabric.xfers.isEmpty && s.ueGets.isEmpty &&
  s.cores.all (fun c => c.2.mqueue.isEmpty) && !s.rinsing

/-- IDLE_ENTER (R402): core clocks are gated. -/
def execIdleEnter (s : State) : Out :=
  .next (match s.plat.pstate with
    | .active => if s.plat.ready && s.plat.idleEn && s.idle then { s with plat := { s.plat with pstate := .idle } } else s
    | _ => s)

/-- THERMAL_TRIP (R403): TRIP, THERMAL, and no admission. -/
def execThermalTrip (s : State) : Out :=
  .next (match s.plat.pstate with
    | .active => { s with plat := { s.plat with trip := true, pstate := .thermal, tripAt := some s.clock } }
    | .idle => { s with plat := { s.plat with trip := true, pstate := .thermal, tripAt := some s.clock } }
    | _ => s)

/-- THERMAL_RECOVER (R403): at 95 degrees or below PSTATE is ACTIVE again; TRIP stays. -/
def execThermalRecover (s : State) : Out :=
  .next (match s.plat.pstate with
    | .thermal => if s.plat.stopping then s else { s with plat := { s.plat with pstate := .active, tripAt := none } }
    | _ => s)

/-- THERMAL_SHUTDOWN (R403): 2^21 clocks after the trip every context is pre-empted, and then all clocks stop. -/
def execThermalShutdown (s : State) : Out :=
  .next (match s.plat.pstate, s.plat.tripAt with
    | .thermal, some t =>
      if s.clock < t + 2 ^ 21 then s
      else
        let s := s.ctxs.foldl (fun s p => match s.ctxs.find p.1 with
          | some c => if s.canSave p.1 c then s.beginSave p.1 else s
          | none => s) s
        { s with plat := { s.plat with stopping := true } }
    | _, _ => s)

/-- The clocks stop once every pre-empted context is saved (R403). -/
def State.stopClocks (s : State) : State :=
  if s.plat.stopping && s.ctxs.all (fun c => c.2.state ≠ .saving) then { s with plat := { s.plat with pstate := .stopped, stopping := false } } else s

end Sys2Proof.Machine
end

