-- ==== Sys2Proof/Machine/Fetch.lean ====
section
/-!
DEFINITION. Machine/Fetch.lean: fetching the words of the issuing fragment's instruction (R92, R148, R149, R157): translation with
permission X, the page's service (R341), and the words at their places.
-/
namespace Sys2Proof.Machine
open Sys2Proof

/-- The outcome of a fetch: what was fetched, a wait (a stall, R38), or a page that gives no permission, with the failing address. -/
inductive Fetched (α : Type) where
  | ok (x : α)
  | stall
  | fail (va : W64)

/-- The word at a local physical address, as L2 or a device register holds it (log 40). -/
def State.wordAt (s : State) (pa : Nat) : W32 :=
  let b (i : Nat) : Byte := if isReg pa then s.regByte (pa + i - regBase) else s.physByte (pa + i)
  wordOf (b 0) (b 1) (b 2) (b 3)

/-- The word of another device's line that this device holds. -/
def Fabric.wordAt (f : Fabric) (dev pa : Nat) : W32 :=
  let b (i : Nat) : Byte := f.data.get (remKey dev pa + i)
  wordOf (b 0) (b 1) (b 2) (b 3)

/-- Keep a line in a core's instruction cache of 512 lines (128 KiB, Table 1.4); the oldest of a full one leaves (log 40). -/
def State.icFill (s : State) (core line : Nat) : State :=
  s.updCore core (fun c => if c.icache.contains line then c else { c with icache := c.icache.drop (c.icache.length + 1 - 512) ++ [line] })

/-- Fetch a local word: from the core's instruction cache, else through L2, where a miss is a request like any other (R112, R117). -/
def State.fetchLocal (s : State) (m : Me) (attr : Attr) (pa : Nat) : State × Fetched W32 :=
  let s := s.fetchTier pa
  if isReg pa || attr = .dev then (s, .ok (s.wordAt pa))
  else if !s.served pa then (s, .stall)
  else if (s.core m.core).icache.contains (pa / 256) then (s, .ok (s.wordAt pa))
  else if !s.here m.core (.phys .coh pa) then (s.askLine m.core m.sid.wg.slot pa, .stall)
  else
    let s := (s.cacheByte m.core (.phys .coh pa)).icFill m.core (pa / 256)
    (s, .ok (s.wordAt pa))

/-- Fetch a word at a place; a COHF line is held as a reader first (R360, R361; log 41). -/
def State.fetchAt (s : State) (m : Me) (va : W64) (l : Loc) : State × Fetched W32 :=
  let lines := s.linesOf false [[l]]
  if lines.any s.lost then (s, .fail va)
  else if !s.linesReady lines then (s.askLines m.wg.ctx lines, .stall)
  else
    match l with
    | .remote _ dev pa => (s.icFill m.core (remLine dev pa), .ok (s.fabric.wordAt dev pa))
    | .phys attr pa => s.fetchLocal m attr pa
    | _ => (s, .stall)

/-- Fetch one word for the issuing fragment. -/
def State.fetchWord (s : State) (m : Me) (va : W64) : State × Fetched W32 :=
  let j := Joiner.inst m.sid m.f.born
  if s.failed j va then (s.unfail j, .fail va)
  else if s.waitsPage j va then (s, .stall)
  else
    match s.accessPage m.core m.wg.ctx va .fetch with
    | (s, .fail) => (s, .fail va)
    | (s, .service) => (s.request m.wg.ctx va .fetch j, .stall)
    | (s, .busy) => (s, .stall)
    | (s, .ok l) =>
      match l.dev with
      | some d => if l.attr = .dev then (s, .fail va) else s.fetchAt m va (.remote l.attr d (l.pa va))
      | none => s.fetchAt m va (.phys l.attr (l.pa va))

/-- The words fetched so far need another (R148, R149, R157): `at4` says that the first stands at an address ≡ 4 mod 8. -/
def moreWords (at4 : Bool) : List W32 → Bool
  | [] => true
  | [w] => if isPfx w then !at4 else isLong w
  | [p, w] => isPfx p && isMain w && isLong w
  | _ => false

/-- The instruction's address is ≡ 4 mod 8. -/
def Me.at4 (m : Me) : Bool := m.pc.getLsbD 2

/-- Fetch the words after those fetched so far; `n` bounds how many. -/
def State.fetchFrom (s : State) (m : Me) : Nat → List W32 → State × Fetched (List W32)
  | 0, ws => (s, .ok ws)
  | n + 1, ws =>
    if moreWords m.at4 ws then
      match s.fetchWord m (m.pc + BitVec.ofNat 64 (4 * ws.length)) with
      | (s, .ok w) => s.fetchFrom m n (ws ++ [w])
      | (s, .stall) => (s, .stall)
      | (s, .fail va) => (s, .fail va)
    else (s, .ok ws)

/-- Fetch the words of the issuing fragment's instruction. -/
def State.fetch (s : State) (m : Me) : State × Fetched (List W32) := s.fetchFrom m 3 []

/-- The instruction that fetched words decode to; none where there are too few, which a fetch never leaves. -/
def decodeFetched (at4 : Bool) (ws : List W32) : Option Instr :=
  match decode at4 (ws.flatMap wordBytes) with
  | .ok (i, _) => some i
  | .error _ => none

/-- The main word of fetched words: the one after a prefix. -/
def mainWord : List W32 → W32
  | [] => 0
  | [w] => w
  | w :: v :: _ => if isPfx w then v else w

/-- MAP and the opcode of an instruction word (R148). -/
def opcodeOf (w : W32) : Bool × Nat :=
  if isLong w then (bitAt 29 w, (fld 8 21 w).toNat) else (bitAt 30 w && !isPfx w, if isPfx w then 0 else (fld 8 22 w).toNat)

end Sys2Proof.Machine
end

