-- ==== Sys2Proof/Machine/Load.lean ====
section
/-!
DEFINITION. Machine/Load.lean: the state with one instruction loaded where a lane issues next: a context on core 0 whose one workgroup has
one strand, of the slice that may run the instruction, at a page that holds it (log 43).
-/
namespace Sys2Proof.Machine
open Sys2Proof

/-- The virtual and physical address of the loaded instruction. -/
def loadAt : Nat := 0x10000

/-- The slice that may run an opcode: execute for the opcodes that Tables 9.8 and 9.9 give it alone, else access. -/
def sliceOf (second : Bool) (op : Nat) : Slice :=
  if second then (if op = 0x61 then .execute else .access)
  else if decide (0x40 ≤ op) && decide (op < 0x70) || op = 0x78 || op = 0x79 then .execute else .access

/-- The words of bits numbered as the opcode table numbers them. -/
def loadWords (nbits w : Nat) : List W32 :=
  let x := w % 2 ^ nbits
  [BitVec.ofNat 32 x, BitVec.ofNat 32 (x / 2 ^ 32), BitVec.ofNat 32 (x / 2 ^ 64)]

/-- The slice of the loaded instruction. -/
def loadSlice (nbits w : Nat) : Slice :=
  let op := opcodeOf (mainWord (loadWords nbits w))
  sliceOf op.1 op.2

/-- The workgroup's place. -/
def loadWg : WgId := ⟨0, 0⟩

/-- A node whose descriptor is all zero. -/
def loadNode : Node :=
  { desc := [], ctx := 0, nextSeq := 0, records := [], timerFrom := none, learned := none, measured := 0, measDone := 0, bestMeas := 0,
    stopSet := false, closing := none }

/-- The workgroup that runs the instruction: one strand of a slice, every v register and tile, and 16 KiB of shared memory. -/
def loadGroup (sl : Slice) : Workgroup :=
  { loadNode.workgroup 0 0 { seq := 0, records := [], grid := none, dims := (1, 1, 1), coords := (0, 0, 0), depth := 0, parent := none,
                             placed := false } with
    na := (match sl with | .access => 1 | .execute => 0)
    ne := (match sl with | .access => 0 | .execute => 1)
    vregs := 64
    acc := 32
    size := 0x4000 }

/-- The page of the instruction: readable, writable and executable. -/
def loadPage : Tlb :=
  { asid := 0, gen := 0, vpn := loadAt / 4096, size := 12,
    pte := Leaf.pte { size := 12, base := loadAt, dev := none, attr := .rsh, r := true, w := true, x := true, a := true } }

/-- The context that holds core 0. -/
def loadCtx : Ctx :=
  { desc := List.replicate 16 0, gen := 0, key := 1, keyVer := (0, none), part := [0], state := .active, stopAt := none,
    faults := ⟨[], 0, 0⟩, errors := ⟨[], 0, 0⟩, saved := [], pipes := [], watches := [], rewatched := [], pending := [] }

/-- Load an instruction. -/
def State.loadWord (s : State) (nbits w : Nat) : State :=
  let sl := loadSlice nbits w
  let sid : StrandId := ⟨loadWg, sl, 0⟩
  let lane : Lane := ⟨some (sid, 0), 0, 0⟩
  let s := s.setPhysBytes loadAt (natBytes 12 (w % 2 ^ nbits))
  let s := s.updCore 0 (fun c => { c with
    ctx := some 0
    tlb := loadPage :: c.tlb
    icache := [loadAt / 256]
    lanesA := (match sl with | .access => c.lanesA.put 0 lane | .execute => c.lanesA)
    lanesE := (match sl with | .access => c.lanesE | .execute => c.lanesE.put 0 lane) })
  { s with
    ctxs := s.ctxs.put 0 loadCtx
    wgs := s.wgs.put loadWg (loadGroup sl)
    strands := s.strands.put sid (startStrand sl (BitVec.ofNat 64 loadAt) 0 0 false)
    plat := { s.plat with pstate := .active }
    moves := .issue 0 (decide (sl = .access)) 0 :: s.moves }

end Sys2Proof.Machine
end

