-- ==== Sys2Proof/Machine/Message.lean ====
section
/-!
DEFINITION. Machine/Message.lean: management commands and completions as the host sends and receives them (R401, Tables 25.6 and 25.7).
-/
namespace Sys2Proof.Machine
open Sys2Proof

/-- The command of an opcode with its payload (Table 25.7); none where the opcode is reserved, the length is not the table's, or a reserved byte
is not zero (R401). -/
def mgmtCommand (tag opc ctx : Nat) (p : List Byte) : Option (State → Out) :=
  let at_ (i n : Nat) : Nat := natOfBytes ((p.drop i).take n)
  let words (i n : Nat) : List W64 := (upto n).map (fun k => BitVec.ofNat 64 (at_ (i + 8 * k) 8))
  let row (len : Nat) (ok : Bool) (f : State → Out) : Option (State → Out) := if p.length = len && ok then some f else none
  match opc with
  | 0x01 => row 264 (at_ 2 6 = 0) (execNodeReg tag ctx (at_ 0 2) (words 8 32))
  | 0x02 => row 8 (at_ 2 6 = 0) (execNodeUnreg tag ctx (at_ 0 2))
  | 0x10 => row 128 true (execCtxCreate tag ctx (words 0 16))
  | 0x11 => row 0 true (execCtxRelease tag ctx)
  | 0x12 => row 16 true (execFrameAssign tag ctx (at_ 0 8) (at_ 8 8))
  | 0x20 => row 0 true (execPreempt tag ctx)
  | 0x21 => row 32 (at_ 28 4 = 0) (execResume tag ctx ((upto 224).filter (fun n => at_ 0 32 / 2 ^ n % 2 = 1)))
  | 0x30 => row 16 true (execResync tag (at_ 0 8) (at_ 8 8))
  | 0x31 => row 64 true (execAttest tag (p.take 48) (at_ 48 8) (at_ 56 8))
  | 0x32 => row 8 true (execPerfRead tag ctx (at_ 0 8))
  | 0x33 => row 32 true (execLogRead tag ctx (at_ 0 8) (at_ 8 8) (at_ 16 8) (at_ 24 8))
  | 0x40 => row 16 true (execLifecycle tag (at_ 0 8) (at_ 8 8))
  | 0x41 => row 0 true (execUnlockNonce tag)
  | 0x42 => row 16 true (execUnlock tag (at_ 0 8) (at_ 8 8))
  | 0x50 => row 8 (at_ 2 1 < 2 && at_ 3 5 = 0) (execStop tag (at_ 0 2) (at_ 2 1 = 1))
  | 0x51 => row 8 true (execContinueTask tag (w64OfBytes p))
  | 0x52 => row 16 true (execEvlogRead tag ctx (at_ 0 8) (at_ 8 8))
  | _ => none

/-- A command that is none of Table 25.7 completes as invalid, READY or not, in its turn among those of the context that it names (R398, R401;
log 99). -/
def State.badMessage (s : State) (tag ctx : Nat) : State :=
  let s := s.wake
  State.invalid (if ctx = noCtx then s else { s with cmds := s.cmds ++ [⟨ctx, tag, none⟩] }) tag

/-- A message of the MGMT class arrives: a header of 16 bytes and a payload (Table 25.6). One without a whole header is no command. -/
def State.message (s : State) (bs : List Byte) : Out :=
  let at_ (i n : Nat) : Nat := natOfBytes ((bs.drop i).take n)
  if bs.length < 16 || decide (512 < bs.length) then .next s
  else
    match (if at_ 6 2 + 16 = bs.length && at_ 8 8 = 0 then mgmtCommand (at_ 0 2) (at_ 2 2) (at_ 4 2) (bs.drop 16) else none) with
    | some f => f s
    | none => .next (s.badMessage (at_ 0 2) (at_ 4 2))

/-- The bytes of a completion message (Table 25.6); other messages have no layout in the spec. -/
def OutMsg.completion : OutMsg → Option (List Byte)
  | .complete tag status detail r0 bs =>
    some (bytesOfNat 2 tag ++ bytesOfNat 2 status ++ bytesOfNat 2 detail ++ bytesOfNat 2 bs.length ++ w64Bytes r0 ++ bs)
  | _ => none

end Sys2Proof.Machine
end

