-- ==== Sys2Proof/Machine/Atomic.lean ====
section
/-!
DEFINITION. Machine/Atomic.lean: ATOM, ATOMF, LDA and STREL (R283 to R286).
-/
namespace Sys2Proof.Machine
open Sys2Proof

/-- An ordered access (R283): access-only, uniform, its element size fixed by W64, every element aligned. With no active thread it
accesses nothing, but one that both acquires and releases still waits for what it orders. -/
def runOrdered (a : Ask) (bf : Nat) (size : Nat) (regs : List Nat) (xi xv xc : Nat) (s : State) : Out :=
  asStrand s (fun m =>
    if !m.access then s.raise m .illegal
    else if s.xBusy m.sid regs then s
    else if m.em = 0 then
      let b := s.bufRec m bf
      let tag := some (bf, b.tag)
      if b.bad (fun n => n = size) then s.trap m { code := .bfInvalid, bf := tag }
      else if a.kind.isStore && b.ro then s.trap m { code := .pageProt, bf := tag }
      else if a.acq && a.rel && !s.allPrior m then s
      else s.advance m 8
    else
      s.recAccess m bf (fun n => n = size) true (m.st.xGet xi) (m.st.xGet xv) (m.st.xGet xc) a (fun s => s.advance m 8))

/-- The path of an atomic (Table 15.2). -/
def atomPath (fetch : Bool) : Path := if fetch then .ldg else .sto

/-- ATOM (R284). -/
def execAtom (o : AtomF) (s : State) : Out :=
  let xd : Option Nat := if o.fetch then some o.xd.toNat else none
  let a : Ask := { ask (.atom o.op o.uns xd) .atomic (atomPath o.fetch) .a with acq := o.acq, rel := o.rel }
  runOrdered a o.bf.toNat (if o.w64 then 8 else 4)
    ([o.xi.toNat, o.xv.toNat] ++ xd.toList ++ (if o.op = .cas then [o.xc.toNat] else [])) o.xi.toNat o.xv.toNat o.xc.toNat s

/-- ATOMF (R285). -/
def execAtomf (o : AtomFF) (s : State) : Out :=
  let xd : Option Nat := if o.fetch then some o.xd.toNat else none
  let a : Ask := { ask (.atomf o.op o.bf16 xd) .atomic (atomPath o.fetch) .a with acq := o.acq, rel := o.rel }
  runOrdered a o.bf.toNat 4 ([o.xi.toNat, o.xv.toNat] ++ xd.toList) o.xi.toNat o.xv.toNat 0 s

/-- LDA (R286): the scope bounds only whom it synchronises with (R130), which one device's order does not show. -/
def execLda (_scope : Scope) (bf : BitVec 6) (w64 uns : Bool) (xd xi : BitVec 5) (s : State) : Out :=
  runOrdered { ask (.load xd.toNat (!uns)) .read .ldg .r with acq := true } bf.toNat (if w64 then 8 else 4)
    [xd.toNat, xi.toNat] xi.toNat 0 0 s

/-- STREL (R286). -/
def execStrel (_scope : Scope) (bf : BitVec 6) (w64 : Bool) (xi xv : BitVec 5) (s : State) : Out :=
  runOrdered { ask .store .write .sto .w with rel := true } bf.toNat (if w64 then 8 else 4)
    [xi.toNat, xv.toNat] xi.toNat xv.toNat 0 s

end Sys2Proof.Machine
end

