-- ==== Sys2Proof/Machine/Bulk.lean ====
section
/-!
DEFINITION. Machine/Bulk.lean: queue loads and stores from store queues (R214 to R216, R219 to R226, R230): LDQ, GATHERQ, LDQB, NZSCAN,
LDSQ, STQ, SCATQ and STSQ.
-/
namespace Sys2Proof.Machine
open Sys2Proof

/-! ### Queues of access instructions -/

/-- A queue is an sq. -/
def Me.isSq (m : Me) (n : Nat) : Bool := match m.queue n with | some q => decide (q.decl.kind = .sq) | none => false

/-- The frame of a queue load or a store from a queue: every queue named is declared, its channel exists, and the strand stands at
the right end, of an sq where it is a store (R48, R52, R214, R225). -/
def asQueue (len : Nat) (regs qs : List Nat) (push : Bool) (ch : Option Nat) (s : State) (k : Me → State) : Out :=
  asAccess true len regs s (fun m =>
    if !m.declared qs || qs.any (fun n => match m.queue n, ch with | some q, some c => decide (q.chans.length ≤ c) | _, _ => false) then
      s.raise m .illegal
    else if !(if push then m.directionOk [] qs else m.directionOk qs [] && qs.all m.isSq) then s.raise m .queueDirection
    else k m)

/-- The channel that CHV and CH name, if any (R211). -/
def chanNum (c : Chan) : Option Nat := if c.chv then some c.ch.toNat else none

/-- The channel of a push: the one named, or the strand's default (R48, R211). -/
def Me.pushChan (m : Me) (q : Nat) (ch : Option Nat) : Nat :=
  match m.queue q with
  | some qu => ch.getD (qu.channel m.sid.idx)
  | none => 0

/-- Free entries of a channel of the strand's workgroup. -/
def State.roomOf (s : State) (w : WgId) (q ch : Nat) : Nat :=
  match (s.wgs.find w).bind (fun g => g.queues.find q) with
  | some qu => qu.room ch
  | none => 0

/-- Append an entry to a channel: pending, filled or POISON (R56). -/
def State.reserve (s : State) (m : Me) (q ch : Nat) (words : List W32) (tag : BitVec 2) (pend : Option Pend) (poison : Option FaultRec) : State :=
  match (s.wgs.find m.sid.wg).bind (fun g => g.queues.find q) with
  | none => s
  | some qu =>
    let e : QEntry := { id := s.serial, tag := tag, words := words, pend := pend, poison := poison, taken := [] }
    (({ s with serial := s.serial + 1 }).putQueue m.sid.wg q (qu.push ch [e])).sweepQueue m.sid.wg q

/-- The originating request of an entry. -/
def State.pendOf (s : State) (m : Me) (bf : Nat) (tag : BitVec 16) (mark : Bool) (fs : List Fetch) : Pend :=
  { strand := m.sid, line := m.line, pc := m.pc, bf := some bf, bfTag := tag, mark := mark, fetches := fs, ue := false, list := none,
    wide := false, splat := false, hi := none, lo := none, deps := s.readDeps m.sid m.line s.serial fs, lines := [], buf := [] }

/-- Reserve an entry that is POISON at once (R57). -/
def State.reservePoison (s : State) (m : Me) (q ch : Nat) (p : Pend) (cause : TrapCode) (va : W64) (mask : TMask) : State :=
  s.reserve m q ch zeroWords 3 none (some (poisonRec m.wg p cause.num va mask))

/-- A queue load's element that a comparator matches: every check of R104 has passed for the entry (R383). -/
def State.entryWatch (s : State) (m : Me) (fs : List Fetch) : Option Trap :=
  let hit := fs.filter (fun f => s.watched m.core .r f.va f.size)
  if hit.isEmpty || m.st.watchSkip then none
  else
    let bad := fs.any (fun f => match s.elemPages m.core m.wg.ctx (.inst m.sid m.f.born) f.va f.size .read with
      | (_, .fail, _) => true
      | (_, _, .fail) => true
      | (_, .ok l, .ok r) => !devOk l r f.va f.size
      | _ => false)
    if bad then none
    else some { code := .watch, mask := some (maskOf (fun t => hit.any (fun f => f.word = t))), va := (hit.head?.map Fetch.va).getD 0,
                comps := s.compsOf m.core .r (hit.map (fun f => (f.va, f.size))) }

/-! ### LDQ and GATHERQ by thread (R219, R221) -/

/-- The entries that one record access of a queue load makes: for 8-byte elements two, which are filled together from one read (R123, R219). -/
def runLdq (len : Nat) (q : BitVec 4) (idx : Sel) (bf : BitVec 6) (mk sx : Bool) (ch : Chan) (s : State) : Out :=
  asQueue len (xRegs [idx]) [q.toNat] true (chanNum ch) s (fun m =>
    let b := s.bufRec m bf.toNat
    let c := m.pushChan q.toNat (chanNum ch)
    let n := if b.ecode = 3 then 2 else 1
    if s.acqHeld m then s
    else if s.roomOf m.sid.wg q.toNat c < n then s.block m (.queues [] [(q.toNat, c, n)])
    else
      let ts := TMask.list m.em
      let addr (t : Nat) : W64 := b.addr (m.val64 0 idx t)
      let ins := ts.filter (fun t => b.inBounds (m.val64 0 idx t))
      let outs := ts.filter (fun t => !b.inBounds (m.val64 0 idx t))
      let fs : List Fetch := ins.map (fun t => { word := t, va := addr t, size := b.esize, sx := sx })
      let last (k : Nat) : Bool := mk && k + 1 = n
      let p (k : Nat) : Pend :=
        { s.pendOf m bf.toNat b.tag (last k) (if k = 0 then fs else []) with
          hi := if n = 2 && k = 0 then some (s.serial + 1) else none, lo := if k = 1 then some s.serial else none }
      if b.bad sizes1248 then
        ((upto n).foldl (fun s k => s.reservePoison m q.toNat c (p k) .bfInvalid 0 m.em) s).done m true len
      else if !b.oobz && !outs.isEmpty then
        ((upto n).foldl (fun s k => s.reservePoison m q.toNat c (p k) .bounds (addr (outs.headD 0)) (maskOf (fun t => outs.contains t))) s).done m true len
      else
        match s.entryWatch m fs with
        | some t => s.trap m { t with bf := some (bf.toNat, b.tag) }
        | none => ((upto n).foldl (fun s k => s.reserve m q.toNat c zeroWords 0 (some (p k)) none) s).done m true len)

def execLdq (p : Option Pfx) (q : BitVec 4) (idx : Sel) (sx : Bool) (bf : BitVec 6) (ch : Chan) (s : State) : Out :=
  runLdq (pfxLen p 8) q idx bf false sx ch s
def execGatherq (p : Option Pfx) (q : BitVec 4) (idx : Sel) (bf : BitVec 6) (mk sx : Bool) (ch : Chan) (s : State) : Out :=
  runLdq (pfxLen p 8) q idx bf mk sx ch s

/-! ### Bulk loads (R214, R220, R222, R230) -/

/-- The entries of a bulk instruction that are left, in succession: `one` makes entry e of `total`. -/
def bulk (total : Nat) (one : State → Me → Nat → Iter) : Nat → State → Iter
  | 0, s => .more s
  | n + 1, s =>
    match s.me with
    | none => .stop s
    | some m =>
      match one s m (total - (n + 1)) with
      | .stop s => .stop s
      | .more s => bulk total one n s

/-- How many entries of a bulk instruction are left: RC where it has begun (R214). -/
def Me.bulkLeft (m : Me) (total : Nat) : Nat := if 0 < m.f.rc then min m.f.rc total else total

/-- Run a bulk instruction to its end, its block or its trap. -/
def State.runBulk (s : State) (m : Me) (len total : Nat) (one : State → Me → Nat → Iter) : State :=
  match bulk total one (m.bulkLeft total) s with
  | .stop s => s
  | .more s => s.done m true len

/-- Block a bulk push with entries left (R214). -/
def State.blockBulk (s : State) (m : Me) (left : Nat) (w : Wait) : Iter := .stop ((s.setRc m left).block m w)

/-- Reserve an entry of a bulk load: it traps where a comparator matches, earlier entries staying reserved (R383). -/
def State.bulkEntry (s : State) (m : Me) (q ch left : Nat) (p : Pend) (fs : List Fetch) : Iter :=
  match s.entryWatch m fs with
  | some t => .stop ((s.setRc m left).trap m { t with bf := p.bf.map (fun b => (b, p.bfTag)) })
  | none => .more (s.reserve m q ch zeroWords 0 (some p) none)

/-- ESIZE 1, 2 or 4. -/
def sizes124 (n : Nat) : Bool := n = 1 || n = 2 || n = 4

/-- Entry e of an LDQB (R220): a splat's one element is read once. -/
def ldqbEntry (o : LdqbF) (total : Nat) (start : W64) (s : State) (m : Me) (e : Nat) : Iter :=
  let q := o.q.toNat
  let c := m.pushChan q (chanNum o.ch)
  let left := total - e
  if s.acqHeld m then .stop (s.setRc m left)
  else if s.roomOf m.sid.wg q c < 1 then s.blockBulk m left (.queues [] [(q, c, 1)])
  else
    let b := s.bufRec m o.bf.toNat
    let pos (w : Nat) : W64 := start + BitVec.ofNat 64 (if o.splat then e else 8 * e + w)
    let ins := threads.filter (fun w => b.inBounds (pos w))
    let outs := threads.filter (fun w => !b.inBounds (pos w))
    let all : List Fetch := ins.map (fun w => { word := w, va := b.addr (pos w), size := b.esize, sx := o.sx })
    let fs := if o.splat then all.take 1 else all
    let p := { s.pendOf m o.bf.toNat b.tag (o.mark && e + 1 = total) fs with splat := o.splat }
    if b.bad sizes124 then .more (s.reservePoison m q c p .bfInvalid 0 0xFF)
    else if !b.oobz && !outs.isEmpty then
      .more (s.reservePoison m q c p .bounds (b.addr (pos (outs.headD 0))) (maskOf (fun t => outs.contains t)))
    else s.bulkEntry m q c left p fs

/-- LDQB. -/
def execLdqb (p : Option Pfx) (o : LdqbF) (s : State) : Out :=
  asQueue (pfxLen p 8) (xRegs [o.start, o.cnt]) [o.q.toNat] true (chanNum o.ch) s (fun m =>
    let n := (m.uni 0 o.cnt).toNat
    if 4096 < n then s.raise m .bounds
    else s.runBulk m (pfxLen p 8) n (ldqbEntry o n (m.uni 0 o.start)))

/-- Entry j of a list-form GATHERQ (R222). -/
def glistEntry (o : GlistF) (total : Nat) (pos : W64) (s : State) (m : Me) (j : Nat) : Iter :=
  let q := o.q.toNat
  let c := m.pushChan q (chanNum o.ch)
  let left := total - j
  if s.acqHeld m then .stop (s.setRc m left)
  else if s.roomOf m.sid.wg q c < 1 then s.blockBulk m left (.queues [] [(q, c, 1)])
  else
    let l := s.bufRec m o.bfl.toNat
    let d := s.bufRec m o.bf.toNat
    let i := pos + BitVec.ofNat 64 j
    let f : Fetch := { word := 0, va := l.addr i, size := l.esize, sx := false }
    let fs := if l.inBounds i then [f] else []
    let req : ListReq := { fetch := fs.head?, dbf := o.bf.toNat, dtag := d.tag, w0 := d.w0, w1 := d.w1, w2 := d.w2 }
    let p : Pend := { s.pendOf m o.bfl.toNat l.tag (o.mark && j + 1 = total) fs with list := some req, wide := true }
    let pd : Pend := { p with bf := some o.bf.toNat, bfTag := d.tag }
    if l.bad (fun n => n = 4 || n = 8) then .more (s.reservePoison m q c p .bfInvalid 0 0xFF)
    else if d.bad (fun n => n = 32) then .more (s.reservePoison m q c pd .bfInvalid 0 0xFF)
    else if !l.oobz && !l.inBounds i then .more (s.reservePoison m q c p .bounds (l.addr i) 0xFF)
    else s.bulkEntry m q c left p fs

/-- GATHERQ in its list form. -/
def execGatherqList (p : Option Pfx) (o : GlistF) (s : State) : Out :=
  asQueue (pfxLen p 8) (xRegs [o.pos, o.cnt]) [o.q.toNat] true (chanNum o.ch) s (fun m =>
    let n := (m.uni 0 o.cnt).toNat
    if 64 < n then s.raise m .bounds
    else s.runBulk m (pfxLen p 8) n (glistEntry o n (m.uni 0 o.pos)))

/-- ALIGN before BOUNDS for a range of 32-byte entries of shared memory (R230). -/
def Me.rangeTrap (m : Me) (off : W64) (n : Nat) : Option Trap :=
  if off.toNat % 4 ≠ 0 then some { code := .align_, va := off }
  else if !m.sharedOk off (32 * n) then some { code := .bounds, va := off }
  else none

/-- The words of a 32-byte entry of shared memory. -/
def State.sharedWords (s : State) (m : Me) (off : Nat) : State × List W32 :=
  let ls := (upto 32).map (fun i => m.sharedLoc (off + i))
  let (s, bs) := s.landingRead (ls.map some) (ls.map (fun l => s.readByte m.core l))
  (s, threads.map (fun t => BitVec.ofNat 32 (natOfBytes ((bs.drop (4 * t)).take 4))))

/-- Entry j of an LDSQ: it is filled as it issues, once what precedes it there has performed (R126, R230). -/
def ldsqEntry (q : Nat) (ch : Option Nat) (mk : Bool) (total off : Nat) (s : State) (m : Me) (j : Nat) : Iter :=
  let c := m.pushChan q ch
  let left := total - j
  if s.roomOf m.sid.wg q c < 1 then s.blockBulk m left (.queues [] [(q, c, 1)])
  else if !s.clear m false [m.sharedElem (BitVec.ofNat 64 (off + 32 * j)) 32 0 0 (fun _ => false) false] then .stop (s.setRc m left)
  else
    let (s, ws) := s.sharedWords m (off + 32 * j)
    .more (s.reserve m q c ws (if mk && j + 1 = total then 1 else 0) none none)

/-- LDSQ (R230). -/
def execLdsq (p : Option Pfx) (q : BitVec 4) (off : Sel) (mk : Bool) (n : BitVec 8) (ch : Chan) (s : State) : Out :=
  asQueue (pfxLen p 8) (xRegs [off]) [q.toNat] true (chanNum ch) s (fun m =>
    let total := n.toNat + 1
    match m.rangeTrap (m.uni 0 off) total with
    | some t => s.trap m t
    | none => s.runBulk m (pfxLen p 8) total (ldsqEntry q.toNat (chanNum ch) mk total (m.uni 0 off).toNat))

/-! ### Stores from store queues (R225, R226, R230) -/

/-- The thread's word, or pair of words, of popped entries. -/
def poppedVal (lo hi : List W32) (t : Nat) : W64 := (hi[t]?).getD 0 ++ (lo[t]?).getD 0

/-- STQ and SCATQ: pop, and store where the tag says so; a trap on the store pops nothing. -/
def runStq (len : Nat) (q : BitVec 4) (idx : Me → Nat → W64) (regs : List Nat) (bf : BitVec 6) (s : State) : Out :=
  asQueue len regs [q.toNat] false none s (fun m =>
    let n := if (s.bufRec m bf.toNat).ecode = 3 then 2 else 1
    match m.queue q.toNat with
    | none => s
    | some qu =>
      match s.popRes m.sid.wg m.sid.idx qu n with
      | .wait => s.block m (.queues [(q.toNat, n)] [])
      | .poison r => s.farFault m r
      | .ok lo hi tag taken =>
        let fin (s : State) : State := ((s.popTake m q.toNat taken).setQt m tag).done m true len
        if tag = 2 then fin s
        else s.recAccess m bf.toNat sizes1248 false (idx m) (poppedVal lo hi) (fun _ => 0) (ask .store .write .sto .w) fin)

def execStq (p : Option Pfx) (q : BitVec 4) (start : Sel) (bf : BitVec 6) (s : State) : Out :=
  runStq (pfxLen p 8) q (fun m t => m.uni 0 start + BitVec.ofNat 64 t) (xRegs [start]) bf s
def execScatq (p : Option Pfx) (q : BitVec 4) (idx : Sel) (bf : BitVec 6) (s : State) : Out :=
  runStq (pfxLen p 8) q (fun m t => m.val64 0 idx t) (xRegs [idx]) bf s

/-- Entry j of an STSQ: an entry is popped and its eight words stored; EOS ends the instruction (R226, R230). -/
def stsqEntry (q len total off : Nat) (s : State) (m : Me) (j : Nat) : Iter :=
  let left := total - j
  match m.queue q with
  | none => .stop s
  | some qu =>
    match s.popRes m.sid.wg m.sid.idx qu 1 with
    | .wait => s.blockBulk m left (.queues [(q, 1)] [])
    | .poison r => .stop ((s.setRc m left).farFault m r)
    | .ok lo _ tag taken =>
      if tag = 2 then .stop (((s.popTake m q taken).setQt m tag).done m true len)
      else if s.pathFull m.sid.wg .sto then .stop (s.setRc m left)
      else
        let es := threads.map (fun t => m.sharedElem (BitVec.ofNat 64 (off + 32 * j + 4 * t)) 4 t ((lo[t]?).getD 0 |>.setWidth 64) (fun _ => false) false)
        .more (((s.popTake m q taken).setQt m tag).listAcc m (ask .store .write .sto .w) (some .sto) es)

/-- STSQ (R230). -/
def execStsq (p : Option Pfx) (q : BitVec 4) (off : Sel) (n : BitVec 8) (s : State) : Out :=
  asQueue (pfxLen p 8) (xRegs [off]) [q.toNat] false none s (fun m =>
    let total := n.toNat + 1
    match m.rangeTrap (m.uni 0 off) total with
    | some t => s.trap m t
    | none => s.runBulk m (pfxLen p 8) total (stsqEntry q.toNat (pfxLen p 8) total (m.uni 0 off).toNat))

/-! ### NZSCAN (R223, R224) -/

/-- The channels of a scan's queues (both use one channel number). -/
def scanQueues (o : NzscanF) : List Nat := o.qi.toNat :: (o.qv.map BitVec.toNat).toList

/-- The pushes that a scan's next entries need. -/
def scanPush (o : NzscanF) (m : Me) : List (Nat × Nat × Nat) := (scanQueues o).map (fun q => (q, m.pushChan q (chanNum o.ch), 1))

/-- Every queue of a scan has room for an entry. -/
def State.scanRoom (s : State) (o : NzscanF) (m : Me) : Bool :=
  (scanPush o m).all (fun p => decide (1 ≤ s.roomOf m.sid.wg p.1 p.2.1))

/-- Words padded with zeros to an entry. -/
def pad8 (l : List W32) : List W32 := (l ++ zeroWords).take 8

/-- Push a group of a scan: its indices and, where asked, its values. -/
def State.pushGroup (s : State) (o : NzscanF) (m : Me) (c : Scan) (tag : BitVec 2) : State :=
  let s := s.reserve m o.qi.toNat (m.pushChan o.qi.toNat (chanNum o.ch)) (pad8 c.idxs) tag none none
  match o.qv with
  | some v => s.reserve m v.toNat (m.pushChan v.toNat (chanNum o.ch)) (pad8 c.vals) tag none none
  | none => s

/-- Push the POISON entries of a scan (R224). -/
def State.pushBad (s : State) (o : NzscanF) (m : Me) (r : FaultRec) : State :=
  (scanQueues o).foldl (fun s q => s.reserve m q (m.pushChan q (chanNum o.ch)) zeroWords 3 none (some r)) s

/-- Keep a scan under way. -/
def State.setScan (s : State) (m : Me) (c : Option Scan) : State := s.updFrag m.sid m.fi (fun f => { f with scan := c })

/-- The end of a scan: sC receives the number of non-zeros pushed. -/
def State.endScan (s : State) (o : NzscanF) (m : Me) (n len : Nat) : State :=
  ((s.setScan m none).updStrand m.sid (fun st => st.sSet o.sc.toNat (BitVec.ofNat 64 n))).done m true len

/-- What reading the next element of a scan gives. -/
inductive Look where
  | value (s : State) (x : Nat)
  | bad (s : State) (cause : TrapCode) (va : W64) (mask : TMask)
  | watch (va : W64)
  | wait (s : State) (w : Option Wait)

/-- The x register that an element which a scan's own access fetches is delivered to: one of the fragment's own, beyond the strand's. -/
def Me.scanReg (m : Me) : Nat := 32 + m.f.born

/-- Read the element at a position of a scan (R223, R224); an element of a line or device that is not held is fetched by an access of its
own. -/
def State.look (s : State) (o : NzscanF) (m : Me) (b : BufRec) (i : W64) (c : Scan) : Look :=
  if s.acqHeld m then .wait s none
  else if b.bad sizes124 then .bad s .bfInvalid 0 m.em
  else if !b.inBounds i then (if b.oobz then .value s 0 else .bad s .bounds (b.addr i) 1)
  else
    let va := b.addr i
    let f : Fetch := { word := 0, va := va, size := b.esize, sx := o.sx }
    if !s.ready m.sid.wg (s.readDeps m.sid m.line s.serial [f]) then .wait s none
    else
      let j := Joiner.inst m.sid m.f.born
      match s.elemPages m.core m.wg.ctx j va b.esize .read with
      | (s, .fail, _) => .bad s .pageProt va 1
      | (s, _, .fail) => .bad s .pageProt va 1
      | (s, .busy, _) => .wait s none
      | (s, _, .busy) => .wait s none
      | (s, .service, _) => .wait (s.request m.wg.ctx va .read j) (some .page)
      | (s, _, .service) => .wait (s.request m.wg.ctx (lastByte va b.esize) .read j) (some .page)
      | (s, .ok l1, .ok l2) =>
        let places := placesOf l1 l2 va b.esize
        let lines := s.linesOf false [places]
        if !devOk l1 l2 va b.esize then .bad s .align_ va 1
        else if s.watched m.core .r va b.esize && !m.st.watchSkip then .watch va
        else if places.any (fun l => match l with | .phys _ pa => !s.served pa | _ => false) then .wait (s.fetchTiers places) none
        else if places.any Loc.isDev && !s.ready m.sid.wg (s.devDeps m.sid m.line s.serial) && c.fetch.isNone then .wait s none
        else if c.fetch.isSome || !s.linesReady lines then
          match c.fetch with
          | none =>
            let e : Elem := { thread := 0, va := va, locs := places.map some, val := 0, cmp := 0, done := false }
            let s := s.listAcc m (ask (.load m.scanReg false) .read .fab .r) none [e]
            .wait (s.setScan m (some { c with fetch := some (s.serial - 1) })) (some (.access (s.serial - 1)))
          | some a =>
            if s.isOver m.sid.wg a then .value (s.updStrand m.sid (fun st => st.xSet m.scanReg 0 0)) (m.st.xGet m.scanReg 0).toNat
            else .wait s (some (.access a))
        else if !places.all (s.here m.core) then .wait (s.askBytes m.core m.sid.wg.slot places) none
        else
          let x := natOfBytes (places.map (fun l => s.readByte m.core l))
          .value (places.foldl (fun s l => s.cacheByte m.core l) (s.touchAll m.sid.wg false places)) x

/-- A scan meets an element whose read fails (R224): the partial group is pushed, then a POISON entry, and the scan ends. -/
def State.failScan (s : State) (o : NzscanF) (m : Me) (c : Scan) (len : Nat) (r : FaultRec) : State :=
  let fin (s : State) (n : Nat) : State := ((s.pushBad o m r).unfail (.inst m.sid m.f.born)).endScan o m n len
  if !s.scanRoom o m then s.block m (.queues [] (scanPush o m))
  else if c.idxs.isEmpty then fin s c.pushed
  else
    let n := c.pushed + c.idxs.length
    let s := (s.pushGroup o m c 0).setScan m (some { c with idxs := [], vals := [], pushed := n })
    if s.scanRoom o m then fin s n else s.block m (.queues [] (scanPush o m))

/-- Scan the elements that are left. A full group is pushed at once, or with MARK asked for when the next non-zero or the end shows
whether it is the last. -/
def scanFrom (o : NzscanF) (len : Nat) (start : W64) : Nat → State → State
  | 0, s =>
    match s.me with
    | none => s
    | some m =>
      let c := m.f.scan.getD ⟨0, [], [], 0, none⟩
      if c.idxs.isEmpty then s.endScan o m c.pushed len
      else if !s.scanRoom o m then s.block m (.queues [] (scanPush o m))
      else (s.pushGroup o m c (if o.mark then 1 else 0)).endScan o m (c.pushed + c.idxs.length) len
  | n + 1, s =>
    match s.me with
    | none => s
    | some m =>
      let c := m.f.scan.getD ⟨0, [], [], 0, none⟩
      let b := s.bufRec m o.bf.toNat
      let i := start + BitVec.ofNat 64 c.pos
      match s.look o m b i c with
      | .wait s w => (match w with | some w => s.block m w | none => s)
      | .watch va => s.trap m { code := .watch, mask := some 1, va := va, bf := some (o.bf.toNat, b.tag),
                                     comps := s.compsOf m.core .r [(va, b.esize)] }
      | .bad s cause va mask => s.failScan o m c len (poisonRec m.wg (s.pendOf m o.bf.toNat b.tag false []) cause.num va mask)
      | .value s x =>
        if x = 0 then scanFrom o len start n (s.setScan m (some { c with pos := c.pos + 1, fetch := none }))
        else
          let word : W32 := if o.sx then (sext64 (8 * b.esize) x).truncate 32 else BitVec.ofNat 32 x
          if c.idxs.length = 8 then
            if !s.scanRoom o m then s.block m (.queues [] (scanPush o m))
            else
              scanFrom o len start n ((s.pushGroup o m c 0).setScan m (some ⟨c.pos + 1, [i.truncate 32], [word], c.pushed + 8, none⟩))
          else
            let c' : Scan := ⟨c.pos + 1, c.idxs ++ [i.truncate 32], c.vals ++ [word], c.pushed, none⟩
            if c'.idxs.length = 8 && !o.mark then
              if !s.scanRoom o m then s.block m (.queues [] (scanPush o m))
              else scanFrom o len start n ((s.pushGroup o m c' 0).setScan m (some ⟨c.pos + 1, [], [], c.pushed + 8, none⟩))
            else scanFrom o len start n (s.setScan m (some c'))

/-- NZSCAN. -/
def execNzscan (p : Option Pfx) (o : NzscanF) (s : State) : Out :=
  asQueue (pfxLen p 8) [] (scanQueues o) true (chanNum o.ch) s (fun m =>
    let n := (m.st.sGet o.sn.toNat).toNat
    let len := pfxLen p 8
    if 2 ^ 20 < n then s.raise m .bounds
    else if n = 0 then s.endScan o m 0 len
    else
      let c := m.f.scan.getD ⟨0, [], [], 0, none⟩
      scanFrom o len (m.st.sGet o.ss.toNat) (n - c.pos) (if m.f.scan.isSome then s else s.setScan m (some c)))

end Sys2Proof.Machine
end

