-- ==== Sys2Proof/Machine/Convert.lean ====
section
/-!
DEFINITION. Machine/Convert.lean: CVT, PACK, UNPACK and QSCALE (R193 to R196) under the one conversion rule (R79).
-/
namespace Sys2Proof.Machine
open Sys2Proof

/-- SRC and DST lie in one group (R193). -/
def cvtOk (src dst : ETy) : Bool := src.count = dst.count

/-- Convert an element of one type into another (R79): equal types copy; a wider integer extends; a narrower or equally wide one
wraps or clamps; every other conversion rounds. -/
def convElem (src dst : ETy) (e : REnv) (x : Nat) : FRes :=
  if src = dst then ⟨x, 0⟩
  else
    match src.fmt, dst.fmt with
    | some f, some g => convFF g e (f.read e.dnf x)
    | some f, none => convFI dst.signed dst.width e (f.decode x)
    | none, some g => convIF g { e with dnf := false } (src.toInt x)
    | none, none => intDeliver dst.signed dst.width (e.sat && decide (dst.width ≤ src.width)) (src.toInt x)

/-- The conversion delivers its result through a rounding (R75). -/
def convSteps (src dst : ETy) : Bool := src ≠ dst && !(src.isInt && dst.isInt)

/-- One element converted, with SRS stepped under RST where the conversion rounds. -/
def convStep (src dst : ETy) (e : REnv) (x : Nat) : TRes :=
  let srs := if convSteps src dst && e.rm = .rst then srsStep e.srs else e.srs
  let r := convElem src dst { e with srs := srs } x
  ⟨r.code % 2 ^ dst.width, r.flags, srs⟩

/-- A conversion of every element of a thread's value. -/
def cvtThread (src dst : ETy) (e : REnv) (x : Nat) : TRes :=
  (upto src.count).foldl (fun a j =>
    let r := convStep src dst { e with srs := a.srs } (src.elem x j)
    ⟨a.val + r.val * 2 ^ (dst.width * j), a.flags ||| r.flags, r.srs⟩) ⟨0, 0, e.srs⟩

/-- CVT's computation: rounding and saturation from its own fields where they are given. -/
def cvtRun (o : CvtF) (i : VIn) : VOut :=
  VIn.lanes { i with env := { i.env with rm := o.rm.getD i.env.rm, sat := o.sat.getD i.env.sat } }
    (fun e t => cvtThread o.src o.dst e (i.src 0 t))

/-- The type that PACK reads its sources at (R194). -/
def packSrc (ty : ETy) : ETy := if ty.isInt then .i32 else .f32

/-- PACK: the old D is source 0, A and B sources 1 and 2; A is converted first (R194). -/
def packRun (i : VIn) : VOut :=
  i.lanes (fun e t =>
    let w := i.ty.width
    let a := convStep (packSrc i.ty) i.ty e (i.src 1 t)
    let b := convStep (packSrc i.ty) i.ty { e with srs := a.srs } (i.src 2 t)
    let low := a.val + b.val * 2 ^ w
    ⟨if i.ty.count = 2 then low else low + i.src 0 t % 2 ^ 16 * 2 ^ 16, a.flags ||| b.flags, b.srs⟩)

/-- PACK. -/
def opPack : VOp := { exec := true, ok := ETy.isPK, readD := true, dTy := id, sTy := packSrc, rTy := id, run := packRun }

/-- The scalar type that UNPACK delivers (R195). -/
def unpackTy (ty : ETy) : ETy := if ty.isInt then (if ty.signed then .i32 else .n32) else .f32

/-- UNPACK: element B mod n of A, widened exactly (R195). -/
def unpackRun (i : VIn) : VOut :=
  i.lanes (fun e t =>
    let x := i.ty.elem (i.src 0 t) (i.src 1 t % i.ty.count)
    match i.ty.fmt with
    | some f => let r := convFF .f32 ⟨.rne, false, false, 0⟩ (f.read e.dnf x); ⟨r.code, r.flags, e.srs⟩
    | none => .plain (ofSigned 32 (i.ty.toInt x)) e.srs)

/-- UNPACK. -/
def opUnpack : VOp := { exec := true, ok := ETy.isPK, readD := false, dTy := id, sTy := id, rTy := unpackTy, run := unpackRun }

/-- The emax of QSCALE's types (Table 4.4); none for a type it does not accept. -/
def qscaleEmax : ETy → Option Int
  | .e4m3x4 => some 8 | .e5m2x4 => some 15 | .dm8x4 => some 0 | .i8x4 => some 0 | _ => none

/-- QSCALE: one scale over the active threads' values (R71, R196). -/
def opQscale : VOp :=
  { exec := true, ok := fun ty => (qscaleEmax ty).isSome, readD := false, dTy := id, sTy := fun _ => .f32, rTy := id,
    run := fun i =>
      let code := scaleCode ((qscaleEmax i.ty).getD 0) ((TMask.list i.em).map (fun t => Fmt.f32.decode (i.src 0 t)))
      i.lanes (fun e _ => .plain code e.srs) }

/-- CVT as a vector instruction. -/
def cvtVec (p : Option Pfx) (o : CvtF) : Vec :=
  { pfx := p, lit := 0, len := pfxLen p 8, exec := true, ok := fun _ => cvtOk o.src o.dst,
    srcs := fun _ => [⟨o.a, .a, o.src⟩], dst := fun _ => .sel o.d false o.dst, run := cvtRun o }

def execCvt (p : Option Pfx) (o : CvtF) (s : State) : Out := runVec (cvtVec p o) s
def execPack (p : Option Pfx) (o : V3) (s : State) : Out := opPack.v3 p o s
def execPackX1 (p : Option Pfx) (o : X1) (s : State) : Out := opPack.x1 p o s
def execUnpack (p : Option Pfx) (o : V3) (s : State) : Out := opUnpack.v3 p o s
def execUnpackX1 (p : Option Pfx) (o : X1) (s : State) : Out := opUnpack.x1 p o s
def execQscale (p : Option Pfx) (o : V3u) (s : State) : Out := opQscale.v3u p o s

end Sys2Proof.Machine
end

