-- ==== Sys2Proof/Machine/Counter.lean ====
section
/-!
DEFINITION. Machine/Counter.lean: CADD, CWAIT, CARM and CRD (R274 to R282).
-/
namespace Sys2Proof.Machine
open Sys2Proof

/-- A counter instruction's counter for its strand: a slot, or a global counter that has passed the checks of R276; an execute
strand names no global counter (Table 9.10). -/
inductive CtrRef where
  | slot (n : Nat)
  | global (pa : Nat)

/-- The outcome of finding a counter. -/
inductive Found where
  | ok (s : State) (c : CtrRef)
  | stop (s : State)

/-- The place of a counter. -/
def CtrRef.elem (c : CtrRef) (m : Me) (va amount : W64) : Elem :=
  { thread := TMask.lowest m.em, va := va, cmp := 0, val := amount, done := false,
    locs := (upto 8).map (fun i => some (match c with
      | .slot n => .shared m.sid.wg (slotOff n + i)
      | .global pa => .phys .coh (pa + i))) }

/-- A counter may be read now: nothing before the instruction holds it (R126), and its bytes are at hand (R117). -/
def State.readCtr (s : State) (m : Me) (c : CtrRef) (va : W64) : Found :=
  let e := c.elem m va 0
  if !s.clear m false [e] then .stop s
  else if !e.places.all (s.here m.core) then .stop (s.askBytes m.core m.sid.wg.slot e.places)
  else .ok (e.places.foldl (fun s l => s.cacheByte m.core l) (s.touchAll m.sid.wg false e.places)) c

/-- Find a counter for CWAIT, CARM and CRD, which stall while its page needs service (R276) and until it may be read; `k` is the access that
comparators watch (R382). -/
def State.findCtr (s : State) (m : Me) (c : Ctr) (k : WKind) : Found :=
  match c with
  | .slot n => s.readCtr m (.slot n.toNat) (BitVec.ofNat 64 (slotOff n.toNat))
  | .glob r =>
    let va := m.st.sGet r.toNat
    let j := Joiner.inst m.sid m.f.born
    if !m.access then .stop (s.raise m .illegal)
    else if va.toNat % 8 ≠ 0 then .stop (s.raise m .align_)
    else if s.failed j va then .stop ((s.unfail j).raise m .pageProt)
    else if s.waitsPage j va then .stop s
    else
      match s.counterPage m.core m.wg.ctx va with
      | (s1, .fail c) => .stop (s1.raise m c)
      | (_, .busy) => .stop s
      | (_, .service) => .stop (s.request m.wg.ctx va .atomic j)
      | (s1, .ok pa) =>
        if s.watched m.core k va 8 && !m.st.watchSkip then .stop (s1.trap m { code := .watch, va := va, comps := s.compsOf m.core k [(va, 8)] })
        else s1.readCtr m (.global pa) va

/-- The value of a counter. -/
def State.ctrValue (s : State) (m : Me) (c : CtrRef) : W64 :=
  match c with
  | .slot n => m.wg.slot n
  | .global pa => s.physWord pa

/-- DEV or SYS scope, where counters are phase boundaries (R137). -/
def scopeWide : Scope → Bool
  | .dev => true | .sys => true | _ => false

/-- The release of an instruction at a scope (R129, R137): none while what it covers is outstanding. -/
def State.release (s : State) (m : Me) (wide : Bool) : Option State :=
  if !s.allPrior m then none else some (if wide then s.phaseRelease m.core else s)

/-- Make a counter's add, a non-fetching atomic (R116, R276): a slot's performs at once where nothing precedes it. -/
def State.addCtr (s : State) (m : Me) (c : CtrRef) (va amount : W64) (rel : Bool) : State :=
  let a : Ask := { ask .add .atomic .sto .a with rel := rel }
  let s := s.listAcc m a (some .sto) [c.elem m va amount]
  match c with
  | .slot _ => s.perform (s.serial - 1) 0xFF
  | .global _ => s

/-- CADD (R277): a global counter whose page needs service enters the Mend log (R276). -/
def runCadd (scope : Scope) (rel : Bool) (c : Ctr) (amount : Me → W64) (len : Nat) (s : State) : Out :=
  asStrand s (fun m =>
    match c with
    | .slot n =>
      (match (if s.pathFull m.sid.wg .sto then none else if rel then s.release m (scopeWide scope) else some s) with
       | none => s
       | some s => (s.addCtr m (.slot n.toNat) (BitVec.ofNat 64 (slotOff n.toNat)) (amount m) rel).advance m len)
    | .glob r =>
      let va := m.st.sGet r.toNat
      if !m.access then s.raise m .illegal
      else if va.toNat % 8 ≠ 0 then s.raise m .align_
      else
        let go (s : State) (k : State → State) : State :=
          match (if s.pathFull m.sid.wg .sto then none else if rel then s.release m (scopeWide scope) else some s) with
          | none => s
          | some s => k s
        let log (s : State) : State :=
          if s.logFull m.core .add [] then s.countMendFull m.core
          else go s (fun s =>
            let r : Req := { thread := TMask.lowest m.em, va := va, size := 8, val := amount m, cmp := 0, skip := false }
            let a : Ask := { ask .add .atomic .sto .a with rel := rel }
            (((s.logLine m a [⟨r, .service, .service⟩] (lineOf va)).listAcc m a (some .sto) []).sweep).advance m len)
        match s.counterPage m.core m.wg.ctx va with
        | (_, .busy) => s
        | (s1, .fail c) => s1.raise m c
        | (_, .service) => log s
        | (s1, .ok pa) =>
          if s.watched m.core .a va 8 && !m.st.watchSkip then s1.trap m { code := .watch, va := va, comps := s.compsOf m.core .a [(va, 8)] }
          else if s.logFull m.core .add [] then s.countMendFull m.core
          else if (s.mends m.sid).any (fun e => lineOf e.line = lineOf va) then log s
          else go s1 (fun s => (s.addCtr m (.global pa) va (amount m) rel).advance m len))

def execCadd (scope : Scope) (rel : Bool) (c : Ctr) (sv : BitVec 5) (s : State) : Out :=
  runCadd scope rel c (fun m => m.st.sGet sv.toNat) 4 s
def execCaddX1 (scope : Scope) (rel : Bool) (c : Ctr) (lit : W32) (s : State) : Out :=
  runCadd scope rel c (fun _ => lit.signExtend 64) 8 s

/-- A phase acquire where the scope asks for one (R137). -/
def State.acquireIf (s : State) (b : Bool) (core : Nat) : State := if b then s.phaseAcquire core else s

/-- CWAIT (R278): the fragment blocks until the counter is at or above the value, and then acquires; at DEV or SYS scope by a phase
acquire, which waits for the strand's Mend-log entries (R135). -/
def runCwait (scope : Scope) (c : Ctr) (value : Me → W64) (len : Nat) (s : State) : Out :=
  asYielding s (fun m =>
    match s.findCtr m c .r with
    | .stop s => s
    | .ok s r =>
      if (s.ctrValue m r).toNat < (value m).toNat then
        s.block m (match r with
          | .slot n => .counter (some n) 0 (value m)
          | .global pa => .counter none pa (value m))
      else if scopeWide scope && !(s.mends m.sid).isEmpty then s
      else (s.acquireIf (scopeWide scope) m.core).fall m len)

def execCwait (scope : Scope) (c : Ctr) (sv : BitVec 5) (s : State) : Out := runCwait scope c (fun m => m.st.sGet sv.toNat) 4 s
def execCwaitX1 (scope : Scope) (c : Ctr) (lit : W32) (s : State) : Out := runCwait scope c (fun _ => lit.signExtend 64) 8 s

/-- CRD (R279): the counter's present value. The scope has no effect. -/
def execCrd (_scope : Scope) (c : Ctr) (d : BitVec 5) (s : State) : Out :=
  asStrand s (fun m =>
    match s.findCtr m c .r with
    | .stop s => s
    | .ok s r => s.writeS m d.toNat (s.ctrValue m r) 4)

/-! ### Armed targets (R280 to R282) -/

/-- A counter holds an armed target. -/
def State.armed (s : State) (m : Me) (r : CtrRef) : Bool :=
  match r with
  | .slot n => m.wg.targets.any (fun t => t.slot = n)
  | .global pa => s.targets.any (fun t => t.pa = pa)

/-- There is no room for a target of a global counter (R280). -/
def State.targetsFull (s : State) (m : Me) (r : CtrRef) : Bool :=
  match r with
  | .slot _ => false
  | .global _ => decide (16384 ≤ s.targets.length) || decide (1024 ≤ (s.targets.filter (fun t => t.ctx = m.wg.ctx)).length)

/-- Remove a counter's target without firing it. -/
def State.disarm (s : State) (m : Me) (r : CtrRef) : State :=
  match r with
  | .slot n => s.updWg m.sid.wg (fun g => { g with targets := g.targets.filter (fun t => t.slot ≠ n) })
  | .global pa => { s with targets := s.targets.filter (fun t => t.pa ≠ pa) }

/-- Arm a target, or fire it at once where the counter is there already (R281). -/
def State.arm (s : State) (m : Me) (r : CtrRef) (target : W64) (act : TargetAct) : State :=
  match r with
  | .slot n =>
    if target.toNat ≤ (s.ctrValue m r).toNat then s.fire act m.wg.ctx m.wg.node m.wg.task m.sid (some (n, m.wg.task)) none
    else s.updWg m.sid.wg (fun g => { g with targets := g.targets ++ [⟨n, target, act, m.sid⟩] })
  | .global pa =>
    if target.toNat ≤ (s.ctrValue m r).toNat then s.fire act m.wg.ctx m.wg.node m.wg.task m.sid none (some pa)
    else { s with targets := s.targets ++ [⟨pa, m.wg.ctx, target, act, m.wg.node, m.wg.task, m.sid⟩] }

/-- The record at a shared offset (R280, R290): none where the offset is no multiple of 8 or the copied bytes leave the allocation;
an offset in the pipe region is outside it. -/
def State.recordAt (s : State) (m : Me) (off : Nat) : Option (List Byte) :=
  if off % 8 ≠ 0 || decide (m.wg.size < off + 8) then none
  else
    let n := copyLen (s.ownWord m off)
    if m.wg.size < off + n then none else some ((upto n).map (fun i => s.ownShared m (off + i)))

/-- CARM (R280): checks of the counter, then of the record, then of the targets in use. -/
def runCarm (c : Ctr) (target : Me → W64) (rs : Option (BitVec 5)) (len : Nat) (s : State) : Out :=
  asStrand s (fun m =>
    match s.findCtr m c .a with
    | .stop s => s
    | .ok s r =>
      match (match rs with
        | none => some TargetAct.notice
        | some x => (s.recordAt m (bits (m.st.sGet x.toNat) 0 32)).map TargetAct.emit) with
      | none => s.raise m .bounds
      | some act =>
        if s.armed m r || s.targetsFull m r then s.raise m .counterInvalid
        else (s.arm m r (target m) act).advance m len)

/-- CARM.dis (R280). -/
def runCarmDis (c : Ctr) (s : State) : Out :=
  asStrand s (fun m =>
    match s.findCtr m c .a with
    | .stop s => s
    | .ok s r => (s.disarm m r).advance m 4)

def execCarm (_sys : Bool) (c : Ctr) (f : CarmF) (s : State) : Out :=
  match f with
  | .dis => runCarmDis c s
  | .notice sv => runCarm c (fun m => m.st.sGet sv.toNat) none 4 s
  | .emit sv rs => runCarm c (fun m => m.st.sGet sv.toNat) (some rs) 4 s
def execCarmX1 (_sys : Bool) (c : Ctr) (f : CarmX) (s : State) : Out :=
  match f with
  | .notice lit => runCarm c (fun _ => lit.signExtend 64) none 8 s
  | .emit lit rs => runCarm c (fun _ => lit.signExtend 64) (some rs) 8 s

end Sys2Proof.Machine
end

