-- ==== Sys2Proof/Machine/Cross.lean ====
section
/-!
DEFINITION. Machine/Cross.lean: the cross-thread instructions 0x20 to 0x26 (R182, R183).
-/
namespace Sys2Proof.Machine
open Sys2Proof

/-- VSHUF: A[B[t] mod 8]. -/
def opVshuf : VOp := .plain false (fun _ => true) (fun i => i.lanes (fun e t => .plain (i.src 0 (i.src 1 t % 8)) e.srs))
/-- VBCAST: A of the thread that the lowest active thread's B names. -/
def opVbcast : VOp :=
  .plain false (fun _ => true) (fun i => i.lanes (fun e _ => .plain (i.src 0 (i.src 1 (TMask.lowest i.em) % 8)) e.srs))
/-- VROTT: A[(t + i) mod 8]. -/
def opVrott : VOp :=
  .plain false (fun _ => true) (fun i =>
    i.lanes (fun e t => .plain (i.src 0 ((t + i.src 1 (TMask.lowest i.em) % 8) % 8)) e.srs))
/-- VIDX: A[t] + t × B[t], wrapped. -/
def opVidx : VOp :=
  .plain false ETy.isW (fun i => i.lanes (fun e t => .plain ((i.src 0 t + t * i.src 1 t) % 2 ^ i.ty.bits) e.srs))

/-! ### Reductions and scans (R183, Table 10.6) -/

/-- A floating reduction function. -/
def redFloat : RedFn → Bool
  | .fadd => true | .fmin => true | .fmax => true | _ => false

/-- A function matches its type (R183). -/
def redOk (f : RedFn) (ty : ETy) : Bool := if redFloat f then ty.isFP else ty.isInt

/-- The identity of a function as an element (Table 10.6). -/
def redIdentity (f : RedFn) (ty : ETy) : Nat :=
  match f with
  | .min => ofSigned ty.width (intMax ty.signed ty.width)
  | .max => ofSigned ty.width (intMin ty.signed ty.width)
  | .and => 2 ^ ty.width - 1
  | .fmin => ty.fmtD.infCode false
  | .fmax => ty.fmtD.infCode true
  | _ => 0

/-- One combination of two elements (R180, R183, R190). -/
def redCombine (f : RedFn) (e : REnv) (ty : ETy) (a b : Nat) : FRes :=
  let fm := ty.fmtD
  match f with
  | .add => satResult ty e.sat (ty.toInt a + ty.toInt b)
  | .min => wrapResult ty (min (ty.toInt a) (ty.toInt b))
  | .max => wrapResult ty (max (ty.toInt a) (ty.toInt b))
  | .and => ⟨a &&& b, 0⟩
  | .or => ⟨a ||| b, 0⟩
  | .xor => ⟨a ^^^ b, 0⟩
  | .fadd => fusedSum fm e true [] [fm.read e.dnf a, fm.read e.dnf b]
  | .fmin => fMinMax fm e.dnf false a b
  | .fmax => fMinMax fm e.dnf true a b

/-- Combine a thread's value into a run: the first combination of a run returns the value unchanged and steps nothing. -/
def redStep (f : RedFn) (e : REnv) (ty : ETy) (acc : Option Nat) (x : Nat) : TRes :=
  match acc with
  | none => ⟨x, 0, e.srs⟩
  | some a => elemOp ty (f = .fadd) e (fun e j => redCombine f e ty (ty.elem a j) (ty.elem x j))

/-- The fold of a run over the active threads: for each thread the accumulator before it and its combination. With `seg`, a
thread whose bit is 1 starts a run. -/
def redFold (f : RedFn) (i : VIn) (seg : TMask) : List Nat → Option Nat → List (Nat × Option Nat × TRes)
  | [], _ => []
  | t :: ts, acc =>
    let acc := if TMask.has seg t then none else acc
    let r := redStep f { i.env with srs := i.st.srs.get t } i.ty acc (i.src 0 t)
    (t, acc, r) :: redFold f i seg ts (some r.val)

/-- The outcome of a fold with each thread's delivered value. -/
def redOut (i : VIn) (l : List (Nat × Option Nat × TRes)) (val : Nat × Option Nat × TRes → Nat) : VOut :=
  { vals := l.map (fun x => (x.1, val x)), flags := l.foldl (fun a x => a ||| x.2.2.flags) 0,
    srs := if i.env.rm = .rst then l.map (fun x => (x.1, x.2.2.srs)) else [], masks := [] }

/-- VRED: every active thread receives the whole. -/
def vredRun (f : RedFn) (i : VIn) : VOut :=
  let l := redFold f i 0 (TMask.list i.em) none
  let whole := match l.getLast? with | some x => x.2.2.val | none => 0
  redOut i l (fun _ => whole)

/-- VSCAN: each thread receives the run up to it, without it when exclusive. -/
def vscanRun (f : RedFn) (exc : Bool) (seg : Option (BitVec 3)) (i : VIn) : VOut :=
  let k : TMask := match seg with | some n => i.st.kGet n.toNat | none => 0
  let l := redFold f i k (TMask.list i.em) none
  redOut i l (fun x => if exc then x.2.1.getD (i.ty.replicate (redIdentity f i.ty)) else x.2.2.val)

/-- VRED as an operation. -/
def opVred (f : RedFn) : VOp := { VOp.plain false (redOk f) (vredRun f) with exec := redFloat f }
/-- VSCAN as an operation. -/
def opVscan (f : RedFn) (exc : Bool) (seg : Option (BitVec 3)) : VOp :=
  { VOp.plain false (redOk f) (vscanRun f exc seg) with exec := redFloat f }

/-- V2S: the s register receives A of the lowest active thread. -/
def v2sVec (p : Option Pfx) (n : Bool) (sd : BitVec 5) (a : Sel) : Vec :=
  { pfx := p, lit := 0, len := pfxLen p 4, exec := false, ok := fun _ => true, srcs := fun ty => [⟨a, .a, ty⟩],
    dst := fun ty => .sreg sd.toNat n ty, run := fun i => i.lanes (fun e _ => .plain (i.src 0 (TMask.lowest i.em)) e.srs) }

def execVshuf (p : Option Pfx) (o : V3) (s : State) : Out := opVshuf.v3 p o s
def execVshufX1 (p : Option Pfx) (o : X1) (s : State) : Out := opVshuf.x1 p o s
def execVbcast (p : Option Pfx) (o : V3) (s : State) : Out := opVbcast.v3 p o s
def execVbcastX1 (p : Option Pfx) (o : X1) (s : State) : Out := opVbcast.x1 p o s
def execVrott (p : Option Pfx) (o : V3) (s : State) : Out := opVrott.v3 p o s
def execVrottX1 (p : Option Pfx) (o : X1) (s : State) : Out := opVrott.x1 p o s
def execVred (p : Option Pfx) (d a : Sel) (fn : RedFn) (s : State) : Out := (opVred fn).form p 0 8 false d [(a, .a)] s
def execVscan (p : Option Pfx) (d a : Sel) (fn : RedFn) (exc : Bool) (seg : Option (BitVec 3)) (s : State) : Out :=
  (opVscan fn exc seg).form p 0 8 false d [(a, .a)] s
def execV2s (p : Option Pfx) (n : Bool) (sd : BitVec 5) (a : Sel) (s : State) : Out := runVec (v2sVec p n sd a) s
def execVidx (p : Option Pfx) (o : V3) (s : State) : Out := opVidx.v3 p o s

end Sys2Proof.Machine
end

