-- ==== Sys2Proof/Machine/FabricInstr.lean ====
section
/-!
DEFINITION. Machine/FabricInstr.lean: FBWR, FBRD, FBRED and UEGET (R293 to R296), and the packets that a transfer sends (R355, R357).
-/
namespace Sys2Proof.Machine
open Sys2Proof

/-! ### FBWR, FBRD and FBRED (R293 to R295) -/

/-- The frame of a fabric transfer (R293): an access instruction of the second map and of the yield class, for the issuer. -/
def asFabric (s : State) (k : Me → State) : Out :=
  asYielding s (fun m =>
    if !m.access then s.raise m .illegal
    else if m.sid.idx ≠ m.wg.issuer then s.raise m .issueRights
    else k m)

/-- A task's incomplete transfers (R293). -/
def State.xfersOf (s : State) (task : W64) : List Xfer := s.fabric.xfers.filter (fun x => decide (x.task = task) && !x.stopped)

/-- Queue a transfer, whose reads follow what precedes it (R142); a further one blocks at 64 (R293), and one of no bytes does nothing. -/
def State.startXfer (s : State) (m : Me) (sb : Nat) (kind : XferKind) : State :=
  let len := (m.st.sGet (sb + 3)).toNat
  if 64 ≤ (s.xfersOf m.wg.task).length then s.block m (.engine .fabric)
  else if len = 0 then s.fall m 4
  else
    let x : Xfer := { id := s.serial, task := m.wg.task, ctx := m.wg.ctx, strand := m.sid, pc := m.pc, kind := kind,
                      dst := m.st.sGet (sb + 1), src := m.st.sGet (sb + 2), len := len, ctr := m.st.sGet (sb + 4), sent := 0, acked := 0,
                      stopped := false, deps := s.priorIds m, got := [] }
    (State.fall { s with fabric := { s.fabric with xfers := s.fabric.xfers ++ [x] }, serial := s.serial + 1 } m 4)

/-- FBWR (R294); a length above 2^36 is out of bounds (log 25). -/
def execFbwr (sb : BitVec 5) (s : State) : Out :=
  asFabric s (fun m =>
    if 2 ^ 36 < (m.st.sGet (sb.toNat + 3)).toNat then s.raise m .bounds
    else s.startXfer m sb.toNat (.write (m.st.sGet sb.toNat).toNat))

/-- FBRD (R294): the remote source, then the local destination. -/
def execFbrd (sb : BitVec 5) (s : State) : Out :=
  asFabric s (fun m =>
    if 2 ^ 36 < (m.st.sGet (sb.toNat + 3)).toNat then s.raise m .bounds
    else s.startXfer m sb.toNat (.read (m.st.sGet sb.toNat).toNat))

/-- The bytes of a reduction's element. -/
def RedTy.bytes : RedTy → Nat
  | .fp32 => 4 | .int32 => 4 | .bf16 => 2 | .fp16 => 2

/-- FBRED (R295). -/
def execFbred (sb : BitVec 5) (op : FOp) (ty : RedTy) (s : State) : Out :=
  asFabric s (fun m =>
    let w := m.st.sGet sb.toNat
    let n := RedTy.bytes ty
    let odd (i : Nat) : Bool := (m.st.sGet (sb.toNat + i)).toNat % n ≠ 0
    if odd 1 || odd 2 || odd 3 || bits w 44 20 ≠ 0 then s.raise m .illegal
    else if 2 ^ 24 < (m.st.sGet (sb.toNat + 3)).toNat then s.raise m .bounds
    else s.startXfer m sb.toNat (.reduce (bits w 0 12) (bits w 12 32) op ty))

/-! ### Packets of transfers (R355 to R357) -/

/-- Apply a function to a transfer. -/
def State.updXfer (s : State) (id : Nat) (g : Xfer → Xfer) : State :=
  { s with fabric := { s.fabric with xfers := s.fabric.xfers.map (fun x => if x.id = id then g x else x) } }

/-- A transfer has failed (R294, R356): it sends no further packet, and its workgroup is terminated with a record of its PC; a
workgroup that is saved likewise. -/
def State.xferFail (s : State) (x : Xfer) (va : W64) (cause : BitVec 8) : State :=
  let s := s.updXfer x.id (fun y => { y with stopped := true })
  match s.wgs.find? (fun p => p.2.task = x.task) with
  | some (w, g) => s.terminate w (some (terminationRecord g ⟨w, x.strand.slice, x.strand.idx⟩ x.pc va none cause))
  | none =>
    match s.savedTask x.task with
    | some (ctx, v) => s.terminateSaved ctx v (terminationRecord v.wg ⟨v.from_, x.strand.slice, x.strand.idx⟩ x.pc va none cause)
    | none => s

/-- Bytes moved of a transfer: complete ones leave the list. -/
def State.xferMoved (s : State) (id n : Nat) : State :=
  let s := s.updXfer id (fun x => { x with acked := x.acked + n })
  { s with fabric := { s.fabric with xfers := s.fabric.xfers.filter (fun x => x.id ≠ id || decide (x.acked < x.len)) } }

/-- The workgroup of a transfer, where it is resident. -/
def State.xferWg (s : State) (x : Xfer) : Option WgId := (s.wgs.find? (fun p => p.2.task = x.task)).map Prod.fst

/-- What precedes a transfer is over, and its FAB counter has room for a packet (R116, R142). -/
def State.xferReady (s : State) (x : Xfer) : Bool :=
  match s.xferWg x with
  | some w => s.ready w x.deps && decide (s.inflight w .fab < 1023)
  | none => true

/-- The next packet of a transfer, where one may go out (R351, R355, R357): up to the end of the destination's 256-byte line; its
plane is that of its line. -/
def State.pumpXfer (s : State) (x : Xfer) : State :=
  let core := x.strand.wg.core
  let off := BitVec.ofNat 64 x.sent
  let left := x.len - x.sent
  let n := min (256 - (x.dst + off).toNat % 256) left
  let ftag := s.ftagOf x.ctx
  let step (s : State) (n : Nat) : State := s.updXfer x.id (fun y => { y with sent := y.sent + n })
  let send (s : State) (p : Packet) (n : Nat) : State := (step s n).sendPacket p (.bulk x.id)
  let read (s : State) (n : Nat) (k : State → List Byte → State) : State :=
    match s.enginePlaces core x.ctx x.strand.wg.slot x.id (x.src + off) n .read with
    | .wait ask => ask s
    | .stop s cause va => s.xferFail x va cause
    | .ok s pl =>
      let (s, bs) := s.engineRead core pl
      k s bs
  if x.stopped || x.len ≤ x.sent || !s.xferReady x then s
  else
    match x.kind with
    | .write d =>
      let plane := fabPlane ((x.dst + off).toNat / 256) d
      let p (bs : List Byte) : Packet := { s.fabric.packet .write d ftag plane (x.dst + off) n bs with virt := true, ctr := x.ctr }
      if !s.fabric.reaches d plane then s.xferFail x (x.dst + off) 0x04
      else if s.fabric.crowded (p []) then s
      else read s n (fun s bs => send s (p bs) n)
    | .read d =>
      let n := min (256 - (x.src + off).toNat % 256) left
      let plane := fabPlane ((x.dst + off).toNat / 256) d
      let p : Packet := { s.fabric.packet .read d ftag plane (x.dst + off) n [] with virt := true, ctr := x.src + off }
      if !s.fabric.reaches d plane then s.xferFail x (x.dst + off) 0x04
      else if s.fabric.crowded p then s
      else send s p n
    | .reduce g q op ty =>
      let n := min 256 left
      let plane := fabPlane (x.sent / 256) g
      let p (bs : List Byte) : Packet :=
        { s.fabric.packet .redcontrib g ftag plane (x.dst + off) n bs with
          hops := 1, route := BitVec.ofNat 28 (upPort (fabSpine (x.sent / 256) g)), virt := true, ctr := x.ctr
          red := some (⟨g, q, x.sent⟩, op, ty) }
      if !s.fabric.groups.any (fun k => k.num = g && k.members.contains s.fabric.device) then s.xferFail x (x.dst + off) 0x04
      else if s.fabric.crowded (p []) then s
      else read s n (fun s bs => send s (p bs) n)

/-- Each transfer sends its next packet; stopped ones leave the list once their packets are answered. -/
def State.pumpXfers (s : State) : State :=
  let s := s.fabric.xfers.foldl (fun s x => s.pumpXfer x) s
  let busy (x : Xfer) : Bool := s.fabric.sent.any (fun k => k.use_ = .bulk x.id)
  { s with fabric := { s.fabric with xfers := s.fabric.xfers.filter (fun x => !x.stopped || busy x) } }

/-! ### UEGET (R296, R365) -/

/-- An endpoint of a context's table is present (R365, Table 22.4). -/
def State.endpoint (s : State) (ctx ep : Nat) : Bool :=
  match s.ctxs.find ctx with
  | none => false
  | some c => c.word 7 ≠ 0 && (s.physByte ((c.word 7).toNat + 32 * ep + 24)).getLsbD 0

/-- Reads outstanding on an Ultra Ethernet port. -/
def State.ueLoad (s : State) (port : Nat) : Nat := (s.ueGets.filter (fun u => u.port = port)).foldl (fun a u => a + u.left.length) 0

/-- The port of a handle: named, or the one with the fewest outstanding reads, the lowest of several (R365). -/
def State.uePort (s : State) (p : Nat) : Nat :=
  if p = 8 then (upto 8).foldl (fun best q => if s.ueLoad q < s.ueLoad best then q else best) 0 else p

/-- The fragment's UEGET that has entries left to reserve. -/
def State.ueGetOf (s : State) (m : Me) : Option UeGet :=
  s.ueGets.find? (fun u => decide (u.strand = m.sid) && u.born = m.f.born && decide (u.made < u.count))

/-- Apply a function to a UEGET. -/
def State.updUe (s : State) (id : Nat) (g : UeGet → UeGet) : State :=
  { s with ueGets := s.ueGets.map (fun u => if u.id = id then g u else u) }

/-- Reserve entry e of a UEGET (R296). -/
def uegetEntry (q id count : Nat) (addr : W64) (s : State) (m : Me) (e : Nat) : Iter :=
  let c := m.pushChan q none
  if s.roomOf m.sid.wg q c < 1 then s.blockBulk m (count - e) (.queues [] [(q, c, 1)])
  else
    let p : Pend := { strand := m.sid, pc := m.pc, bf := none, bfTag := 0, mark := false, fetches := [], ue := true, list := none, wide := false,
                      splat := false, hi := none, lo := none, line := m.line, deps := [], lines := [], buf := [] }
    let entry := s.serial
    .more ((s.reserve m q c zeroWords 0 (some p) none).updUe id (fun u =>
      { u with made := e + 1, left := u.left ++ [(entry, addr + BitVec.ofNat 64 (32 * e))] }))

/-- UEGET (R296): from any access strand that produces the queue. -/
def execUeget (sb : BitVec 5) (q : BitVec 4) (s : State) : Out :=
  asYielding s (fun m =>
    let h := m.st.sGet sb.toNat
    let count := (m.st.sGet (sb.toNat + 2)).toNat
    if !m.access || !m.declared [q.toNat] then s.raise m .illegal
    else if !m.directionOk [] [q.toNat] then s.raise m .queueDirection
    else if bits h 14 50 ≠ 0 || decide (8 < bits h 10 4) || !s.endpoint m.wg.ctx (bits h 0 10) || count = 0 || decide (4096 < count) then
      s.raise m .bounds
    else
      let (id, s) := match s.ueGetOf m with
        | some u => (u.id, s)
        | none =>
          let u : UeGet := { id := s.serial, task := m.wg.task, ctx := m.wg.ctx, strand := m.sid, born := m.f.born,
                             port := s.uePort (bits h 10 4), ep := bits h 0 10, count := count, made := 0, left := [],
                             ctr := m.st.sGet (sb.toNat + 3) }
          (s.serial, { s with ueGets := s.ueGets ++ [u], serial := s.serial + 1 })
      match bulk count (uegetEntry q.toNat id count (m.st.sGet (sb.toNat + 1))) (m.bulkLeft count) s with
      | .stop s => s
      | .more s => (s.setRc m 0).fall m 4)

/-- Fill a UEGET's entry (R296, R366): with data, or POISON of cause PAGE_PROT; after the last entry the counter rises. -/
def State.fillUe (s : State) (entry : Nat) (data : Option (List Byte)) : State :=
  match s.ueGets.find? (fun u => u.left.any (fun x => x.1 = entry)), s.pendEntry entry with
  | some u, some (w, g, _, p) =>
    let va := ((u.left.find? (fun x => x.1 = entry)).map Prod.snd).getD 0
    let s := match data with
      | some bs => s.fillEntry w entry ((upto 8).map (fun i => BitVec.ofNat 32 (natOfBytes ((bs.drop (4 * i)).take 4)))) 0 none
      | none => s.fillEntry w entry zeroWords 3 (some (poisonRec g p 0x04 va 0xFF))
    let left := u.left.filter (fun x => x.1 ≠ entry)
    if left.isEmpty && u.made = u.count then
      let s := { s with ueGets := s.ueGets.filter (fun v => v.id ≠ u.id) }
      if u.ctr = 0 then s
      else { s with adds := s.adds ++ [PendAdd.mk s.serial u.ctx u.ctr (BitVec.ofNat 64 (32 * u.count)) none], serial := s.serial + 1 }
    else s.updUe u.id (fun v => { v with left := left })
  | _, _ => s

/-- UEGET_RESPONSE (R366): a read's 32 bytes arrive, or an error. -/
def execUegetResponse (id : Nat) (data : Option (List Byte)) (s : State) : Out := .next (s.fillUe id data)

/-- UE_TRANSPORT_GIVE_UP (R366). -/
def execUeTransportGiveUp (id : Nat) (s : State) : Out := .next (s.fillUe id none)

end Sys2Proof.Machine
end

