-- ==== Sys2Proof/Machine/FabricEvents.lean ====
section
/-!
DEFINITION. Machine/FabricEvents.lean: the events of the Erjan fabric: packets and answers (R346 to R356), reductions (R357 to R359) and
the messages of the directory (R360 to R364).
-/
namespace Sys2Proof.Machine
open Sys2Proof

/-! ### Counters and bytes of bulk packets (R294, R355) -/

/-- A packet's number as a joiner of page requests. -/
def Packet.joiner (p : Packet) : Nat := 2 ^ 64 + p.seq.toNat + 2 ^ 32 * (p.plane.toNat + 2 ^ 8 * Packet.source p)

/-- The counter that a bulk packet names, checked at the destination (R294); its second-tier block is fetched (R98). -/
def State.bulkCounter (s : State) (ctx id : Nat) (va : W64) : CopyRes (Option Nat) :=
  let j := Joiner.op id
  if va = 0 then .ok s none
  else if va.toNat % 8 ≠ 0 then .stop s 0x0D va
  else if s.failed j va then .stop (s.unfail j) 0x04 va
  else if s.waitsPage j va then .wait (fun s => s)
  else
    match s.counterPage noCore ctx va with
    | (s, .ok pa) => if s.served pa then .ok s (some pa) else .wait (fun s => s.fetchTier pa)
    | (s, .fail c) => .stop s c.num va
    | (_, .service) => .wait (fun s => s.request ctx va .atomic j)
    | (_, .busy) => .wait (fun s => (s.counterPage noCore ctx va).1)

/-- Add a byte count to a checked counter. -/
def State.bulkAdd (s : State) (ctx : Nat) (ctr : Option Nat) (n : Nat) : State :=
  match ctr with
  | some pa => s.globalAdd ctx pa none (BitVec.ofNat 64 n)
  | none => s

/-- Write a bulk packet's bytes and then add their number to its counter (R294, R355). -/
def State.bulkWrite (s : State) (core ctx slot id : Nat) (va ctr : W64) (bs : List Byte) : CopyRes Unit :=
  (s.bulkCounter ctx id ctr).bind (fun s c =>
    if bs.isEmpty then .ok s ()
    else (s.enginePlaces core ctx slot id va bs.length .write).bind (fun s pl =>
      .ok ((s.engineWrite core pl bs).bulkAdd ctx c bs.length) ()))

/-! ### Reductions (R357 to R359) -/

/-- A group's members. -/
def Fabric.members (f : Fabric) (g : Nat) : List Nat := ((f.groups.find? (fun k => k.num = g)).map RedGroup.members).getD []

/-- One combining step (R295). -/
def redElem (op : FOp) (ty : RedTy) (x y : Nat) : Nat :=
  match ty with
  | .fp32 => floatNew op .f32 x y
  | .bf16 => floatNew op .bf16 x y
  | .fp16 => floatNew op .f16 x y
  | .int32 => atomNew (match op with | .add => .add | .min => .min | .max => .max) false 32 x y 0

/-- Combine two pieces element by element; `k` bounds the elements. -/
def redBytes (op : FOp) (ty : RedTy) : Nat → List Byte → List Byte → List Byte
  | 0, _, _ => []
  | k + 1, a, b =>
    if a.isEmpty then []
    else
      let n := RedTy.bytes ty
      bytesOfNat n (redElem op ty (natOfBytes (a.take n)) (natOfBytes (b.take n))) ++ redBytes op ty k (a.drop n) (b.drop n)

/-- Combine parts in ascending order of their numbers; the first returns unchanged (R358). -/
def RedPiece.combine (r : RedPiece) (parts : List (Nat × List Byte)) (order : List Nat) : List Byte :=
  match order.filterMap (fun d => (parts.find? (fun q => q.1 = d)).map Prod.snd) with
  | [] => []
  | x :: xs => xs.foldl (fun a b => redBytes r.op r.ty 256 a b) x

/-- The numbers of a list in ascending order without repeats, below a bound. -/
def ascending (bound : Nat) (l : List Nat) : List Nat := (upto bound).filter (fun d => l.contains d)

/-- A piece's record. -/
def Fabric.piece (f : Fabric) (key : RedKey) : Option RedPiece := f.pieces.find? (fun r => r.key = key)

/-- Apply a function to a piece. -/
def Fabric.updPiece (f : Fabric) (key : RedKey) (g : RedPiece → RedPiece) : Fabric :=
  { f with pieces := f.pieces.map (fun r => if r.key = key then g r else r) }

/-- A piece's contributions were not all present 2^24 clocks after the first (R359). -/
def State.pieceLate (s : State) (r : RedPiece) : Bool :=
  decide (r.since + 2 ^ 24 ≤ s.clock) && !(s.fabric.members r.key.group).all (fun d => r.came.contains d)

/-- A contribution reaches its member's leaf (R358): the first opens its piece, and one to a piece that has been or is to be abandoned is
lost (R359). -/
def State.contribute (s : State) (p : Packet) : State :=
  match p.red with
  | none => s
  | some (key, op, ty) =>
    let d := p.src.toNat
    match s.fabric.piece key with
    | none =>
      { s with fabric := { s.fabric with pieces := s.fabric.pieces ++
          [{ key := key, tag := p.tag, op := op, ty := ty, contribs := [(d, p.payload)], partials := [], since := s.clock, came := [d], result := none, gone := false }] } }
    | some r =>
      if r.gone || s.pieceLate r || r.came.contains d then s
      else { s with fabric := s.fabric.updPiece key (fun r => { r with contribs := r.contribs ++ [(d, p.payload)], came := r.came ++ [d] }) }

/-- This device's transfer of a reduction. -/
def State.reduceXfer (s : State) (key : RedKey) : Option Xfer :=
  s.fabric.xfers.find? (fun x => match x.kind with | .reduce g q _ _ => g = key.group && q = key.seq | _ => false)

/-- REDUCTION_LEAF_COMBINE: a leaf that holds the piece of every member it serves combines them in ascending device number and sends
the partial to the root (R358). -/
def execReductionLeafCombine (leaf : Nat) (key : RedKey) (s : State) : Out :=
  .next (match s.fabric.piece key with
    | none => s
    | some r =>
      let ds := ascending 4096 ((s.fabric.members key.group).filter (fun d => leafOfDev d = leaf))
      if r.gone || ds.isEmpty || !ds.all (fun d => r.contribs.any (fun q => q.1 = d)) then s
      else { s with fabric := s.fabric.updPiece key (fun r =>
        { r with contribs := r.contribs.filter (fun q => !ds.contains q.1), partials := r.partials ++ [(leaf, r.combine r.contribs ds)] }) })

/-- REDUCTION_ROOT_COMBINE: the root spine combines a partial of every leaf in ascending leaf number and multicasts the result to every member
(R358): a REDRESULT goes to each other device, and this one takes its own by the event of that name. -/
def execReductionRootCombine (key : RedKey) (s : State) : Out :=
  .next (match s.fabric.piece key with
    | none => s
    | some r =>
      let ls := ascending 64 ((s.fabric.members key.group).map leafOfDev)
      if r.gone || r.result.isSome || ls.isEmpty || !ls.all (fun l => r.partials.any (fun q => q.1 = l)) then s
      else
        let bs := r.combine r.partials ls
        let f := s.fabric
        let p : Packet := { f.packet .redresult key.group r.tag.toNat (fabPlane (key.off / 256) key.group) (BitVec.ofNat 64 key.off) bs.length bs with
                            hops := 0, route := 0, virt := true, red := some (key, r.op, r.ty) }
        let away := (f.members key.group).any (fun d => d ≠ f.device)
        let f := if away then f.post p else f
        { s with fabric := f.updPiece key (fun r => { r with result := some bs }) })

/-- A member writes a result at the piece's offset of its range and adds its bytes, once (R352, R358); one whose bytes meet a page that needs service
waits. -/
def State.writeResult (s : State) (key : RedKey) (bs : List Byte) : CopyRes Unit :=
  match s.reduceXfer key with
  | none => .ok s ()
  | some x =>
    if x.got.contains key.off then .ok s ()
    else
      match s.bulkWrite x.strand.wg.core x.ctx x.strand.wg.slot x.id (x.dst + BitVec.ofNat 64 key.off) x.ctr bs with
      | .ok s _ => .ok ((s.updXfer x.id (fun y => { y with got := y.got ++ [key.off] })).xferMoved x.id bs.length) ()
      | .stop s cause va => .ok (s.xferFail x va cause) ()
      | r => r

/-- REDRESULT: this member takes the result of a piece (R358). -/
def execRedresult (key : RedKey) (s : State) : Out :=
  .next (match (s.fabric.piece key).bind RedPiece.result with
    | none => s
    | some bs =>
      match s.writeResult key bs with
      | .ok s _ => { s with fabric := { s.fabric with pieces := s.fabric.pieces.filter (fun r => r.key ≠ key) } }
      | .wait ask => ask s
      | .stop s _ _ => s)

/-- REDUCE_ABANDONED: a piece that is incomplete 2^24 clocks after its first contribution is given up; it is logged in the context of its FTAG, whether
this member has contributed or not, and what still comes is lost (R359). -/
def execReduceAbandoned (key : RedKey) (s : State) : Out :=
  .next (match s.fabric.piece key with
    | none => s
    | some r =>
      if r.gone || !s.pieceLate r then s
      else
        let s := { s with fabric := s.fabric.updPiece key (fun r => { r with contribs := [], partials := [], gone := true }) }
        let mine := (s.fabric.members key.group).contains s.fabric.device
        let s := ((s.ctxs.filter (fun c => c.2.ftag = r.tag.toNat)).map Prod.fst).foldl (fun s c => if mine then s.logError c (.reduceAbandoned key) else s) s
        match s.reduceXfer key with
        | none => s
        | some x => if x.got.contains key.off then s
          else (s.updXfer x.id (fun y => { y with got := y.got ++ [key.off] })).xferMoved x.id (min 256 (x.len - key.off)))

/-! ### Answers (R352 to R356) -/

/-- Forget an answered packet. -/
def Fabric.unsend (f : Fabric) (k : Sent) : Fabric := { f with sent := f.sent.filter (fun x => x ≠ k) }

/-- A packet of a remote access has failed (R354, R356), on the lines that it was for. -/
def State.failUse (s : State) (k : Sent) : State :=
  match k.use_ with
  | .elem id i =>
    (match (s.accs.find? (fun a => a.id = id)).bind (fun a => a.lines[i]?) with
     | some l => s.failAcc id (fun x => decide (x = l))
     | none => s)
  | .entry id i =>
    (match s.pendEntry id with
     | some (w, g, _, p) =>
       let (s, d) := s.entryData w.core g.ctx id (match p.list with | some l => l.fetch.toList | none => p.fetches)
       let out := lostFetches d.data (fun l => (p.lines[i]?).any (fun x => s.onLine x l))
       let r := poisonRec g p 0x04 ((out.head?.map Fetch.va).getD 0) (if p.wide || p.splat then 0xFF else wordMask out)
       s.fillPair w id p zeroWords zeroWords (some r)
     | none => s)
  | .dir line =>
    let hit (l : FabLine) : Bool := !l.one && remKey l.dev l.pa / 256 = line
    let ids := (s.accs.filter (fun a => a.lines.any hit && a.elems.any (fun e => !e.done))).map Acc.id
    ids.foldl (fun s id => s.failAcc id hit) { s with fabric := s.fabric.endWant line }
  | .bulk x =>
    (match s.fabric.xfers.find? (fun y => y.id = x) with
     | some y => if y.stopped then s else s.xferFail y k.pkt.addr 0x04
     | none => s)
  | .back line => s.evicted line s.fabric.device
  | .message => s

/-- The bytes that a RESPONSE brought, by their places at their device. -/
def bufSet (buf : SMap 9) (l : FabLine) (bs : List Byte) : SMap 9 :=
  ((upto l.len).zip bs).foldl (fun m p => m.set (remKey l.dev (l.pa + p.1)) (valid9 p.2)) buf

/-- Act on the first answer to a packet; one whose bytes meet a page that needs service waits. -/
def State.takeAnswer (s : State) (k : Sent) (p : Packet) : State :=
  let done := { s with fabric := s.fabric.unsend k }
  if p.typ = some .nak then done.failUse k
  else
    match k.use_ with
    | .elem id i =>
      { done with accs := done.accs.map (fun a =>
          if a.id = id then
            match a.lines[i]? with
            | some l => { a with lines := doneAt a.lines i, buf := if p.typ = some .response then bufSet a.buf l p.payload else a.buf }
            | none => a
          else a) }
    | .entry id i =>
      done.updEntry id (fun e => { e with pend := e.pend.map (fun q =>
        match q.lines[i]? with
        | some l => { q with lines := doneAt q.lines i, buf := bufSet q.buf l p.payload }
        | none => q) })
    | .dir _ => s
    | .back line => done.evicted line done.fabric.device
    | .message => done
    | .bulk x =>
      match s.fabric.xfers.find? (fun y => y.id = x) with
      | none => done
      | some y =>
        match y.kind with
        | .write _ => done.xferMoved x k.pkt.bytes.toNat
        | .reduce _ _ _ _ => done
        | .read _ =>
          match s.bulkWrite y.strand.wg.core y.ctx y.strand.wg.slot y.id k.pkt.ctr y.ctr (p.payload.take k.pkt.bytes.toNat) with
          | .ok s _ => (State.xferMoved { s with fabric := s.fabric.unsend k } x k.pkt.bytes.toNat)
          | .wait ask =>
            let s := ask s
            { s with fabric := { s.fabric with answers := if s.fabric.answers.contains p then s.fabric.answers else s.fabric.answers ++ [p] } }
          | .stop s cause va => (State.xferFail { s with fabric := s.fabric.unsend k } y va cause)

/-- The unanswered packet that an answer is for: of a contribution or of the destination, by SEQ. -/
def Fabric.sentFor (f : Fabric) (p : Packet) : Option Sent :=
  f.sent.find? (fun k => k.pkt.plane = p.plane && k.pkt.seq = p.seq && k.pkt.coh.isNone &&
    (if k.pkt.typ = some .redcontrib then decide (k.pkt.red = p.red) else p.red.isNone && k.pkt.dst = p.src))

/-- A message of the directory comes from a spine that has failed, and is discarded (R364). -/
def Fabric.stale (f : Fabric) (c : Coh) : Bool := f.failedSpines.contains (dirPlane c.line, c.spine)

/-- An answer reaches this device: the data or an acknowledgement for a directory request, a NAK of one, a NACK, or the answer to a packet of its
own; one for a packet already answered is discarded (R352). -/
def State.answered (s : State) (p : Packet) : State :=
  match p.coh with
  | some c =>
    if s.fabric.stale c then s
    else
      match c.msg with
      | .data kept => s.lineArrives c.line kept p.payload
      | .ack => s.ackArrives c.line
      | .nack => if s.fabric.sent.any (fun k => k.use_ = .dir c.line) then s.nack c.line s.fabric.device else s
      | .req _ =>
        (match s.fabric.sent.find? (fun k => k.use_ = .dir c.line) with
         | some k => if p.nak.isSome then State.failUse { s with fabric := s.fabric.unsend k } k else s
         | none => s)
      | _ => s
  | none =>
    match s.fabric.sentFor p with
    | some k => s.takeAnswer k p
    | none => s

/-- Answers that waited for a page are tried again. -/
def State.retryAnswers (s : State) : State :=
  s.fabric.answers.foldl (fun s p =>
    State.answered { s with fabric := { s.fabric with answers := s.fabric.answers.filter (fun q => q ≠ p) } } p) s

/-- ACK, NAK and RESPONSE. -/
def Packet.isAnswer (p : Packet) : Bool :=
  match p.typ with
  | some .ack => true | some .nak => true | some .response => true | _ => false

/-! ### Serving packets (R346, R350, R352, R353, R355) -/

/-- The context of a packet at this device: one of its own with the packet's FTAG, from a device of the partition (R346). -/
def State.packetCtx (s : State) (p : Packet) : Option Nat :=
  if s.fabric.peers.contains p.src.toNat || p.src.toNat = s.fabric.device then
    (s.ctxs.find? (fun c => c.2.ftag = p.tag.toNat && c.2.state ≠ .releasing)).map Prod.fst
  else none

/-- What serving a packet comes to: an answer, no answer of its own, or a wait for a page or a block. -/
inductive Served where
  | answer (s : State) (typ : PktTy) (payload : List Byte) (nak : Option NakCause)
  | quiet (s : State)
  | wait (s : State)

/-- A written line that comes home ends its device's part in the freeing of its entry (R361, R363). -/
def State.broughtHome (s : State) (p : Packet) : State :=
  let line := remKey s.fabric.device p.addr.toNat / 256
  if p.bytes = 256 && p.addr.toNat % 256 = 0 then s.evicted line p.src.toNat else s

/-- Serve a packet to memory that this device is the destination of, for a context of its own. -/
def State.serveMem (s : State) (ctx : Nat) (p : Packet) : Served :=
  let n := p.bytes.toNat
  let pa := p.addr.toNat
  let inMap : Bool := s.inMap pa && s.inMap (pa + n - 1)
  let own := [s.own ctx pa, s.own ctx (pa + n - 1)]
  let read : Bool := decide (p.typ = some .read)
  let physOk : Bool := inMap && !own.contains .other && !(read && own.contains .mac)
  let s := if read && inMap && !own.contains .other && own.contains .mac then s.noteMac ctx pa else s
  let served : Bool := s.served pa && s.served (pa + n - 1)
  let answer (r : CopyRes (PktTy × List Byte)) : Served := match r with
    | .ok s x => .answer s x.1 x.2 none
    | .wait ask => .wait (ask s)
    | .stop s _ _ => .answer s .nak [] (some .access)
  match p.typ, p.virt with
  | some .read, true =>
    answer ((s.enginePlaces noCore ctx 0 (Packet.joiner p) p.addr n .read).bind (fun s pl =>
      .ok s (.response, (s.engineRead noCore pl).2)))
  | some .write, true =>
    answer ((s.bulkWrite noCore ctx 0 (Packet.joiner p) p.addr p.ctr (p.payload.take n)).bind (fun s _ => .ok s (.ack, [])))
  | some .read, false =>
    if !physOk then .answer s .nak [] (some .access)
    else if !served then .wait ((s.fetchTier pa).fetchTier (pa + n - 1))
    else .answer s .response ((upto n).map (fun i => if isReg pa then s.regByte (pa + i - regBase) else s.physByte (pa + i))) none
  | some .write, false =>
    if !physOk then .answer s .nak [] (some .access)
    else if !served then .wait ((s.fetchTier pa).fetchTier (pa + n - 1))
    else
      let s := ((upto n).zip p.payload).foldl (fun s x =>
        if isReg pa then s.setRegByte (pa + x.1 - regBase) x.2 else s.setPhys (pa + x.1) x.2) s
      .answer (s.broughtHome p) .ack [] none
  | _, _ => .answer s .nak [] (some .access)

/-- Serve a message of the directory, at this device or at a spine. -/
def State.serveCoh (s : State) (c : Coh) (p : Packet) : Served :=
  let next (o : Out) : Served := match o with | .next t => .quiet t | _ => .quiet s
  if s.fabric.stale c then .quiet s
  else
    match c.msg with
    | .req r => .quiet (s.dirRequest c.line r p.src.toNat)
    | .done kept => .quiet (s.dirDone c.line p.src.toNat kept)
    | .fwd r dev =>
      if (lineHome c.line).1 = s.fabric.device && ((s.packetCtx p).isNone || !s.inMap (lineHome c.line).2) then
        let q := s.cohPacket .nak dev c.line (.req r) []
        .quiet { s with fabric := { s.fabric with wire := s.fabric.wire ++ [{ q with nak := some (if (s.packetCtx p).isNone then .reject else .access) }] } }
      else next (execDirfwd c.line r dev s)
    | .resp n _ => next (execDirresp c.line n s)
    | .inv (some dev) => next (execDirectoryInv c.line dev s)
    | .inv none => .quiet ((s.giveUp c.line).evicted c.line s.fabric.device)
    | .confirm => .quiet (s.confirm c.line)
    | .census => next (execCensus c.line s)
    | _ => .quiet s

/-- Serve a packet that this device, or a switch, is the destination of. -/
def State.servePacket (s : State) (p : Packet) : Served :=
  match p.coh, p.typ with
  | some c, _ => s.serveCoh c p
  | none, some .redcontrib => .answer (s.contribute p) .ack [] none
  | none, typ =>
    match s.packetCtx p with
    | none => .answer s .nak [] (some .reject)
    | some ctx =>
      if typ = some .redresult then
        match p.red with
        | none => .answer s .nak [] (some .access)
        | some (key, _, _) =>
          match s.reduceXfer key with
          | none => .answer s .ack [] none
          | some x =>
            if s.ftagOf x.ctx ≠ p.tag.toNat then .answer s .nak [] (some .reject)
            else
              match s.writeResult key p.payload with
              | .ok s _ => .answer s .ack [] none
              | .wait ask => .wait (ask s)
              | .stop s _ _ => .answer s .nak [] (some .access)
      else s.serveMem ctx p

/-- The window of a source and plane. -/
def Fabric.window (f : Fabric) (src plane : Nat) : RecvWin :=
  (f.recv.find? (fun w => w.src = src && w.plane = plane)).getD ⟨src, plane, 0, [], []⟩

/-- Replace a window. -/
def Fabric.putWindow (f : Fabric) (w : RecvWin) : Fabric :=
  { f with recv := f.recv.filter (fun v => !(v.src = w.src && v.plane = w.plane)) ++ [w] }

/-- The window once its next packet is performed, with the answer that it keeps. -/
def RecvWin.performed (w : RecvWin) (p : Packet) (a : Option Packet) : RecvWin :=
  let kept := w.kept ++ (a.map (fun x => (w.next, x))).toList
  { w with next := (w.next + 1) % 2 ^ 32, held := w.held.filter (fun q => q.seq ≠ p.seq), kept := kept.drop (kept.length - 4096) }

/-- Deliver a window's packets in SEQ order, each performed once, its answer kept (R350, R352); at most `n` of them. -/
def State.deliverWindow (s : State) (src plane : Nat) : Nat → State
  | 0 => s
  | n + 1 =>
    let w := s.fabric.window src plane
    match w.held.find? (fun p => p.seq.toNat = w.next) with
    | none => s
    | some p =>
      match s.servePacket p with
      | .wait s => s
      | .quiet s => State.deliverWindow { s with fabric := s.fabric.putWindow (w.performed p none) } src plane n
      | .answer s typ bs nak =>
        let a := s.fabric.answerTo p typ bs nak
        let f := s.fabric.putWindow (w.performed p (some a))
        State.deliverWindow { s with fabric := { f with wire := f.wire ++ [a] } } src plane n

/-- A packet reaches its destination (R351, R352): a performed SEQ is answered again, one too far ahead is dropped, any other is
held until its turn. -/
def State.arrive (s : State) (p : Packet) : State :=
  let src := Packet.source p
  let w := s.fabric.window src p.plane.toNat
  let ahead := (p.seq.toNat + 2 ^ 32 - w.next) % 2 ^ 32
  if 2 ^ 31 ≤ ahead then
    match w.kept.find? (fun k => k.1 = p.seq.toNat) with
    | some k => { s with fabric := { s.fabric with wire := s.fabric.wire ++ [k.2] } }
    | none => s
  else if 4096 ≤ ahead then s
  else if w.held.any (fun q => q.seq = p.seq) then s
  else
    State.deliverWindow { s with fabric := s.fabric.putWindow { w with held := w.held ++ [p] } } src p.plane.toNat (w.held.length + 1)

/-- Packets that wait for a page are tried again. -/
def State.deliverAll (s : State) : State := s.fabric.recv.foldl (fun s w => s.deliverWindow w.src w.plane w.held.length) s

/-! ### Events of packets -/

/-- LINK_FLIT_REPLAY (R347): invisible above the link. -/
def execLinkFlitReplay (_port : Nat) (s : State) : Out := .next { s with fabric := { s.fabric with replays := s.fabric.replays + 1 } }

/-- Every hop of a route leaves through a port that its switch has: a down port, but for the first of three hops and the one of a contribution (R345,
R349). A result is spread by the switches' own tables (R357). -/
def Packet.routed (p : Packet) : Bool :=
  let hop (i : Nat) : Nat := p.route.toNat / 2 ^ (7 * i) % 2 ^ 7
  if p.typ = some .redresult then true
  else if p.typ = some .redcontrib then decide (p.hops = 1) && decide (64 ≤ hop 0)
  else if p.hops = 1 then decide (hop 0 < 64)
  else decide (p.hops = 3) && decide (64 ≤ hop 0) && decide (hop 1 < 64) && decide (hop 2 < 64)

/-- A message that a spine takes: a directory request or a DONE. -/
def Packet.toSpine (p : Packet) : Bool :=
  match p.coh.map Coh.msg with
  | some (.req _) => p.typ ≠ some .nak
  | some (.done _) => true
  | _ => false

/-- A packet arrives where it is served: a contribution and a directory request at their switch, any other at this device. An answer and a DONE have no SEQ
of their own (R351). -/
def State.accept (s : State) (p : Packet) : State :=
  let here := p.typ = some .redcontrib || p.typ = some .redresult || Packet.toSpine p || p.dst.toNat = s.fabric.device
  match p.typ, p.coh with
  | none, _ => { s with fabric := { s.fabric with switchErrors := s.fabric.switchErrors + 1 } }
  | some .ack, some ⟨line, spine, .done kept⟩ => if s.fabric.stale ⟨line, spine, .done kept⟩ then s else s.dirDone line p.src.toNat kept
  | _, _ => if !here then s else if Packet.isAnswer p then s.answered p else s.arrive p

/-- SWITCH_FORWARD (R347, R349): a packet on the wire goes on by its source route, or is dropped and counted; one for another device
leaves the model, and one for a spine of the directory is taken there. A packet of this device waits for a quiesced port, and is lost at one out of
service (R378, R351). -/
def State.forwardAt (s : State) (idx : Nat) : State :=
  match s.fabric.wire[idx]? with
  | none => s
  | some p =>
    let own := decide (p.src.toNat = s.fabric.device)
    if own && s.domWaits (.fabricPort p.plane.toNat) then s
    else
      let s := { s with fabric := { s.fabric with wire := s.fabric.wire.eraseIdx idx } }
      if own && s.domDead (.fabricPort p.plane.toNat) then s
      else if p.typ.isNone || !Packet.routed p then { s with fabric := { s.fabric with switchErrors := s.fabric.switchErrors + 1 } }
      else if p.typ = some .redcontrib || Packet.toSpine p || (p.typ ≠ some .redresult && p.dst.toNat = s.fabric.device) then s.accept p
      else { s with fabric := { s.fabric with delivered := s.fabric.delivered + 1 } }

/-- SWITCH_FORWARD. -/
def execSwitchForward (idx : Nat) (s : State) : Out := .next (s.forwardAt idx)

/-- CREDIT_RETURN (R349). -/
def execCreditReturn (plane leaf : Nat) (depths : List Nat) (s : State) : Out :=
  .next { s with fabric := { s.fabric with depths := s.fabric.depths.put (plane, leaf) depths } }

/-- FABRIC_PACKET_RECEIVE (R350 to R355). -/
def execFabricPacketReceive (p : Packet) (s : State) : Out := .next (s.accept p)

/-- FABRIC_ANSWER_RECEIVE (R352 to R356). -/
def execFabricAnswerReceive (p : Packet) (s : State) : Out := .next (if Packet.isAnswer p then s.answered p else s)

/-- A packet on its next alternative; a contribution and a directory message have the one route that they have. -/
def Fabric.reroute (f : Fabric) (p : Packet) (alt : Nat) : Packet :=
  if p.typ = some .redcontrib || p.coh.isSome then p
  else
    let r := routeTo f.device p.dst.toNat (f.altSpine p.dst.toNat p.plane.toNat alt)
    { p with hops := BitVec.ofNat 2 r.1, route := BitVec.ofNat 28 r.2 }

/-- E2E_RESEND (R351): resent with the same SEQ on the next alternative, at most eight times (a directory request fails over instead, R364); then the destination is unreachable on
the plane and the access fails. -/
def execE2eResend (dst plane seq : Nat) (s : State) : Out :=
  .next (match s.fabric.sent.find? (fun k => Packet.peer k.pkt = dst && k.pkt.plane.toNat = plane && k.pkt.seq.toNat = seq &&
      decide (k.at_ + 2 ^ 18 ≤ s.clock) && decide (k.pkt.typ ≠ some .dirreq)) with
    | none => s
    | some k =>
      let f := s.fabric
      if k.resends < 8 then
        let n := (f.alternatives k.pkt.dst.toNat plane).length
        let alt := if n = 0 then 0 else (k.alt + 1) % n
        let p := f.reroute k.pkt alt
        { s with fabric := { f with
            sent := f.sent.map (fun x => if x = k then { k with pkt := p, at_ := s.clock, resends := k.resends + 1, alt := alt } else x)
            wire := f.wire ++ [p] } }
      else
        State.failUse { s with fabric := { f.unsend k with unreach := if f.unreach.contains (dst, plane) then f.unreach else f.unreach ++ [(dst, plane)] } } k)

/-! ### Events of the directory that this device's own messages make (R361, R362) -/

/-- DIRREQ (R360 to R363): a request reaches the spine; this device's own is the one on the fabric. -/
def execDirreq (line : Nat) (req : DirReq) (dev : Nat) (s : State) : Out :=
  .next (if dev = s.fabric.device then
      match s.fabric.wire.findIdx? (fun p => p.src.toNat = dev && decide (p.coh.map (fun c => (c.line, c.msg)) = some (line, CohMsg.req req))) with
      | some i => s.forwardAt i
      | none => s
    else s.dirRequest line req dev)

/-- DIRECTORY_DONE (R361 to R363): a requester's DONE frees the entry and releases the supplier; this device's own is the one on the fabric. Of another it
may also be the acknowledgement, or the write-back to another home, for an entry that is being freed. -/
def execDirectoryDone (line dev : Nat) (s : State) : Out :=
  let d := s.fabric.dirLine line
  .next (if dev = s.fabric.device then
      match s.fabric.wire.findIdx? (fun p => p.src.toNat = dev && (match p.coh with | some ⟨l, _, .done _⟩ => l = line | _ => false)) with
      | some i => s.forwardAt i
      | none => s
    else if d.evict.contains dev then
      if d.owner.map Prod.fst = some dev && (lineHome line).1 = s.fabric.device then s else s.evicted line dev
    else s.dirDone line dev (match d.owner with | some (_, .e) => false | _ => true))

end Sys2Proof.Machine
end

