-- ==== Sys2Proof/Machine/Masks.lean ====
section
/-!
DEFINITION. Machine/Masks.lean: the mask instructions 0x30 to 0x37 (R184, R185).
-/
namespace Sys2Proof.Machine
open Sys2Proof

/-- The value of a mask number (R176). -/
def Me.mask (m : Me) : MNum → TMask
  | .k n => m.st.kGet n.toNat
  | .em => m.em

/-- Write EM, within the fragment's FM (R29). -/
def State.setEm (s : State) (m : Me) (x : TMask) : State := s.updFrag m.sid m.fi (fun f => { f with em := x &&& f.fm })

/-- Write a k register. -/
def State.setK (s : State) (m : Me) (n : Nat) (x : TMask) : State := s.updStrand m.sid (fun st => st.kSet n x)

/-- Write a mask number. -/
def State.setMask (s : State) (m : Me) (d : MNum) (x : TMask) : State :=
  match d with
  | .k n => s.setK m n.toNat x
  | .em => s.setEm m x

/-- A mask instruction that writes no register: with EM = 0 it does nothing (R31, R185). -/
def runMask (p : Option Pfx) (s : State) (f : Me → State) : Out :=
  asStrand s (fun m => if m.em = 0 then s.finishVec m false 1 (pfxLen p 4) else (f m).finishVec m false 8 (pfxLen p 4))

/-- The function of KOP (Table 10.7). -/
def KFn.apply_ (fn : KFn) (a b : TMask) : TMask :=
  match fn with
  | .and => a &&& b | .or => a ||| b | .xor => a ^^^ b | .andn => a &&& ~~~b | .not => ~~~a | .mov => a | .set => 0xFF | .clr => 0

/-- A mask instruction that writes a register in every active thread. -/
def maskVec (p : Option Pfx) (n : Bool) (d : Sel) (f : Nat) : Vec :=
  { pfx := p, lit := 0, len := pfxLen p 4, exec := false, ok := fun _ => true, srcs := fun _ => [], dst := fun ty => .sel d n ty,
    run := byThread (fun _ _ => f) }

/-- Run it with the value that the issuing strand's masks give. -/
def runMaskVal (p : Option Pfx) (n : Bool) (d : Sel) (f : Me → Nat) (s : State) : Out := runVecOf (fun m => maskVec p n d (f m)) s

def execKop (p : Option Pfx) (fn : KFn) (d a b : MNum) (s : State) : Out :=
  runMask p s (fun m => s.setMask m d (KFn.apply_ fn (m.mask a) (m.mask b)))
def execKfroms (p : Option Pfx) (k : BitVec 3) (sa : BitVec 5) (s : State) : Out :=
  runMask p s (fun m => s.setK m k.toNat ((m.st.sGet sa.toNat).extractLsb' 0 8))
def execKtos (p : Option Pfx) (n : Bool) (d : Sel) (a : MNum) (s : State) : Out := runMaskVal p n d (fun m => (m.mask a).toNat) s
def execKpopc (p : Option Pfx) (n : Bool) (d : Sel) (a : MNum) (s : State) : Out :=
  runMaskVal p n d (fun m => TMask.count (m.mask a)) s
def execKffs (p : Option Pfx) (n : Bool) (d : Sel) (a : MNum) (s : State) : Out :=
  runMaskVal p n d (fun m => if m.mask a = 0 then 8 else TMask.lowest (m.mask a)) s
def execSetem (p : Option Pfx) (x : SetemArg) (s : State) : Out :=
  runMask p s (fun m => s.setEm m (match x with | .k n => m.st.kGet n.toNat | .imm i => i))
def execEmsave (p : Option Pfx) (k : BitVec 3) (s : State) : Out := runMask p s (fun m => s.setK m k.toNat m.em)
def execEmrest (p : Option Pfx) (k : BitVec 3) (s : State) : Out := runMask p s (fun m => s.setEm m (m.st.kGet k.toNat))

end Sys2Proof.Machine
end

