-- ==== Sys2Proof/Machine/QueueInstr.lean ====
section
/-!
DEFINITION. Machine/QueueInstr.lean: DEQ, ENQ, QCNT and QDROP (R197, R198).
-/
namespace Sys2Proof.Machine
open Sys2Proof

/-- DEQ as a vector instruction: its source is the queue. -/
def deqVec (p : Option Pfx) (d : Sel) (q : BitVec 4) : Vec :=
  { pfx := p, lit := 0, len := pfxLen p 4, exec := false, ok := fun _ => true, srcs := fun ty => [⟨.queue q, .none, ty⟩],
    dst := fun ty => .sel d false ty, run := byThread (fun _ x => x 0) }

/-- ENQ as a vector instruction: its destination is the queue's tail. -/
def enqVec (p : Option Pfx) (len : Nat) (q : BitVec 4) (a : Sel) (tag : BitVec 2) (ch : Option Nat) : Vec :=
  { pfx := p, lit := 0, len := pfxLen p len, exec := false, ok := fun _ => true, srcs := fun ty => [⟨a, .a, ty⟩],
    dst := fun ty => .enq q.toNat ch tag ty, run := byThread (fun _ x => x 0) }

/-- QCNT's status word (Table 10.12). -/
def State.qcntWord (s : State) (m : Me) (q : Queue) : Nat :=
  if q.decl.kind.consumer = m.sid.slice then
    let v := q.view m.sid.idx
    let pending := match v with | e :: _ => e.pend.isSome | [] => false
    let filled : Option QEntry := match v with | e :: _ => if e.pend.isSome then none else some e | [] => none
    let tag : BitVec 2 := match filled with | some e => e.tag | none => 0
    v.length % 2 ^ 13 + (if pending then 2 ^ 13 else 0) +
      (if v.isEmpty && s.producersGone m.sid.wg q then 2 ^ 14 else 0) + (if tag = 3 then 2 ^ 15 else 0) + tag.toNat * 2 ^ 16
  else q.room (q.channel m.sid.idx) % 2 ^ 13

/-- QCNT as a vector instruction, for the issuing strand: every active thread receives the status word. -/
def qcntVec (p : Option Pfx) (n : Bool) (d : Sel) (q : BitVec 4) (s : State) (m : Me) : Vec :=
  { pfx := p, lit := 0, len := pfxLen p 4, exec := false, ok := fun _ => (m.queue q.toNat).isSome, srcs := fun _ => [],
    dst := fun ty => .sel d n ty, run := byThread (fun _ _ => match m.queue q.toNat with | some qu => s.qcntWord m qu | none => 0) }

/-- QDROP with an active thread (R198). -/
def State.qdrop (s : State) (m : Me) (p : Option Pfx) (qn : Nat) : State :=
  match m.queue qn with
  | none => s.raise m .illegal
  | some q =>
    if !m.directionOk [qn] [] then s.raise m .queueDirection
    else
      match q.view m.sid.idx with
      | [] =>
        if s.producersGone m.sid.wg q then (s.setQt m 2).finishVec m true 8 (pfxLen p 4)
        else s.block m (.queues [(qn, 1)] [])
      | e :: _ =>
        if e.pend.isSome then s.block m (.queues [(qn, 1)] [])
        else
          let s := if q.decl.bcast then s else s.discardPoison m.wg.ctx e
          let s := (s.putQueue m.sid.wg qn (q.take m.sid.idx 1)).sweepQueue m.sid.wg qn
          (s.setQt m e.tag).finishVec m true 8 (pfxLen p 4)

def execDeq (p : Option Pfx) (d : Sel) (q : BitVec 4) (s : State) : Out := runVec (deqVec p d q) s
def execEnq (p : Option Pfx) (q : BitVec 4) (a : Sel) (tag : BitVec 2) (s : State) : Out := runVec (enqVec p 4 q a tag none) s
def execEnqX2 (p : Option Pfx) (q : BitVec 4) (a : Sel) (tag : BitVec 2) (ch : BitVec 12) (s : State) : Out :=
  runVec (enqVec p 8 q a tag (some ch.toNat)) s
def execQcnt (p : Option Pfx) (n : Bool) (d : Sel) (q : BitVec 4) (s : State) : Out := runVecOf (qcntVec p n d q s) s
def execQdrop (p : Option Pfx) (q : BitVec 4) (s : State) : Out :=
  asYielding s (fun m => if m.em = 0 then s.finishVec m true 1 (pfxLen p 4) else s.qdrop m p q.toNat)

end Sys2Proof.Machine
end

