-- ==== Sys2Proof/Machine/Scalar.lean ====
section
/-!
DEFINITION. Machine/Scalar.lean: the uniform scalar instructions (R206, Table 10.16).
-/
namespace Sys2Proof.Machine
open Sys2Proof

/-- The second operand of the 32-bit form: an s register, or IMM8 sign-extended. -/
def SOp.val (st : Strand) : SOp → W64
  | .reg r => st.sGet r.toNat
  | .imm i => i.signExtend 64

/-- The literal of an X1 form, read as i64 (R160). -/
def litVal (l : W32) : W64 := l.signExtend 64

/-- A scalar instruction that sets no flag: sD := f(sA, op). -/
def runScalar (d a : BitVec 5) (len : Nat) (op : Strand → W64) (f : Me → W64 → W64 → W64) (s : State) : Out :=
  asStrand s (fun m => s.writeS m d.toNat (f m (m.st.sGet a.toNat) (op m.st)) len)

/-- SMUL's functions. -/
def SMulFn.val (fn : SMulFn) (a b : W64) : W64 :=
  match fn with
  | .lo => a * b
  | .his => BitVec.ofInt 64 (a.toInt * b.toInt / ((2 ^ 64 : Nat) : Int))
  | .hiu => BitVec.ofNat 64 (a.toNat * b.toNat / 2 ^ 64)

/-- SLOG's functions. -/
def SLogFn.val (fn : SLogFn) (a b : W64) : W64 :=
  match fn with
  | .and => a &&& b | .or => a ||| b | .xor => a ^^^ b | .andn => a &&& ~~~b | .not => ~~~a

/-- SSHF's functions: by op mod 64. -/
def SShfFn.val (fn : SShfFn) (a b : W64) : W64 :=
  let n := b.toNat % 64
  match fn with
  | .shl => a <<< n | .shr => a >>> n | .sra => a.sshiftRight n | .rot => a.rotateLeft n

/-- SCMP: signed, but LTN and GEN unsigned. -/
def scmpVal (c : Cond) (a b : W64) : W64 := if c.holds a.toInt b.toInt a.toNat b.toNat then 1 else 0

/-- SDIV's functions (R81). -/
def SDivFn.val (fn : SDivFn) (sat : Bool) (a b : W64) : FRes :=
  match fn with
  | .qs => divCode true 64 sat a.toNat b.toNat
  | .qu => divCode false 64 sat a.toNat b.toNat
  | .rs => remCode true 64 a.toNat b.toNat
  | .ru => remCode false 64 a.toNat b.toNat

/-- SDIV: the result with its flags. -/
def runSdiv (fn : SDivFn) (d a : BitVec 5) (len : Nat) (op : Strand → W64) (s : State) : Out :=
  asStrand s (fun m =>
    let r := SDivFn.val fn (modeSat m.st.mode) (m.st.sGet a.toNat) (op m.st)
    (s.updStrand m.sid (fun st => st.raise r.flags)).writeS m d.toNat (BitVec.ofNat 64 r.code) len)

/-- SSEL's choice: sA when an active thread's bit of kN is 1. -/
def sselVal (k : BitVec 3) (m : Me) (a b : W64) : W64 := if m.st.kGet k.toNat &&& m.em ≠ 0 then a else b

def execSadd (d a : BitVec 5) (op : SOp) (s : State) : Out := runScalar d a 4 (fun st => SOp.val st op) (fun _ x y => x + y) s
def execSaddX1 (d a : BitVec 5) (lit : W32) (s : State) : Out := runScalar d a 8 (fun _ => litVal lit) (fun _ x y => x + y) s
def execSsub (d a : BitVec 5) (op : SOp) (s : State) : Out := runScalar d a 4 (fun st => SOp.val st op) (fun _ x y => x - y) s
def execSsubX1 (d a : BitVec 5) (lit : W32) (s : State) : Out := runScalar d a 8 (fun _ => litVal lit) (fun _ x y => x - y) s
def execSmul (fn : SMulFn) (d a : BitVec 5) (op : SOp) (s : State) : Out :=
  runScalar d a 4 (fun st => SOp.val st op) (fun _ x y => SMulFn.val fn x y) s
def execSmulX1 (fn : SMulFn) (d a : BitVec 5) (lit : W32) (s : State) : Out :=
  runScalar d a 8 (fun _ => litVal lit) (fun _ x y => SMulFn.val fn x y) s
def execSlog (fn : SLogFn) (d a : BitVec 5) (op : SOp) (s : State) : Out :=
  runScalar d a 4 (fun st => SOp.val st op) (fun _ x y => SLogFn.val fn x y) s
def execSlogX1 (fn : SLogFn) (d a : BitVec 5) (lit : W32) (s : State) : Out :=
  runScalar d a 8 (fun _ => litVal lit) (fun _ x y => SLogFn.val fn x y) s
def execSshf (fn : SShfFn) (d a : BitVec 5) (op : SOp) (s : State) : Out :=
  runScalar d a 4 (fun st => SOp.val st op) (fun _ x y => SShfFn.val fn x y) s
def execSshfX1 (fn : SShfFn) (d a : BitVec 5) (lit : W32) (s : State) : Out :=
  runScalar d a 8 (fun _ => litVal lit) (fun _ x y => SShfFn.val fn x y) s
def execScmp (c : Cond) (d a : BitVec 5) (op : SOp) (s : State) : Out :=
  runScalar d a 4 (fun st => SOp.val st op) (fun _ x y => scmpVal c x y) s
def execScmpX1 (c : Cond) (d a : BitVec 5) (lit : W32) (s : State) : Out :=
  runScalar d a 8 (fun _ => litVal lit) (fun _ x y => scmpVal c x y) s
def execSmov (d a : BitVec 5) (s : State) : Out := runScalar d a 4 (fun _ => 0) (fun _ x _ => x) s
def execSli (d : BitVec 5) (imm : BitVec 17) (s : State) : Out :=
  runScalar d 0 4 (fun _ => imm.signExtend 64) (fun _ _ y => y) s
def execSliX1 (d : BitVec 5) (lit : W32) (s : State) : Out := runScalar d 0 8 (fun _ => litVal lit) (fun _ _ y => y) s
def execSsel (k : BitVec 3) (d a : BitVec 5) (op : SOp) (s : State) : Out :=
  runScalar d a 4 (fun st => SOp.val st op) (sselVal k) s
def execSselX1 (k : BitVec 3) (d a : BitVec 5) (lit : W32) (s : State) : Out :=
  runScalar d a 8 (fun _ => litVal lit) (sselVal k) s
def execSdiv (fn : SDivFn) (d a : BitVec 5) (op : SOp) (s : State) : Out := runSdiv fn d a 4 (fun st => SOp.val st op) s
def execSdivX1 (fn : SDivFn) (d a : BitVec 5) (lit : W32) (s : State) : Out := runSdiv fn d a 8 (fun _ => litVal lit) s

end Sys2Proof.Machine
end

