-- ==== Sys2Proof/Machine/Sync.lean ====
section
/-!
DEFINITION. Machine/Sync.lean: FENCE, BARW and PHASE (R287 to R289).
-/
namespace Sys2Proof.Machine
open Sys2Proof

/-- FENCE (R131, R287): it stalls until what it orders has performed and the strand's Mend-log entries are replayed. -/
def execFence (_scope : Scope) (f : FenceF) (s : State) : Out :=
  asStrand s (fun m =>
    let ready := match f with
      | .full => s.allPrior m
      | .rel => s.allPrior m
      | .acq => s.loadsPrior m && (s.mends m.sid).isEmpty
    if ready then s.advance m 4 else s)

/-- The slices that SL names. -/
def BarSl.names : BarSl → Slice → Bool
  | .access, .access => true
  | .execute, .execute => true
  | .both, _ => true
  | _, _ => false

/-- BARW (R288): arrival, once for a strand in a generation, is a release; the fragment blocks, and goes on at completion. -/
def execBarw (b : BitVec 3) (sl : BarSl) (s : State) : Out :=
  asYielding s (fun m =>
    let bar := m.wg.barriers.findD b.toNat Barrier.fresh
    let mine := (m.sid.slice, m.sid.idx)
    if !BarSl.names sl m.sid.slice || (bar.sl.isSome && bar.sl ≠ some sl) then s.raise m .illegal
    else if !s.allPrior m then s
    else
      let arrived := if bar.arrived.contains mine then bar.arrived else bar.arrived ++ [mine]
      let s := s.updWg m.sid.wg (fun g => { g with barriers := g.barriers.put b.toNat { bar with sl := some sl, arrived := arrived } })
      (s.block m (.barrier b.toNat bar.gen)).barrierCheck m.sid.wg)

/-- PHASE.rel (R135, R289). -/
def execPhaseRel (_sys : Bool) (s : State) : Out :=
  asStrand s (fun m =>
    if !m.access then s.raise m .illegal
    else if !s.allPrior m then s
    else (s.phaseRelease m.core).advance m 4)

/-- PHASE.acq (R135, R289): it waits for the acquires before it (R126). -/
def execPhaseAcq (_sys : Bool) (s : State) : Out :=
  asStrand s (fun m =>
    if !m.access then s.raise m .illegal
    else if !(s.mends m.sid).isEmpty || s.acqHeld m then s
    else (s.phaseAcquire m.core).advance m 4)

end Sys2Proof.Machine
end

