-- ==== Sys2Proof/Machine/WorkGraph.lean ====
section
/-!
DEFINITION. Machine/WorkGraph.lean: EMIT, LAUNCH and PHINT (R290 to R292).
-/
namespace Sys2Proof.Machine
open Sys2Proof

/-- Push the record at a shared offset (R290): copied at issue, a phase boundary of the core (R137), and stalled while the Work
Distributor cannot accept it. -/
def State.push (s : State) (m : Me) (r : BitVec 5) (child : Option (Nat × W64)) : State :=
  match s.recordAt m (bits (m.st.sGet r.toNat) 0 32) with
  | none => s.raise m .bounds
  | some bs =>
    if !s.allPrior m then s
    else
      match (s.phaseRelease m.core).pushRecord (.wg m.wg.task m.wg.node m.wg.ctx m.sid) bs child with
      | none => s
      | some s => s.advance m 4

/-- EMIT (R290). -/
def execEmit (r : BitVec 5) (s : State) : Out := asStrand s (fun m => s.push m r none)

/-- LAUNCH (R291): from the lead execute strand, to depth 10. -/
def execLaunch (r : BitVec 5) (s : State) : Out :=
  asStrand s (fun m =>
    if m.access then s.raise m .illegal
    else if m.sid.idx ≠ 0 then s.raise m .issueRights
    else if 10 ≤ m.wg.depth then s.raise m .nestDepth
    else s.push m r (some (m.wg.depth + 1, m.wg.task)))

/-- PHINT (R292). -/
def execPhint (memory : Bool) (s : State) : Out :=
  asStrand s (fun m => (s.updWg m.sid.wg (fun g => { g with memClass := memory })).advance m 4)

end Sys2Proof.Machine
end

