-- ==== Sys2Proof/Machine/Dispatch.lean ====
section
/-!
DEFINITION. Machine/Dispatch.lean: one arm for each constructor of Instr, each a direct call of its meaning.
-/
namespace Sys2Proof.Machine
open Sys2Proof

/-- The meaning of a step of the opcode table. -/
def exec (i : Instr) (s : State) : Host.Outcome State Fault Refusal :=
  match i with
  | .vadd a0 a1 => Sys2Proof.Machine.execVadd a0 a1 s
  | .vaddX1 a0 a1 => Sys2Proof.Machine.execVaddX1 a0 a1 s
  | .vsub a0 a1 => Sys2Proof.Machine.execVsub a0 a1 s
  | .vsubX1 a0 a1 => Sys2Proof.Machine.execVsubX1 a0 a1 s
  | .vmul a0 a1 => Sys2Proof.Machine.execVmul a0 a1 s
  | .vmulX1 a0 a1 => Sys2Proof.Machine.execVmulX1 a0 a1 s
  | .vmulh a0 a1 => Sys2Proof.Machine.execVmulh a0 a1 s
  | .vmulhX1 a0 a1 => Sys2Proof.Machine.execVmulhX1 a0 a1 s
  | .vmad a0 a1 => Sys2Proof.Machine.execVmad a0 a1 s
  | .vneg a0 a1 => Sys2Proof.Machine.execVneg a0 a1 s
  | .vnegX1 a0 a1 => Sys2Proof.Machine.execVnegX1 a0 a1 s
  | .vabs a0 a1 => Sys2Proof.Machine.execVabs a0 a1 s
  | .vabsX1 a0 a1 => Sys2Proof.Machine.execVabsX1 a0 a1 s
  | .vmin a0 a1 => Sys2Proof.Machine.execVmin a0 a1 s
  | .vminX1 a0 a1 => Sys2Proof.Machine.execVminX1 a0 a1 s
  | .vmax a0 a1 => Sys2Proof.Machine.execVmax a0 a1 s
  | .vmaxX1 a0 a1 => Sys2Proof.Machine.execVmaxX1 a0 a1 s
  | .vavg a0 a1 => Sys2Proof.Machine.execVavg a0 a1 s
  | .vavgX1 a0 a1 => Sys2Proof.Machine.execVavgX1 a0 a1 s
  | .vsad a0 a1 => Sys2Proof.Machine.execVsad a0 a1 s
  | .vsadX1 a0 a1 => Sys2Proof.Machine.execVsadX1 a0 a1 s
  | .vaddc a0 a1 => Sys2Proof.Machine.execVaddc a0 a1 s
  | .vaddcX1 a0 a1 => Sys2Proof.Machine.execVaddcX1 a0 a1 s
  | .vand a0 a1 => Sys2Proof.Machine.execVand a0 a1 s
  | .vandX1 a0 a1 => Sys2Proof.Machine.execVandX1 a0 a1 s
  | .vor a0 a1 => Sys2Proof.Machine.execVor a0 a1 s
  | .vorX1 a0 a1 => Sys2Proof.Machine.execVorX1 a0 a1 s
  | .vxor a0 a1 => Sys2Proof.Machine.execVxor a0 a1 s
  | .vxorX1 a0 a1 => Sys2Proof.Machine.execVxorX1 a0 a1 s
  | .vnot a0 a1 => Sys2Proof.Machine.execVnot a0 a1 s
  | .vnotX1 a0 a1 => Sys2Proof.Machine.execVnotX1 a0 a1 s
  | .vshl a0 a1 => Sys2Proof.Machine.execVshl a0 a1 s
  | .vshlX1 a0 a1 => Sys2Proof.Machine.execVshlX1 a0 a1 s
  | .vshr a0 a1 => Sys2Proof.Machine.execVshr a0 a1 s
  | .vshrX1 a0 a1 => Sys2Proof.Machine.execVshrX1 a0 a1 s
  | .vsra a0 a1 => Sys2Proof.Machine.execVsra a0 a1 s
  | .vsraX1 a0 a1 => Sys2Proof.Machine.execVsraX1 a0 a1 s
  | .vrot a0 a1 => Sys2Proof.Machine.execVrot a0 a1 s
  | .vrotX1 a0 a1 => Sys2Proof.Machine.execVrotX1 a0 a1 s
  | .vpopc a0 a1 => Sys2Proof.Machine.execVpopc a0 a1 s
  | .vclz a0 a1 => Sys2Proof.Machine.execVclz a0 a1 s
  | .vbrev a0 a1 => Sys2Proof.Machine.execVbrev a0 a1 s
  | .vbfx a0 a1 a2 a3 a4 a5 => Sys2Proof.Machine.execVbfx a0 a1 a2 a3 a4 a5 s
  | .vbfi a0 a1 a2 a3 a4 a5 => Sys2Proof.Machine.execVbfi a0 a1 a2 a3 a4 a5 s
  | .vsel a0 a1 a2 a3 a4 => Sys2Proof.Machine.execVsel a0 a1 a2 a3 a4 s
  | .vmov a0 a1 => Sys2Proof.Machine.execVmov a0 a1 s
  | .vmovX1 a0 a1 => Sys2Proof.Machine.execVmovX1 a0 a1 s
  | .vdiv a0 a1 => Sys2Proof.Machine.execVdiv a0 a1 s
  | .vdivX1 a0 a1 => Sys2Proof.Machine.execVdivX1 a0 a1 s
  | .vrem a0 a1 => Sys2Proof.Machine.execVrem a0 a1 s
  | .vremX1 a0 a1 => Sys2Proof.Machine.execVremX1 a0 a1 s
  | .vcmp a0 a1 a2 a3 a4 => Sys2Proof.Machine.execVcmp a0 a1 a2 a3 a4 s
  | .vcmpX1 a0 a1 a2 a3 a4 a5 => Sys2Proof.Machine.execVcmpX1 a0 a1 a2 a3 a4 a5 s
  | .vclamp a0 a1 => Sys2Proof.Machine.execVclamp a0 a1 s
  | .vshuf a0 a1 => Sys2Proof.Machine.execVshuf a0 a1 s
  | .vshufX1 a0 a1 => Sys2Proof.Machine.execVshufX1 a0 a1 s
  | .vbcast a0 a1 => Sys2Proof.Machine.execVbcast a0 a1 s
  | .vbcastX1 a0 a1 => Sys2Proof.Machine.execVbcastX1 a0 a1 s
  | .vrott a0 a1 => Sys2Proof.Machine.execVrott a0 a1 s
  | .vrottX1 a0 a1 => Sys2Proof.Machine.execVrottX1 a0 a1 s
  | .vred a0 a1 a2 a3 => Sys2Proof.Machine.execVred a0 a1 a2 a3 s
  | .vscan a0 a1 a2 a3 a4 a5 => Sys2Proof.Machine.execVscan a0 a1 a2 a3 a4 a5 s
  | .v2s a0 a1 a2 a3 => Sys2Proof.Machine.execV2s a0 a1 a2 a3 s
  | .vidx a0 a1 => Sys2Proof.Machine.execVidx a0 a1 s
  | .kop a0 a1 a2 a3 a4 => Sys2Proof.Machine.execKop a0 a1 a2 a3 a4 s
  | .kfroms a0 a1 a2 => Sys2Proof.Machine.execKfroms a0 a1 a2 s
  | .ktos a0 a1 a2 a3 => Sys2Proof.Machine.execKtos a0 a1 a2 a3 s
  | .kpopc a0 a1 a2 a3 => Sys2Proof.Machine.execKpopc a0 a1 a2 a3 s
  | .kffs a0 a1 a2 a3 => Sys2Proof.Machine.execKffs a0 a1 a2 a3 s
  | .setem a0 a1 => Sys2Proof.Machine.execSetem a0 a1 s
  | .emsave a0 a1 => Sys2Proof.Machine.execEmsave a0 a1 s
  | .emrest a0 a1 => Sys2Proof.Machine.execEmrest a0 a1 s
  | .fadd a0 a1 => Sys2Proof.Machine.execFadd a0 a1 s
  | .faddX1 a0 a1 => Sys2Proof.Machine.execFaddX1 a0 a1 s
  | .fsub a0 a1 => Sys2Proof.Machine.execFsub a0 a1 s
  | .fsubX1 a0 a1 => Sys2Proof.Machine.execFsubX1 a0 a1 s
  | .fmul a0 a1 => Sys2Proof.Machine.execFmul a0 a1 s
  | .fmulX1 a0 a1 => Sys2Proof.Machine.execFmulX1 a0 a1 s
  | .fma a0 a1 => Sys2Proof.Machine.execFma a0 a1 s
  | .fmac a0 a1 => Sys2Proof.Machine.execFmac a0 a1 s
  | .fmacX1 a0 a1 => Sys2Proof.Machine.execFmacX1 a0 a1 s
  | .fmin a0 a1 => Sys2Proof.Machine.execFmin a0 a1 s
  | .fminX1 a0 a1 => Sys2Proof.Machine.execFminX1 a0 a1 s
  | .fmax a0 a1 => Sys2Proof.Machine.execFmax a0 a1 s
  | .fmaxX1 a0 a1 => Sys2Proof.Machine.execFmaxX1 a0 a1 s
  | .fabs a0 a1 => Sys2Proof.Machine.execFabs a0 a1 s
  | .fabsX1 a0 a1 => Sys2Proof.Machine.execFabsX1 a0 a1 s
  | .fneg a0 a1 => Sys2Proof.Machine.execFneg a0 a1 s
  | .fnegX1 a0 a1 => Sys2Proof.Machine.execFnegX1 a0 a1 s
  | .frcp a0 a1 => Sys2Proof.Machine.execFrcp a0 a1 s
  | .frcpX1 a0 a1 => Sys2Proof.Machine.execFrcpX1 a0 a1 s
  | .frsq a0 a1 => Sys2Proof.Machine.execFrsq a0 a1 s
  | .frsqX1 a0 a1 => Sys2Proof.Machine.execFrsqX1 a0 a1 s
  | .fsqrt a0 a1 => Sys2Proof.Machine.execFsqrt a0 a1 s
  | .fsqrtX1 a0 a1 => Sys2Proof.Machine.execFsqrtX1 a0 a1 s
  | .fdiv a0 a1 => Sys2Proof.Machine.execFdiv a0 a1 s
  | .fdivX1 a0 a1 => Sys2Proof.Machine.execFdivX1 a0 a1 s
  | .fexp2 a0 a1 => Sys2Proof.Machine.execFexp2 a0 a1 s
  | .fexp2X1 a0 a1 => Sys2Proof.Machine.execFexp2X1 a0 a1 s
  | .flog2 a0 a1 => Sys2Proof.Machine.execFlog2 a0 a1 s
  | .flog2X1 a0 a1 => Sys2Proof.Machine.execFlog2X1 a0 a1 s
  | .fsin a0 a1 => Sys2Proof.Machine.execFsin a0 a1 s
  | .fsinX1 a0 a1 => Sys2Proof.Machine.execFsinX1 a0 a1 s
  | .fcos a0 a1 => Sys2Proof.Machine.execFcos a0 a1 s
  | .fcosX1 a0 a1 => Sys2Proof.Machine.execFcosX1 a0 a1 s
  | .frint a0 a1 => Sys2Proof.Machine.execFrint a0 a1 s
  | .frintX1 a0 a1 => Sys2Proof.Machine.execFrintX1 a0 a1 s
  | .fclass a0 a1 => Sys2Proof.Machine.execFclass a0 a1 s
  | .fclassX1 a0 a1 => Sys2Proof.Machine.execFclassX1 a0 a1 s
  | .fscl a0 a1 => Sys2Proof.Machine.execFscl a0 a1 s
  | .fsclX1 a0 a1 => Sys2Proof.Machine.execFsclX1 a0 a1 s
  | .fcmp a0 a1 a2 a3 a4 => Sys2Proof.Machine.execFcmp a0 a1 a2 a3 a4 s
  | .fcmpX1 a0 a1 a2 a3 a4 a5 => Sys2Proof.Machine.execFcmpX1 a0 a1 a2 a3 a4 a5 s
  | .fdot2 a0 a1 => Sys2Proof.Machine.execFdot2 a0 a1 s
  | .fdot2X1 a0 a1 => Sys2Proof.Machine.execFdot2X1 a0 a1 s
  | .fdot4 a0 a1 => Sys2Proof.Machine.execFdot4 a0 a1 s
  | .fdot4X1 a0 a1 => Sys2Proof.Machine.execFdot4X1 a0 a1 s
  | .fclamp a0 a1 => Sys2Proof.Machine.execFclamp a0 a1 s
  | .ftanh a0 a1 => Sys2Proof.Machine.execFtanh a0 a1 s
  | .ftanhX1 a0 a1 => Sys2Proof.Machine.execFtanhX1 a0 a1 s
  | .cvt a0 a1 => Sys2Proof.Machine.execCvt a0 a1 s
  | .pack a0 a1 => Sys2Proof.Machine.execPack a0 a1 s
  | .packX1 a0 a1 => Sys2Proof.Machine.execPackX1 a0 a1 s
  | .unpack a0 a1 => Sys2Proof.Machine.execUnpack a0 a1 s
  | .unpackX1 a0 a1 => Sys2Proof.Machine.execUnpackX1 a0 a1 s
  | .qscale a0 a1 => Sys2Proof.Machine.execQscale a0 a1 s
  | .deq a0 a1 a2 => Sys2Proof.Machine.execDeq a0 a1 a2 s
  | .enq a0 a1 a2 a3 => Sys2Proof.Machine.execEnq a0 a1 a2 a3 s
  | .enqX2 a0 a1 a2 a3 a4 => Sys2Proof.Machine.execEnqX2 a0 a1 a2 a3 a4 s
  | .qcnt a0 a1 a2 a3 => Sys2Proof.Machine.execQcnt a0 a1 a2 a3 s
  | .qdrop a0 a1 => Sys2Proof.Machine.execQdrop a0 a1 s
  | .acrd a0 a1 a2 a3 => Sys2Proof.Machine.execAcrd a0 a1 a2 a3 s
  | .acrdX1 a0 a1 a2 a3 => Sys2Proof.Machine.execAcrdX1 a0 a1 a2 a3 s
  | .acwr a0 a1 a2 a3 => Sys2Proof.Machine.execAcwr a0 a1 a2 a3 s
  | .acwrX1 a0 a1 a2 a3 a4 => Sys2Proof.Machine.execAcwrX1 a0 a1 a2 a3 a4 s
  | .ld a0 a1 a2 a3 a4 => Sys2Proof.Machine.execLd a0 a1 a2 a3 a4 s
  | .st a0 a1 a2 a3 => Sys2Proof.Machine.execSt a0 a1 a2 a3 s
  | .ldq a0 a1 a2 a3 a4 a5 => Sys2Proof.Machine.execLdq a0 a1 a2 a3 a4 a5 s
  | .ldqb a0 a1 => Sys2Proof.Machine.execLdqb a0 a1 s
  | .gatherq a0 a1 a2 a3 a4 a5 a6 => Sys2Proof.Machine.execGatherq a0 a1 a2 a3 a4 a5 a6 s
  | .gatherqList a0 a1 => Sys2Proof.Machine.execGatherqList a0 a1 s
  | .stq a0 a1 a2 a3 => Sys2Proof.Machine.execStq a0 a1 a2 a3 s
  | .scatq a0 a1 a2 a3 => Sys2Proof.Machine.execScatq a0 a1 a2 a3 s
  | .lds a0 a1 a2 a3 => Sys2Proof.Machine.execLds a0 a1 a2 a3 s
  | .ldsX1 a0 a1 a2 a3 a4 => Sys2Proof.Machine.execLdsX1 a0 a1 a2 a3 a4 s
  | .sts a0 a1 a2 a3 => Sys2Proof.Machine.execSts a0 a1 a2 a3 s
  | .stsX1 a0 a1 a2 a3 a4 => Sys2Proof.Machine.execStsX1 a0 a1 a2 a3 a4 s
  | .ldc a0 a1 a2 a3 => Sys2Proof.Machine.execLdc a0 a1 a2 a3 s
  | .stf a0 a1 a2 a3 => Sys2Proof.Machine.execStf a0 a1 a2 a3 s
  | .feq a0 a1 a2 a3 a4 => Sys2Proof.Machine.execFeq a0 a1 a2 a3 a4 s
  | .ldsq a0 a1 a2 a3 a4 a5 => Sys2Proof.Machine.execLdsq a0 a1 a2 a3 a4 a5 s
  | .stsq a0 a1 a2 a3 => Sys2Proof.Machine.execStsq a0 a1 a2 a3 s
  | .bfset a0 a1 a2 a3 => Sys2Proof.Machine.execBfset a0 a1 a2 a3 s
  | .bfget a0 a1 a2 a3 a4 => Sys2Proof.Machine.execBfget a0 a1 a2 a3 a4 s
  | .pfr a0 a1 a2 a3 => Sys2Proof.Machine.execPfr a0 a1 a2 a3 s
  | .pft a0 a1 a2 a3 => Sys2Proof.Machine.execPft a0 a1 a2 a3 s
  | .nzscan a0 a1 => Sys2Proof.Machine.execNzscan a0 a1 s
  | .waitf a0 a1 a2 => Sys2Proof.Machine.execWaitf a0 a1 a2 s
  | .infl a0 a1 a2 a3 => Sys2Proof.Machine.execInfl a0 a1 a2 a3 s
  | .land a0 a1 a2 a3 => Sys2Proof.Machine.execLand a0 a1 a2 a3 s
  | .mloop a0 a1 => Sys2Proof.Machine.execMloop a0 a1 s
  | .mzero a0 a1 a2 a3 => Sys2Proof.Machine.execMzero a0 a1 a2 a3 s
  | .mscl a0 a1 a2 a3 => Sys2Proof.Machine.execMscl a0 a1 a2 a3 s
  | .msclX1 a0 a1 a2 a3 a4 => Sys2Proof.Machine.execMsclX1 a0 a1 a2 a3 a4 s
  | .mdrain a0 a1 a2 a3 a4 => Sys2Proof.Machine.execMdrain a0 a1 a2 a3 a4 s
  | .mfill a0 a1 a2 a3 a4 => Sys2Proof.Machine.execMfill a0 a1 a2 a3 a4 s
  | .mcfg a0 a1 a2 a3 a4 => Sys2Proof.Machine.execMcfg a0 a1 a2 a3 a4 s
  | .tcopy a0 a1 => Sys2Proof.Machine.execTcopy a0 a1 s
  | .tstore a0 a1 a2 a3 a4 => Sys2Proof.Machine.execTstore a0 a1 a2 a3 a4 s
  | .tmcast a0 a1 a2 => Sys2Proof.Machine.execTmcast a0 a1 a2 s
  | .tdset a0 a1 a2 a3 => Sys2Proof.Machine.execTdset a0 a1 a2 a3 s
  | .br a0 => Sys2Proof.Machine.execBr a0 s
  | .brc a0 a1 a2 => Sys2Proof.Machine.execBrc a0 a1 a2 s
  | .brd a0 a1 a2 a3 => Sys2Proof.Machine.execBrd a0 a1 a2 a3 s
  | .brt a0 a1 a2 => Sys2Proof.Machine.execBrt a0 a1 a2 s
  | .loop a0 a1 => Sys2Proof.Machine.execLoop a0 a1 s
  | .call a0 a1 => Sys2Proof.Machine.execCall a0 a1 s
  | .ret a0 => Sys2Proof.Machine.execRet a0 s
  | .setmode a0 a1 => Sys2Proof.Machine.execSetmode a0 a1 s
  | .getmode a0 => Sys2Proof.Machine.execGetmode a0 s
  | .rdspec a0 a1 => Sys2Proof.Machine.execRdspec a0 a1 s
  | .flags a0 a1 => Sys2Proof.Machine.execFlags a0 a1 s
  | .sadd a0 a1 a2 => Sys2Proof.Machine.execSadd a0 a1 a2 s
  | .saddX1 a0 a1 a2 => Sys2Proof.Machine.execSaddX1 a0 a1 a2 s
  | .ssub a0 a1 a2 => Sys2Proof.Machine.execSsub a0 a1 a2 s
  | .ssubX1 a0 a1 a2 => Sys2Proof.Machine.execSsubX1 a0 a1 a2 s
  | .smul a0 a1 a2 a3 => Sys2Proof.Machine.execSmul a0 a1 a2 a3 s
  | .smulX1 a0 a1 a2 a3 => Sys2Proof.Machine.execSmulX1 a0 a1 a2 a3 s
  | .slog a0 a1 a2 a3 => Sys2Proof.Machine.execSlog a0 a1 a2 a3 s
  | .slogX1 a0 a1 a2 a3 => Sys2Proof.Machine.execSlogX1 a0 a1 a2 a3 s
  | .sshf a0 a1 a2 a3 => Sys2Proof.Machine.execSshf a0 a1 a2 a3 s
  | .sshfX1 a0 a1 a2 a3 => Sys2Proof.Machine.execSshfX1 a0 a1 a2 a3 s
  | .scmp a0 a1 a2 a3 => Sys2Proof.Machine.execScmp a0 a1 a2 a3 s
  | .scmpX1 a0 a1 a2 a3 => Sys2Proof.Machine.execScmpX1 a0 a1 a2 a3 s
  | .smov a0 a1 => Sys2Proof.Machine.execSmov a0 a1 s
  | .sli a0 a1 => Sys2Proof.Machine.execSli a0 a1 s
  | .sliX1 a0 a1 => Sys2Proof.Machine.execSliX1 a0 a1 s
  | .ssel a0 a1 a2 a3 => Sys2Proof.Machine.execSsel a0 a1 a2 a3 s
  | .sselX1 a0 a1 a2 a3 => Sys2Proof.Machine.execSselX1 a0 a1 a2 a3 s
  | .sdiv a0 a1 a2 a3 => Sys2Proof.Machine.execSdiv a0 a1 a2 a3 s
  | .sdivX1 a0 a1 a2 a3 => Sys2Proof.Machine.execSdivX1 a0 a1 a2 a3 s
  | .cadd a0 a1 a2 a3 => Sys2Proof.Machine.execCadd a0 a1 a2 a3 s
  | .caddX1 a0 a1 a2 a3 => Sys2Proof.Machine.execCaddX1 a0 a1 a2 a3 s
  | .cwait a0 a1 a2 => Sys2Proof.Machine.execCwait a0 a1 a2 s
  | .cwaitX1 a0 a1 a2 => Sys2Proof.Machine.execCwaitX1 a0 a1 a2 s
  | .carm a0 a1 a2 => Sys2Proof.Machine.execCarm a0 a1 a2 s
  | .carmX1 a0 a1 a2 => Sys2Proof.Machine.execCarmX1 a0 a1 a2 s
  | .crd a0 a1 a2 => Sys2Proof.Machine.execCrd a0 a1 a2 s
  | .atom a0 => Sys2Proof.Machine.execAtom a0 s
  | .atomf a0 => Sys2Proof.Machine.execAtomf a0 s
  | .lda a0 a1 a2 a3 a4 a5 => Sys2Proof.Machine.execLda a0 a1 a2 a3 a4 a5 s
  | .strel a0 a1 a2 a3 a4 => Sys2Proof.Machine.execStrel a0 a1 a2 a3 a4 s
  | .fence a0 a1 => Sys2Proof.Machine.execFence a0 a1 s
  | .barw a0 a1 => Sys2Proof.Machine.execBarw a0 a1 s
  | .phaseRel a0 => Sys2Proof.Machine.execPhaseRel a0 s
  | .phaseAcq a0 => Sys2Proof.Machine.execPhaseAcq a0 s
  | .emit a0 => Sys2Proof.Machine.execEmit a0 s
  | .launch a0 => Sys2Proof.Machine.execLaunch a0 s
  | .phint a0 => Sys2Proof.Machine.execPhint a0 s
  | .fbwr a0 => Sys2Proof.Machine.execFbwr a0 s
  | .fbrd a0 => Sys2Proof.Machine.execFbrd a0 s
  | .fbred a0 a1 a2 => Sys2Proof.Machine.execFbred a0 a1 a2 s
  | .ueget a0 a1 => Sys2Proof.Machine.execUeget a0 a1 s
  | .trap a0 => Sys2Proof.Machine.execTrap a0 s
  | .rdflt a0 => Sys2Proof.Machine.execRdflt a0 s
  | .wpset a0 a1 a2 a3 a4 => Sys2Proof.Machine.execWpset a0 a1 a2 a3 a4 s
  | .wpclr a0 => Sys2Proof.Machine.execWpclr a0 s
  | .smprd a0 a1 => Sys2Proof.Machine.execSmprd a0 a1 s
  | .reservedOpcode a0 a1 a2 => Sys2Proof.Machine.execReservedOpcode a0 a1 a2 s
  | .ctxCreate a0 a1 a2 => Sys2Proof.Machine.execCtxCreate a0 a1 a2 s
  | .frameAssign a0 a1 a2 a3 => Sys2Proof.Machine.execFrameAssign a0 a1 a2 a3 s
  | .nodeReg a0 a1 a2 a3 => Sys2Proof.Machine.execNodeReg a0 a1 a2 a3 s
  | .registerWrite a0 a1 => Sys2Proof.Machine.execRegisterWrite a0 a1 s
  | .hostRecordPush a0 a1 a2 => Sys2Proof.Machine.execHostRecordPush a0 a1 a2 s
  | .hostMemAccess a0 a1 a2 => Sys2Proof.Machine.execHostMemAccess a0 a1 a2 s
  | .pageDone a0 a1 => Sys2Proof.Machine.execPageDone a0 a1 s
  | .gridExpand a0 => Sys2Proof.Machine.execGridExpand a0 s
  | .admitWg a0 a1 => Sys2Proof.Machine.execAdmitWg a0 a1 s
  | .retire a0 => Sys2Proof.Machine.execRetire a0 s
  | .loadReturn a0 a1 => Sys2Proof.Machine.execLoadReturn a0 a1 s
  | .storePerformed a0 a1 => Sys2Proof.Machine.execStorePerformed a0 a1 s
  | .queueEntryFill a0 => Sys2Proof.Machine.execQueueEntryFill a0 s
  | .walkComplete a0 => Sys2Proof.Machine.execWalkComplete a0 s
  | .channelGroupSelect a0 => Sys2Proof.Machine.execChannelGroupSelect a0 s
  | .tierFill a0 a1 => Sys2Proof.Machine.execTierFill a0 a1 s
  | .matrixCommandExecute a0 a1 => Sys2Proof.Machine.execMatrixCommandExecute a0 a1 s
  | .matrixCommandComplete a0 => Sys2Proof.Machine.execMatrixCommandComplete a0 s
  | .copyPiece a0 => Sys2Proof.Machine.execCopyPiece a0 s
  | .tcopyLanded a0 a1 => Sys2Proof.Machine.execTcopyLanded a0 a1 s
  | .tmcastDeliveryStart a0 => Sys2Proof.Machine.execTmcastDeliveryStart a0 s
  | .tstoreComplete a0 => Sys2Proof.Machine.execTstoreComplete a0 s
  | .prefetchPageDone a0 a1 => Sys2Proof.Machine.execPrefetchPageDone a0 a1 s
  | .cisternCountLaunch a0 => Sys2Proof.Machine.execCisternCountLaunch a0 s
  | .cisternTimerLaunch a0 => Sys2Proof.Machine.execCisternTimerLaunch a0 s
  | .victimWindow a0 => Sys2Proof.Machine.execVictimWindow a0 s
  | .inv a0 a1 => Sys2Proof.Machine.execInv a0 a1 s
  | .sync a0 => Sys2Proof.Machine.execSync a0 s
  | .nodeUnreg a0 a1 a2 => Sys2Proof.Machine.execNodeUnreg a0 a1 a2 s
  | .nodeDrained a0 => Sys2Proof.Machine.execNodeDrained a0 s
  | .ctxRelease a0 a1 => Sys2Proof.Machine.execCtxRelease a0 a1 s
  | .preempt a0 a1 => Sys2Proof.Machine.execPreempt a0 a1 s
  | .preemptForceStop a0 => Sys2Proof.Machine.execPreemptForceStop a0 s
  | .saveComplete a0 => Sys2Proof.Machine.execSaveComplete a0 s
  | .resume a0 a1 a2 => Sys2Proof.Machine.execResume a0 a1 a2 s
  | .resync a0 a1 a2 => Sys2Proof.Machine.execResync a0 a1 a2 s
  | .attest a0 a1 a2 a3 => Sys2Proof.Machine.execAttest a0 a1 a2 a3 s
  | .perfRead a0 a1 a2 => Sys2Proof.Machine.execPerfRead a0 a1 a2 s
  | .logRead a0 a1 a2 a3 a4 a5 => Sys2Proof.Machine.execLogRead a0 a1 a2 a3 a4 a5 s
  | .lifecycle a0 a1 a2 => Sys2Proof.Machine.execLifecycle a0 a1 a2 s
  | .unlockNonce a0 => Sys2Proof.Machine.execUnlockNonce a0 s
  | .unlock a0 a1 a2 => Sys2Proof.Machine.execUnlock a0 a1 a2 s
  | .stop a0 a1 a2 => Sys2Proof.Machine.execStop a0 a1 a2 s
  | .continueTask a0 a1 => Sys2Proof.Machine.execContinueTask a0 a1 s
  | .evlogRead a0 a1 a2 a3 => Sys2Proof.Machine.execEvlogRead a0 a1 a2 a3 s
  | .debugStopHalt a0 => Sys2Proof.Machine.execDebugStopHalt a0 s
  | .traceArm a0 => Sys2Proof.Machine.execTraceArm a0 s
  | .stitchSampleTag a0 a1 => Sys2Proof.Machine.execStitchSampleTag a0 a1 s
  | .auditExportAck a0 => Sys2Proof.Machine.execAuditExportAck a0 s
  | .auditTypedAppend a0 => Sys2Proof.Machine.execAuditTypedAppend a0 s
  | .measExtend a0 a1 => Sys2Proof.Machine.execMeasExtend a0 a1 s
  | .correctedError a0 => Sys2Proof.Machine.execCorrectedError a0 s
  | .uncorrectedError a0 => Sys2Proof.Machine.execUncorrectedError a0 s
  | .selfTestDone a0 a1 => Sys2Proof.Machine.execSelfTestDone a0 a1 s
  | .rinseStep a0 => Sys2Proof.Machine.execRinseStep a0 s
  | .refresh a0 => Sys2Proof.Machine.execRefresh a0 s
  | .heartbeat a0 => Sys2Proof.Machine.execHeartbeat a0 s
  | .refreshTakeover a0 => Sys2Proof.Machine.execRefreshTakeover a0 s
  | .linkFlitReplay a0 => Sys2Proof.Machine.execLinkFlitReplay a0 s
  | .switchForward a0 => Sys2Proof.Machine.execSwitchForward a0 s
  | .creditReturn a0 a1 a2 => Sys2Proof.Machine.execCreditReturn a0 a1 a2 s
  | .fabricPacketReceive a0 => Sys2Proof.Machine.execFabricPacketReceive a0 s
  | .fabricAnswerReceive a0 => Sys2Proof.Machine.execFabricAnswerReceive a0 s
  | .e2eResend a0 a1 a2 => Sys2Proof.Machine.execE2eResend a0 a1 a2 s
  | .reductionLeafCombine a0 a1 => Sys2Proof.Machine.execReductionLeafCombine a0 a1 s
  | .reductionRootCombine a0 => Sys2Proof.Machine.execReductionRootCombine a0 s
  | .redresult a0 => Sys2Proof.Machine.execRedresult a0 s
  | .reduceAbandoned a0 => Sys2Proof.Machine.execReduceAbandoned a0 s
  | .dirreq a0 a1 a2 => Sys2Proof.Machine.execDirreq a0 a1 a2 s
  | .dirfwd a0 a1 a2 => Sys2Proof.Machine.execDirfwd a0 a1 a2 s
  | .dirresp a0 a1 => Sys2Proof.Machine.execDirresp a0 a1 s
  | .directoryInv a0 a1 => Sys2Proof.Machine.execDirectoryInv a0 a1 s
  | .directoryDone a0 a1 => Sys2Proof.Machine.execDirectoryDone a0 a1 s
  | .directoryRetry a0 => Sys2Proof.Machine.execDirectoryRetry a0 s
  | .directoryFailover a0 => Sys2Proof.Machine.execDirectoryFailover a0 s
  | .census a0 => Sys2Proof.Machine.execCensus a0 s
  | .censusRebuild a0 a1 => Sys2Proof.Machine.execCensusRebuild a0 a1 s
  | .uegetResponse a0 a1 => Sys2Proof.Machine.execUegetResponse a0 a1 s
  | .uePeerAccess a0 a1 a2 => Sys2Proof.Machine.execUePeerAccess a0 a1 a2 s
  | .ueTransportGiveUp a0 => Sys2Proof.Machine.execUeTransportGiveUp a0 s
  | .traceTrigger a0 => Sys2Proof.Machine.execTraceTrigger a0 s
  | .ctxReleaseDone a0 => Sys2Proof.Machine.execCtxReleaseDone a0 s
  | .nop => Sys2Proof.Machine.execNop s
  | .exit => Sys2Proof.Machine.execExit s
  | .yield => Sys2Proof.Machine.execYield s
  | .rft => Sys2Proof.Machine.execRft s
  | .bkpt => Sys2Proof.Machine.execBkpt s
  | .orphanPrefix => Sys2Proof.Machine.execOrphanPrefix s
  | .weirEvaluate => Sys2Proof.Machine.execWeirEvaluate s
  | .syncAck => Sys2Proof.Machine.execSyncAck s
  | .rinsePassStart => Sys2Proof.Machine.execRinsePassStart s
  | .idleEnter => Sys2Proof.Machine.execIdleEnter s
  | .thermalTrip => Sys2Proof.Machine.execThermalTrip s
  | .thermalRecover => Sys2Proof.Machine.execThermalRecover s
  | .thermalShutdown => Sys2Proof.Machine.execThermalShutdown s
  | .reset => Sys2Proof.Machine.execReset s
  | .powerOff => Sys2Proof.Machine.execPowerOff s

end Sys2Proof.Machine
end

