-- ==== Sys2Proof/Machine/Issue.lean ====
section
/-!
DEFINITION. Machine/Issue.lean: a lane's choice (R37, R43), the issue of one instruction, and what is noted of it (R21, R386, R388,
R389).
-/
namespace Sys2Proof.Machine
open Sys2Proof

/-! ### The choice (R37) -/

/-- The entry of a strand's table is ready to run. -/
def Strand.readyAt (st : Strand) (i : Nat) : Bool :=
  match st.frags[i]? with
  | some f => decide (f.st = .ready) && st.runs f
  | none => false

/-- The ready fragments of a strand. -/
def Strand.ready (st : Strand) : List Nat :=
  if st.exited || st.parked || st.stopped then [] else (upto st.frags.length).filter st.readyAt

/-- The first of some numbers at or after a place, round an even circle of `n`. -/
def firstFrom (n at_ : Nat) (l : List Nat) : Option Nat :=
  l.foldl (fun a x => match a with
    | none => some x
    | some y => if (x + n - at_ % n) % n < (y + n - at_ % n) % n then some x else a) none

/-- The lane of a number. -/
def State.laneAt (s : State) (core : Nat) (sl : Slice) (n : Nat) : Lane :=
  (match sl with | .access => (s.core core).lanesA | .execute => (s.core core).lanesE).findD n ⟨none, 0, 0⟩

/-- The priority of a strand's node. -/
def State.prioOfStrand (s : State) (sid : StrandId) : Nat := ((s.wgs.find sid.wg).map Workgroup.prio).getD 0

/-- The strands of a lane that have a ready fragment. -/
def State.readyOn (s : State) (core : Nat) (sl : Slice) (n : Nat) : List (StrandId × Strand) :=
  s.strands.filter (fun p => p.1.wg.core = core && decide (p.1.slice = sl) && p.2.lane = n && !p.2.ready.isEmpty)

/-- The choice of a lane that has reached a yield point: the highest priority, then slots and entries in turn (R37). -/
def State.choose (s : State) (core : Nat) (sl : Slice) (n : Nat) : Option (StrandId × Nat) :=
  let l := s.readyOn core sl n
  let top := l.foldl (fun a p => max a (s.prioOfStrand p.1)) 0
  let l := l.filter (fun p => s.prioOfStrand p.1 = top)
  match firstFrom 4 (s.laneAt core sl n).turn (l.map (fun p => p.2.slot)) with
  | none => none
  | some k => (l.find? (fun p => p.2.slot = k)).bind (fun p => (firstFrom 8 p.2.nextFrag p.2.ready).map (fun i => (p.1, i)))

/-- Record a new choice: the turn goes to the next slot and, in the strand, to the next entry. -/
def State.chosen (s : State) (sid : StrandId) (fi : Nat) : State :=
  let k := ((s.strands.find sid).map Strand.slot).getD 0
  (s.updLane sid (fun l => { l with cur := some (sid, fi), turn := (k + 1) % 4 })).updStrand sid (fun st => { st with nextFrag := (fi + 1) % 8 })

/-- What a lane runs: the fragment that it has not finished with, while that is ready, or a new choice. -/
def State.pick (s : State) (core : Nat) (sl : Slice) (n : Nat) : Option (State × StrandId × Nat) :=
  let old := (s.laneAt core sl n).cur.filter (fun p => match s.strands.find p.1 with | some st => st.ready.contains p.2 | none => false)
  match old with
  | some p => some (s, p.1, p.2)
  | none => (s.choose core sl n).map (fun p => (s.chosen p.1 p.2, p.1, p.2))

/-! ### The issue -/

/-- A fragment has done its part of the instruction that it waits in: it has arrived at a barrier, or its access waits on a full/empty line and goes
on by itself (R111, R288). -/
def Frag.parkedIn (f : Frag) : Bool :=
  match f.wait with
  | some (.barrier _ _) => decide (f.st = .blocked)
  | some (.fullEmpty _ _) => decide (f.st = .blocked)
  | _ => false

/-- What has become of the issuing fragment's instruction: it is still to be done, or it is done, or it has trapped or ended the
workgroup. -/
inductive Issued where
  | pending | done | dropped
deriving DecidableEq, Repr

/-- What has become of an instruction after its meaning. -/
def State.issued (s : State) (m : Me) : Issued :=
  match s.strands.find m.sid with
  | none => .dropped
  | some st =>
    if decide (st.fault ≠ m.st.fault) || (st.frame.isSome && m.st.frame.isNone) then .dropped
    else
      match st.frags[m.fi]? with
      | none => .done
      | some f =>
        let same : Bool := decide (f.born = m.f.born) && decide (f.pc = m.f.pc) && decide (st.frame.isSome = m.st.frame.isSome)
        let waits : Bool := (decide (f.st = .blocked) && !f.parkedIn) || (decide (f.st = .ready) && (s.laneOf m.sid).cur.isSome)
        if same && waits then .pending else .done

/-- What is noted of an issued instruction. -/
def Me.note (m : Me) (i : Instr) (ws : List W32) : IssueNote :=
  let op := opcodeOf (mainWord ws)
  { sid := m.sid, ctx := m.wg.ctx, sched := schedOf m.sid.slice m.st.lane, task := m.wg.task, pc := m.pc, em := m.em, second := op.1,
    opc := op.2, yld := Instr.yieldClass i }

/-- Note an instruction that has been issued: event counters 1 and 2, the trace unit and the samplers. A suppression of WATCH ends with
it (R383). Accesses numbered `since` or above are the instruction's own. -/
def State.noteIssue (s : State) (m : Me) (i : Instr) (ws : List W32) (since : Nat) (r : Issued) : State :=
  if r = .pending then s
  else
    let s := if m.st.watchSkip then s.updStrand m.sid (fun st => { st with watchSkip := false }) else s
    let s := s.count m.core (if m.access then 2 else 1) 1
    (s.noteTrace (m.note i ws)).noteSample (m.note i ws) since (r = .dropped)

/-- The lane takes a clock at least; a strand that has given it up may be parked (R321). -/
def State.endIssue (s : State) (m : Me) : State :=
  if (s.strands.find m.sid).isNone then { s with cur := none }
  else
    let s := s.updLane m.sid (fun l => if l.busy ≤ s.clock then { l with busy := s.clock + 1 } else l)
    let s := if ((s.laneOf m.sid).cur.map Prod.fst) = some m.sid then s else s.parkAtYield m.sid
    { s with cur := none }

/-- Run the fetched instruction of the issuing fragment. -/
def State.runWords (s : State) (m : Me) (ws : List W32) : Out :=
  match decodeFetched m.at4 ws with
  | none => .next (s.endIssue m)
  | some i =>
    match exec i s with
    | .next t => .next ((t.noteIssue m i ws s.serial (t.issued m)).endIssue m)
    | .fault f => .fault f
    | .refused r => .refused r

/-- Issue the next instruction of a fragment: fetch, decode, and its meaning. -/
def State.issueFrag (s : State) (sid : StrandId) (fi : Nat) : Out :=
  let s := { s with cur := some (sid, fi) }
  match s.me with
  | none => .next { s with cur := none }
  | some m =>
    match s.fetch m with
    | (s, .ok ws) => s.runWords m ws
    | (s, .stall) => .next (s.endIssue m)
    | (s, .fail va) => .next ((s.trap m { code := .pageProt, va := va }).endIssue m)

/-- A lane's clocks run: the device is neither off nor stopped (R402, R403). -/
def State.running (s : State) : Bool := s.plat.pstate ≠ .off && s.plat.pstate ≠ .stopped

/-- A strand's rank among those of its core that issue in one clock: by workgroup slot, then by strand index (R48, R111). -/
def StrandId.rank (sid : StrandId) : Nat := 1 + (sid.wg.slot * 2 ^ 12 + sid.idx) * 2 + (match sid.slice with | .access => 0 | .execute => 1)

/-- No strand of its rank or above has issued on its core in this clock. -/
def State.inTurn (s : State) (sid : StrandId) : Bool :=
  let k := (s.core sid.wg.core).issuedAt
  k.1 ≠ s.clock || decide (k.2 < StrandId.rank sid)

/-- Note the issue of a strand. -/
def State.issues (s : State) (sid : StrandId) : State := s.updCore sid.wg.core (fun c => { c with issuedAt := (s.clock, StrandId.rank sid) })

/-- A lane issues, if it is not occupied and has something to run, and strands that come after it have not issued in this clock. -/
def State.issueLane (s : State) (core : Nat) (sl : Slice) (n : Nat) : Out :=
  if s.clock < (s.laneAt core sl n).busy then .next s
  else
    match s.pick core sl n with
    | none => .next s
    | some (t, sid, fi) => if s.inTurn sid then (t.issues sid).issueFrag sid fi else .next s

end Sys2Proof.Machine
end

