-- ==== Sys2Proof/Machine/Settle.lean ====
section
/-!
DEFINITION. Machine/Settle.lean: what follows at once from a state: work that is owed, waits that are over (R37, R38), the activation of
parked strands (R45, R321) and queue deadlock (R61, R62).
-/
namespace Sys2Proof.Machine
open Sys2Proof

/-! ### Waits (R38) -/

/-- What a fragment waits for has come. A barrier's waiters go on when it completes, and those on full/empty lines in their turn (R111, R288). -/
def State.waitOver (s : State) (sid : StrandId) (born : Nat) : Wait → Bool
  | .queues pops push => s.queuesReady sid pops push
  | .counter slot pa x =>
    let now : W64 := match slot with
      | some n => ((s.wgs.find sid.wg).map (fun g => g.slot n)).getD 0
      | none => s.physWord pa
    decide (x.toNat ≤ now.toNat)
  | .barrier _ _ => false
  | .waitf p thr => decide (s.inflight sid.wg p ≤ thr)
  | .land r => match s.wgs.find sid.wg with
    | some g => g.landings.all (fun l => l.region ≠ r || l.claims.isEmpty)
    | none => true
  | .fullEmpty _ _ => false
  | .page => s.pageReqs.all (fun r => !r.joined.contains (.inst sid born))
  | .access id => s.accs.all (fun a => a.id ≠ id || a.over)
  | .engine k =>
    match s.wgs.find sid.wg with
    | none => true
    | some g =>
      match k with
      | .matrix => decide ((s.core sid.wg.core).mqueue.length < 16)
      | .copies => decide ((s.core sid.wg.core).copies < 32)
      | .prefetch => decide ((s.prefetches.filter (fun f => f.task = g.task)).length < 16)
      | .fabric => decide ((s.xfersOf g.task).length < 64)

/-- A blocked fragment whose wait is over is ready. -/
def State.wakeFrag (s : State) (sid : StrandId) (f : Frag) : Frag :=
  match f.st, f.wait with
  | .blocked, some w => if s.waitOver sid f.born w then { f with st := .ready, wait := none } else f
  | _, _ => f

/-- Every blocked fragment whose wait is over is ready. -/
def State.wakeAll (s : State) : State :=
  { s with strands := s.strands.map (fun p => (p.1, { p.2 with frags := p.2.frags.map (s.wakeFrag p.1) })) }

/-! ### Parked strands (R45, R321) -/

/-- The fragments of a strand that can keep it from being blocked. -/
def Strand.going (st : Strand) : List Frag := st.frags.filter (fun f => (decide (f.st = .ready) || decide (f.st = .blocked)) && st.runs f)

/-- A strand is blocked, all its fragments on waits of a kind. -/
def Strand.blockedOn (st : Strand) (ok : Wait → Bool) : Bool :=
  !st.going.isEmpty && st.going.all (fun f => decide (f.st = .blocked) && (match f.wait with | some w => ok w | none => false))

/-- BARW, CWAIT and queue operations. -/
def Wait.wakes : Wait → Bool
  | .queues _ _ => true
  | .counter _ _ _ => true
  | .barrier _ _ => true
  | _ => false

/-- The strands of a workgroup that have not exited. -/
def State.strandsOf (s : State) (w : WgId) : List (StrandId × Strand) := s.strands.filter (fun p => decide (p.1.wg = w) && !p.2.exited)

/-- Every active strand of the workgroup is blocked on BARW, CWAIT or a queue operation (R45). -/
def State.allActiveWait (s : State) (w : WgId) : Bool :=
  (s.strandsOf w).all (fun p => p.2.parked || p.2.blockedOn Wait.wakes)

/-- Activate every parked strand of a workgroup whose active strands all wait, whatever the budget (R45, R321). -/
def State.wakeParked (s : State) (w : WgId) : State :=
  let parked := (s.strandsOf w).filter (fun p => p.2.parked)
  if parked.isEmpty || !s.allActiveWait w then s else parked.foldl (fun s p => s.unpark p.1) s

/-- The activations that are due. -/
def State.activations (s : State) : State :=
  let cores := (s.strands.filter (fun p => p.2.parked && !p.2.exited)).map (fun p => p.1.wg.core)
  let s := (upto 224).foldl (fun s c => if cores.contains c then s.activate c else s) s
  s.wgs.foldl (fun s p => s.wakeParked p.1) s

/-! ### Queue deadlock (R61, R62) -/

/-- A queue operation that cannot complete, none of whose channel heads is pending. -/
def State.stuck (s : State) (sid : StrandId) : Wait → Bool
  | .queues pops push =>
    !s.queuesReady sid pops push &&
    (match s.wgs.find sid.wg with
     | some g => pops.all (fun p => match g.queues.find p.1 with
       | some q => ((q.view sid.idx).take p.2).all (fun e => e.pend.isNone)
       | none => true)
     | none => true)
  | _ => false

/-- QUEUE_DEADLOCK holds of a workgroup (R61); one that is being saved is not evaluated (R337). -/
def State.deadlocked (s : State) (w : WgId) : Bool :=
  let l := s.strandsOf w
  (match s.wgs.find w with | some g => (s.savingFrom w g).isNone | none => false) && !l.isEmpty && l.all (fun p => !p.2.parked && p.2.blockedOn (s.stuck p.1))

/-- The lowest-indexed of some strands, access strands first (R62). -/
def lowestStrand (l : List (StrandId × Strand)) : Option (StrandId × Strand) :=
  let low (sl : Slice) : Option (StrandId × Strand) := (l.filter (fun p => decide (p.1.slice = sl))).foldl (fun a p => match a with
    | none => some p
    | some q => if p.1.idx < q.1.idx then some p else some q) none
  (low .access).orElse (fun _ => low .execute)

/-- The record of a queue deadlock (R62, R331). -/
def deadlockRecord (g : Workgroup) (sid : StrandId) (f : Frag) : FaultRec :=
  { task := g.task, pc := f.pc ++ 0#2, va := 0, tag := 0, bf := none, mask := f.em, strand := sid.idx, slice := sid.slice, disp := 1,
    cause := TrapCode.num .queueDeadlock, code := TrapCode.num .queueDeadlock }

/-- Raise QUEUE_DEADLOCK on a workgroup: it is terminated (R62). -/
def State.raiseDeadlock (s : State) (w : WgId) (g : Workgroup) : State :=
  match lowestStrand (s.strandsOf w) with
  | none => s
  | some (sid, st) =>
    match st.going with
    | [] => s
    | f :: _ => (s.noteTrap w.core (Trap.of .queueDeadlock)).terminate w (some (deadlockRecord g sid f))

/-- Every queue deadlock. -/
def State.deadlocks (s : State) : State := s.wgs.foldl (fun s p => if s.deadlocked p.1 then s.raiseDeadlock p.1 p.2 else s) s

/-! ### All of it -/

/-- What follows at once: owed adds and records, packets that may go out or be delivered, stops and saves that are due, retirements and
commands that wait, and then the waits. Logged stores whose page needs no service, or whose page request has still to be sent, are tried again (R120,
R121, R341), and accesses that wait on full/empty lines go on in turn (R111). -/
def State.settle (s : State) : State :=
  let s := (s.drain.replayMends.pump.pumpXfers.deliverAll.retryAnswers.l2Trim)
  let s := s.feServe s.feAll.length
  let s := s.serveHosts.stopSaving.storeQuiesced.finishRecs.retryAll.stopClocks
  s.wakeAll.activations.deadlocks

end Sys2Proof.Machine
end

