-- ==== Sys2Proof/Machine/Moves.lean ====
section
/-!
DEFINITION. Machine/Moves.lean: what a step does: a clock that passes (R60, R388, R391), the moves that a schedule lists, and the order in
which the model takes what is due where it lists none. The spec leaves the order of cores and engines open (log 3).
-/
namespace Sys2Proof.Machine
open Sys2Proof

/-! ### Clocks (R60, R388) -/

/-- Fragments of a core's strands that are blocked. -/
def State.blockedOn (s : State) (core : Nat) (f : StrandId → Wait → Bool) : Bool :=
  s.strands.any (fun p => p.1.wg.core = core && !p.2.exited && p.2.frags.any (fun x => decide (x.st = .blocked) &&
    (match x.wait with | some w => f p.1 w | none => false)))

/-- A pop of some queues that lacks an entry, or has a pending one when `pend` says so; `cq` looks at cq channels only. -/
def State.popLacks (s : State) (cq pend : Bool) (sid : StrandId) : Wait → Bool
  | .queues pops _ => pops.any (fun p => match (s.wgs.find sid.wg).bind (fun g => g.queues.find p.1) with
      | some q =>
        let v := (q.view sid.idx).take p.2
        (!cq || decide (q.decl.kind = .cq)) && (decide (v.length < p.2) || (pend && v.any (fun e => e.pend.isSome)))
      | none => false)
  | _ => false

/-- A push that lacks room. -/
def State.pushLacks (s : State) (sid : StrandId) : Wait → Bool
  | .queues _ push => push.any (fun p => match (s.wgs.find sid.wg).bind (fun g => g.queues.find p.1) with
      | some q => decide (q.room p.2.1 < p.2.2)
      | none => false)
  | _ => false

/-- Count `n` clocks in an event counter of a core where a condition holds. -/
def State.countIf (s : State) (core no n : Nat) (b : Bool) : State := if b then s.count core no n else s

/-- The event counters that count clocks (Table 23.3, R60). -/
def State.countClocks (s : State) (n core : Nat) : State :=
  let busy := !(s.residents core).isEmpty
  let lod := s.blockedOn core (fun sid w => decide (sid.slice = .access) && s.popLacks true false sid w)
  let full := s.blockedOn core s.pushLacks
  let empty := s.blockedOn core (s.popLacks false true)
  let park := s.strands.any (fun p => p.1.wg.core = core && p.2.parked && !p.2.exited)
  let s := (((s.countIf core 0 n busy).countIf core 4 n lod).countIf core 5 n full).countIf core 6 n empty
  (s.countIf core 7 n park).count core 10 (n * (s.core core).mend.length)

/-- Do an event up to `n` times. -/
def State.doTimes (f : State → Out) : Nat → State → State
  | 0, s => s
  | n + 1, s => match f s with | .next t => State.doTimes f n t | _ => s

/-- The launches that are due in the clock that ends, so that what arrived in it is included (R310). -/
def State.launchDue (s : State) : State :=
  s.nodes.foldl (fun s n => State.doTimes (execCisternTimerLaunch n.1) 1 (State.doTimes (execCisternCountLaunch n.1) n.2.records.length s)) s

/-- The clocks that pass at once: none passes the expiry of a node's timer (R310), or the time of a refresh that is due next (R380). -/
def State.clocksTo (s : State) (n : Nat) : Nat :=
  let n := if s.refreshing && decide (refreshInterval ≤ s.clock + n) then
      (upto 256).foldl (fun n ch => let t := (s.channel ch).lastRef + refreshInterval; if s.clock < t then min n (t - s.clock) else n) n
    else n
  s.nodes.foldl (fun n k => match k.2.timerFrom with
    | some t => if k.2.timer ≠ 0 && decide (s.clock < t + 64 * k.2.timer) then min n (t + 64 * k.2.timer - s.clock) else n
    | none => n) n

/-- Up to `n` clocks pass: the launches and refreshes that are due take place, the counters count the clocks, samples of loads that have written back
complete (R386), and every trace unit evaluates the clock that ends, and an empty one if more follow (R391). -/
def State.tick (s : State) (n : Nat) : State :=
  let s := s.launchDue.refreshAll
  let n := s.clocksTo n
  if n = 0 then s
  else
    let cores := (s.cores.filter (fun c => c.2.ctx.isSome || c.2.trace.live)).map Prod.fst
    let s := cores.foldl (fun s c => ((s.countClocks n c).evalTrace c).closeSamples c) s
    let s := if 1 < n then cores.foldl (fun s c => s.evalTrace c) s else s
    { s with clock := s.clock + n }

/-! ### What is due -/

/-- An event that may be due, and whether it is judged by the whole state: otherwise counters and turns do not show progress. -/
abbrev Due := Bool × (State → Out)

/-- Accesses, walks and queue entries. -/
def State.dueMemory (s : State) : List Due :=
  s.reads.map (fun r => (true, execChannelGroupSelect (channelOf (256 * r.line)))) ++
  s.walks.map (fun w => (true, execWalkComplete w.id)) ++
  (s.accs.filter (fun a => !a.over)).flatMap (fun a =>
    (a.elems.flatMap Elem.places).filterMap (fun l => match l with
      | .phys _ pa => if s.isTier pa && !s.served pa then some (true, execTierFill (tierPort pa) (tierBlock pa)) else none
      | _ => none) ++
    [(true, if a.kind.isLoad then execLoadReturn a.id a.leftMask else execStorePerformed a.id a.leftMask)]) ++
  s.wgs.flatMap (fun g => (g.2.entries.filter (fun e => e.pend.isSome)).map (fun e => (false, execQueueEntryFill e.id)))

/-- Matrix engines, copy units and prefetches. -/
def State.dueEngines (s : State) : List Due :=
  s.cores.flatMap (fun c => if c.2.mqueue.isEmpty then [] else
    [(true, execMatrixCommandComplete c.1), (true, execMatrixCommandExecute c.1 1)]) ++
  s.copies.flatMap (fun c =>
    (upto c.dlv.length).map (fun k => (true, execTcopyLanded c.id k)) ++
    [(true, execTmcastDeliveryStart c.id), (true, execTstoreComplete c.id)] ++
    (match c.unit with | some u => [(false, execCopyPiece u)] | none => [])) ++
  s.prefetches.flatMap (fun f =>
    ((upto f.pages).map (fun k => f.va / 4096 + k)).filterMap (fun p => if f.done.contains p then none else some (false, execPrefetchPageDone f.id p)))

/-- The Work Distributor. -/
def State.dueScheduling (s : State) : List Due :=
  let cores := s.cores.map Prod.fst
  s.nodes.flatMap (fun n => [(false, execGridExpand n.1), (true, execNodeDrained n.1)]) ++
  s.wgs.flatMap (fun w => [(true, execDebugStopHalt (.afterTask w.1)), (true, execRetire w.1)]) ++
  s.ctxs.flatMap (fun c => (c.2.saved.take 1).flatMap (fun v => cores.map (fun k => (true, execAdmitWg (.saved v.id) k)))) ++
  s.launched.map (fun l => (true, execDebugStopHalt (.beforeTask l.1))) ++
  s.grids.map (fun g => (true, execDebugStopHalt (.beforeGrid g.1))) ++
  s.offers.flatMap (fun o => cores.map (fun k => (true, execAdmitWg o.1 k))) ++
  s.cores.map (fun c => (true, execVictimWindow c.1)) ++ [(true, execWeirEvaluate)]

/-- Contexts, translation commands and packets. -/
def State.dueSystem (s : State) : List Due :=
  s.ctxs.flatMap (fun c => [(true, execSaveComplete c.1), (true, execCtxReleaseDone c.1)]) ++
  s.strands.map (fun p => (true, execPreemptForceStop p.1)) ++
  [(true, execSyncAck)] ++
  (upto s.fabric.wire.length).map (fun k => (true, execSwitchForward k)) ++
  s.fabric.wants.map (fun w => (true, execDirectoryRetry w.line)) ++
  s.fabric.sent.map (fun k => (true, execE2eResend (Packet.peer k.pkt) k.pkt.plane.toNat k.pkt.seq.toNat))

/-- The directory's messages to this device and the reductions that this device knows of. -/
def State.dueFabric (s : State) : List Due :=
  s.fabric.dir.flatMap (fun d => match d.busy with
    | some (r, dev) => [(true, execDirfwd d.line r dev), (true, execDirresp d.line d.acks), (true, execDirectoryInv d.line dev)]
    | none => []) ++
  s.fabric.pieces.flatMap (fun r =>
    (ascending 64 ((s.fabric.members r.key.group).map leafOfDev)).map (fun l => (true, execReductionLeafCombine l r.key)) ++
    [(true, execReductionRootCombine r.key), (true, execRedresult r.key), (true, execReduceAbandoned r.key)])

/-- A state in which counters, walks' numbers and turns are those of another. -/
def State.sameTurns (t s : State) : State := { t with cores := s.cores, serial := s.serial, unitCore := s.unitCore, unitCopy := s.unitCopy }

/-- The result of an event that makes progress. -/
def State.tryDue (s : State) (d : Due) : Option State :=
  match d.2 s with
  | .next t => if (if d.1 then t else t.sameTurns s) = s then none else some t
  | _ => none

/-- The first event that makes progress. -/
def State.firstDue (s : State) : List Due → Option State
  | [] => none
  | d :: l => match s.tryDue d with
    | some t => some t
    | none => s.firstDue l

/-- The lanes that strands hold. -/
def State.lanes (s : State) : List (Nat × Slice × Nat) :=
  s.strands.map (fun p => (p.1.wg.core, p.1.slice, p.2.lane))

/-- The rank of what a lane can issue now, if it can: cores in order, and on each the strands. -/
def State.canIssue (s : State) (l : Nat × Slice × Nat) : Option Nat :=
  if s.clock < (s.laneAt l.1 l.2.1 l.2.2).busy then none
  else
    match s.pick l.1 l.2.1 l.2.2 with
    | some (_, sid, _) => if s.inTurn sid then some (l.1 * 2 ^ 32 + StrandId.rank sid) else none
    | none => none

/-- The lane that issues next: the one of the lowest rank (R48). -/
def State.nextLane (s : State) : Option (Nat × Slice × Nat) :=
  (s.lanes.foldl (fun (a : Option (Nat × (Nat × Slice × Nat))) l => match s.canIssue l, a with
    | some k, some b => if k < b.1 then some (k, l) else a
    | some k, none => some (k, l)
    | none, _ => a) none).map Prod.snd

/-- What the model does where no move is listed: bring-up, what is due, a lane's issue, or a clock. -/
def State.auto (s : State) : Out :=
  if !s.plat.ready && s.plat.failChk = 0 then .next (s.tick 1).bringUp
  else
    match s.firstDue (s.dueMemory ++ s.dueEngines ++ s.dueScheduling ++ s.dueSystem ++ s.dueFabric) with
    | some t => .next t
    | none =>
      match s.nextLane with
      | some l => s.issueLane l.1 l.2.1 l.2.2
      | none => .next (s.tick 1)

/-! ### Moves -/

/-- A move that acts although the clocks are stopped or power is off: RESET and POWER_OFF (R400, R402). -/
def Move.always : Move → Bool
  | .event i => decide (i = .reset) || decide (i = .powerOff)
  | _ => false

/-- Do one move. An instruction form is no event: only a lane issues it. -/
def State.doMove (s : State) (m : Move) : Out :=
  match m with
  | .event i => match exec i { s with cur := none } with
    | .next t => .next t
    | _ => .next s
  | .issue core ap lane => s.issueLane core (if ap then .access else .execute) lane
  | .tick n => .next (s.tick n)
  | .evict core line slot => .next (s.evictLine core line slot)
  | .message bs => State.message { s with cur := none } bs
  | .auto => s.auto

/-- The next move of the schedule, taken from its list, or the model's own. -/
def State.takeMove (s : State) : State × Move :=
  match s.moves with
  | [] => (s, .auto)
  | m :: l => ({ s with moves := l }, m)

/-- Do the next move, and what follows at once. -/
def State.next (s : State) : Out :=
  let (s, m) := s.takeMove
  if !s.running && !m.always then .next s
  else
    match s.doMove m with
    | .next t => .next t.settle
    | .fault f => .fault f
    | .refused r => .refused r

end Sys2Proof.Machine
end

