-- ==== Sys2Proof/Machine/Step.lean ====
section
/-!
DEFINITION. Machine/Step.lean: one step of the machine, and a machine whose next step runs a given instruction.
-/
namespace Sys2Proof.Machine
open Sys2Proof

/-- One step: the next move of the schedule, and what follows from it at once (Machine/Moves.lean). -/
def step (s : State) : Host.Outcome State Fault Refusal := s.next

/-- The state with an instruction placed where the next step fetches: a program comes to run when the host has created a context,
registered a node and pushed a record, and the workgroup is admitted; this stands for that (log 43). -/
def State.withFetchWord (s : State) (nbits w : Nat) : State := s.loadWord nbits w

end Sys2Proof.Machine
end

