-- ==== Sys2Proof/Safety.lean ====
section
/-!
DEFINITION. Safety.lean: what counts as a safe run, in the terms that claims use: canonical memories, steps that answer a next state,
properties that every step keeps, and what an instruction leaves unchanged.
-/
namespace Sys2Proof
open Sys2Proof.Machine

/-- Both memories are in canonical form. -/
def Safety.memoriesOk (s : State) : Bool := s.mem.wf && s.tier.wf

/-- A step answers a next state: neither a fault nor a refusal. -/
def Safety.goesOn (s : State) : Prop := ∃ t, step s = .next t

/-- Every step keeps a property. -/
def Safety.kept (inv : State → Prop) : Prop := ∀ s t, inv s → step s = .next t → inv t

/-- A run of `k` steps answers a state. -/
def Safety.reaches (k : Nat) (s t : State) : Prop := Host.Core.run core k s = .next t

/-- An address lies in the 32 bytes that an entry of a ring of 4,096 entries takes (R332). -/
def Safety.inEntry (base seq a : Nat) : Prop := base + 32 * (seq % 4096) ≤ a ∧ a < base + 32 * (seq % 4096) + 32

/-- An address lies in an entry that has been written to a context's fault or error log between two states (R332): one of the entries by
which the log has grown, or, of a context that is gone, any from there on. -/
def Safety.logged (s t : State) (a : Nat) : Prop :=
  ∃ x c n, s.ctxs.find x = some c ∧
    (c.faults.next ≤ n ∧ (∀ d, t.ctxs.find x = some d → n < d.faults.next) ∧ Safety.inEntry c.saveBase n a ∨
      c.errors.next ≤ n ∧ (∀ d, t.ctxs.find x = some d → n < d.errors.next) ∧ Safety.inEntry (c.saveBase + 131072) n a)

/-- Every byte of memory reads as before, at every physical address, but those of the log entries written since (R332). -/
def Safety.sameBytes (s t : State) : Prop := ∀ a, ¬ Safety.logged s t a → t.physByte a = s.physByte a

/-- The issuing strand with its fragment at an instruction address. -/
def Safety.moved (m : Me) (pc : W64) : Strand :=
  { m.st with frags := listAdjust m.st.frags m.fi (fun f => { f with pc := pc.extractLsb' 2 62, st := .ready, wait := none }) }

/-- With its fragment at that address nothing of the strand's split table is due: no fragment stands at its join, fuses or is freed
(R34, R36). -/
def Safety.apart (m : Me) (pc : W64) : Prop := (Safety.moved m pc).settleFrags = Safety.moved m pc

/-- Outside one strand the state is as before: the other strands, and everything that is not a strand, memory among it. -/
def Safety.onlyStrand (i : StrandId) (s t : State) : Prop :=
  (∀ x, x ≠ i → t.strands.find x = s.strands.find x) ∧ { t with strands := s.strands } = s

/-- Outside one strand and its lane the state is as before: of the cores only a lane changes. -/
def Safety.onlyStrandAndLane (i : StrandId) (s t : State) : Prop :=
  (∀ x, x ≠ i → t.strands.find x = s.strands.find x) ∧
  (∀ c, { t.core c with lanesE := (s.core c).lanesE, lanesA := (s.core c).lanesA } = s.core c) ∧
  (∀ c, c ≠ i.wg.core → t.core c = s.core c) ∧
  { t with strands := s.strands, cores := s.cores } = s

/-- The latches after a result that a uniform instruction produces at issue: b0 holds it in active threads and zero elsewhere, and the
older results move up (R39). -/
def Safety.latched (em : TMask) (x : W64) (old new : Strand) : Prop :=
  ∀ t, t < 8 → new.latchGet 0 t = (if TMask.has em t then x else 0) ∧ ∀ l, l < 3 → new.latchGet (l + 1) t = old.latchGet l t

/-- All latches read as zero (R41). -/
def Safety.latchesZero (st : Strand) : Prop := ∀ l t, st.latchGet l t = 0

/-! ### Traps -/

/-- The fault record of a trap at the issuing instruction with no failing thread of its own (R331): MASK is EM. -/
def Safety.record (m : Me) (code : BitVec 8) (va : W64) : FaultRec :=
  { task := m.wg.task, pc := m.pc, va := va, tag := 0, bf := none, mask := m.f.em, strand := m.sid.idx, slice := m.sid.slice, disp := 0,
    cause := code, code := code }

/-- The strand is in its handler (R328): the frame holds the resume point and what RFT restores, the record is latched, the trapping fragment
stands at TENTRY with EM = FM and RC zero, the latches read zero, and every other register is as before; outside the strand only the cores
have changed, which count and trace traps. -/
def Safety.entered (s : State) (m : Me) (resume : W64) (r : FaultRec) (t : State) : Prop :=
  ∃ st fr, t.strands.find m.sid = some st ∧ st.frame = some fr ∧
    fr.frag = m.f.born ∧ fr.resume = resume ∧ fr.em = m.f.em ∧ fr.k = m.st.k ∧ fr.latches = m.st.latches ∧ fr.qt = m.st.qt ∧ fr.rc = m.f.rc ∧
    fr.mode = m.st.mode ∧ (∀ i, fr.s28.get i = if 28 ≤ i then m.st.sGet i else 0) ∧
    st.fault = some r ∧ Safety.latchesZero st ∧
    st.frags[m.fi]? = some { m.f with pc := m.wg.tentry.extractLsb' 2 62, em := m.f.fm, rc := 0, scan := none, st := .ready, wait := none } ∧
    (∀ j, j ≠ m.fi → st.frags[j]? = m.st.frags[j]?) ∧
    { st with frame := m.st.frame, fault := m.st.fault, latches := m.st.latches, watchSkip := m.st.watchSkip, frags := m.st.frags } = m.st ∧
    (∀ x, x ≠ m.sid → t.strands.find x = s.strands.find x) ∧ { t with strands := s.strands, cores := s.cores } = s

/-- The workgroup is terminated (R330): it holds no strand and no place, its record with DISP 1 is the newest of the context's fault log
and stands there in the save area (R332), the context receives a fault notice, and memory is otherwise as before. -/
def Safety.ended (s : State) (m : Me) (r : FaultRec) (t : State) : Prop :=
  t.wgs.find m.sid.wg = none ∧ (∀ p ∈ t.strands, p.1.wg ≠ m.sid.wg) ∧ Safety.sameBytes s t ∧
  (∀ c, s.ctxs.find m.wg.ctx = some c → ∃ d n, t.ctxs.find m.wg.ctx = some d ∧
    d.faults.entries.getLast? = some (n, { r with disp := 1 }) ∧
    t.mem.bytes (d.saveBase + 32 * (n % 4096)) 32 = ({ r with disp := 1 } : FaultRec).bytes ∧
    (t.out.getLast?.map fun o => match o with | .notice _ (.fault x _) => decide (x = m.wg.ctx) | _ => false) = some true)

/-- A trap has been taken (R328, R329): the strand is in its handler, or, without TENTRY or in its handler already, its workgroup is
terminated. -/
def Safety.trapped (s : State) (m : Me) (resume : W64) (r : FaultRec) (t : State) : Prop :=
  if m.wg.tentry = 0 ∨ m.st.frame.isSome = true then Safety.ended s m r t else Safety.entered s m resume r t

/-! ### Control -/

/-- The strand after a control transfer or another yield point to an address: the fragment stands there, the latches read zero, and nothing
else of the strand has changed. -/
def Safety.gone (m : Me) (pc : W64) : Strand := { Safety.moved m pc with latches := [] }

/-- A yield point has been passed (R37, R41): only the strand and its lane have changed, and the lane chooses anew. -/
def Safety.yielded (s : State) (m : Me) (st : Strand) (t : State) : Prop :=
  t.strands.find m.sid = some st ∧ Safety.onlyStrandAndLane m.sid s t ∧ Safety.sameBytes s t ∧ (t.laneOf m.sid).cur = none

/-- The strand after a uniform instruction that gives an s register a value (R206): the latches take it (R39), FLAGS become `fl`, and nothing else
of it changes but the instruction address. -/
def Safety.gotS (m : Me) (d : Nat) (x : W64) (fl : BitVec 6) (len : Nat) (st : Strand) : Prop :=
  st.sGet d = x ∧ (∀ r, r ≠ d → st.sGet r = m.st.sGet r) ∧ Safety.latched m.em x m.st st ∧
  { st with s := m.st.s, latches := m.st.latches, flags := m.st.flags } = Safety.moved m (m.pc + BitVec.ofNat 64 len) ∧ st.flags = fl

/-- A uniform instruction has given an s register a value, and nothing else of the machine has changed. -/
def Safety.gaveS (s : State) (m : Me) (d : Nat) (x : W64) (fl : BitVec 6) (len : Nat) (t : State) : Prop :=
  ∃ st, t.strands.find m.sid = some st ∧ Safety.onlyStrand m.sid s t ∧ Safety.sameBytes s t ∧ Safety.gotS m d x fl len st

/-! ### Access instructions -/

/-- An access instruction of the issuing strand comes to its own effect: a thread is active, nothing that it began before is left to
continue, no trap waits for it, no register that it names waits for a load, and no acquire before it is outstanding (R126). -/
def Safety.asks (s : State) (m : Me) (regs : List Nat) : Prop :=
  s.me = some m ∧ m.em ≠ 0 ∧ m.access = true ∧ m.f.rc = 0 ∧ m.f.scan = none ∧ m.pending = none ∧ s.xBusy m.sid regs = false ∧ s.acqHeld m = false

/-- An instruction that is a yield point has completed: the strand is as given, its lane chooses anew, and memory, the other strands and the
other workgroups are as before. -/
def Safety.left (s : State) (m : Me) (st : Strand) (t : State) : Prop :=
  t.strands.find m.sid = some st ∧ Safety.sameBytes s t ∧ (t.laneOf m.sid).cur = none ∧
  (∀ x, x ≠ m.sid → t.strands.find x = s.strands.find x) ∧ ∀ w, w ≠ m.sid.wg → t.wgs.find w = s.wgs.find w

/-- Entries stand at the tail of a channel, behind what its consumers had before them (R48, R53). -/
def Safety.appended (s : State) (m : Me) (q : Nat) (qu : Queue) (ch : Nat) (es : List QEntry) (t : State) : Prop :=
  ∃ g qu', t.wgs.find m.sid.wg = some g ∧ g.queues.find q = some qu' ∧ qu'.decl = qu.decl ∧
    ∀ i, (if qu.decl.bcast then i ∈ s.live m.sid.wg qu.decl.kind.consumer else i = ch) → qu'.view i = qu.view i ++ es

/-- Nothing of the strand's is outstanding. -/
def Safety.quiet (s : State) (m : Me) : Prop := (∀ a ∈ s.accs, a.strand ≠ m.sid) ∧ m.pendings = [] ∧ s.mends m.sid = []

/-- The 256-byte lines of an element are translated at once, by a TLB, with one result: a page that the access may use, or a failure; none of
them waits for the host (R104, R105). -/
def Safety.found (s : State) (core ctx : Nat) (j : Joiner) (k : AKind) (va : W64) (n : Nat) (r : Access) : Prop :=
  ∀ line, (line = va.toNat / 256 ∨ line = (va + BitVec.ofNat 64 (n - 1)).toNat / 256) →
    s.accessPage core ctx (BitVec.ofNat 64 (256 * line)) k = (s, r) ∧ s.failed j (BitVec.ofNat 64 (256 * line)) = false ∧
    s.waitsPage j (BitVec.ofNat 64 (256 * line)) = false

/-- An element lies on a page that an access finds in a TLB and may use, of which no comparator watches a byte and no byte is in the strand's
Mend log. -/
def Safety.onLeaf (s : State) (m : Me) (k : AKind) (wk : WKind) (va : W64) (n : Nat) (l : Leaf) : Prop :=
  Safety.found s m.sid.wg.core m.wg.ctx (.inst m.sid m.f.born) k va n (.ok l) ∧ s.watched m.sid.wg.core wk va n = false ∧
  ∀ q ∈ (s.core m.sid.wg.core).mend, q.strand = m.sid → q.line.toNat / 256 ≠ va.toNat / 256 ∧
    q.line.toNat / 256 ≠ (va + BitVec.ofNat 64 (n - 1)).toNat / 256

/-- That page is one of this device, and no DEV page. -/
def Safety.onPage (s : State) (m : Me) (k : AKind) (wk : WKind) (va : W64) (n : Nat) (l : Leaf) : Prop :=
  Safety.onLeaf s m k wk va n l ∧ l.dev = none ∧ l.attr ≠ .dev

/-- A byte of local memory is at hand for a core: no device register, its second-tier block held, its sector in the L1 or at L2, and, on a COHF
page, its line held as a reader needs it (R98, R117, R361). -/
def Safety.atHand (s : State) (core : Nat) (attr : Attr) (pa : Nat) : Prop :=
  isReg pa = false ∧ s.served pa = true ∧ s.here core (.phys attr pa) = true ∧
  (attr = .cohf → s.cohReady ⟨s.fabric.device, pa / 256 * 256, 256, false, false, false, false⟩ = true)

/-- Workgroups are as before, but for the lines that they are measured by (R322). -/
def Safety.sameWgs (s t : State) : Prop := ∀ w, (t.wgs.find w).map (fun g => { g with lines := [] }) = (s.wgs.find w).map (fun g => { g with lines := [] })

/-- A core's L1 has room for so many lines more (R107). -/
def Safety.l1Room (s : State) (core n : Nat) : Prop := (s.core core).l1.length + n ≤ s.l1Size core 0 / 256

/-- Every byte of memory reads as before but those of the log entries written since, and dirty bytes of the core's L1 that an evicted line has
written back (R113, R332). -/
def Safety.backed (s : State) (core : Nat) (t : State) (a : Nat) : Prop :=
  Safety.logged s t a ∨ t.physByte a = s.physByte a ∨
    ((s.core core).dirty.get a ≠ 0 ∧ t.physByte a = ((s.core core).dirty.get a).setWidth 8)

/-- A core's non-coherent bytes have been written back (R113, R135): every dirty byte is in memory, and every other byte is as before, but
those of the log entries written since (R332). -/
def Safety.writtenBack (s : State) (core : Nat) (t : State) : Prop :=
  ∀ a, ¬ Safety.logged s t a → t.physByte a = if (s.core core).dirty.get a = 0 then s.physByte a else ((s.core core).dirty.get a).setWidth 8

/-- The bytes of the record that a work-graph instruction copies from a shared offset (R280, R290); none where it does not lie within the
allocation. -/
def Safety.recordBytes (m : Me) (off : Nat) : Option (List Byte) :=
  let h := w64OfBytes ((List.range 8).map (fun b => m.wg.shared.get (off + b)))
  let size := (h.extractLsb' 12 9).toNat
  let n := if size % 8 = 0 ∧ 8 ≤ size ∧ size ≤ 256 then size else 8
  if off % 8 = 0 ∧ off + 8 ≤ m.wg.size ∧ off + n ≤ m.wg.size then some ((List.range n).map (fun b => m.wg.shared.get (off + b))) else none

/-- A workgroup is resident, and no other one has its task. -/
def Safety.resident (s : State) (w : WgId) (g : Workgroup) : Prop :=
  s.wgs.find w = some g ∧ ∀ x ∈ s.wgs, x.2.task = g.task → x = (w, g)

/-- An engine has added to a slot of a workgroup (R277): the slot is the sum, saturated; the other shared bytes are as before. -/
def Safety.added (g : Workgroup) (n : Nat) (amount : Nat) (g' : Workgroup) : Prop :=
  g'.slot n = BitVec.ofNat 64 (min ((g.slot n).toNat + amount) (2 ^ 64 - 1)) ∧
  (∀ o, (o < 0x1000 + 8 * n ∨ 0x1008 + 8 * n ≤ o) → g'.shared.get o = g.shared.get o)

/-! ### Vector instructions -/

/-- The main-map instructions that act per thread through source and destination positions (R172, R173), as the driver runs them for the
issuing strand. -/
def Safety.vecOf (s : State) (m : Me) : Instr → Option Vec
  | .vadd p o => some (opVadd.v3Vec p o)
  | .vaddX1 p o => some (opVadd.x1Vec p o)
  | .vsub p o => some (opVsub.v3Vec p o)
  | .vsubX1 p o => some (opVsub.x1Vec p o)
  | .vmul p o => some (opVmul.v3Vec p o)
  | .vmulX1 p o => some (opVmul.x1Vec p o)
  | .vmulh p o => some (opVmulh.v3Vec p o)
  | .vmulhX1 p o => some (opVmulh.x1Vec p o)
  | .vmad p o => some (opVmad.x2cVec p o)
  | .vneg p o => some (opVneg.v3uVec p o)
  | .vnegX1 p o => some (opVneg.x1uVec p o)
  | .vabs p o => some (opVabs.v3uVec p o)
  | .vabsX1 p o => some (opVabs.x1uVec p o)
  | .vmin p o => some (opVmin.v3Vec p o)
  | .vminX1 p o => some (opVmin.x1Vec p o)
  | .vmax p o => some (opVmax.v3Vec p o)
  | .vmaxX1 p o => some (opVmax.x1Vec p o)
  | .vavg p o => some (opVavg.v3Vec p o)
  | .vavgX1 p o => some (opVavg.x1Vec p o)
  | .vsad p o => some (opVsad.v3Vec p o)
  | .vsadX1 p o => some (opVsad.x1Vec p o)
  | .vaddc p o => some (opVaddc.v3Vec p o)
  | .vaddcX1 p o => some (opVaddc.x1Vec p o)
  | .vand p o => some (opVand.v3Vec p o)
  | .vandX1 p o => some (opVand.x1Vec p o)
  | .vor p o => some (opVor.v3Vec p o)
  | .vorX1 p o => some (opVor.x1Vec p o)
  | .vxor p o => some (opVxor.v3Vec p o)
  | .vxorX1 p o => some (opVxor.x1Vec p o)
  | .vnot p o => some (opVnot.v3uVec p o)
  | .vnotX1 p o => some (opVnot.x1uVec p o)
  | .vshl p o => some (opVshl.v3Vec p o)
  | .vshlX1 p o => some (opVshl.x1Vec p o)
  | .vshr p o => some (opVshr.v3Vec p o)
  | .vshrX1 p o => some (opVshr.x1Vec p o)
  | .vsra p o => some (opVsra.v3Vec p o)
  | .vsraX1 p o => some (opVsra.x1Vec p o)
  | .vrot p o => some (opVrot.v3Vec p o)
  | .vrotX1 p o => some (opVrot.x1Vec p o)
  | .vpopc p o => some (opVpopc.v3uVec p o)
  | .vclz p o => some (opVclz.v3uVec p o)
  | .vbrev p o => some (opVbrev.v3uVec p o)
  | .vbfx p d a sx pos len => some ((opVbfx sx pos len).vec p 0 8 false d [(a, .a)])
  | .vbfi p d a b pos len => some ((opVbfi pos len).vec p 0 8 false d [(a, .a), (b, .b)])
  | .vsel p d a b k => some ((opVsel k).vec p 0 8 false d [(a, .a), (b, .b)])
  | .vmov p o => some (opVmov.v3uVec p o)
  | .vmovX1 p o => some (opVmov.x1uVec p o)
  | .vdiv p o => some (opVdiv.v3Vec p o)
  | .vdivX1 p o => some (opVdiv.x1Vec p o)
  | .vrem p o => some (opVrem.v3Vec p o)
  | .vremX1 p o => some (opVrem.x1Vec p o)
  | .vcmp p c k a b => some (cmpVec false ETy.isW p 0 4 a b (vcmpRun c k))
  | .vcmpX1 p c k a b lit => some (cmpVec false ETy.isW p lit 8 a b (vcmpRun c k))
  | .vclamp p o => some (opVclamp.x2cVec p o)
  | .vshuf p o => some (opVshuf.v3Vec p o)
  | .vshufX1 p o => some (opVshuf.x1Vec p o)
  | .vbcast p o => some (opVbcast.v3Vec p o)
  | .vbcastX1 p o => some (opVbcast.x1Vec p o)
  | .vrott p o => some (opVrott.v3Vec p o)
  | .vrottX1 p o => some (opVrott.x1Vec p o)
  | .vred p d a fn => some ((opVred fn).vec p 0 8 false d [(a, .a)])
  | .vscan p d a fn exc seg => some ((opVscan fn exc seg).vec p 0 8 false d [(a, .a)])
  | .v2s p n sd a => some (v2sVec p n sd a)
  | .vidx p o => some (opVidx.v3Vec p o)
  | .ktos p n d a => some (maskVec p n d ((m.mask a).toNat))
  | .kpopc p n d a => some (maskVec p n d (TMask.count (m.mask a)))
  | .kffs p n d a => some (maskVec p n d (if m.mask a = 0 then 8 else TMask.lowest (m.mask a)))
  | .fadd p o => some (opFadd.v3Vec p o)
  | .faddX1 p o => some (opFadd.x1Vec p o)
  | .fsub p o => some (opFsub.v3Vec p o)
  | .fsubX1 p o => some (opFsub.x1Vec p o)
  | .fmul p o => some (opFmul.v3Vec p o)
  | .fmulX1 p o => some (opFmul.x1Vec p o)
  | .fma p o => some (opFma.x2cVec p o)
  | .fmac p o => some (opFmac.v3Vec p o)
  | .fmacX1 p o => some (opFmac.x1Vec p o)
  | .fmin p o => some (opFmin.v3Vec p o)
  | .fminX1 p o => some (opFmin.x1Vec p o)
  | .fmax p o => some (opFmax.v3Vec p o)
  | .fmaxX1 p o => some (opFmax.x1Vec p o)
  | .fabs p o => some (opFabs.v3uVec p o)
  | .fabsX1 p o => some (opFabs.x1uVec p o)
  | .fneg p o => some (opFneg.v3uVec p o)
  | .fnegX1 p o => some (opFneg.x1uVec p o)
  | .frcp p o => some (opFrcp.v3uVec p o)
  | .frcpX1 p o => some (opFrcp.x1uVec p o)
  | .frsq p o => some (opFrsq.v3uVec p o)
  | .frsqX1 p o => some (opFrsq.x1uVec p o)
  | .fsqrt p o => some (opFsqrt.v3uVec p o)
  | .fsqrtX1 p o => some (opFsqrt.x1uVec p o)
  | .fdiv p o => some (opFdiv.v3Vec p o)
  | .fdivX1 p o => some (opFdiv.x1Vec p o)
  | .fexp2 p o => some (opFexp2.v3uVec p o)
  | .fexp2X1 p o => some (opFexp2.x1uVec p o)
  | .flog2 p o => some (opFlog2.v3uVec p o)
  | .flog2X1 p o => some (opFlog2.x1uVec p o)
  | .fsin p o => some (opFsin.v3uVec p o)
  | .fsinX1 p o => some (opFsin.x1uVec p o)
  | .fcos p o => some (opFcos.v3uVec p o)
  | .fcosX1 p o => some (opFcos.x1uVec p o)
  | .frint p o => some (opFrint.v3uVec p o)
  | .frintX1 p o => some (opFrint.x1uVec p o)
  | .fclass p o => some (opFclass.v3uVec p o)
  | .fclassX1 p o => some (opFclass.x1uVec p o)
  | .fscl p o => some (opFscl.v3Vec p o)
  | .fsclX1 p o => some (opFscl.x1Vec p o)
  | .fcmp p c k a b => some (cmpVec true fcmpOk p 0 4 a b (fcmpRun c k))
  | .fcmpX1 p c k a b lit => some (cmpVec true fcmpOk p lit 8 a b (fcmpRun c k))
  | .fdot2 p o => some (opFdot2.v3Vec p o)
  | .fdot2X1 p o => some (opFdot2.x1Vec p o)
  | .fdot4 p o => some (opFdot4.v3Vec p o)
  | .fdot4X1 p o => some (opFdot4.x1Vec p o)
  | .fclamp p o => some (opFclamp.x2cVec p o)
  | .ftanh p o => some (opFtanh.v3uVec p o)
  | .ftanhX1 p o => some (opFtanh.x1uVec p o)
  | .cvt p o => some (cvtVec p o)
  | .pack p o => some (opPack.v3Vec p o)
  | .packX1 p o => some (opPack.x1Vec p o)
  | .unpack p o => some (opUnpack.v3Vec p o)
  | .unpackX1 p o => some (opUnpack.x1Vec p o)
  | .qscale p o => some (opQscale.v3uVec p o)
  | .deq p d q => some (deqVec p d q)
  | .enq p q a tag => some (enqVec p 4 q a tag none)
  | .enqX2 p q a tag ch => some (enqVec p 8 q a tag (some ch.toNat))
  | .qcnt p n d q => some (qcntVec p n d q s m)
  | .acrd p n d a => some (acrdVec p n d a 0 4)
  | .acrdX1 p d a lit => some (acrdVec p false d a lit 8)
  | .acwr p add a b => some (acwrVec p add a b 0 4)
  | .acwrX1 p add a b lit => some (acwrVec p add a b lit 8)
  | _ => none

/-- A form of a vector instruction: prefix, length with it, N, destination, sources and literal. -/
structure Safety.Form where
  pfx  : Option Pfx
  len  : Nat
  n    : Bool
  d    : Sel
  srcs : List Sel
  lit  : W32

/-- V3 with two sources. -/
def Safety.v3 (p : Option Pfx) (o : V3) : Safety.Form := ⟨p, pfxLen p 4, o.n, o.d, [o.a, o.b], 0⟩
/-- V3 with one source. -/
def Safety.v3u (p : Option Pfx) (o : V3u) : Safety.Form := ⟨p, pfxLen p 4, o.n, o.d, [o.a], 0⟩
/-- X1 with two sources. -/
def Safety.x1 (p : Option Pfx) (o : X1) : Safety.Form := ⟨p, pfxLen p 8, false, o.d, [o.a, o.b], o.lit⟩
/-- X1 with one source. -/
def Safety.x1u (p : Option Pfx) (o : X1u) : Safety.Form := ⟨p, pfxLen p 8, false, o.d, [o.a], o.lit⟩
/-- X2 with three sources. -/
def Safety.x2c (p : Option Pfx) (o : X2c) : Safety.Form := ⟨p, pfxLen p 8, false, o.d, [o.a, o.b, o.c], 0⟩

/-- The registers that a form names. -/
def Safety.regsOf (f : Safety.Form) : List Nat := (f.d :: f.srcs).filterMap (fun x => match x with | .reg n => some n.toNat | _ => none)

/-- The value of source `k` in a thread, read at a type (R172); an inline constant at its own (R155). -/
def Safety.val (f : Safety.Form) (m : Me) (ty : ETy) (k t : Nat) (cty : ETy := ty) : Nat :=
  match f.srcs[k]? with
  | some x => m.st.selVal m.access (Sel.srcTy x cty ty) f.lit x t
  | none => 0

/-- The issuing strand can run one iteration of the form now: a thread is active, no repeat is under way or asked for, no queue is named,
the positions are legal at the types of the sources and the result, no register waits for a load, and nothing of the split table is
due. -/
def Safety.runs (s : State) (m : Me) (f : Safety.Form) (ty rt : ETy) (cty : ETy := ty) : Prop :=
  s.me = some m ∧ m.em ≠ 0 ∧ m.f.rc = 0 ∧ repTotal f.pfx = 1 ∧ (∃ r, f.d = .reg r) ∧
  (∀ x ∈ f.srcs, x.isQueue = false ∧ posOk m.access m.wg.vregs 1 false x (Sel.srcTy x cty ty) = true) ∧
  posOk m.access m.wg.vregs 1 false f.d rt = true ∧ (m.access = true → s.xBusy m.sid (Safety.regsOf f) = false) ∧
  Safety.apart m (m.pc + BitVec.ofNat 64 f.len)

/-- The same for a form whose result goes to no register: a thread is active, no repeat is under way or asked for, and the sources are legal
at a type, name no queue and wait for no load. -/
def Safety.reads (s : State) (m : Me) (f : Safety.Form) (ty : ETy) : Prop :=
  s.me = some m ∧ m.em ≠ 0 ∧ m.f.rc = 0 ∧ repTotal f.pfx = 1 ∧
  (∀ x ∈ f.srcs, x.isQueue = false ∧ posOk m.access m.wg.vregs 1 false x ty = true) ∧
  (m.access = true → s.xBusy m.sid (Safety.regsOf { f with d := .lit }) = false) ∧ Safety.apart m (m.pc + BitVec.ofNat 64 f.len)

/-- The stochastic state of a thread after its roundings, `n` in number: each one steps it under RST, and no other mode does (R75). -/
def Safety.srsAt (m : Me) (rm : RMode) (th n : Nat) : W32 :=
  if rm = .rst then (List.range n).foldl (fun x _ => srsStep x) (m.st.srs.get th) else m.st.srs.get th

/-- The strand's stochastic states afterwards: an active thread's has been stepped by its roundings, every other is as before (R75). -/
def Safety.stepped (m : Me) (rm : RMode) (n : Nat → Nat) (t : State) : Prop :=
  ∃ st, t.strands.find m.sid = some st ∧
    ∀ th, st.srs.get th = if TMask.has m.em th then Safety.srsAt m rm th (n th) else m.st.srs.get th

/-- A form whose old destination value is source 0. -/
def Safety.withD (f : Safety.Form) : Safety.Form := { f with srcs := f.d :: f.srcs }

/-- Joined flags of every element of every active thread. -/
def Safety.flagsOf (m : Me) (n : Nat) (fl : Nat → Nat → BitVec 6) : BitVec 6 :=
  (TMask.list m.em).foldl (fun a th => (List.range n).foldl (fun b j => b ||| fl th j) a) 0

/-- The registers after a result: in active threads the destination receives it (R173), unless N is set; every other register, and the
destination in the other threads, is as before. -/
def Safety.wrote (m : Me) (n : Bool) (r : Nat) (rt : ETy) (res : Nat → Nat) (st : Strand) : Prop :=
  (∀ t, t < 8 → TMask.has m.em t = true → n = false →
    if m.access = true then st.xGet r t = rt.extend (res t) else st.regVal false rt r t = res t) ∧
  (∀ q t, t < 8 → (TMask.has m.em t = false ∨ n = true ∨ m.access = true ∨ (q ≠ r ∧ (rt.is64 = true → q ≠ r + 1))) →
    st.vGet q t = m.st.vGet q t) ∧
  (∀ q t, t < 8 → (TMask.has m.em t = false ∨ n = true ∨ m.access = false ∨ q ≠ r) → st.xGet q t = m.st.xGet q t)

/-- The latches after a result: b0 holds it in active threads and zero elsewhere, and the older results move up (R39). -/
def Safety.shifted (m : Me) (res : Nat → Nat) (st : Strand) : Prop :=
  ∀ t, t < 8 → st.latchGet 0 t = (if TMask.has m.em t then BitVec.ofNat 64 (res t) else 0) ∧
    ∀ l, l < 3 → st.latchGet (l + 1) t = m.st.latchGet l t

/-- What a vector instruction without memory leaves of the machine: all but the issuing strand and its lane, and of the strand all but
registers, latches, FLAGS, masks and SRS; the instruction address has moved on. -/
def Safety.vectorFrame (s : State) (m : Me) (len : Nat) (t : State) (st : Strand) : Prop :=
  t.strands.find m.sid = some st ∧ Safety.onlyStrandAndLane m.sid s t ∧ Safety.sameBytes s t ∧
  { st with v := m.st.v, x := m.st.x, s := m.st.s, k := m.st.k, latches := m.st.latches, flags := m.st.flags, srs := m.st.srs } =
    Safety.moved m (m.pc + BitVec.ofNat 64 len)

/-- A vector instruction without memory has given each active thread a result: it is in the destination and the latches, FLAGS has gained
the flags given, and s registers, masks and the rest are as before, the stochastic states too unless `rst` says that they step. -/
def Safety.gave (s : State) (m : Me) (f : Safety.Form) (rt : ETy) (res : Nat → Nat) (fl : BitVec 6) (rst : Bool) (t : State) : Prop :=
  ∃ st, Safety.vectorFrame s m f.len t st ∧ (∀ r, f.d = .reg r → Safety.wrote m f.n r.toNat rt res st) ∧ Safety.shifted m res st ∧
    st.flags = m.st.flags ||| fl ∧ st.s = m.st.s ∧ st.k = m.st.k ∧ (rst = false → ∀ x, st.srs.get x = m.st.srs.get x)

end Sys2Proof
end

