-- ==== Sys2Proof/WellFormed.lean ====
section
/-!
DEFINITION. WellFormed.lean: what a well-formed instruction is: one whose operands and prefix are legal in themselves (R165). The
check itself stands in Machine/Legal.lean. Events and the steps of words that are no instruction are not instructions.
-/
namespace Sys2Proof

/-- The instruction's encoding is legal whatever the strand's state. -/
def WellFormed (i : Instr) : Bool := legal i

end Sys2Proof
end

