-- ==== Sys2Proof/Certificates/Slice0/Obligations.lean ====
section
/-!
DEFINITION. Certificates/Slice0/Obligations.lean: the statements for the provers.
-/
open Sys2Proof Sys2Proof.Machine

/-- R178 and R180 with Table 10.4: the integer instructions on exact readings. Each element of an active thread's result is the exact
value's low bits or, where the instruction saturates and saturation is on, the nearest value of the type, with SA when an element was
clamped. -/
def Obligations.IntegerArithmetic : Prop :=
  ∀ (s : State) (m : Me) (p : Option Pfx) (o : V3) (u : V3u) (x : X1) (xu : X1u) (c : X2c),
    let ty := effET p m.st.mode
    let lo := intMin ty.signed ty.width
    let hi := intMax ty.signed ty.width
    ∀ e ∈ ([
      (.vadd p o, Safety.v3 p o, true, fun a => a 0 + a 1), (.vaddX1 p x, Safety.x1 p x, true, fun a => a 0 + a 1),
      (.vsub p o, Safety.v3 p o, true, fun a => a 0 - a 1), (.vsubX1 p x, Safety.x1 p x, true, fun a => a 0 - a 1),
      (.vmul p o, Safety.v3 p o, true, fun a => a 0 * a 1), (.vmulX1 p x, Safety.x1 p x, true, fun a => a 0 * a 1),
      (.vmulh p o, Safety.v3 p o, false, fun a => (a 0 * a 1).fdiv (2 ^ ty.width)),
      (.vmulhX1 p x, Safety.x1 p x, false, fun a => (a 0 * a 1).fdiv (2 ^ ty.width)),
      (.vmad p c, Safety.x2c p c, true, fun a => a 0 * a 1 + a 2),
      (.vneg p u, Safety.v3u p u, true, fun a => - a 0), (.vnegX1 p xu, Safety.x1u p xu, true, fun a => - a 0),
      (.vabs p u, Safety.v3u p u, true, fun a => max (a 0) (- a 0)), (.vabsX1 p xu, Safety.x1u p xu, true, fun a => max (a 0) (- a 0)),
      (.vmin p o, Safety.v3 p o, false, fun a => min (a 0) (a 1)), (.vminX1 p x, Safety.x1 p x, false, fun a => min (a 0) (a 1)),
      (.vmax p o, Safety.v3 p o, false, fun a => max (a 0) (a 1)), (.vmaxX1 p x, Safety.x1 p x, false, fun a => max (a 0) (a 1)),
      (.vavg p o, Safety.v3 p o, false, fun a => (a 0 + a 1 + 1).fdiv 2), (.vavgX1 p x, Safety.x1 p x, false, fun a => (a 0 + a 1 + 1).fdiv 2),
      (.vclamp p c, Safety.x2c p c, false, fun a => min (max (a 0) (a 1)) (a 2))] : List (Instr × Safety.Form × Bool × ((Nat → Int) → Int))),
    ty.isInt = true → Safety.runs s m e.2.1 ty ty →
    let exact (t j : Nat) : Int := e.2.2.2 (fun k => ty.toInt (ty.elem (Safety.val e.2.1 m ty k t) j))
    let clamp := e.2.2.1 && effSat p m.st.mode
    ∃ t res, exec e.1 s = .next t ∧
      Safety.gave s m e.2.1 ty res
        (if clamp && threads.any (fun th => TMask.has m.em th && (List.range ty.count).any (fun j => decide (exact th j < lo) || decide (hi < exact th j)))
          then flSA else 0) false t ∧
      ∀ th, th < 8 → TMask.has m.em th = true → res th < 2 ^ ty.bits ∧
        ∀ j, j < ty.count → ty.elem (res th) j = ofSigned ty.width (if clamp = true then max lo (min hi (exact th j)) else exact th j)

/-- R178 with Table 10.4: the bitwise instructions accept every type and act on the whole value of an active thread.
R178 with Table 10.4: shifts by B mod the width, rotation, the number of one bits, of leading zeros, and reversed bits, for every
element of an active thread's value. -/
def Obligations.IntegerBits : Prop :=
  (
    ∀ (s : State) (m : Me) (p : Option Pfx) (o : V3) (u : V3u) (x : X1) (xu : X1u),
      let ty := effET p m.st.mode
      ∀ e ∈ ([
        (.vand p o, Safety.v3 p o, fun a => a 0 &&& a 1), (.vandX1 p x, Safety.x1 p x, fun a => a 0 &&& a 1),
        (.vor p o, Safety.v3 p o, fun a => a 0 ||| a 1), (.vorX1 p x, Safety.x1 p x, fun a => a 0 ||| a 1),
        (.vxor p o, Safety.v3 p o, fun a => a 0 ^^^ a 1), (.vxorX1 p x, Safety.x1 p x, fun a => a 0 ^^^ a 1),
        (.vnot p u, Safety.v3u p u, fun a => ~~~ a 0), (.vnotX1 p xu, Safety.x1u p xu, fun a => ~~~ a 0),
        (.vmov p u, Safety.v3u p u, fun a => a 0), (.vmovX1 p xu, Safety.x1u p xu, fun a => a 0)] :
        List (Instr × Safety.Form × ((Nat → BitVec ty.bits) → BitVec ty.bits))),
      Safety.runs s m e.2.1 ty ty →
      ∃ t, exec e.1 s = .next t ∧
        Safety.gave s m e.2.1 ty (fun th => (e.2.2 (fun k => BitVec.ofNat ty.bits (Safety.val e.2.1 m ty k th))).toNat) 0 false t) ∧ (
    ∀ (s : State) (m : Me) (p : Option Pfx) (o : V3) (u : V3u) (x : X1),
      let ty := effET p m.st.mode
      ∀ e ∈ ([
        (.vshl p o, Safety.v3 p o, fun a => a 0 <<< ((a 1).toNat % ty.width)), (.vshlX1 p x, Safety.x1 p x, fun a => a 0 <<< ((a 1).toNat % ty.width)),
        (.vshr p o, Safety.v3 p o, fun a => a 0 >>> ((a 1).toNat % ty.width)), (.vshrX1 p x, Safety.x1 p x, fun a => a 0 >>> ((a 1).toNat % ty.width)),
        (.vsra p o, Safety.v3 p o, fun a => (a 0).sshiftRight ((a 1).toNat % ty.width)),
        (.vsraX1 p x, Safety.x1 p x, fun a => (a 0).sshiftRight ((a 1).toNat % ty.width)),
        (.vrot p o, Safety.v3 p o, fun a => (a 0).rotateLeft ((a 1).toNat % ty.width)),
        (.vrotX1 p x, Safety.x1 p x, fun a => (a 0).rotateLeft ((a 1).toNat % ty.width)),
        (.vpopc p u, Safety.v3u p u, fun a => (a 0).cpop), (.vclz p u, Safety.v3u p u, fun a => (a 0).clz),
        (.vbrev p u, Safety.v3u p u, fun a => (a 0).reverse)] :
        List (Instr × Safety.Form × ((Nat → BitVec ty.width) → BitVec ty.width))),
      ty.isInt = true → Safety.runs s m e.2.1 ty ty →
      ∃ t res, exec e.1 s = .next t ∧ Safety.gave s m e.2.1 ty res 0 false t ∧
        ∀ th, th < 8 → TMask.has m.em th = true → res th < 2 ^ ty.bits ∧
          ∀ j, j < ty.count → ty.elem (res th) j = (e.2.2 (fun k => BitVec.ofNat ty.width (ty.elem (Safety.val e.2.1 m ty k th) j))).toNat)

/-- R81 for VDIV and VREM: a zero divisor gives all ones or the dividend with DZ; the most negative value by −1 wraps, or under saturation
gives the largest value with SA, and leaves remainder 0; otherwise the quotient is truncated and the remainder has the dividend's
sign. -/
def Obligations.IntegerDivision : Prop :=
  ∀ (s : State) (m : Me) (p : Option Pfx) (o : V3) (x : X1),
    let ty := effET p m.st.mode
    let lo := intMin ty.signed ty.width
    ∀ e ∈ ([(.vdiv p o, Safety.v3 p o, true), (.vdivX1 p x, Safety.x1 p x, true), (.vrem p o, Safety.v3 p o, false), (.vremX1 p x, Safety.x1 p x, false)] :
      List (Instr × Safety.Form × Bool)),
    ty.isInt = true → Safety.runs s m e.2.1 ty ty →
    let a (th j : Nat) : Int := ty.toInt (ty.elem (Safety.val e.2.1 m ty 0 th) j)
    let b (th j : Nat) : Int := ty.toInt (ty.elem (Safety.val e.2.1 m ty 1 th) j)
    let some_ (c : Nat → Nat → Bool) : Bool := threads.any (fun th => TMask.has m.em th && (List.range ty.count).any (fun j => c th j))
    let ovf (th j : Nat) : Bool := ty.signed && decide (a th j = lo) && decide (b th j = -1)
    ∃ t res, exec e.1 s = .next t ∧
      Safety.gave s m e.2.1 ty res ((if some_ (fun th j => decide (b th j = 0)) then flDZ else 0) |||
        (if e.2.2 && effSat p m.st.mode && some_ ovf then flSA else 0)) false t ∧
      ∀ th, th < 8 → TMask.has m.em th = true → res th < 2 ^ ty.bits ∧
        ∀ j, j < ty.count → ty.elem (res th) j = ofSigned ty.width
          (if e.2.2 then (if b th j = 0 then -1 else if ovf th j && effSat p m.st.mode then intMax ty.signed ty.width else (a th j).tdiv (b th j))
           else (if b th j = 0 then a th j else (a th j).tmod (b th j)))

/-- R178, R179 and Table 10.4: a bit field extracted or inserted, a choice by kN, the sum of absolute differences as one n32 word, and the
addition that carries through k7, whose bits of inactive threads stay. -/
def Obligations.IntegerFields : Prop :=
  ∀ (s : State) (m : Me) (p : Option Pfx) (d a b : Sel) (sx : Bool) (pos len : BitVec 6) (k : BitVec 3) (o : V3) (x : X1),
    let ty := effET p m.st.mode
    let two : Safety.Form := ⟨p, pfxLen p 8, false, d, [a, b], 0⟩
    let one : Safety.Form := ⟨p, pfxLen p 8, false, d, [a], 0⟩
    let n := len.toNat + 1
    (ty.isW = true → pos.toNat + n ≤ ty.width → Safety.runs s m one ty ty → ∃ t, exec (.vbfx p d a sx pos len) s = .next t ∧
      Safety.gave s m one ty (fun th =>
        let field := (BitVec.ofNat ty.bits (Safety.val one m ty 0 th)).extractLsb' pos.toNat n
        (if sx then field.signExtend ty.bits else field.zeroExtend ty.bits).toNat) 0 false t) ∧
    (ty.isW = true → pos.toNat + n ≤ ty.width → Safety.runs s m two ty ty → ∃ t res, exec (.vbfi p d a b pos len) s = .next t ∧
      Safety.gave s m two ty res 0 false t ∧ ∀ th, th < 8 → TMask.has m.em th = true → res th < 2 ^ ty.bits ∧
        ∀ i, i < ty.bits → (res th).testBit i =
          if pos.toNat ≤ i ∧ i < pos.toNat + n then (Safety.val two m ty 0 th).testBit (i - pos.toNat) else (Safety.val two m ty 1 th).testBit i) ∧
    (Safety.runs s m two ty ty → ∃ t, exec (.vsel p d a b k) s = .next t ∧
      Safety.gave s m two ty (fun th => if TMask.has (m.st.kGet k.toNat) th then Safety.val two m ty 0 th else Safety.val two m ty 1 th) 0 false t) ∧
    (∀ e ∈ ([(.vsad p o, Safety.v3 p o), (.vsadX1 p x, Safety.x1 p x)] : List (Instr × Safety.Form)),
      ty.isInt = true → ty.is64 = false → Safety.runs s m e.2 ty .n32 →
      (∀ y ∈ e.2.srcs, posOk m.access m.wg.vregs 1 false y ty = true) →
      ∃ t, exec e.1 s = .next t ∧ Safety.gave s m e.2 .n32 (fun th =>
        ((List.range ty.count).map (fun j =>
          (ty.toInt (ty.elem (Safety.val e.2 m ty 0 th) j) - ty.toInt (ty.elem (Safety.val e.2 m ty 1 th) j)).natAbs)).sum % 2 ^ 32) 0 false t) ∧
    (∀ e ∈ ([(.vaddc p o, Safety.v3 p o), (.vaddcX1 p x, Safety.x1 p x)] : List (Instr × Safety.Form)),
      ty.isW = true → Safety.runs s m e.2 ty ty →
      let full (th : Nat) : Nat := Safety.val e.2 m ty 0 th + Safety.val e.2 m ty 1 th + (if TMask.has (m.st.kGet 7) th then 1 else 0)
      ∃ t st, exec e.1 s = .next t ∧ Safety.vectorFrame s m e.2.len t st ∧
        (∀ r, e.2.d = .reg r → Safety.wrote m e.2.n r.toNat ty (fun th => full th % 2 ^ ty.bits) st) ∧
        Safety.shifted m (fun th => full th % 2 ^ ty.bits) st ∧ st.flags = m.st.flags ∧ st.s = m.st.s ∧
        (∀ th, th < 8 → TMask.has (st.kGet 7) th =
          if TMask.has m.em th then decide (2 ^ ty.bits ≤ full th) else TMask.has (m.st.kGet 7) th) ∧
        ∀ r, r ≠ 7 → st.kGet r = m.st.kGet r)

/-- R181 and R192: bit t of kK is the condition on the values of active thread t and 0 for an inactive one; LT to GE follow the type's
signedness, LTN and GEN the unsigned readings. FCMP orders numbers by value: with a NaN only NE and the unordered conditions hold. No
register, latch or other mask changes, and VCMP sets no flag. -/
def Obligations.Comparisons : Prop :=
  ∀ (s : State) (m : Me) (p : Option Pfx) (c : Cond) (k : BitVec 3) (a b : Sel) (lit : W32),
    let ty := effET p m.st.mode
    let done (len : Nat) (truth : Nat → Bool) (flags : Strand → Prop) (t : State) : Prop :=
      ∃ st, Safety.vectorFrame s m len t st ∧ st.v = m.st.v ∧ st.x = m.st.x ∧ st.s = m.st.s ∧ st.latches = m.st.latches ∧ st.srs = m.st.srs ∧
        flags st ∧ (∀ th, th < 8 → TMask.has (st.kGet k.toNat) th = (TMask.has m.em th && truth th)) ∧ ∀ r, r ≠ k.toNat → st.kGet r = m.st.kGet r
    let intTruth (f : Safety.Form) (th : Nat) : Bool :=
      let x := Safety.val f m ty 0 th
      let y := Safety.val f m ty 1 th
      match c with
      | .eq => decide (x = y) | .ne => decide (x ≠ y) | .lt => decide (ty.toInt x < ty.toInt y) | .le => decide (ty.toInt x ≤ ty.toInt y)
      | .gt => decide (ty.toInt y < ty.toInt x) | .ge => decide (ty.toInt y ≤ ty.toInt x) | .ltn => decide (x < y) | .gen => decide (y ≤ x)
    (∀ e ∈ ([(.vcmp p c k a b, ⟨p, pfxLen p 4, false, .lit, [a, b], 0⟩), (.vcmpX1 p c k a b lit, ⟨p, pfxLen p 8, false, .lit, [a, b], lit⟩)] :
        List (Instr × Safety.Form)),
      ty.isW = true → Safety.reads s m e.2 ty → ∃ t, exec e.1 s = .next t ∧ done e.2.len (intTruth e.2) (fun st => st.flags = m.st.flags) t) ∧
    (∀ e ∈ ([(.fcmp p c k a b, ⟨p, pfxLen p 4, false, .lit, [a, b], 0⟩), (.fcmpX1 p c k a b lit, ⟨p, pfxLen p 8, false, .lit, [a, b], lit⟩)] :
        List (Instr × Safety.Form)),
      m.access = false → (ty = .f32 ∨ ty = .f64) → Safety.reads s m e.2 ty →
      ∃ t, exec e.1 s = .next t ∧
        done e.2.len (fun th => (fCompare ty.fmtD (modeDnf m.st.mode) c (Safety.val e.2 m ty 0 th) (Safety.val e.2 m ty 1 th)).1)
          (fun st => st.flags = (TMask.list m.em).foldl (fun g th =>
            g ||| (fCompare ty.fmtD (modeDnf m.st.mode) c (Safety.val e.2 m ty 0 th) (Safety.val e.2 m ty 1 th)).2) m.st.flags) t)

/-- R206 with Tables 9.8a and 10.16: for every scalar instruction but SDIV, in both forms, the destination receives the stated function
of sA and the second operand; no other s register changes, the latches take the result (R39), and nothing else of the machine
changes but the instruction address, which moves past the instruction. -/
def Obligations.ScalarResult : Prop :=
  ∀ (s : State) (m : Me) (d a : BitVec 5) (op : SOp) (lit : W32) (imm : BitVec 17) (k : BitVec 3) (c : Cond), s.me = some m →
    let A := m.st.sGet a.toNat
    let B : W64 := match op with | .reg r => m.st.sGet r.toNat | .imm i => i.signExtend 64
    let L : W64 := lit.signExtend 64
    let cond (x y : W64) : W64 :=
      if (match c with
        | .eq => x == y | .ne => x != y | .lt => x.slt y | .le => x.sle y | .gt => y.slt x | .ge => y.sle x | .ltn => x.ult y | .gen => y.ule x)
      then 1 else 0
    let sel (x y : W64) : W64 := if m.st.kGet k.toNat &&& m.em = 0 then y else x
    ∀ e ∈ ([
      (.sadd d a op, 4, A + B), (.saddX1 d a lit, 8, A + L), (.ssub d a op, 4, A - B), (.ssubX1 d a lit, 8, A - L),
      (.smul .lo d a op, 4, A * B), (.smulX1 .lo d a lit, 8, A * L),
      (.smul .his d a op, 4, ((A.signExtend 128 * B.signExtend 128).extractLsb' 64 64)),
      (.smulX1 .his d a lit, 8, ((A.signExtend 128 * L.signExtend 128).extractLsb' 64 64)),
      (.smul .hiu d a op, 4, ((A.setWidth 128 * B.setWidth 128).extractLsb' 64 64)),
      (.smulX1 .hiu d a lit, 8, ((A.setWidth 128 * L.setWidth 128).extractLsb' 64 64)),
      (.slog .and d a op, 4, A &&& B), (.slogX1 .and d a lit, 8, A &&& L), (.slog .or d a op, 4, A ||| B), (.slogX1 .or d a lit, 8, A ||| L),
      (.slog .xor d a op, 4, A ^^^ B), (.slogX1 .xor d a lit, 8, A ^^^ L), (.slog .andn d a op, 4, A &&& ~~~B), (.slogX1 .andn d a lit, 8, A &&& ~~~L),
      (.slog .not d a op, 4, ~~~A), (.slogX1 .not d a lit, 8, ~~~A),
      (.sshf .shl d a op, 4, A <<< (B.toNat % 64)), (.sshfX1 .shl d a lit, 8, A <<< (L.toNat % 64)),
      (.sshf .shr d a op, 4, A >>> (B.toNat % 64)), (.sshfX1 .shr d a lit, 8, A >>> (L.toNat % 64)),
      (.sshf .sra d a op, 4, A.sshiftRight (B.toNat % 64)), (.sshfX1 .sra d a lit, 8, A.sshiftRight (L.toNat % 64)),
      (.sshf .rot d a op, 4, A.rotateLeft (B.toNat % 64)), (.sshfX1 .rot d a lit, 8, A.rotateLeft (L.toNat % 64)),
      (.scmp c d a op, 4, cond A B), (.scmpX1 c d a lit, 8, cond A L), (.smov d a, 4, A), (.sli d imm, 4, imm.signExtend 64),
      (.sliX1 d lit, 8, L), (.ssel k d a op, 4, sel A B), (.sselX1 k d a lit, 8, sel A L)] : List (Instr × Nat × W64)),
    Safety.apart m (m.pc + BitVec.ofNat 64 e.2.1) →
    ∃ st t, exec e.1 s = .next t ∧ t.strands.find m.sid = some st ∧ Safety.onlyStrand m.sid s t ∧ Safety.sameBytes s t ∧
      st.sGet d.toNat = e.2.2 ∧ (∀ r, r ≠ d.toNat → st.sGet r = m.st.sGet r) ∧ Safety.latched m.em e.2.2 m.st st ∧
      { st with s := m.st.s, latches := m.st.latches } = Safety.moved m (m.pc + BitVec.ofNat 64 e.2.1)

/-- R186 and R187 with Table 10.8: FADD, FSUB, FMUL, FMA, FMAC, FDIV, FSQRT, FRINT and FSCL. Each element of an active thread is the exact
result of its operands, read under DNF, rounded once in the effective mode; the flags of all elements join FLAGS, and under RST the n-th
rounding of a thread uses its stochastic state after n steps. The flag IV of infinity times zero beside a quiet NaN is left open
(`Config.fmaQuietInvalid`, a free value). -/
def Obligations.FloatArithmetic : Prop :=
  ∀ (s : State) (m : Me) (p : Option Pfx) (o : V3) (u : V3u) (x : X1) (xu : X1u) (c : X2c),
    let ty := effET p m.st.mode
    let fm := ty.fmtD
    let rm := effRM p m.st.mode
    let rd := fm.read (modeDnf m.st.mode)
    let fma (e : REnv) (a b d : Nat) : FRes := fusedSum fm e (Config.fmaQuietInvalid a b d) [(rd a, rd b)] [rd d]
    ∀ e ∈ ([
      (.fadd p o, Safety.v3 p o, fun e a => fusedSum fm e true [] [rd (a 0), rd (a 1)]),
      (.faddX1 p x, Safety.x1 p x, fun e a => fusedSum fm e true [] [rd (a 0), rd (a 1)]),
      (.fsub p o, Safety.v3 p o, fun e a => fusedSum fm e true [] [rd (a 0), (rd (a 1)).negate]),
      (.fsubX1 p x, Safety.x1 p x, fun e a => fusedSum fm e true [] [rd (a 0), (rd (a 1)).negate]),
      (.fmul p o, Safety.v3 p o, fun e a => fusedSum fm e true [(rd (a 0), rd (a 1))] []),
      (.fmulX1 p x, Safety.x1 p x, fun e a => fusedSum fm e true [(rd (a 0), rd (a 1))] []),
      (.fma p c, Safety.x2c p c, fun e a => fma e (a 0) (a 1) (a 2)),
      (.fmac p o, Safety.withD (Safety.v3 p o), fun e a => fma e (a 1) (a 2) (a 0)),
      (.fmacX1 p x, Safety.withD (Safety.x1 p x), fun e a => fma e (a 1) (a 2) (a 0)),
      (.fdiv p o, Safety.v3 p o, fun e a => fDiv fm e (rd (a 0)) (rd (a 1))),
      (.fdivX1 p x, Safety.x1 p x, fun e a => fDiv fm e (rd (a 0)) (rd (a 1))),
      (.fsqrt p u, Safety.v3u p u, fun e a => fSqrt fm e (rd (a 0))), (.fsqrtX1 p xu, Safety.x1u p xu, fun e a => fSqrt fm e (rd (a 0))),
      (.frint p u, Safety.v3u p u, fun e a => fRint fm e (rd (a 0))), (.frintX1 p xu, Safety.x1u p xu, fun e a => fRint fm e (rd (a 0))),
      (.fscl p o, Safety.v3 p o, fun e a => fScale fm e (rd (a 0)) (toSigned ty.width (a 1))),
      (.fsclX1 p x, Safety.x1 p x, fun e a => fScale fm e (rd (a 0)) (toSigned ty.width (a 1)))] :
      List (Instr × Safety.Form × (REnv → (Nat → Nat) → FRes))),
    m.access = false → ty.isFP = true → Safety.runs s m e.2.1 ty ty →
    let r (th j : Nat) : FRes :=
      e.2.2 ⟨rm, effSat p m.st.mode, modeDnf m.st.mode, Safety.srsAt m rm th (j + 1)⟩ (fun k => ty.elem (Safety.val e.2.1 m ty k th) j)
    ∃ t res, exec e.1 s = .next t ∧
      Safety.gave s m e.2.1 ty res (Safety.flagsOf m ty.count (fun th j => (r th j).flags)) true t ∧
      Safety.stepped m rm (fun _ => ty.count) t ∧
      ∀ th, th < 8 → TMask.has m.em th = true → res th < 2 ^ ty.bits ∧
        ∀ j, j < ty.count → ty.elem (res th) j = (r th j).code % 2 ^ ty.width

/-- R190 and R191: FMIN and FMAX give the operand that is a number, order the zeros by sign, and set IV for a signalling NaN; FCLAMP is FMIN
of FMAX; FABS and FNEG change the sign bit of a number alone and make a NaN canonical; FCLASS gives the class bit. None rounds, and the
stochastic states stay.
R69: among the codes of f64, f32, f16 and bf16 that are no NaN, the key by which FMIN, FMAX and FCMP order codes is the order of their
values: equal exactly for the two zeros and equal codes, and less exactly where the value is less, infinities outermost. -/
def Obligations.FloatSelections : Prop :=
  (
    ∀ (s : State) (m : Me) (p : Option Pfx) (o : V3) (u : V3u) (x : X1) (xu : X1u) (c : X2c),
      let ty := effET p m.st.mode
      let fm := ty.fmtD
      let dnf := modeDnf m.st.mode
      let top := 2 ^ (fm.width - 1)
      let sign (a : Nat) (b : Bool) : FRes := match fm.decode a with
        | .nan sig => ⟨fm.nanCode, if sig then flIV else 0⟩
        | _ => ⟨a % top + (if b then top else 0), 0⟩
      let pick (wantMax : Bool) (a b : Nat) : FRes := match fm.decode a, fm.decode b with
        | .nan i, .nan j => ⟨fm.nanCode, if i || j then flIV else 0⟩
        | .nan i, _ => ⟨fm.flush dnf b, if i then flIV else 0⟩
        | _, .nan j => ⟨fm.flush dnf a, if j then flIV else 0⟩
        | v, _ => ⟨fm.flush dnf (if (decide (fm.key dnf a < fm.key dnf b) || (decide (fm.key dnf a = fm.key dnf b) && v.neg)) = wantMax then b else a), 0⟩
      let clamp (a b d : Nat) : FRes := ⟨(pick false (pick true a b).code d).code, (pick true a b).flags ||| (pick false (pick true a b).code d).flags⟩
      let cls (a : Nat) : FRes := ⟨match fm.decode a with
        | .inf n => if n then 1 else 128
        | .fin n _ _ => if fm.isSubnormal a then (if n then 4 else 32) else (if n then 2 else 64)
        | .zero n => if n then 8 else 16
        | .nan sig => if sig then 256 else 512, 0⟩
      ∀ e ∈ ([
        (.fmin p o, Safety.v3 p o, fun a => pick false (a 0) (a 1)), (.fminX1 p x, Safety.x1 p x, fun a => pick false (a 0) (a 1)),
        (.fmax p o, Safety.v3 p o, fun a => pick true (a 0) (a 1)), (.fmaxX1 p x, Safety.x1 p x, fun a => pick true (a 0) (a 1)),
        (.fclamp p c, Safety.x2c p c, fun a => clamp (a 0) (a 1) (a 2)),
        (.fabs p u, Safety.v3u p u, fun a => sign (a 0) false), (.fabsX1 p xu, Safety.x1u p xu, fun a => sign (a 0) false),
        (.fneg p u, Safety.v3u p u, fun a => sign (a 0) (a 0 < top)), (.fnegX1 p xu, Safety.x1u p xu, fun a => sign (a 0) (a 0 < top)),
        (.fclass p u, Safety.v3u p u, fun a => cls (a 0)), (.fclassX1 p xu, Safety.x1u p xu, fun a => cls (a 0))] :
        List (Instr × Safety.Form × ((Nat → Nat) → FRes))),
      m.access = false → ty.isFP = true → Safety.runs s m e.2.1 ty ty →
      let r (th j : Nat) : FRes := e.2.2 (fun k => ty.elem (Safety.val e.2.1 m ty k th) j)
      ∃ t res, exec e.1 s = .next t ∧ Safety.gave s m e.2.1 ty res (Safety.flagsOf m ty.count (fun th j => (r th j).flags)) false t ∧
        ∀ th, th < 8 → TMask.has m.em th = true → res th < 2 ^ ty.bits ∧
          ∀ j, j < ty.count → ty.elem (res th) j = (r th j).code % 2 ^ ty.width) ∧ (
    ∀ f ∈ [Fmt.f64, Fmt.f32, Fmt.f16, Fmt.bf16], ∀ a b, a < 2 ^ f.width → b < 2 ^ f.width →
      (f.decode a).isNan = false → (f.decode b).isNan = false →
      let scaled : FV → Int := fun v => match v with
        | .fin n k x => let y : Int := ((k * 2 ^ (x - f.minExp).toNat : Nat) : Int); if n then -y else y
        | _ => 0
      let less : FV → FV → Prop := fun v w => match v, w with
        | .inf true, .inf true => False
        | .inf true, _ => True
        | .inf false, _ => False
        | _, .inf n => n = false
        | v, w => scaled v < scaled w
      (f.key false a < f.key false b ↔ less (f.decode a) (f.decode b)) ∧
      (f.key false a = f.key false b ↔ a = b ∨ ((f.decode a).isZero = true ∧ (f.decode b).isZero = true)))

/-- R188 and R189 with Tables 10.8 to 10.10: FRCP, FRSQ, FEXP2, FLOG2, FSIN, FCOS and FTANH. Each element of an active thread is the
approximation of its operand, whatever the rounding mode, and the flags of all elements join FLAGS. Where the tables leave the low bits
open they are the implementation's (`Config.approx`, a free value). -/
def Obligations.Approximations : Prop :=
  ∀ (s : State) (m : Me) (p : Option Pfx) (u : V3u) (xu : X1u),
    let ty := effET p m.st.mode
    ∀ e ∈ ([
      (.frcp p u, Safety.v3u p u, .rcp), (.frcpX1 p xu, Safety.x1u p xu, .rcp), (.frsq p u, Safety.v3u p u, .rsq),
      (.frsqX1 p xu, Safety.x1u p xu, .rsq), (.fexp2 p u, Safety.v3u p u, .exp2), (.fexp2X1 p xu, Safety.x1u p xu, .exp2),
      (.flog2 p u, Safety.v3u p u, .log2), (.flog2X1 p xu, Safety.x1u p xu, .log2), (.fsin p u, Safety.v3u p u, .sin),
      (.fsinX1 p xu, Safety.x1u p xu, .sin), (.fcos p u, Safety.v3u p u, .cos), (.fcosX1 p xu, Safety.x1u p xu, .cos),
      (.ftanh p u, Safety.v3u p u, .tanh), (.ftanhX1 p xu, Safety.x1u p xu, .tanh)] : List (Instr × Safety.Form × AppOp)),
    m.access = false → ty.isFP = true → (e.2.2 = .rcp ∨ e.2.2 = .rsq ∨ ty.is64 = false) → Safety.runs s m e.2.1 ty ty →
    let r (th j : Nat) : FRes := fApprox e.2.2 ty.fmtD (effSat p m.st.mode) (modeDnf m.st.mode) (ty.elem (Safety.val e.2.1 m ty 0 th) j)
    ∃ t res, exec e.1 s = .next t ∧ Safety.gave s m e.2.1 ty res (Safety.flagsOf m ty.count (fun th j => (r th j).flags)) false t ∧
      ∀ th, th < 8 → TMask.has m.em th = true → res th < 2 ^ ty.bits ∧
        ∀ j, j < ty.count → ty.elem (res th) j = (r th j).code % 2 ^ ty.width

/-- R187 for the dot products: the elements of A and B are multiplied in pairs and all products and the old f32 destination are added
exactly, with one rounding into f32 for each active thread, which under RST uses one step of the thread's stochastic state.
R74 and R187: the delivery of an exact sum depends only on its value: written with a smaller exponent and a larger integer it gives the
same code and flags, in every format, mode and environment. -/
def Obligations.DotProducts : Prop :=
  (
    ∀ (s : State) (m : Me) (p : Option Pfx) (o : V3) (x : X1),
      let ty := effET p m.st.mode
      let rm := effRM p m.st.mode
      let dnf := modeDnf m.st.mode
      ∀ e ∈ ([
        (.fdot2 p o, Safety.withD (Safety.v3 p o), [.f16x2, .bf16x2]), (.fdot2X1 p x, Safety.withD (Safety.x1 p x), [.f16x2, .bf16x2]),
        (.fdot4 p o, Safety.withD (Safety.v3 p o), [.e4m3x4, .e5m2x4, .dm8x4]),
        (.fdot4X1 p x, Safety.withD (Safety.x1 p x), [.e4m3x4, .e5m2x4, .dm8x4])] : List (Instr × Safety.Form × List ETy)),
      m.access = false → ty ∈ e.2.2 → Safety.runs s m e.2.1 ty .f32 →
      let v (k th : Nat) : Nat := Safety.val e.2.1 m ty k th
      let el (k th j : Nat) : FV := ty.fmtD.read dnf (ty.elem (v k th) j)
      let r (th : Nat) : FRes := fusedSum .f32 ⟨rm, effSat p m.st.mode, dnf, Safety.srsAt m rm th 1⟩ (Config.fmaQuietInvalid (v 1 th) (v 2 th) (v 0 th))
        ((List.range ty.count).map (fun j => (el 1 th j, el 2 th j))) [Fmt.f32.read dnf (v 0 th)]
      ∃ t, exec e.1 s = .next t ∧ Safety.gave s m e.2.1 .f32 (fun th => (r th).code % 2 ^ 32) (Safety.flagsOf m 1 (fun th _ => (r th).flags)) true t ∧
        Safety.stepped m rm (fun _ => 1) t) ∧ (
    ∀ (f : Fmt) (e : REnv) (z : Bool) (v x : Int) (k : Nat),
      f.deliverInt e z (v * 2 ^ k) (x - k) = f.deliverInt e z v x)

/-- R74 and R75 for every format without DNF: where the rounded value does not overflow, the delivered code is that of one of the two
neighbouring ranks of the exact magnitude; an exact value is delivered without flags; IX is set exactly when the value is not exact; toward
zero gives the lower rank, upward and downward the one that the sign asks for, RNE and RNA the nearer one, or of two equally near the even
one or the farther from zero, and RST the farther one where the 16 discarded bits exceed those of the stochastic state.
R65: UF is set where an inexact value, rounded without a lower end of the exponents, is below the smallest normal, stated for the modes but
RST; in DM8 where it rounds to zero (R77).
R77: DNF changes a delivered subnormal alone, which becomes the zero of its sign with UF and IX.
R76 with Table 4.8: a result that rounds beyond the largest finite value sets OF and IX. Under saturation, and in a format without
infinity or NaN, it is the largest finite value of its sign, with SA; in E4M3 the NaN of its sign; else the mode chooses infinity or the
largest finite value. -/
def Obligations.Rounding : Prop :=
  (
    ∀ (f : Fmt) (e : REnv) (neg : Bool) (k : Nat) (x : Int), e.dnf = false → 0 < k →
      let base : Int := if f = .dm8 then -25 else f.minExp
      let mag (r : Nat) : Nat := match f.decode (f.rankCode false r) with | .fin _ a y => a * 2 ^ (y - base).toNat | _ => 0
      let p := f.pos ⟨k, x, false⟩
      let d := f.deliver e neg ⟨k, x, false⟩
      let scaled (n a : Nat) : Nat := n * a * 2 ^ (base - x).toNat
      let exact (n : Nat) : Nat := n * k * 2 ^ (x - base).toNat
      let low := scaled 2 (mag p.lo)
      let high := scaled 2 (mag (p.lo + 1))
      let val := exact 2
      let tiny : Prop := match e.rm with
        | .rtz => exact 4 < scaled 4 (2 ^ f.frac)
        | .rup => if neg then exact 4 < scaled 4 (2 ^ f.frac) else exact 4 ≤ scaled 2 (2 * 2 ^ f.frac - 1)
        | .rdn => if neg then exact 4 ≤ scaled 2 (2 * 2 ^ f.frac - 1) else exact 4 < scaled 4 (2 ^ f.frac)
        | _ => exact 4 < scaled 1 (4 * 2 ^ f.frac - 1)
      p.lo + 1 ≤ f.maxRank →
        low ≤ val ∧ val < high ∧
        (d.code = f.rankCode neg p.lo ∨ d.code = f.rankCode neg (p.lo + 1)) ∧
        (val = low → d = ⟨f.rankCode neg p.lo, 0⟩) ∧
        (val ≠ low → d.flags &&& flIX = flIX ∧
          (e.rm = .rtz → d.code = f.rankCode neg p.lo) ∧
          (e.rm = .rup → d.code = f.rankCode neg (if neg then p.lo else p.lo + 1)) ∧
          (e.rm = .rdn → d.code = f.rankCode neg (if neg then p.lo + 1 else p.lo)) ∧
          (e.rm = .rne ∨ e.rm = .rna → 2 * val < low + high → d.code = f.rankCode neg p.lo) ∧
          (e.rm = .rne ∨ e.rm = .rna → low + high < 2 * val → d.code = f.rankCode neg (p.lo + 1)) ∧
          (e.rm = .rne → 2 * val = low + high → d.code = f.rankCode neg (p.lo + p.lo % 2)) ∧
          (e.rm = .rna → 2 * val = low + high → d.code = f.rankCode neg (p.lo + 1)) ∧
          (e.rm = .rst → d.code = f.rankCode neg (if e.srs.toNat % 2 ^ 16 < (val - low) * 2 ^ 16 / (high - low) then p.lo + 1 else p.lo)) ∧
          (f ≠ .dm8 → e.rm ≠ .rst → (d.flags = flIX ||| flUF ↔ tiny) ∧ (d.flags = flIX ↔ ¬ tiny)) ∧
          (f = .dm8 → (d.flags = flIX ||| flUF ↔ d.code = 0) ∧ (d.flags = flIX ↔ d.code ≠ 0)))) ∧ (
    ∀ (f : Fmt) (e : REnv) (neg : Bool) (x : Mag), let r := (f.pos x).round e.rm neg e.srs
      f.deliver { e with dnf := true } neg x = if f ≠ .dm8 ∧ 0 < r ∧ r < 2 ^ f.frac then ⟨f.zeroCode neg, flUF ||| flIX⟩
        else f.deliver { e with dnf := false } neg x) ∧ (
    ∀ (f : Fmt) (e : REnv) (neg : Bool) (x : Mag), f.maxRank < (f.pos x).round e.rm neg e.srs →
      let d := f.deliver e neg x
      d.flags = (if e.sat || f.specials = .none then flOF ||| flIX ||| flSA else flOF ||| flIX) ∧
      (e.sat = true ∨ f.specials = .none → d.code = f.maxCode neg) ∧
      (e.sat = false → f = .e4m3 → d.code = 0x7F + (if neg then 0x80 else 0)) ∧
      (e.sat = false → f.hasInf = true →
        d.code = if e.rm = .rtz ∨ (e.rm = .rup ∧ neg = true) ∨ (e.rm = .rdn ∧ neg = false) then f.maxCode neg else f.infCode neg))

/-- R189 with Table 10.10, for every format of class FP: the results and flags of the approximations, of A / B and of the square root on NaN,
infinities, zeros and negative operands. -/
def Obligations.SpecialOperands : Prop :=
  ∀ f ∈ [Fmt.f64, Fmt.f32, Fmt.f16, Fmt.bf16], ∀ (sat dnf : Bool) (e : REnv) (a b : Nat) (o : AppOp),
    let one := f.bias * 2 ^ f.frac
    let nan (iv : Bool) : FRes := ⟨f.nanCode, if iv then flIV else 0⟩
    let r (o : AppOp) : FRes := fApprox o f sat dnf a
    (∀ i, f.decode a = .nan i → r o = nan i ∧ fSqrt f e (f.decode a) = nan i ∧ fDiv f e (f.decode a) (f.decode b) = nan (i || (f.decode b).isSig)) ∧
    (∀ n, f.read dnf a = .zero n →
      r .rcp = ⟨f.infCode n, flDZ⟩ ∧ r .rsq = ⟨f.infCode n, flDZ⟩ ∧ r .exp2 = ⟨one, 0⟩ ∧ r .log2 = ⟨f.infCode true, flDZ⟩ ∧
      r .sin = ⟨f.zeroCode n, 0⟩ ∧ r .cos = ⟨one, 0⟩ ∧ r .tanh = ⟨f.zeroCode n, 0⟩) ∧
    (∀ n, f.decode a = .inf n →
      r .rcp = ⟨f.zeroCode n, 0⟩ ∧ r .rsq = (if n then nan true else ⟨f.zeroCode false, 0⟩) ∧
      r .exp2 = ⟨if n then f.zeroCode false else f.infCode false, 0⟩ ∧ r .log2 = (if n then nan true else ⟨f.infCode false, 0⟩) ∧
      r .sin = nan true ∧ r .cos = nan true ∧ r .tanh = ⟨one + f.signBit n, 0⟩) ∧
    (∀ k x, f.read dnf a = .fin true k x → r .rsq = nan true ∧ r .log2 = nan true ∧ fSqrt f e (f.read dnf a) = nan true) ∧
    (∀ i j, f.decode a = .inf i → f.decode b = .inf j → fDiv f e (f.decode a) (f.decode b) = nan true) ∧
    (∀ i j, f.decode a = .zero i → f.decode b = .zero j → fDiv f e (f.decode a) (f.decode b) = nan true) ∧
    (∀ i k x j, f.decode a = .fin i k x → f.decode b = .zero j → fDiv f e (f.decode a) (f.decode b) = ⟨f.infCode (i.xor j), flDZ⟩)

/-- R193 to R196 with R79: CVT converts each element with its own rounding and saturation where it names them, else the effective ones; PACK
narrows A and B into the low elements and moves the old low half of a four-element D up; UNPACK widens the element of A that B names; QSCALE
gives every active thread the block scale of all active values. An inline constant of PACK and QSCALE has the effective element type (R155; the
model's reading, log 82). Under RST a conversion that rounds steps the thread's stochastic state.
R79: a conversion into the same type copies; a wider integer type receives the value, or its low bits where the sign does not fit; a narrower
or equally wide one wraps, or under saturation clamps with SA; a NaN becomes integer 0 with IV, an infinity or a rounded value out of
range the nearest integer with IV, and any other value the rounded integer, with IX when it was not exact. -/
def Obligations.Conversions : Prop :=
  (
    ∀ (s : State) (m : Me) (p : Option Pfx) (v : CvtF) (o : V3) (u : V3u) (x : X1), m.access = false →
      let ty := effET p m.st.mode
      let dnf := modeDnf m.st.mode
      let rm := effRM p m.st.mode
      let sat := effSat p m.st.mode
      let stepping (a b : ETy) (r : RMode) : RMode := if a ≠ b ∧ ¬ (a.isInt = true ∧ b.isInt = true) then r else .rne
      let one : Safety.Form := ⟨p, pfxLen p 8, false, v.d, [v.a], 0⟩
      (v.src.count = v.dst.count → Safety.runs s m one v.src v.dst →
        let r := v.rm.getD rm
        let el (th j : Nat) : FRes :=
          convElem v.src v.dst ⟨r, v.sat.getD sat, dnf, Safety.srsAt m (stepping v.src v.dst r) th (j + 1)⟩ (v.src.elem (Safety.val one m v.src 0 th) j)
        ∃ t res, exec (.cvt p v) s = .next t ∧
          Safety.gave s m one v.dst res (Safety.flagsOf m v.src.count (fun th j => (el th j).flags)) true t ∧
          Safety.stepped m (stepping v.src v.dst r) (fun _ => v.src.count) t ∧
          ∀ th, th < 8 → TMask.has m.em th = true → res th < 2 ^ v.dst.bits ∧
            ∀ j, j < v.dst.count → v.dst.elem (res th) j = (el th j).code % 2 ^ v.dst.width) ∧
      (∀ e ∈ ([(.pack p o, Safety.v3 p o), (.packX1 p x, Safety.x1 p x)] : List (Instr × Safety.Form)),
        let from_ : ETy := if ty.isInt then .i32 else .f32
        ty.isPK = true → Safety.runs s m e.2 from_ ty ty → ∀ d, e.2.d = .reg d →
        let el (th k : Nat) : FRes :=
          convElem from_ ty ⟨rm, sat, dnf, Safety.srsAt m (stepping from_ ty rm) th (k + 1)⟩ (Safety.val e.2 m from_ k th ty)
        ∃ t res, exec e.1 s = .next t ∧ Safety.gave s m e.2 ty res (Safety.flagsOf m 2 (fun th k => (el th k).flags)) true t ∧
          Safety.stepped m (stepping from_ ty rm) (fun _ => 2) t ∧
          ∀ th, th < 8 → TMask.has m.em th = true → res th < 2 ^ 32 ∧
            (∀ k, k < 2 → ty.elem (res th) k = (el th k).code % 2 ^ ty.width) ∧
            (ty.count = 4 → ∀ k, k < 2 → ty.elem (res th) (k + 2) = ty.elem (m.st.vGet d.toNat th).toNat k)) ∧
      (∀ e ∈ ([(.unpack p o, Safety.v3 p o), (.unpackX1 p x, Safety.x1 p x)] : List (Instr × Safety.Form)),
        let into : ETy := if ty.isInt then (if ty.signed then .i32 else .n32) else .f32
        ty.isPK = true → Safety.runs s m e.2 ty into →
        let el (th : Nat) : Nat := ty.elem (Safety.val e.2 m ty 0 th) (Safety.val e.2 m ty 1 th % ty.count)
        let r (th : Nat) : FRes := if ty.isInt then ⟨(BitVec.ofInt 32 (ty.toInt (el th))).toNat, 0⟩
          else convFF .f32 ⟨.rne, false, false, 0⟩ (ty.fmtD.read dnf (el th))
        ∃ t, exec e.1 s = .next t ∧ Safety.gave s m e.2 into (fun th => (r th).code) (Safety.flagsOf m 1 (fun th _ => (r th).flags)) false t) ∧
      (let f := Safety.v3u p u
       ∀ emax, (ty, emax) ∈ [(ETy.e4m3x4, (8 : Int)), (.e5m2x4, 15), (.dm8x4, 0), (.i8x4, 0)] → Safety.runs s m f .f32 ty ty →
        ∃ t, exec (.qscale p u) s = .next t ∧
          Safety.gave s m f ty (fun _ => scaleCode emax ((TMask.list m.em).map (fun th => Fmt.f32.decode (Safety.val f m .f32 0 th ty)))) 0 false t)) ∧ (
    ∀ (a b : ETy) (e : REnv) (x : Nat), x < 2 ^ a.width → b.isInt = true →
      let lo := intMin b.signed b.width
      let hi := intMax b.signed b.width
      let v := a.toInt x
      let r := convElem a b e x
      let clamped (k : Int) : Int := max lo (min hi k)
      (a = b → r = ⟨x, 0⟩) ∧
      (a ≠ b → a.isInt = true → b.width ≤ a.width → e.sat = true → b.toInt r.code = clamped v ∧ (r.flags = if lo ≤ v ∧ v ≤ hi then 0 else flSA)) ∧
      (a ≠ b → a.isInt = true → a.width < b.width ∨ e.sat = false → r.flags = 0 ∧ r.code < 2 ^ b.width ∧ (lo ≤ v → v ≤ hi → b.toInt r.code = v) ∧
        (2 : Int) ^ b.width ∣ v - r.code) ∧
      (a.isInt = false →
        (∀ i, a.fmtD.decode x = .nan i → r = ⟨0, flIV⟩) ∧
        (∀ n, a.fmtD.decode x = .inf n → b.toInt r.code = (if n then lo else hi) ∧ r.flags = flIV) ∧
        (∀ n, a.fmtD.decode x = .zero n → r = ⟨0, 0⟩) ∧
        ∀ n k y, a.fmtD.decode x = .fin n k y → e.rm ≠ .rst →
          let one : Nat := 2 ^ (-y).toNat
          let low : Nat := k * 2 ^ y.toNat / one
          let rest : Nat := k * 2 ^ y.toNat % one
          let up : Bool := match e.rm with
            | .rup => !n && decide (0 < rest) | .rdn => n && decide (0 < rest)
            | .rne => decide (one < 2 * rest) || (decide (one = 2 * rest) && decide (low % 2 = 1)) | .rna => decide (one ≤ 2 * rest)
            | _ => false
          let w : Int := (if n then -1 else 1) * ((low + if up then 1 else 0 : Nat) : Int)
          b.toInt r.code = clamped w ∧ (r.flags = if clamped w ≠ w then flIV else if rest = 0 then 0 else flIX)))

/-- R182: VSHUF gives the value of A in the thread that B names, VBCAST in the thread that the lowest active thread's B names, VROTT in the
thread that many places on, active or not; VIDX adds t × B to A; V2S gives the s register, and the latches of active threads, A of the
lowest active thread.
R183 with Table 10.6: the values of A are combined across the active threads in ascending order, each element apart. VRED gives every active
thread the whole; VSCAN gives each the run up to it, or before it when exclusive, where an empty run is the identity, and a run starts at
every thread whose segment bit is 1. FADD steps the stochastic state of the thread whose value is combined in, save at the start of a
run. -/
def Obligations.CrossThread : Prop :=
  (
    ∀ (s : State) (m : Me) (p : Option Pfx) (o : V3) (x : X1) (n : Bool) (sd : BitVec 5) (a : Sel),
      let ty := effET p m.st.mode
      let low := TMask.lowest m.em
      (∀ e ∈ ([
          (.vshuf p o, Safety.v3 p o, fun v th => v 0 (v 1 th % 8)), (.vshufX1 p x, Safety.x1 p x, fun v th => v 0 (v 1 th % 8)),
          (.vbcast p o, Safety.v3 p o, fun v _ => v 0 (v 1 low % 8)), (.vbcastX1 p x, Safety.x1 p x, fun v _ => v 0 (v 1 low % 8)),
          (.vrott p o, Safety.v3 p o, fun v th => v 0 ((th + v 1 low) % 8)), (.vrottX1 p x, Safety.x1 p x, fun v th => v 0 ((th + v 1 low) % 8))] :
          List (Instr × Safety.Form × ((Nat → Nat → Nat) → Nat → Nat))),
        Safety.runs s m e.2.1 ty ty → ∃ t, exec e.1 s = .next t ∧
          Safety.gave s m e.2.1 ty (e.2.2 (fun k th => Safety.val e.2.1 m ty k th)) 0 false t) ∧
      (let f := Safety.v3 p o
       ty.isW = true → Safety.runs s m f ty ty → ∃ t, exec (.vidx p o) s = .next t ∧
        Safety.gave s m f ty (fun th => (Safety.val f m ty 0 th + th * Safety.val f m ty 1 th) % 2 ^ ty.bits) 0 false t) ∧
      (let f : Safety.Form := ⟨p, pfxLen p 4, n, .lit, [a], 0⟩
       Safety.reads s m f ty →
        let w := ty.extend (Safety.val f m ty 0 low)
        ∃ t st, exec (.v2s p n sd a) s = .next t ∧ Safety.vectorFrame s m f.len t st ∧
          st.sGet sd.toNat = (if n then m.st.sGet sd.toNat else w) ∧ (∀ r, r ≠ sd.toNat → st.sGet r = m.st.sGet r) ∧
          Safety.latched m.em w m.st st ∧ st.v = m.st.v ∧ st.x = m.st.x ∧ st.k = m.st.k ∧ st.flags = m.st.flags ∧
          ∀ th, st.srs.get th = m.st.srs.get th)) ∧ (
    ∀ (s : State) (m : Me) (p : Option Pfx) (d a : Sel) (fn : RedFn) (exc : Bool) (seg : Option (BitVec 3)),
      let ty := effET p m.st.mode
      let rm := effRM p m.st.mode
      let dnf := modeDnf m.st.mode
      let f : Safety.Form := ⟨p, pfxLen p 8, false, d, [a], 0⟩
      let flt : Bool := match fn with | .fadd => true | .fmin => true | .fmax => true | _ => false
      let fm := ty.fmtD
      let join (th j x y : Nat) : FRes :=
        let e : REnv := ⟨rm, effSat p m.st.mode, dnf, if fn = .fadd then Safety.srsAt m rm th (j + 1) else m.st.srs.get th⟩
        match fn with
        | .add => intDeliver ty.signed ty.width e.sat (ty.toInt x + ty.toInt y)
        | .min => ⟨ofSigned ty.width (min (ty.toInt x) (ty.toInt y)), 0⟩
        | .max => ⟨ofSigned ty.width (max (ty.toInt x) (ty.toInt y)), 0⟩
        | .and => ⟨x &&& y, 0⟩ | .or => ⟨x ||| y, 0⟩ | .xor => ⟨x ^^^ y, 0⟩
        | .fadd => fusedSum fm e true [] [fm.read dnf x, fm.read dnf y]
        | .fmin => fMinMax fm dnf false x y
        | .fmax => fMinMax fm dnf true x y
      let el (th j : Nat) : Nat := ty.elem (Safety.val f m ty 0 th) j
      let whole (run : List Nat) (j : Nat) : Option Nat := run.foldl (fun acc th => match acc with
        | none => some (el th j)
        | some x => some ((join th j x (el th j)).code % 2 ^ ty.width)) none
      let flag (run : List Nat) (th j : Nat) : BitVec 6 := match whole run j with | none => 0 | some x => (join th j x (el th j)).flags
      let before (segs : TMask) (th : Nat) : List Nat :=
        (TMask.list m.em).filter (fun u => decide (u < th) && !(List.range (th + 1)).any (fun v => decide (u < v) && TMask.has m.em v && TMask.has segs v))
      let segs : TMask := match seg with | some k => m.st.kGet k.toNat | none => 0
      let ident : Nat := match fn with
        | .min => ofSigned ty.width (intMax ty.signed ty.width) | .max => ofSigned ty.width (intMin ty.signed ty.width) | .and => 2 ^ ty.width - 1
        | .fmin => fm.infCode false | .fmax => fm.infCode true | _ => 0
      let steps (segs : TMask) (th : Nat) : Nat := if fn = .fadd ∧ before segs th ≠ [] then ty.count else 0
      (if flt then ty.isFP = true ∧ m.access = false else ty.isInt = true) → Safety.runs s m f ty ty →
      (∃ t res, exec (.vred p d a fn) s = .next t ∧
        Safety.gave s m f ty res (Safety.flagsOf m ty.count (fun th j => flag (before 0 th) th j)) (decide (fn = .fadd)) t ∧
        (fn = .fadd → Safety.stepped m rm (steps 0) t) ∧
        ∀ th, th < 8 → TMask.has m.em th = true → res th < 2 ^ ty.bits ∧ ∀ j, j < ty.count → some (ty.elem (res th) j) = whole (TMask.list m.em) j) ∧
      (∃ t res, exec (.vscan p d a fn exc seg) s = .next t ∧
        Safety.gave s m f ty res (Safety.flagsOf m ty.count (fun th j => flag (before segs th) th j)) (decide (fn = .fadd)) t ∧
        (fn = .fadd → Safety.stepped m rm (steps segs) t) ∧
        ∀ th, th < 8 → TMask.has m.em th = true → res th < 2 ^ ty.bits ∧ ∀ j, j < ty.count →
          ty.elem (res th) j = if exc then (whole (before segs th) j).getD ident else (whole (before segs th ++ [th]) j).getD 0))

/-- R184 with Table 10.7: KOP, KFROMS and EMSAVE write a k register, KOP on EM, SETEM and EMREST write EM within FM, KTOS, KPOPC and KFFS write a
register; nothing else of the strand changes but the instruction address. -/
def Obligations.MaskInstructions : Prop :=
  ∀ (s : State) (m : Me) (p : Option Pfx) (fn : KFn) (a b : MNum) (k : BitVec 3) (sa : BitVec 5) (n : Bool) (d : Sel) (i : BitVec 8),
    s.me = some m → m.em ≠ 0 → m.f.rc = 0 →
    let len := pfxLen p 4
    let at_ := Safety.moved m (m.pc + BitVec.ofNat 64 len)
    let M : MNum → TMask := fun x => match x with | .k r => m.st.kGet r.toNat | .em => m.f.em
    let kop : TMask := match fn with
      | .and => M a &&& M b | .or => M a ||| M b | .xor => M a ^^^ M b | .andn => M a &&& ~~~M b | .not => ~~~M a | .mov => M a
      | .set => 0xFF | .clr => 0
    (∀ e ∈ ([(.kop p fn (.k k) a b, kop), (.kfroms p k sa, (m.st.sGet sa.toNat).extractLsb' 0 8), (.emsave p k, m.f.em)] : List (Instr × TMask)),
      Safety.apart m (m.pc + BitVec.ofNat 64 len) → ∃ t st, exec e.1 s = .next t ∧ Safety.vectorFrame s m len t st ∧ st.kGet k.toNat = e.2 ∧
        (∀ r, r ≠ k.toNat → st.kGet r = m.st.kGet r) ∧ { st with k := m.st.k } = at_) ∧
    (∀ e ∈ ([(.kop p fn .em a b, kop), (.setem p (.k k), m.st.kGet k.toNat), (.setem p (.imm i), i), (.emrest p k, m.st.kGet k.toNat)] :
        List (Instr × TMask)),
      let st := { at_ with frags := listAdjust at_.frags m.fi (fun f => { f with em := e.2 &&& f.fm }) }
      st.settleFrags = st → ∃ t, exec e.1 s = .next t ∧ t.strands.find m.sid = some st ∧ Safety.onlyStrandAndLane m.sid s t ∧ Safety.sameBytes s t) ∧
    (let f : Safety.Form := ⟨p, len, n, d, [], 0⟩
     let ty := effET p m.st.mode
     let first := (List.range 8).find? (fun j => (M a).getLsbD j)
     ∀ e ∈ ([(.ktos p n d a, (M a).toNat), (.kpopc p n d a, ((List.range 8).filter (fun j => (M a).getLsbD j)).length), (.kffs p n d a, first.getD 8)] :
        List (Instr × Nat)),
      Safety.runs s m f ty ty → ∃ t, exec e.1 s = .next t ∧ Safety.gave s m f ty (fun _ => e.2) 0 false t)

/-- R199 and R200: the descriptor names a tile, a row and a first column; thread t accesses that column plus t. ACRD reads, ACWR writes, and ACWR
ADD adds as FADD or as a saturating integer addition. A write reaches both copies of a shadowed tile. A tile that an incomplete matrix
command uses reads as values that the spec leaves open (R144), free values here. -/
def Obligations.AccumulatorAccess : Prop :=
  ∀ (s : State) (m : Me) (p : Option Pfx) (n add : Bool) (d a b : Sel) (lit : W32), m.access = false →
    (a = .lit ∨ ∃ k, a = .s k) →
    let ty := effET p m.st.mode
    let rm := effRM p m.st.mode
    let dnf := modeDnf m.st.mode
    let desc (lit : W32) : W64 := match a with | .s k => m.st.sGet k.toNat | _ => lit.setWidth 64
    let tile (lit : W32) : Nat := ((desc lit).extractLsb' 0 5).toNat
    let cell (lit : W32) (th : Nat) : Nat := 64 * ((desc lit).extractLsb' 8 6).toNat + ((desc lit).extractLsb' 16 6).toNat + th
    let legal (lit : W32) : Prop := tile lit < m.wg.acc ∧ ((desc lit).extractLsb' 16 6).toNat + 8 ≤ 64 ∧
      (m.wg.tileType (tile lit), ty) ∈ [(TileTy.fp32, ETy.f32), (.int32, .i32), (.fp64, .f64)] ∧ (ty = .f64 → tile lit % 2 = 0)
    (∀ e ∈ ([(.acrd p n d a, ⟨p, pfxLen p 4, n, d, [a], 0⟩), (.acrdX1 p d a lit, ⟨p, pfxLen p 8, false, d, [a], lit⟩)] : List (Instr × Safety.Form)),
      let f := e.2
      legal f.lit → Safety.runs s m f .n64 ty →
      (s.tileBusy m.sid.wg (tile f.lit) = false → ∃ t, exec e.1 s = .next t ∧
        Safety.gave s m f ty (fun th => ((m.wg.tile (tile f.lit)).get (cell f.lit th)).toNat % 2 ^ ty.bits) 0 false t) ∧
      (s.tileBusy m.sid.wg (tile f.lit) = true → ∃ t st, exec e.1 s = .next t ∧ t.strands.find m.sid = some st ∧ Safety.sameBytes s t ∧
        st.flags = m.st.flags ∧ st.s = m.st.s ∧ st.k = m.st.k ∧ st.frags = (Safety.moved m (m.pc + BitVec.ofNat 64 f.len)).frags ∧
        t.wgs = s.wgs ∧ t.free = s.free + 8)) ∧
    (∀ e ∈ ([(.acwr p add a b, ⟨p, pfxLen p 4, false, .lit, [b], 0⟩), (.acwrX1 p add a b lit, ⟨p, pfxLen p 8, false, .lit, [b], lit⟩)] :
        List (Instr × Safety.Form)),
      let f := e.2
      let x := tile f.lit
      let both := if m.wg.shadowed.contains x then [x, x + m.wg.acc / 2] else [x]
      legal f.lit → Safety.reads s m f ty → (∀ y ∈ both, s.tileBusy m.sid.wg y = false) →
      let old (th : Nat) : Nat := ((m.wg.tile x).get (cell f.lit th)).toNat % 2 ^ ty.bits
      let v (th : Nat) : Nat := Safety.val f m ty 0 th
      let fp := ty.fmt.isSome
      let r (th : Nat) : FRes := if !add then ⟨v th, 0⟩
        else if fp then fusedSum ty.fmtD ⟨rm, effSat p m.st.mode, dnf, Safety.srsAt m rm th 1⟩ true [] [ty.fmtD.read dnf (old th), ty.fmtD.read dnf (v th)]
        else intDeliver ty.signed ty.width (effSat p m.st.mode) (ty.toInt (old th) + ty.toInt (v th))
      ∃ t st g, exec e.1 s = .next t ∧ t.strands.find m.sid = some st ∧ t.wgs.find m.sid.wg = some g ∧ Safety.sameBytes s t ∧
        st.flags = m.st.flags ||| Safety.flagsOf m 1 (fun th _ => (r th).flags) ∧
        { st with flags := m.st.flags, srs := m.st.srs } = Safety.moved m (m.pc + BitVec.ofNat 64 f.len) ∧
        Safety.stepped m rm (fun _ => if add && fp then 1 else 0) t ∧
        (∀ y c, (g.tile y).get c = match (List.range 8).find? (fun th => decide (y ∈ both) && TMask.has m.em th && decide (c = cell f.lit th)) with
          | some th => BitVec.ofNat 64 ((r th).code % 2 ^ ty.bits)
          | none => (m.wg.tile y).get c) ∧
        { g with tiles := m.wg.tiles } = m.wg ∧ (∀ w, w ≠ m.sid.wg → t.wgs.find w = s.wgs.find w) ∧
        (∀ y, y ≠ m.sid → t.strands.find y = s.strands.find y))

/-- R197 and R198 with R47 to R53: a pop that finds its entries writes active threads' words and consumes the entries whole, qt receives the
tag; a push that finds room appends entries with the words of active threads and zero elsewhere; QCNT delivers the status word and changes
no queue; QDROP removes one entry, or none at end of stream. Pops and pushes are yield points. -/
def Obligations.QueueInstructions : Prop :=
  ∀ (s : State) (m : Me) (p : Option Pfx) (q : BitVec 4) (qu : Queue) (n : Bool) (a d : Sel) (tag : BitVec 2) (ch : BitVec 12),
    s.me = some m → m.em ≠ 0 → m.f.rc = 0 → repTotal p = 1 → m.pending = none → m.queue q.toNat = some qu →
    let ty := effET p m.st.mode
    let two := if ty.is64 then 2 else 1
    let isTaker : Bool := decide (qu.decl.kind.consumer = m.sid.slice)
    let isMaker : Bool := decide (qu.decl.kind.producer = m.sid.slice)
    let after (len : Nat) (t : State) (st : Strand) : Prop := t.strands.find m.sid = some st ∧ Safety.sameBytes s t ∧ Safety.latchesZero st ∧
      (t.laneOf m.sid).cur = none ∧ st.frags = (Safety.moved m (m.pc + BitVec.ofNat 64 len)).frags ∧
      st.s = m.st.s ∧ st.k = m.st.k ∧ st.flags = m.st.flags ∧ st.mode = m.st.mode ∧
      (∀ x, x ≠ m.sid → t.strands.find x = s.strands.find x) ∧ (∀ w, w ≠ m.sid.wg → t.wgs.find w = s.wgs.find w)
    let now (t : State) (k : Nat) : Option Queue := (t.wgs.find m.sid.wg).bind (fun g => g.queues.find k)
    let others (t : State) : Prop := ∀ k, k ≠ q.toNat → now t k = m.wg.queues.find k
    let sound : Prop := qu.decl.bcast = true → ((qu.view m.sid.idx).map QEntry.id).Nodup
    (∀ r lo hi tg k, d = .reg r → isTaker = true → sound → s.popRes m.sid.wg m.sid.idx qu two = .ok lo hi tg k →
      posOk m.access m.wg.vregs 1 false d ty = true → (m.access = true → s.xBusy m.sid [r.toNat] = false) →
      ∀ e ∈ ([(.deq p d q, false), (.vmov p ⟨n, d, .queue q⟩, n)] : List (Instr × Bool)), Safety.apart m (m.pc + BitVec.ofNat 64 (pfxLen p 4)) →
      ∃ t st, exec e.1 s = .next t ∧ after (pfxLen p 4) t st ∧ others t ∧ st.qt = tg ∧
        Safety.wrote m e.2 r.toNat ty (fun th => ((lo[th]?).getD 0).toNat + (if ty.is64 then ((hi[th]?).getD 0).toNat * 2 ^ 32 else 0)) st ∧
        (now t q.toNat).map (fun x => x.view m.sid.idx) = some ((qu.view m.sid.idx).drop k)) ∧
    (∀ e ∈ ([(.enq p q a tag, ⟨p, pfxLen p 4, false, .lit, [a], 0⟩, tag, qu.channel m.sid.idx),
             (.enqX2 p q a tag ch, ⟨p, pfxLen p 8, false, .lit, [a], 0⟩, tag, ch.toNat),
             (.vmov p ⟨false, .queue q, a⟩, ⟨p, pfxLen p 4, false, .lit, [a], 0⟩, 0, qu.channel m.sid.idx)] :
        List (Instr × Safety.Form × BitVec 2 × Nat)),
      isMaker = true → (qu.decl.bcast = true → qu.chans.length = 1) → e.2.2.2 < qu.chans.length → two ≤ qu.room e.2.2.2 → Safety.reads s m e.2.1 ty →
      let word (half th : Nat) : W32 := if TMask.has m.em th then BitVec.ofNat 32 (Safety.val e.2.1 m ty 0 th / 2 ^ (32 * half)) else 0
      ∃ t st qu' es, exec e.1 s = .next t ∧ after e.2.1.len t st ∧ others t ∧ st.qt = m.st.qt ∧ st.v = m.st.v ∧ st.x = m.st.x ∧
        now t q.toNat = some qu' ∧ qu'.decl = qu.decl ∧
        (∀ i, (if qu.decl.bcast then i ∈ s.live m.sid.wg qu.decl.kind.consumer else i = e.2.2.2) → qu'.view i = qu.view i ++ es) ∧
        es.map (fun x => (x.tag, x.pend, x.poison)) = List.replicate two (e.2.2.1, none, none) ∧
        ∀ h, h < two → ∀ th, th < 8 → (es[h]?).map (fun x => x.word th) = some (word h th)) ∧
    (let f : Safety.Form := ⟨p, pfxLen p 4, n, d, [], 0⟩
     let v := qu.view m.sid.idx
     let b (c : Bool) : Nat := if c then 1 else 0
     let head (g : QEntry → Bool) : Bool := match v with | [] => false | x :: _ => g x
     let tagOf : Nat := match v with | [] => 0 | x :: _ => if x.pend.isSome then 0 else x.tag.toNat
     let w : Nat := if isTaker then v.length % 2 ^ 13 + 2 ^ 13 * b (head (fun x => x.pend.isSome)) +
        2 ^ 14 * b (v.isEmpty && s.producersGone m.sid.wg qu) + 2 ^ 15 * b (head (fun x => !x.pend.isSome && decide (x.tag = 3))) + 2 ^ 16 * tagOf
       else (qu.decl.depth - ((qu.chans[qu.channel m.sid.idx]?).getD []).length) % 2 ^ 13
     Safety.runs s m f ty ty → ∃ t, exec (.qcnt p n d q) s = .next t ∧ Safety.gave s m f ty (fun _ => w) 0 false t) ∧
    (isTaker = true → Safety.apart m (m.pc + BitVec.ofNat 64 (pfxLen p 4)) →
      (qu.view m.sid.idx = [] → s.producersGone m.sid.wg qu = true →
        ∃ t st, exec (.qdrop p q) s = .next t ∧ after (pfxLen p 4) t st ∧ st.qt = 2 ∧ t.wgs = s.wgs) ∧
      (∀ x l, qu.view m.sid.idx = x :: l → x.pend = none → sound →
        ∃ t st, exec (.qdrop p q) s = .next t ∧ after (pfxLen p 4) t st ∧ others t ∧ st.qt = x.tag ∧ st.v = m.st.v ∧ st.x = m.st.x ∧
          (now t q.toNat).map (fun y => y.view m.sid.idx) = some l))

/-- R31: a legal main-map instruction of a fragment whose EM is 0, of whatever kind, pops, pushes, writes and traps nothing: the strand stands
after its full length, with its latches zero where it is yield-class (R41), and of the rest only the strand's lane has changed. -/
def Obligations.PredicatedOff : Prop :=
  ∀ (s : State) (m : Me) (i : Instr), s.me = some m → m.em = 0 → m.f.rc = 0 → m.pending = none → WellFormed i = true → encode i ≠ [] →
    isMain (mainWord (encode i)) = true → Safety.apart m (m.pc + BitVec.ofNat 64 i.length) →
    ∃ t st, exec i s = .next t ∧ t.strands.find m.sid = some st ∧ Safety.onlyStrandAndLane m.sid s t ∧ Safety.sameBytes s t ∧
      st = (if Instr.yieldClass i then Safety.gone m (m.pc + BitVec.ofNat 64 i.length) else Safety.moved m (m.pc + BitVec.ofNat 64 i.length))

/-- R154 and R155: for VMOV with an active thread and a register destination: an access strand has 32 x registers; an execute strand's v
registers end at its declared count, and a 64-bit type names an even one; an integer type has the constants 0, 1, −1, 2 and 4. Every other
use traps as ILLEGAL. -/
def Obligations.OperandLegality : Prop :=
  ∀ (s : State) (m : Me) (p : Option Pfx) (n : Bool) (r : BitVec 6) (a : Sel), s.me = some m → m.em ≠ 0 → repTotal p = 1 → a.isQueue = false →
    let ty := effET p m.st.mode
    let regOk (x : Nat) : Bool :=
      if m.access then decide (x < 32) else if ty.is64 then decide (x + 1 < m.wg.vregs) && decide (x % 2 = 0) else decide (x < m.wg.vregs)
    let ok : Bool := regOk r.toNat && (match a with
      | .reg x => regOk x.toNat
      | .const k => !ty.isInt || decide (k ∈ [0, 1, 2, 3, 6])
      | _ => true)
    ok = false → ∃ t, exec (.vmov p ⟨n, .reg r, a⟩) s = .next t ∧ Safety.trapped s m m.pc (Safety.record m 0x01 0) t

/-- R164, R52 and R58 for every vector instruction without memory: with an active thread, one that is not legal for the strand traps as
ILLEGAL; else one that pops at a producing end or pushes at a consuming end as QUEUE_DIRECTION; else, where its queues are ready and one has
POISON at its head, as FAR_FAULT with the record that the entry keeps. -/
def Obligations.VectorTraps : Prop :=
  ∀ (s : State) (m : Me) (i : Instr) (v : Vec), s.me = some m → Safety.vecOf s m i = some v → m.em ≠ 0 → m.f.rc = 0 → m.pending = none →
    let ty := effET v.pfx m.st.mode
    let legal := v.legalFor m ty (repTotal v.pfx)
    let taken : List Nat := (v.pops ty).map Prod.fst
    let pushed : List Nat := (v.dst ty).queueNum.toList
    let wrong : Bool := taken.any (fun q => (m.queue q).any (fun x => decide (x.decl.kind.consumer ≠ m.sid.slice))) ||
      pushed.any (fun q => (m.queue q).any (fun x => decide (x.decl.kind.producer ≠ m.sid.slice)))
    (legal = false → ∃ t, exec i s = .next t ∧ Safety.trapped s m m.pc (Safety.record m 0x01 0) t) ∧
    (legal = true → wrong = true → ∃ t, exec i s = .next t ∧ Safety.trapped s m m.pc (Safety.record m 0x0F 0) t) ∧
    (legal = true → wrong = false → repTotal v.pfx = 1 → s.xBusy m.sid (v.xUsed m ty 1) = false → v.pre s m ty 0 = none → pushed = [] →
      ∀ r, s.popAll m (v.pops ty) = .poison (some r) → s.queuesReady m.sid (v.pops ty) [] = true →
        ∃ t, exec i s = .next t ∧ Safety.trapped s m m.pc { r with code := 0x03, disp := 0 } t)

/-- R48 and R49: a vector instruction that is legal blocks before itself while a pop has to wait or a channel that it pushes to has too little
room: it pops and pushes nothing, its fragment is blocked on those queues with the count of a repeat kept, the latches read zero, and the
lane chooses anew. -/
def Obligations.QueueBlocking : Prop :=
  ∀ (s : State) (m : Me) (i : Instr) (v : Vec), s.me = some m → Safety.vecOf s m i = some v → m.em ≠ 0 → m.f.rc = 0 → m.pending = none →
    let ty := effET v.pfx m.st.mode
    let total := repTotal v.pfx
    let push : List (Nat × Nat × Nat) := match (v.dst ty).queueNum with
      | some n => ((m.queue n).map (fun q => (n, (v.dst ty).channel q m.sid.idx, (v.dst ty).pushCount))).toList
      | none => []
    v.legalFor m ty total = true → m.directionOk ((v.pops ty).map Prod.fst) (v.dst ty).queueNum.toList = true →
    s.xBusy m.sid (v.xUsed m ty total) = false → v.pre s m ty 0 = none →
    ((v.pops ty).any (fun p => (m.queue p.1).any (fun q => decide (s.popRes m.sid.wg m.sid.idx q p.2 = .wait))) ||
      push.any (fun p => (m.queue p.1).any (fun q => decide (q.room p.2.1 < p.2.2)))) = true →
    ∃ t st, exec i s = .next t ∧ Safety.yielded s m st t ∧
      st.frags[m.fi]? = some { m.f with st := .blocked, wait := some (.queues (v.pops ty) push), rc := if 1 < total then total else 0 } ∧
      (∀ j, j ≠ m.fi → st.frags[j]? = m.st.frags[j]?) ∧ { st with frags := m.st.frags, latches := m.st.latches } = m.st ∧ Safety.latchesZero st

/-- R51: a pop finds end of stream when every producer strand of the queue has exited and the consumer's channel holds no entry, whether filled
or pending. It returns zero in every word and sets qt to EOS, without blocking and without consuming. The queues stay as they are and the
producers stay exited, so every later pop does so again. While a producer strand has not exited, the pop of an empty channel blocks. -/
def Obligations.EndOfStream : Prop :=
  ∀ (s : State) (m : Me) (p : Option Pfx) (q : BitVec 4) (r : BitVec 6) (qu : Queue), s.me = some m → m.em ≠ 0 → m.f.rc = 0 → repTotal p = 1 →
    m.pending = none → m.queue q.toNat = some qu → qu.decl.kind.consumer = m.sid.slice →
    posOk m.access m.wg.vregs 1 false (.reg r) (effET p m.st.mode) = true → (m.access = true → s.xBusy m.sid [r.toNat] = false) →
    Safety.apart m (m.pc + BitVec.ofNat 64 (pfxLen p 4)) →
    let gone (s : State) : Prop := ∀ x ∈ s.strands, x.1.wg = m.sid.wg → x.1.slice = qu.decl.kind.producer → x.2.exited = true
    qu.view m.sid.idx = [] →
    (gone s → ∃ t st, exec (.deq p (.reg r) q) s = .next t ∧ t.strands.find m.sid = some st ∧ st.qt = 2 ∧
      Safety.wrote m false r.toNat (effET p m.st.mode) (fun _ => 0) st ∧
      st.frags = (Safety.moved m (m.pc + BitVec.ofNat 64 (pfxLen p 4))).frags ∧
      (∃ g qu', t.wgs.find m.sid.wg = some g ∧ g.queues.find q.toNat = some qu' ∧ qu'.decl = qu.decl ∧
        ∀ i, (qu.decl.bcast = true → i ∈ s.live m.sid.wg qu.decl.kind.consumer) → qu'.view i = qu.view i) ∧
      gone t ∧ ∀ k, s.popRes m.sid.wg m.sid.idx qu k = .ok zeroWords zeroWords 2 0) ∧
    (¬ gone s → ∃ t st, exec (.deq p (.reg r) q) s = .next t ∧ t.strands.find m.sid = some st ∧
      (∃ f, st.frags[m.fi]? = some f ∧ f.st = .blocked ∧ f.pc = m.f.pc) ∧ st.v = m.st.v ∧ st.x = m.st.x ∧ st.qt = m.st.qt ∧ t.wgs = s.wgs)

/-- R159 on VADD of a 32-bit type without saturation: iteration j adds the registers A + j and B + j, or A and B themselves where their bit is
clear, into D + j; where D's registers are none of A's and B's every one of them receives its sum, other registers and inactive threads
stay, and the latches hold the last sums, the latest first (R39). -/
def Obligations.Repeats : Prop :=
  ∀ (s : State) (m : Me) (p : Pfx) (c : BitVec 4) (ia ib : Bool) (d a b : BitVec 6), s.me = some m → m.access = false → m.em ≠ 0 → m.f.rc = 0 →
    p.rep = some ⟨c, true, ia, ib⟩ →
    let n := c.toNat + 1
    let sa := if ia then n else 1
    let sb := if ib then n else 1
    let ty := effET (some p) m.st.mode
    (ty = .i32 ∨ ty = .n32) → effSat (some p) m.st.mode = false →
    d.toNat + n ≤ m.wg.vregs → a.toNat + sa ≤ m.wg.vregs → b.toNat + sb ≤ m.wg.vregs → d.toNat + n ≤ 64 → a.toNat + sa ≤ 64 → b.toNat + sb ≤ 64 →
    (d.toNat + n ≤ a.toNat ∨ a.toNat + sa ≤ d.toNat) → (d.toNat + n ≤ b.toNat ∨ b.toNat + sb ≤ d.toNat) →
    Safety.apart m (m.pc + 8) →
    let sum (j th : Nat) : W32 := m.st.vGet (a.toNat + if ia then j else 0) th + m.st.vGet (b.toNat + if ib then j else 0) th
    ∃ t st, exec (.vadd (some p) ⟨false, .reg d, .reg a, .reg b⟩) s = .next t ∧ Safety.vectorFrame s m 8 t st ∧
      (∀ j, j < n → ∀ th, th < 8 → TMask.has m.em th = true → st.vGet (d.toNat + j) th = sum j th) ∧
      (∀ q th, th < 8 → (TMask.has m.em th = false ∨ q < d.toNat ∨ d.toNat + n ≤ q) → st.vGet q th = m.st.vGet q th) ∧
      (∀ l, l < 4 → l < n → ∀ th, th < 8 → st.latchGet l th = if TMask.has m.em th then (sum (n - 1 - l) th).setWidth 64 else 0) ∧
      st.x = m.st.x ∧ st.s = m.st.s ∧ st.k = m.st.k ∧ st.flags = m.st.flags

/-- R206 and R81 for SDIV: a zero divisor gives all ones or the dividend with DZ; the most negative value by −1 gives itself, or under MODE.SAT
the largest value with SA, and remainder 0; otherwise the quotient is truncated and the remainder has the dividend's sign. -/
def Obligations.ScalarDivision : Prop :=
  ∀ (s : State) (m : Me) (d a : BitVec 5) (op : SOp) (lit : W32), s.me = some m →
    let A := m.st.sGet a.toNat
    let ops : List (W64 × Nat × (SDivFn → Instr)) := [
      ((match op with | .reg r => m.st.sGet r.toNat | .imm i => i.signExtend 64), 4, fun fn => .sdiv fn d a op),
      (lit.signExtend 64, 8, fun fn => .sdivX1 fn d a lit)]
    ∀ e ∈ ops, Safety.apart m (m.pc + BitVec.ofNat 64 e.2.1) →
    let B := e.1
    let ovf : Bool := A == 1 <<< 63 && B == BitVec.allOnes 64
    let dz : BitVec 6 := if B = 0 then flDZ else 0
    let quo : W64 := if B = 0 then BitVec.allOnes 64 else if ovf then (if modeSat m.st.mode then (1 <<< 63) - 1 else A) else BitVec.ofInt 64 (A.toInt.tdiv B.toInt)
    ∀ r ∈ ([
      (.qs, quo, dz ||| (if B ≠ 0 ∧ ovf = true ∧ modeSat m.st.mode = true then flSA else 0)),
      (.qu, (if B = 0 then BitVec.allOnes 64 else A / B), dz),
      (.rs, (if B = 0 then A else BitVec.ofInt 64 (A.toInt.tmod B.toInt)), dz), (.ru, (if B = 0 then A else A % B), dz)] : List (SDivFn × W64 × BitVec 6)),
    ∃ t, exec (e.2.2 r.1) s = .next t ∧ Safety.gaveS s m d.toNat r.2.1 (m.st.flags ||| r.2.2) e.2.1 t

/-- R201 with Table 10.13, and R202 where every active thread goes the same way: BR, BRC, BRT, LOOP, CALL, RET, YIELD and BRD. An offset counts
eight bytes from the aligned address of the instruction. Each is a yield point: the latches read zero and the lane chooses anew. RET to an
address that is no multiple of 4 traps as ILLEGAL. -/
def Obligations.Branches : Prop :=
  ∀ (s : State) (m : Me) (off joff : BitVec 16) (cc : BCond) (k : BitVec 3) (inv eq : Bool) (tag : BitVec 2) (r : BitVec 5), s.me = some m →
    let target : W64 := (m.pc &&& ~~~7#64) + (off.signExtend 64 <<< 3)
    let x := m.st.sGet r.toNat
    let z : TMask := m.st.kGet k.toNat &&& m.f.em
    let cond : Bool := match cc with | .any => z != 0 | .all => z == m.f.em | .none => z == 0 | .nall => z != m.f.em
    let taken : TMask := m.f.em &&& (if inv then ~~~(m.st.kGet k.toNat) else m.st.kGet k.toNat)
    (∀ e ∈ ([
      (.br off, target, none), (.brc cc k off, if cond then target else m.pc + 4, none),
      (.brt tag eq off, if (m.st.qt == tag) == eq then target else m.pc + 4, none),
      (.loop r off, if x ≠ 0 ∧ x ≠ 1 then target else m.pc + 4, if x = 0 then none else some (x - 1)),
      (.call r off, target, some (m.pc + 4)), (.yield, m.pc + 4, none)] ++
      (if x.extractLsb' 0 2 = 0 then [(.ret r, x, none)] else []) ++
      (if taken = 0 then [(.brd k inv off joff, m.pc + 8, none)] else if taken = m.f.em then [(.brd k inv off joff, target, none)] else []) :
      List (Instr × W64 × Option W64)),
      m.pending = none → Safety.apart m e.2.1 → ∃ t st, exec e.1 s = .next t ∧ Safety.yielded s m st t ∧ { st with s := m.st.s } = Safety.gone m e.2.1 ∧
        ∀ q, st.sGet q = match e.2.2 with | some v => if q = r.toNat then v else m.st.sGet q | none => m.st.sGet q) ∧
    (x.extractLsb' 0 2 ≠ 0 → m.pending = none → ∃ t, exec (.ret r) s = .next t ∧ Safety.trapped s m m.pc (Safety.record m 0x01 0) t) ∧
    (Safety.apart m (m.pc + 4) → ∃ t, exec .nop s = .next t ∧ t.strands.find m.sid = some (Safety.moved m (m.pc + 4)) ∧
      Safety.onlyStrand m.sid s t ∧ Safety.sameBytes s t)

/-- R202 and R32: the two lowest free entries receive the taken threads at the target and the others at the next instruction, each with EM equal
to its membership; the parent keeps the threads outside EM and waits at the join. With one free entry the oldest waiting one goes to the spill
area first, where an unused slot of 32 bytes takes it, and no other shared byte changes (R35). With fewer than two free entries and no waiting
entry or spill slot for each missing one it traps as SPLIT_OVERFLOW. -/
def Obligations.Divergence : Prop :=
  ∀ (s : State) (m : Me) (k : BitVec 3) (inv : Bool) (toff joff : BitVec 16), s.me = some m → m.pending = none →
    let target : W64 := (m.pc &&& ~~~7#64) + (toff.signExtend 64 <<< 3)
    let join : W64 := (m.pc &&& ~~~7#64) + (joff.signExtend 64 <<< 3)
    let taken : TMask := m.f.em &&& (if inv then ~~~(m.st.kGet k.toNat) else m.st.kGet k.toNat)
    let free (i : Nat) : Prop := ∃ f, m.st.frags[i]? = some f ∧ f.st = .free
    let kid (pc : W64) (mask : TMask) (n : Nat) : Frag :=
      { pc := pc.extractLsb' 2 62, join := join.extractLsb' 2 62, fm := mask, em := mask, parent := BitVec.ofNat 4 m.fi, st := .ready, born := m.st.nborn + n,
        pborn := some m.f.born, split := false, wait := none, rc := 0, scan := none }
    taken ≠ 0 → taken ≠ m.f.em →
    (∀ i j, i < j → free i → free j → (∀ q, q < j → free q → q = i) → (Safety.moved m m.pc).settleFrags = Safety.moved m m.pc →
      target ≠ join → m.pc + 8 ≠ join →
      ∃ t st, exec (.brd k inv toff joff) s = .next t ∧ Safety.yielded s m st t ∧ Safety.latchesZero st ∧
        st.frags[i]? = some (kid target taken 0) ∧ st.frags[j]? = some (kid (m.pc + 8) (m.f.em &&& ~~~taken) 1) ∧
        st.frags[m.fi]? = some { m.f with fm := m.f.fm &&& ~~~m.f.em, em := 0, pc := join.extractLsb' 2 62, st := .waiting, split := true } ∧
        (∀ q, q ≠ i → q ≠ j → q ≠ m.fi → st.frags[q]? = m.st.frags[q]?) ∧
        { st with frags := m.st.frags, nborn := m.st.nborn, latches := m.st.latches } = m.st) ∧
    (∀ i w old, free i → (∀ q, free q → q = i) → m.st.frags[w]? = some old → old.st = .waiting → w ≠ m.fi →
      (∀ q f, m.st.frags[q]? = some f → f.st = .waiting → q = w ∨ old.born < f.born) → (∀ x ∈ s.strands, x.1.wg = m.sid.wg → x.2.spilled = []) → 0 < m.wg.spillRoom →
      (Safety.moved m m.pc).settleFrags = Safety.moved m m.pc → target ≠ join → m.pc + 8 ≠ join →
      ∃ t st g, exec (.brd k inv toff joff) s = .next t ∧ t.strands.find m.sid = some st ∧ (t.laneOf m.sid).cur = none ∧ Safety.sameBytes s t ∧ Safety.latchesZero st ∧
        st.spilled = [(0, old)] ∧ st.frags[min i w]? = some (kid target taken 0) ∧ st.frags[max i w]? = some (kid (m.pc + 8) (m.f.em &&& ~~~taken) 1) ∧
        st.frags[m.fi]? = some { m.f with fm := m.f.fm &&& ~~~m.f.em, em := 0, pc := join.extractLsb' 2 62, st := .waiting, split := true } ∧
        (∀ q, q ≠ i → q ≠ w → q ≠ m.fi → st.frags[q]? = m.st.frags[q]?) ∧
        { st with frags := m.st.frags, nborn := m.st.nborn, latches := m.st.latches, spilled := m.st.spilled } = m.st ∧
        (∀ x, x ≠ m.sid → t.strands.find x = s.strands.find x) ∧ (∀ x, x ≠ m.sid.wg → t.wgs.find x = s.wgs.find x) ∧ t.wgs.find m.sid.wg = some g ∧
        { g with shared := m.wg.shared } = m.wg ∧ ∀ o, (o < m.wg.spillOff ∨ m.wg.spillOff + 32 ≤ o) → g.shared.get o = m.wg.shared.get o) ∧
    (let frees := (m.st.frags.filter (fun f => f.st = .free)).length
     let waits := (m.st.frags.filter (fun f => f.st = .waiting)).length
     let used := (s.strands.filter (fun p => p.1.wg = m.sid.wg)).foldl (fun n p => n + p.2.spilled.length) 0
     frees + waits < 2 ∨ (frees < 2 ∧ m.wg.spillRoom = 0) ∨ (frees < 2 ∧ used = 0 ∧ frees + m.wg.spillRoom < 2) →
      ∃ t, exec (.brd k inv toff joff) s = .next t ∧ Safety.trapped s m m.pc (Safety.record m 0x0A 0) t)

/-- R34 on a fragment that arrives by NOP, YIELD, BR or RFT, in a table that holds it, its one sibling and their waiting parent alone: while the
sibling has not arrived the fragment waits; when it has, the parent goes on from the join with the union of the memberships and of the
children's EM, and the children's entries are free. Either way the latches read zero: entering the wait is a yield point. -/
def Obligations.JoinFusion : Prop :=
  ∀ (s : State) (m : Me) (pi si : Nat) (p sib : Frag) (off : BitVec 16), s.me = some m → m.st.spilled = [] → pi ≠ m.fi → si ≠ m.fi → pi ≠ si →
    m.st.frags[pi]? = some p → m.st.frags[si]? = some sib → (∀ i f, m.st.frags[i]? = some f → i = m.fi ∨ i = pi ∨ i = si ∨ f.st = .free) →
    p.st = .waiting → p.split = true → p.pborn = none → m.f.fm ≠ 0 → sib.fm ≠ 0 → m.f.st = .ready → m.pending = none →
    m.f.split = false → sib.split = false → m.f.pborn = some p.born → sib.pborn = some p.born → m.f.born ≠ p.born → sib.born ≠ p.born →
    m.f.join = p.pc → sib.join = p.pc →
    let back : List (Instr × W64 × Frag) := match m.st.frame with
      | some fr => if fr.frag = m.f.born then [(.rft, fr.resume, { m.f with em := fr.em &&& m.f.fm, rc := fr.rc, scan := fr.scan })] else []
      | none => []
    ∀ e ∈ [(.nop, m.pc + 4, m.f), (.yield, m.pc + 4, m.f), (.br off, (m.pc &&& ~~~7#64) + (off.signExtend 64 <<< 3), m.f)] ++ back,
    e.2.1.extractLsb' 2 62 = p.pc →
    (sib.st = .waiting → ∃ t st, exec e.1 s = .next t ∧ t.strands.find m.sid = some st ∧ Safety.latchesZero st ∧ st.exited = false ∧
      st.frags[pi]? = some { p with fm := p.fm ||| m.f.fm ||| sib.fm, em := e.2.2.em ||| sib.em, st := .ready, split := false } ∧
      (∀ i f, st.frags[i]? = some f → i = pi ∨ f.st = .free)) ∧
    (sib.st ≠ .waiting → sib.st ≠ .free → (sib.st = .ready → sib.pc ≠ sib.join) →
      ∃ t st, exec e.1 s = .next t ∧ t.strands.find m.sid = some st ∧ Safety.latchesZero st ∧
      st.frags[m.fi]? = some { e.2.2 with pc := p.pc, st := .waiting, wait := none } ∧ (∀ i, i ≠ m.fi → st.frags[i]? = m.st.frags[i]?))

/-- R203: EXIT ends the threads of EM and removes them from FM; with EM = 0 it ends every thread of FM instead. A fragment with FM = 0 frees its
entry, and a strand without a fragment left is exited. What the strand has pushed stays in its queues for their consumers. Stated where the
exit makes no fragments fuse, which is R34's matter. -/
def Obligations.Exit : Prop :=
  ∀ (s : State) (m : Me), s.me = some m → m.pending = none → m.f.split = false →
    let fm : TMask := if m.f.em = 0 then 0 else m.f.fm &&& ~~~m.f.em
    let left := listSet m.st.frags m.fi (if fm = 0 then Frag.free else { m.f with fm := fm, em := 0, pc := m.f.pc + 1, st := .ready, wait := none })
    let last : Bool := left.all (fun f => f.st = .free) && m.st.spilled.isEmpty
    { ({ m.st with frags := left } : Strand).settleFrags with frame := m.st.frame } = { m.st with frags := left, exited := last } →
    ∃ t st, exec .exit s = .next t ∧ t.strands.find m.sid = some st ∧ st.frags = left ∧ st.exited = last ∧ Safety.latchesZero st ∧
      (t.laneOf m.sid).cur = none ∧ Safety.sameBytes s t ∧ st.v = m.st.v ∧ st.x = m.st.x ∧ st.s = m.st.s ∧ st.k = m.st.k ∧
      ∀ n q, m.queue n = some q → q.decl.kind.producer = m.sid.slice →
        ∃ g q', t.wgs.find m.sid.wg = some g ∧ g.queues.find n = some q' ∧ q'.decl = q.decl ∧
          ∀ i, (q.decl.bcast = true → i ∈ s.live m.sid.wg q.decl.kind.consumer) → q'.view i = q.view i

/-- R204 with Table 10.14: SETMODE writes MODE, or traps as ILLEGAL on a reserved element type or rounding mode; SETMODE SEED gives every thread
its stochastic state; GETMODE reads MODE; FLAGS reads FLAGS and then clears the bits that it names. -/
def Obligations.ModeAndFlags : Prop :=
  ∀ (s : State) (m : Me) (r : BitVec 5) (clr : BitVec 6), s.me = some m →
    let x := m.st.sGet r.toNat
    let at_ := Safety.moved m (m.pc + 4)
    let bad : Bool := x.extractLsb' 0 4 == 15#4 || x.extractLsb' 4 3 == 6#3 || x.extractLsb' 4 3 == 7#3
    (Safety.apart m (m.pc + 4) →
      (bad = false → ∃ t, exec (.setmode r false) s = .next t ∧ t.strands.find m.sid = some { at_ with mode := x.extractLsb' 0 9 } ∧
        Safety.onlyStrand m.sid s t ∧ Safety.sameBytes s t) ∧
      (∃ t st, exec (.setmode r true) s = .next t ∧ t.strands.find m.sid = some st ∧ Safety.onlyStrand m.sid s t ∧ Safety.sameBytes s t ∧
        { st with srs := m.st.srs } = at_ ∧ ∀ th, th < 8 →
          let y : W32 := x.extractLsb' 0 32 ^^^ (BitVec.ofNat 32 th * 0x01010101#32)
          st.srs.get th = if y = 0 then 1 else y) ∧
      (∃ t, exec (.getmode r) s = .next t ∧ Safety.gaveS s m r.toNat (m.st.mode.setWidth 64) m.st.flags 4 t) ∧
      (∃ t, exec (.flags r clr) s = .next t ∧ Safety.gaveS s m r.toNat (m.st.flags.setWidth 64) (m.st.flags &&& ~~~clr) 4 t)) ∧
    (bad = true → ∃ t, exec (.setmode r false) s = .next t ∧ Safety.trapped s m m.pc (Safety.record m 0x01 0) t)

/-- R205: the value of every special register. The lease is 4 KiB for each page of the base and for each page of each active execute strand
(R320). -/
def Obligations.SpecialRegisters : Prop :=
  ∀ (s : State) (m : Me) (d : BitVec 5), s.me = some m → Safety.apart m (m.pc + 4) →
    let g := m.wg
    let active := (s.strands.filter (fun p => p.1.wg = m.sid.wg && p.1.slice = .execute && !p.2.exited && !p.2.parked)).length
    let n : Nat → W64 := BitVec.ofNat 64
    ∀ e ∈ ([
      (.tidx, n (m.sid.idx * 8)), (.strand, n m.sid.idx), (.slice, if m.sid.slice = .access then 0 else 1),
      (.wgx, n g.coords.1), (.wgy, n g.coords.2.1), (.wgz, n g.coords.2.2), (.wglin, n (match g.grid with | some x => x.2 | none => 0)),
      (.gdimx, n g.dims.1), (.gdimy, n g.dims.2.1), (.gdimz, n g.dims.2.2), (.core, n m.sid.wg.core), (.node, n g.node), (.taskseq, g.task),
      (.depth, n g.depth), (.ctxid, n g.ctx), (.reccnt, n g.recCount), (.recbase, n g.recBase),
      (.cycle, n (s.clock - (s.core m.sid.wg.core).resetAt)), (.lease, n ((g.lbase + g.lper * active) * 4096)),
      (.parent, match g.parent with | some t => t | none => BitVec.allOnes 64)] : List (SpecReg × W64)),
    ∃ t, exec (.rdspec d e.1) s = .next t ∧ Safety.gaveS s m d.toNat e.2 m.st.flags 4 t

/-- R297 with R328 to R331: TRAP raises SOFTWARE whatever EM: the frame's resume point is the instruction after it, and the record carries CODE
in its VA field; without TENTRY, or in a handler, it terminates the workgroup. -/
def Obligations.TrapInstruction : Prop :=
  ∀ (s : State) (m : Me) (code : BitVec 16), s.me = some m →
    ∃ t, exec (.trap code) s = .next t ∧ Safety.trapped s m (m.pc + 4) (Safety.record m 0x11 (code.setWidth 64)) t

/-- R298: RFT restores EM within the fragment's FM, k, the latches, qt, RC, MODE and s28 to s31, and the fragment goes on at the resume point; v, x
and the other s registers stay; stated where the resume point is not the fragment's join (R34). From another fragment, or outside a handler, it
traps as ILLEGAL. -/
def Obligations.TrapReturn : Prop :=
  ∀ (s : State) (m : Me), s.me = some m →
    (∀ fr, m.st.frame = some fr → fr.frag = m.f.born → m.f.st = .ready → (∀ p ∈ fr.s28, 28 ≤ p.1) → (fr.s28.map Prod.fst).Nodup →
      let back : Strand := { m.st with frame := none, frags := listAdjust m.st.frags m.fi (fun f =>
        { f with pc := fr.resume.extractLsb' 2 62, em := fr.em &&& f.fm, rc := fr.rc, scan := fr.scan }) }
      back.settleFrags = back →
      ∃ t st, exec .rft s = .next t ∧ t.strands.find m.sid = some st ∧ Safety.onlyStrand m.sid s t ∧ Safety.sameBytes s t ∧
        st.frame = none ∧ st.k = fr.k ∧ st.latches = fr.latches ∧ st.qt = fr.qt ∧ st.mode = fr.mode ∧
        (∀ r, st.sGet r = if 28 ≤ r then fr.s28.get r else m.st.sGet r) ∧
        st.frags[m.fi]? = some { m.f with pc := fr.resume.extractLsb' 2 62, em := fr.em &&& m.f.fm, rc := fr.rc, scan := fr.scan } ∧
        (∀ i, i ≠ m.fi → st.frags[i]? = m.st.frags[i]?) ∧
        { st with frame := m.st.frame, k := m.st.k, latches := m.st.latches, qt := m.st.qt, mode := m.st.mode, s := m.st.s, watchSkip := m.st.watchSkip,
                  frags := m.st.frags } = m.st) ∧
    ((∀ fr, m.st.frame = some fr → fr.frag ≠ m.f.born) → ∃ t, exec .rft s = .next t ∧ Safety.trapped s m m.pc (Safety.record m 0x01 0) t)

/-- R164, R165 and R157: a reserved word with an active thread, or of the second map, traps as ILLEGAL; a main-map one with EM = 0 is a no-op of
its full length (R31); a prefix without the instruction that it needs traps as ORPHAN_PREFIX whatever EM holds. -/
def Obligations.ReservedWords : Prop :=
  ∀ (s : State) (m : Me) (p : Option W32) (w ext : W32), s.me = some m → m.pending = none →
    let len : Nat := (if p.isSome then 4 else 0) + (if w.extractLsb' 30 2 = 3#2 then 8 else 4)
    let main : Bool := w.extractLsb' 30 2 == 0#2 || (w.extractLsb' 30 2 == 3#2 && !w.getLsbD 29)
    (main = false ∨ m.em ≠ 0 → ∃ t, exec (.reservedOpcode p w ext) s = .next t ∧ Safety.trapped s m m.pc (Safety.record m 0x01 0) t) ∧
    (main = true → m.em = 0 → m.f.rc = 0 → Safety.apart m (m.pc + BitVec.ofNat 64 len) →
      ∃ t st, exec (.reservedOpcode p w ext) s = .next t ∧ t.strands.find m.sid = some st ∧ Safety.onlyStrandAndLane m.sid s t ∧ Safety.sameBytes s t ∧
        { st with latches := m.st.latches } = Safety.moved m (m.pc + BitVec.ofNat 64 len) ∧ (st.latches = m.st.latches ∨ st.latches = [])) ∧
    (∃ t, exec .orphanPrefix s = .next t ∧ Safety.trapped s m m.pc (Safety.record m 0x02 0) t)

/-- R299 with Table 18.2: RDFLT writes the four words of the most recent record, zeros before any trap, each field at its bits. R302: SMPRD writes
the eight words of a sampler's latest sample where its task belongs to the reading context, zeros otherwise. Neither touches the latches. -/
def Obligations.FaultRecords : Prop :=
  ∀ (s : State) (m : Me) (d : BitVec 3) (e : BitVec 2) (smp : BitVec 3), s.me = some m → Safety.apart m (m.pc + 4) →
    let wrote (d n : Nat) (w : Nat → W64) (t : State) : Prop := ∃ st, t.strands.find m.sid = some st ∧ Safety.onlyStrand m.sid s t ∧
      Safety.sameBytes s t ∧ (∀ i, i < n → st.sGet (d + i) = w i) ∧ (∀ r, r < d ∨ d + n ≤ r → st.sGet r = m.st.sGet r) ∧
      { st with s := m.st.s } = Safety.moved m (m.pc + 4)
    (∃ t w, exec (.rdflt d) s = .next t ∧ wrote (4 * d.toNat) 4 w t ∧
      (m.st.fault = none → ∀ i, i < 4 → w i = 0) ∧
      ∀ r, m.st.fault = some r → w 0 = r.task ∧ w 1 = r.pc ∧ w 2 = r.va ∧ (w 3).extractLsb' 0 8 = r.code ∧ (w 3).extractLsb' 8 8 = r.cause ∧
        (w 3).extractLsb' 16 2 = r.disp ∧ (w 3).extractLsb' 18 4 = 0 ∧ (w 3).getLsbD 22 = (r.slice == .execute) ∧
        ((w 3).extractLsb' 23 10).toNat = r.strand % 1024 ∧ (w 3).extractLsb' 33 8 = r.mask ∧ (w 3).getLsbD 41 = r.bf.isSome ∧
        ((w 3).extractLsb' 42 6).toNat = (match r.bf with | some b => b % 64 | none => 0) ∧
        (w 3).extractLsb' 48 16 = (if r.bf.isSome then r.tag else 0)) ∧
    ((∀ x, (s.core m.sid.wg.core).samples.find smp.toNat = some x → x.words.length = 8) → ∃ t, exec (.smprd e smp) s = .next t ∧ wrote (8 * e.toNat) 8 (fun i => match (s.core m.sid.wg.core).samples.find smp.toNat with
      | some x => if x.ctx = m.wg.ctx then (x.words[i]?).getD 0 else 0
      | none => 0) t)

/-- R300: on the access slice WPSET replaces comparator `wp` with the range and kinds that it names, and WPCLR disables it; an empty length, no
kind, S = 31, or the execute slice traps as ILLEGAL. R301: BKPT asks for a debug stop after the task while the port is open, and else only
moves on. -/
def Obligations.Comparators : Prop :=
  ∀ (s : State) (m : Me) (wp : BitVec 3) (r w a : Bool) (x : BitVec 5), s.me = some m →
    let ok : Bool := m.access && decide (x ≠ 31) && (r || w || a) && decide (m.st.sGet (x.toNat + 1) ≠ 0)
    let watches (t : State) (n : Nat) : List Watch := (t.core m.sid.wg.core).watches.filter (fun v => v.num = n)
    let on (t : State) : Prop := t.strands.find m.sid = some (Safety.moved m (m.pc + 4)) ∧ Safety.sameBytes s t ∧
      (∀ y, y ≠ m.sid → t.strands.find y = s.strands.find y) ∧ (∀ n, n ≠ wp.toNat → watches t n = watches s n)
    (Safety.apart m (m.pc + 4) →
      (ok = true → ∃ t, exec (.wpset wp r w a x) s = .next t ∧ on t ∧ t.wgs = s.wgs ∧
        watches t wp.toNat = [⟨wp.toNat, r, w, a, m.st.sGet x.toNat, m.st.sGet (x.toNat + 1)⟩]) ∧
      (m.access = true → ∃ t, exec (.wpclr wp) s = .next t ∧ on t ∧ t.wgs = s.wgs ∧ watches t wp.toNat = []) ∧
      (∃ t, exec .bkpt s = .next t ∧ on t ∧ watches t wp.toNat = watches s wp.toNat ∧
        ∃ g, t.wgs.find m.sid.wg = some g ∧ g = (if Trust.debugOpen s.trust then { m.wg with stopAfter := true } else m.wg))) ∧
    (ok = false → ∃ t, exec (.wpset wp r w a x) s = .next t ∧ Safety.trapped s m m.pc (Safety.record m 0x01 0) t) ∧
    (m.access = false → ∃ t, exec (.wpclr wp) s = .next t ∧ Safety.trapped s m m.pc (Safety.record m 0x01 0) t)

/-- R227 with R108 and R105: where every active thread's bytes lie in the allocation outside the counter slots, or in the pipe region, LDS and STS
list one access with an element for each active thread, raise the in-flight counter of its path, and go on; a byte that a higher thread
writes too is left to it. Else they trap as BOUNDS for the failing threads. -/
def Obligations.SharedAccesses : Prop :=
  ∀ (s : State) (m : Me) (p : Option Pfx) (d : BitVec 5) (off v : Sel) (sz : SZ) (lit : W32), s.me = some m → m.em ≠ 0 → m.access = true → m.f.rc = 0 →
    let n : Nat := match sz with | .u8 => 1 | .s8 => 1 | .u16 => 2 | .s16 => 2 | .u32 => 4 | .s32 => 4 | .u64 => 8
    let sx : Bool := match sz with | .s8 => true | .s16 => true | .s32 => true | _ => false
    ∀ e ∈ ([
      (.lds p d off sz, pfxLen p 4, 0, d.toNat :: xRegs [off], .load d.toNat sx, .ldsh), (.ldsX1 p d off sz lit, pfxLen p 8, lit, d.toNat :: xRegs [off], .load d.toNat sx, .ldsh),
      (.sts p sz off v, pfxLen p 4, 0, xRegs [off, v], .store, .sto), (.stsX1 p sz off v lit, pfxLen p 8, lit, xRegs [off, v], .store, .sto)] :
      List (Instr × Nat × W32 × List Nat × AccKind × Path)),
    let kind := e.2.2.2.2.1
    let path := e.2.2.2.2.2
    let o (th : Nat) : Nat := (m.val64 e.2.2.1 off th).toNat
    let inside (th : Nat) : Bool := if o th < 2 ^ 31 then decide (o th + n ≤ m.wg.size) && decide (o th + n ≤ 2 ^ 32) && (decide (o th + n ≤ 0x1000) || decide (0x1400 ≤ o th))
      else decide (o th + n ≤ 2 ^ 32) && decide (o th / 2 ^ 17 % 2 ^ 14 = 0) && decide (o th % 2 ^ 17 + n ≤ 2 ^ 17)
    let place (a : Nat) : Loc := if a < 2 ^ 31 then .shared m.sid.wg a else .pipe m.sid.wg.core (a % 2 ^ 17)
    let lost (th i : Nat) : Bool := decide (kind = .store) &&
      (List.range 8).any (fun u => decide (th < u) && TMask.has m.em u && decide (o u ≤ o th + i) && decide (o th + i < o u + n))
    s.xBusy m.sid e.2.2.2.1 = false →
    ((∀ th, TMask.has m.em th = true → inside th = true) → s.inflight m.sid.wg path < 1023 → Safety.apart m (m.pc + BitVec.ofNat 64 e.2.1) →
      ∃ t a, exec e.1 s = .next t ∧ t.strands.find m.sid = some (Safety.moved m (m.pc + BitVec.ofNat 64 e.2.1)) ∧ Safety.sameBytes s t ∧ t.wgs = s.wgs ∧
        (∀ x, x ≠ m.sid → t.strands.find x = s.strands.find x) ∧ t.accs = s.accs ++ [a] ∧ t.inflight m.sid.wg path = s.inflight m.sid.wg path + 1 ∧
        a.id = s.serial ∧ a.strand = m.sid ∧ a.kind = kind ∧ a.path = some path ∧
        a.elems = (TMask.list m.em).map (fun th => (⟨th, m.val64 e.2.2.1 off th,
          (List.range n).map (fun i => if lost th i then none else some (place (o th + i))), if kind = .store then m.val64 e.2.2.1 v th else 0, 0, false⟩ : Elem))) ∧
    (∀ th, TMask.has m.em th = true → inside th = false → (∀ u, u < th → TMask.has m.em u = true → inside u = true) →
      ∃ t, exec e.1 s = .next t ∧
        Safety.trapped s m m.pc { Safety.record m 0x05 (m.val64 e.2.2.1 off th) with mask := maskOf (fun u => TMask.has m.em u && !inside u) } t)

/-- R102 to R105 and R116 for every access through a record, with no acquire before it outstanding (R126): where its elements lie on pages found
in a TLB, all of this device or all of others, the access is listed on its path with an element for each active thread, zero for a load out of
bounds of an OOBZ record, and the strand goes on. A malformed record, a write through a read-only one, a misaligned strong access, an element
out of bounds, one on an invalid or protected page, a misaligned one on a DEV page (R94) and one that a comparator watches (R383) trap in that
order, before any effect. On a line whose page needs service a load stalls and asks the host (R217, R341), and a store enters the Mend log and
goes on (R118). -/
def Obligations.RecordAccesses : Prop :=
  ∀ (s : State) (m : Me) (p : Option Pfx) (d : BitVec 5) (ix v : Sel) (sx : Bool) (bf : BitVec 6) (o : AtomF) (f : AtomFF) (sc : Scope) (w64 uns : Bool)
    (xd xi xv : BitVec 5), s.me = some m → m.em ≠ 0 → m.access = true → m.f.rc = 0 →
    let x (r : BitVec 5) (th : Nat) : W64 := m.st.xGet r.toNat th
    let dest (fetch : Bool) (r : BitVec 5) : Option Nat := if fetch then some r.toNat else none
    let width (w : Bool) : Nat := if w then 8 else 4
    ∀ i len rn idx sizes strong regs a val cmp, (i, len, rn, idx, sizes, strong, regs, a, val, cmp) ∈ ([
      (.ld p d ix sx bf, pfxLen p 8, bf, m.val64 0 ix, [1, 2, 4, 8], false, d.toNat :: xRegs [ix],
        ({ kind := .load d.toNat sx, akind := .read, path := .ldg, bf := none, watch := .r, acq := false, rel := false, reqs := [] } : Ask), fun _ => 0, fun _ => 0),
      (.st p ix v bf, pfxLen p 8, bf, m.val64 0 ix, [1, 2, 4, 8], false, xRegs [ix, v],
        { kind := .store, akind := .write, path := .sto, bf := none, watch := .w, acq := false, rel := false, reqs := [] }, m.val64 0 v, fun _ => 0),
      (.atom o, 8, o.bf, x o.xi, [width o.w64], true, [o.xi.toNat, o.xv.toNat] ++ (dest o.fetch o.xd).toList ++ (if o.op = .cas then [o.xc.toNat] else []),
        { kind := .atom o.op o.uns (dest o.fetch o.xd), akind := .atomic, path := if o.fetch then .ldg else .sto, bf := none, watch := .a, acq := o.acq, rel := o.rel,
          reqs := [] }, x o.xv, x o.xc),
      (.atomf f, 8, f.bf, x f.xi, [4], true, [f.xi.toNat, f.xv.toNat] ++ (dest f.fetch f.xd).toList,
        { kind := .atomf f.op f.bf16 (dest f.fetch f.xd), akind := .atomic, path := if f.fetch then .ldg else .sto, bf := none, watch := .a, acq := f.acq, rel := f.rel,
          reqs := [] }, x f.xv, x 0),
      (.lda sc bf w64 uns xd xi, 8, bf, x xi, [width w64], true, [xd.toNat, xi.toNat],
        { kind := .load xd.toNat (!uns), akind := .read, path := .ldg, bf := none, watch := .r, acq := true, rel := false, reqs := [] }, x 0, x 0),
      (.strel sc bf w64 xi xv, 8, bf, x xi, [width w64], true, [xi.toNat, xv.toNat],
        { kind := .store, akind := .write, path := .sto, bf := none, watch := .w, acq := false, rel := true, reqs := [] }, x xv, x 0)] :
      List (Instr × Nat × BitVec 6 × (Nat → W64) × List Nat × Bool × List Nat × Ask × (Nat → W64) × (Nat → W64))) →
    let b := s.bufRec m rn.toNat
    let n := b.esize
    let va (th : Nat) : W64 := b.addr (idx th)
    let act (th : Nat) : Bool := TMask.has m.em th
    let inb (th : Nat) : Bool := decide ((idx th).toNat < b.extent)
    let bad : Bool := b.bad (fun k => sizes.contains k)
    let ro : Bool := a.kind.isStore && b.ro
    let mis (th : Nat) : Bool := strong && decide ((va th).toNat % n ≠ 0)
    let out (th : Nat) : Bool := !b.oobz && !inb th
    let rec_ (code : BitVec 8) (va : W64) (mask : TMask) : FaultRec := { Safety.record m code va with bf := some rn.toNat, tag := b.tag, mask := mask }
    let first (g : Nat → Bool) (th : Nat) : Prop := act th = true ∧ g th = true ∧ ∀ u, u < th → act u = true → g u = false
    let none_ (g : Nat → Bool) : Prop := ∀ th, act th = true → g th = false
    s.xBusy m.sid regs = false → s.acqHeld m = false →
    (bad = true → ∃ t, exec i s = .next t ∧ Safety.trapped s m m.pc (rec_ 0x0C 0 m.f.em) t) ∧
    (bad = false → ro = true → ∃ t, exec i s = .next t ∧ Safety.trapped s m m.pc (rec_ 0x04 0 m.f.em) t) ∧
    (bad = false → ro = false → ∀ th, first mis th →
      ∃ t, exec i s = .next t ∧ Safety.trapped s m m.pc (rec_ 0x0D (va th) (maskOf (fun u => act u && mis u))) t) ∧
    (bad = false → ro = false → none_ mis → ∀ th, first out th →
      ∃ t, exec i s = .next t ∧ Safety.trapped s m m.pc (rec_ 0x05 (va th) (maskOf (fun u => act u && out u))) t) ∧
    let j : Joiner := .inst m.sid m.f.born
    let core := m.sid.wg.core
    (∀ page : Nat → Access, (∀ th, act th = true → inb th = true → Safety.found s core m.wg.ctx j a.akind (va th) n (page th) ∧ (page th = .fail ∨ ∃ l, page th = .ok l)) →
      bad = false → ro = false → none_ mis → none_ out →
      let fails (th : Nat) : Bool := inb th && decide (page th = .fail)
      let odd (th : Nat) : Bool := inb th && (match page th with | .ok l => decide (l.attr = .dev) && !(decide (n = 4 ∨ n = 8) && decide ((va th).toNat % n = 0)) | _ => false)
      let seen (th : Nat) : Bool := inb th && s.watched core a.watch (va th) n
      (∀ th, first fails th → (∀ x ∈ s.fails, x.1 ≠ j) → ∃ t, exec i s = .next t ∧ Safety.trapped s m m.pc (rec_ 0x04 (va th) (maskOf (fun u => act u && fails u))) t) ∧
      (none_ fails → ∀ th, first odd th → ∃ t, exec i s = .next t ∧ Safety.trapped s m m.pc (rec_ 0x0D (va th) (maskOf (fun u => act u && odd u))) t) ∧
      (none_ fails → none_ odd → m.st.watchSkip = false → ∀ th, first seen th →
        ∃ t, exec i s = .next t ∧ Safety.trapped s m m.pc (rec_ 0x06 (va th) (maskOf (fun u => act u && seen u))) t)) ∧
    (∀ ln v c, bad = false → ro = false → none_ mis → none_ out → s.ctxs.find m.wg.ctx = some c →
      (∀ th, act th = true → inb th = true → lineOf (va th) = ln ∧ lineOf (va th + BitVec.ofNat 64 (n - 1)) = ln ∧ s.watched core a.watch (va th) n = false) →
      let at_ : W64 := BitVec.ofNat 64 (256 * ln)
      let asked (t : State) (k : Joiner) : Prop := ∃ r ∈ t.pageReqs, r.asid = c.asid ∧ r.gen = c.gen ∧ r.withdrawn = false ∧ r.vpage = 256 * ln / 4096 % 2 ^ 45 ∧ k ∈ r.joined
      s.failed j at_ = false → s.waitsPage j at_ = false → s.accessPage core m.wg.ctx at_ a.akind = (v, .service) → s.pageReqs.length < 4096 →
      ∀ low, first inb low →
      (a.kind.isLoad = true → ∃ t, exec i s = .next t ∧ asked t j ∧ t.strands = s.strands ∧ t.wgs = s.wgs ∧ t.accs = s.accs ∧ Safety.sameBytes s t) ∧
      (a.kind.isLoad = false → (s.core core).mend.length < 256 → s.inflight m.sid.wg a.path < 1023 → Safety.apart m (m.pc + BitVec.ofNat 64 len) →
        ∃ t e, exec i s = .next t ∧ t.strands.find m.sid = some (Safety.moved m (m.pc + BitVec.ofNat 64 len)) ∧ Safety.sameBytes s t ∧ t.wgs = s.wgs ∧
          (∀ y, y ≠ m.sid → t.strands.find y = s.strands.find y) ∧ (t.core core).mend = (s.core core).mend ++ [e] ∧ asked t (.op e.id) ∧
          e.strand = m.sid ∧ e.line = at_ ∧ e.kind = a.kind ∧ e.pc = m.pc ∧ e.acq = a.acq ∧ e.bf = some rn.toNat ∧
          e.parts = ((TMask.list m.em).filter inb).map (fun th => ⟨th, va th, n, val th, cmp th, List.range n⟩))) ∧
    (bad = false → ro = false → none_ mis → none_ out → (∃ th, act th = true ∧ (inb th = true ∨ a.kind.isLoad = true)) →
      ∀ (page : Nat → Leaf) (far : Bool), (far = true → ∀ th, act th = true → inb th = true) →
      (∀ th, act th = true → inb th = true → Safety.onLeaf s m a.akind a.watch (va th) n (page th) ∧ (page th).dev.isSome = far ∧
        ((page th).attr = .dev → (n = 4 ∨ n = 8) ∧ (va th).toNat % n = 0)) →
      let path : Path := if far then .fab else a.path
      (s.core core).mend.length < 256 → s.inflight m.sid.wg path < 1023 → Safety.apart m (m.pc + BitVec.ofNat 64 len) →
      let lost (th k : Nat) : Bool := decide (a.kind = .store) && decide ((page th).attr ≠ .dev) && (List.range 8).any (fun u => decide (th < u) && act u && inb u &&
        decide ((va u).toNat ≤ (va th).toNat + k) && decide ((va th).toNat + k < (va u).toNat + n))
      let place (th : Nat) (pa : Nat) : Loc := match (page th).dev with | some d => .remote (page th).attr d pa | none => .phys (page th).attr pa
      let locs (th : Nat) : List (Option Loc) := (List.range n).map (fun k => if !inb th || lost th k then none else some (place th ((page th).pa (va th + BitVec.ofNat 64 k))))
      ∃ t c, exec i s = .next t ∧ t.strands.find m.sid = some (Safety.moved m (m.pc + BitVec.ofNat 64 len)) ∧ Safety.sameBytes s t ∧ t.wgs = s.wgs ∧
        (∀ y, y ≠ m.sid → t.strands.find y = s.strands.find y) ∧ c ∈ t.accs ∧ c.id = s.serial ∧ c.strand = m.sid ∧ c.kind = a.kind ∧
        c.path = some path ∧ c.pc = m.pc ∧ c.acq = a.acq ∧ (a.rel = true → ∀ y ∈ s.covered m, y.id ∈ c.deps) ∧
        (∀ y ∈ c.elems, act y.thread = true) ∧
        ∀ th, act th = true → c.elems.find? (fun y => y.thread = th) =
          if !a.kind.isLoad && (locs th).all (fun l => l.isNone) then none
          else some { thread := th, va := va th, locs := locs th, val := val th, cmp := cmp th, done := false })

/-- R116 with R127, R139 and R140: the events perform the chosen threads of an access in flight when what precedes it is over and what it
needs is at hand. A load delivers the widened bytes to its register, one thread's at a time here; a store writes its bytes and no others; an
atomic of one element leaves the combination and delivers the old value where it fetches; an add to a global counter leaves the sum,
saturated, and fires a target that it reaches (R277, R281). A line that the core's L1 then has no room for leaves it, its dirty bytes written
back (R107, R113). Places on other devices and landings in progress are apart. -/
def Obligations.AccessPerforms : Prop :=
  ∀ (s : State) (a : Machine.Acc) (e : Elem) (st : Strand), s.accs.find? (fun x => x.id = a.id) = some a → s.canPerform a = true → a.dev = false → e ∈ a.elems →
    (∀ k ∈ a.lines, k.one = false) →
    (a.elems.map Elem.thread).Nodup → e.thread < 8 → e.done = false → s.strands.find a.strand = some st →
    (∀ l ∈ e.places, (match l with | .remote _ _ _ => false | .phys _ pa => !isReg pa | .shared w off => !s.landing w off | .pipe _ _ => true) = true) →
    let core := a.strand.wg.core
    let only : TMask := BitVec.ofNat 8 (2 ^ e.thread)
    let n := e.locs.length
    let wide (sx : Bool) (y : Nat) : W64 := if sx then (BitVec.ofNat (8 * n) y).signExtend 64 else BitVec.ofNat 64 y
    let other (k l : Loc) : Prop := match k, l with | .phys _ x, .phys _ y => x ≠ y | _, _ => k ≠ l
    (∀ xd sx, a.kind = .load xd sx → ∃ t u, exec (.loadReturn a.id only) s = .next t ∧ t.strands.find a.strand = some u ∧ (∀ pa, Safety.backed s core t pa) ∧
      u.xGet xd e.thread = wide sx (natOfBytes (e.locs.map (fun o => match o with | some l => s.loadByte a e.thread l | none => 0))) ∧
      (∀ r th, th < 8 → (r ≠ xd ∨ th ≠ e.thread) → u.xGet r th = st.xGet r th) ∧ { u with x := st.x } = st ∧
      ∀ y, y ≠ a.strand → t.strands.find y = s.strands.find y) ∧
    (a.kind = .store → (∀ (i j : Nat) l k, e.locs[i]? = some (some l) → e.locs[j]? = some (some k) → i ≠ j → other k l) → n ≤ 8 →
      (∀ w off, .shared w off ∈ e.places → (s.wgs.find w).isSome = true) →
      ∃ t, exec (.storePerformed a.id only) s = .next t ∧ t.strands = s.strands ∧
      (∀ i l, e.locs[i]? = some (some l) → t.readByte core l = e.val.extractLsb' (8 * i) 8) ∧
      (∀ pa, (∀ k ∈ e.places, other k (.phys .priv pa)) → isReg pa = false → Safety.backed s core t pa) ∧
      ∀ l, (∀ k ∈ e.places, other k l) → (match l with | .phys _ pa => isReg pa = false ∧ Safety.l1Room s core n | _ => True) → t.readByte core l = s.readByte core l) ∧
    (∀ (op : AOp) (uns : Bool) (xd : Option Nat), a.kind = .atom op uns xd → a.elems = [e] → (n = 4 ∨ n = 8) → ∀ at_ : Nat → Attr × Nat,
      (∀ i, i < n → e.locs[i]? = some (some (.phys (at_ i).1 (at_ i).2))) → (∀ i j, i < n → j < n → (at_ i).2 = (at_ j).2 → i = j) →
      let old := natOfBytes ((List.range n).map (fun i => s.physByte (at_ i).2))
      let v := e.val.toNat % 2 ^ (8 * n)
      let less (y z : Nat) : Bool := if uns then decide (y < z) else decide ((BitVec.ofNat (8 * n) y).toInt < (BitVec.ofNat (8 * n) z).toInt)
      let new : Nat := match op with
        | .add => (old + v) % 2 ^ (8 * n) | .min => if less v old then v else old | .max => if less old v then v else old
        | .and => old &&& v | .or => old ||| v | .xor => old ^^^ v | .exch => v | .cas => if old = e.cmp.toNat % 2 ^ (8 * n) then v else old
      ∃ t, exec (if xd.isSome then .loadReturn a.id only else .storePerformed a.id only) s = .next t ∧
        (∀ i, i < n → t.physByte (at_ i).2 = BitVec.ofNat 8 (new / 2 ^ (8 * i))) ∧
        (∀ pa, (∀ i, i < n → pa ≠ (at_ i).2) → isReg pa = false → Safety.backed s core t pa) ∧
        ∀ r, xd = some r → (t.strands.find a.strand).map (fun u => u.xGet r e.thread) = some (wide (!uns) old)) ∧
    (∀ pa, a.kind = .add → a.elems = [e] → e.locs = (List.range 8).map (fun b => some (.phys .coh (pa + b))) → Safety.l1Room s core 2 →
      let sum : W64 := BitVec.ofNat 64 (min ((s.physWord pa).toNat + e.val.toNat) (2 ^ 64 - 1))
      let hit := s.targets.find? (fun y => decide (y.pa = pa) && decide (y.target.toNat ≤ sum.toNat))
      ∃ t, exec (.storePerformed a.id only) s = .next t ∧ ((∀ x, Safety.logged s t x → x < pa ∨ pa + 8 ≤ x) → t.physWord pa = sum) ∧
        (∀ x, (x < pa ∨ pa + 8 ≤ x) → ¬ Safety.logged s t x → t.physByte x = s.physByte x) ∧ t.strands = s.strands ∧
        Safety.sameWgs s t ∧
        (hit = none → t.targets = s.targets ∧ t.out = s.out) ∧
        ∀ y, hit = some y → t.targets = s.targets.filter (fun u => decide (u.pa ≠ pa)) ∧
          (y.act = .notice → t.out = s.out ++ [.notice (s.notices % 2 ^ 32) (.counter y.ctx none (some pa))]))

/-- R214 with R219 to R222 and R230, where the channel has room for every entry and no comparator is set: LDQ and GATHERQ append one entry, two
for ESIZE 8, filled together from one read (R123), LDQB and list-form GATHERQ one per count and LDSQ N. Each is pending with the fetches that its record gives, or POISON where a
check fails, or for LDSQ filled at once; a count too large and a range out of bounds trap. The instruction is one yield point. -/
def Obligations.QueueLoads : Prop :=
  ∀ (s : State) (m : Me) (p : Option Pfx) (q : BitVec 4) (qu : Queue) (a b : Sel) (bf bfl : BitVec 6) (spl sx mk : Bool) (nn : BitVec 8)
    (ch : Chan), m.queue q.toNat = some qu → qu.decl.kind.producer = .access → (qu.decl.bcast = true → qu.chans.length = 1) →
    (s.core m.sid.wg.core).watches = [] → Safety.apart m (m.pc + BitVec.ofNat 64 (pfxLen p 8)) →
    let c : Nat := if ch.chv then ch.ch.toNat else qu.channel m.sid.idx
    let r := s.bufRec m bf.toNat
    let l := s.bufRec m bfl.toNat
    let uni (x : Sel) : W64 := m.uni 0 x
    c < qu.chans.length →
    let done (t : State) (es : List QEntry) : Prop := Safety.left s m (Safety.gone m (m.pc + BitVec.ofNat 64 (pfxLen p 8))) t ∧
      Safety.appended s m q.toNat qu c es t ∧ t.accs = s.accs
    let waits (e : QEntry) (mark splat : Bool) (fs : List Fetch) (hi lo : Option Nat) : Prop := ∃ w, e.pend = some w ∧ w.strand = m.sid ∧ w.pc = m.pc ∧
      w.mark = mark ∧ w.bf = some bf.toNat ∧ w.bfTag = r.tag ∧ w.fetches = fs ∧ w.list = none ∧ w.wide = false ∧ w.splat = splat ∧ w.hi = hi ∧ w.lo = lo ∧ w.ue = false
    let bad (e : QEntry) (code : BitVec 8) (va : W64) (mask : TMask) (rec_ : Nat) (tag : BitVec 16) : Prop := e.pend = none ∧ e.tag = 3 ∧
      e.poison = some { Safety.record m 0x03 va with cause := code, mask := mask, bf := some rec_, tag := tag }
    (∀ i mark, (i, mark) ∈ ([(.ldq p q a sx bf ch, false), (.gatherq p q a bf mk sx ch, mk)] : List (Instr × Bool)) →
      let n := if r.ecode = 3 then 2 else 1
      let ix (th : Nat) : W64 := m.val64 0 a th
      let ins := (TMask.list m.em).filter (fun th => decide ((ix th).toNat < r.extent))
      let outs := (TMask.list m.em).filter (fun th => decide (r.extent ≤ (ix th).toNat))
      Safety.asks s m (xRegs [a]) → n ≤ qu.room c →
      ∃ t es, exec i s = .next t ∧ done t es ∧ es.length = n ∧ ∀ k e, es[k]? = some e →
        if r.bad (fun x => x = 1 || x = 2 || x = 4 || x = 8) then bad e 0x0C 0 m.em bf.toNat r.tag
        else if !r.oobz && !outs.isEmpty then bad e 0x05 (r.addr (ix (outs.headD 0))) (maskOf (fun th => outs.contains th)) bf.toNat r.tag
        else e.id = s.serial + k ∧ waits e (mark && k + 1 = n) false (if k = 0 then ins.map (fun th => ⟨th, r.addr (ix th), r.esize, sx⟩) else [])
          (if n = 2 ∧ k = 0 then some (s.serial + 1) else none) (if k = 1 then some s.serial else none)) ∧
    (let n := (uni b).toNat
     let pos (e w : Nat) : W64 := uni a + BitVec.ofNat 64 (if spl then e else 8 * e + w)
     let i : Instr := .ldqb p ⟨q, a, b, bf, spl, mk, sx, ch⟩
     Safety.asks s m (xRegs [a, b]) →
     (4096 < n → ∃ t, exec i s = .next t ∧ Safety.trapped s m m.pc (Safety.record m 0x05 0) t) ∧
     (n ≤ 4096 → n ≤ qu.room c → ∃ t es, exec i s = .next t ∧ done t es ∧ es.length = n ∧ ∀ k e, es[k]? = some e →
        let ins := (List.range 8).filter (fun w => decide ((pos k w).toNat < r.extent))
        let outs := (List.range 8).filter (fun w => decide (r.extent ≤ (pos k w).toNat))
        if r.bad (fun x => x = 1 || x = 2 || x = 4) then bad e 0x0C 0 0xFF bf.toNat r.tag
        else if !r.oobz && !outs.isEmpty then bad e 0x05 (r.addr (pos k (outs.headD 0))) (maskOf (fun w => outs.contains w)) bf.toNat r.tag
        else let fs := ins.map (fun w => ⟨w, r.addr (pos k w), r.esize, sx⟩)
          waits e (mk && k + 1 = n) spl (if spl then fs.take 1 else fs) none none)) ∧
    (let n := (uni b).toNat
     let i : Instr := .gatherqList p ⟨q, a, b, bf, mk, ch, bfl⟩
     Safety.asks s m (xRegs [a, b]) →
     (64 < n → ∃ t, exec i s = .next t ∧ Safety.trapped s m m.pc (Safety.record m 0x05 0) t) ∧
     (n ≤ 64 → n ≤ qu.room c → ∃ t es, exec i s = .next t ∧ done t es ∧ es.length = n ∧ ∀ k e, es[k]? = some e →
        let j := uni a + BitVec.ofNat 64 k
        let inb := decide (j.toNat < l.extent)
        if l.bad (fun x => x = 4 || x = 8) then bad e 0x0C 0 0xFF bfl.toNat l.tag
        else if r.bad (fun x => x = 32) then bad e 0x0C 0 0xFF bf.toNat r.tag
        else if !l.oobz && !inb then bad e 0x05 (l.addr j) 0xFF bfl.toNat l.tag
        else ∃ w, e.pend = some w ∧ w.strand = m.sid ∧ w.pc = m.pc ∧ w.mark = (mk && k + 1 = n) ∧ w.bf = some bfl.toNat ∧ w.bfTag = l.tag ∧ w.wide = true ∧
          w.list = some ⟨if inb then some ⟨0, l.addr j, l.esize, false⟩ else none, bf.toNat, r.tag, r.w0, r.w1, r.w2⟩)) ∧
    (let n := nn.toNat + 1
     let o := (uni a).toNat
     let at_ (x : Nat) : Loc := if x < 2 ^ 31 then .shared m.sid.wg x else .pipe m.sid.wg.core (x % 2 ^ 17)
     let inside : Bool := decide (o + 32 * n ≤ 2 ^ 32) && if o < 2 ^ 31 then decide (o + 32 * n ≤ m.wg.size) && (decide (o + 32 * n ≤ 0x1000) || decide (0x1400 ≤ o))
       else decide (o / 2 ^ 17 % 2 ^ 14 = 0) && decide (o % 2 ^ 17 + 32 * n ≤ 2 ^ 17)
     let i : Instr := .ldsq p q a mk nn ch
     Safety.asks s m (xRegs [a]) →
     (o % 4 ≠ 0 → ∃ t, exec i s = .next t ∧ Safety.trapped s m m.pc (Safety.record m 0x0D (uni a)) t) ∧
     (o % 4 = 0 → inside = false → ∃ t, exec i s = .next t ∧ Safety.trapped s m m.pc (Safety.record m 0x05 (uni a)) t) ∧
     (o % 4 = 0 → inside = true → n ≤ qu.room c → (∀ x, s.landing m.sid.wg x = false) → (∀ y ∈ s.accs, y.strand ≠ m.sid) →
        ∃ t es, exec i s = .next t ∧ done t es ∧ es.length = n ∧ ∀ k e, es[k]? = some e →
          e.pend = none ∧ e.tag = (if mk && k + 1 = n then 1 else 0) ∧ ∀ w, w < 8 →
            (e.word w).toNat = natOfBytes ((List.range 4).map (fun j => s.readByte m.sid.wg.core (at_ (o + 32 * k + 4 * w + j))))))

/-- R56 and R57 with R212, R219 and R220: once what precedes it is over, a pending entry whose elements lie on local pages found in a TLB, their
bytes at hand, receives each word's widened element, zero in the other words, and the tag MARK or DATA; with it is filled the entry that takes
the high words of its 8-byte elements, and a splat's one element goes to every word. One with an element on an invalid or protected page becomes
POISON with the failing words as its record's mask. Other entries and registers stay, and memory but for what an evicted line writes back. -/
def Obligations.EntryFills : Prop :=
  ∀ (s : State) (id : Nat) (w : WgId) (g : Workgroup) (e : QEntry) (p : Pend) (page : Nat → Access),
    s.pendEntry id = some (w, g, e, p) → p.ue = false → p.list = none → p.lo = none → p.lines = [] → p.buf = [] → s.ready w p.deps = true →
    (∀ h, p.hi = some h → h ≠ id ∧ ∃ f q, s.pendEntry h = some (w, g, f, q)) →
    s.wgs.find w = some g → (s.wgs.map Prod.fst).Nodup → (s.wgs.flatMap (fun x => x.2.entries.map QEntry.id)).Nodup →
    (∀ q ∈ g.queues, q.2.decl.bcast = false) → (p.fetches.map Fetch.word).Nodup → (p.splat = true → p.fetches.length ≤ 1) →
    (∀ f ∈ p.fetches, f.word < 8 ∧ Safety.found s w.core g.ctx (.entry id) .read f.va f.size (page f.word) ∧
      (match page f.word with
      | .ok l => l.dev = none ∧ l.attr ≠ .dev ∧ ∀ i, i < f.size → Safety.atHand s w.core l.attr (l.pa (f.va + BitVec.ofNat 64 i))
      | .fail => True
      | _ => False)) →
    let failing := p.fetches.filter (fun f => decide (page f.word = .fail))
    let value (f : Fetch) : Nat := match page f.word with
      | .ok l => natOfBytes ((List.range f.size).map (fun i => s.readByte w.core (.phys l.attr (l.pa (f.va + BitVec.ofNat 64 i)))))
      | _ => 0
    let low (f : Fetch) : W32 := if f.sx then ((BitVec.ofNat (8 * f.size) (value f)).signExtend 64).setWidth 32 else BitVec.ofNat 32 (value f)
    let words (h : Fetch → W32) : List W32 := (List.range 8).map (fun t => match p.fetches.find? (fun f => p.splat || f.word = t) with | some f => h f | none => 0)
    let filled (e : QEntry) (mark : Bool) (h : Fetch → W32) : QEntry := match failing with
      | [] => { e with pend := none, poison := none, tag := if mark then 1 else 0, words := words h }
      | f :: _ =>
        let mask : TMask := if p.wide || p.splat then 0xFF else maskOf (fun t => failing.any (fun f => f.word = t))
        let r : FaultRec := { task := g.task, pc := p.pc, va := f.va, tag := p.bfTag, bf := p.bf, mask := mask, strand := p.strand.idx, slice := p.strand.slice, disp := 0, cause := 0x04, code := 0x03 }
        { e with pend := none, words := [0, 0, 0, 0, 0, 0, 0, 0], tag := 3, poison := some r }
    ∃ t g', exec (.queueEntryFill id) s = .next t ∧ t.wgs.find w = some g' ∧ (∀ pa, Safety.backed s w.core t pa) ∧ t.strands = s.strands ∧
      g'.entries = g.entries.map (fun x => if x.id = id then filled x p.mark low
        else if some x.id = p.hi then filled x ((x.pend.map Pend.mark).getD false) (fun f => BitVec.ofNat 32 (value f / 2 ^ 32)) else x) ∧
      { g' with queues := g.queues, lines := g.lines } = g ∧ ∀ x, x ≠ w → t.wgs.find x = s.wgs.find x

/-- R225, R226 and R230: a pop of DATA or MARK entries whose elements lie on local pages lists one store with an element for each active thread
that is in bounds, and consumes the entries; EOS or end of stream sets qt and stores nothing. STSQ lists one store of eight words per entry. -/
def Obligations.QueueStores : Prop :=
  ∀ (s : State) (m : Me) (p : Option Pfx) (q : BitVec 4) (qu : Queue) (a : Sel) (bf : BitVec 6) (nn : BitVec 8),
    m.queue q.toNat = some qu → qu.decl.kind = .sq → (qu.decl.bcast = true → ((qu.view m.sid.idx).map QEntry.id).Nodup) → qu.chans ≠ [] →
    Safety.asks s m (xRegs [a]) → Safety.apart m (m.pc + BitVec.ofNat 64 (pfxLen p 8)) →
    let r := s.bufRec m bf.toNat
    let n := r.esize
    let two := if r.ecode = 3 then 2 else 1
    let done (t : State) (tag : BitVec 2) (k : Nat) : Prop :=
      Safety.left s m { Safety.gone m (m.pc + BitVec.ofNat 64 (pfxLen p 8)) with qt := tag } t ∧
      ((t.wgs.find m.sid.wg).bind (fun g => g.queues.find q.toNat)).map (fun x => x.view m.sid.idx) = some ((qu.view m.sid.idx).drop k)
    (∀ i ix, (i, ix) ∈ ([(.stq p q a bf, fun th => m.uni 0 a + BitVec.ofNat 64 th), (.scatq p q a bf, fun th => m.val64 0 a th)] :
        List (Instr × (Nat → W64))) → ∀ lo hi tag k, s.popRes m.sid.wg m.sid.idx qu two = .ok lo hi tag k →
      (tag = 2 → ∃ t, exec i s = .next t ∧ done t 2 k ∧ t.accs = s.accs) ∧
      (tag ≠ 2 → r.bad (fun x => x = 1 || x = 2 || x = 4 || x = 8) = false → r.ro = false →
        let va (th : Nat) : W64 := r.addr (ix th)
        let act (th : Nat) : Bool := TMask.has m.em th
        let inb (th : Nat) : Bool := decide ((ix th).toNat < r.extent)
        (r.oobz = true ∨ ∀ th, act th = true → inb th = true) → (∃ th, act th = true ∧ inb th = true) → ∀ page : Nat → Leaf,
        (∀ th, act th = true → inb th = true → Safety.onPage s m .write .w (va th) n (page th)) →
        (s.core m.sid.wg.core).mend.length < 256 → s.inflight m.sid.wg .sto < 1023 →
        let lost (th j : Nat) : Bool := (List.range 8).any (fun u => decide (th < u) && act u && inb u &&
          decide ((va u).toNat ≤ (va th).toNat + j) && decide ((va th).toNat + j < (va u).toNat + n))
        let locs (th : Nat) : List (Option Loc) := (List.range n).map (fun j => if lost th j then none
          else some (.phys (page th).attr ((page th).pa (va th + BitVec.ofNat 64 j))))
        ∃ t c, exec i s = .next t ∧ done t tag k ∧ c ∈ t.accs ∧ c.id = s.serial ∧ c.strand = m.sid ∧ c.kind = .store ∧ c.path = some .sto ∧
          (∀ y ∈ c.elems, act y.thread = true) ∧ ∀ th, act th = true → c.elems.find? (fun y => y.thread = th) =
            if !inb th || (locs th).all (fun x => x.isNone) then none
            else some { thread := th, va := va th, locs := locs th, val := (hi[th]?).getD 0 ++ (lo[th]?).getD 0, cmp := 0, done := false })) ∧
    (let len := nn.toNat + 1
     let o := (m.uni 0 a).toNat
     let at_ (x : Nat) : Loc := if x < 2 ^ 31 then .shared m.sid.wg x else .pipe m.sid.wg.core (x % 2 ^ 17)
     let inside : Bool := decide (o + 32 * len ≤ 2 ^ 32) && if o < 2 ^ 31 then decide (o + 32 * len ≤ m.wg.size) && (decide (o + 32 * len ≤ 0x1000) || decide (0x1400 ≤ o))
       else decide (o / 2 ^ 17 % 2 ^ 14 = 0) && decide (o % 2 ^ 17 + 32 * len ≤ 2 ^ 17)
     let i : Instr := .stsq p q a nn
     let v := qu.view m.sid.idx
     (o % 4 ≠ 0 → ∃ t, exec i s = .next t ∧ Safety.trapped s m m.pc (Safety.record m 0x0D (m.uni 0 a)) t) ∧
     (o % 4 = 0 → inside = false → ∃ t, exec i s = .next t ∧ Safety.trapped s m m.pc (Safety.record m 0x05 (m.uni 0 a)) t) ∧
     (o % 4 = 0 → inside = true → ∀ k, k ≤ len → (∀ j e, j < k → v[j]? = some e → e.pend = none ∧ e.tag.toNat < 2) → k ≤ v.length →
        (∀ e, k < len → v[k]? = some e → e.pend = none ∧ e.tag = 2) → (k < len → v.length = k → s.producersGone m.sid.wg qu = true) →
        s.inflight m.sid.wg .sto + k ≤ 1023 →
        ∃ t new, exec i s = .next t ∧ t.accs = s.accs ++ new ∧ new.length = k ∧
          done t (if k = len then (v[k - 1]?).elim 0 QEntry.tag else 2) (if k < len then k + 1 else k) ∧
          ∀ j e c, v[j]? = some e → new[j]? = some c → c.strand = m.sid ∧ c.kind = .store ∧ c.path = some .sto ∧
            c.elems = (List.range 8).map (fun w => (⟨w, BitVec.ofNat 64 (o + 32 * j + 4 * w), (List.range 4).map (fun b => some (at_ (o + 32 * j + 4 * w + b))),
              (e.word w).setWidth 64, 0, false⟩ : Elem))))

/-- R223 for a scan of elements on local pages found in a TLB, their bytes at hand and the L1 with room for their lines, by a strand with nothing
outstanding, where the channels have room: the k-th group
holds the indices of the next eight non-zero elements, the value queue their widened values, padded with zeros, MARK on the last where asked; sC
receives the number of non-zeros. Too long a scan traps as BOUNDS, equal queues make the encoding ill-formed, and a malformed record pushes POISON. -/
def Obligations.ZeroScan : Prop :=
  ∀ (s : State) (m : Me) (p : Option Pfx) (sc ss sn : BitVec 5) (bf : BitVec 6) (qi qv : BitVec 4) (vals mk sx : Bool) (ch : Chan)
    (ui uv : Queue), m.queue qi.toNat = some ui → m.queue qv.toNat = some uv → ui.decl.kind.producer = .access → uv.decl.kind.producer = .access →
    (∀ u ∈ [ui, uv], u.decl.bcast = true → u.chans.length = 1) → Safety.asks s m [] → Safety.apart m (m.pc + BitVec.ofNat 64 (pfxLen p 8)) →
    let c (u : Queue) : Nat := if ch.chv then ch.ch.toNat else u.channel m.sid.idx
    (∀ u ∈ [ui, uv], c u < u.chans.length) →
    let i : Instr := .nzscan p ⟨sc, ss, sn, bf, qi, if vals then some qv else none, mk, sx, ch⟩
    let n := (m.st.sGet sn.toNat).toNat
    let r := s.bufRec m bf.toNat
    let at_ (k : Nat) : W64 := m.st.sGet ss.toNat + BitVec.ofNat 64 k
    let after (count : Nat) : Strand := (Safety.gone m (m.pc + BitVec.ofNat 64 (pfxLen p 8))).sSet sc.toNat (BitVec.ofNat 64 count)
    (vals = true → qi = qv → WellFormed i = false) ∧
    ((vals = true → qi ≠ qv) → 2 ^ 20 < n → ∃ t, exec i s = .next t ∧ Safety.trapped s m m.pc (Safety.record m 0x05 0) t) ∧
    ((vals = true → qi ≠ qv) → 0 < n → n ≤ 2 ^ 20 → r.bad (fun x => x = 1 || x = 2 || x = 4) = true → 1 ≤ ui.room (c ui) → 1 ≤ uv.room (c uv) →
      ∃ t, exec i s = .next t ∧ Safety.left s m (after 0) t ∧ ∀ u k, (u, k) ∈ ([(ui, qi.toNat)] ++ if vals then [(uv, qv.toNat)] else []) →
        ∃ e, Safety.appended s m k u (c u) [e] t ∧ e.tag = 3 ∧ e.pend = none ∧
          e.poison = some { Safety.record m 0x03 0 with cause := 0x0C, mask := m.em, bf := some bf.toNat, tag := r.tag }) ∧
    ((vals = true → qi ≠ qv) → n ≤ 2 ^ 20 → (0 < n → r.bad (fun x => x = 1 || x = 2 || x = 4) = false) → Safety.quiet s m → ∀ page : Nat → Leaf,
      (∀ k, k < n → (at_ k).toNat < r.extent ∧ Safety.onPage s m .read .r (r.addr (at_ k)) r.esize (page k) ∧
        ∀ b, b < r.esize → Safety.atHand s m.sid.wg.core (page k).attr ((page k).pa (r.addr (at_ k) + BitVec.ofNat 64 b))) → Safety.l1Room s m.sid.wg.core (2 * n) →
      let value (k : Nat) : Nat := natOfBytes ((List.range r.esize).map (fun b =>
        s.readByte m.sid.wg.core (.phys (page k).attr ((page k).pa (r.addr (at_ k) + BitVec.ofNat 64 b)))))
      let found := (List.range n).filter (fun k => decide (value k ≠ 0))
      let groups := (found.length + 7) / 8
      let wide (k : Nat) : W32 := if sx then ((BitVec.ofNat (8 * r.esize) (value k)).signExtend 64).setWidth 32 else BitVec.ofNat 32 (value k)
      let group (f : Nat → W32) (es : List QEntry) : Prop := es.length = groups ∧ ∀ k e, es[k]? = some e → e.pend = none ∧
        e.tag = (if mk && k + 1 = groups then 1 else 0) ∧ ∀ w, w < 8 → e.word w = (found[8 * k + w]?).elim 0 f
      groups ≤ ui.room (c ui) → groups ≤ uv.room (c uv) →
      ∃ t es, exec i s = .next t ∧ Safety.left s m (after found.length) t ∧ group (fun k => (at_ k).setWidth 32) es ∧
        Safety.appended s m qi.toNat ui (c ui) es t ∧ (vals = true → ∃ vs, group wide vs ∧ Safety.appended s m qv.toNat uv (c uv) vs t))

/-- R110, R111, R228 and R229, where every active thread's bytes are aligned and lie in the allocation: LDC on a line that is full and that no
older LDC waits for reads its values, sets the line empty and lists their delivery; STF on an empty line, with nothing covered outstanding, writes
its bytes and sets it full; else the fragment waits behind the older ones. Several lines trap as ALIGN. FEQ returns each line's bit before it. -/
def Obligations.FullEmpty : Prop :=
  ∀ (s : State) (m : Me) (p : Option Pfx) (d : BitVec 5) (off v : Sel) (sz : SZ) (nn : Bool) (op : FeqOp),
    Safety.apart m (m.pc + BitVec.ofNat 64 (pfxLen p 4)) → (∀ x, s.landing m.sid.wg x = false) →
    let n : Nat := match sz with | .u8 => 1 | .s8 => 1 | .u16 => 2 | .s16 => 2 | .u32 => 4 | .s32 => 4 | .u64 => 8
    let sx : Bool := match sz with | .s8 => true | .s16 => true | .s32 => true | _ => false
    let act (th : Nat) : Bool := TMask.has m.em th
    let o (th : Nat) : Nat := (m.val64 0 off th).toNat
    let inside (n th : Nat) : Prop := if o th < 2 ^ 31 then o th + n ≤ m.wg.size ∧ (o th + n ≤ 0x1000 ∨ 0x1400 ≤ o th)
      else o th + n ≤ 2 ^ 32 ∧ o th / 2 ^ 17 % 2 ^ 14 = 0 ∧ o th % 2 ^ 17 + n ≤ 2 ^ 17
    let place (a : Nat) : Loc := if a < 2 ^ 31 then .shared m.sid.wg a else .pipe m.sid.wg.core (a % 2 ^ 17)
    let line (th : Nat) : Nat := if o th < 2 ^ 31 then o th / 128 else 2 ^ 24 + o th % 2 ^ 17 / 128
    let full (s : State) (l : Nat) : Bool := s.fullBit m.sid.wg l
    let gone : Strand := Safety.gone m (m.pc + BitVec.ofNat 64 (pfxLen p 4))
    (∀ load i regs, (load, i, regs) ∈ ([(true, .ldc p d off sz, d.toNat :: xRegs [off]), (false, .stf p sz off v, xRegs [off, v])] :
        List (Bool × Instr × List Nat)) → Safety.asks s m regs →
      (∀ th, act th = true → o th % n ≠ 0 → (∀ u, u < th → act u = true → o u % n = 0) → ∃ t, exec i s = .next t ∧
        Safety.trapped s m m.pc { Safety.record m 0x0D (m.val64 0 off th) with mask := maskOf (fun u => act u && decide (o u % n ≠ 0)) } t) ∧
      ((∀ th, act th = true → o th % n = 0 ∧ inside n th) →
        (∀ th u, act th = true → act u = true → o th / 128 = o u / 128) ∨
        ∃ t, exec i s = .next t ∧ Safety.trapped s m m.pc (Safety.record m 0x0D (m.val64 0 off (TMask.lowest m.em))) t) ∧
      ((∀ th u, act th = true → act u = true → o th % n = 0 ∧ inside n th ∧ o th / 128 = o u / 128) → Safety.quiet s m →
        s.inflight m.sid.wg (if load then .ldsh else .sto) < 1023 → ∀ l, (∀ th, act th = true → line th = l) →
        let free : Bool := (s.feWaiters m.sid.wg l).all (fun x => x.load != load)
        (full s l = load → free = true → ∃ t a, exec i s = .next t ∧ t.strands.find m.sid = some gone ∧ (t.laneOf m.sid).cur = none ∧ Safety.sameBytes s t ∧
          full t l = !load ∧ (∀ k, k ≠ l → full t k = full s k) ∧ (∀ y, y ≠ m.sid → t.strands.find y = s.strands.find y) ∧
          (load = true → a ∈ t.accs ∧ a.id = s.serial ∧ a.strand = m.sid ∧ a.kind = .deliver d.toNat ∧ a.path = some .ldsh ∧ a.elems.map Elem.thread = TMask.list m.em ∧
            (∀ l, t.readByte m.sid.wg.core l = s.readByte m.sid.wg.core l) ∧ ∀ y ∈ a.elems, y.done = false ∧
            let x := natOfBytes ((List.range n).map (fun j => s.readByte m.sid.wg.core (place (o y.thread + j))))
            y.val = if sx then (BitVec.ofNat (8 * n) x).signExtend 64 else BitVec.ofNat 64 x) ∧
          (load = false → (∀ th, act th = true → ∀ j, j < n → (∀ u, th < u → act u = true → o th + j < o u ∨ o u + n ≤ o th + j) →
              t.readByte m.sid.wg.core (place (o th + j)) = (m.val64 0 v th).extractLsb' (8 * j) 8) ∧
            ∀ x, (∀ th j, act th = true → j < n → x ≠ place (o th + j)) → (match x with | .shared w _ => w = m.sid.wg | .pipe _ _ => True | _ => False) →
              t.readByte m.sid.wg.core x = s.readByte m.sid.wg.core x)) ∧
        ((full s l = !load ∨ free = false) → (∀ x ∈ s.feWaiters m.sid.wg l, x.strand ≠ m.sid) →
          ∃ t st, exec i s = .next t ∧ Safety.left s m st t ∧ Safety.latchesZero st ∧
            st.frags[m.fi]? = some { m.f with st := .blocked, wait := some (.fullEmpty l load) } ∧ t.accs = s.accs ∧
            t.feWaiters m.sid.wg l = s.feWaiters m.sid.wg l ++ [⟨m.sid, m.f.born, load, l, if load then d.toNat else 0, n, sx,
              (TMask.list m.em).map (fun th => (th, m.val64 0 off th, if load then 0 else m.val64 0 v th)), pfxLen p 4⟩] ∧ ∀ k, full t k = full s k))) ∧
    (Safety.asks s m (d.toNat :: xRegs [off]) → (∀ th, act th = true → inside 1 th) →
      let after (l : Nat) : Bool := match op with
        | .read => full s l
        | .fill => (List.range 8).any (fun th => act th && decide (line th = l)) || full s l
        | .empty => !(List.range 8).any (fun th => act th && decide (line th = l)) && full s l
      let first (th : Nat) : Bool := (List.range 8).all (fun u => !(decide (u < th) && act u && decide (line u = line th)))
      let old (th : Nat) : Nat := if first th || decide (op = .read) then (if full s (line th) then 1 else 0) else if op = .fill then 1 else 0
      ∃ t st, exec (.feq p nn d off op) s = .next t ∧ t.strands.find m.sid = some st ∧ Safety.sameBytes s t ∧
        Safety.wrote m nn d.toNat .n64 old st ∧
        Safety.shifted m old st ∧
        { st with x := m.st.x, latches := m.st.latches } = Safety.moved m (m.pc + BitVec.ofNat 64 (pfxLen p 4)) ∧
        (∀ l, full t l = after l) ∧ (∀ y, y ≠ m.sid → t.strands.find y = s.strands.find y) ∧
        ∀ l, t.readByte m.sid.wg.core l = s.readByte m.sid.wg.core l)

/-- R231 to R235: BFSET lists a store of 8 bytes to its record's word, BFGET reads the word with the strand's own stores, INFL reads a counter; WAITF
goes on at or below its threshold and blocks above it; LAND checks its operands in order and replaces the region's slots and permits unless a
delivery into it is outstanding; PFR and PFT start a range, none for length 0, and block with 16 of the workgroup incomplete. -/
def Obligations.HeaderAndCounters : Prop :=
  ∀ (s : State) (m : Me) (p : Option Pfx) (nn : Bool) (d : BitVec 5) (a b : Sel) (bf : BitVec 6) (word : BitVec 2) (path : Path) (reg : BitVec 3)
    (ctr : BitVec 6),
    let len : Nat := pfxLen p 4
    let at_ (k : Nat) : Nat := 32 * bf.toNat + 8 * word.toNat + k
    let moved (s t : State) (st : Strand) (len : Nat) : Prop := t.strands.find m.sid = some st ∧ Safety.sameBytes s t ∧
      (∀ y, y ≠ m.sid → t.strands.find y = s.strands.find y) ∧ t.wgs = s.wgs ∧
      { st with x := m.st.x, latches := m.st.latches } = Safety.moved m (m.pc + BitVec.ofNat 64 len)
    let uni (x : Sel) : W64 := m.uni 0 x
    (Safety.asks s m (xRegs [a]) → Safety.apart m (m.pc + BitVec.ofNat 64 len) →
      ∃ t c, exec (.bfset p bf word a) s = .next t ∧ moved s t (Safety.moved m (m.pc + BitVec.ofNat 64 len)) len ∧ t.accs = s.accs ++ [c] ∧
        c.strand = m.sid ∧ c.kind = .store ∧
        c.elems = [⟨TMask.lowest m.em, BitVec.ofNat 64 (at_ 0), (List.range 8).map (fun k => some (.shared m.sid.wg (at_ k))), uni a, 0, false⟩]) ∧
    (Safety.apart m (m.pc + BitVec.ofNat 64 len) → ∀ i x, (i, x) ∈ ([
        (.bfget p nn d bf word, s.ownWord m (at_ 0)), (.infl p nn d path, BitVec.ofNat 64 (s.inflight m.sid.wg path))] : List (Instr × W64)) →
      Safety.asks s m [d.toNat] → (i = .infl p nn d path ∨ ∀ y ∈ s.accs, y.strand = m.sid → y.kind = .store) →
      ((∀ y ∈ s.accs, y.strand ≠ m.sid) → s.ownWord m (at_ 0) = w64OfBytes ((List.range 8).map (fun k => m.wg.shared.get (at_ k)))) ∧
      ∃ t st, exec i s = .next t ∧ moved s t st len ∧ Safety.wrote m nn d.toNat .n64 (fun _ => x.toNat) st ∧ Safety.shifted m (fun _ => x.toNat) st ∧
        t.accs = s.accs) ∧
    (Safety.asks s m (xRegs [a]) →
      (s.inflight m.sid.wg path ≤ (uni a).toNat → Safety.apart m (m.pc + BitVec.ofNat 64 len) →
        ∃ t, exec (.waitf p path a) s = .next t ∧ Safety.yielded s m (Safety.gone m (m.pc + BitVec.ofNat 64 len)) t) ∧
      ((uni a).toNat < s.inflight m.sid.wg path → ∃ t st, exec (.waitf p path a) s = .next t ∧ Safety.yielded s m st t ∧
        st.frags[m.fi]? = some { m.f with st := .blocked, wait := some (.waitf path (uni a).toNat) } ∧
        { st with frags := m.st.frags } = { m.st with latches := [] })) ∧
    (Safety.asks s m (xRegs [a, b]) →
      let o := (uni a).toNat
      let n := (uni b).toNat
      let l := reg.toNat
      let ok : Prop := o % 4096 = 0 ∧ 0x2000 ≤ o ∧ o < 2 ^ 31 ∧ o + 4096 * n ≤ m.wg.size ∧ n ≤ 64 ∧
        (n = 0 ∨ ∀ r ∈ m.wg.landings, r.region ≠ l → r.off + 4096 * r.count ≤ o ∨ o + 4096 * n ≤ r.off)
      let idle : Prop := ∀ r ∈ m.wg.landings, r.region = l → r.claims = []
      (¬ ok → ∃ t, exec (.land p reg a b) s = .next t ∧ Safety.trapped s m m.pc (Safety.record m 0x05 0) t) ∧
      (ok → idle → Safety.apart m (m.pc + BitVec.ofNat 64 len) →
        ∃ t g, exec (.land p reg a b) s = .next t ∧ Safety.left s m (Safety.gone m (m.pc + BitVec.ofNat 64 len)) t ∧ t.wgs.find m.sid.wg = some g ∧
          g = { m.wg with landings := g.landings } ∧ g.landings.filter (fun r => r.region ≠ l) = m.wg.landings.filter (fun r => r.region ≠ l) ∧
          g.landings.filter (fun r => r.region = l) = if n = 0 then [] else [⟨l, o, n, List.range n, []⟩]) ∧
      (ok → ¬ idle → ∃ t st, exec (.land p reg a b) s = .next t ∧ Safety.yielded s m st t ∧
        st.frags[m.fi]? = some { m.f with st := .blocked, wait := some (.land l) })) ∧
    (∀ i tier, (i, tier) ∈ ([(.pfr p a b ctr, false), (.pft p a b ctr, true)] : List (Instr × Bool)) → Safety.asks s m (xRegs [a, b]) →
      let own : Nat := (s.prefetches.filter (fun f => f.task = m.wg.task)).length
      let after := Safety.gone m (m.pc + BitVec.ofNat 64 (pfxLen p 8))
      (own < 16 → Safety.apart m (m.pc + BitVec.ofNat 64 (pfxLen p 8)) → ∃ t, exec i s = .next t ∧ Safety.left s m after t ∧ t.wgs = s.wgs ∧
        t.prefetches = s.prefetches ++ if (uni b).toNat = 0 then [] else
          [⟨s.serial, m.wg.task, m.sid.wg.core, m.sid.wg.slot, m.wg.ctx, tier, (uni a).toNat, (uni b).toNat, ctr.toNat, m.pc, []⟩]) ∧
      (16 ≤ own → ∃ t st, exec i s = .next t ∧ Safety.yielded s m st t ∧ st.frags[m.fi]? = some { m.f with st := .blocked, wait := some (.engine .prefetch) }))

/-- R237 to R243 and R261 for MLOOP, MZERO, MSCL in both forms, MFILL, MDRAIN and MCFG: by the issuer, with operands that pass the checks, a command
joins the core's queue with its operation and counter bound, its tiles' issued types, its shadow mark and the configuration change at once, and the
strand passes a yield point; a full queue blocks it; any other access strand traps as ISSUE_RIGHTS. -/
def Obligations.MatrixCommands : Prop :=
  ∀ (s : State) (m : Me) (p : Option Pfx) (tile x : BitVec 5) (a : Sel) (lit : W32) (ctr : BitVec 6) (tt : TileTy) (lo : MloopF) (relu newRed : Bool)
    (arm : RMode) (geo : Option (BitVec 5)) (k : Nat) (acc : TileTy),
    let red := m.wg.mconf.red
    let half := m.wg.acc / 2
    let n := tile.toNat
    let pair (ty : TileTy) (n : Nat) : List Nat := if ty = .fp64 then [n, n + 1] else [n]
    let named (ty : TileTy) (n : Nat) : Prop := (∀ j ∈ pair ty n, j < m.wg.acc ∧ (red = true → j < half)) ∧ (ty = .fp64 → n % 2 = 0)
    let uses (ty : TileTy) (n : Nat) : List Nat := pair ty n ++ if red then (pair ty n).map (fun j => j + half) else []
    let sreg (r : BitVec 5) : W64 := m.st.sGet r.toNat
    let od (d : W64) : Prop := odOk d = true ∧ odHolds d 64 = true ∧ (odRanges d 64 64).all m.cmdRange = true
    let factor (lit : W32) : W32 := match a with | .s j => (m.st.sGet j.toNat).setWidth 32 | .const j => BitVec.ofNat 32 (((ETy.const .f32 j.toNat)).getD 0) | _ => lit
    let t0 := lo.tile.toNat
    let ks := lo.ks.toNat + 1
    let win := if lo.win then m.wg.mconf.geo else none
    let w : W64 := match geo with | some r => sreg r | none => 0
    let rm := effRM p m.st.mode
    let drainTy := m.wg.tileType n
    ∀ i len (enc legal : Prop) cmd (used : List Nat) ty sets mark c, (i, len, enc, legal, cmd, used, ty, sets, mark, c) ∈ ([
      (.mloop p lo, 8, t0 < m.wg.acc,
        odOk (sreg lo.a) = true ∧ odOk (sreg lo.b) = true ∧ operandOk (sreg lo.a) = true ∧ operandOk (sreg lo.b) = true ∧
          pairing (odFmt (sreg lo.a)) (odFmt (sreg lo.b)) = some (k, acc) ∧ named acc t0 ∧ (lo.accum = true → m.wg.tileType t0 = acc) ∧
          (lo.win = true → odT (sreg lo.a) = true ∧ lo.ainc = 0 ∧ fcBlock (odFmt (sreg lo.a)) = false ∧
            ∃ g, m.wg.mconf.geo = some g ∧ ks ≤ (Geo.ofWord g).fh * (Geo.ofWord g).fw * (Geo.ofWord g).cs) ∧
          (operandRanges (sreg lo.a) k lo.ainc.toNat ks (win.map Geo.ofWord) ++ operandRanges (sreg lo.b) k lo.binc.toNat ks none).all m.cmdRange = true,
        .loop t0 (sreg lo.a) (sreg lo.b) ks lo.accum lo.ainc.toNat lo.binc.toNat win m.wg.mconf.arm red, uses acc t0, acc, !lo.accum,
        if red then some (t0, true) else if lo.accum then none else some (t0, false), lo.ctr),
      (.mzero p tile ctr tt, 4, m.tileOk n tt false = true, named tt n, .zero n tt red, uses tt n, tt, true, some (n, red), ctr),
      (.mscl p tile a ctr, 4, n < m.wg.acc, m.wg.tileType n = .fp32 ∧ named .fp32 n, .scale n (factor 0) red, uses .fp32 n, .fp32, false,
        if red then some (n, true) else none, ctr),
      (.msclX1 p tile a ctr lit, 8, n < m.wg.acc, m.wg.tileType n = .fp32 ∧ named .fp32 n, .scale n (factor lit) red, uses .fp32 n, .fp32, false,
        if red then some (n, true) else none, ctr),
      (.mfill p tile x tt ctr, 8, m.tileOk n tt false = true, named tt n ∧ od (sreg x) ∧
          (match tt with
            | .fp32 => odFmt (sreg x) ∈ [1, 2, 3, 4, 5, 6, 7, 8, 9, 10]
            | .int32 => odFmt (sreg x) ∈ [11, 12, 13, 14, 20]
            | .fp64 => odFmt (sreg x) ∈ [0, 1, 2, 3, 4, 5, 6, 7, 8, 9, 10]),
        .fill n (sreg x) tt red, uses tt n, tt, true, some (n, red), ctr),
      (.mdrain p tile x relu ctr, 8, n < m.wg.acc, named drainTy n ∧ od (sreg x) ∧ (fcBlock (odFmt (sreg x)) = true → odT (sreg x) = false) ∧ rm ≠ .rst,
        .drain n drainTy (sreg x) rm (effSat p m.st.mode) relu (m.wg.shadowed.contains n), pair drainTy n, drainTy, false, none, ctr),
      (.mcfg p newRed arm geo ctr, 8, arm ≠ .rst, geoOk w = true ∧ (newRed = true → m.wg.acc ≠ 0 ∧ m.wg.acc % 2 = 0), .cfg, [], .fp32, false, none, ctr)] :
      List (Instr × Nat × Prop × Prop × MCmd × List Nat × TileTy × Bool × Option (Nat × Bool) × BitVec 6)) →
    Safety.asks s m [] → enc →
    (m.sid.idx ≠ m.wg.issuer → ∃ t, exec i s = .next t ∧ Safety.trapped s m m.pc (Safety.record m 0x07 0) t) ∧
    (m.sid.idx = m.wg.issuer → legal → 16 ≤ (s.core m.sid.wg.core).mqueue.length → ∃ t st, exec i s = .next t ∧ Safety.yielded s m st t ∧
      st.frags[m.fi]? = some { m.f with st := .blocked, wait := some (.engine .matrix) }) ∧
    (m.sid.idx = m.wg.issuer → legal → (s.core m.sid.wg.core).mqueue.length < 16 → Safety.apart m (m.pc + BitVec.ofNat 64 (pfxLen p len)) →
      let other (j : Nat) : Nat := if j % 2 = 0 then j + 1 else j - 1
      let lone (j : Nat) : Bool := sets && used.contains j && decide (m.wg.tileType j = .fp64) && !used.contains (other j)
      ∃ t g e, exec i s = .next t ∧ Safety.left s m (Safety.gone m (m.pc + BitVec.ofNat 64 (pfxLen p len))) t ∧
        (t.core m.sid.wg.core).mqueue = (s.core m.sid.wg.core).mqueue ++ [e] ∧ e.wg = m.sid.wg ∧ e.pc = m.pc ∧ e.cmd = cmd ∧ e.ctr = c.toNat ∧
        e.done = 0 ∧ e.left = (if i = .mloop p lo then ks else 1) ∧ e.running = false ∧ e.uses = used ∧ e.wrecks = (used.filter lone).map other ∧
        t.wgs.find m.sid.wg = some g ∧
        (∀ j, g.tileType j = if sets && used.contains j then ty else if lone (other j) then .fp32 else m.wg.tileType j) ∧
        (∀ j, j ∈ g.shadowed ↔ match mark with | some (q, b) => (if j = q then b = true else j ∈ m.wg.shadowed) | none => j ∈ m.wg.shadowed) ∧
        g.mconf = (if i = .mcfg p newRed arm geo ctr then ⟨newRed, arm, if w.setWidth 8 = (0 : BitVec 8) then none else some w⟩ else m.wg.mconf) ∧
        { g with tileTy := m.wg.tileTy, shadowed := m.wg.shadowed, mconf := m.wg.mconf } = m.wg)

/-- R237, R238, R241 and R267 to R273: by the issuer, a copy command with a sound descriptor joins the outstanding copies with descriptor, origin,
kind and counter bound, TCOPY claiming its landing's permits; a malformed descriptor traps as BF_INVALID, a landing without permits or an empty or
foreign receiver set as LANDING, the limit of 32 blocks. TDSET lists a store of 8 bytes to the descriptor's word. -/
def Obligations.CopyCommands : Prop :=
  ∀ (s : State) (m : Me) (p : Option Pfx) (o : TcopyF) (rmask : BitVec 16) (td ss sc : BitVec 5) (ctr : BitVec 6) (word : BitVec 3) (a : Sel),
    m.sid.idx = m.wg.issuer → (∀ y ∈ s.accs, y.strand ≠ m.sid) →
    let desc (n : BitVec 5) : List W64 := (List.range 8).map (fun i => w64OfBytes ((List.range 8).map (fun b => m.wg.shared.get (0x800 + 64 * n.toNat + 8 * i + b))))
    let org (c : BitVec 5) : List W64 := (List.range 4).map (fun i => m.st.sGet (c.toNat + i))
    let after (len : Nat) : Strand := Safety.gone m (m.pc + BitVec.ofNat 64 (pfxLen p len))
    let used := (s.core m.sid.wg.core).copies
    let gbad (d : List W64) : Bool := tdGath d && (s.bufRec m (tdGbf d)).bad (fun n => n = 4 || n = 8)
    let started (t : State) (d og : List W64) (kind : CopyKind) (c : BitVec 6) (dlv : List Delivery) : Prop :=
      Safety.left s m (after 8) t ∧ (t.core m.sid.wg.core).copies = used + 1 ∧ ∃ x, t.copies = s.copies ++ [x] ∧ x.core = m.sid.wg.core ∧ x.wg = m.sid.wg ∧
        x.ctx = m.wg.ctx ∧ x.pc = m.pc ∧ x.kind = kind ∧ x.td = d ∧ x.origin = og ∧ x.ctr = c.toNat ∧ x.started = false ∧ x.done = 0 ∧ x.dlv = dlv
    let blocked (i : Instr) : Prop := ∃ t st, exec i s = .next t ∧ Safety.yielded s m st t ∧
      st.frags[m.fi]? = some { m.f with st := .blocked, wait := some (.engine .copies) }
    (Safety.asks s m [] → Safety.apart m (m.pc + BitVec.ofNat 64 (pfxLen p 8)) →
      let d := desc o.td
      let og := org o.sc
      let n := landSlots d
      let slots := (List.range n).map (fun i => o.slot.toNat + i)
      let fits (r : Landing) : Prop := o.slot.toNat + n ≤ r.count ∧ ∀ q ∈ slots, q ∈ r.permits
      let region := m.wg.landings.find? (fun r => r.region = o.l.toNat)
      let total := m.wg.dims.1 * m.wg.dims.2.1 * m.wg.dims.2.2
      (tdBad d og false (gbad d) = true → ∀ i ∈ ([.tcopy p o, .tmcast p o rmask] : List Instr),
        ∃ t, exec i s = .next t ∧ Safety.trapped s m m.pc (Safety.record m 0x0C 0) t) ∧
      (tdBad d og false (gbad d) = false →
        ((¬ ∃ r, region = some r ∧ fits r) → ∃ t, exec (.tcopy p o) s = .next t ∧ Safety.trapped s m m.pc (Safety.record m 0x10 0) t) ∧
        (∀ r, region = some r → fits r → (32 ≤ used → blocked (.tcopy p o)) ∧ (used < 32 → ∃ t g, exec (.tcopy p o) s = .next t ∧
          started t d og (.tcopy o.l.toNat o.slot.toNat) o.ctr [⟨m.sid.wg, r.off + 4096 * o.slot.toNat, slots, 0, []⟩] ∧ t.wgs.find m.sid.wg = some g ∧
          g = { m.wg with landings := m.wg.landings.map (fun q => if q.region = o.l.toNat then
            { q with permits := q.permits.filter (fun z => !slots.contains z), claims := q.claims ++ slots } else q) })) ∧
        ((m.wg.grid = none ∨ rmask = 0 ∨ ∃ j g lin, m.wg.grid = some (g, lin) ∧ j < 16 ∧ rmask.getLsbD j = true ∧ total ≤ lin / 16 * 16 + j) →
          ∃ t, exec (.tmcast p o rmask) s = .next t ∧ Safety.trapped s m m.pc (Safety.record m 0x10 0) t) ∧
        (∀ g lin, m.wg.grid = some (g, lin) → rmask ≠ 0 → (∀ j, j < 16 → rmask.getLsbD j = true → lin / 16 * 16 + j < total) →
          (32 ≤ used → blocked (.tmcast p o rmask)) ∧ (used < 32 → ∃ t, exec (.tmcast p o rmask) s = .next t ∧ t.wgs = s.wgs ∧
            started t d og (.tmcast o.l.toNat o.slot.toNat g (((List.range 16).filter rmask.getLsbD).map (fun j => lin / 16 * 16 + j))) o.ctr [])))) ∧
    (Safety.asks s m [] → Safety.apart m (m.pc + BitVec.ofNat 64 (pfxLen p 8)) →
      let d := desc td
      let og := org sc
      let x := m.st.sGet ss.toNat
      let rows := if odT x then tdCols d else tdRows d
      let cols := if odT x then tdRows d else tdCols d
      let rm := effRM p m.st.mode
      let i : Instr := .tstore p td ss ctr sc
      let sound : Prop := odOk x = true ∧ odHolds x cols = true ∧ (fcBlock (odFmt x) = true → odT x = false ∧ tdRows d ≤ 64) ∧ rm ≠ .rst
      let inside : Bool := (odRanges x rows cols).all m.cmdRange
      (¬ sound → ∃ t, exec i s = .next t ∧ Safety.trapped s m m.pc (Safety.record m 0x01 0) t) ∧
      (sound → tdBad d og true (gbad d) = true → ∃ t, exec i s = .next t ∧ Safety.trapped s m m.pc (Safety.record m 0x0C 0) t) ∧
      (sound → tdBad d og true (gbad d) = false → inside = false → ∃ t, exec i s = .next t ∧ Safety.trapped s m m.pc (Safety.record m 0x05 0) t) ∧
      (sound → tdBad d og true (gbad d) = false → inside = true → (32 ≤ used → blocked i) ∧ (used < 32 → ∃ t, exec i s = .next t ∧ t.wgs = s.wgs ∧
        started t d og (.tstore x rm (effSat p m.st.mode)) ctr []))) ∧
    (Safety.asks s m (xRegs [a]) → Safety.apart m (m.pc + BitVec.ofNat 64 (pfxLen p 4)) →
      let off : Nat := 0x800 + 64 * td.toNat + 8 * word.toNat
      ∃ t c, exec (.tdset p td word a) s = .next t ∧ Safety.left s m (after 4) t ∧ t.wgs = s.wgs ∧ t.accs = s.accs ++ [c] ∧ c.strand = m.sid ∧ c.kind = .store ∧
        c.elems = [⟨TMask.lowest m.em, BitVec.ofNat 64 off, (List.range 8).map (fun b => some (.shared m.sid.wg (off + b))), m.uni 0 a, 0, false⟩])

/-- R274 to R282 for a strand with nothing outstanding: CADD on a slot adds with saturation at once and fires a target reached, on a global counter
it lists the add; CWAIT at or above its value passes a yield point, discarding clean bytes at DEV and SYS scope, and blocks below; CRD delivers the
value; CARM records its target or fires at once, CARM.dis removes it. A release at a wide scope writes dirty bytes back. -/
def Obligations.Counters : Prop :=
  ∀ (s : State) (m : Me) (sc : Scope) (rel sys : Bool) (n : BitVec 6) (gr sv rs d : BitVec 5) (lit : W32), s.me = some m → Safety.quiet s m →
    (∀ x ∈ s.wgs, x.2.task = m.wg.task → x.1 = m.sid.wg) → (∀ a ∈ s.accs, a.id ≠ s.serial) → m.pending = none → (s.core m.sid.wg.core).dirty.wf = true →
    (∀ c, s.ctxs.find m.wg.ctx = some c → c.errors.entries.length < 4096) →
    let core := m.sid.wg.core
    let va := m.st.sGet gr.toNat
    let reg := m.st.sGet sv.toNat
    let long : W64 := lit.signExtend 64
    let wide : Bool := decide (sc = .dev) || decide (sc = .sys)
    let at_ (len : Nat) : W64 := m.pc + BitVec.ofNat 64 len
    let sum (old x : W64) : W64 := BitVec.ofNat 64 (min (old.toNat + x.toNat) (2 ^ 64 - 1))
    let fired (t : State) (act : TargetAct) (by_ : StrandId) (slot : Option (Nat × W64)) (pa : Option Nat) : Prop := match act with
      | .notice => t.out = s.out ++ [.notice (s.notices % 2 ^ 32) (.counter m.wg.ctx slot pa)] ∧ t.emits = s.emits
      | .emit r => t.emits = s.emits ++ [(.wg m.wg.task m.wg.node m.wg.ctx by_, r)] ∧ t.out = s.out
    let page (pa : Nat) : Prop := m.access = true ∧ va.toNat % 8 = 0 ∧ s.failed (.inst m.sid m.f.born) va = false ∧ s.waitsPage (.inst m.sid m.f.born) va = false ∧
      s.counterPage core m.wg.ctx va = (s, .ok pa) ∧ (∀ k, s.watched core k va 8 = false) ∧ (∀ b, b < 8 → Safety.atHand s core .coh (pa + b)) ∧
      Safety.l1Room s core 2
    let on (s t : State) (st : Strand) : Prop := t.strands.find m.sid = some st ∧ Safety.sameBytes s t ∧ ∀ y, y ≠ m.sid → t.strands.find y = s.strands.find y
    let record (code : BitVec 8) : FaultRec := Safety.record m code 0
    (∀ len (g : Instr) (i : Instr) x, (len, g, i, x) ∈ ([(4, .cadd sc rel (.glob gr) sv, .cadd sc rel (.slot n) sv, reg),
        (8, .caddX1 sc rel (.glob gr) lit, .caddX1 sc rel (.slot n) lit, long)] : List (Nat × Instr × Instr × W64)) → Safety.apart m (at_ len) → s.inflight m.sid.wg .sto < 1023 →
      let mem (t : State) : Prop := if rel && wide then Safety.writtenBack s core t else Safety.sameBytes s t
      let new := sum (m.wg.slot n.toNat) x
      let hit := m.wg.targets.find? (fun y => y.slot = n.toNat && decide (y.target.toNat ≤ new.toNat))
      (∃ t h, exec i s = .next t ∧ t.strands.find m.sid = some (Safety.moved m (at_ len)) ∧ mem t ∧ t.wgs.find m.sid.wg = some h ∧
        h.slot n.toNat = new ∧ (∀ o, (o < 0x1000 + 8 * n.toNat ∨ 0x1008 + 8 * n.toNat ≤ o) → h.shared.get o = m.wg.shared.get o) ∧
        h.targets = (if hit.isSome then m.wg.targets.filter (fun y => y.slot ≠ n.toNat) else m.wg.targets) ∧
        { h with shared := m.wg.shared, targets := m.wg.targets } = m.wg ∧ (∀ y, hit = some y → fired t y.act y.strand (some (n.toNat, m.wg.task)) none) ∧
        (∀ c, s.ctxs.find m.wg.ctx = some c → ∃ c', t.ctxs.find m.wg.ctx = some c' ∧ c'.errors.entries.map Prod.snd = c.errors.entries.map Prod.snd ++
          if (m.wg.slot n.toNat).toNat < 2 ^ 64 - 1 ∧ 2 ^ 64 - 1 ≤ (m.wg.slot n.toNat).toNat + x.toNat then [.saturated (some n.toNat) none (some m.wg.task)] else []) ∧
        ∀ y, y ≠ m.sid → t.strands.find y = s.strands.find y) ∧
      (∀ pa, page pa → (s.core core).mend.length < 256 → ∃ t c, exec g s = .next t ∧ t.strands.find m.sid = some (Safety.moved m (at_ len)) ∧ mem t ∧ t.accs = s.accs ++ [c] ∧
        c.strand = m.sid ∧ c.kind = .add ∧ c.path = some .sto ∧ c.elems = [⟨TMask.lowest m.em, va, (List.range 8).map (fun b => some (.phys .coh (pa + b))), x, 0, false⟩] ∧
        t.wgs = s.wgs ∧ ∀ y, y ≠ m.sid → t.strands.find y = s.strands.find y)) ∧
    (∀ len (i : Ctr → Instr) x, (len, i, x) ∈ ([(4, fun c => .cwait sc c sv, reg), (8, fun c => .cwaitX1 sc c lit, long)] : List (Nat × (Ctr → Instr) × W64)) →
      ∀ c v w, (c = .slot n ∧ v = m.wg.slot n.toNat ∧ w = Wait.counter (some n.toNat) 0 x ∨
          ∃ pa, page pa ∧ c = .glob gr ∧ v = s.physWord pa ∧ w = Wait.counter none pa x) →
        (x.toNat ≤ v.toNat → Safety.apart m (at_ len) → ∃ t, exec (i c) s = .next t ∧ Safety.left s m (Safety.gone m (at_ len)) t ∧ Safety.sameWgs s t ∧
          (t.core core).clean = (if wide then [] else (s.core core).clean) ∧ (t.core core).dirty = (s.core core).dirty) ∧
        (v.toNat < x.toNat → ∃ t st, exec (i c) s = .next t ∧ Safety.left s m st t ∧ Safety.sameWgs s t ∧ Safety.latchesZero st ∧
          st.frags[m.fi]? = some { m.f with st := .blocked, wait := some w })) ∧
    (∀ c v, (c = .slot n ∧ v = m.wg.slot n.toNat ∨ ∃ pa, page pa ∧ c = .glob gr ∧ v = s.physWord pa) → Safety.apart m (at_ 4) →
      ∃ t st, exec (.crd sc c d) s = .next t ∧ on s t st ∧ Safety.sameWgs s t ∧ Safety.gotS m d.toNat v m.st.flags 4 st) ∧
    (let bytes := Safety.recordBytes m ((m.st.sGet rs.toNat).extractLsb' 0 32).toNat
     let some_ : Option TargetAct := some .notice
     ∀ len (i : Ctr → Instr) x act, (len, i, x, act) ∈ ([(4, fun c => .carm sys c (.notice sv), reg, some_), (4, fun c => .carm sys c (.emit sv rs), reg, bytes.map .emit),
        (8, fun c => .carmX1 sys c (.notice lit), long, some_), (8, fun c => .carmX1 sys c (.emit lit rs), long, bytes.map .emit)] :
        List (Nat × (Ctr → Instr) × W64 × Option TargetAct)) →
      ∀ c v (armed full : Bool) (slot : Option (Nat × W64)) (pa : Option Nat),
        (c = .slot n ∧ v = m.wg.slot n.toNat ∧ armed = m.wg.targets.any (fun y => y.slot = n.toNat) ∧ full = false ∧ slot = some (n.toNat, m.wg.task) ∧ pa = none ∨
          ∃ a, page a ∧ c = .glob gr ∧ v = s.physWord a ∧ armed = s.targets.any (fun y => y.pa = a) ∧ slot = none ∧ pa = some a ∧
            full = (decide (16384 ≤ s.targets.length) || decide (1024 ≤ (s.targets.filter (fun y => y.ctx = m.wg.ctx)).length))) →
        let read (u : State) : Prop := u.strands = s.strands ∧ u.ctxs = s.ctxs ∧ Safety.sameBytes s u ∧ Safety.sameWgs s u
        (act = none → ∃ t u, exec (i c) s = .next t ∧ read u ∧ Safety.trapped u m m.pc (record 0x05) t) ∧
        ∀ z, act = some z →
          ((armed || full) = true → ∃ t u, exec (i c) s = .next t ∧ read u ∧ Safety.trapped u m m.pc (record 0x0E) t) ∧
          ((armed || full) = false → Safety.apart m (at_ len) → ∃ t, exec (i c) s = .next t ∧ t.strands.find m.sid = some (Safety.moved m (at_ len)) ∧
            Safety.sameBytes s t ∧ (∀ y, y ≠ m.sid → t.strands.find y = s.strands.find y) ∧
            if x.toNat ≤ v.toNat then fired t z m.sid slot pa ∧ Safety.sameWgs s t ∧ t.targets = s.targets
            else t.out = s.out ∧ t.emits = s.emits ∧ match pa with
              | some a => t.targets = s.targets ++ [⟨a, m.wg.ctx, x, z, m.wg.node, m.wg.task, m.sid⟩] ∧ Safety.sameWgs s t
              | none => t.targets = s.targets ∧ t.wgs.find m.sid.wg = some { m.wg with targets := m.wg.targets ++ [⟨n.toNat, x, z, m.sid⟩] })) ∧
    (Safety.apart m (at_ 4) → ∃ t, exec (.carm sys (.slot n) .dis) s = .next t ∧ t.strands.find m.sid = some (Safety.moved m (at_ 4)) ∧ Safety.sameBytes s t ∧
      t.wgs.find m.sid.wg = some { m.wg with targets := m.wg.targets.filter (fun y => y.slot ≠ n.toNat) } ∧ t.out = s.out ∧ t.emits = s.emits) ∧
    (∀ i ∈ ([.cadd sc rel (.glob gr) sv, .caddX1 sc rel (.glob gr) lit, .cwait sc (.glob gr) sv, .cwaitX1 sc (.glob gr) lit, .crd sc (.glob gr) d,
        .carm sys (.glob gr) (.notice sv), .carm sys (.glob gr) .dis, .carmX1 sys (.glob gr) (.emit lit rs)] : List Instr),
      (m.access = false → ∃ t, exec i s = .next t ∧ Safety.trapped s m m.pc (record 0x01) t) ∧
      (m.access = true → va.toNat % 8 ≠ 0 → ∃ t, exec i s = .next t ∧ Safety.trapped s m m.pc (record 0x0D) t) ∧
      ∀ code, m.access = true → va.toNat % 8 = 0 → s.failed (.inst m.sid m.f.born) va = false ∧ s.waitsPage (.inst m.sid m.f.born) va = false → s.counterPage core m.wg.ctx va = (s, .fail code) →
        ∃ t, exec i s = .next t ∧ Safety.trapped s m m.pc (record code.num) t)

/-- R287 to R292: FENCE stalls while an access that it orders is outstanding (FENCE.acq: a load), a queue entry pends or the strand has a
Mend-log entry, and goes on when none is (R131, R132). For a strand with nothing outstanding, BARW arrives and blocks, and the last arrival lets every waiting fragment go on
in a new generation; PHASE.rel writes the core's dirty bytes back and PHASE.acq discards its clean ones; EMIT and LAUNCH write back and deliver a
legal record to its node's cistern, after those of earlier clocks (R308), LAUNCH from the lead execute strand without GRID as a launch of a child; PHINT sets the class. -/
def Obligations.SyncAndWorkGraph : Prop :=
  ∀ (s : State) (m : Me) (sc : Scope) (ff : FenceF) (sys mem : Bool) (r : BitVec 5) (b : BitVec 3) (sl : BarSl), s.me = some m → m.pending = none →
    (s.core m.sid.wg.core).dirty.wf = true →
    let core := m.sid.wg.core
    let quiet := Safety.quiet s m
    let on (t : State) : Prop := t.strands.find m.sid = some (Safety.moved m (m.pc + 4)) ∧ ∀ y, y ≠ m.sid → t.strands.find y = s.strands.find y
    (let waits : Prop := (∃ a ∈ s.covered m, ff = .acq → a.kind.isLoad = true) ∨ m.pendings ≠ [] ∨ s.mends m.sid ≠ []
     (waits → exec (.fence sc ff) s = .next s) ∧
     (¬ waits → Safety.apart m (m.pc + 4) → ∃ t, exec (.fence sc ff) s = .next t ∧ on t ∧ { t with strands := s.strands } = s)) ∧
    (quiet → Safety.apart m (m.pc + 4) →
      (m.access = true → ∃ t, exec (.phaseRel sys) s = .next t ∧ on t ∧ Safety.writtenBack s core t ∧ (t.core core).dirty = [] ∧ t.wgs = s.wgs) ∧
      (m.access = true → ∃ t, exec (.phaseAcq sys) s = .next t ∧ on t ∧ Safety.sameBytes s t ∧ t.wgs = s.wgs ∧
        t.core core = { s.core core with clean := [], l1 := (s.core core).l1.filter (fun k => k.2 || (s.core core).dirty.any (fun p => p.1 / 256 = k.1)) })) ∧
    (m.access = false → ∀ i ∈ ([.phaseRel sys, .phaseAcq sys] : List Instr), ∃ t, exec i s = .next t ∧ Safety.trapped s m m.pc (Safety.record m 0x01 0) t) ∧
    (Safety.apart m (m.pc + 4) → ∃ t, exec (.phint mem) s = .next t ∧ on t ∧ Safety.sameBytes s t ∧ t.wgs.find m.sid.wg = some { m.wg with memClass := mem }) ∧
    (let bar := m.wg.barriers.findD b.toNat ⟨none, [], 0⟩
     let me := (m.sid.slice, m.sid.idx)
     let named : Bool := match sl, m.sid.slice with | .access, .access => true | .execute, .execute => true | .both, _ => true | _, _ => false
     let arrived := if bar.arrived.contains me then bar.arrived else bar.arrived ++ [me]
     let count : Nat := match sl with
       | .access => (s.live m.sid.wg .access).length
       | .execute => (s.live m.sid.wg .execute).length
       | .both => (s.live m.sid.wg .access).length + (s.live m.sid.wg .execute).length
     let i : Instr := .barw b sl
     ((named = false ∨ ∃ x, bar.sl = some x ∧ x ≠ sl) → ∃ t, exec i s = .next t ∧ Safety.trapped s m m.pc (Safety.record m 0x01 0) t) ∧
     (named = true → (bar.sl = none ∨ bar.sl = some sl) → quiet → (m.wg.barriers.map Prod.fst).Nodup → (s.strands.map Prod.fst).Nodup →
        (∀ x ∈ m.wg.barriers, x.1 ≠ b.toNat → x.2.arrived = []) →
       (arrived.length < count → ∃ t st, exec i s = .next t ∧ Safety.left s m st t ∧ Safety.latchesZero st ∧
         st.frags[m.fi]? = some { m.f with st := .blocked, wait := some (.barrier b.toNat bar.gen) } ∧ (∀ j, j ≠ m.fi → st.frags[j]? = m.st.frags[j]?) ∧
         t.wgs.find m.sid.wg = some { m.wg with barriers := m.wg.barriers.put b.toNat ⟨some sl, arrived, bar.gen⟩ }) ∧
       (count ≤ arrived.length → (∀ j f, j ≠ m.fi → m.st.frags[j]? = some f → f.wait ≠ some (.barrier b.toNat bar.gen)) → Safety.apart m (m.pc + 4) →
         ∃ t g, exec i s = .next t ∧ t.strands.find m.sid = some (Safety.gone m (m.pc + 4)) ∧ Safety.sameBytes s t ∧ t.wgs.find m.sid.wg = some g ∧
         { g with barriers := m.wg.barriers } = m.wg ∧ g.barriers.find b.toNat = some ⟨none, [], bar.gen + 1⟩ ∧
         ∀ x, x ≠ m.sid → t.strands.find x = if x.wg = m.sid.wg then (s.strands.find x).map (fun y => y.passBarrier b.toNat bar.gen) else s.strands.find x))) ∧
    (let bytes := Safety.recordBytes m ((m.st.sGet r.toNat).extractLsb' 0 32).toNat
     let lead : Prop := m.access = false ∧ m.sid.idx = 0 ∧ m.wg.depth < 10
     (m.access = true → ∃ t, exec (.launch r) s = .next t ∧ Safety.trapped s m m.pc (Safety.record m 0x01 0) t) ∧
     (m.access = false → m.sid.idx ≠ 0 → ∃ t, exec (.launch r) s = .next t ∧ Safety.trapped s m m.pc (Safety.record m 0x07 0) t) ∧
     (m.access = false → m.sid.idx = 0 → 10 ≤ m.wg.depth → ∃ t, exec (.launch r) s = .next t ∧ Safety.trapped s m m.pc (Safety.record m 0x09 0) t) ∧
     (quiet → bytes = none → (∃ t, exec (.emit r) s = .next t ∧ Safety.trapped s m m.pc (Safety.record m 0x05 0) t) ∧
       (lead → ∃ t, exec (.launch r) s = .next t ∧ Safety.trapped s m m.pc (Safety.record m 0x05 0) t)) ∧
     let src : RecSrc := .wg m.wg.task m.wg.node m.wg.ctx m.sid
     ∀ bs n, quiet → Safety.apart m (m.pc + 4) → bytes = some bs → s.recordBad src bs = false → (∀ x ∈ n.records, x.at_ < s.clock) →
       let h := w64OfBytes (bs.take 8)
       let to_ := (h.extractLsb' 0 12).toNat
       s.nodes.find to_ = some n → s.recordRoom bs.length = true →
       (∃ t n', exec (.emit r) s = .next t ∧ on t ∧ Safety.writtenBack s core t ∧ t.wgs = s.wgs ∧ t.nodes.find to_ = some n' ∧
         n'.records = n.records ++ [⟨s.serial, bs, src, s.clock, 0, none⟩] ∧ { n' with records := n.records, timerFrom := n.timerFrom } = n) ∧
       (lead → m.wg.childGrids < 256 → (∀ x ∈ s.wgs, x.2.task = m.wg.task → x = (m.sid.wg, m.wg)) →
         ∃ t n', exec (.launch r) s = .next t ∧ on t ∧ Safety.writtenBack s core t ∧ t.nodes.find to_ = some n' ∧
           t.wgs.find m.sid.wg = some { m.wg with children := m.wg.children + 1, childGrids := m.wg.childGrids + 1 } ∧
           if h.getLsbD 21 = true then t.launched = s.launched ∧ { n' with records := n.records, timerFrom := n.timerFrom } = n ∧
             n'.records = n.records ++ [⟨s.serial, bs, src, s.clock, m.wg.depth + 1, some m.wg.task⟩]
           else n' = { n with nextSeq := (n.nextSeq + 1) % 2 ^ 32 } ∧
             t.launched.find s.serial = some ⟨to_, n.nextSeq, [bs], m.wg.depth + 1, some m.wg.task, .free⟩))

/-- R293 to R296: by the issuer, FBWR, FBRD and FBRED list a transfer with its operands and pass a yield point, one of length 0 does nothing, and a
65th of the workgroup blocks; a non-issuer traps as ISSUE_RIGHTS, and misaligned operands of FBRED as ILLEGAL. UEGET reserves its entries in the
channel and lists a transfer of 32 bytes for each. A length above 2^36 trapping as BOUNDS for FBWR and FBRD is the model's reading (log 25). -/
def Obligations.FabricInstructions : Prop :=
  ∀ (s : State) (m : Me) (sb : BitVec 5) (op : FOp) (ty : RedTy) (q : BitVec 4) (qu : Queue), s.me = some m → m.pending = none → m.f.rc = 0 →
    let reg (k : Nat) : W64 := m.st.sGet (sb.toNat + k)
    let len := (reg 3).toNat
    let esize : Nat := match ty with | .fp32 => 4 | .int32 => 4 | .bf16 => 2 | .fp16 => 2
    let odd : Prop := (reg 1).toNat % esize ≠ 0 ∨ (reg 2).toNat % esize ≠ 0 ∨ len % esize ≠ 0 ∨ (reg 0).extractLsb' 44 20 ≠ 0
    (∀ i kind legal most, (i, kind, legal, most) ∈ ([(.fbwr sb, .write (reg 0).toNat, True, 2 ^ 36), (.fbrd sb, .read (reg 0).toNat, True, 2 ^ 36),
        (.fbred sb op ty, .reduce ((reg 0).extractLsb' 0 12).toNat ((reg 0).extractLsb' 12 32).toNat op ty, ¬ odd, 2 ^ 24)] :
        List (Instr × XferKind × Prop × Nat)) →
      let own := (s.fabric.xfers.filter (fun x => decide (x.task = m.wg.task) && !x.stopped)).length
      (m.access = false → ∃ t, exec i s = .next t ∧ Safety.trapped s m m.pc (Safety.record m 0x01 0) t) ∧
      (m.access = true → m.sid.idx ≠ m.wg.issuer → ∃ t, exec i s = .next t ∧ Safety.trapped s m m.pc (Safety.record m 0x07 0) t) ∧
      (m.access = true → m.sid.idx = m.wg.issuer →
        (¬ legal → ∃ t, exec i s = .next t ∧ Safety.trapped s m m.pc (Safety.record m 0x01 0) t) ∧
        (legal → most < len → ∃ t, exec i s = .next t ∧ Safety.trapped s m m.pc (Safety.record m 0x05 0) t) ∧
        (legal → len ≤ most → 64 ≤ own → ∃ t st, exec i s = .next t ∧ Safety.yielded s m st t ∧
          st.frags[m.fi]? = some { m.f with st := .blocked, wait := some (.engine .fabric) }) ∧
        (legal → len ≤ most → own < 64 → Safety.apart m (m.pc + 4) → ∃ t, exec i s = .next t ∧ Safety.left s m (Safety.gone m (m.pc + 4)) t ∧ t.wgs = s.wgs ∧
          t.fabric = { s.fabric with xfers := s.fabric.xfers ++ if len = 0 then [] else
            [⟨s.serial, m.wg.task, m.wg.ctx, m.sid, m.pc, kind, reg 1, reg 2, len, reg 4, 0, 0, false, s.priorIds m, []⟩] }))) ∧
    (let i : Instr := .ueget sb q
     let n := (reg 2).toNat
     let h := reg 0
     let ep := (h.extractLsb' 0 10).toNat
     let sound : Prop := h.extractLsb' 14 50 = 0 ∧ (h.extractLsb' 10 4).toNat ≤ 8 ∧ s.endpoint m.wg.ctx ep = true ∧ 0 < n ∧ n ≤ 4096
     let c := qu.channel m.sid.idx
     (m.access = false → ∃ t, exec i s = .next t ∧ Safety.trapped s m m.pc (Safety.record m 0x01 0) t) ∧
     (m.access = true → m.queue q.toNat = some qu →
       (qu.decl.kind.producer = .execute → ∃ t, exec i s = .next t ∧ Safety.trapped s m m.pc (Safety.record m 0x0F 0) t) ∧
       (qu.decl.kind.producer = .access → ¬ sound → ∃ t, exec i s = .next t ∧ Safety.trapped s m m.pc (Safety.record m 0x05 0) t) ∧
       (qu.decl.kind.producer = .access → sound → n ≤ qu.room c → c < qu.chans.length → (qu.decl.bcast = true → qu.chans.length = 1) →
         (∀ u ∈ s.ueGets, u.strand ≠ m.sid ∧ u.id ≠ s.serial) → Safety.apart m (m.pc + 4) →
         ∃ t es u, exec i s = .next t ∧ Safety.left s m (Safety.gone m (m.pc + 4)) t ∧ Safety.appended s m q.toNat qu c es t ∧ es.length = n ∧
           (∀ e ∈ es, ∃ w, e.pend = some w ∧ w.ue = true ∧ w.strand = m.sid ∧ w.pc = m.pc) ∧ t.ueGets = s.ueGets ++ [u] ∧ u.task = m.wg.task ∧ u.ep = ep ∧
           u.count = n ∧ u.made = n ∧ u.ctr = reg 3 ∧ ((h.extractLsb' 10 4).toNat < 8 → u.port = (h.extractLsb' 10 4).toNat) ∧
           u.left = (List.range n).map (fun k => ((es[k]?).elim 0 QEntry.id, reg 1 + BitVec.ofNat 64 (32 * k))))))

/-- R340, R117, R98, R341, R99, R343 and R342, event by event where it is enabled: a walk's entry reaches both TLBs; the group of a channel's oldest
miss is served, its sectors filled, unless the channel is quiesced; a block enters the tier cache and every byte reads as before; a page completion releases or fails what joined; a prefetched page whose bytes are at
hand, or that is skipped, is counted; INV removes the translations it names; SYNC lists what it waits for, and is acknowledged when that is over. -/
def Obligations.MemoryEvents : Prop :=
  ∀ (s : State),
    (∀ id w, s.walks.find? (fun x => x.id = id) = some w → ∃ t, exec (.walkComplete id) s = .next t ∧ t.walks = s.walks.filter (fun x => x.id ≠ id) ∧
      Safety.sameBytes s t ∧ t.strands = s.strands ∧ t.wgs = s.wgs ∧ (w.cache = true → w.entry ∈ (t.core w.core).tlb ∧
        ∃ l, t.sharedTlb.find (w.core / 14) = some l ∧ w.entry ∈ l) ∧ (w.cache = false → t.cores = s.cores ∧ t.sharedTlb = s.sharedTlb)) ∧
    (∀ ch o l, (s.reads.filter (fun x => channelOf (256 * x.line) = ch)).take 256 = o :: l → s.domWaits (.channel ch) = false →
      let group := (o :: l).filter (fun x => x.core = o.core && x.slot = o.slot)
      ∃ t c, exec (.channelGroupSelect ch) s = .next t ∧ t.channels.find ch = some c ∧ c.group = some (o.core, o.slot) ∧
        (∀ k, k ≠ ch → t.channels.find k = s.channels.find k) ∧ { t with channels := s.channels, reads := s.reads, l2 := s.l2 } = s ∧ Safety.sameBytes s t ∧
        t.reads = s.reads.filter (fun x => !group.contains x) ∧
        ∀ x, group = [x] → ∀ i, i < 4 → x.sectors.getLsbD i = true → t.l2Has none (256 * x.line + 64 * i) = true) ∧
    (∀ ch, s.domWaits (.channel ch) = true → exec (.channelGroupSelect ch) s = .next s) ∧
    (∀ port block, s.plat.tierGib ≠ 0 → (∀ a, inBlock port block a = true → s.isTier a = true) → s.portDead port = false → port < 16 → block < 2 ^ 24 →
      s.tierHeld (2 ^ 44 + port * 2 ^ 40 + block * 2 ^ 16) = false → s.tierCache.length < s.plat.tierSize * 2 ^ 14 → s.tier.wf = true →
      (∀ a, inBlock port block a = true → s.mem.get a = 0) → ∃ t, exec (.tierFill port block) s = .next t ∧
      t.tierCache = s.tierCache ++ [(port, block, false)] ∧ Safety.sameBytes s t ∧ { t with mem := s.mem, tierCache := s.tierCache } = s) ∧
    (∀ num ok r, s.pageReqs.find? (fun x => x.num = num) = some r → s.mendsOf r.asid r.vpage = [] → (∀ j ∈ r.joined, ∀ id, j ≠ .entry id) →
      ∃ t, exec (.pageDone num ok) s = .next t ∧ t.pageReqs = s.pageReqs.filter (fun x => x.num ≠ num) ∧
      t.fails = s.fails ++ (if r.withdrawn || ok then [] else r.joined.map (fun j => (j, r.vpage))) ∧ { t with pageReqs := s.pageReqs, fails := s.fails } = s) ∧
    (∀ id page f w g l, s.prefetches.find? (fun x => x.id = id) = some f → f.va / 4096 ≤ page → page * 4096 < f.va + f.len → page ∉ f.done →
      let va := BitVec.ofNat 64 (page * 4096)
      (∀ x ∈ s.prefetches, x.id = id → x = f) → (2 ^ 52 ≤ page ∨ s.translate f.core f.ctx va = (s, l) ∧ l ≠ .busy ∧
        ∀ x, l = .ok x → x.r = false ∨ x.attr = .dev ∨ (x.dev = none ∧ s.own f.ctx (x.pa va) ≠ .ok) ∨
          (x.dev = none ∧ ∀ k, k < 4096 → Safety.atHand s f.core x.attr (x.pa (va + BitVec.ofNat 64 k)))) → Safety.resident s w g → g.task = f.task →
      ∃ t g', exec (.prefetchPageDone id page) s = .next t ∧ t.wgs.find w = some g' ∧ Safety.sameBytes s t ∧
        Safety.added g f.ctr (min (page * 4096 + 4096) (f.va + f.len) - max (page * 4096) f.va) g' ∧
        t.prefetches = s.prefetches.filterMap (fun x => if x.id = id then
          (if (f.va + f.len + 4095) / 4096 - f.va / 4096 ≤ f.done.length + 1 then none else some { f with done := f.done ++ [page] }) else some x)) ∧
    (∀ asid range, ∃ t, exec (.inv asid range) s = .next t ∧ Safety.sameBytes s t ∧ t.strands = s.strands ∧ t.wgs = s.wgs ∧
      let hit (e : Tlb) : Prop := e.asid = asid ∧ ∀ vp n, range = some (vp, n) →
        e.vpn * 2 ^ (e.size - 12) % 2 ^ 45 < vp + n ∧ vp < e.vpn * 2 ^ (e.size - 12) % 2 ^ 45 + 2 ^ (e.size - 12)
      (∀ c e, e ∈ (t.core c).tlb ↔ e ∈ (s.core c).tlb ∧ ¬ hit e) ∧ (∀ u e, e ∈ t.sharedTlb.findD u [] ↔ e ∈ s.sharedTlb.findD u [] ∧ ¬ hit e) ∧
      (∀ u e, e ∈ t.walkCache.findD u [] ↔ e ∈ s.walkCache.findD u [] ∧ ¬ hit e) ∧
      ∀ w ∈ t.walks, w.cache = true → ¬ hit w.entry) ∧
    (∀ tag, ∃ t q, exec (.sync tag) s = .next t ∧ t.syncs = s.syncs ++ [q] ∧ { t with syncs := s.syncs } = s ∧ q.tag = tag ∧ q.walks = s.walks.map Walk.id ∧
      ∀ a ∈ s.accs, a.over = false → a.id ∈ q.waits) ∧
    (∀ q qs, s.syncs = q :: qs →
      ((∀ a ∈ s.accs, a.id ∈ q.waits → a.over = true) → (∀ id ∈ q.waits, s.pendEntry id = none) → (∀ w ∈ s.walks, w.id ∉ q.walks) →
        ∃ t, exec .syncAck s = .next t ∧ t.syncs = qs ∧ t.out = s.out ++ [.syncAck q.tag] ∧ { t with syncs := s.syncs, out := s.out } = s) ∧
      ((∃ a ∈ s.accs, a.id ∈ q.waits ∧ a.over = false) → exec .syncAck s = .next s))

/-- R239 to R257 and R265 to R272, event by event where it is enabled: the engine's step changes its tile's 4,096 elements as MZERO, MSCL or MLOOP say
and no memory; a complete command leaves the queue and adds 1; a piece puts its landing's bytes into the receiver's shared memory; a whole
landing consumes its claims and adds its bytes; a multicast claims every receiver's permits at once; a store adds the bytes that it wrote. -/
def Obligations.EngineEvents : Prop :=
  ∀ (s : State),
    (∀ core e g, s.nextCmd core = some e → s.wgs.find e.wg = some g → s.ready e.wg e.deps = true → e.done = 0 → e.wrecks = [] → 0 < e.left →
      ((s.core core).mqueue.any (fun x => x.running && x.left = 0)) = false → 2 ≤ g.acc →
      (∀ tile ty d rm sat relu, e.cmd = .drain tile ty d rm sat relu true → (g.msteps.findD tile (0, none)).2 = none) → (∀ x ∈ (s.core core).mqueue, x.id = e.id → x = e) →
      ∃ t g', exec (.matrixCommandExecute core 1) s = .next t ∧ t.wgs.find e.wg = some g' ∧ (∀ x, x ≠ e.wg → t.wgs.find x = s.wgs.find x) ∧ t.strands = s.strands ∧
        Safety.sameBytes s t ∧ (∀ st, (s.core core).mqueue.find? (fun x => x.id = e.id) = some st →
          ∃ u, (t.core core).mqueue.find? (fun x => x.id = e.id) = some u ∧ u = { e with running := true, done := 1, left := e.left - 1, mute := u.mute }) ∧
        (∀ tile ty red, e.cmd = .zero tile ty red → g' = { g with tiles := g'.tiles, msteps := g'.msteps } ∧
          (∀ i, (g'.tile tile).get i = 0) ∧ ∀ j, j ≠ tile → (red = true → j ≠ tile + g.acc / 2) → ∀ i, (g'.tile j).get i = (g.tile j).get i) ∧
        (∀ tile by_ red, e.cmd = .scale tile by_ red → g' = { g with tiles := g'.tiles } ∧ ∀ i, i < 4096 → ((g'.tile tile).get i).toNat =
          (fusedSum .f32 (.plain .rne) true [(Fmt.f32.decode (((g.tile tile).get i).toNat % 2 ^ 32), Fmt.f32.decode by_.toNat)] []).code) ∧
        (e.cmd = .cfg → g' = g) ∧
        (∀ tile a b n accum ai bi geo arm red k ty, e.cmd = .loop tile a b n accum ai bi geo arm red → pairing (odFmt a) (odFmt b) = some (k, ty) →
          let left := s.operand e.wg e a k ai (geo.map Geo.ofWord) 0
          let top := s.operand e.wg e b k bi none 0
          (∀ x ∈ left ++ top, x.2 = false) → ∀ i, i < 4096 → (g'.tile tile).get i =
            stepElem ty arm ((left[i / 64]?).elim [] Prod.fst) ((top[i % 64]?).elim [] Prod.fst) (if accum then (g.tile tile).get i else 0)) ∧
        (∀ tile ty d rm sat relu sh, e.cmd = .drain tile ty d rm sat relu sh → g'.tiles = g.tiles ∧ g' = { g with shared := g'.shared })) ∧
    (∀ core e g, (s.core core).mqueue.find? (fun x => x.running && x.left = 0) = some e → Safety.resident s e.wg g → e.mute = false →
      ∃ t g', exec (.matrixCommandComplete core) s = .next t ∧ (t.core core).mqueue = (s.core core).mqueue.filter (fun x => x.id ≠ e.id) ∧
        t.wgs.find e.wg = some g' ∧ Safety.added g e.ctr 1 g' ∧ Safety.sameBytes s t ∧ t.strands = s.strands) ∧
    (∀ unit c d region slot g, (s.takeSlots unit).nextPiece unit = some c → c.kind = .tcopy region slot → c.dlv = [d] → d.taint = [] → d.wg = c.wg →
      s.wgs.find c.wg = some g → (s.core c.core).watches = [] → c.done < landBytes c.td → (∀ x ∈ (s.takeSlots unit).copies, x.id = c.id → x = c) →
      let n := min 256 (landBytes c.td - c.done)
      ∀ (byte : Nat → Byte) (from_ : Nat → List (W64 × Nat)), (∀ k, k < n → (s.takeSlots unit).landByte c (c.done + k) = .ok (s.takeSlots unit) (byte k, from_ k)) →
      let at_ (k : Nat) : Nat := if c.done + k < landData c.td then swz (d.base + c.done + k) else d.base + c.done + k
      (∀ j k, j < n → k < n → at_ j = at_ k → j = k) →
      ∃ t g', exec (.copyPiece unit) s = .next t ∧ t.wgs.find c.wg = some g' ∧ Safety.sameBytes s t ∧ (∀ k, k < n → g'.shared.get (at_ k) = byte k) ∧
        (∀ o, (∀ k, k < n → o ≠ at_ k) → g'.shared.get o = g.shared.get o) ∧ { c with done := c.done + n, dlv := [{ d with done := c.done + n }] } ∈ t.copies) ∧
    (∀ id rcv c d g, s.copies.find? (fun x => x.id = id) = some c → (∀ x ∈ s.copies, x.id = id → x = c) → (∀ a b f, c.kind ≠ .tstore a b f) → c.dlv[rcv]? = some d →
      landBytes c.td ≤ c.done → Safety.resident s d.wg g → ∃ t g', exec (.tcopyLanded id rcv) s = .next t ∧ t.wgs.find d.wg = some g' ∧
        Safety.added g c.ctr (landBytes c.td) g' ∧ Safety.sameBytes s t ∧
        g'.landings = g.landings.map (fun r => if r.off ≤ d.base ∧ d.base < r.off + 4096 * r.count then { r with claims := r.claims.filter (fun k => !d.slots.contains k) } else r) ∧
        if c.dlv.length = 1 then (∀ x ∈ t.copies, x.id ≠ id) ∧ (t.core c.core).copies = (s.core c.core).copies - 1
        else { c with dlv := c.dlv.eraseIdx rcv } ∈ t.copies ∧ t.cores = s.cores) ∧
    (∀ id c region slot grid r w g d, s.copies.find? (fun x => x.id = id) = some c → (∀ x ∈ s.copies, x.id = id → x = c) → c.kind = .tmcast region slot grid [r] →
      c.dlv = [] → c.done = 0 → s.memberGone grid r = false → s.memberOf grid r = some (w, g) → s.wgs.find w = some g → g.delivery w region slot (landSlots c.td) = some d →
      ∃ t g', exec (.tmcastDeliveryStart id) s = .next t ∧ { c with dlv := [d] } ∈ t.copies ∧ t.wgs.find w = some g' ∧ Safety.sameBytes s t ∧
        g' = { g with landings := g'.landings } ∧ ∀ q ∈ g'.landings, q.region = region → ∀ k ∈ d.slots, k ∉ q.permits ∧ k ∈ q.claims) ∧
    (∀ id c a rm sat g, s.copies.find? (fun x => x.id = id) = some c → c.kind = .tstore a rm sat → tdRows c.td * tdCols c.td ≤ c.done → c.wrote < 2 ^ 64 → Safety.resident s c.wg g →
      ∃ t g', exec (.tstoreComplete id) s = .next t ∧ (∀ x ∈ t.copies, x.id ≠ id) ∧ (t.core c.core).copies = (s.core c.core).copies - 1 ∧
        t.wgs.find c.wg = some g' ∧ Safety.added g c.ctr c.wrote g' ∧ Safety.sameBytes s t)

/-- R303 to R323, R333 and R392, event by event where it is enabled: a cistern's oldest records become one launched workgroup; a grid record becomes a
grid with the members that have no predecessor released, a malformed one an error; admission places a workgroup whose strands stand at the
entries with zero registers; retirement writes back, sets the scoreboard bit and frees the place; and so on. -/
def Obligations.SchedulingEvents : Prop :=
  ∀ (s : State),
    (let launches (node : Nat) (k : Node) (n : Nat) (t : State) : Prop :=
      t.launched.find s.serial = some ⟨node, k.nextSeq, (k.loose.take n).map Rec.bytes, 0, none, .free⟩ ∧ Safety.sameBytes s t ∧ t.wgs = s.wgs ∧
      ∃ k', t.nodes.find node = some k' ∧ k'.nextSeq = (k.nextSeq + 1) % 2 ^ 32 ∧ k'.loose = k.loose.drop n ∧
        k'.records.filter (fun r => hdrGrid (recHeader r.bytes)) = k.records.filter (fun r => hdrGrid (recHeader r.bytes)) ∧
        k'.timerFrom = if (k.loose.drop n).isEmpty || k.timer = 0 then none else some s.clock
     ∀ node k, s.nodes.find node = some k → (s.launched.find s.serial).isNone = true →
      (0 < k.recCount → k.recCount ≤ k.loose.length → ∃ t, exec (.cisternCountLaunch node) s = .next t ∧ launches node k k.recCount t) ∧
      (∀ at_, k.timerFrom = some at_ → k.timer ≠ 0 → at_ + 64 * k.timer ≤ s.clock → k.loose ≠ [] → k.loose.length < k.recCount →
        ∃ t, exec (.cisternTimerLaunch node) s = .next t ∧ launches node k k.loose.length t)) ∧
    (∀ node k r, s.nodes.find node = some k → k.records.find? (fun r => hdrGrid (recHeader r.bytes)) = some r → r.parent = none →
      (∀ a, gridAsk k r.bytes = some a → a.deps.all (depOk a.order) = true → a.place = 0 →
        ∃ t g k', exec (.gridExpand node) s = .next t ∧ t.grids.find s.serial = some g ∧ Safety.sameBytes s t ∧ t.nodes.find node = some k' ∧
        k'.records = k.records.erase r ∧ k'.nextSeq = (k.nextSeq + a.dims.1 * a.dims.2.1 * a.dims.2.2) % 2 ^ 32 ∧ g.first = k.nextSeq ∧ g.node = node ∧
        g.record = r.bytes ∧ g.dims = a.dims ∧ g.order = a.order ∧ g.deps = a.deps ∧ g.retired = [] ∧ g.admitted = [] ∧
        ∀ l, l ∈ g.released ↔ l < a.dims.1 * a.dims.2.1 * a.dims.2.2 ∧ ∀ v ∈ a.deps, predOf a.order a.dims l v = none) ∧
      (∀ w, gridAsk k r.bytes = none → r.src = .host w → ∃ t k' p, exec (.gridExpand node) s = .next t ∧ t.grids = s.grids ∧
        t.nodes.find node = some k' ∧ k'.records = k.records.erase r ∧ t.wins.find w = some p ∧ p.errors = (s.wins.findD w ⟨0, false⟩).errors + 1)) ∧
    (∀ id node core n l, s.turn = some node → s.offers.contains (.launched id, node) = true → s.fits (.launched id, node) core = true →
      s.nodes.find node = some n → s.launched.find id = some l →
      let w : WgId := ⟨core, s.freeSlot core⟩
      (∀ x ∈ s.strands, x.1.wg ≠ w) →
      ∃ t g, exec (.admitWg (.launched id) core) s = .next t ∧ t.launched = s.launched.erase id ∧ t.wgs.find w = some g ∧ (∀ a, Safety.backed s core t a) ∧
        (t.core core).clean = [] ∧ { g with maxActive := 0 } = n.workgroup node core ⟨l.seq, l.records, none, (1, 1, 1), (0, 0, 0), l.depth, l.parent, false⟩ ∧
        (∀ i, i < n.na → ∃ lane slot, t.strands.find ⟨w, .access, i⟩ = some (startStrand .access (n.word 0) lane slot false)) ∧
        ∀ i, i < n.ne → ∃ lane slot parked, t.strands.find ⟨w, .execute, i⟩ = some (startStrand .execute (n.word 1) lane slot parked) ∧ (i = 0 → parked = false)) ∧
    (∀ w g, s.wgs.find w = some g → s.quiet w g = true → s.stopDue g = false → g.children = 0 → (s.core w.core).dirty.wf = true →
      ∃ t, exec (.retire w) s = .next t ∧ t.wgs.find w = none ∧ (∀ x ∈ t.strands, x.1.wg ≠ w) ∧ Safety.writtenBack s w.core t ∧
        ∀ id l r, g.grid = some (id, l) → s.grids.find id = some r → r.cancelled = false → r.ended + 1 < r.total →
          ∃ r', t.grids.find id = some r' ∧ r'.retired = r.retired ++ [l] ∧ r'.ended = r.ended + 1 ∧ (∀ x ∈ r.released, x ∈ r'.released) ∧
            ∀ x ∈ r'.released, x ∈ r.released ∨ r'.free x = true) ∧
    (∀ core x c, (s.core core).ctx = some x → s.ctxs.find x = some c → 65536 ≤ (s.core core).l1count →
      let k := s.core core
      let rs := s.residents core
      let share := 4096 * max 1 (rs.foldl (fun a p => max a p.2.lper) 0)
      let limit := s.l1Size core 0 * c.over / 16 - rs.foldl (fun a p => max a p.2.minLease) 0
      ∃ t, exec (.victimWindow core) s = .next t ∧ Safety.sameBytes s t ∧ (t.core core).victimHits = 0 ∧ (t.core core).l1count = k.l1count - 65536 ∧
        (t.core core).throttle = if c.vth < k.victimHits then max k.throttle (min (k.throttle + share) limit)
          else if k.victimHits = 0 then k.throttle - share else k.throttle) ∧
    (s.lastWeir + 4096 ≤ s.clock → let s1 : State := { s with lastWeir := s.clock, weirCount := s.weirCount + 1 }
      (∃ t, exec .weirEvaluate s = .next t ∧ t.lastWeir = s.clock ∧ t.weirCount = s.weirCount + 1 ∧ t.wgs = s.wgs ∧ t.strands = s.strands ∧ Safety.sameBytes s t) ∧
      ∀ x c d e core, s.ctxs.filter (fun c => c.2.state = .active) = [(x, c)] →
        let stages := s.nodes.filter (fun p => p.2.role && p.2.ctx = x)
        let cores (n : Nat) : Nat := ((List.range 224).filter (fun c => (s.core c).stage = some n)).length
        largest ((stages.filter (fun p => decide (p.2.minCores < cores p.1) && !(s1.movable p.1).isEmpty)).map (fun p => (p.1, p.2.low - s.occupancy p.1))) = some d →
        largest (stages.map (fun p => (p.1, s.occupancy p.1 - p.2.high))) = some e → (s1.movable d.1).head? = some core →
        ∃ t, exec .weirEvaluate s = .next t ∧ (t.core core).stage = some e.1 ∧ ∀ k, k ≠ core → t.core k = s.core k) ∧
    (∀ i g st at_, s.wgs.find i.wg = some g → s.strands.find i = some st → s.savingFrom i.wg g = some at_ → st.exited = false → st.stopped = false →
      at_ + 16384 ≤ s.clock → ∃ t, exec (.preemptForceStop i) s = .next t ∧ t.strands.find i = some { st with stopped := true } ∧
        ((t.laneOf i).cur.map Prod.fst ≠ some i) ∧ (∀ x, x ≠ i → t.strands.find x = s.strands.find x) ∧ t.wgs = s.wgs ∧ Safety.sameBytes s t) ∧
    (∀ ctx c, s.ctxs.find ctx = some c → c.state = .saving → (∀ p ∈ s.wgs, p.2.ctx = ctx → s.canStore p.1 = true) →
      ∃ t c' ok, exec (.saveComplete ctx) s = .next t ∧ t.ctxs.find ctx = some c' ∧ c'.state = .saved ∧ (∀ p ∈ t.wgs, p.2.ctx ≠ ctx) ∧
        (∃ k, t.out.getLast? = some (.notice k (.saved ctx c.part ok)) ∧ (ok = true → k = s.notices % 2 ^ 32)) ∧ (∀ k ∈ c.part, (t.core k).ctx = none) ∧
        (ok = false → c'.saved = [] ∧ c'.errors.entries.getLast?.map Prod.snd = some .failedSave) ∧
        (ok = true → c'.saved.map (fun v => (v.from_, v.wg)) = c.saved.map (fun v => (v.from_, v.wg)) ++
          (s.wgs.filter (fun p => p.2.ctx = ctx)).map (fun p => (p.1, { p.2 with feq := [] })))) ∧
    (∀ num n tag d, s.nodes.find num = some n → n.closing = some (tag, d) → s.drained num n = true → tag < 2 ^ 16 → Cmd.release [] s.cmds = (s.cmds, []) →
      ∃ t, exec (.nodeDrained num) s = .next t ∧ t.nodes.find num = d.map (fun x => Node.fresh x n.ctx) ∧ { t with nodes := s.nodes, out := s.out, cmds := s.cmds } = s ∧
        ∀ a b, s.cmds = a ++ ⟨n.ctx, tag, none⟩ :: b → (∀ k ∈ a, k.tag ≠ tag) → (∀ k ∈ b, k.ctx ≠ n.ctx) →
          if ∃ k ∈ a, k.ctx = n.ctx ∧ k.reply = none then t.out = s.out ∧ t.cmds = a ++ ⟨n.ctx, tag, some (.complete tag 0 0 0 [])⟩ :: b
          else t.out = s.out ++ [.complete tag 0 0 0 []] ∧ t.cmds = a ++ b) ∧
    (∀ w g, s.wgs.find w = some g → s.stopDue g = true → g.hold = .free → s.quiet w g = true →
      ∃ t, exec (.debugStopHalt (.afterTask w)) s = .next t ∧ t.wgs.find w = some { g with hold := .halted } ∧
        t.dbg.entries.getLast?.map Prod.snd = some (.stopped g.task) ∧ { t with wgs := s.wgs, dbg := s.dbg } = s) ∧
    (∀ id l n, s.launched.find id = some l → s.nodes.find l.node = some n → n.stopSet = true → l.hold = .free →
      ∃ t, exec (.debugStopHalt (.beforeTask id)) s = .next t ∧ t.launched.find id = some { l with hold := .halted } ∧
        { t with launched := s.launched, dbg := s.dbg } = s)

/-- R371, R372, R303, R304, R333, R337, R374, R344, R370, R388, R392 and R396, with R332, R367, R377, R385, R397 to R399 and R402, event by event on
a device that is READY and not IDLE: a context is created, granules are assigned, a node is registered, and so on, and the command completes as
done, or waits as the rule says; before READY every command but ATTEST is refused with DETAIL 1; a command finds an IDLE device ACTIVE. A message of a
row of Table 25.7 runs its command, and one of no row completes as invalid (R401; before READY too by log 99). What a
token, a signature or a RESYNC section holds is the model's open value (log 30), so that the result is stated for every value of it. -/
def Obligations.HostEvents : Prop :=
  ∀ (s : State) (tag : Nat), tag < 2 ^ 16 → Cmd.release [] s.cmds = (s.cmds, []) →
  ((∀ k ∈ s.cmds, k.tag ≠ tag) →
  let first (x : Nat) : Prop := x = 0xFFFF ∨ ∀ k ∈ s.cmds, k.ctx ≠ x
  let listed (x : Nat) : List Cmd := s.cmds ++ [⟨x, tag, none⟩]
  let done (r0 : W64) (bs : List Byte) (t : State) : Prop := t.out = s.out ++ [.complete tag 0 0 r0 bs]
  let written (buf : Nat) (bs : List Byte) (t : State) : Prop := (∀ a, t.physByte a = if buf ≤ a ∧ a < buf + bs.length then bs.getD (a - buf) 0 else s.physByte a) ∧
    t.strands = s.strands ∧ t.wgs = s.wgs ∧ t.cores = s.cores ∧ t.ctxs = s.ctxs
  let audited (ty : AuditTy) (ctx : Nat) (t : State) : Prop := ∃ e, t.trust.audit = s.trust.audit ++ [e] ∧ e.seq = s.trust.auditNext ∧ e.ty = ty ∧ e.ctx = ctx ∧
    t.trust.auditNext = s.trust.auditNext + 1 ∧ t.trust.auditHead = e.head ∧ e.head = sha384 (s.trust.auditHead ++ auditBytes e.seq ty ctx e.payload)
  (let le (n x : Nat) : List Byte := (List.range n).map (fun i => BitVec.ofNat 8 (x / 2 ^ (8 * i)))
    let msg (opc ctx : Nat) (p : List Byte) : List Byte := le 2 tag ++ le 2 opc ++ le 2 ctx ++ le 2 p.length ++ le 8 0 ++ p
    (∀ ctx a b c k (f : Bool) (l d : List W64) (nonce : List Byte) (cores : BitVec 224), ctx < 2 ^ 16 → a < 2 ^ 16 → b < 2 ^ 64 → c < 2 ^ 64 → k < 2 ^ 64 → l.length = 16 → d.length = 32 →
      nonce.length = 48 → ∀ e ∈ ([(0x01, le 8 a ++ d.flatMap w64Bytes, .nodeReg tag ctx a d), (0x02, le 8 a, .nodeUnreg tag ctx a), (0x10, l.flatMap w64Bytes, .ctxCreate tag ctx l),
        (0x11, [], .ctxRelease tag ctx), (0x12, le 8 b ++ le 8 c, .frameAssign tag ctx b c), (0x20, [], .preempt tag ctx),
        (0x21, le 32 cores.toNat, .resume tag ctx ((List.range 224).filter (fun n => cores.getLsbD n))), (0x30, le 8 b ++ le 8 c, .resync tag b c),
        (0x31, nonce ++ le 8 b ++ le 8 c, .attest tag nonce b c), (0x32, le 8 b, .perfRead tag ctx b), (0x33, le 8 a ++ le 8 b ++ le 8 c ++ le 8 k, .logRead tag ctx a b c k),
        (0x40, le 8 b ++ le 8 c, .lifecycle tag b c), (0x41, [], .unlockNonce tag), (0x42, le 8 b ++ le 8 c, .unlock tag b c), (0x50, le 2 a ++ le 6 (if f then 1 else 0), .stop tag a f),
        (0x51, le 8 b, .continueTask tag (BitVec.ofNat 64 b)), (0x52, le 8 b ++ le 8 c, .evlogRead tag ctx b c)] : List (Nat × List Byte × Instr)),
      s.message (msg e.1 ctx e.2.1) = exec e.2.2 s) ∧
    (∀ opc ctx p, opc < 2 ^ 16 → ctx < 2 ^ 16 → p.length ≤ 496 → s.plat.pstate ≠ .idle → first ctx →
      (∀ k ∈ ([(0x01, 264), (0x02, 8), (0x10, 128), (0x11, 0), (0x12, 16), (0x20, 0), (0x21, 32), (0x30, 16), (0x31, 64), (0x32, 8), (0x33, 32), (0x40, 16), (0x41, 0), (0x42, 16),
        (0x50, 8), (0x51, 8), (0x52, 16)] : List (Nat × Nat)), k ≠ (opc, p.length)) → s.message (msg opc ctx p) = .next { s with out := s.out ++ [.complete tag 2 6 0 []] }) ∧
    ∀ status detail r0 bs, (OutMsg.complete tag status detail r0 bs).completion = some (le 2 tag ++ le 2 status ++ le 2 detail ++ le 2 bs.length ++ w64Bytes r0 ++ bs)) ∧
  (∀ a b c k n l f x i, i ∈ ([.ctxCreate tag a l, .frameAssign tag a b c, .nodeReg tag a b l, .nodeUnreg tag a b, .ctxRelease tag a, .preempt tag a,
      .resume tag a n, .resync tag a b, .perfRead tag a b, .logRead tag a b c k a, .lifecycle tag a b, .unlockNonce tag, .unlock tag a b, .stop tag a f,
      .continueTask tag x, .evlogRead tag a b c] : List Instr) →
    (s.plat.pstate = .idle → exec i s = exec i { s with plat := { s.plat with pstate := .active } }) ∧
    (s.plat.pstate ≠ .idle → s.plat.ready = false → first a → exec i s = .next { s with out := s.out ++ [.complete tag 1 1 0 []] })) ∧
  (s.plat.pstate ≠ .idle →
    (∀ nonce buf len, nonce.length = 48 → s.bufferOk buf len = true →
      let report := s.trust.report nonce ++ Config.attestSign s.trust.keys (s.trust.report nonce) s.trust.lmsUsed
      ∃ t, exec (.attest tag nonce buf len) s = .next t ∧ ((s.trust.report nonce).drop 40).take 48 = nonce ∧
        if len < report.length then t = { s with out := s.out ++ [.complete tag 2 6 0 []] }
        else if Config.lmsKeys ≤ s.trust.lmsUsed then t = { s with out := s.out ++ [.complete tag 1 5 0 []] }
        else written buf report t ∧ t.trust = { s.trust with lmsUsed := s.trust.lmsUsed + 1 } ∧ done (BitVec.ofNat 64 report.length) [] t) ∧
    (∀ val, ∃ t, exec (.registerWrite (2 ^ 49) val) s = .next t ∧ t = { s with plat := { s.plat with trip := s.plat.trip && !val.getLsbD 1 } }) ∧
    (∀ val, exec (.registerWrite (2 ^ 49 + 0x10) val) s = .next { s with plat := { s.plat with idleEn := val.getLsbD 0 } }) ∧
    (∀ val, ∃ p, exec (.registerWrite (2 ^ 49 + 0x08) val) s = .next { s with plat := p } ∧
      p = if s.plat.ready then s.plat else { s.plat with tierGib := (val.extractLsb' 0 9).toNat }) ∧
    (∀ val, ∃ p, exec (.registerWrite (2 ^ 49 + 0x18) val) s = .next { s with plat := p } ∧
      p = if s.plat.ready then s.plat else { s.plat with tierBase := (val.extractLsb' 30 9).toNat }) ∧
    (∀ val, ∃ p, exec (.registerWrite (2 ^ 49 + 0x20) val) s = .next { s with plat := p } ∧
      p = if s.plat.ready then s.plat else { s.plat with ovfBase := (val.extractLsb' 21 18).toNat, ovfSize := (val.extractLsb' 0 16).toNat }) ∧
    (∀ core val, core < 224 → s.trust.debugOpen = true → (s.core core).trace.live = false →
      ∃ t, exec (.registerWrite (0x100000 + 0x40 * core + 0x18) val) s = .next t ∧ t.core core = { s.core core with trace := { (s.core core).trace with startv := val } } ∧
        (∀ k, k ≠ core → t.core k = s.core k) ∧ { t with cores := s.cores } = s) ∧
    (∀ node bs n, node < 4096 → hdrNode (recHeader bs) = node → s.recordBad (.host node) bs = false → s.nodes.find node = some n →
      (s.heldBytes + bs.length ≤ (8 + s.plat.ovfSize) * 2 ^ 20 → ∃ t, exec (.hostRecordPush node 0 bs) s = .next t ∧ t.out = s.out ++ [.pushDone node true] ∧
        (∃ k, t.nodes.find node = some k ∧ let r : Rec := ⟨s.serial, bs, .host node, s.clock, 0, none⟩
          k.records.Perm (r :: n.records) ∧ { k with records := n.records, timerFrom := n.timerFrom } = n ∧
          ((∀ x ∈ n.records, x.at_ < s.clock ∨ x.at_ = s.clock ∧ ∃ w, x.src = .host w) → k.records = n.records ++ [r])) ∧
        t.wins.find node = some ⟨(s.wins.findD node ⟨0, false⟩).errors, false⟩ ∧
        { t with nodes := s.nodes, wins := s.wins, out := s.out, serial := s.serial } = s) ∧
      ((8 + s.plat.ovfSize) * 2 ^ 20 < s.heldBytes + bs.length → ∃ t, exec (.hostRecordPush node 0 bs) s = .next t ∧ t.out = s.out ++ [.pushDone node false] ∧
        t.wins.find node = some ⟨(s.wins.findD node ⟨0, false⟩).errors, true⟩ ∧ { t with wins := s.wins, out := s.out } = s)) ∧
    (∀ ctx pa n, 0 < n → s.hostOps = [] → isReg pa = false → (∀ i, i < n → s.hostOwn ctx (pa + i) = .ok ∧ s.served (pa + i) = true) →
      (s.linesReady (s.hostLines pa (.read n)) = true → ∃ t, exec (.hostMemAccess ctx pa (.read n)) s = .next t ∧ t = { s with out := s.out ++ [.memDone true (s.physBytes pa n)] }) ∧
      (∀ bs, bs.length = n → s.linesReady (s.hostLines pa (.write bs)) = true → ∃ t, exec (.hostMemAccess ctx pa (.write bs)) s = .next t ∧ t.out = s.out ++ [.memDone true []] ∧ t.strands = s.strands ∧
        ∀ a, t.physByte a = if pa ≤ a ∧ a < pa + n then bs.getD (a - pa) 0 else s.physByte a) ∧
      (∀ x, n = 8 → pa % 8 = 0 → s.targets = [] → s.linesReady (s.hostLines pa (.atomicAdd x)) = true → ∃ t, exec (.hostMemAccess ctx pa (.atomicAdd x)) s = .next t ∧ t.out = s.out ++ [.memDone true []] ∧
        ((∀ a, Safety.logged s t a → a < pa ∨ pa + 8 ≤ a) → t.physWord pa = BitVec.ofNat 64 (min ((s.physWord pa).toNat + x.toNat) (2 ^ 64 - 1))) ∧
        ∀ a, (a < pa ∨ pa + 8 ≤ a) → ¬ Safety.logged s t a → t.physByte a = s.physByte a)) ∧
    (∀ ctx pa op i, s.hostOps = [] → i < MemOp.size op → isReg pa = false → s.hostOwn ctx (pa + i) = .denied → ∃ t, exec (.hostMemAccess ctx pa op) s = .next t ∧
      t.out = s.out ++ [.memDone false []] ∧ t.devErrs = s.devErrs ++ [(s.devErrNext, .accessError ctx pa)] ∧ Safety.sameBytes s t)) ∧
  (s.plat.pstate ≠ .idle → s.plat.ready = true →
    (∀ ctx d, first ctx → ctx < 4096 → s.descBad d = false → s.descTaken ctx d = false → Lifecycle.tenants s.trust.lifecycle = true → s.trust.unlocking = none → s.auditRoom = true →
      ∃ t c, exec (.ctxCreate tag ctx d) s = .next t ∧ done 0 [] t ∧ Safety.sameBytes s t ∧ audited .ctxCreated ctx t ∧ t.ctxs.find ctx = some c ∧
        (∀ x, x ≠ ctx → t.ctxs.find x = s.ctxs.find x) ∧ c.desc = d ∧ c.state = .active ∧ c.saved = [] ∧ c.key = s.serial ∧ t.wgs = s.wgs ∧
        (let asid := ((descWord d 5).extractLsb' 0 12).toNat
         c.asid = asid ∧ c.gen = ((s.gens.get asid).toNat + 1) % 16 ∧ (c.gen = 0 → ∀ k, ∀ e ∈ (t.core k).tlb, e.asid ≠ asid)) ∧
        ∀ k, k < 224 → if (descWord d (1 + k / 64)).getLsbD (k % 64) then k ∈ c.part ∧ (t.core k).ctx = some ctx ∧ (t.core k).pipe = [] ∧ (t.core k).counts = []
          else k ∉ c.part ∧ (t.core k).ctx = (s.core k).ctx) ∧
    (∀ ctx pa count mark, first ctx → count ≠ 0 → s.granulesOk pa count = true → (isHbm pa = true → pa + count * 2 ^ 16 ≤ tcBase) →
      ((ctx = 0xFFFF ∧ mark = 0) ∨ (ctx ≠ 0xFFFF ∧ ∃ c, s.ctxs.find ctx = some c ∧ c.state ≠ .releasing ∧ mark = ownerMark ctx c.key)) →
      ∃ t, exec (.frameAssign tag ctx pa count) s = .next t ∧ done 0 [] t ∧ t.strands = s.strands ∧ t.wgs = s.wgs ∧ t.ctxs = s.ctxs ∧
        (∀ a, t.physByte a = if pa ≤ a ∧ a < pa + count * 2 ^ 16 then 0 else s.physByte a) ∧
        ∀ g, t.owners.get g = if pa / 2 ^ 16 ≤ g ∧ g < pa / 2 ^ 16 + count then mark else s.owners.get g) ∧
    (∀ ctx num desc c, ctx < 4096 → first ctx → num < 4096 → s.ctxs.find ctx = some c → c.state ≠ .releasing →
      ((Node.fresh desc ctx).bad ctx = false → s.nodes.find num = none → ∃ t, exec (.nodeReg tag ctx num desc) s = .next t ∧ done 0 [] t ∧
        t.nodes.find num = some (Node.fresh desc ctx) ∧ (∀ x, x ≠ num → t.nodes.find x = s.nodes.find x) ∧ { t with nodes := s.nodes, out := s.out } = s) ∧
      (∀ n, s.nodes.find num = some n → n.ctx = ctx → n.closing = none →
        ((Node.fresh desc ctx).bad ctx = false → ∃ t, exec (.nodeReg tag ctx num desc) s = .next t ∧ t.nodes.find num = some { n with closing := some (tag, some desc) } ∧
          t.cmds = listed ctx ∧ { t with nodes := s.nodes, cmds := s.cmds } = s) ∧
        ∃ t, exec (.nodeUnreg tag ctx num) s = .next t ∧ t.nodes.find num = some { n with closing := some (tag, none) } ∧
          (∀ x, x ≠ num → t.nodes.find x = s.nodes.find x) ∧ t.cmds = listed ctx ∧ { t with nodes := s.nodes, cmds := s.cmds } = s)) ∧
    (∀ ctx c, first ctx → s.ctxs.find ctx = some c → (c.state = .active ∨ c.state = .resuming ∧ ∀ w ∈ s.waiting, ∀ x, w ≠ .resume x ctx) →
      ∃ t, exec (.preempt tag ctx) s = .next t ∧ done 0 [] t ∧ t.ctxs.find ctx = some { c with state := .saving, stopAt := some s.clock, watches := [], rewatched := [] } ∧
        (∀ x, x ≠ ctx → t.ctxs.find x = s.ctxs.find x) ∧ { t with ctxs := s.ctxs, out := s.out } = s) ∧
    (∀ ctx c cores, s.ctxs.find ctx = some c → ctx < 4096 → c.state = .saved → cores ≠ [] → (∀ k ∈ cores, k < 224 ∧ s.coreOut k = false ∧ (s.core k).ctx = none) →
      ∃ t c', exec (.resume tag ctx cores) s = .next t ∧ t.out = s.out ∧ t.cmds = listed ctx ∧ t.waiting = s.waiting ++ [.resume tag ctx] ∧ t.ctxs.find ctx = some c' ∧ c'.state = .resuming ∧
        c'.saved = c.saved ∧ (∀ k, k ∈ c'.part ↔ k ∈ cores) ∧ Safety.sameBytes s t ∧
        ∀ k ∈ cores, (t.core k).ctx = some ctx ∧ ∀ p, c.pipes.find k = some p → (t.core k).pipe = p.1 ∧ (t.core k).pipeFull = p.2) ∧
    (∀ ctx c, ctx < 4096 → s.ctxs.find ctx = some c → (∀ w ∈ s.waiting, ∀ x, w ≠ .release x ctx ∧ w ≠ .released x ctx) →
      ((c.state = .active ∨ c.state = .saved) → ∃ t c', exec (.ctxRelease tag ctx) s = .next t ∧ t.ctxs.find ctx = some c' ∧ c'.state = .releasing ∧ c'.saved = [] ∧
        t.waiting = s.waiting ++ [.released tag ctx] ∧ (∀ p ∈ t.wgs, p.2.ctx ≠ ctx) ∧ (∀ p ∈ t.nodes, p.2.ctx ≠ ctx) ∧ Safety.sameBytes s t) ∧
      ((c.state = .saving ∨ c.state = .resuming) → exec (.ctxRelease tag ctx) s = .next { s with waiting := s.waiting ++ [.release tag ctx], cmds := listed ctx })) ∧
    (∀ ctx c core, s.ctxs.find ctx = some c → c.state ≠ .releasing → core < 224 → (s.core core).ctx = some ctx →
      let answer : OutMsg := .complete tag 0 0 0 ((List.range 16).flatMap (fun i => w64Bytes ((s.core core).counts.get i)))
      (first ctx → exec (.perfRead tag ctx core) s = .next { s with out := s.out ++ [answer] }) ∧
      (ctx < 4096 → (∃ k ∈ s.cmds, k.ctx = ctx ∧ k.reply = none) → exec (.perfRead tag ctx core) s = .next { s with cmds := s.cmds ++ [⟨ctx, tag, some answer⟩] })) ∧
    (∀ ctx c log from_ buf len recs, first ctx → s.ctxs.find ctx = some c → c.state ≠ .releasing → s.bufferOk buf len = true →
      (log = 0 ∧ recs = (c.faults.from_ from_).map (fun e => e.2.bytes) ∨ log = 1 ∧ recs = (c.errors.from_ from_).map (fun e => e.2.bytes)) →
      ∃ t, exec (.logRead tag ctx log from_ buf len) s = .next t ∧ written buf (recs.take (len / 32)).flatten t ∧ done (BitVec.ofNat 64 (min (len / 32) recs.length)) [] t) ∧
    (∀ ctx buf len, first ctx → s.bufferOk buf len = true →
      let mine (e : DbgEvent) : Bool := e.ctx.any (fun c => if ctx = 0xFFFF then (s.ctxs.find c).isSome else decide (c = ctx))
      let recs := (s.dbg.entries.filter (fun e => mine e.2)).map (fun e => e.2.bytes e.1)
      ∃ t, exec (.evlogRead tag ctx buf len) s = .next t ∧ written buf (recs.take (len / 32)).flatten t ∧ done (BitVec.ofNat 64 (min (len / 32) recs.length)) [] t) ∧
    (∀ buf len, s.bufferOk buf len = true →
      let secs := ((List.range 8).zip s.resyncSections).map (fun p => Config.resyncSection p.1 p.2)
      let hdr := Config.resyncHeader (secs.map List.length)
      ∃ t, exec (.resync tag buf len) s = .next t ∧ written buf (if (hdr ++ secs.flatten).length ≤ len then hdr ++ secs.flatten else hdr.take len) t ∧
        done (BitVec.ofNat 64 (hdr ++ secs.flatten).length) [] t) ∧
    (∀ addr len, s.bufferOk addr len = true → s.auditRoom = true → ∃ t, exec (.lifecycle tag addr len) s = .next t ∧
      match (Config.lifecycleToken (s.physBytes addr len)).bind Lifecycle.ofCode with
      | none => t = { s with out := s.out ++ [.complete tag 1 4 0 []] }
      | some dest => if s.trust.lifecycle.goesTo dest then done 0 [] t ∧ t.trust.nextLife = some dest ∧ t.trust.lifecycle = s.trust.lifecycle ∧ audited .lifecycle 0xFFFF t
          else t = { s with out := s.out ++ [.complete tag 1 3 0 []] }) ∧
    (∃ t n, exec (.unlockNonce tag) s = .next t ∧ n.length = 48 ∧ done 0 n t ∧ t.trust = { s.trust with nonce := some n, nonces := s.trust.nonces + 1 } ∧
      { t with trust := s.trust, out := s.out, free := s.free } = s) ∧
    (∀ addr len, s.bufferOk addr len = true → s.trust.debugOpen = false → s.trust.unlocking = none →
      let token := s.physBytes addr len
      let fits : Bool := match s.trust.nonce with | some n => Config.unlockToken token n s.trust.lifecycle.code | none => false
      ∃ t, exec (.unlock tag addr len) s = .next t ∧ t.trust.nonce = none ∧ Safety.sameBytes s t ∧
        if fits then t.trust.unlocking = some (tag, sha384 token) ∧ t.trust.portOpen = s.trust.portOpen ∧ ∀ x c, s.ctxs.find x = some c → c.state ≠ .releasing →
          s.releaseWaits x = false → .release (2 ^ 16) x ∈ t.waiting ∨ .released (2 ^ 16) x ∈ t.waiting
        else t = { s with trust := { s.trust with nonce := none }, out := s.out ++ [.complete tag 1 4 0 []] }) ∧
    (∀ node n set, s.trust.debugOpen = true → s.nodes.find node = some n → ∃ t, exec (.stop tag node set) s = .next t ∧ done 0 [] t ∧
      t.nodes.find node = some { n with stopSet := set } ∧ (∀ x, x ≠ node → t.nodes.find x = s.nodes.find x) ∧ { t with nodes := s.nodes, out := s.out } = s) ∧
    (∀ w g, s.wgs.find w = some g → g.hold = .halted → ∃ t, exec (.continueTask tag g.task) s = .next t ∧ done 0 [] t ∧ t.wgs.find w = some { g with hold := .continued } ∧
      t.strands = s.strands ∧ Safety.sameBytes s t) ∧
    (∀ id l, s.launched.find id = some l → l.hold = .halted → ∃ t, exec (.continueTask tag (s.heldId l.node l.seq)) s = .next t ∧ done 0 [] t ∧
      t.launched.find id = some { l with hold := .continued } ∧ t.strands = s.strands ∧ Safety.sameBytes s t))) ∧
  (∀ ctx c, s.ctxs.find ctx = some c → c.state = .releasing → (∀ x k, .released x k ∈ s.waiting → k = ctx → x = tag) → .released tag ctx ∈ s.waiting → s.auditRoom = true →
    (∀ w ∈ s.fabric.wants, s.fabric.tagged c.ftag w.line = false) →
    let audited (ty : AuditTy) (ctx : Nat) (t : State) : Prop := ∃ e, t.trust.audit = s.trust.audit ++ [e] ∧ e.seq = s.trust.auditNext ∧ e.ty = ty ∧ e.ctx = ctx ∧
      t.trust.auditNext = s.trust.auditNext + 1 ∧ t.trust.auditHead = e.head ∧ e.head = sha384 (s.trust.auditHead ++ auditBytes e.seq ty ctx e.payload)
    ∃ t, exec (.ctxReleaseDone ctx) s = .next t ∧
      (∀ a b, s.cmds = a ++ ⟨ctx, tag, none⟩ :: b → (∀ k ∈ a, k.tag ≠ tag ∧ k.ctx ≠ ctx) → (∀ k ∈ b, k.ctx ≠ ctx) →
        t.out = s.out ++ [.complete tag 0 0 0 []] ∧ t.cmds = a ++ b) ∧ t.ctxs.find ctx = none ∧ (∀ x, x ≠ ctx → t.ctxs.find x = s.ctxs.find x) ∧ audited .ctxReleased ctx t ∧
      (∀ k ∈ c.part, (s.core k).ctx = some ctx → (t.core k).ctx = none ∧ (t.core k).pipe = [] ∧ (t.core k).dirty = [] ∧ (t.core k).clean = []) ∧
      ∀ a, t.mem.get a = if c.saveBase + 262144 ≤ a ∧ a < c.saveBase + c.saveLen then 0 else s.mem.get a)

/-- R389, R391, R386, R375, R376, R369, R378, R379, R380, R381, R402, R403 and the reset of R400, event by event where it is enabled: a trace unit is
armed and writes its records; a sampler tags; the audit log and the measurements grow; errors quiesce, end or fence a domain; a Rinse pass
moves on; refreshes are banked or postponed; power states change; and a reset leaves only what the fuses hold. What is kept over a reset beside
the fuses, and what an audit payload holds, are the model's choices (logs 33, 30). -/
def Obligations.DeviceEvents : Prop :=
  ∀ (s : State),
  let audited (ty : AuditTy) (payload : List Byte → Prop) (t : State) : Prop := ∃ e, t.trust.audit = s.trust.audit ++ [e] ∧ e.seq = s.trust.auditNext ∧ e.ty = ty ∧
    e.ctx = 0xFFFF ∧ payload e.payload ∧ t.trust.auditNext = s.trust.auditNext + 1 ∧ t.trust.auditHead = e.head ∧
    e.head = sha384 (s.trust.auditHead ++ auditBytes e.seq ty 0xFFFF e.payload)
  (∀ core, core < 224 →
    (s.trust.debugOpen = true → (s.core core).trace.len ≠ 0 → s.openRange (s.core core).trace.base.toNat (s.core core).trace.len.toNat = true →
      ∃ t, exec (.traceArm core) s = .next t ∧ t.core core = { s.core core with trace := { (s.core core).trace with state := .armed, count := 0, issued := [], traps := [], comps := 0 } } ∧
        (∀ k, k ≠ core → t.core k = s.core k) ∧ { t with cores := s.cores } = s) ∧
    (∀ r, let u := (s.core core).trace
      (u.state = .armed ∧ (s.core core).startHolds = true ∨ u.state = .capturing) → u.issued = [r] → r.sched < 5 → u.len ≠ 0 → u.len.toNat % 32 = 0 → u.base.toNat + u.len.toNat ≤ 2 ^ 39 →
      let full := u.ctl.getLsbD 2 = false ∧ u.len.toNat ≤ 32 * (u.count + 1)
      let at_ := u.base.toNat + 32 * u.count % u.len.toNat
      let bytes := w64Bytes r.task ++ w64Bytes r.pc ++ w64Bytes (BitVec.ofNat 64 u.count) ++ w64Bytes r.w3
      ∃ t, exec (.traceTrigger core) s = .next t ∧ (t.core core).trace.count = u.count + 1 ∧ (∀ a, t.physByte a = if at_ ≤ a ∧ a < at_ + 32 then bytes.getD (a - at_) 0 else s.physByte a) ∧
        (t.core core).trace.ctl = (if full then u.ctl ||| 0x800 else u.ctl) ∧ (t.core core).trace.state = (if full ∨ (s.core core).stopHolds = true then .done else .capturing) ∧
        (full ∨ (s.core core).stopHolds = true → t.dbg = s.dbg.push 1024 (.traceEnd core (u.count + 1))) ∧ t.strands = s.strands ∧ t.wgs = s.wgs) ∧
    (∀ sampler, sampler < 5 → let k := (s.core core).sampler sampler
      if k.left = 1 ∧ k.held = none then ∃ t, exec (.stitchSampleTag core sampler) s = .next t ∧ (t.core core).sampler sampler = { k with tagged := true } ∧
        (∀ n, n ≠ sampler → (t.core core).sampler n = (s.core core).sampler n) ∧ (t.core core).samples = (s.core core).samples ∧
        (∀ c, c ≠ core → t.core c = s.core c) ∧ { t with cores := s.cores } = s
      else exec (.stitchSampleTag core sampler) s = .next s) ∧
    (∀ (n : IssueNote) since dropped, n.sid.wg.core = core → let k := (s.core core).sampler n.sched
      let t := s.noteSample n since dropped
      let k' := (t.core core).sampler n.sched
      (k.held = none → 1 < k.left → k.tagged = false → k' = { k with left := k.left - 1 } ∧ (t.core core).samples = (s.core core).samples) ∧
      (k.held = none → k.left = 1 ∨ k.tagged = true → dropped = true → k' = k.draw ∧ (t.core core).samples = (s.core core).samples) ∧
      (k.held = none → k.left = 1 ∨ k.tagged = true → dropped = false → s.loadSince n.sid since = none → k' = { k.draw with seq := k.seq + 1 } ∧ 1 ≤ k'.left ∧ k'.left ≤ 65536 ∧
        ∃ x, (t.core core).samples.find n.sched = some x ∧ x.ctx = n.ctx ∧ x.words[0]? = some n.task ∧ x.words[1]? = some n.pc ∧
          x.words.length = 8 ∧ ((x.words[2]?).getD 0).extractLsb' 32 32 = k.seq + 1) ∧
      (k.held.isSome = true → t = s))) ∧
  (∀ n, ∃ t, exec (.auditExportAck n) s = .next t ∧ (∀ e, e ∈ t.trust.audit ↔ e ∈ s.trust.audit ∧ n < e.seq) ∧ { t with trust := { t.trust with audit := s.trust.audit } } = s) ∧
  (∀ p, p.length = 48 → s.auditRoom = true → ∃ t, exec (.auditTypedAppend p) s = .next t ∧ audited .typed (· = p) t ∧ { t with trust := s.trust } = s) ∧
  (∀ n d m, (n = 6 ∨ n = 7) → d.length = 48 → s.trust.meas[n]? = some m → ∃ t, exec (.measExtend n d) s = .next t ∧ t.trust.meas[n]? = some (sha384 (m ++ d)) ∧
    (∀ k, k ≠ n → t.trust.meas[k]? = s.trust.meas[k]?) ∧ { t with trust := { t.trust with meas := s.trust.meas } } = s) ∧
  (∀ d, Domain.ok d = true → (s.dom d).fenced = false →
    let x := s.dom d
    (let recent := (x.recent ++ [s.clock]).drop (x.recent.length + 1 - 16)
     let due := recent.length = 16 ∧ s.clock ≤ recent.headD 0 + 2 ^ 32 ∧ x.quiesced = false
     ∃ t, exec (.correctedError d) s = .next t ∧ (t.dom d).total = x.total + 1 ∧ (t.dom d).recent = recent ∧ Safety.sameBytes s t ∧ t.strands = s.strands ∧
       ((∀ n, d = .core n → ∀ g ∈ s.grids, n ∉ g.2.place.getD []) → t.wgs = s.wgs) ∧
       (due → ∀ n, d = .core n → ∀ g ∈ t.grids, n ∈ g.2.place.getD [] → g.2.lost = true) ∧
       (due → (t.dom d).quiesced = true ∧ t.out = s.out ++ [.notice (s.notices % 2 ^ 32) (.error d)] ∧ t.devErrs = s.devErrs ++ [(s.devErrNext, .domain d)]) ∧
       (¬ due → (t.dom d).quiesced = x.quiesced ∧ { t with doms := s.doms } = s)) ∧
    (∃ t, exec (.uncorrectedError d) s = .next t ∧ (t.dom d).quiesced = true ∧ Safety.sameBytes s t ∧
      (x.quiesced = false → t.out.getLast?.any (fun o => match o with | .notice _ (.error e) => decide (e = d) | _ => false) = true) ∧
      (∀ n, (d = .channel n ∨ d = .fabricPort n ∨ d = .cxlPort n) → (t.dom d).dead = true ∧ t.wgs = s.wgs ∧ t.strands = s.strands) ∧
      (∀ n, d = .core n → ∀ p ∈ t.wgs, p.1.core ≠ n) ∧
      (∀ n, d = .copyUnit n → ∀ c ∈ s.copies, c.unit = some n → c.started = true → t.wgs.find c.wg = none) ∧
      (∀ n, d = .l2slice n → (∀ l, t.badLines.get l = s.badLines.get l ∨ t.badLines.get l = 1 ∧ ∃ k ∈ s.l2, k.line = l ∧ k.slice = n ∧ k.dev = none ∧ k.mask ≠ 0) ∧ t.wgs = s.wgs ∧
        (x.quiesced = false → (∃ k, k < 224 ∧ k ≠ n ∧ (s.dom (.l2slice k)).quiesced = false ∧ (s.dom (.l2slice k)).fenced = false) → n ∉ t.homeTable))) ∧
    (x.quiesced = true → (∀ n, d = .core n → ∀ p ∈ s.wgs, p.1.core ≠ n) →
      (∃ t, exec (.selfTestDone d true) s = .next t ∧ (t.dom d).quiesced = false ∧ (t.dom d).soft = x.soft + 1 ∧ (t.dom d).recent = [] ∧ (t.dom d).fenced = false ∧
        Safety.sameBytes s t ∧ ∀ n, d = .l2slice n → ∀ i ∈ x.entries, i < s.homeTable.length → t.homeTable[i]? = some n) ∧
      (s.auditRoom = true → ∃ t, exec (.selfTestDone d false) s = .next t ∧ (t.dom d).quiesced = false ∧ (t.dom d).fenced = true ∧ audited .fenced (fun _ => True) t ∧
        Safety.sameBytes s t ∧ ∀ n, d = .core n → (t.core n).fenced = true))) ∧
  (∀ ch, ch < 256 → s.rinsing = true → (s.channel ch).boundary < 2 ^ 23 → s.domDead (.channel ch) = false →
    let c := s.channel ch
    let more := c.boundary + 1 < 2 ^ 23 ∨ ∃ k, k < 256 ∧ k ≠ ch ∧ (s.channel k).boundary < 2 ^ 23 ∧ s.domDead (.channel k) = false
    (s.badLines.get (channelLine ch c.boundary) = 0 → more → ∃ t, exec (.rinseStep ch) s = .next t ∧ t.channel ch = { c with boundary := c.boundary + 1 } ∧
      (∀ k, k ≠ ch → t.channel k = s.channel k) ∧ { t with channels := s.channels } = s) ∧
    (s.badLines.get (channelLine ch c.boundary) = 0 → ¬ more → s.auditRoom = true → ∃ t, exec (.rinseStep ch) s = .next t ∧ t.rinse = { s.rinse with version := s.rinse.version + 1, opened := false } ∧
      audited .rinseDone (fun _ => True) t ∧ Safety.sameBytes s t ∧
      ∀ x k, s.ctxs.find x = some k → t.ctxs.find x = some { k with keyVer := (s.rinse.version + 1, none) }) ∧
    (s.badLines.get (channelLine ch c.boundary) ≠ 0 → s.auditRoom = true → ∃ t, exec (.rinseStep ch) s = .next t ∧
      (∃ e ∈ t.trust.audit, e.ty = .integrity ∧ e.seq = s.trust.auditNext ∧ e.ctx = s.keyOwner (256 * channelLine ch c.boundary)) ∧
      t.channel ch = { c with boundary := c.boundary + 1, errors := c.errors + 1 } ∧ (t.dom (.channel ch)).dead = true ∧ Safety.sameBytes s t)) ∧
  (s.rinsing = false → s.rinse.opened = false → (∀ b, s.rinse.began = some b → b + 2 ^ 47 ≤ s.clock) → (s.rinse.began = none → s.plat.ready = true) →
    ∃ t, exec .rinsePassStart s = .next t ∧ t.rinse = ⟨some s.clock, s.rinse.version, true⟩ ∧ (∀ k, (t.channel k).boundary = 0 ∧ (t.channel k).errors = 0) ∧
      (∀ x k, s.ctxs.find x = some k → t.ctxs.find x = some { k with keyVer := (s.rinse.version, some (s.rinse.version + 1)) }) ∧
      { t with rinse := s.rinse, channels := s.channels, ctxs := s.ctxs } = s) ∧
  (∀ ch, ch < 256 → let c := s.channel ch
    let compute := ∀ b, c.lastMem = some b → b + 4096 ≤ s.clock
    ∃ t, exec (.refresh ch) s = .next t ∧ (∀ k, k ≠ ch → t.channel k = s.channel k) ∧ { t with channels := s.channels } = s ∧
      let due := c.lastRef + refreshInterval ≤ s.clock
      (due → compute → t.channel ch = { c with lastRef := s.clock }) ∧ (due → ¬ compute → t.channel ch = { c with banked := c.banked - 1, lastRef := s.clock }) ∧
      (¬ due → compute → t.channel ch = { c with banked := max c.banked (min 8 (c.banked + 1)) }) ∧ (¬ due → ¬ compute → t = s)) ∧
  (∀ stack p, s.pledans[stack]? = some p → p.takenOver = false →
    (∃ t, exec (.heartbeat stack) s = .next t ∧ t.pledans[stack]? = some { p with lastBeat := s.clock } ∧ (∀ k, k ≠ stack → t.pledans[k]? = s.pledans[k]?) ∧ { t with pledans := s.pledans } = s) ∧
    (p.lastBeat + 3800 ≤ s.clock → s.auditRoom = true → ∃ t, exec (.refreshTakeover stack) s = .next t ∧ t.pledans[stack]? = some { p with takenOver := true } ∧
      (∀ i, i < 32 → (t.channel (32 * stack + i)).banked = 0 ∧ (t.channel (32 * stack + i)).lastRef = s.clock) ∧ audited .refreshTakeover (fun _ => True) t ∧
      t.devErrs = s.devErrs ++ [(s.devErrNext, .refreshTakeover stack)] ∧ t.out = s.out ++ [.notice (s.notices % 2 ^ 32) (.stackError stack)])) ∧
  (s.plat.pstate = .active → s.plat.ready = true → s.plat.idleEn = true → s.idle = true → exec .idleEnter s = .next { s with plat := { s.plat with pstate := .idle } }) ∧
  ((s.plat.pstate = .active ∨ s.plat.pstate = .idle) → exec .thermalTrip s = .next { s with plat := { s.plat with trip := true, pstate := .thermal, tripAt := some s.clock } }) ∧
  (s.plat.pstate = .thermal → s.plat.stopping = false → exec .thermalRecover s = .next { s with plat := { s.plat with pstate := .active, tripAt := none } }) ∧
  (∀ b, s.plat.pstate = .thermal → s.plat.tripAt = some b → b + 2 ^ 21 ≤ s.clock → ∃ t, exec .thermalShutdown s = .next t ∧ t.plat = { s.plat with stopping := true } ∧
    { t with plat := s.plat, ctxs := s.ctxs } = s ∧ ∀ x c, s.ctxs.find x = some c → c.state = .active → t.ctxs.find x = some { c with state := .saving, stopAt := some s.clock, watches := [], rewatched := [] }) ∧
  (∀ i p, (i = .reset ∧ p = .active ∨ i = .powerOff ∧ p = .off) → ∃ t, exec i s = .next t ∧ t.plat = { State.reset.plat with ports := s.plat.ports, pstate := p } ∧ t.mem = [] ∧ t.tier = [] ∧
    t.wgs = [] ∧ t.strands = [] ∧ t.cores = [] ∧ t.ctxs = [] ∧ t.nodes = [] ∧ t.owners = [] ∧ t.trust.secVersion = s.trust.secVersion ∧ t.trust.boots = s.trust.boots + 1 ∧ t.trust.audit = [] ∧ t.trust.portOpen = false ∧
    t.trust.meas = List.replicate 8 (List.replicate 48 0) ∧ t.trust.lifecycle = s.trust.nextLife.getD s.trust.lifecycle ∧ t.trust.nextLife = none)

/-- R347 to R366, event by event where it is enabled: a switch forwards, delivers or drops; a packet in its turn is served once and answered; an
answer completes what its packet was for; a packet is sent again on the next alternative and then fails; pieces are combined in ascending
order and written; the directory serialises the requests of a line; and UE reads fill entries. A switch's counters and the census's
record of a line's queue are the model's own state (logs 24, 26). -/
def Obligations.FabricEvents : Prop :=
  ∀ (s : State), let f := s.fabric
  let fab (g : Fabric) : State := { s with fabric := g }
  (∀ port, exec (.linkFlitReplay port) s = .next (fab { f with replays := f.replays + 1 })) ∧
  (∀ plane leaf depths, ∃ t, exec (.creditReturn plane leaf depths) s = .next t ∧ t.fabric.depths.find (plane, leaf) = some depths ∧
    (∀ k, k ≠ (plane, leaf) → t.fabric.depths.find k = f.depths.find k) ∧ { t with fabric := { t.fabric with depths := f.depths } } = s) ∧
  (∀ idx p, f.wire[idx]? = some p →
    let own := p.src.toNat = f.device
    let gone : Fabric := { f with wire := f.wire.eraseIdx idx }
    let waits := own ∧ s.domWaits (.fabricPort p.plane.toNat) = true
    let lost := own ∧ s.domDead (.fabricPort p.plane.toNat) = true
    (waits → exec (.switchForward idx) s = .next s) ∧ (¬ waits → lost → exec (.switchForward idx) s = .next (fab gone)) ∧
    (¬ waits → ¬ lost → (p.typ = none ∨ Packet.routed p = false) → exec (.switchForward idx) s = .next (fab { gone with switchErrors := f.switchErrors + 1 })) ∧
    let here := p.typ = some .redcontrib ∨ Packet.toSpine p = true ∨ (p.typ ≠ some .redresult ∧ p.dst.toNat = f.device)
    (¬ waits → ¬ lost → p.typ ≠ none → Packet.routed p = true → ¬ here → exec (.switchForward idx) s = .next (fab { gone with delivered := f.delivered + 1 })) ∧
    (¬ waits → ¬ lost → p.typ ≠ none → Packet.routed p = true → here → exec (.switchForward idx) s = exec (.fabricPacketReceive p) (fab gone))) ∧
  (∀ p ctx, p.dst.toNat = f.device → p.virt = false → p.coh = none → (p.typ = some .read ∨ p.typ = some .write ∨ p.typ = some .atomic) →
    let w := f.window p.src.toNat p.plane.toNat
    let n := p.bytes.toNat
    let pa := p.addr.toNat
    (p.seq.toNat = w.next → w.held = [] → 0 < n → n ≤ p.payload.length ∨ p.typ ≠ some .write → s.packetCtx p = some ctx → isReg pa = false → s.inMap pa = true →
      s.inMap (pa + n - 1) = true → s.own ctx pa = .ok → s.own ctx (pa + n - 1) = .ok → s.served pa = true → s.served (pa + n - 1) = true → s.isTier pa = s.isTier (pa + n - 1) →
      (p.typ = some .write → (f.dirLine (remKey f.device pa / 256)).evict = []) →
      ∃ t a, exec (.fabricPacketReceive p) s = .next t ∧ t.fabric.wire = f.wire ++ [a] ∧ a.dst = p.src ∧ a.src = p.dst ∧ a.seq = p.seq ∧ a.plane = p.plane ∧ t.strands = s.strands ∧
        (t.fabric.window p.src.toNat p.plane.toNat).next = (w.next + 1) % 2 ^ 32 ∧ (t.fabric.window p.src.toNat p.plane.toNat).held = [] ∧
        (t.fabric.window p.src.toNat p.plane.toNat).kept.getLast? = some (w.next, a) ∧
        (p.typ = some .read → a.typ = some .response ∧ a.payload = (List.range n).map (fun i => s.physByte (pa + i)) ∧ Safety.sameBytes s t) ∧
        (p.typ = some .write → a.typ = some .ack ∧ (pa + n ≤ 2 ^ 39 → ∀ x, t.physByte x = if pa ≤ x ∧ x < pa + n then p.payload.getD (x - pa) 0 else s.physByte x)) ∧
        (p.typ = some .atomic → a.typ = some .nak ∧ Safety.sameBytes s t)) ∧
    (∀ a, 2 ^ 31 ≤ (p.seq.toNat + 2 ^ 32 - w.next) % 2 ^ 32 → w.kept.find? (fun k => k.1 = p.seq.toNat) = some (p.seq.toNat, a) →
      exec (.fabricPacketReceive p) s = .next (fab { f with wire := f.wire ++ [a] })) ∧
    (let ahead := (p.seq.toNat + 2 ^ 32 - w.next) % 2 ^ 32
     0 < ahead → ahead < 4096 → w.held = [] → w.next < 2 ^ 32 → ∃ t, exec (.fabricPacketReceive p) s = .next t ∧ (t.fabric.window p.src.toNat p.plane.toNat) = { w with held := [p] } ∧
       t.fabric.wire = f.wire ∧ Safety.sameBytes s t)) ∧
  (∀ p k, (p.typ = some .ack ∨ p.typ = some .response ∨ p.typ = some .nak) → p.coh = none → f.sentFor p = some k →
    let rest := f.sent.filter (fun x => x ≠ k)
    (k.use_ = .message → exec (.fabricAnswerReceive p) s = .next (fab { f with sent := rest })) ∧
    (∀ id i a l, k.use_ = .elem id i → p.typ ≠ some .nak → s.accs.find? (fun x => x.id = id) = some a → a.lines[i]? = some l →
      ∃ t a', exec (.fabricAnswerReceive p) s = .next t ∧ t.accs.find? (fun x => x.id = id) = some a' ∧ a'.lines[i]? = some { l with done := true } ∧
        { a' with lines := a.lines, buf := a.buf } = a ∧ (p.typ = some .ack → a'.buf = a.buf) ∧ { t with accs := s.accs } = fab { f with sent := rest } ∧
        (p.typ = some .response → l.len ≤ p.payload.length → ∀ j, j < l.len → a'.buf.get (remKey l.dev (l.pa + j)) = valid9 (p.payload.getD j 0))) ∧
    (∀ x y, k.use_ = .bulk x → p.typ = some .ack → f.xfers.find? (fun z => z.id = x) = some y → (∃ d, y.kind = .write d) → (∀ z ∈ f.xfers, z.id = x → z = y) →
      ∃ t, exec (.fabricAnswerReceive p) s = .next t ∧ t.fabric.sent = rest ∧ { t with fabric := f } = s ∧ ∀ z, z ∈ t.fabric.xfers ↔
        (z ∈ f.xfers ∧ z.id ≠ x) ∨ (y.acked + k.pkt.bytes.toNat < y.len ∧ z = { y with acked := y.acked + k.pkt.bytes.toNat }))) ∧
  (∀ p, (p.typ = some .ack ∨ p.typ = some .response ∨ p.typ = some .nak) → p.coh = none → f.sentFor p = none → exec (.fabricAnswerReceive p) s = .next s) ∧
  (∀ p c, (p.typ = some .ack ∨ p.typ = some .response ∨ p.typ = some .nak) → p.coh = some c →
    (f.stale c = true → exec (.fabricAnswerReceive p) s = .next s) ∧
    (f.stale c = false → (c.msg = .nack → (∃ k ∈ f.sent, k.use_ = .dir c.line) → exec (.fabricAnswerReceive p) s = .next (fab { f with
        sent := f.sent.filter (fun k => k.use_ ≠ .dir c.line), wants := f.wants.map (fun z => if z.line = c.line then { z with nackAt := some s.clock } else z) })) ∧
      ∀ w, f.wants.find? (fun z => z.line = c.line) = some w → (∀ z ∈ f.wants, z.line = c.line → z = w) →
        (c.msg = .ack → ∃ t, exec (.fabricAnswerReceive p) s = .next t ∧ { t with fabric := f } = s ∧
          (w.data = true → w.acks = some (w.got + 1) → t.fabric.lines.find c.line = some (if w.req = .getm then .m else if w.alone = true then .e else .s) ∧
            (∀ z ∈ t.fabric.wants, z.line ≠ c.line) ∧ ∃ q, t.fabric.wire = f.wire ++ [q] ∧ (q.coh.map fun x => (x.line, x.msg)) = some (c.line, .done w.kept)) ∧
          (w.data = false ∨ w.acks ≠ some (w.got + 1) → t.fabric.wants.find? (fun z => z.line = c.line) = some { w with got := w.got + 1 } ∧ t.fabric.lines = f.lines)) ∧
        ∀ kept, c.msg = .data kept → w.req ≠ .putm → p.payload.length = 256 → ∃ t, exec (.fabricAnswerReceive p) s = .next t ∧ t.lineBytes c.line = p.payload ∧ t.strands = s.strands ∧
          (w.acks = some w.got → t.fabric.lines.find c.line = some (if w.req = .getm then .m else if w.alone = true then .e else .s) ∧ ∀ z ∈ t.fabric.wants, z.line ≠ c.line) ∧
          (w.acks ≠ some w.got → t.fabric.wants.find? (fun z => z.line = c.line) = some { w with data := true, kept := kept } ∧ t.fabric.lines = f.lines))) ∧
  (∀ dst plane seq k, f.sent.find? (fun k => Packet.peer k.pkt = dst && k.pkt.plane.toNat = plane && k.pkt.seq.toNat = seq && decide (k.at_ + 2 ^ 18 ≤ s.clock) &&
      decide (k.pkt.typ ≠ some .dirreq)) = some k →
    (k.resends < 8 → ∃ t p alt, exec (.e2eResend dst plane seq) s = .next t ∧ t.fabric.wire = f.wire ++ [p] ∧ { p with hops := k.pkt.hops, route := k.pkt.route } = k.pkt ∧
      t.fabric.sent = f.sent.map (fun x => if x = k then { k with pkt := p, at_ := s.clock, resends := k.resends + 1, alt := alt } else x) ∧ { t with fabric := f } = s ∧
      let n := (f.alternatives k.pkt.dst.toNat plane).length
      n ≠ 0 → alt = (k.alt + 1) % n) ∧
    (8 ≤ k.resends → k.use_ = .message → ∃ t, exec (.e2eResend dst plane seq) s = .next t ∧ t.fabric.sent = f.sent.filter (fun x => x ≠ k) ∧ (dst, plane) ∈ t.fabric.unreach ∧
      t.fabric.wire = f.wire)) ∧
  (∀ key r, f.piece key = some r → r.gone = false → (∀ q ∈ f.pieces, q.key = key → q = r) →
    let value (parts : List (List Byte)) : List Byte := parts.tail.foldl (fun a b => redBytes r.op r.ty 256 a b) (parts.headD [])
    (∀ leaf parts, let ds := (List.range 4096).filter (fun d => (f.members key.group).contains d && d / 64 = leaf)
      ds ≠ [] → (∀ d ∈ ds, ∃ q, r.contribs.find? (fun q => q.1 = d) = some (d, q)) → parts = ds.filterMap (fun d => (r.contribs.find? (fun q => q.1 = d)).map Prod.snd) →
      exec (.reductionLeafCombine leaf key) s = .next (fab { f with pieces := f.pieces.map (fun x => if x = r then
        { r with contribs := r.contribs.filter (fun q => !ds.contains q.1), partials := r.partials ++ [(leaf, value parts)] } else x) })) ∧
    (∀ parts, let ls := (List.range 64).filter (fun l => (f.members key.group).any (fun d => d / 64 = l))
      r.result = none → ls ≠ [] → (∀ l ∈ ls, ∃ q, r.partials.find? (fun q => q.1 = l) = some (l, q)) → parts = ls.filterMap (fun l => (r.partials.find? (fun q => q.1 = l)).map Prod.snd) →
      ∃ t, exec (.reductionRootCombine key) s = .next t ∧ { t with fabric := f } = s ∧ t.fabric.pieces = f.pieces.map (fun x => if x = r then { r with result := some (value parts) } else x) ∧
        if ∃ d ∈ f.members key.group, d ≠ f.device then ∃ q, t.fabric.wire = f.wire ++ [q] ∧ q.typ = some .redresult ∧ q.payload = value parts ∧ q.red = some (key, r.op, r.ty)
        else t.fabric.wire = f.wire) ∧
    (∀ bs, r.result = some bs → bs ≠ [] →
      (s.reduceXfer key = none → exec (.redresult key) s = .next (fab { f with pieces := f.pieces.filter (fun x => x.key ≠ key) })) ∧
      ∀ x pa, s.reduceXfer key = some x → key.off ∉ x.got → x.ctr = 0 → (∀ z ∈ f.xfers, z.id = x.id → z = x) → pa + bs.length ≤ 2 ^ 39 →
        s.enginePlaces x.strand.wg.core x.ctx x.strand.wg.slot x.id (x.dst + BitVec.ofNat 64 key.off) bs.length .write = .ok s ((List.range bs.length).map (fun i => .phys .coh (pa + i))) →
        ∃ t, exec (.redresult key) s = .next t ∧ (∀ a, t.physByte a = if pa ≤ a ∧ a < pa + bs.length then bs.getD (a - pa) 0 else s.physByte a) ∧ t.strands = s.strands ∧
          t.fabric.pieces = f.pieces.filter (fun y => y.key ≠ key) ∧ ∀ z, z ∈ t.fabric.xfers ↔
            (z ∈ f.xfers ∧ z.id ≠ x.id) ∨ (x.acked + bs.length < x.len ∧ z = { x with acked := x.acked + bs.length, got := x.got ++ [key.off] })) ∧
    (r.since + 2 ^ 24 ≤ s.clock → (∃ d ∈ f.members key.group, d ∉ r.came) → ∃ t, exec (.reduceAbandoned key) s = .next t ∧ Safety.sameBytes s t ∧ t.strands = s.strands ∧ t.wgs = s.wgs ∧
      t.fabric.pieces = f.pieces.map (fun x => if x = r then { r with contribs := [], partials := [], gone := true } else x) ∧
      (f.device ∈ f.members key.group → ∀ x c, s.ctxs.find x = some c → c.ftag = r.tag.toNat → ∃ c', t.ctxs.find x = some c' ∧
        c'.errors.entries.getLast?.map Prod.snd = some (.reduceAbandoned key)) ∧
      ∀ x, s.reduceXfer key = some x → key.off ∉ x.got → ∀ z ∈ t.fabric.xfers, z.id = x.id → key.off ∈ z.got)) ∧
  (∀ line req dev, let d := f.dirLine line
    let home := line / 2 ^ 43
    let sends (t : State) (dst : Nat) (msg : CohMsg) : Prop := ∃ q ∈ t.fabric.wire, q.dst = BitVec.ofNat 12 dst ∧ (q.coh.map fun x => (x.line, x.msg)) = some (line, msg)
    (dev = f.device → ∀ i, f.wire.findIdx? (fun p => p.src.toNat = dev && decide ((p.coh.map fun c => (c.line, c.msg)) = some (line, .req req))) = some i →
      exec (.dirreq line req dev) s = exec (.switchForward i) s) ∧
    (dev ≠ f.device → f.hasRoom line = true → d.evict = [] →
      (d.blocked = false → d.busy = none → req ≠ .putm → let dest := (d.owner.map Prod.fst).getD home
        let invs := if req = .getm then d.sharers.filter (fun x => x ≠ dev) else []
        ∃ t, exec (.dirreq line req dev) s = .next t ∧ { t with fabric := f } = s ∧ t.fabric.dirLine line = { d with busy := some (req, dev), fwd := some dest, invs := invs, acks := invs.length } ∧
          (∀ k, k ≠ line → t.fabric.dirLine k = f.dirLine k) ∧ (dest ≠ f.device → sends t dest (.fwd req dev)) ∧ (∀ x ∈ invs, x ≠ f.device → sends t x (.inv (some dev))) ∧
          sends t dev (.resp invs.length (d.owner.isNone && d.sharers.isEmpty))) ∧
      (d.busy.isSome = true → d.queue.length < 8 → d.blocked = false → ∃ t, exec (.dirreq line req dev) s = .next t ∧ t.fabric.dirLine line = { d with queue := d.queue ++ [(req, dev)] } ∧
        { t with fabric := { t.fabric with dir := f.dir } } = s) ∧
      (d.blocked = true → d.queue = [] → ∃ t, exec (.dirreq line req dev) s = .next t ∧ t.fabric.dirLine line = { d with queue := [(req, dev)] } ∧ { t with fabric := f } = s ∧
        ∀ x ∈ f.peers, x ≠ f.device → sends t x .census) ∧
      ((d.blocked = true ∨ d.busy.isSome = true) → 8 ≤ d.queue.length → ∃ q, exec (.dirreq line req dev) s = .next (fab { f with wire := f.wire ++ [q] }) ∧ q.typ = some .nak ∧
        q.dst = BitVec.ofNat 12 dev ∧ (q.coh.map fun x => (x.line, x.msg)) = some (line, .nack)) ∧
      (d.blocked = false → d.busy = none → req = .putm → d.owner.map Prod.fst = some dev → d.sharers = [] → ∃ t, exec (.dirreq line req dev) s = .next t ∧
        t.fabric.dirLine line = { d with busy := some (.putm, dev), evict := [dev] } ∧ { t with fabric := { t.fabric with dir := f.dir } } = s) ∧
      (d.blocked = false → d.busy = none → req = .putm → d.owner.map Prod.fst ≠ some dev → ∃ t, exec (.dirreq line req dev) s = .next t ∧ t.fabric.dirLine line = d ∧
        { t with fabric := { t.fabric with dir := f.dir } } = s))) ∧
  (∀ line req requester, let d := f.dirLine line
    (¬ (d.busy = some (req, requester) ∧ d.fwd = some f.device ∧ d.blocked = false) → exec (.dirfwd line req requester) s = .next s) ∧
    (d.busy = some (req, requester) → d.fwd = some f.device → d.blocked = false →
      let kept := decide (req = .gets) && (match f.lines.find line with | some .m => true | some .o => true | _ => false)
      (requester ≠ f.device → ∃ t q, exec (.dirfwd line req requester) s = .next t ∧ { t with fabric := f } = s ∧ t.fabric.dirLine line = { d with fwd := none } ∧ t.fabric.lines = f.lines ∧
        (line, req, requester) ∈ t.fabric.supplied ∧ t.fabric.wire = f.wire ++ [q] ∧ q.typ = some .response ∧ q.dst = BitVec.ofNat 12 requester ∧ q.payload = s.lineBytes line ∧
        (q.coh.map fun x => (x.line, x.msg)) = some (line, .data kept)) ∧
      (∀ w, requester = f.device → f.wants.find? (fun z => z.line = line) = some w → w.req ≠ .putm → w.acks ≠ some w.got → ∃ t, exec (.dirfwd line req requester) s = .next t ∧
        t.fabric.wants.find? (fun z => z.line = line) = some { w with data := true, kept := kept } ∧ t.fabric.dirLine line = { d with fwd := none } ∧ t.fabric.lines = f.lines ∧
        ∀ a, t.physByte a = s.physByte a))) ∧
  (∀ line acks w r, let d := f.dirLine line
    d.busy = some (r, f.device) → d.acks = acks → d.blocked = false → f.wants.find? (fun z => z.line = line) = some w → (∀ z ∈ f.wants, z.line = line → z = w) →
    let alone := d.owner.isNone && d.sharers.isEmpty
    ∃ t, exec (.dirresp line acks) s = .next t ∧ { t with fabric := f } = s ∧
      (w.data = true → w.got = acks → t.fabric.lines.find line = some (if w.req = .getm then .m else if alone = true then .e else .s) ∧ ∀ z ∈ t.fabric.wants, z.line ≠ line) ∧
      (w.data = false ∨ w.got ≠ acks → t.fabric.lines = f.lines ∧ t.fabric.wants.find? (fun z => z.line = line) = some { w with acks := some acks, alone := alone })) ∧
  (∀ line requester, let d := f.dirLine line
    d.busy = some (.getm, requester) → f.device ∈ d.invs → d.blocked = false → ∃ t q, exec (.directoryInv line requester) s = .next t ∧ t.fabric.lines.find line = none ∧
      (∀ i, i < 256 → t.fabric.data.get (256 * line + i) = 0) ∧ t.fabric.dirLine line = { d with invs := d.invs.filter (fun x => x ≠ f.device) } ∧ t.fabric.wire = f.wire ++ [q] ∧
      q.typ = some .ack ∧ q.dst = BitVec.ofNat 12 requester ∧ (q.coh.map fun x => (x.line, x.msg)) = some (line, .ack) ∧ Safety.sameBytes s t ∧ t.strands = s.strands ∧ t.wgs = s.wgs) ∧
  (∀ line dev, let d := f.dirLine line
    (dev = f.device → ∀ i, f.wire.findIdx? (fun p => p.src.toNat = dev && (match p.coh with | some ⟨l, _, .done _⟩ => l = line | _ => false)) = some i →
      exec (.directoryDone line dev) s = exec (.switchForward i) s) ∧
    (dev ≠ f.device → d.evict = [] → d.queue = [] → ∀ req, d.busy = some (req, dev) → req ≠ .putm →
      ∃ t d', exec (.directoryDone line dev) s = .next t ∧ t.fabric.dirLine line = d' ∧ d'.busy = none ∧ (∀ k ∈ t.fabric.supplied, k.1 ≠ line) ∧ Safety.sameBytes s t ∧ t.strands = s.strands ∧
        t.wgs = s.wgs ∧ (req = .getm → d'.owner = some (dev, .m) ∧ d'.sharers = []) ∧
        (req = .gets → ∀ o st, d.owner = some (o, st) →
          let kept := if o = f.device then f.written line = true else st ≠ .e
          (¬ kept → d'.owner = none ∧ ∀ x, x ∈ d'.sharers ↔ x ∈ d.sharers ∨ x = o ∨ x = dev) ∧
          (kept → dev ≠ o → d'.owner = some (o, .o) ∧ ∀ x, x ∈ d'.sharers ↔ x ∈ d.sharers ∨ x = dev)) ∧
        (req = .gets → d.owner = none → if d.sharers = [] then d'.owner = some (dev, .e) ∧ d'.sharers = [] else d'.owner = none ∧ ∀ x, x ∈ d'.sharers ↔ x ∈ d.sharers ∨ x = dev))) ∧
  (∀ line w, f.wants.find? (fun z => z.line = line) = some w → f.sent.length < 4096 →
    (∀ b, w.nackAt = some b → b + 256 ≤ s.clock → ∃ t p, exec (.directoryRetry line) s = .next t ∧ t.fabric.wire = f.wire ++ [p] ∧ p.typ = some .dirreq ∧
      (p.coh.map fun x => (x.line, x.msg)) = some (line, .req w.req) ∧ t.fabric.wants = f.wants.map (fun z => if z.line = line then { z with nackAt := none } else z) ∧
      { t with fabric := f } = s) ∧
    (let at_ := (dirPlane line, fabSpine (line % 2 ^ 43) (line / 2 ^ 43))
     ∀ k, f.sent.find? (fun k => decide (k.use_ = .dir line) && decide (k.at_ + 2 ^ 18 ≤ s.clock) && decide (k.pkt.coh.map Coh.spine = some at_.2)) = some k → at_ ∉ f.failedSpines →
      ∃ t p, exec (.directoryFailover line) s = .next t ∧ t.fabric.wire = f.wire ++ [p] ∧ p.typ = some .dirreq ∧ p.coh.map Coh.spine = some (Nat.xor at_.2 32) ∧ at_ ∈ t.fabric.failedSpines ∧
        (t.fabric.dirLine line).blocked = true ∧ (t.fabric.dirLine line).busy = none ∧ { t with fabric := f } = s)) ∧
  (∀ line, ∃ t p a, exec (.census line) s = .next t ∧ t.fabric.wire = f.wire ++ [p] ∧ p.typ = some .response ∧ p.payload.length = 4 ∧ (p.coh.map fun x => (x.line, x.msg)) = some (line, .answer a) ∧
    a.dev = f.device ∧ a.st = (f.lines.find line).getD .i ∧ (a.supplied = true ↔ ∃ k ∈ f.supplied, k.1 = line) ∧
    a.pending = (f.wants.find? (fun k => k.line = line)).map (fun w => (w.req, w.data)) ∧ { t with fabric := { t.fabric with wire := f.wire } } = s) ∧
  (∀ line answers, let old := f.dirLine line
    let as := answers.filter (fun a => a.dev ≠ f.device) ++ [f.census line]
    old.blocked = true → old.queue = [] → (∀ x ∈ f.peers, x = f.device ∨ ∃ a ∈ as, a.dev = x) → (∀ a ∈ as, a.supplied = false) →
    ∃ t d, exec (.censusRebuild line answers) s = .next t ∧ t.fabric.dirLine line = d ∧ d.blocked = false ∧ d.busy = none ∧ { t with fabric := f } = s ∧
      d.sharers = (as.filter (fun a => a.st = .s)).map CensusAns.dev ∧
      d.owner = (as.find? (fun a => a.st = .m || a.st = .o || a.st = .e)).map (fun a => (a.dev, a.st))) ∧
  (∀ id i u w g e p va, i ∈ ([.ueTransportGiveUp id, .uegetResponse id none] : List Instr) ∨ (∃ bs, i = .uegetResponse id (some bs)) →
    s.ueGets.find? (fun u => u.left.any (fun x => x.1 = id)) = some u → u.left.find? (fun x => x.1 = id) = some (id, va) → s.pendEntry id = some (w, g, e, p) →
    s.wgs.find w = some g → (s.wgs.map Prod.fst).Nodup → (s.wgs.flatMap (fun x => x.2.entries.map QEntry.id)).Nodup → (∀ q ∈ g.queues, q.2.decl.bcast = false) →
    (∀ v ∈ s.ueGets, v.id = u.id → v = u) →
    let filled : QEntry := match i with
      | .uegetResponse _ (some bs) => { e with words := (List.range 8).map (fun k => BitVec.ofNat 32 (natOfBytes ((bs.drop (4 * k)).take 4))), tag := 0, pend := none, poison := none }
      | _ => { e with words := [0, 0, 0, 0, 0, 0, 0, 0], tag := 3, pend := none, poison := some { task := g.task, pc := p.pc, va := va, tag := p.bfTag, bf := p.bf, mask := 0xFF, strand := p.strand.idx, slice := p.strand.slice, disp := 0, cause := 0x04, code := 0x03 } }
    let left := u.left.filter (fun x => decide (x.1 ≠ id))
    ∃ t g', exec i s = .next t ∧ t.wgs.find w = some g' ∧ g'.entries = g.entries.map (fun x => if x.id = id then filled else x) ∧ Safety.sameBytes s t ∧ t.strands = s.strands ∧
      if left = [] ∧ u.made = u.count then t.ueGets = s.ueGets.filter (fun v => v.id ≠ u.id) ∧
        (u.ctr ≠ 0 → t.adds = s.adds ++ [⟨s.serial, u.ctx, u.ctr, BitVec.ofNat 64 (32 * u.count), none⟩]) ∧ (u.ctr = 0 → t.adds = s.adds)
      else { u with left := left } ∈ t.ueGets ∧ t.adds = s.adds) ∧
  (∀ ctx pa n, 0 < n → s.plat.pstate ≠ .idle → s.hostOps = [] → (∀ i, i < n → s.hostOwn ctx (pa + i) = .ok ∧ s.served (pa + i) = true) →
    let open_ := (List.range n).all (fun i => Config.ueRegistered ctx (pa + i))
    (s.linesReady (s.hostLines pa (.read n)) = true → exec (.uePeerAccess ctx pa (.read n)) s = .next { s with out := s.out ++ [if open_ then .ueDone true ((List.range n).map (fun i => s.physByte (pa + i))) else .ueDone false []] }) ∧
    ∀ bs, bs.length = n → s.linesReady (s.hostLines pa (.write bs)) = true → ∃ t, exec (.uePeerAccess ctx pa (.write bs)) s = .next t ∧ t.out = s.out ++ [.ueDone open_ []] ∧ t.strands = s.strands ∧
      ∀ a, t.physByte a = if pa ≤ a ∧ a < pa + n ∧ open_ = true then bs.getD (a - pa) 0 else s.physByte a)

/-- Tables 25.4, 23.4 and 23.5 with R369, R375, R377 and R114: the platform registers read 0 but for IDLEEN, every trace register reads 0, every measurement
is zero, the audit log restarts at sequence number 0, the debug port is closed, HT[i] is i mod 224, notices count from 0 and nothing is resident.
R24 and R72: a strand starts with every register zero and MODE 0x002 or 0x00A. That memory reads as zero is the model's choice (log 1). -/
def Obligations.ResetState : Prop :=
  (∀ off, off ∈ [0x00, 0x08, 0x18, 0x20] → State.reset.regWord off = 0) ∧ State.reset.regWord 0x10 = 1 ∧
  (∀ node, node < 4096 → State.reset.regWord (0x10000000 + 4096 * node + 0x100) = 0) ∧
  (∀ core off, (State.reset.core core).trace.read off = 0 ∧ (State.reset.core core).ctx = none ∧ (State.reset.core core).mqueue = [] ∧ (State.reset.core core).mend = []) ∧
  State.reset.trust.meas.length = 8 ∧ (∀ m ∈ State.reset.trust.meas, m = List.replicate 48 0) ∧ State.reset.trust.audit = [] ∧ State.reset.trust.auditNext = 0 ∧
  State.reset.trust.portOpen = false ∧ State.reset.homeTable.length = 896 ∧ (∀ i, i < 896 → State.reset.homeTable[i]? = some (i % 224)) ∧ State.reset.notices = 0 ∧
  State.reset.wgs = [] ∧ State.reset.strands = [] ∧ State.reset.ctxs = [] ∧ State.reset.nodes = [] ∧ State.reset.accs = [] ∧ State.reset.copies = [] ∧
  Safety.memoriesOk State.reset = true ∧ (∀ a, State.reset.physByte a = 0) ∧
  ∀ sl entry lane slot parked, let st := startStrand sl entry lane slot parked
    st.mode = (match sl with | .execute => 0x002 | .access => 0x00A) ∧ st.flags = 0 ∧ st.qt = 0 ∧ Safety.latchesZero st ∧
    ∀ r t, st.vGet r t = 0 ∧ st.xGet r t = 0 ∧ st.sGet r = 0 ∧ st.kGet r = 0

/-- R148, R149 and R92: where the schedule issues a lane whose choice is a fragment in its turn, and the words that the fetch has brought decode to an
instruction, the step answers what exec of that instruction answers, then notes the issue, ends it and settles what is due. Words that lie on local
pages that the fragment may execute, in lines of the core's instruction cache, are fetched at once, as many as their instruction has (R112); a line that is in
no cache is asked for, and one at L2 enters the instruction cache. A page without permission X traps as PAGE_PROT, one that needs service stalls until the
host has answered. A strand whose turn in the clock has passed waits for the next (R48). The step of an event runs exec of the event and settles, and that of a
management message runs its command (R401). The order of
cores and events is the schedule's (log 3), and the replacement in the instruction cache the model's (log 40). -/
def Obligations.StepRunsInstruction : Prop :=
  ∀ (s : State) (rest : List Move), s.running = true →
    (∀ core ap lane s2 sid fi m, s.moves = .issue core ap lane :: rest → let sl : Slice := if ap then .access else .execute
      let base : State := { s with moves := rest }
      (s.laneAt core sl lane).busy ≤ s.clock → State.pick base core sl lane = some (s2, sid, fi) →
      (base.inTurn sid = false → step s = .next base.settle) ∧
      (base.inTurn sid = true → let u : State := { s2.issues sid with cur := some (sid, fi) }
      u.me = some m → let va (k : Nat) : W64 := m.pc + BitVec.ofNat 64 (4 * k)
      let at_ (k : Nat) (l : Leaf) : Prop := u.failed (.inst m.sid m.f.born) (va k) = false ∧ u.waitsPage (.inst m.sid m.f.born) (va k) = false ∧
        u.accessPage m.core m.wg.ctx (va k) .fetch = (u, .ok l) ∧ l.dev = none ∧ l.attr ≠ .dev ∧ isReg (l.pa (va k)) = false ∧ u.served (l.pa (va k)) = true ∧
        (l.attr = .cohf → u.cohReady ⟨u.fabric.device, l.pa (va k) / 256 * 256, 256, false, false, false, false⟩ = true)
      (∀ v ws i, u.fetch m = (v, .ok ws) → decode (m.pc.getLsbD 2) (ws.flatMap wordBytes) = .ok (i, []) →
        (∀ t, exec i v = .next t → step s = .next ((t.noteIssue m i ws v.serial (t.issued m)).endIssue m).settle) ∧
        (∀ f, exec i v = .fault f → step s = .fault f) ∧ ∀ r, exec i v = .refused r → step s = .refused r) ∧
      (∀ (l : Nat → Leaf) (i : Instr) (bs : List Byte), let words := (List.range 3).map (fun k => u.wordAt ((l k).pa (va k)))
        (∀ k, k < 3 → at_ k (l k) ∧ (u.core m.core).icache.contains ((l k).pa (va k) / 256) = true) → WellFormed i = true →
        decode (m.pc.getLsbD 2) (words.flatMap wordBytes) = .ok (i, bs) →
        ∃ ws, u.fetch m = (u, .ok ws) ∧ ws <+: words ∧ 4 * ws.length + bs.length = 12 ∧ decode (m.pc.getLsbD 2) (ws.flatMap wordBytes) = .ok (i, [])) ∧
      (∀ l, at_ 0 l → let pa := l.pa m.pc
        (u.core m.core).icache.contains (pa / 256) = false →
        if u.here m.core (.phys .coh pa) = true then ∃ v, u.fetchWord m m.pc = (v, .ok (u.wordAt pa)) ∧ (v.core m.core).icache.contains (pa / 256) = true ∧
          v.strands = u.strands ∧ v.wgs = u.wgs ∧ ∀ a, v.physByte a = u.physByte a
        else step s = .next ((u.askLine m.core m.sid.wg.slot pa).endIssue m).settle) ∧
      (u.failed (.inst m.sid m.f.born) m.pc = false → u.waitsPage (.inst m.sid m.f.born) m.pc = true → step s = .next (u.endIssue m).settle) ∧
      (u.failed (.inst m.sid m.f.born) m.pc = false → u.waitsPage (.inst m.sid m.f.born) m.pc = false →
        ∀ v, (u.accessPage m.core m.wg.ctx m.pc .fetch = (v, .fail) → step s = .next ((v.trap m { code := .pageProt, va := m.pc }).endIssue m).settle) ∧
        (u.accessPage m.core m.wg.ctx m.pc .fetch = (v, .service) → step s = .next ((v.request m.wg.ctx m.pc .fetch (.inst m.sid m.f.born)).endIssue m).settle)))) ∧
    (∀ bs t, s.moves = .message bs :: rest → State.message { s with moves := rest, cur := none } bs = .next t → step s = .next t.settle) ∧
    (∀ i t, s.moves = .event i :: rest → exec i { s with moves := rest, cur := none } = .next t → step s = .next t.settle)

/-- Tables 9.1 to 9.9, 11.2, 11.6, 13.3, 13.5: one word or pair of words of each family, written out by fields, decodes to its instruction, with nothing left; the
all-zero and the all-ones words are reserved opcodes. -/
def Obligations.DecodedWords : Prop :=
  ∀ ws i, (ws, i) ∈ ([
    ([0b00_00000001_0_0000101_0001001_1000010#32], .vadd none ⟨false, .reg 5, .reg 9, .s 2⟩),
    ([0b11_0_00000001_0000101_0001001_1111100#32, 0x12345678#32], .vaddX1 none ⟨.reg 5, .reg 9, .lit, 0x12345678⟩),
    ([0b10_0000_1_0010_1_001_10_1_0011_101_0000000#32, 0b00_01000000_0_0000101_0001001_0001010#32],
      .fadd (some ⟨some .f32, some .rtz, some true, some ⟨3, true, false, true⟩⟩) ⟨false, .reg 5, .reg 9, .reg 10⟩),
    ([0b00_00110000_0_0111000_0000010_0000111#32], .kop none .andn .em (.k 2) (.k 7)),
    ([0b00_01110001_0_1100111_0001001_0000010#32], .enq none 3 (.reg 9) 2),
    ([0b11_0_10000000_0000111_0001001_0000000#32, 0b0000000_0001_000000000000000100001#32], .ld none 7 (.reg 9) true 33),
    ([0b11_0_10100000_0010011_1000010_1000011#32, 0b0_1111101000_01_001011_010110_1_100001#32], .mloop none ⟨19, 2, 3, 1000, true, 11, 22, true, 33⟩),
    ([0b01_00000010_010_101_0001001000110100#32], .brc .none 5 0x1234),
    ([0b01_00100101_10001_10100_110_0_01001_000#32], .scmp .ltn 17 20 (.reg 9)),
    ([0b01_01000000_11_0_1_1_0_01001_00100_00000_0#32], .cadd .sys true (.glob 9) 4),
    ([0b11_1_01000100_00001_00010_00011_00100_0#32, 0b11_1_1_1_111_100001_1_1_0000000000000000#32], .atom ⟨.sys, true, true, true, .cas, 33, true, true, 1, 2, 3, 4⟩),
    ([0b01_01110011_10001_1001_0000000000000#32], .ueget 17 9),
    ([0b01_10000011_110_1_0_1_10001_00000000000#32], .wpset 6 true false true 17),
    ([0#32], .reservedOpcode none 0 0), ([0xFFFFFFFF#32, 0#32], .reservedOpcode none 0xFFFFFFFF 0)] : List (List W32 × Instr)) →
    decode false (ws.flatMap wordBytes) = .ok (i, [])

/-- R148 to R165: for every well-formed instruction, its words followed by any bytes decode to it and leave those bytes, at an address of either residue, but
for a prefixed one at an address ≡ 4 mod 8, where its prefix is an orphan (R157); and every byte string that decodes to a well-formed
instruction begins with that instruction's words. -/
def Obligations.RoundTrip : Prop :=
  ∀ (i : Instr) (at4 : Bool) (rest : List Byte), WellFormed i = true →
    let prefixed : Bool := (encode i).head?.any (fun w => decide (w.extractLsb' 30 2 = 0b10#2))
    (prefixed && at4) = false → decode at4 (encodeBytes i ++ rest) = .ok (i, rest) ∧ encode i ≠ [] ∧
      ∀ bs, decode at4 bs = .ok (i, rest) → bs = encodeBytes i ++ rest

/-- The canonical form of the two memories, addresses strictly rising and no entry equal to what an unlisted address reads as (log 1), is kept by every step
of the machine, whatever instruction or event it runs: a byte of the physical map (R96, R98) has one place. -/
def Obligations.MemoriesKept : Prop := Safety.kept (fun s => Safety.memoriesOk s = true)
end

