-- ==== Sys2Proof/Laws/Sparse.lean ====
section
/-!
SUPPORT. Laws/Sparse.lean: the laws of the sparse maps: what a read finds after a write, and that writing keeps the canonical form.
-/
namespace Sys2Proof

/-! ### Reads after writes -/

/-- A number that has been taken out reads as zero. -/
theorem SMap.get_without_same (m : SMap w) (a : Nat) : (SMap.without m a).get a = 0 := by
  induction m with
  | nil => rfl
  | cons p m ih =>
    obtain ⟨k, v⟩ := p
    by_cases h : k = a
    · simpa [SMap.without, h] using ih
    · have h' : ¬ a = k := fun e => h e.symm
      simpa [SMap.without, h, SMap.get, h'] using ih

/-- Taking a number out leaves the others. -/
theorem SMap.get_without_other (m : SMap w) {a b : Nat} (h : b ≠ a) : (SMap.without m a).get b = m.get b := by
  induction m with
  | nil => rfl
  | cons p m ih =>
    obtain ⟨k, v⟩ := p
    by_cases hk : k = a
    · subst hk
      simpa [SMap.without, SMap.get, h] using ih
    · by_cases hb : b = k
      · subst hb; simp [SMap.without, hk, SMap.get]
      · simpa [SMap.without, hk, SMap.get, hb] using ih

/-- A placed word is read, where nothing else was listed for its number. -/
theorem SMap.get_place_same (m : SMap w) (a : Nat) (x : BitVec w) (h : ∀ p ∈ m, p.1 ≠ a) : (SMap.place m a x).get a = x := by
  induction m with
  | nil => simp [SMap.place, SMap.get]
  | cons p m ih =>
    obtain ⟨k, v⟩ := p
    have hk : a ≠ k := fun e => h (k, v) (by simp) e.symm
    by_cases hl : a < k
    · simp [SMap.place, hl, SMap.get]
    · simp only [SMap.place, hl, if_false, SMap.get, hk]
      exact ih (fun p hp => h p (by simp [hp]))

/-- Placing a word leaves the others. -/
theorem SMap.get_place_other (m : SMap w) {a b : Nat} (x : BitVec w) (h : b ≠ a) : (SMap.place m a x).get b = m.get b := by
  induction m with
  | nil => simp [SMap.place, SMap.get, h]
  | cons p m ih =>
    obtain ⟨k, v⟩ := p
    by_cases hl : a < k
    · simp [SMap.place, hl, SMap.get, h]
    · simp only [SMap.place, hl, if_false, SMap.get, ih]

/-- Nothing of a number is left when it is taken out. -/
theorem SMap.without_ne (m : SMap w) (a : Nat) : ∀ p ∈ SMap.without m a, p.1 ≠ a := by
  intro p hp
  have := (List.mem_filter.mp hp).2
  simpa using this

/-- A write is read back. -/
@[simp] theorem SMap.get_set_same (m : SMap w) (a : Nat) (x : BitVec w) : (m.set a x).get a = x := by
  unfold SMap.set
  split
  · rename_i h; subst h; exact SMap.get_without_same m a
  · exact SMap.get_place_same _ a x (SMap.without_ne m a)

/-- A write leaves every other number. -/
theorem SMap.get_set_other (m : SMap w) {a b : Nat} (x : BitVec w) (h : b ≠ a) : (m.set a x).get b = m.get b := by
  unfold SMap.set
  split
  · exact SMap.get_without_other m h
  · rw [SMap.get_place_other _ x h, SMap.get_without_other m h]

/-- A read after a write. -/
theorem SMap.get_set (m : SMap w) (a b : Nat) (x : BitVec w) : (m.set a x).get b = if b = a then x else m.get b := by
  split
  · rename_i h; subst h; exact SMap.get_set_same m b x
  · rename_i h; exact SMap.get_set_other m x h

/-- Keeping some numbers: they read as before, the others as zero. -/
theorem SMap.get_keep (m : SMap w) (f : Nat → Bool) (a : Nat) : (SMap.keep m f).get a = if f a then m.get a else 0 := by
  induction m with
  | nil => simp [SMap.keep, SMap.get]
  | cons p m ih =>
    obtain ⟨k, v⟩ := p
    by_cases hk : f k
    · have : SMap.keep ((k, v) :: m) f = (k, v) :: SMap.keep m f := by simp [SMap.keep, hk]
      rw [this]; simp only [SMap.get]
      by_cases ha : a = k
      · subst ha; simp [hk]
      · simp [ha, ih]
    · have : SMap.keep ((k, v) :: m) f = SMap.keep m f := by simp [SMap.keep, hk]
      rw [this, ih]
      by_cases ha : a = k
      · subst ha; simp [hk]
      · simp [SMap.get, ha]

/-- Several writes leave a number that none of them names. -/
theorem SMap.get_sets_other (m : SMap w) (l : List (Nat × BitVec w)) (a : Nat) (h : ∀ p ∈ l, p.1 ≠ a) : (m.sets l).get a = m.get a := by
  induction l generalizing m with
  | nil => rfl
  | cons p l ih =>
    show ((m.set p.1 p.2).sets l).get a = m.get a
    rw [ih _ (fun q hq => h q (by simp [hq])), SMap.get_set_other _ _ (fun e => h p (by simp) e.symm)]

/-- Several writes to different numbers are each read back. -/
theorem SMap.get_sets_mem (m : SMap w) (l : List (Nat × BitVec w)) (hn : (l.map Prod.fst).Nodup) {a : Nat} {x : BitVec w}
    (h : (a, x) ∈ l) : (m.sets l).get a = x := by
  induction l generalizing m with
  | nil => cases h
  | cons p l ih =>
    show ((m.set p.1 p.2).sets l).get a = x
    simp only [List.map_cons, List.nodup_cons] at hn
    rcases List.mem_cons.mp h with rfl | h'
    · rw [SMap.get_sets_other _ _ _ (fun q hq e => hn.1 (List.mem_map.mpr ⟨q, hq, e⟩))]
      exact SMap.get_set_same _ _ _
    · exact ih _ hn.2 h'

/-! ### The canonical form -/

/-- The canonical form in terms of the entries. -/
theorem SMap.wf_iff (m : SMap w) : SMap.wf m = true ↔ m.Pairwise (fun p q => p.1 < q.1) ∧ ∀ p ∈ m, p.2 ≠ 0 := by
  have key : ∀ (m : SMap w) (lo : Option Nat), SMap.wfFrom lo m = true ↔
      (∀ p ∈ m, ∀ l, lo = some l → l < p.1) ∧ m.Pairwise (fun p q => p.1 < q.1) ∧ ∀ p ∈ m, p.2 ≠ 0 := by
    intro m
    induction m with
    | nil => intro lo; simp [SMap.wfFrom]
    | cons p m ih =>
      intro lo
      obtain ⟨k, v⟩ := p
      simp only [SMap.wfFrom, Bool.and_eq_true, ih, List.pairwise_cons, List.mem_cons, forall_eq_or_imp]
      constructor
      · rintro ⟨⟨h1, h2⟩, h3, h4, h5⟩
        refine ⟨⟨?_, ?_⟩, ⟨fun q hq => h3 q hq k rfl, h4⟩, by simpa using h2, h5⟩
        · rintro l rfl; simpa using h1
        · rintro q hq l rfl
          have : l < k := by simpa using h1
          have := h3 q hq k rfl
          omega
      · rintro ⟨⟨h1, _⟩, ⟨h3, h4⟩, h5, h6⟩
        refine ⟨⟨?_, by simpa using h5⟩, ?_, h4, h6⟩
        · cases lo with
          | none => rfl
          | some l => simpa using h1 l rfl
        · rintro q hq l h; cases h; exact h3 q hq
  simpa [SMap.wf] using key m none

/-- The empty map is canonical. -/
@[simp] theorem SMap.wf_nil : SMap.wf ([] : SMap w) = true := rfl

/-- Keeping some numbers keeps the form. -/
theorem SMap.wf_keep {m : SMap w} (f : Nat → Bool) (h : SMap.wf m = true) : SMap.wf (SMap.keep m f) = true := by
  rw [SMap.wf_iff] at *
  exact ⟨h.1.filter _, fun p hp => h.2 p (List.mem_filter.mp hp).1⟩

/-- Taking a number out keeps the form. -/
theorem SMap.wf_without {m : SMap w} (a : Nat) (h : SMap.wf m = true) : SMap.wf (SMap.without m a) = true := by
  rw [SMap.wf_iff] at *
  exact ⟨h.1.filter _, fun p hp => h.2 p (List.mem_filter.mp hp).1⟩

/-- The entries after a word is placed. -/
theorem SMap.mem_place {m : SMap w} {a : Nat} {x : BitVec w} {p : Nat × BitVec w} (h : p ∈ SMap.place m a x) : p = (a, x) ∨ p ∈ m := by
  induction m with
  | nil => simpa [SMap.place] using h
  | cons q m ih =>
    obtain ⟨k, v⟩ := q
    simp only [SMap.place] at h
    split at h
    · rcases List.mem_cons.mp h with h | h
      · exact .inl h
      · exact .inr h
    · rcases List.mem_cons.mp h with h | h
      · exact .inr (by simp [h])
      · rcases ih h with h | h
        · exact .inl h
        · exact .inr (by simp [h])

/-- A write keeps the form. -/
theorem SMap.wf_set {m : SMap w} (a : Nat) (x : BitVec w) (h : SMap.wf m = true) : SMap.wf (m.set a x) = true := by
  unfold SMap.set
  split
  · exact SMap.wf_without a h
  · rename_i hx
    have h' := SMap.wf_without a h
    have hne := SMap.without_ne m a
    revert h' hne
    generalize SMap.without m a = n
    intro h' hne
    rw [SMap.wf_iff] at *
    refine ⟨?_, fun p hp => ?_⟩
    · induction n with
      | nil => simp [SMap.place]
      | cons q n ih =>
        obtain ⟨k, v⟩ := q
        have hk : k ≠ a := hne (k, v) (by simp)
        simp only [SMap.place]
        split
        · rename_i hl
          refine List.pairwise_cons.mpr ⟨fun r hr => ?_, h'.1⟩
          rcases List.mem_cons.mp hr with rfl | hr
          · exact hl
          · have := (List.pairwise_cons.mp h'.1).1 r hr
            simp only at this ⊢; omega
        · rename_i hl
          have hp := List.pairwise_cons.mp h'.1
          refine List.pairwise_cons.mpr ⟨fun r hr => ?_, ih ⟨hp.2, fun r hr => h'.2 r (by simp [hr])⟩ (fun r hr => hne r (by simp [hr]))⟩
          rcases SMap.mem_place hr with rfl | hr
          · simp only; omega
          · exact hp.1 r hr
    · rcases SMap.mem_place hp with rfl | hp
      · exact hx
      · exact h'.2 p hp

/-- Several writes keep the form. -/
theorem SMap.wf_sets {m : SMap w} (l : List (Nat × BitVec w)) (h : SMap.wf m = true) : SMap.wf (m.sets l) = true := by
  induction l generalizing m with
  | nil => exact h
  | cons p l ih => exact ih (SMap.wf_set p.1 p.2 h)

/-- Writing bytes keeps the form. -/
theorem SMap.wf_setBytes {m : SMap 8} (a : Nat) (bs : List Byte) (h : SMap.wf m = true) : SMap.wf (m.setBytes a bs) = true := by
  induction bs generalizing m a with
  | nil => exact h
  | cons b bs ih => exact ih (a + 1) (SMap.wf_set a b h)

/-- Bytes written at one place leave every other place. -/
theorem SMap.get_setBytes_other (m : SMap 8) (a : Nat) (bs : List Byte) (x : Nat) (h : x < a ∨ a + bs.length ≤ x) :
    (m.setBytes a bs).get x = m.get x := by
  induction bs generalizing m a with
  | nil => rfl
  | cons b bs ih =>
    simp only [List.length_cons] at h
    rw [SMap.setBytes, ih _ _ (by omega), SMap.get_set_other _ _ (by omega)]

/-- Bytes written are read back. -/
theorem SMap.bytes_setBytes (m : SMap 8) (a : Nat) (bs : List Byte) : (m.setBytes a bs).bytes a bs.length = bs := by
  induction bs generalizing m a with
  | nil => rfl
  | cons b bs ih =>
    simp only [SMap.setBytes, List.length_cons, SMap.bytes, ih]
    rw [SMap.get_setBytes_other _ _ _ _ (by omega), SMap.get_set_same]

/-! ### Records by key -/

/-- A record that has been put is found. -/
@[simp] theorem AList.find_put_same [DecidableEq κ] (m : AList κ α) (a : κ) (x : α) : (m.put a x).find a = some x := by
  induction m with
  | nil => simp [AList.put, AList.find]
  | cons p m ih =>
    obtain ⟨k, v⟩ := p
    by_cases h : k = a
    · simp [AList.put, h, AList.find]
    · simp [AList.put, h, AList.find, ih]

/-- Putting a record leaves the others. -/
theorem AList.find_put_other [DecidableEq κ] (m : AList κ α) {a b : κ} (x : α) (h : b ≠ a) : (m.put a x).find b = m.find b := by
  induction m with
  | nil => simp [AList.put, AList.find, h.symm]
  | cons p m ih =>
    obtain ⟨k, v⟩ := p
    by_cases hk : k = a
    · subst hk; simp [AList.put, AList.find, h.symm]
    · simp [AList.put, hk, AList.find, ih]

/-- An adjusted record. -/
@[simp] theorem AList.find_adjust_same [DecidableEq κ] (m : AList κ α) (a : κ) (f : α → α) : (m.adjust a f).find a = (m.find a).map f := by
  induction m with
  | nil => rfl
  | cons p m ih =>
    obtain ⟨k, v⟩ := p
    by_cases h : k = a
    · simp [AList.adjust, h, AList.find]
    · simp [AList.adjust, h, AList.find, ih]

/-- Adjusting a record leaves the others. -/
theorem AList.find_adjust_other [DecidableEq κ] (m : AList κ α) {a b : κ} (f : α → α) (h : b ≠ a) : (m.adjust a f).find b = m.find b := by
  induction m with
  | nil => rfl
  | cons p m ih =>
    obtain ⟨k, v⟩ := p
    by_cases hk : k = a
    · subst hk; simp [AList.adjust, AList.find, h.symm]
    · simp [AList.adjust, hk, AList.find, ih]

/-- Two adjustments of one record are one. -/
@[simp] theorem AList.adjust_adjust [DecidableEq κ] (m : AList κ α) (a : κ) (f g : α → α) :
    (m.adjust a f).adjust a g = m.adjust a (fun x => g (f x)) := by
  induction m with
  | nil => rfl
  | cons p m ih =>
    obtain ⟨k, v⟩ := p
    by_cases h : k = a
    · simp [AList.adjust, h]
    · simp [AList.adjust, h, ih]

/-- A record that has been erased is not found. -/
@[simp] theorem AList.find_erase_same [DecidableEq κ] (m : AList κ α) (a : κ) : (m.erase a).find a = none := by
  induction m with
  | nil => rfl
  | cons p m ih =>
    obtain ⟨k, v⟩ := p
    by_cases h : k = a
    · simpa [AList.erase, h] using ih
    · simpa [AList.erase, h, AList.find] using ih

/-- Erasing a record leaves the others. -/
theorem AList.find_erase_other [DecidableEq κ] (m : AList κ α) {a b : κ} (h : b ≠ a) : (m.erase a).find b = m.find b := by
  induction m with
  | nil => rfl
  | cons p m ih =>
    obtain ⟨k, v⟩ := p
    by_cases hk : k = a
    · subst hk
      have : ¬ k = b := fun e => h e.symm
      simpa [AList.erase, AList.find, this] using ih
    · by_cases hb : k = b
      · subst hb; simp [AList.erase, hk, AList.find]
      · simpa [AList.erase, hk, AList.find, hb] using ih

/-! ### Lists by position -/

/-- The adjusted element. -/
@[simp] theorem getElem?_listAdjust_same (l : List α) (n : Nat) (f : α → α) : (listAdjust l n f)[n]? = l[n]?.map f := by
  induction l generalizing n with
  | nil => rfl
  | cons x l ih => cases n with
    | zero => rfl
    | succ n => simpa [listAdjust] using ih n

/-- Adjusting an element leaves the others. -/
theorem getElem?_listAdjust_other (l : List α) {n k : Nat} (f : α → α) (h : k ≠ n) : (listAdjust l n f)[k]? = l[k]? := by
  induction l generalizing n k with
  | nil => rfl
  | cons x l ih => cases n with
    | zero => cases k with
      | zero => exact absurd rfl h
      | succ k => rfl
    | succ n => cases k with
      | zero => rfl
      | succ k => simpa [listAdjust] using ih (by omega)

/-- Two adjustments of one element are one. -/
@[simp] theorem listAdjust_listAdjust (l : List α) (n : Nat) (f g : α → α) :
    listAdjust (listAdjust l n f) n g = listAdjust l n (fun x => g (f x)) := by
  induction l generalizing n with
  | nil => rfl
  | cons x l ih => cases n with
    | zero => rfl
    | succ n => simp [listAdjust, ih]

/-- The element that has been set. -/
@[simp] theorem getElem?_listSet_same (l : List α) (n : Nat) (x : α) (h : n < l.length) : (listSet l n x)[n]? = some x := by
  induction l generalizing n with
  | nil => simp at h
  | cons y l ih => cases n with
    | zero => rfl
    | succ n => simpa [listSet] using ih n (by simpa using h)

/-- Setting an element leaves the others. -/
theorem getElem?_listSet_other (l : List α) {n k : Nat} (x : α) (h : k ≠ n) : (listSet l n x)[k]? = l[k]? := by
  induction l generalizing n k with
  | nil => rfl
  | cons y l ih => cases n with
    | zero => cases k with
      | zero => exact absurd rfl h
      | succ k => rfl
    | succ n => cases k with
      | zero => rfl
      | succ k => simpa [listSet] using ih (by omega)

/-- Adjusting keeps the length. -/
@[simp] theorem length_listAdjust (l : List α) (n : Nat) (f : α → α) : (listAdjust l n f).length = l.length := by
  induction l generalizing n with
  | nil => rfl
  | cons x l ih => cases n with
    | zero => rfl
    | succ n => simp [listAdjust, ih]

end Sys2Proof
end

