-- ==== Sys2Proof/Laws/State.lean ====
section
/-!
SUPPORT. Laws/State.lean: what each update of the state leaves unchanged, field by field, so that no proof unfolds a record update.
-/
namespace Sys2Proof.Machine
open Sys2Proof

/-! ### A strand -/

@[simp] theorem State.updStrand_moves (s : State) (i : StrandId) (g : Strand → Strand) : (s.updStrand i g).moves = s.moves := rfl
@[simp] theorem State.updStrand_free (s : State) (i : StrandId) (g : Strand → Strand) : (s.updStrand i g).free = s.free := rfl
@[simp] theorem State.updStrand_cur (s : State) (i : StrandId) (g : Strand → Strand) : (s.updStrand i g).cur = s.cur := rfl
@[simp] theorem State.updStrand_serial (s : State) (i : StrandId) (g : Strand → Strand) : (s.updStrand i g).serial = s.serial := rfl
@[simp] theorem State.updStrand_clock (s : State) (i : StrandId) (g : Strand → Strand) : (s.updStrand i g).clock = s.clock := rfl
@[simp] theorem State.updStrand_mem (s : State) (i : StrandId) (g : Strand → Strand) : (s.updStrand i g).mem = s.mem := rfl
@[simp] theorem State.updStrand_tier (s : State) (i : StrandId) (g : Strand → Strand) : (s.updStrand i g).tier = s.tier := rfl
@[simp] theorem State.updStrand_tierCache (s : State) (i : StrandId) (g : Strand → Strand) : (s.updStrand i g).tierCache = s.tierCache := rfl
@[simp] theorem State.updStrand_wgs (s : State) (i : StrandId) (g : Strand → Strand) : (s.updStrand i g).wgs = s.wgs := rfl
@[simp] theorem State.updStrand_cores (s : State) (i : StrandId) (g : Strand → Strand) : (s.updStrand i g).cores = s.cores := rfl
@[simp] theorem State.updStrand_accs (s : State) (i : StrandId) (g : Strand → Strand) : (s.updStrand i g).accs = s.accs := rfl
@[simp] theorem State.updStrand_walks (s : State) (i : StrandId) (g : Strand → Strand) : (s.updStrand i g).walks = s.walks := rfl
@[simp] theorem State.updStrand_pageReqs (s : State) (i : StrandId) (g : Strand → Strand) : (s.updStrand i g).pageReqs = s.pageReqs := rfl
@[simp] theorem State.updStrand_fails (s : State) (i : StrandId) (g : Strand → Strand) : (s.updStrand i g).fails = s.fails := rfl
@[simp] theorem State.updStrand_sharedTlb (s : State) (i : StrandId) (g : Strand → Strand) : (s.updStrand i g).sharedTlb = s.sharedTlb := rfl
@[simp] theorem State.updStrand_walkCache (s : State) (i : StrandId) (g : Strand → Strand) : (s.updStrand i g).walkCache = s.walkCache := rfl
@[simp] theorem State.updStrand_l2 (s : State) (i : StrandId) (g : Strand → Strand) : (s.updStrand i g).l2 = s.l2 := rfl
@[simp] theorem State.updStrand_reads (s : State) (i : StrandId) (g : Strand → Strand) : (s.updStrand i g).reads = s.reads := rfl
@[simp] theorem State.updStrand_syncs (s : State) (i : StrandId) (g : Strand → Strand) : (s.updStrand i g).syncs = s.syncs := rfl
@[simp] theorem State.updStrand_ctxs (s : State) (i : StrandId) (g : Strand → Strand) : (s.updStrand i g).ctxs = s.ctxs := rfl
@[simp] theorem State.updStrand_gens (s : State) (i : StrandId) (g : Strand → Strand) : (s.updStrand i g).gens = s.gens := rfl
@[simp] theorem State.updStrand_owners (s : State) (i : StrandId) (g : Strand → Strand) : (s.updStrand i g).owners = s.owners := rfl
@[simp] theorem State.updStrand_badLines (s : State) (i : StrandId) (g : Strand → Strand) : (s.updStrand i g).badLines = s.badLines := rfl
@[simp] theorem State.updStrand_channels (s : State) (i : StrandId) (g : Strand → Strand) : (s.updStrand i g).channels = s.channels := rfl
@[simp] theorem State.updStrand_nodes (s : State) (i : StrandId) (g : Strand → Strand) : (s.updStrand i g).nodes = s.nodes := rfl
@[simp] theorem State.updStrand_launched (s : State) (i : StrandId) (g : Strand → Strand) : (s.updStrand i g).launched = s.launched := rfl
@[simp] theorem State.updStrand_grids (s : State) (i : StrandId) (g : Strand → Strand) : (s.updStrand i g).grids = s.grids := rfl
@[simp] theorem State.updStrand_retRecs (s : State) (i : StrandId) (g : Strand → Strand) : (s.updStrand i g).retRecs = s.retRecs := rfl
@[simp] theorem State.updStrand_rrNode (s : State) (i : StrandId) (g : Strand → Strand) : (s.updStrand i g).rrNode = s.rrNode := rfl
@[simp] theorem State.updStrand_lastWeir (s : State) (i : StrandId) (g : Strand → Strand) : (s.updStrand i g).lastWeir = s.lastWeir := rfl
@[simp] theorem State.updStrand_weirCount (s : State) (i : StrandId) (g : Strand → Strand) : (s.updStrand i g).weirCount = s.weirCount := rfl
@[simp] theorem State.updStrand_emits (s : State) (i : StrandId) (g : Strand → Strand) : (s.updStrand i g).emits = s.emits := rfl
@[simp] theorem State.updStrand_adds (s : State) (i : StrandId) (g : Strand → Strand) : (s.updStrand i g).adds = s.adds := rfl
@[simp] theorem State.updStrand_targets (s : State) (i : StrandId) (g : Strand → Strand) : (s.updStrand i g).targets = s.targets := rfl
@[simp] theorem State.updStrand_copies (s : State) (i : StrandId) (g : Strand → Strand) : (s.updStrand i g).copies = s.copies := rfl
@[simp] theorem State.updStrand_unitCore (s : State) (i : StrandId) (g : Strand → Strand) : (s.updStrand i g).unitCore = s.unitCore := rfl
@[simp] theorem State.updStrand_unitCopy (s : State) (i : StrandId) (g : Strand → Strand) : (s.updStrand i g).unitCopy = s.unitCopy := rfl
@[simp] theorem State.updStrand_prefetches (s : State) (i : StrandId) (g : Strand → Strand) : (s.updStrand i g).prefetches = s.prefetches := rfl
@[simp] theorem State.updStrand_homeTable (s : State) (i : StrandId) (g : Strand → Strand) : (s.updStrand i g).homeTable = s.homeTable := rfl
@[simp] theorem State.updStrand_wins (s : State) (i : StrandId) (g : Strand → Strand) : (s.updStrand i g).wins = s.wins := rfl
@[simp] theorem State.updStrand_out (s : State) (i : StrandId) (g : Strand → Strand) : (s.updStrand i g).out = s.out := rfl
@[simp] theorem State.updStrand_notices (s : State) (i : StrandId) (g : Strand → Strand) : (s.updStrand i g).notices = s.notices := rfl
@[simp] theorem State.updStrand_waiting (s : State) (i : StrandId) (g : Strand → Strand) : (s.updStrand i g).waiting = s.waiting := rfl
@[simp] theorem State.updStrand_cmds (s : State) (i : StrandId) (g : Strand → Strand) : (s.updStrand i g).cmds = s.cmds := rfl
@[simp] theorem State.updStrand_trust (s : State) (i : StrandId) (g : Strand → Strand) : (s.updStrand i g).trust = s.trust := rfl
@[simp] theorem State.updStrand_doms (s : State) (i : StrandId) (g : Strand → Strand) : (s.updStrand i g).doms = s.doms := rfl
@[simp] theorem State.updStrand_devErrs (s : State) (i : StrandId) (g : Strand → Strand) : (s.updStrand i g).devErrs = s.devErrs := rfl
@[simp] theorem State.updStrand_devErrNext (s : State) (i : StrandId) (g : Strand → Strand) : (s.updStrand i g).devErrNext = s.devErrNext := rfl
@[simp] theorem State.updStrand_dbg (s : State) (i : StrandId) (g : Strand → Strand) : (s.updStrand i g).dbg = s.dbg := rfl
@[simp] theorem State.updStrand_pledans (s : State) (i : StrandId) (g : Strand → Strand) : (s.updStrand i g).pledans = s.pledans := rfl
@[simp] theorem State.updStrand_rinse (s : State) (i : StrandId) (g : Strand → Strand) : (s.updStrand i g).rinse = s.rinse := rfl
@[simp] theorem State.updStrand_fabric (s : State) (i : StrandId) (g : Strand → Strand) : (s.updStrand i g).fabric = s.fabric := rfl
@[simp] theorem State.updStrand_ueGets (s : State) (i : StrandId) (g : Strand → Strand) : (s.updStrand i g).ueGets = s.ueGets := rfl
@[simp] theorem State.updStrand_hostOps (s : State) (i : StrandId) (g : Strand → Strand) : (s.updStrand i g).hostOps = s.hostOps := rfl
@[simp] theorem State.updStrand_plat (s : State) (i : StrandId) (g : Strand → Strand) : (s.updStrand i g).plat = s.plat := rfl

/-! ### A workgroup -/

@[simp] theorem State.updWg_moves (s : State) (w : WgId) (g : Workgroup → Workgroup) : (s.updWg w g).moves = s.moves := rfl
@[simp] theorem State.updWg_free (s : State) (w : WgId) (g : Workgroup → Workgroup) : (s.updWg w g).free = s.free := rfl
@[simp] theorem State.updWg_cur (s : State) (w : WgId) (g : Workgroup → Workgroup) : (s.updWg w g).cur = s.cur := rfl
@[simp] theorem State.updWg_serial (s : State) (w : WgId) (g : Workgroup → Workgroup) : (s.updWg w g).serial = s.serial := rfl
@[simp] theorem State.updWg_clock (s : State) (w : WgId) (g : Workgroup → Workgroup) : (s.updWg w g).clock = s.clock := rfl
@[simp] theorem State.updWg_mem (s : State) (w : WgId) (g : Workgroup → Workgroup) : (s.updWg w g).mem = s.mem := rfl
@[simp] theorem State.updWg_tier (s : State) (w : WgId) (g : Workgroup → Workgroup) : (s.updWg w g).tier = s.tier := rfl
@[simp] theorem State.updWg_tierCache (s : State) (w : WgId) (g : Workgroup → Workgroup) : (s.updWg w g).tierCache = s.tierCache := rfl
@[simp] theorem State.updWg_strands (s : State) (w : WgId) (g : Workgroup → Workgroup) : (s.updWg w g).strands = s.strands := rfl
@[simp] theorem State.updWg_cores (s : State) (w : WgId) (g : Workgroup → Workgroup) : (s.updWg w g).cores = s.cores := rfl
@[simp] theorem State.updWg_accs (s : State) (w : WgId) (g : Workgroup → Workgroup) : (s.updWg w g).accs = s.accs := rfl
@[simp] theorem State.updWg_walks (s : State) (w : WgId) (g : Workgroup → Workgroup) : (s.updWg w g).walks = s.walks := rfl
@[simp] theorem State.updWg_pageReqs (s : State) (w : WgId) (g : Workgroup → Workgroup) : (s.updWg w g).pageReqs = s.pageReqs := rfl
@[simp] theorem State.updWg_fails (s : State) (w : WgId) (g : Workgroup → Workgroup) : (s.updWg w g).fails = s.fails := rfl
@[simp] theorem State.updWg_sharedTlb (s : State) (w : WgId) (g : Workgroup → Workgroup) : (s.updWg w g).sharedTlb = s.sharedTlb := rfl
@[simp] theorem State.updWg_walkCache (s : State) (w : WgId) (g : Workgroup → Workgroup) : (s.updWg w g).walkCache = s.walkCache := rfl
@[simp] theorem State.updWg_l2 (s : State) (w : WgId) (g : Workgroup → Workgroup) : (s.updWg w g).l2 = s.l2 := rfl
@[simp] theorem State.updWg_reads (s : State) (w : WgId) (g : Workgroup → Workgroup) : (s.updWg w g).reads = s.reads := rfl
@[simp] theorem State.updWg_syncs (s : State) (w : WgId) (g : Workgroup → Workgroup) : (s.updWg w g).syncs = s.syncs := rfl
@[simp] theorem State.updWg_ctxs (s : State) (w : WgId) (g : Workgroup → Workgroup) : (s.updWg w g).ctxs = s.ctxs := rfl
@[simp] theorem State.updWg_gens (s : State) (w : WgId) (g : Workgroup → Workgroup) : (s.updWg w g).gens = s.gens := rfl
@[simp] theorem State.updWg_owners (s : State) (w : WgId) (g : Workgroup → Workgroup) : (s.updWg w g).owners = s.owners := rfl
@[simp] theorem State.updWg_badLines (s : State) (w : WgId) (g : Workgroup → Workgroup) : (s.updWg w g).badLines = s.badLines := rfl
@[simp] theorem State.updWg_channels (s : State) (w : WgId) (g : Workgroup → Workgroup) : (s.updWg w g).channels = s.channels := rfl
@[simp] theorem State.updWg_nodes (s : State) (w : WgId) (g : Workgroup → Workgroup) : (s.updWg w g).nodes = s.nodes := rfl
@[simp] theorem State.updWg_launched (s : State) (w : WgId) (g : Workgroup → Workgroup) : (s.updWg w g).launched = s.launched := rfl
@[simp] theorem State.updWg_grids (s : State) (w : WgId) (g : Workgroup → Workgroup) : (s.updWg w g).grids = s.grids := rfl
@[simp] theorem State.updWg_retRecs (s : State) (w : WgId) (g : Workgroup → Workgroup) : (s.updWg w g).retRecs = s.retRecs := rfl
@[simp] theorem State.updWg_rrNode (s : State) (w : WgId) (g : Workgroup → Workgroup) : (s.updWg w g).rrNode = s.rrNode := rfl
@[simp] theorem State.updWg_lastWeir (s : State) (w : WgId) (g : Workgroup → Workgroup) : (s.updWg w g).lastWeir = s.lastWeir := rfl
@[simp] theorem State.updWg_weirCount (s : State) (w : WgId) (g : Workgroup → Workgroup) : (s.updWg w g).weirCount = s.weirCount := rfl
@[simp] theorem State.updWg_emits (s : State) (w : WgId) (g : Workgroup → Workgroup) : (s.updWg w g).emits = s.emits := rfl
@[simp] theorem State.updWg_adds (s : State) (w : WgId) (g : Workgroup → Workgroup) : (s.updWg w g).adds = s.adds := rfl
@[simp] theorem State.updWg_targets (s : State) (w : WgId) (g : Workgroup → Workgroup) : (s.updWg w g).targets = s.targets := rfl
@[simp] theorem State.updWg_copies (s : State) (w : WgId) (g : Workgroup → Workgroup) : (s.updWg w g).copies = s.copies := rfl
@[simp] theorem State.updWg_unitCore (s : State) (w : WgId) (g : Workgroup → Workgroup) : (s.updWg w g).unitCore = s.unitCore := rfl
@[simp] theorem State.updWg_unitCopy (s : State) (w : WgId) (g : Workgroup → Workgroup) : (s.updWg w g).unitCopy = s.unitCopy := rfl
@[simp] theorem State.updWg_prefetches (s : State) (w : WgId) (g : Workgroup → Workgroup) : (s.updWg w g).prefetches = s.prefetches := rfl
@[simp] theorem State.updWg_homeTable (s : State) (w : WgId) (g : Workgroup → Workgroup) : (s.updWg w g).homeTable = s.homeTable := rfl
@[simp] theorem State.updWg_wins (s : State) (w : WgId) (g : Workgroup → Workgroup) : (s.updWg w g).wins = s.wins := rfl
@[simp] theorem State.updWg_out (s : State) (w : WgId) (g : Workgroup → Workgroup) : (s.updWg w g).out = s.out := rfl
@[simp] theorem State.updWg_notices (s : State) (w : WgId) (g : Workgroup → Workgroup) : (s.updWg w g).notices = s.notices := rfl
@[simp] theorem State.updWg_waiting (s : State) (w : WgId) (g : Workgroup → Workgroup) : (s.updWg w g).waiting = s.waiting := rfl
@[simp] theorem State.updWg_cmds (s : State) (w : WgId) (g : Workgroup → Workgroup) : (s.updWg w g).cmds = s.cmds := rfl
@[simp] theorem State.updWg_trust (s : State) (w : WgId) (g : Workgroup → Workgroup) : (s.updWg w g).trust = s.trust := rfl
@[simp] theorem State.updWg_doms (s : State) (w : WgId) (g : Workgroup → Workgroup) : (s.updWg w g).doms = s.doms := rfl
@[simp] theorem State.updWg_devErrs (s : State) (w : WgId) (g : Workgroup → Workgroup) : (s.updWg w g).devErrs = s.devErrs := rfl
@[simp] theorem State.updWg_devErrNext (s : State) (w : WgId) (g : Workgroup → Workgroup) : (s.updWg w g).devErrNext = s.devErrNext := rfl
@[simp] theorem State.updWg_dbg (s : State) (w : WgId) (g : Workgroup → Workgroup) : (s.updWg w g).dbg = s.dbg := rfl
@[simp] theorem State.updWg_pledans (s : State) (w : WgId) (g : Workgroup → Workgroup) : (s.updWg w g).pledans = s.pledans := rfl
@[simp] theorem State.updWg_rinse (s : State) (w : WgId) (g : Workgroup → Workgroup) : (s.updWg w g).rinse = s.rinse := rfl
@[simp] theorem State.updWg_fabric (s : State) (w : WgId) (g : Workgroup → Workgroup) : (s.updWg w g).fabric = s.fabric := rfl
@[simp] theorem State.updWg_ueGets (s : State) (w : WgId) (g : Workgroup → Workgroup) : (s.updWg w g).ueGets = s.ueGets := rfl
@[simp] theorem State.updWg_hostOps (s : State) (w : WgId) (g : Workgroup → Workgroup) : (s.updWg w g).hostOps = s.hostOps := rfl
@[simp] theorem State.updWg_plat (s : State) (w : WgId) (g : Workgroup → Workgroup) : (s.updWg w g).plat = s.plat := rfl

/-! ### A core -/

@[simp] theorem State.updCore_moves (s : State) (c : Nat) (g : Core → Core) : (s.updCore c g).moves = s.moves := rfl
@[simp] theorem State.updCore_free (s : State) (c : Nat) (g : Core → Core) : (s.updCore c g).free = s.free := rfl
@[simp] theorem State.updCore_cur (s : State) (c : Nat) (g : Core → Core) : (s.updCore c g).cur = s.cur := rfl
@[simp] theorem State.updCore_serial (s : State) (c : Nat) (g : Core → Core) : (s.updCore c g).serial = s.serial := rfl
@[simp] theorem State.updCore_clock (s : State) (c : Nat) (g : Core → Core) : (s.updCore c g).clock = s.clock := rfl
@[simp] theorem State.updCore_mem (s : State) (c : Nat) (g : Core → Core) : (s.updCore c g).mem = s.mem := rfl
@[simp] theorem State.updCore_tier (s : State) (c : Nat) (g : Core → Core) : (s.updCore c g).tier = s.tier := rfl
@[simp] theorem State.updCore_tierCache (s : State) (c : Nat) (g : Core → Core) : (s.updCore c g).tierCache = s.tierCache := rfl
@[simp] theorem State.updCore_strands (s : State) (c : Nat) (g : Core → Core) : (s.updCore c g).strands = s.strands := rfl
@[simp] theorem State.updCore_wgs (s : State) (c : Nat) (g : Core → Core) : (s.updCore c g).wgs = s.wgs := rfl
@[simp] theorem State.updCore_accs (s : State) (c : Nat) (g : Core → Core) : (s.updCore c g).accs = s.accs := rfl
@[simp] theorem State.updCore_walks (s : State) (c : Nat) (g : Core → Core) : (s.updCore c g).walks = s.walks := rfl
@[simp] theorem State.updCore_pageReqs (s : State) (c : Nat) (g : Core → Core) : (s.updCore c g).pageReqs = s.pageReqs := rfl
@[simp] theorem State.updCore_fails (s : State) (c : Nat) (g : Core → Core) : (s.updCore c g).fails = s.fails := rfl
@[simp] theorem State.updCore_sharedTlb (s : State) (c : Nat) (g : Core → Core) : (s.updCore c g).sharedTlb = s.sharedTlb := rfl
@[simp] theorem State.updCore_walkCache (s : State) (c : Nat) (g : Core → Core) : (s.updCore c g).walkCache = s.walkCache := rfl
@[simp] theorem State.updCore_l2 (s : State) (c : Nat) (g : Core → Core) : (s.updCore c g).l2 = s.l2 := rfl
@[simp] theorem State.updCore_reads (s : State) (c : Nat) (g : Core → Core) : (s.updCore c g).reads = s.reads := rfl
@[simp] theorem State.updCore_syncs (s : State) (c : Nat) (g : Core → Core) : (s.updCore c g).syncs = s.syncs := rfl
@[simp] theorem State.updCore_ctxs (s : State) (c : Nat) (g : Core → Core) : (s.updCore c g).ctxs = s.ctxs := rfl
@[simp] theorem State.updCore_gens (s : State) (c : Nat) (g : Core → Core) : (s.updCore c g).gens = s.gens := rfl
@[simp] theorem State.updCore_owners (s : State) (c : Nat) (g : Core → Core) : (s.updCore c g).owners = s.owners := rfl
@[simp] theorem State.updCore_badLines (s : State) (c : Nat) (g : Core → Core) : (s.updCore c g).badLines = s.badLines := rfl
@[simp] theorem State.updCore_channels (s : State) (c : Nat) (g : Core → Core) : (s.updCore c g).channels = s.channels := rfl
@[simp] theorem State.updCore_nodes (s : State) (c : Nat) (g : Core → Core) : (s.updCore c g).nodes = s.nodes := rfl
@[simp] theorem State.updCore_launched (s : State) (c : Nat) (g : Core → Core) : (s.updCore c g).launched = s.launched := rfl
@[simp] theorem State.updCore_grids (s : State) (c : Nat) (g : Core → Core) : (s.updCore c g).grids = s.grids := rfl
@[simp] theorem State.updCore_retRecs (s : State) (c : Nat) (g : Core → Core) : (s.updCore c g).retRecs = s.retRecs := rfl
@[simp] theorem State.updCore_rrNode (s : State) (c : Nat) (g : Core → Core) : (s.updCore c g).rrNode = s.rrNode := rfl
@[simp] theorem State.updCore_lastWeir (s : State) (c : Nat) (g : Core → Core) : (s.updCore c g).lastWeir = s.lastWeir := rfl
@[simp] theorem State.updCore_weirCount (s : State) (c : Nat) (g : Core → Core) : (s.updCore c g).weirCount = s.weirCount := rfl
@[simp] theorem State.updCore_emits (s : State) (c : Nat) (g : Core → Core) : (s.updCore c g).emits = s.emits := rfl
@[simp] theorem State.updCore_adds (s : State) (c : Nat) (g : Core → Core) : (s.updCore c g).adds = s.adds := rfl
@[simp] theorem State.updCore_targets (s : State) (c : Nat) (g : Core → Core) : (s.updCore c g).targets = s.targets := rfl
@[simp] theorem State.updCore_copies (s : State) (c : Nat) (g : Core → Core) : (s.updCore c g).copies = s.copies := rfl
@[simp] theorem State.updCore_unitCore (s : State) (c : Nat) (g : Core → Core) : (s.updCore c g).unitCore = s.unitCore := rfl
@[simp] theorem State.updCore_unitCopy (s : State) (c : Nat) (g : Core → Core) : (s.updCore c g).unitCopy = s.unitCopy := rfl
@[simp] theorem State.updCore_prefetches (s : State) (c : Nat) (g : Core → Core) : (s.updCore c g).prefetches = s.prefetches := rfl
@[simp] theorem State.updCore_homeTable (s : State) (c : Nat) (g : Core → Core) : (s.updCore c g).homeTable = s.homeTable := rfl
@[simp] theorem State.updCore_wins (s : State) (c : Nat) (g : Core → Core) : (s.updCore c g).wins = s.wins := rfl
@[simp] theorem State.updCore_out (s : State) (c : Nat) (g : Core → Core) : (s.updCore c g).out = s.out := rfl
@[simp] theorem State.updCore_notices (s : State) (c : Nat) (g : Core → Core) : (s.updCore c g).notices = s.notices := rfl
@[simp] theorem State.updCore_waiting (s : State) (c : Nat) (g : Core → Core) : (s.updCore c g).waiting = s.waiting := rfl
@[simp] theorem State.updCore_cmds (s : State) (c : Nat) (g : Core → Core) : (s.updCore c g).cmds = s.cmds := rfl
@[simp] theorem State.updCore_trust (s : State) (c : Nat) (g : Core → Core) : (s.updCore c g).trust = s.trust := rfl
@[simp] theorem State.updCore_doms (s : State) (c : Nat) (g : Core → Core) : (s.updCore c g).doms = s.doms := rfl
@[simp] theorem State.updCore_devErrs (s : State) (c : Nat) (g : Core → Core) : (s.updCore c g).devErrs = s.devErrs := rfl
@[simp] theorem State.updCore_devErrNext (s : State) (c : Nat) (g : Core → Core) : (s.updCore c g).devErrNext = s.devErrNext := rfl
@[simp] theorem State.updCore_dbg (s : State) (c : Nat) (g : Core → Core) : (s.updCore c g).dbg = s.dbg := rfl
@[simp] theorem State.updCore_pledans (s : State) (c : Nat) (g : Core → Core) : (s.updCore c g).pledans = s.pledans := rfl
@[simp] theorem State.updCore_rinse (s : State) (c : Nat) (g : Core → Core) : (s.updCore c g).rinse = s.rinse := rfl
@[simp] theorem State.updCore_fabric (s : State) (c : Nat) (g : Core → Core) : (s.updCore c g).fabric = s.fabric := rfl
@[simp] theorem State.updCore_ueGets (s : State) (c : Nat) (g : Core → Core) : (s.updCore c g).ueGets = s.ueGets := rfl
@[simp] theorem State.updCore_hostOps (s : State) (c : Nat) (g : Core → Core) : (s.updCore c g).hostOps = s.hostOps := rfl
@[simp] theorem State.updCore_plat (s : State) (c : Nat) (g : Core → Core) : (s.updCore c g).plat = s.plat := rfl

/-! ### A context -/

@[simp] theorem State.updCtx_moves (s : State) (c : Nat) (g : Ctx → Ctx) : (s.updCtx c g).moves = s.moves := rfl
@[simp] theorem State.updCtx_free (s : State) (c : Nat) (g : Ctx → Ctx) : (s.updCtx c g).free = s.free := rfl
@[simp] theorem State.updCtx_cur (s : State) (c : Nat) (g : Ctx → Ctx) : (s.updCtx c g).cur = s.cur := rfl
@[simp] theorem State.updCtx_serial (s : State) (c : Nat) (g : Ctx → Ctx) : (s.updCtx c g).serial = s.serial := rfl
@[simp] theorem State.updCtx_clock (s : State) (c : Nat) (g : Ctx → Ctx) : (s.updCtx c g).clock = s.clock := rfl
@[simp] theorem State.updCtx_mem (s : State) (c : Nat) (g : Ctx → Ctx) : (s.updCtx c g).mem = s.mem := rfl
@[simp] theorem State.updCtx_tier (s : State) (c : Nat) (g : Ctx → Ctx) : (s.updCtx c g).tier = s.tier := rfl
@[simp] theorem State.updCtx_tierCache (s : State) (c : Nat) (g : Ctx → Ctx) : (s.updCtx c g).tierCache = s.tierCache := rfl
@[simp] theorem State.updCtx_strands (s : State) (c : Nat) (g : Ctx → Ctx) : (s.updCtx c g).strands = s.strands := rfl
@[simp] theorem State.updCtx_wgs (s : State) (c : Nat) (g : Ctx → Ctx) : (s.updCtx c g).wgs = s.wgs := rfl
@[simp] theorem State.updCtx_cores (s : State) (c : Nat) (g : Ctx → Ctx) : (s.updCtx c g).cores = s.cores := rfl
@[simp] theorem State.updCtx_accs (s : State) (c : Nat) (g : Ctx → Ctx) : (s.updCtx c g).accs = s.accs := rfl
@[simp] theorem State.updCtx_walks (s : State) (c : Nat) (g : Ctx → Ctx) : (s.updCtx c g).walks = s.walks := rfl
@[simp] theorem State.updCtx_pageReqs (s : State) (c : Nat) (g : Ctx → Ctx) : (s.updCtx c g).pageReqs = s.pageReqs := rfl
@[simp] theorem State.updCtx_fails (s : State) (c : Nat) (g : Ctx → Ctx) : (s.updCtx c g).fails = s.fails := rfl
@[simp] theorem State.updCtx_sharedTlb (s : State) (c : Nat) (g : Ctx → Ctx) : (s.updCtx c g).sharedTlb = s.sharedTlb := rfl
@[simp] theorem State.updCtx_walkCache (s : State) (c : Nat) (g : Ctx → Ctx) : (s.updCtx c g).walkCache = s.walkCache := rfl
@[simp] theorem State.updCtx_l2 (s : State) (c : Nat) (g : Ctx → Ctx) : (s.updCtx c g).l2 = s.l2 := rfl
@[simp] theorem State.updCtx_reads (s : State) (c : Nat) (g : Ctx → Ctx) : (s.updCtx c g).reads = s.reads := rfl
@[simp] theorem State.updCtx_syncs (s : State) (c : Nat) (g : Ctx → Ctx) : (s.updCtx c g).syncs = s.syncs := rfl
@[simp] theorem State.updCtx_gens (s : State) (c : Nat) (g : Ctx → Ctx) : (s.updCtx c g).gens = s.gens := rfl
@[simp] theorem State.updCtx_owners (s : State) (c : Nat) (g : Ctx → Ctx) : (s.updCtx c g).owners = s.owners := rfl
@[simp] theorem State.updCtx_badLines (s : State) (c : Nat) (g : Ctx → Ctx) : (s.updCtx c g).badLines = s.badLines := rfl
@[simp] theorem State.updCtx_channels (s : State) (c : Nat) (g : Ctx → Ctx) : (s.updCtx c g).channels = s.channels := rfl
@[simp] theorem State.updCtx_nodes (s : State) (c : Nat) (g : Ctx → Ctx) : (s.updCtx c g).nodes = s.nodes := rfl
@[simp] theorem State.updCtx_launched (s : State) (c : Nat) (g : Ctx → Ctx) : (s.updCtx c g).launched = s.launched := rfl
@[simp] theorem State.updCtx_grids (s : State) (c : Nat) (g : Ctx → Ctx) : (s.updCtx c g).grids = s.grids := rfl
@[simp] theorem State.updCtx_retRecs (s : State) (c : Nat) (g : Ctx → Ctx) : (s.updCtx c g).retRecs = s.retRecs := rfl
@[simp] theorem State.updCtx_rrNode (s : State) (c : Nat) (g : Ctx → Ctx) : (s.updCtx c g).rrNode = s.rrNode := rfl
@[simp] theorem State.updCtx_lastWeir (s : State) (c : Nat) (g : Ctx → Ctx) : (s.updCtx c g).lastWeir = s.lastWeir := rfl
@[simp] theorem State.updCtx_weirCount (s : State) (c : Nat) (g : Ctx → Ctx) : (s.updCtx c g).weirCount = s.weirCount := rfl
@[simp] theorem State.updCtx_emits (s : State) (c : Nat) (g : Ctx → Ctx) : (s.updCtx c g).emits = s.emits := rfl
@[simp] theorem State.updCtx_adds (s : State) (c : Nat) (g : Ctx → Ctx) : (s.updCtx c g).adds = s.adds := rfl
@[simp] theorem State.updCtx_targets (s : State) (c : Nat) (g : Ctx → Ctx) : (s.updCtx c g).targets = s.targets := rfl
@[simp] theorem State.updCtx_copies (s : State) (c : Nat) (g : Ctx → Ctx) : (s.updCtx c g).copies = s.copies := rfl
@[simp] theorem State.updCtx_unitCore (s : State) (c : Nat) (g : Ctx → Ctx) : (s.updCtx c g).unitCore = s.unitCore := rfl
@[simp] theorem State.updCtx_unitCopy (s : State) (c : Nat) (g : Ctx → Ctx) : (s.updCtx c g).unitCopy = s.unitCopy := rfl
@[simp] theorem State.updCtx_prefetches (s : State) (c : Nat) (g : Ctx → Ctx) : (s.updCtx c g).prefetches = s.prefetches := rfl
@[simp] theorem State.updCtx_homeTable (s : State) (c : Nat) (g : Ctx → Ctx) : (s.updCtx c g).homeTable = s.homeTable := rfl
@[simp] theorem State.updCtx_wins (s : State) (c : Nat) (g : Ctx → Ctx) : (s.updCtx c g).wins = s.wins := rfl
@[simp] theorem State.updCtx_out (s : State) (c : Nat) (g : Ctx → Ctx) : (s.updCtx c g).out = s.out := rfl
@[simp] theorem State.updCtx_notices (s : State) (c : Nat) (g : Ctx → Ctx) : (s.updCtx c g).notices = s.notices := rfl
@[simp] theorem State.updCtx_waiting (s : State) (c : Nat) (g : Ctx → Ctx) : (s.updCtx c g).waiting = s.waiting := rfl
@[simp] theorem State.updCtx_cmds (s : State) (c : Nat) (g : Ctx → Ctx) : (s.updCtx c g).cmds = s.cmds := rfl
@[simp] theorem State.updCtx_trust (s : State) (c : Nat) (g : Ctx → Ctx) : (s.updCtx c g).trust = s.trust := rfl
@[simp] theorem State.updCtx_doms (s : State) (c : Nat) (g : Ctx → Ctx) : (s.updCtx c g).doms = s.doms := rfl
@[simp] theorem State.updCtx_devErrs (s : State) (c : Nat) (g : Ctx → Ctx) : (s.updCtx c g).devErrs = s.devErrs := rfl
@[simp] theorem State.updCtx_devErrNext (s : State) (c : Nat) (g : Ctx → Ctx) : (s.updCtx c g).devErrNext = s.devErrNext := rfl
@[simp] theorem State.updCtx_dbg (s : State) (c : Nat) (g : Ctx → Ctx) : (s.updCtx c g).dbg = s.dbg := rfl
@[simp] theorem State.updCtx_pledans (s : State) (c : Nat) (g : Ctx → Ctx) : (s.updCtx c g).pledans = s.pledans := rfl
@[simp] theorem State.updCtx_rinse (s : State) (c : Nat) (g : Ctx → Ctx) : (s.updCtx c g).rinse = s.rinse := rfl
@[simp] theorem State.updCtx_fabric (s : State) (c : Nat) (g : Ctx → Ctx) : (s.updCtx c g).fabric = s.fabric := rfl
@[simp] theorem State.updCtx_ueGets (s : State) (c : Nat) (g : Ctx → Ctx) : (s.updCtx c g).ueGets = s.ueGets := rfl
@[simp] theorem State.updCtx_hostOps (s : State) (c : Nat) (g : Ctx → Ctx) : (s.updCtx c g).hostOps = s.hostOps := rfl
@[simp] theorem State.updCtx_plat (s : State) (c : Nat) (g : Ctx → Ctx) : (s.updCtx c g).plat = s.plat := rfl

/-! ### A fragment -/

@[simp] theorem State.updFrag_moves (s : State) (i : StrandId) (n : Nat) (g : Frag → Frag) : (s.updFrag i n g).moves = s.moves := rfl
@[simp] theorem State.updFrag_free (s : State) (i : StrandId) (n : Nat) (g : Frag → Frag) : (s.updFrag i n g).free = s.free := rfl
@[simp] theorem State.updFrag_cur (s : State) (i : StrandId) (n : Nat) (g : Frag → Frag) : (s.updFrag i n g).cur = s.cur := rfl
@[simp] theorem State.updFrag_serial (s : State) (i : StrandId) (n : Nat) (g : Frag → Frag) : (s.updFrag i n g).serial = s.serial := rfl
@[simp] theorem State.updFrag_clock (s : State) (i : StrandId) (n : Nat) (g : Frag → Frag) : (s.updFrag i n g).clock = s.clock := rfl
@[simp] theorem State.updFrag_mem (s : State) (i : StrandId) (n : Nat) (g : Frag → Frag) : (s.updFrag i n g).mem = s.mem := rfl
@[simp] theorem State.updFrag_tier (s : State) (i : StrandId) (n : Nat) (g : Frag → Frag) : (s.updFrag i n g).tier = s.tier := rfl
@[simp] theorem State.updFrag_tierCache (s : State) (i : StrandId) (n : Nat) (g : Frag → Frag) : (s.updFrag i n g).tierCache = s.tierCache := rfl
@[simp] theorem State.updFrag_wgs (s : State) (i : StrandId) (n : Nat) (g : Frag → Frag) : (s.updFrag i n g).wgs = s.wgs := rfl
@[simp] theorem State.updFrag_cores (s : State) (i : StrandId) (n : Nat) (g : Frag → Frag) : (s.updFrag i n g).cores = s.cores := rfl
@[simp] theorem State.updFrag_accs (s : State) (i : StrandId) (n : Nat) (g : Frag → Frag) : (s.updFrag i n g).accs = s.accs := rfl
@[simp] theorem State.updFrag_walks (s : State) (i : StrandId) (n : Nat) (g : Frag → Frag) : (s.updFrag i n g).walks = s.walks := rfl
@[simp] theorem State.updFrag_pageReqs (s : State) (i : StrandId) (n : Nat) (g : Frag → Frag) : (s.updFrag i n g).pageReqs = s.pageReqs := rfl
@[simp] theorem State.updFrag_fails (s : State) (i : StrandId) (n : Nat) (g : Frag → Frag) : (s.updFrag i n g).fails = s.fails := rfl
@[simp] theorem State.updFrag_sharedTlb (s : State) (i : StrandId) (n : Nat) (g : Frag → Frag) : (s.updFrag i n g).sharedTlb = s.sharedTlb := rfl
@[simp] theorem State.updFrag_walkCache (s : State) (i : StrandId) (n : Nat) (g : Frag → Frag) : (s.updFrag i n g).walkCache = s.walkCache := rfl
@[simp] theorem State.updFrag_l2 (s : State) (i : StrandId) (n : Nat) (g : Frag → Frag) : (s.updFrag i n g).l2 = s.l2 := rfl
@[simp] theorem State.updFrag_reads (s : State) (i : StrandId) (n : Nat) (g : Frag → Frag) : (s.updFrag i n g).reads = s.reads := rfl
@[simp] theorem State.updFrag_syncs (s : State) (i : StrandId) (n : Nat) (g : Frag → Frag) : (s.updFrag i n g).syncs = s.syncs := rfl
@[simp] theorem State.updFrag_ctxs (s : State) (i : StrandId) (n : Nat) (g : Frag → Frag) : (s.updFrag i n g).ctxs = s.ctxs := rfl
@[simp] theorem State.updFrag_gens (s : State) (i : StrandId) (n : Nat) (g : Frag → Frag) : (s.updFrag i n g).gens = s.gens := rfl
@[simp] theorem State.updFrag_owners (s : State) (i : StrandId) (n : Nat) (g : Frag → Frag) : (s.updFrag i n g).owners = s.owners := rfl
@[simp] theorem State.updFrag_badLines (s : State) (i : StrandId) (n : Nat) (g : Frag → Frag) : (s.updFrag i n g).badLines = s.badLines := rfl
@[simp] theorem State.updFrag_channels (s : State) (i : StrandId) (n : Nat) (g : Frag → Frag) : (s.updFrag i n g).channels = s.channels := rfl
@[simp] theorem State.updFrag_nodes (s : State) (i : StrandId) (n : Nat) (g : Frag → Frag) : (s.updFrag i n g).nodes = s.nodes := rfl
@[simp] theorem State.updFrag_launched (s : State) (i : StrandId) (n : Nat) (g : Frag → Frag) : (s.updFrag i n g).launched = s.launched := rfl
@[simp] theorem State.updFrag_grids (s : State) (i : StrandId) (n : Nat) (g : Frag → Frag) : (s.updFrag i n g).grids = s.grids := rfl
@[simp] theorem State.updFrag_retRecs (s : State) (i : StrandId) (n : Nat) (g : Frag → Frag) : (s.updFrag i n g).retRecs = s.retRecs := rfl
@[simp] theorem State.updFrag_rrNode (s : State) (i : StrandId) (n : Nat) (g : Frag → Frag) : (s.updFrag i n g).rrNode = s.rrNode := rfl
@[simp] theorem State.updFrag_lastWeir (s : State) (i : StrandId) (n : Nat) (g : Frag → Frag) : (s.updFrag i n g).lastWeir = s.lastWeir := rfl
@[simp] theorem State.updFrag_weirCount (s : State) (i : StrandId) (n : Nat) (g : Frag → Frag) : (s.updFrag i n g).weirCount = s.weirCount := rfl
@[simp] theorem State.updFrag_emits (s : State) (i : StrandId) (n : Nat) (g : Frag → Frag) : (s.updFrag i n g).emits = s.emits := rfl
@[simp] theorem State.updFrag_adds (s : State) (i : StrandId) (n : Nat) (g : Frag → Frag) : (s.updFrag i n g).adds = s.adds := rfl
@[simp] theorem State.updFrag_targets (s : State) (i : StrandId) (n : Nat) (g : Frag → Frag) : (s.updFrag i n g).targets = s.targets := rfl
@[simp] theorem State.updFrag_copies (s : State) (i : StrandId) (n : Nat) (g : Frag → Frag) : (s.updFrag i n g).copies = s.copies := rfl
@[simp] theorem State.updFrag_unitCore (s : State) (i : StrandId) (n : Nat) (g : Frag → Frag) : (s.updFrag i n g).unitCore = s.unitCore := rfl
@[simp] theorem State.updFrag_unitCopy (s : State) (i : StrandId) (n : Nat) (g : Frag → Frag) : (s.updFrag i n g).unitCopy = s.unitCopy := rfl
@[simp] theorem State.updFrag_prefetches (s : State) (i : StrandId) (n : Nat) (g : Frag → Frag) : (s.updFrag i n g).prefetches = s.prefetches := rfl
@[simp] theorem State.updFrag_homeTable (s : State) (i : StrandId) (n : Nat) (g : Frag → Frag) : (s.updFrag i n g).homeTable = s.homeTable := rfl
@[simp] theorem State.updFrag_wins (s : State) (i : StrandId) (n : Nat) (g : Frag → Frag) : (s.updFrag i n g).wins = s.wins := rfl
@[simp] theorem State.updFrag_out (s : State) (i : StrandId) (n : Nat) (g : Frag → Frag) : (s.updFrag i n g).out = s.out := rfl
@[simp] theorem State.updFrag_notices (s : State) (i : StrandId) (n : Nat) (g : Frag → Frag) : (s.updFrag i n g).notices = s.notices := rfl
@[simp] theorem State.updFrag_waiting (s : State) (i : StrandId) (n : Nat) (g : Frag → Frag) : (s.updFrag i n g).waiting = s.waiting := rfl
@[simp] theorem State.updFrag_cmds (s : State) (i : StrandId) (n : Nat) (g : Frag → Frag) : (s.updFrag i n g).cmds = s.cmds := rfl
@[simp] theorem State.updFrag_trust (s : State) (i : StrandId) (n : Nat) (g : Frag → Frag) : (s.updFrag i n g).trust = s.trust := rfl
@[simp] theorem State.updFrag_doms (s : State) (i : StrandId) (n : Nat) (g : Frag → Frag) : (s.updFrag i n g).doms = s.doms := rfl
@[simp] theorem State.updFrag_devErrs (s : State) (i : StrandId) (n : Nat) (g : Frag → Frag) : (s.updFrag i n g).devErrs = s.devErrs := rfl
@[simp] theorem State.updFrag_devErrNext (s : State) (i : StrandId) (n : Nat) (g : Frag → Frag) : (s.updFrag i n g).devErrNext = s.devErrNext := rfl
@[simp] theorem State.updFrag_dbg (s : State) (i : StrandId) (n : Nat) (g : Frag → Frag) : (s.updFrag i n g).dbg = s.dbg := rfl
@[simp] theorem State.updFrag_pledans (s : State) (i : StrandId) (n : Nat) (g : Frag → Frag) : (s.updFrag i n g).pledans = s.pledans := rfl
@[simp] theorem State.updFrag_rinse (s : State) (i : StrandId) (n : Nat) (g : Frag → Frag) : (s.updFrag i n g).rinse = s.rinse := rfl
@[simp] theorem State.updFrag_fabric (s : State) (i : StrandId) (n : Nat) (g : Frag → Frag) : (s.updFrag i n g).fabric = s.fabric := rfl
@[simp] theorem State.updFrag_ueGets (s : State) (i : StrandId) (n : Nat) (g : Frag → Frag) : (s.updFrag i n g).ueGets = s.ueGets := rfl
@[simp] theorem State.updFrag_hostOps (s : State) (i : StrandId) (n : Nat) (g : Frag → Frag) : (s.updFrag i n g).hostOps = s.hostOps := rfl
@[simp] theorem State.updFrag_plat (s : State) (i : StrandId) (n : Nat) (g : Frag → Frag) : (s.updFrag i n g).plat = s.plat := rfl

/-! ### A lane -/

@[simp] theorem State.updLane_moves (s : State) (i : StrandId) (g : Lane → Lane) : (s.updLane i g).moves = s.moves := rfl
@[simp] theorem State.updLane_free (s : State) (i : StrandId) (g : Lane → Lane) : (s.updLane i g).free = s.free := rfl
@[simp] theorem State.updLane_cur (s : State) (i : StrandId) (g : Lane → Lane) : (s.updLane i g).cur = s.cur := rfl
@[simp] theorem State.updLane_serial (s : State) (i : StrandId) (g : Lane → Lane) : (s.updLane i g).serial = s.serial := rfl
@[simp] theorem State.updLane_clock (s : State) (i : StrandId) (g : Lane → Lane) : (s.updLane i g).clock = s.clock := rfl
@[simp] theorem State.updLane_mem (s : State) (i : StrandId) (g : Lane → Lane) : (s.updLane i g).mem = s.mem := rfl
@[simp] theorem State.updLane_tier (s : State) (i : StrandId) (g : Lane → Lane) : (s.updLane i g).tier = s.tier := rfl
@[simp] theorem State.updLane_tierCache (s : State) (i : StrandId) (g : Lane → Lane) : (s.updLane i g).tierCache = s.tierCache := rfl
@[simp] theorem State.updLane_strands (s : State) (i : StrandId) (g : Lane → Lane) : (s.updLane i g).strands = s.strands := rfl
@[simp] theorem State.updLane_wgs (s : State) (i : StrandId) (g : Lane → Lane) : (s.updLane i g).wgs = s.wgs := rfl
@[simp] theorem State.updLane_accs (s : State) (i : StrandId) (g : Lane → Lane) : (s.updLane i g).accs = s.accs := rfl
@[simp] theorem State.updLane_walks (s : State) (i : StrandId) (g : Lane → Lane) : (s.updLane i g).walks = s.walks := rfl
@[simp] theorem State.updLane_pageReqs (s : State) (i : StrandId) (g : Lane → Lane) : (s.updLane i g).pageReqs = s.pageReqs := rfl
@[simp] theorem State.updLane_fails (s : State) (i : StrandId) (g : Lane → Lane) : (s.updLane i g).fails = s.fails := rfl
@[simp] theorem State.updLane_sharedTlb (s : State) (i : StrandId) (g : Lane → Lane) : (s.updLane i g).sharedTlb = s.sharedTlb := rfl
@[simp] theorem State.updLane_walkCache (s : State) (i : StrandId) (g : Lane → Lane) : (s.updLane i g).walkCache = s.walkCache := rfl
@[simp] theorem State.updLane_l2 (s : State) (i : StrandId) (g : Lane → Lane) : (s.updLane i g).l2 = s.l2 := rfl
@[simp] theorem State.updLane_reads (s : State) (i : StrandId) (g : Lane → Lane) : (s.updLane i g).reads = s.reads := rfl
@[simp] theorem State.updLane_syncs (s : State) (i : StrandId) (g : Lane → Lane) : (s.updLane i g).syncs = s.syncs := rfl
@[simp] theorem State.updLane_ctxs (s : State) (i : StrandId) (g : Lane → Lane) : (s.updLane i g).ctxs = s.ctxs := rfl
@[simp] theorem State.updLane_gens (s : State) (i : StrandId) (g : Lane → Lane) : (s.updLane i g).gens = s.gens := rfl
@[simp] theorem State.updLane_owners (s : State) (i : StrandId) (g : Lane → Lane) : (s.updLane i g).owners = s.owners := rfl
@[simp] theorem State.updLane_badLines (s : State) (i : StrandId) (g : Lane → Lane) : (s.updLane i g).badLines = s.badLines := rfl
@[simp] theorem State.updLane_channels (s : State) (i : StrandId) (g : Lane → Lane) : (s.updLane i g).channels = s.channels := rfl
@[simp] theorem State.updLane_nodes (s : State) (i : StrandId) (g : Lane → Lane) : (s.updLane i g).nodes = s.nodes := rfl
@[simp] theorem State.updLane_launched (s : State) (i : StrandId) (g : Lane → Lane) : (s.updLane i g).launched = s.launched := rfl
@[simp] theorem State.updLane_grids (s : State) (i : StrandId) (g : Lane → Lane) : (s.updLane i g).grids = s.grids := rfl
@[simp] theorem State.updLane_retRecs (s : State) (i : StrandId) (g : Lane → Lane) : (s.updLane i g).retRecs = s.retRecs := rfl
@[simp] theorem State.updLane_rrNode (s : State) (i : StrandId) (g : Lane → Lane) : (s.updLane i g).rrNode = s.rrNode := rfl
@[simp] theorem State.updLane_lastWeir (s : State) (i : StrandId) (g : Lane → Lane) : (s.updLane i g).lastWeir = s.lastWeir := rfl
@[simp] theorem State.updLane_weirCount (s : State) (i : StrandId) (g : Lane → Lane) : (s.updLane i g).weirCount = s.weirCount := rfl
@[simp] theorem State.updLane_emits (s : State) (i : StrandId) (g : Lane → Lane) : (s.updLane i g).emits = s.emits := rfl
@[simp] theorem State.updLane_adds (s : State) (i : StrandId) (g : Lane → Lane) : (s.updLane i g).adds = s.adds := rfl
@[simp] theorem State.updLane_targets (s : State) (i : StrandId) (g : Lane → Lane) : (s.updLane i g).targets = s.targets := rfl
@[simp] theorem State.updLane_copies (s : State) (i : StrandId) (g : Lane → Lane) : (s.updLane i g).copies = s.copies := rfl
@[simp] theorem State.updLane_unitCore (s : State) (i : StrandId) (g : Lane → Lane) : (s.updLane i g).unitCore = s.unitCore := rfl
@[simp] theorem State.updLane_unitCopy (s : State) (i : StrandId) (g : Lane → Lane) : (s.updLane i g).unitCopy = s.unitCopy := rfl
@[simp] theorem State.updLane_prefetches (s : State) (i : StrandId) (g : Lane → Lane) : (s.updLane i g).prefetches = s.prefetches := rfl
@[simp] theorem State.updLane_homeTable (s : State) (i : StrandId) (g : Lane → Lane) : (s.updLane i g).homeTable = s.homeTable := rfl
@[simp] theorem State.updLane_wins (s : State) (i : StrandId) (g : Lane → Lane) : (s.updLane i g).wins = s.wins := rfl
@[simp] theorem State.updLane_out (s : State) (i : StrandId) (g : Lane → Lane) : (s.updLane i g).out = s.out := rfl
@[simp] theorem State.updLane_notices (s : State) (i : StrandId) (g : Lane → Lane) : (s.updLane i g).notices = s.notices := rfl
@[simp] theorem State.updLane_waiting (s : State) (i : StrandId) (g : Lane → Lane) : (s.updLane i g).waiting = s.waiting := rfl
@[simp] theorem State.updLane_cmds (s : State) (i : StrandId) (g : Lane → Lane) : (s.updLane i g).cmds = s.cmds := rfl
@[simp] theorem State.updLane_trust (s : State) (i : StrandId) (g : Lane → Lane) : (s.updLane i g).trust = s.trust := rfl
@[simp] theorem State.updLane_doms (s : State) (i : StrandId) (g : Lane → Lane) : (s.updLane i g).doms = s.doms := rfl
@[simp] theorem State.updLane_devErrs (s : State) (i : StrandId) (g : Lane → Lane) : (s.updLane i g).devErrs = s.devErrs := rfl
@[simp] theorem State.updLane_devErrNext (s : State) (i : StrandId) (g : Lane → Lane) : (s.updLane i g).devErrNext = s.devErrNext := rfl
@[simp] theorem State.updLane_dbg (s : State) (i : StrandId) (g : Lane → Lane) : (s.updLane i g).dbg = s.dbg := rfl
@[simp] theorem State.updLane_pledans (s : State) (i : StrandId) (g : Lane → Lane) : (s.updLane i g).pledans = s.pledans := rfl
@[simp] theorem State.updLane_rinse (s : State) (i : StrandId) (g : Lane → Lane) : (s.updLane i g).rinse = s.rinse := rfl
@[simp] theorem State.updLane_fabric (s : State) (i : StrandId) (g : Lane → Lane) : (s.updLane i g).fabric = s.fabric := rfl
@[simp] theorem State.updLane_ueGets (s : State) (i : StrandId) (g : Lane → Lane) : (s.updLane i g).ueGets = s.ueGets := rfl
@[simp] theorem State.updLane_hostOps (s : State) (i : StrandId) (g : Lane → Lane) : (s.updLane i g).hostOps = s.hostOps := rfl
@[simp] theorem State.updLane_plat (s : State) (i : StrandId) (g : Lane → Lane) : (s.updLane i g).plat = s.plat := rfl

/-! ### The instruction address -/

@[simp] theorem State.setPc_moves (s : State) (m : Me) (pc : W64) : (s.setPc m pc).moves = s.moves := rfl
@[simp] theorem State.setPc_free (s : State) (m : Me) (pc : W64) : (s.setPc m pc).free = s.free := rfl
@[simp] theorem State.setPc_cur (s : State) (m : Me) (pc : W64) : (s.setPc m pc).cur = s.cur := rfl
@[simp] theorem State.setPc_serial (s : State) (m : Me) (pc : W64) : (s.setPc m pc).serial = s.serial := rfl
@[simp] theorem State.setPc_clock (s : State) (m : Me) (pc : W64) : (s.setPc m pc).clock = s.clock := rfl
@[simp] theorem State.setPc_mem (s : State) (m : Me) (pc : W64) : (s.setPc m pc).mem = s.mem := rfl
@[simp] theorem State.setPc_tier (s : State) (m : Me) (pc : W64) : (s.setPc m pc).tier = s.tier := rfl
@[simp] theorem State.setPc_tierCache (s : State) (m : Me) (pc : W64) : (s.setPc m pc).tierCache = s.tierCache := rfl
@[simp] theorem State.setPc_wgs (s : State) (m : Me) (pc : W64) : (s.setPc m pc).wgs = s.wgs := rfl
@[simp] theorem State.setPc_cores (s : State) (m : Me) (pc : W64) : (s.setPc m pc).cores = s.cores := rfl
@[simp] theorem State.setPc_accs (s : State) (m : Me) (pc : W64) : (s.setPc m pc).accs = s.accs := rfl
@[simp] theorem State.setPc_walks (s : State) (m : Me) (pc : W64) : (s.setPc m pc).walks = s.walks := rfl
@[simp] theorem State.setPc_pageReqs (s : State) (m : Me) (pc : W64) : (s.setPc m pc).pageReqs = s.pageReqs := rfl
@[simp] theorem State.setPc_fails (s : State) (m : Me) (pc : W64) : (s.setPc m pc).fails = s.fails := rfl
@[simp] theorem State.setPc_sharedTlb (s : State) (m : Me) (pc : W64) : (s.setPc m pc).sharedTlb = s.sharedTlb := rfl
@[simp] theorem State.setPc_walkCache (s : State) (m : Me) (pc : W64) : (s.setPc m pc).walkCache = s.walkCache := rfl
@[simp] theorem State.setPc_l2 (s : State) (m : Me) (pc : W64) : (s.setPc m pc).l2 = s.l2 := rfl
@[simp] theorem State.setPc_reads (s : State) (m : Me) (pc : W64) : (s.setPc m pc).reads = s.reads := rfl
@[simp] theorem State.setPc_syncs (s : State) (m : Me) (pc : W64) : (s.setPc m pc).syncs = s.syncs := rfl
@[simp] theorem State.setPc_ctxs (s : State) (m : Me) (pc : W64) : (s.setPc m pc).ctxs = s.ctxs := rfl
@[simp] theorem State.setPc_gens (s : State) (m : Me) (pc : W64) : (s.setPc m pc).gens = s.gens := rfl
@[simp] theorem State.setPc_owners (s : State) (m : Me) (pc : W64) : (s.setPc m pc).owners = s.owners := rfl
@[simp] theorem State.setPc_badLines (s : State) (m : Me) (pc : W64) : (s.setPc m pc).badLines = s.badLines := rfl
@[simp] theorem State.setPc_channels (s : State) (m : Me) (pc : W64) : (s.setPc m pc).channels = s.channels := rfl
@[simp] theorem State.setPc_nodes (s : State) (m : Me) (pc : W64) : (s.setPc m pc).nodes = s.nodes := rfl
@[simp] theorem State.setPc_launched (s : State) (m : Me) (pc : W64) : (s.setPc m pc).launched = s.launched := rfl
@[simp] theorem State.setPc_grids (s : State) (m : Me) (pc : W64) : (s.setPc m pc).grids = s.grids := rfl
@[simp] theorem State.setPc_retRecs (s : State) (m : Me) (pc : W64) : (s.setPc m pc).retRecs = s.retRecs := rfl
@[simp] theorem State.setPc_rrNode (s : State) (m : Me) (pc : W64) : (s.setPc m pc).rrNode = s.rrNode := rfl
@[simp] theorem State.setPc_lastWeir (s : State) (m : Me) (pc : W64) : (s.setPc m pc).lastWeir = s.lastWeir := rfl
@[simp] theorem State.setPc_weirCount (s : State) (m : Me) (pc : W64) : (s.setPc m pc).weirCount = s.weirCount := rfl
@[simp] theorem State.setPc_emits (s : State) (m : Me) (pc : W64) : (s.setPc m pc).emits = s.emits := rfl
@[simp] theorem State.setPc_adds (s : State) (m : Me) (pc : W64) : (s.setPc m pc).adds = s.adds := rfl
@[simp] theorem State.setPc_targets (s : State) (m : Me) (pc : W64) : (s.setPc m pc).targets = s.targets := rfl
@[simp] theorem State.setPc_copies (s : State) (m : Me) (pc : W64) : (s.setPc m pc).copies = s.copies := rfl
@[simp] theorem State.setPc_unitCore (s : State) (m : Me) (pc : W64) : (s.setPc m pc).unitCore = s.unitCore := rfl
@[simp] theorem State.setPc_unitCopy (s : State) (m : Me) (pc : W64) : (s.setPc m pc).unitCopy = s.unitCopy := rfl
@[simp] theorem State.setPc_prefetches (s : State) (m : Me) (pc : W64) : (s.setPc m pc).prefetches = s.prefetches := rfl
@[simp] theorem State.setPc_homeTable (s : State) (m : Me) (pc : W64) : (s.setPc m pc).homeTable = s.homeTable := rfl
@[simp] theorem State.setPc_wins (s : State) (m : Me) (pc : W64) : (s.setPc m pc).wins = s.wins := rfl
@[simp] theorem State.setPc_out (s : State) (m : Me) (pc : W64) : (s.setPc m pc).out = s.out := rfl
@[simp] theorem State.setPc_notices (s : State) (m : Me) (pc : W64) : (s.setPc m pc).notices = s.notices := rfl
@[simp] theorem State.setPc_waiting (s : State) (m : Me) (pc : W64) : (s.setPc m pc).waiting = s.waiting := rfl
@[simp] theorem State.setPc_cmds (s : State) (m : Me) (pc : W64) : (s.setPc m pc).cmds = s.cmds := rfl
@[simp] theorem State.setPc_trust (s : State) (m : Me) (pc : W64) : (s.setPc m pc).trust = s.trust := rfl
@[simp] theorem State.setPc_doms (s : State) (m : Me) (pc : W64) : (s.setPc m pc).doms = s.doms := rfl
@[simp] theorem State.setPc_devErrs (s : State) (m : Me) (pc : W64) : (s.setPc m pc).devErrs = s.devErrs := rfl
@[simp] theorem State.setPc_devErrNext (s : State) (m : Me) (pc : W64) : (s.setPc m pc).devErrNext = s.devErrNext := rfl
@[simp] theorem State.setPc_dbg (s : State) (m : Me) (pc : W64) : (s.setPc m pc).dbg = s.dbg := rfl
@[simp] theorem State.setPc_pledans (s : State) (m : Me) (pc : W64) : (s.setPc m pc).pledans = s.pledans := rfl
@[simp] theorem State.setPc_rinse (s : State) (m : Me) (pc : W64) : (s.setPc m pc).rinse = s.rinse := rfl
@[simp] theorem State.setPc_fabric (s : State) (m : Me) (pc : W64) : (s.setPc m pc).fabric = s.fabric := rfl
@[simp] theorem State.setPc_ueGets (s : State) (m : Me) (pc : W64) : (s.setPc m pc).ueGets = s.ueGets := rfl
@[simp] theorem State.setPc_hostOps (s : State) (m : Me) (pc : W64) : (s.setPc m pc).hostOps = s.hostOps := rfl
@[simp] theorem State.setPc_plat (s : State) (m : Me) (pc : W64) : (s.setPc m pc).plat = s.plat := rfl

/-! ### An occupied lane -/

@[simp] theorem State.occupy_moves (s : State) (m : Me) (n : Nat) : (s.occupy m n).moves = s.moves := rfl
@[simp] theorem State.occupy_free (s : State) (m : Me) (n : Nat) : (s.occupy m n).free = s.free := rfl
@[simp] theorem State.occupy_cur (s : State) (m : Me) (n : Nat) : (s.occupy m n).cur = s.cur := rfl
@[simp] theorem State.occupy_serial (s : State) (m : Me) (n : Nat) : (s.occupy m n).serial = s.serial := rfl
@[simp] theorem State.occupy_clock (s : State) (m : Me) (n : Nat) : (s.occupy m n).clock = s.clock := rfl
@[simp] theorem State.occupy_mem (s : State) (m : Me) (n : Nat) : (s.occupy m n).mem = s.mem := rfl
@[simp] theorem State.occupy_tier (s : State) (m : Me) (n : Nat) : (s.occupy m n).tier = s.tier := rfl
@[simp] theorem State.occupy_tierCache (s : State) (m : Me) (n : Nat) : (s.occupy m n).tierCache = s.tierCache := rfl
@[simp] theorem State.occupy_strands (s : State) (m : Me) (n : Nat) : (s.occupy m n).strands = s.strands := rfl
@[simp] theorem State.occupy_wgs (s : State) (m : Me) (n : Nat) : (s.occupy m n).wgs = s.wgs := rfl
@[simp] theorem State.occupy_accs (s : State) (m : Me) (n : Nat) : (s.occupy m n).accs = s.accs := rfl
@[simp] theorem State.occupy_walks (s : State) (m : Me) (n : Nat) : (s.occupy m n).walks = s.walks := rfl
@[simp] theorem State.occupy_pageReqs (s : State) (m : Me) (n : Nat) : (s.occupy m n).pageReqs = s.pageReqs := rfl
@[simp] theorem State.occupy_fails (s : State) (m : Me) (n : Nat) : (s.occupy m n).fails = s.fails := rfl
@[simp] theorem State.occupy_sharedTlb (s : State) (m : Me) (n : Nat) : (s.occupy m n).sharedTlb = s.sharedTlb := rfl
@[simp] theorem State.occupy_walkCache (s : State) (m : Me) (n : Nat) : (s.occupy m n).walkCache = s.walkCache := rfl
@[simp] theorem State.occupy_l2 (s : State) (m : Me) (n : Nat) : (s.occupy m n).l2 = s.l2 := rfl
@[simp] theorem State.occupy_reads (s : State) (m : Me) (n : Nat) : (s.occupy m n).reads = s.reads := rfl
@[simp] theorem State.occupy_syncs (s : State) (m : Me) (n : Nat) : (s.occupy m n).syncs = s.syncs := rfl
@[simp] theorem State.occupy_ctxs (s : State) (m : Me) (n : Nat) : (s.occupy m n).ctxs = s.ctxs := rfl
@[simp] theorem State.occupy_gens (s : State) (m : Me) (n : Nat) : (s.occupy m n).gens = s.gens := rfl
@[simp] theorem State.occupy_owners (s : State) (m : Me) (n : Nat) : (s.occupy m n).owners = s.owners := rfl
@[simp] theorem State.occupy_badLines (s : State) (m : Me) (n : Nat) : (s.occupy m n).badLines = s.badLines := rfl
@[simp] theorem State.occupy_channels (s : State) (m : Me) (n : Nat) : (s.occupy m n).channels = s.channels := rfl
@[simp] theorem State.occupy_nodes (s : State) (m : Me) (n : Nat) : (s.occupy m n).nodes = s.nodes := rfl
@[simp] theorem State.occupy_launched (s : State) (m : Me) (n : Nat) : (s.occupy m n).launched = s.launched := rfl
@[simp] theorem State.occupy_grids (s : State) (m : Me) (n : Nat) : (s.occupy m n).grids = s.grids := rfl
@[simp] theorem State.occupy_retRecs (s : State) (m : Me) (n : Nat) : (s.occupy m n).retRecs = s.retRecs := rfl
@[simp] theorem State.occupy_rrNode (s : State) (m : Me) (n : Nat) : (s.occupy m n).rrNode = s.rrNode := rfl
@[simp] theorem State.occupy_lastWeir (s : State) (m : Me) (n : Nat) : (s.occupy m n).lastWeir = s.lastWeir := rfl
@[simp] theorem State.occupy_weirCount (s : State) (m : Me) (n : Nat) : (s.occupy m n).weirCount = s.weirCount := rfl
@[simp] theorem State.occupy_emits (s : State) (m : Me) (n : Nat) : (s.occupy m n).emits = s.emits := rfl
@[simp] theorem State.occupy_adds (s : State) (m : Me) (n : Nat) : (s.occupy m n).adds = s.adds := rfl
@[simp] theorem State.occupy_targets (s : State) (m : Me) (n : Nat) : (s.occupy m n).targets = s.targets := rfl
@[simp] theorem State.occupy_copies (s : State) (m : Me) (n : Nat) : (s.occupy m n).copies = s.copies := rfl
@[simp] theorem State.occupy_unitCore (s : State) (m : Me) (n : Nat) : (s.occupy m n).unitCore = s.unitCore := rfl
@[simp] theorem State.occupy_unitCopy (s : State) (m : Me) (n : Nat) : (s.occupy m n).unitCopy = s.unitCopy := rfl
@[simp] theorem State.occupy_prefetches (s : State) (m : Me) (n : Nat) : (s.occupy m n).prefetches = s.prefetches := rfl
@[simp] theorem State.occupy_homeTable (s : State) (m : Me) (n : Nat) : (s.occupy m n).homeTable = s.homeTable := rfl
@[simp] theorem State.occupy_wins (s : State) (m : Me) (n : Nat) : (s.occupy m n).wins = s.wins := rfl
@[simp] theorem State.occupy_out (s : State) (m : Me) (n : Nat) : (s.occupy m n).out = s.out := rfl
@[simp] theorem State.occupy_notices (s : State) (m : Me) (n : Nat) : (s.occupy m n).notices = s.notices := rfl
@[simp] theorem State.occupy_waiting (s : State) (m : Me) (n : Nat) : (s.occupy m n).waiting = s.waiting := rfl
@[simp] theorem State.occupy_cmds (s : State) (m : Me) (n : Nat) : (s.occupy m n).cmds = s.cmds := rfl
@[simp] theorem State.occupy_trust (s : State) (m : Me) (n : Nat) : (s.occupy m n).trust = s.trust := rfl
@[simp] theorem State.occupy_doms (s : State) (m : Me) (n : Nat) : (s.occupy m n).doms = s.doms := rfl
@[simp] theorem State.occupy_devErrs (s : State) (m : Me) (n : Nat) : (s.occupy m n).devErrs = s.devErrs := rfl
@[simp] theorem State.occupy_devErrNext (s : State) (m : Me) (n : Nat) : (s.occupy m n).devErrNext = s.devErrNext := rfl
@[simp] theorem State.occupy_dbg (s : State) (m : Me) (n : Nat) : (s.occupy m n).dbg = s.dbg := rfl
@[simp] theorem State.occupy_pledans (s : State) (m : Me) (n : Nat) : (s.occupy m n).pledans = s.pledans := rfl
@[simp] theorem State.occupy_rinse (s : State) (m : Me) (n : Nat) : (s.occupy m n).rinse = s.rinse := rfl
@[simp] theorem State.occupy_fabric (s : State) (m : Me) (n : Nat) : (s.occupy m n).fabric = s.fabric := rfl
@[simp] theorem State.occupy_ueGets (s : State) (m : Me) (n : Nat) : (s.occupy m n).ueGets = s.ueGets := rfl
@[simp] theorem State.occupy_hostOps (s : State) (m : Me) (n : Nat) : (s.occupy m n).hostOps = s.hostOps := rfl
@[simp] theorem State.occupy_plat (s : State) (m : Me) (n : Nat) : (s.occupy m n).plat = s.plat := rfl

/-! ### RC -/

@[simp] theorem State.setRc_moves (s : State) (m : Me) (n : Nat) : (s.setRc m n).moves = s.moves := rfl
@[simp] theorem State.setRc_free (s : State) (m : Me) (n : Nat) : (s.setRc m n).free = s.free := rfl
@[simp] theorem State.setRc_cur (s : State) (m : Me) (n : Nat) : (s.setRc m n).cur = s.cur := rfl
@[simp] theorem State.setRc_serial (s : State) (m : Me) (n : Nat) : (s.setRc m n).serial = s.serial := rfl
@[simp] theorem State.setRc_clock (s : State) (m : Me) (n : Nat) : (s.setRc m n).clock = s.clock := rfl
@[simp] theorem State.setRc_mem (s : State) (m : Me) (n : Nat) : (s.setRc m n).mem = s.mem := rfl
@[simp] theorem State.setRc_tier (s : State) (m : Me) (n : Nat) : (s.setRc m n).tier = s.tier := rfl
@[simp] theorem State.setRc_tierCache (s : State) (m : Me) (n : Nat) : (s.setRc m n).tierCache = s.tierCache := rfl
@[simp] theorem State.setRc_wgs (s : State) (m : Me) (n : Nat) : (s.setRc m n).wgs = s.wgs := rfl
@[simp] theorem State.setRc_cores (s : State) (m : Me) (n : Nat) : (s.setRc m n).cores = s.cores := rfl
@[simp] theorem State.setRc_accs (s : State) (m : Me) (n : Nat) : (s.setRc m n).accs = s.accs := rfl
@[simp] theorem State.setRc_walks (s : State) (m : Me) (n : Nat) : (s.setRc m n).walks = s.walks := rfl
@[simp] theorem State.setRc_pageReqs (s : State) (m : Me) (n : Nat) : (s.setRc m n).pageReqs = s.pageReqs := rfl
@[simp] theorem State.setRc_fails (s : State) (m : Me) (n : Nat) : (s.setRc m n).fails = s.fails := rfl
@[simp] theorem State.setRc_sharedTlb (s : State) (m : Me) (n : Nat) : (s.setRc m n).sharedTlb = s.sharedTlb := rfl
@[simp] theorem State.setRc_walkCache (s : State) (m : Me) (n : Nat) : (s.setRc m n).walkCache = s.walkCache := rfl
@[simp] theorem State.setRc_l2 (s : State) (m : Me) (n : Nat) : (s.setRc m n).l2 = s.l2 := rfl
@[simp] theorem State.setRc_reads (s : State) (m : Me) (n : Nat) : (s.setRc m n).reads = s.reads := rfl
@[simp] theorem State.setRc_syncs (s : State) (m : Me) (n : Nat) : (s.setRc m n).syncs = s.syncs := rfl
@[simp] theorem State.setRc_ctxs (s : State) (m : Me) (n : Nat) : (s.setRc m n).ctxs = s.ctxs := rfl
@[simp] theorem State.setRc_gens (s : State) (m : Me) (n : Nat) : (s.setRc m n).gens = s.gens := rfl
@[simp] theorem State.setRc_owners (s : State) (m : Me) (n : Nat) : (s.setRc m n).owners = s.owners := rfl
@[simp] theorem State.setRc_badLines (s : State) (m : Me) (n : Nat) : (s.setRc m n).badLines = s.badLines := rfl
@[simp] theorem State.setRc_channels (s : State) (m : Me) (n : Nat) : (s.setRc m n).channels = s.channels := rfl
@[simp] theorem State.setRc_nodes (s : State) (m : Me) (n : Nat) : (s.setRc m n).nodes = s.nodes := rfl
@[simp] theorem State.setRc_launched (s : State) (m : Me) (n : Nat) : (s.setRc m n).launched = s.launched := rfl
@[simp] theorem State.setRc_grids (s : State) (m : Me) (n : Nat) : (s.setRc m n).grids = s.grids := rfl
@[simp] theorem State.setRc_retRecs (s : State) (m : Me) (n : Nat) : (s.setRc m n).retRecs = s.retRecs := rfl
@[simp] theorem State.setRc_rrNode (s : State) (m : Me) (n : Nat) : (s.setRc m n).rrNode = s.rrNode := rfl
@[simp] theorem State.setRc_lastWeir (s : State) (m : Me) (n : Nat) : (s.setRc m n).lastWeir = s.lastWeir := rfl
@[simp] theorem State.setRc_weirCount (s : State) (m : Me) (n : Nat) : (s.setRc m n).weirCount = s.weirCount := rfl
@[simp] theorem State.setRc_emits (s : State) (m : Me) (n : Nat) : (s.setRc m n).emits = s.emits := rfl
@[simp] theorem State.setRc_adds (s : State) (m : Me) (n : Nat) : (s.setRc m n).adds = s.adds := rfl
@[simp] theorem State.setRc_targets (s : State) (m : Me) (n : Nat) : (s.setRc m n).targets = s.targets := rfl
@[simp] theorem State.setRc_copies (s : State) (m : Me) (n : Nat) : (s.setRc m n).copies = s.copies := rfl
@[simp] theorem State.setRc_unitCore (s : State) (m : Me) (n : Nat) : (s.setRc m n).unitCore = s.unitCore := rfl
@[simp] theorem State.setRc_unitCopy (s : State) (m : Me) (n : Nat) : (s.setRc m n).unitCopy = s.unitCopy := rfl
@[simp] theorem State.setRc_prefetches (s : State) (m : Me) (n : Nat) : (s.setRc m n).prefetches = s.prefetches := rfl
@[simp] theorem State.setRc_homeTable (s : State) (m : Me) (n : Nat) : (s.setRc m n).homeTable = s.homeTable := rfl
@[simp] theorem State.setRc_wins (s : State) (m : Me) (n : Nat) : (s.setRc m n).wins = s.wins := rfl
@[simp] theorem State.setRc_out (s : State) (m : Me) (n : Nat) : (s.setRc m n).out = s.out := rfl
@[simp] theorem State.setRc_notices (s : State) (m : Me) (n : Nat) : (s.setRc m n).notices = s.notices := rfl
@[simp] theorem State.setRc_waiting (s : State) (m : Me) (n : Nat) : (s.setRc m n).waiting = s.waiting := rfl
@[simp] theorem State.setRc_cmds (s : State) (m : Me) (n : Nat) : (s.setRc m n).cmds = s.cmds := rfl
@[simp] theorem State.setRc_trust (s : State) (m : Me) (n : Nat) : (s.setRc m n).trust = s.trust := rfl
@[simp] theorem State.setRc_doms (s : State) (m : Me) (n : Nat) : (s.setRc m n).doms = s.doms := rfl
@[simp] theorem State.setRc_devErrs (s : State) (m : Me) (n : Nat) : (s.setRc m n).devErrs = s.devErrs := rfl
@[simp] theorem State.setRc_devErrNext (s : State) (m : Me) (n : Nat) : (s.setRc m n).devErrNext = s.devErrNext := rfl
@[simp] theorem State.setRc_dbg (s : State) (m : Me) (n : Nat) : (s.setRc m n).dbg = s.dbg := rfl
@[simp] theorem State.setRc_pledans (s : State) (m : Me) (n : Nat) : (s.setRc m n).pledans = s.pledans := rfl
@[simp] theorem State.setRc_rinse (s : State) (m : Me) (n : Nat) : (s.setRc m n).rinse = s.rinse := rfl
@[simp] theorem State.setRc_fabric (s : State) (m : Me) (n : Nat) : (s.setRc m n).fabric = s.fabric := rfl
@[simp] theorem State.setRc_ueGets (s : State) (m : Me) (n : Nat) : (s.setRc m n).ueGets = s.ueGets := rfl
@[simp] theorem State.setRc_hostOps (s : State) (m : Me) (n : Nat) : (s.setRc m n).hostOps = s.hostOps := rfl
@[simp] theorem State.setRc_plat (s : State) (m : Me) (n : Nat) : (s.setRc m n).plat = s.plat := rfl

/-! ### A yield point -/

@[simp] theorem State.yieldPoint_moves (s : State) (m : Me) : (s.yieldPoint m).moves = s.moves := rfl
@[simp] theorem State.yieldPoint_free (s : State) (m : Me) : (s.yieldPoint m).free = s.free := rfl
@[simp] theorem State.yieldPoint_cur (s : State) (m : Me) : (s.yieldPoint m).cur = s.cur := rfl
@[simp] theorem State.yieldPoint_serial (s : State) (m : Me) : (s.yieldPoint m).serial = s.serial := rfl
@[simp] theorem State.yieldPoint_clock (s : State) (m : Me) : (s.yieldPoint m).clock = s.clock := rfl
@[simp] theorem State.yieldPoint_mem (s : State) (m : Me) : (s.yieldPoint m).mem = s.mem := rfl
@[simp] theorem State.yieldPoint_tier (s : State) (m : Me) : (s.yieldPoint m).tier = s.tier := rfl
@[simp] theorem State.yieldPoint_tierCache (s : State) (m : Me) : (s.yieldPoint m).tierCache = s.tierCache := rfl
@[simp] theorem State.yieldPoint_wgs (s : State) (m : Me) : (s.yieldPoint m).wgs = s.wgs := rfl
@[simp] theorem State.yieldPoint_accs (s : State) (m : Me) : (s.yieldPoint m).accs = s.accs := rfl
@[simp] theorem State.yieldPoint_walks (s : State) (m : Me) : (s.yieldPoint m).walks = s.walks := rfl
@[simp] theorem State.yieldPoint_pageReqs (s : State) (m : Me) : (s.yieldPoint m).pageReqs = s.pageReqs := rfl
@[simp] theorem State.yieldPoint_fails (s : State) (m : Me) : (s.yieldPoint m).fails = s.fails := rfl
@[simp] theorem State.yieldPoint_sharedTlb (s : State) (m : Me) : (s.yieldPoint m).sharedTlb = s.sharedTlb := rfl
@[simp] theorem State.yieldPoint_walkCache (s : State) (m : Me) : (s.yieldPoint m).walkCache = s.walkCache := rfl
@[simp] theorem State.yieldPoint_l2 (s : State) (m : Me) : (s.yieldPoint m).l2 = s.l2 := rfl
@[simp] theorem State.yieldPoint_reads (s : State) (m : Me) : (s.yieldPoint m).reads = s.reads := rfl
@[simp] theorem State.yieldPoint_syncs (s : State) (m : Me) : (s.yieldPoint m).syncs = s.syncs := rfl
@[simp] theorem State.yieldPoint_ctxs (s : State) (m : Me) : (s.yieldPoint m).ctxs = s.ctxs := rfl
@[simp] theorem State.yieldPoint_gens (s : State) (m : Me) : (s.yieldPoint m).gens = s.gens := rfl
@[simp] theorem State.yieldPoint_owners (s : State) (m : Me) : (s.yieldPoint m).owners = s.owners := rfl
@[simp] theorem State.yieldPoint_badLines (s : State) (m : Me) : (s.yieldPoint m).badLines = s.badLines := rfl
@[simp] theorem State.yieldPoint_channels (s : State) (m : Me) : (s.yieldPoint m).channels = s.channels := rfl
@[simp] theorem State.yieldPoint_nodes (s : State) (m : Me) : (s.yieldPoint m).nodes = s.nodes := rfl
@[simp] theorem State.yieldPoint_launched (s : State) (m : Me) : (s.yieldPoint m).launched = s.launched := rfl
@[simp] theorem State.yieldPoint_grids (s : State) (m : Me) : (s.yieldPoint m).grids = s.grids := rfl
@[simp] theorem State.yieldPoint_retRecs (s : State) (m : Me) : (s.yieldPoint m).retRecs = s.retRecs := rfl
@[simp] theorem State.yieldPoint_rrNode (s : State) (m : Me) : (s.yieldPoint m).rrNode = s.rrNode := rfl
@[simp] theorem State.yieldPoint_lastWeir (s : State) (m : Me) : (s.yieldPoint m).lastWeir = s.lastWeir := rfl
@[simp] theorem State.yieldPoint_weirCount (s : State) (m : Me) : (s.yieldPoint m).weirCount = s.weirCount := rfl
@[simp] theorem State.yieldPoint_emits (s : State) (m : Me) : (s.yieldPoint m).emits = s.emits := rfl
@[simp] theorem State.yieldPoint_adds (s : State) (m : Me) : (s.yieldPoint m).adds = s.adds := rfl
@[simp] theorem State.yieldPoint_targets (s : State) (m : Me) : (s.yieldPoint m).targets = s.targets := rfl
@[simp] theorem State.yieldPoint_copies (s : State) (m : Me) : (s.yieldPoint m).copies = s.copies := rfl
@[simp] theorem State.yieldPoint_unitCore (s : State) (m : Me) : (s.yieldPoint m).unitCore = s.unitCore := rfl
@[simp] theorem State.yieldPoint_unitCopy (s : State) (m : Me) : (s.yieldPoint m).unitCopy = s.unitCopy := rfl
@[simp] theorem State.yieldPoint_prefetches (s : State) (m : Me) : (s.yieldPoint m).prefetches = s.prefetches := rfl
@[simp] theorem State.yieldPoint_homeTable (s : State) (m : Me) : (s.yieldPoint m).homeTable = s.homeTable := rfl
@[simp] theorem State.yieldPoint_wins (s : State) (m : Me) : (s.yieldPoint m).wins = s.wins := rfl
@[simp] theorem State.yieldPoint_out (s : State) (m : Me) : (s.yieldPoint m).out = s.out := rfl
@[simp] theorem State.yieldPoint_notices (s : State) (m : Me) : (s.yieldPoint m).notices = s.notices := rfl
@[simp] theorem State.yieldPoint_waiting (s : State) (m : Me) : (s.yieldPoint m).waiting = s.waiting := rfl
@[simp] theorem State.yieldPoint_cmds (s : State) (m : Me) : (s.yieldPoint m).cmds = s.cmds := rfl
@[simp] theorem State.yieldPoint_trust (s : State) (m : Me) : (s.yieldPoint m).trust = s.trust := rfl
@[simp] theorem State.yieldPoint_doms (s : State) (m : Me) : (s.yieldPoint m).doms = s.doms := rfl
@[simp] theorem State.yieldPoint_devErrs (s : State) (m : Me) : (s.yieldPoint m).devErrs = s.devErrs := rfl
@[simp] theorem State.yieldPoint_devErrNext (s : State) (m : Me) : (s.yieldPoint m).devErrNext = s.devErrNext := rfl
@[simp] theorem State.yieldPoint_dbg (s : State) (m : Me) : (s.yieldPoint m).dbg = s.dbg := rfl
@[simp] theorem State.yieldPoint_pledans (s : State) (m : Me) : (s.yieldPoint m).pledans = s.pledans := rfl
@[simp] theorem State.yieldPoint_rinse (s : State) (m : Me) : (s.yieldPoint m).rinse = s.rinse := rfl
@[simp] theorem State.yieldPoint_fabric (s : State) (m : Me) : (s.yieldPoint m).fabric = s.fabric := rfl
@[simp] theorem State.yieldPoint_ueGets (s : State) (m : Me) : (s.yieldPoint m).ueGets = s.ueGets := rfl
@[simp] theorem State.yieldPoint_hostOps (s : State) (m : Me) : (s.yieldPoint m).hostOps = s.hostOps := rfl
@[simp] theorem State.yieldPoint_plat (s : State) (m : Me) : (s.yieldPoint m).plat = s.plat := rfl

/-! ### A block -/

@[simp] theorem State.block_moves (s : State) (m : Me) (w : Wait) : (s.block m w).moves = s.moves := rfl
@[simp] theorem State.block_free (s : State) (m : Me) (w : Wait) : (s.block m w).free = s.free := rfl
@[simp] theorem State.block_cur (s : State) (m : Me) (w : Wait) : (s.block m w).cur = s.cur := rfl
@[simp] theorem State.block_serial (s : State) (m : Me) (w : Wait) : (s.block m w).serial = s.serial := rfl
@[simp] theorem State.block_clock (s : State) (m : Me) (w : Wait) : (s.block m w).clock = s.clock := rfl
@[simp] theorem State.block_mem (s : State) (m : Me) (w : Wait) : (s.block m w).mem = s.mem := rfl
@[simp] theorem State.block_tier (s : State) (m : Me) (w : Wait) : (s.block m w).tier = s.tier := rfl
@[simp] theorem State.block_tierCache (s : State) (m : Me) (w : Wait) : (s.block m w).tierCache = s.tierCache := rfl
@[simp] theorem State.block_wgs (s : State) (m : Me) (w : Wait) : (s.block m w).wgs = s.wgs := rfl
@[simp] theorem State.block_accs (s : State) (m : Me) (w : Wait) : (s.block m w).accs = s.accs := rfl
@[simp] theorem State.block_walks (s : State) (m : Me) (w : Wait) : (s.block m w).walks = s.walks := rfl
@[simp] theorem State.block_pageReqs (s : State) (m : Me) (w : Wait) : (s.block m w).pageReqs = s.pageReqs := rfl
@[simp] theorem State.block_fails (s : State) (m : Me) (w : Wait) : (s.block m w).fails = s.fails := rfl
@[simp] theorem State.block_sharedTlb (s : State) (m : Me) (w : Wait) : (s.block m w).sharedTlb = s.sharedTlb := rfl
@[simp] theorem State.block_walkCache (s : State) (m : Me) (w : Wait) : (s.block m w).walkCache = s.walkCache := rfl
@[simp] theorem State.block_l2 (s : State) (m : Me) (w : Wait) : (s.block m w).l2 = s.l2 := rfl
@[simp] theorem State.block_reads (s : State) (m : Me) (w : Wait) : (s.block m w).reads = s.reads := rfl
@[simp] theorem State.block_syncs (s : State) (m : Me) (w : Wait) : (s.block m w).syncs = s.syncs := rfl
@[simp] theorem State.block_ctxs (s : State) (m : Me) (w : Wait) : (s.block m w).ctxs = s.ctxs := rfl
@[simp] theorem State.block_gens (s : State) (m : Me) (w : Wait) : (s.block m w).gens = s.gens := rfl
@[simp] theorem State.block_owners (s : State) (m : Me) (w : Wait) : (s.block m w).owners = s.owners := rfl
@[simp] theorem State.block_badLines (s : State) (m : Me) (w : Wait) : (s.block m w).badLines = s.badLines := rfl
@[simp] theorem State.block_channels (s : State) (m : Me) (w : Wait) : (s.block m w).channels = s.channels := rfl
@[simp] theorem State.block_nodes (s : State) (m : Me) (w : Wait) : (s.block m w).nodes = s.nodes := rfl
@[simp] theorem State.block_launched (s : State) (m : Me) (w : Wait) : (s.block m w).launched = s.launched := rfl
@[simp] theorem State.block_grids (s : State) (m : Me) (w : Wait) : (s.block m w).grids = s.grids := rfl
@[simp] theorem State.block_retRecs (s : State) (m : Me) (w : Wait) : (s.block m w).retRecs = s.retRecs := rfl
@[simp] theorem State.block_rrNode (s : State) (m : Me) (w : Wait) : (s.block m w).rrNode = s.rrNode := rfl
@[simp] theorem State.block_lastWeir (s : State) (m : Me) (w : Wait) : (s.block m w).lastWeir = s.lastWeir := rfl
@[simp] theorem State.block_weirCount (s : State) (m : Me) (w : Wait) : (s.block m w).weirCount = s.weirCount := rfl
@[simp] theorem State.block_emits (s : State) (m : Me) (w : Wait) : (s.block m w).emits = s.emits := rfl
@[simp] theorem State.block_adds (s : State) (m : Me) (w : Wait) : (s.block m w).adds = s.adds := rfl
@[simp] theorem State.block_targets (s : State) (m : Me) (w : Wait) : (s.block m w).targets = s.targets := rfl
@[simp] theorem State.block_copies (s : State) (m : Me) (w : Wait) : (s.block m w).copies = s.copies := rfl
@[simp] theorem State.block_unitCore (s : State) (m : Me) (w : Wait) : (s.block m w).unitCore = s.unitCore := rfl
@[simp] theorem State.block_unitCopy (s : State) (m : Me) (w : Wait) : (s.block m w).unitCopy = s.unitCopy := rfl
@[simp] theorem State.block_prefetches (s : State) (m : Me) (w : Wait) : (s.block m w).prefetches = s.prefetches := rfl
@[simp] theorem State.block_homeTable (s : State) (m : Me) (w : Wait) : (s.block m w).homeTable = s.homeTable := rfl
@[simp] theorem State.block_wins (s : State) (m : Me) (w : Wait) : (s.block m w).wins = s.wins := rfl
@[simp] theorem State.block_out (s : State) (m : Me) (w : Wait) : (s.block m w).out = s.out := rfl
@[simp] theorem State.block_notices (s : State) (m : Me) (w : Wait) : (s.block m w).notices = s.notices := rfl
@[simp] theorem State.block_waiting (s : State) (m : Me) (w : Wait) : (s.block m w).waiting = s.waiting := rfl
@[simp] theorem State.block_cmds (s : State) (m : Me) (w : Wait) : (s.block m w).cmds = s.cmds := rfl
@[simp] theorem State.block_trust (s : State) (m : Me) (w : Wait) : (s.block m w).trust = s.trust := rfl
@[simp] theorem State.block_doms (s : State) (m : Me) (w : Wait) : (s.block m w).doms = s.doms := rfl
@[simp] theorem State.block_devErrs (s : State) (m : Me) (w : Wait) : (s.block m w).devErrs = s.devErrs := rfl
@[simp] theorem State.block_devErrNext (s : State) (m : Me) (w : Wait) : (s.block m w).devErrNext = s.devErrNext := rfl
@[simp] theorem State.block_dbg (s : State) (m : Me) (w : Wait) : (s.block m w).dbg = s.dbg := rfl
@[simp] theorem State.block_pledans (s : State) (m : Me) (w : Wait) : (s.block m w).pledans = s.pledans := rfl
@[simp] theorem State.block_rinse (s : State) (m : Me) (w : Wait) : (s.block m w).rinse = s.rinse := rfl
@[simp] theorem State.block_fabric (s : State) (m : Me) (w : Wait) : (s.block m w).fabric = s.fabric := rfl
@[simp] theorem State.block_ueGets (s : State) (m : Me) (w : Wait) : (s.block m w).ueGets = s.ueGets := rfl
@[simp] theorem State.block_hostOps (s : State) (m : Me) (w : Wait) : (s.block m w).hostOps = s.hostOps := rfl
@[simp] theorem State.block_plat (s : State) (m : Me) (w : Wait) : (s.block m w).plat = s.plat := rfl

/-- A choice is one of its sides. -/
theorem ite_cases {α : Type} (c : Prop) [Decidable c] (a b : α) : ite c a b = a ∨ ite c a b = b := by
  split <;> simp

/-- Going on is to set the instruction address, with a yield point where the fragment arrives at its join (R34). -/
theorem State.advance_cases (s : State) (m : Me) (n : Nat) :
    s.advance m n = s.setPc m (m.pc + BitVec.ofNat 64 n) ∨ s.advance m n = (s.setPc m (m.pc + BitVec.ofNat 64 n)).yieldPoint m := by
  unfold State.advance
  exact (ite_cases _ _ _).symm

/-! ### The next instruction -/

@[simp] theorem State.advance_moves (s : State) (m : Me) (n : Nat) : (s.advance m n).moves = s.moves := by
  rcases State.advance_cases s m n with h | h <;> rw [h] <;> rfl
@[simp] theorem State.advance_free (s : State) (m : Me) (n : Nat) : (s.advance m n).free = s.free := by
  rcases State.advance_cases s m n with h | h <;> rw [h] <;> rfl
@[simp] theorem State.advance_cur (s : State) (m : Me) (n : Nat) : (s.advance m n).cur = s.cur := by
  rcases State.advance_cases s m n with h | h <;> rw [h] <;> rfl
@[simp] theorem State.advance_serial (s : State) (m : Me) (n : Nat) : (s.advance m n).serial = s.serial := by
  rcases State.advance_cases s m n with h | h <;> rw [h] <;> rfl
@[simp] theorem State.advance_clock (s : State) (m : Me) (n : Nat) : (s.advance m n).clock = s.clock := by
  rcases State.advance_cases s m n with h | h <;> rw [h] <;> rfl
@[simp] theorem State.advance_mem (s : State) (m : Me) (n : Nat) : (s.advance m n).mem = s.mem := by
  rcases State.advance_cases s m n with h | h <;> rw [h] <;> rfl
@[simp] theorem State.advance_tier (s : State) (m : Me) (n : Nat) : (s.advance m n).tier = s.tier := by
  rcases State.advance_cases s m n with h | h <;> rw [h] <;> rfl
@[simp] theorem State.advance_tierCache (s : State) (m : Me) (n : Nat) : (s.advance m n).tierCache = s.tierCache := by
  rcases State.advance_cases s m n with h | h <;> rw [h] <;> rfl
@[simp] theorem State.advance_wgs (s : State) (m : Me) (n : Nat) : (s.advance m n).wgs = s.wgs := by
  rcases State.advance_cases s m n with h | h <;> rw [h] <;> rfl
@[simp] theorem State.advance_accs (s : State) (m : Me) (n : Nat) : (s.advance m n).accs = s.accs := by
  rcases State.advance_cases s m n with h | h <;> rw [h] <;> rfl
@[simp] theorem State.advance_walks (s : State) (m : Me) (n : Nat) : (s.advance m n).walks = s.walks := by
  rcases State.advance_cases s m n with h | h <;> rw [h] <;> rfl
@[simp] theorem State.advance_pageReqs (s : State) (m : Me) (n : Nat) : (s.advance m n).pageReqs = s.pageReqs := by
  rcases State.advance_cases s m n with h | h <;> rw [h] <;> rfl
@[simp] theorem State.advance_fails (s : State) (m : Me) (n : Nat) : (s.advance m n).fails = s.fails := by
  rcases State.advance_cases s m n with h | h <;> rw [h] <;> rfl
@[simp] theorem State.advance_sharedTlb (s : State) (m : Me) (n : Nat) : (s.advance m n).sharedTlb = s.sharedTlb := by
  rcases State.advance_cases s m n with h | h <;> rw [h] <;> rfl
@[simp] theorem State.advance_walkCache (s : State) (m : Me) (n : Nat) : (s.advance m n).walkCache = s.walkCache := by
  rcases State.advance_cases s m n with h | h <;> rw [h] <;> rfl
@[simp] theorem State.advance_l2 (s : State) (m : Me) (n : Nat) : (s.advance m n).l2 = s.l2 := by
  rcases State.advance_cases s m n with h | h <;> rw [h] <;> rfl
@[simp] theorem State.advance_reads (s : State) (m : Me) (n : Nat) : (s.advance m n).reads = s.reads := by
  rcases State.advance_cases s m n with h | h <;> rw [h] <;> rfl
@[simp] theorem State.advance_syncs (s : State) (m : Me) (n : Nat) : (s.advance m n).syncs = s.syncs := by
  rcases State.advance_cases s m n with h | h <;> rw [h] <;> rfl
@[simp] theorem State.advance_ctxs (s : State) (m : Me) (n : Nat) : (s.advance m n).ctxs = s.ctxs := by
  rcases State.advance_cases s m n with h | h <;> rw [h] <;> rfl
@[simp] theorem State.advance_gens (s : State) (m : Me) (n : Nat) : (s.advance m n).gens = s.gens := by
  rcases State.advance_cases s m n with h | h <;> rw [h] <;> rfl
@[simp] theorem State.advance_owners (s : State) (m : Me) (n : Nat) : (s.advance m n).owners = s.owners := by
  rcases State.advance_cases s m n with h | h <;> rw [h] <;> rfl
@[simp] theorem State.advance_badLines (s : State) (m : Me) (n : Nat) : (s.advance m n).badLines = s.badLines := by
  rcases State.advance_cases s m n with h | h <;> rw [h] <;> rfl
@[simp] theorem State.advance_channels (s : State) (m : Me) (n : Nat) : (s.advance m n).channels = s.channels := by
  rcases State.advance_cases s m n with h | h <;> rw [h] <;> rfl
@[simp] theorem State.advance_nodes (s : State) (m : Me) (n : Nat) : (s.advance m n).nodes = s.nodes := by
  rcases State.advance_cases s m n with h | h <;> rw [h] <;> rfl
@[simp] theorem State.advance_launched (s : State) (m : Me) (n : Nat) : (s.advance m n).launched = s.launched := by
  rcases State.advance_cases s m n with h | h <;> rw [h] <;> rfl
@[simp] theorem State.advance_grids (s : State) (m : Me) (n : Nat) : (s.advance m n).grids = s.grids := by
  rcases State.advance_cases s m n with h | h <;> rw [h] <;> rfl
@[simp] theorem State.advance_retRecs (s : State) (m : Me) (n : Nat) : (s.advance m n).retRecs = s.retRecs := by
  rcases State.advance_cases s m n with h | h <;> rw [h] <;> rfl
@[simp] theorem State.advance_rrNode (s : State) (m : Me) (n : Nat) : (s.advance m n).rrNode = s.rrNode := by
  rcases State.advance_cases s m n with h | h <;> rw [h] <;> rfl
@[simp] theorem State.advance_lastWeir (s : State) (m : Me) (n : Nat) : (s.advance m n).lastWeir = s.lastWeir := by
  rcases State.advance_cases s m n with h | h <;> rw [h] <;> rfl
@[simp] theorem State.advance_weirCount (s : State) (m : Me) (n : Nat) : (s.advance m n).weirCount = s.weirCount := by
  rcases State.advance_cases s m n with h | h <;> rw [h] <;> rfl
@[simp] theorem State.advance_emits (s : State) (m : Me) (n : Nat) : (s.advance m n).emits = s.emits := by
  rcases State.advance_cases s m n with h | h <;> rw [h] <;> rfl
@[simp] theorem State.advance_adds (s : State) (m : Me) (n : Nat) : (s.advance m n).adds = s.adds := by
  rcases State.advance_cases s m n with h | h <;> rw [h] <;> rfl
@[simp] theorem State.advance_targets (s : State) (m : Me) (n : Nat) : (s.advance m n).targets = s.targets := by
  rcases State.advance_cases s m n with h | h <;> rw [h] <;> rfl
@[simp] theorem State.advance_copies (s : State) (m : Me) (n : Nat) : (s.advance m n).copies = s.copies := by
  rcases State.advance_cases s m n with h | h <;> rw [h] <;> rfl
@[simp] theorem State.advance_unitCore (s : State) (m : Me) (n : Nat) : (s.advance m n).unitCore = s.unitCore := by
  rcases State.advance_cases s m n with h | h <;> rw [h] <;> rfl
@[simp] theorem State.advance_unitCopy (s : State) (m : Me) (n : Nat) : (s.advance m n).unitCopy = s.unitCopy := by
  rcases State.advance_cases s m n with h | h <;> rw [h] <;> rfl
@[simp] theorem State.advance_prefetches (s : State) (m : Me) (n : Nat) : (s.advance m n).prefetches = s.prefetches := by
  rcases State.advance_cases s m n with h | h <;> rw [h] <;> rfl
@[simp] theorem State.advance_homeTable (s : State) (m : Me) (n : Nat) : (s.advance m n).homeTable = s.homeTable := by
  rcases State.advance_cases s m n with h | h <;> rw [h] <;> rfl
@[simp] theorem State.advance_wins (s : State) (m : Me) (n : Nat) : (s.advance m n).wins = s.wins := by
  rcases State.advance_cases s m n with h | h <;> rw [h] <;> rfl
@[simp] theorem State.advance_out (s : State) (m : Me) (n : Nat) : (s.advance m n).out = s.out := by
  rcases State.advance_cases s m n with h | h <;> rw [h] <;> rfl
@[simp] theorem State.advance_notices (s : State) (m : Me) (n : Nat) : (s.advance m n).notices = s.notices := by
  rcases State.advance_cases s m n with h | h <;> rw [h] <;> rfl
@[simp] theorem State.advance_waiting (s : State) (m : Me) (n : Nat) : (s.advance m n).waiting = s.waiting := by
  rcases State.advance_cases s m n with h | h <;> rw [h] <;> rfl
@[simp] theorem State.advance_cmds (s : State) (m : Me) (n : Nat) : (s.advance m n).cmds = s.cmds := by
  rcases State.advance_cases s m n with h | h <;> rw [h] <;> rfl
@[simp] theorem State.advance_trust (s : State) (m : Me) (n : Nat) : (s.advance m n).trust = s.trust := by
  rcases State.advance_cases s m n with h | h <;> rw [h] <;> rfl
@[simp] theorem State.advance_doms (s : State) (m : Me) (n : Nat) : (s.advance m n).doms = s.doms := by
  rcases State.advance_cases s m n with h | h <;> rw [h] <;> rfl
@[simp] theorem State.advance_devErrs (s : State) (m : Me) (n : Nat) : (s.advance m n).devErrs = s.devErrs := by
  rcases State.advance_cases s m n with h | h <;> rw [h] <;> rfl
@[simp] theorem State.advance_devErrNext (s : State) (m : Me) (n : Nat) : (s.advance m n).devErrNext = s.devErrNext := by
  rcases State.advance_cases s m n with h | h <;> rw [h] <;> rfl
@[simp] theorem State.advance_dbg (s : State) (m : Me) (n : Nat) : (s.advance m n).dbg = s.dbg := by
  rcases State.advance_cases s m n with h | h <;> rw [h] <;> rfl
@[simp] theorem State.advance_pledans (s : State) (m : Me) (n : Nat) : (s.advance m n).pledans = s.pledans := by
  rcases State.advance_cases s m n with h | h <;> rw [h] <;> rfl
@[simp] theorem State.advance_rinse (s : State) (m : Me) (n : Nat) : (s.advance m n).rinse = s.rinse := by
  rcases State.advance_cases s m n with h | h <;> rw [h] <;> rfl
@[simp] theorem State.advance_fabric (s : State) (m : Me) (n : Nat) : (s.advance m n).fabric = s.fabric := by
  rcases State.advance_cases s m n with h | h <;> rw [h] <;> rfl
@[simp] theorem State.advance_ueGets (s : State) (m : Me) (n : Nat) : (s.advance m n).ueGets = s.ueGets := by
  rcases State.advance_cases s m n with h | h <;> rw [h] <;> rfl
@[simp] theorem State.advance_hostOps (s : State) (m : Me) (n : Nat) : (s.advance m n).hostOps = s.hostOps := by
  rcases State.advance_cases s m n with h | h <;> rw [h] <;> rfl
@[simp] theorem State.advance_plat (s : State) (m : Me) (n : Nat) : (s.advance m n).plat = s.plat := by
  rcases State.advance_cases s m n with h | h <;> rw [h] <;> rfl

/-! ### A scalar result -/

@[simp] theorem State.writeS_moves (s : State) (m : Me) (d : Nat) (x : W64) (n : Nat) : (s.writeS m d x n).moves = s.moves := by
  simp [State.writeS]
@[simp] theorem State.writeS_free (s : State) (m : Me) (d : Nat) (x : W64) (n : Nat) : (s.writeS m d x n).free = s.free := by
  simp [State.writeS]
@[simp] theorem State.writeS_cur (s : State) (m : Me) (d : Nat) (x : W64) (n : Nat) : (s.writeS m d x n).cur = s.cur := by
  simp [State.writeS]
@[simp] theorem State.writeS_serial (s : State) (m : Me) (d : Nat) (x : W64) (n : Nat) : (s.writeS m d x n).serial = s.serial := by
  simp [State.writeS]
@[simp] theorem State.writeS_clock (s : State) (m : Me) (d : Nat) (x : W64) (n : Nat) : (s.writeS m d x n).clock = s.clock := by
  simp [State.writeS]
@[simp] theorem State.writeS_mem (s : State) (m : Me) (d : Nat) (x : W64) (n : Nat) : (s.writeS m d x n).mem = s.mem := by
  simp [State.writeS]
@[simp] theorem State.writeS_tier (s : State) (m : Me) (d : Nat) (x : W64) (n : Nat) : (s.writeS m d x n).tier = s.tier := by
  simp [State.writeS]
@[simp] theorem State.writeS_tierCache (s : State) (m : Me) (d : Nat) (x : W64) (n : Nat) : (s.writeS m d x n).tierCache = s.tierCache := by
  simp [State.writeS]
@[simp] theorem State.writeS_wgs (s : State) (m : Me) (d : Nat) (x : W64) (n : Nat) : (s.writeS m d x n).wgs = s.wgs := by
  simp [State.writeS]
@[simp] theorem State.writeS_accs (s : State) (m : Me) (d : Nat) (x : W64) (n : Nat) : (s.writeS m d x n).accs = s.accs := by
  simp [State.writeS]
@[simp] theorem State.writeS_walks (s : State) (m : Me) (d : Nat) (x : W64) (n : Nat) : (s.writeS m d x n).walks = s.walks := by
  simp [State.writeS]
@[simp] theorem State.writeS_pageReqs (s : State) (m : Me) (d : Nat) (x : W64) (n : Nat) : (s.writeS m d x n).pageReqs = s.pageReqs := by
  simp [State.writeS]
@[simp] theorem State.writeS_fails (s : State) (m : Me) (d : Nat) (x : W64) (n : Nat) : (s.writeS m d x n).fails = s.fails := by
  simp [State.writeS]
@[simp] theorem State.writeS_sharedTlb (s : State) (m : Me) (d : Nat) (x : W64) (n : Nat) : (s.writeS m d x n).sharedTlb = s.sharedTlb := by
  simp [State.writeS]
@[simp] theorem State.writeS_walkCache (s : State) (m : Me) (d : Nat) (x : W64) (n : Nat) : (s.writeS m d x n).walkCache = s.walkCache := by
  simp [State.writeS]
@[simp] theorem State.writeS_l2 (s : State) (m : Me) (d : Nat) (x : W64) (n : Nat) : (s.writeS m d x n).l2 = s.l2 := by
  simp [State.writeS]
@[simp] theorem State.writeS_reads (s : State) (m : Me) (d : Nat) (x : W64) (n : Nat) : (s.writeS m d x n).reads = s.reads := by
  simp [State.writeS]
@[simp] theorem State.writeS_syncs (s : State) (m : Me) (d : Nat) (x : W64) (n : Nat) : (s.writeS m d x n).syncs = s.syncs := by
  simp [State.writeS]
@[simp] theorem State.writeS_ctxs (s : State) (m : Me) (d : Nat) (x : W64) (n : Nat) : (s.writeS m d x n).ctxs = s.ctxs := by
  simp [State.writeS]
@[simp] theorem State.writeS_gens (s : State) (m : Me) (d : Nat) (x : W64) (n : Nat) : (s.writeS m d x n).gens = s.gens := by
  simp [State.writeS]
@[simp] theorem State.writeS_owners (s : State) (m : Me) (d : Nat) (x : W64) (n : Nat) : (s.writeS m d x n).owners = s.owners := by
  simp [State.writeS]
@[simp] theorem State.writeS_badLines (s : State) (m : Me) (d : Nat) (x : W64) (n : Nat) : (s.writeS m d x n).badLines = s.badLines := by
  simp [State.writeS]
@[simp] theorem State.writeS_channels (s : State) (m : Me) (d : Nat) (x : W64) (n : Nat) : (s.writeS m d x n).channels = s.channels := by
  simp [State.writeS]
@[simp] theorem State.writeS_nodes (s : State) (m : Me) (d : Nat) (x : W64) (n : Nat) : (s.writeS m d x n).nodes = s.nodes := by
  simp [State.writeS]
@[simp] theorem State.writeS_launched (s : State) (m : Me) (d : Nat) (x : W64) (n : Nat) : (s.writeS m d x n).launched = s.launched := by
  simp [State.writeS]
@[simp] theorem State.writeS_grids (s : State) (m : Me) (d : Nat) (x : W64) (n : Nat) : (s.writeS m d x n).grids = s.grids := by
  simp [State.writeS]
@[simp] theorem State.writeS_retRecs (s : State) (m : Me) (d : Nat) (x : W64) (n : Nat) : (s.writeS m d x n).retRecs = s.retRecs := by
  simp [State.writeS]
@[simp] theorem State.writeS_rrNode (s : State) (m : Me) (d : Nat) (x : W64) (n : Nat) : (s.writeS m d x n).rrNode = s.rrNode := by
  simp [State.writeS]
@[simp] theorem State.writeS_lastWeir (s : State) (m : Me) (d : Nat) (x : W64) (n : Nat) : (s.writeS m d x n).lastWeir = s.lastWeir := by
  simp [State.writeS]
@[simp] theorem State.writeS_weirCount (s : State) (m : Me) (d : Nat) (x : W64) (n : Nat) : (s.writeS m d x n).weirCount = s.weirCount := by
  simp [State.writeS]
@[simp] theorem State.writeS_emits (s : State) (m : Me) (d : Nat) (x : W64) (n : Nat) : (s.writeS m d x n).emits = s.emits := by
  simp [State.writeS]
@[simp] theorem State.writeS_adds (s : State) (m : Me) (d : Nat) (x : W64) (n : Nat) : (s.writeS m d x n).adds = s.adds := by
  simp [State.writeS]
@[simp] theorem State.writeS_targets (s : State) (m : Me) (d : Nat) (x : W64) (n : Nat) : (s.writeS m d x n).targets = s.targets := by
  simp [State.writeS]
@[simp] theorem State.writeS_copies (s : State) (m : Me) (d : Nat) (x : W64) (n : Nat) : (s.writeS m d x n).copies = s.copies := by
  simp [State.writeS]
@[simp] theorem State.writeS_unitCore (s : State) (m : Me) (d : Nat) (x : W64) (n : Nat) : (s.writeS m d x n).unitCore = s.unitCore := by
  simp [State.writeS]
@[simp] theorem State.writeS_unitCopy (s : State) (m : Me) (d : Nat) (x : W64) (n : Nat) : (s.writeS m d x n).unitCopy = s.unitCopy := by
  simp [State.writeS]
@[simp] theorem State.writeS_prefetches (s : State) (m : Me) (d : Nat) (x : W64) (n : Nat) : (s.writeS m d x n).prefetches = s.prefetches := by
  simp [State.writeS]
@[simp] theorem State.writeS_homeTable (s : State) (m : Me) (d : Nat) (x : W64) (n : Nat) : (s.writeS m d x n).homeTable = s.homeTable := by
  simp [State.writeS]
@[simp] theorem State.writeS_wins (s : State) (m : Me) (d : Nat) (x : W64) (n : Nat) : (s.writeS m d x n).wins = s.wins := by
  simp [State.writeS]
@[simp] theorem State.writeS_out (s : State) (m : Me) (d : Nat) (x : W64) (n : Nat) : (s.writeS m d x n).out = s.out := by
  simp [State.writeS]
@[simp] theorem State.writeS_notices (s : State) (m : Me) (d : Nat) (x : W64) (n : Nat) : (s.writeS m d x n).notices = s.notices := by
  simp [State.writeS]
@[simp] theorem State.writeS_waiting (s : State) (m : Me) (d : Nat) (x : W64) (n : Nat) : (s.writeS m d x n).waiting = s.waiting := by
  simp [State.writeS]
@[simp] theorem State.writeS_cmds (s : State) (m : Me) (d : Nat) (x : W64) (n : Nat) : (s.writeS m d x n).cmds = s.cmds := by
  simp [State.writeS]
@[simp] theorem State.writeS_trust (s : State) (m : Me) (d : Nat) (x : W64) (n : Nat) : (s.writeS m d x n).trust = s.trust := by
  simp [State.writeS]
@[simp] theorem State.writeS_doms (s : State) (m : Me) (d : Nat) (x : W64) (n : Nat) : (s.writeS m d x n).doms = s.doms := by
  simp [State.writeS]
@[simp] theorem State.writeS_devErrs (s : State) (m : Me) (d : Nat) (x : W64) (n : Nat) : (s.writeS m d x n).devErrs = s.devErrs := by
  simp [State.writeS]
@[simp] theorem State.writeS_devErrNext (s : State) (m : Me) (d : Nat) (x : W64) (n : Nat) : (s.writeS m d x n).devErrNext = s.devErrNext := by
  simp [State.writeS]
@[simp] theorem State.writeS_dbg (s : State) (m : Me) (d : Nat) (x : W64) (n : Nat) : (s.writeS m d x n).dbg = s.dbg := by
  simp [State.writeS]
@[simp] theorem State.writeS_pledans (s : State) (m : Me) (d : Nat) (x : W64) (n : Nat) : (s.writeS m d x n).pledans = s.pledans := by
  simp [State.writeS]
@[simp] theorem State.writeS_rinse (s : State) (m : Me) (d : Nat) (x : W64) (n : Nat) : (s.writeS m d x n).rinse = s.rinse := by
  simp [State.writeS]
@[simp] theorem State.writeS_fabric (s : State) (m : Me) (d : Nat) (x : W64) (n : Nat) : (s.writeS m d x n).fabric = s.fabric := by
  simp [State.writeS]
@[simp] theorem State.writeS_ueGets (s : State) (m : Me) (d : Nat) (x : W64) (n : Nat) : (s.writeS m d x n).ueGets = s.ueGets := by
  simp [State.writeS]
@[simp] theorem State.writeS_hostOps (s : State) (m : Me) (d : Nat) (x : W64) (n : Nat) : (s.writeS m d x n).hostOps = s.hostOps := by
  simp [State.writeS]
@[simp] theorem State.writeS_plat (s : State) (m : Me) (d : Nat) (x : W64) (n : Nat) : (s.writeS m d x n).plat = s.plat := by
  simp [State.writeS]

/-! ### A message -/

@[simp] theorem State.send_moves (s : State) (x : OutMsg) : (s.send x).moves = s.moves := rfl
@[simp] theorem State.send_free (s : State) (x : OutMsg) : (s.send x).free = s.free := rfl
@[simp] theorem State.send_cur (s : State) (x : OutMsg) : (s.send x).cur = s.cur := rfl
@[simp] theorem State.send_serial (s : State) (x : OutMsg) : (s.send x).serial = s.serial := rfl
@[simp] theorem State.send_clock (s : State) (x : OutMsg) : (s.send x).clock = s.clock := rfl
@[simp] theorem State.send_mem (s : State) (x : OutMsg) : (s.send x).mem = s.mem := rfl
@[simp] theorem State.send_tier (s : State) (x : OutMsg) : (s.send x).tier = s.tier := rfl
@[simp] theorem State.send_tierCache (s : State) (x : OutMsg) : (s.send x).tierCache = s.tierCache := rfl
@[simp] theorem State.send_strands (s : State) (x : OutMsg) : (s.send x).strands = s.strands := rfl
@[simp] theorem State.send_wgs (s : State) (x : OutMsg) : (s.send x).wgs = s.wgs := rfl
@[simp] theorem State.send_cores (s : State) (x : OutMsg) : (s.send x).cores = s.cores := rfl
@[simp] theorem State.send_accs (s : State) (x : OutMsg) : (s.send x).accs = s.accs := rfl
@[simp] theorem State.send_walks (s : State) (x : OutMsg) : (s.send x).walks = s.walks := rfl
@[simp] theorem State.send_pageReqs (s : State) (x : OutMsg) : (s.send x).pageReqs = s.pageReqs := rfl
@[simp] theorem State.send_fails (s : State) (x : OutMsg) : (s.send x).fails = s.fails := rfl
@[simp] theorem State.send_sharedTlb (s : State) (x : OutMsg) : (s.send x).sharedTlb = s.sharedTlb := rfl
@[simp] theorem State.send_walkCache (s : State) (x : OutMsg) : (s.send x).walkCache = s.walkCache := rfl
@[simp] theorem State.send_l2 (s : State) (x : OutMsg) : (s.send x).l2 = s.l2 := rfl
@[simp] theorem State.send_reads (s : State) (x : OutMsg) : (s.send x).reads = s.reads := rfl
@[simp] theorem State.send_syncs (s : State) (x : OutMsg) : (s.send x).syncs = s.syncs := rfl
@[simp] theorem State.send_ctxs (s : State) (x : OutMsg) : (s.send x).ctxs = s.ctxs := rfl
@[simp] theorem State.send_gens (s : State) (x : OutMsg) : (s.send x).gens = s.gens := rfl
@[simp] theorem State.send_owners (s : State) (x : OutMsg) : (s.send x).owners = s.owners := rfl
@[simp] theorem State.send_badLines (s : State) (x : OutMsg) : (s.send x).badLines = s.badLines := rfl
@[simp] theorem State.send_channels (s : State) (x : OutMsg) : (s.send x).channels = s.channels := rfl
@[simp] theorem State.send_nodes (s : State) (x : OutMsg) : (s.send x).nodes = s.nodes := rfl
@[simp] theorem State.send_launched (s : State) (x : OutMsg) : (s.send x).launched = s.launched := rfl
@[simp] theorem State.send_grids (s : State) (x : OutMsg) : (s.send x).grids = s.grids := rfl
@[simp] theorem State.send_retRecs (s : State) (x : OutMsg) : (s.send x).retRecs = s.retRecs := rfl
@[simp] theorem State.send_rrNode (s : State) (x : OutMsg) : (s.send x).rrNode = s.rrNode := rfl
@[simp] theorem State.send_lastWeir (s : State) (x : OutMsg) : (s.send x).lastWeir = s.lastWeir := rfl
@[simp] theorem State.send_weirCount (s : State) (x : OutMsg) : (s.send x).weirCount = s.weirCount := rfl
@[simp] theorem State.send_emits (s : State) (x : OutMsg) : (s.send x).emits = s.emits := rfl
@[simp] theorem State.send_adds (s : State) (x : OutMsg) : (s.send x).adds = s.adds := rfl
@[simp] theorem State.send_targets (s : State) (x : OutMsg) : (s.send x).targets = s.targets := rfl
@[simp] theorem State.send_copies (s : State) (x : OutMsg) : (s.send x).copies = s.copies := rfl
@[simp] theorem State.send_unitCore (s : State) (x : OutMsg) : (s.send x).unitCore = s.unitCore := rfl
@[simp] theorem State.send_unitCopy (s : State) (x : OutMsg) : (s.send x).unitCopy = s.unitCopy := rfl
@[simp] theorem State.send_prefetches (s : State) (x : OutMsg) : (s.send x).prefetches = s.prefetches := rfl
@[simp] theorem State.send_homeTable (s : State) (x : OutMsg) : (s.send x).homeTable = s.homeTable := rfl
@[simp] theorem State.send_wins (s : State) (x : OutMsg) : (s.send x).wins = s.wins := rfl
@[simp] theorem State.send_notices (s : State) (x : OutMsg) : (s.send x).notices = s.notices := rfl
@[simp] theorem State.send_waiting (s : State) (x : OutMsg) : (s.send x).waiting = s.waiting := rfl
@[simp] theorem State.send_cmds (s : State) (x : OutMsg) : (s.send x).cmds = s.cmds := rfl
@[simp] theorem State.send_trust (s : State) (x : OutMsg) : (s.send x).trust = s.trust := rfl
@[simp] theorem State.send_doms (s : State) (x : OutMsg) : (s.send x).doms = s.doms := rfl
@[simp] theorem State.send_devErrs (s : State) (x : OutMsg) : (s.send x).devErrs = s.devErrs := rfl
@[simp] theorem State.send_devErrNext (s : State) (x : OutMsg) : (s.send x).devErrNext = s.devErrNext := rfl
@[simp] theorem State.send_dbg (s : State) (x : OutMsg) : (s.send x).dbg = s.dbg := rfl
@[simp] theorem State.send_pledans (s : State) (x : OutMsg) : (s.send x).pledans = s.pledans := rfl
@[simp] theorem State.send_rinse (s : State) (x : OutMsg) : (s.send x).rinse = s.rinse := rfl
@[simp] theorem State.send_fabric (s : State) (x : OutMsg) : (s.send x).fabric = s.fabric := rfl
@[simp] theorem State.send_ueGets (s : State) (x : OutMsg) : (s.send x).ueGets = s.ueGets := rfl
@[simp] theorem State.send_hostOps (s : State) (x : OutMsg) : (s.send x).hostOps = s.hostOps := rfl
@[simp] theorem State.send_plat (s : State) (x : OutMsg) : (s.send x).plat = s.plat := rfl

/-! ### A notice -/

@[simp] theorem State.notify_moves (s : State) (k : NoticeKind) : (s.notify k).moves = s.moves := rfl
@[simp] theorem State.notify_free (s : State) (k : NoticeKind) : (s.notify k).free = s.free := rfl
@[simp] theorem State.notify_cur (s : State) (k : NoticeKind) : (s.notify k).cur = s.cur := rfl
@[simp] theorem State.notify_serial (s : State) (k : NoticeKind) : (s.notify k).serial = s.serial := rfl
@[simp] theorem State.notify_clock (s : State) (k : NoticeKind) : (s.notify k).clock = s.clock := rfl
@[simp] theorem State.notify_mem (s : State) (k : NoticeKind) : (s.notify k).mem = s.mem := rfl
@[simp] theorem State.notify_tier (s : State) (k : NoticeKind) : (s.notify k).tier = s.tier := rfl
@[simp] theorem State.notify_tierCache (s : State) (k : NoticeKind) : (s.notify k).tierCache = s.tierCache := rfl
@[simp] theorem State.notify_strands (s : State) (k : NoticeKind) : (s.notify k).strands = s.strands := rfl
@[simp] theorem State.notify_wgs (s : State) (k : NoticeKind) : (s.notify k).wgs = s.wgs := rfl
@[simp] theorem State.notify_cores (s : State) (k : NoticeKind) : (s.notify k).cores = s.cores := rfl
@[simp] theorem State.notify_accs (s : State) (k : NoticeKind) : (s.notify k).accs = s.accs := rfl
@[simp] theorem State.notify_walks (s : State) (k : NoticeKind) : (s.notify k).walks = s.walks := rfl
@[simp] theorem State.notify_pageReqs (s : State) (k : NoticeKind) : (s.notify k).pageReqs = s.pageReqs := rfl
@[simp] theorem State.notify_fails (s : State) (k : NoticeKind) : (s.notify k).fails = s.fails := rfl
@[simp] theorem State.notify_sharedTlb (s : State) (k : NoticeKind) : (s.notify k).sharedTlb = s.sharedTlb := rfl
@[simp] theorem State.notify_walkCache (s : State) (k : NoticeKind) : (s.notify k).walkCache = s.walkCache := rfl
@[simp] theorem State.notify_l2 (s : State) (k : NoticeKind) : (s.notify k).l2 = s.l2 := rfl
@[simp] theorem State.notify_reads (s : State) (k : NoticeKind) : (s.notify k).reads = s.reads := rfl
@[simp] theorem State.notify_syncs (s : State) (k : NoticeKind) : (s.notify k).syncs = s.syncs := rfl
@[simp] theorem State.notify_ctxs (s : State) (k : NoticeKind) : (s.notify k).ctxs = s.ctxs := rfl
@[simp] theorem State.notify_gens (s : State) (k : NoticeKind) : (s.notify k).gens = s.gens := rfl
@[simp] theorem State.notify_owners (s : State) (k : NoticeKind) : (s.notify k).owners = s.owners := rfl
@[simp] theorem State.notify_badLines (s : State) (k : NoticeKind) : (s.notify k).badLines = s.badLines := rfl
@[simp] theorem State.notify_channels (s : State) (k : NoticeKind) : (s.notify k).channels = s.channels := rfl
@[simp] theorem State.notify_nodes (s : State) (k : NoticeKind) : (s.notify k).nodes = s.nodes := rfl
@[simp] theorem State.notify_launched (s : State) (k : NoticeKind) : (s.notify k).launched = s.launched := rfl
@[simp] theorem State.notify_grids (s : State) (k : NoticeKind) : (s.notify k).grids = s.grids := rfl
@[simp] theorem State.notify_retRecs (s : State) (k : NoticeKind) : (s.notify k).retRecs = s.retRecs := rfl
@[simp] theorem State.notify_rrNode (s : State) (k : NoticeKind) : (s.notify k).rrNode = s.rrNode := rfl
@[simp] theorem State.notify_lastWeir (s : State) (k : NoticeKind) : (s.notify k).lastWeir = s.lastWeir := rfl
@[simp] theorem State.notify_weirCount (s : State) (k : NoticeKind) : (s.notify k).weirCount = s.weirCount := rfl
@[simp] theorem State.notify_emits (s : State) (k : NoticeKind) : (s.notify k).emits = s.emits := rfl
@[simp] theorem State.notify_adds (s : State) (k : NoticeKind) : (s.notify k).adds = s.adds := rfl
@[simp] theorem State.notify_targets (s : State) (k : NoticeKind) : (s.notify k).targets = s.targets := rfl
@[simp] theorem State.notify_copies (s : State) (k : NoticeKind) : (s.notify k).copies = s.copies := rfl
@[simp] theorem State.notify_unitCore (s : State) (k : NoticeKind) : (s.notify k).unitCore = s.unitCore := rfl
@[simp] theorem State.notify_unitCopy (s : State) (k : NoticeKind) : (s.notify k).unitCopy = s.unitCopy := rfl
@[simp] theorem State.notify_prefetches (s : State) (k : NoticeKind) : (s.notify k).prefetches = s.prefetches := rfl
@[simp] theorem State.notify_homeTable (s : State) (k : NoticeKind) : (s.notify k).homeTable = s.homeTable := rfl
@[simp] theorem State.notify_wins (s : State) (k : NoticeKind) : (s.notify k).wins = s.wins := rfl
@[simp] theorem State.notify_waiting (s : State) (k : NoticeKind) : (s.notify k).waiting = s.waiting := rfl
@[simp] theorem State.notify_cmds (s : State) (k : NoticeKind) : (s.notify k).cmds = s.cmds := rfl
@[simp] theorem State.notify_trust (s : State) (k : NoticeKind) : (s.notify k).trust = s.trust := rfl
@[simp] theorem State.notify_doms (s : State) (k : NoticeKind) : (s.notify k).doms = s.doms := rfl
@[simp] theorem State.notify_devErrs (s : State) (k : NoticeKind) : (s.notify k).devErrs = s.devErrs := rfl
@[simp] theorem State.notify_devErrNext (s : State) (k : NoticeKind) : (s.notify k).devErrNext = s.devErrNext := rfl
@[simp] theorem State.notify_dbg (s : State) (k : NoticeKind) : (s.notify k).dbg = s.dbg := rfl
@[simp] theorem State.notify_pledans (s : State) (k : NoticeKind) : (s.notify k).pledans = s.pledans := rfl
@[simp] theorem State.notify_rinse (s : State) (k : NoticeKind) : (s.notify k).rinse = s.rinse := rfl
@[simp] theorem State.notify_fabric (s : State) (k : NoticeKind) : (s.notify k).fabric = s.fabric := rfl
@[simp] theorem State.notify_ueGets (s : State) (k : NoticeKind) : (s.notify k).ueGets = s.ueGets := rfl
@[simp] theorem State.notify_hostOps (s : State) (k : NoticeKind) : (s.notify k).hostOps = s.hostOps := rfl
@[simp] theorem State.notify_plat (s : State) (k : NoticeKind) : (s.notify k).plat = s.plat := rfl

/-! ### A counted event -/

@[simp] theorem State.count_moves (s : State) (c n k : Nat) : (s.count c n k).moves = s.moves := rfl
@[simp] theorem State.count_free (s : State) (c n k : Nat) : (s.count c n k).free = s.free := rfl
@[simp] theorem State.count_cur (s : State) (c n k : Nat) : (s.count c n k).cur = s.cur := rfl
@[simp] theorem State.count_serial (s : State) (c n k : Nat) : (s.count c n k).serial = s.serial := rfl
@[simp] theorem State.count_clock (s : State) (c n k : Nat) : (s.count c n k).clock = s.clock := rfl
@[simp] theorem State.count_mem (s : State) (c n k : Nat) : (s.count c n k).mem = s.mem := rfl
@[simp] theorem State.count_tier (s : State) (c n k : Nat) : (s.count c n k).tier = s.tier := rfl
@[simp] theorem State.count_tierCache (s : State) (c n k : Nat) : (s.count c n k).tierCache = s.tierCache := rfl
@[simp] theorem State.count_strands (s : State) (c n k : Nat) : (s.count c n k).strands = s.strands := rfl
@[simp] theorem State.count_wgs (s : State) (c n k : Nat) : (s.count c n k).wgs = s.wgs := rfl
@[simp] theorem State.count_accs (s : State) (c n k : Nat) : (s.count c n k).accs = s.accs := rfl
@[simp] theorem State.count_walks (s : State) (c n k : Nat) : (s.count c n k).walks = s.walks := rfl
@[simp] theorem State.count_pageReqs (s : State) (c n k : Nat) : (s.count c n k).pageReqs = s.pageReqs := rfl
@[simp] theorem State.count_fails (s : State) (c n k : Nat) : (s.count c n k).fails = s.fails := rfl
@[simp] theorem State.count_sharedTlb (s : State) (c n k : Nat) : (s.count c n k).sharedTlb = s.sharedTlb := rfl
@[simp] theorem State.count_walkCache (s : State) (c n k : Nat) : (s.count c n k).walkCache = s.walkCache := rfl
@[simp] theorem State.count_l2 (s : State) (c n k : Nat) : (s.count c n k).l2 = s.l2 := rfl
@[simp] theorem State.count_reads (s : State) (c n k : Nat) : (s.count c n k).reads = s.reads := rfl
@[simp] theorem State.count_syncs (s : State) (c n k : Nat) : (s.count c n k).syncs = s.syncs := rfl
@[simp] theorem State.count_ctxs (s : State) (c n k : Nat) : (s.count c n k).ctxs = s.ctxs := rfl
@[simp] theorem State.count_gens (s : State) (c n k : Nat) : (s.count c n k).gens = s.gens := rfl
@[simp] theorem State.count_owners (s : State) (c n k : Nat) : (s.count c n k).owners = s.owners := rfl
@[simp] theorem State.count_badLines (s : State) (c n k : Nat) : (s.count c n k).badLines = s.badLines := rfl
@[simp] theorem State.count_channels (s : State) (c n k : Nat) : (s.count c n k).channels = s.channels := rfl
@[simp] theorem State.count_nodes (s : State) (c n k : Nat) : (s.count c n k).nodes = s.nodes := rfl
@[simp] theorem State.count_launched (s : State) (c n k : Nat) : (s.count c n k).launched = s.launched := rfl
@[simp] theorem State.count_grids (s : State) (c n k : Nat) : (s.count c n k).grids = s.grids := rfl
@[simp] theorem State.count_retRecs (s : State) (c n k : Nat) : (s.count c n k).retRecs = s.retRecs := rfl
@[simp] theorem State.count_rrNode (s : State) (c n k : Nat) : (s.count c n k).rrNode = s.rrNode := rfl
@[simp] theorem State.count_lastWeir (s : State) (c n k : Nat) : (s.count c n k).lastWeir = s.lastWeir := rfl
@[simp] theorem State.count_weirCount (s : State) (c n k : Nat) : (s.count c n k).weirCount = s.weirCount := rfl
@[simp] theorem State.count_emits (s : State) (c n k : Nat) : (s.count c n k).emits = s.emits := rfl
@[simp] theorem State.count_adds (s : State) (c n k : Nat) : (s.count c n k).adds = s.adds := rfl
@[simp] theorem State.count_targets (s : State) (c n k : Nat) : (s.count c n k).targets = s.targets := rfl
@[simp] theorem State.count_copies (s : State) (c n k : Nat) : (s.count c n k).copies = s.copies := rfl
@[simp] theorem State.count_unitCore (s : State) (c n k : Nat) : (s.count c n k).unitCore = s.unitCore := rfl
@[simp] theorem State.count_unitCopy (s : State) (c n k : Nat) : (s.count c n k).unitCopy = s.unitCopy := rfl
@[simp] theorem State.count_prefetches (s : State) (c n k : Nat) : (s.count c n k).prefetches = s.prefetches := rfl
@[simp] theorem State.count_homeTable (s : State) (c n k : Nat) : (s.count c n k).homeTable = s.homeTable := rfl
@[simp] theorem State.count_wins (s : State) (c n k : Nat) : (s.count c n k).wins = s.wins := rfl
@[simp] theorem State.count_out (s : State) (c n k : Nat) : (s.count c n k).out = s.out := rfl
@[simp] theorem State.count_notices (s : State) (c n k : Nat) : (s.count c n k).notices = s.notices := rfl
@[simp] theorem State.count_waiting (s : State) (c n k : Nat) : (s.count c n k).waiting = s.waiting := rfl
@[simp] theorem State.count_cmds (s : State) (c n k : Nat) : (s.count c n k).cmds = s.cmds := rfl
@[simp] theorem State.count_trust (s : State) (c n k : Nat) : (s.count c n k).trust = s.trust := rfl
@[simp] theorem State.count_doms (s : State) (c n k : Nat) : (s.count c n k).doms = s.doms := rfl
@[simp] theorem State.count_devErrs (s : State) (c n k : Nat) : (s.count c n k).devErrs = s.devErrs := rfl
@[simp] theorem State.count_devErrNext (s : State) (c n k : Nat) : (s.count c n k).devErrNext = s.devErrNext := rfl
@[simp] theorem State.count_dbg (s : State) (c n k : Nat) : (s.count c n k).dbg = s.dbg := rfl
@[simp] theorem State.count_pledans (s : State) (c n k : Nat) : (s.count c n k).pledans = s.pledans := rfl
@[simp] theorem State.count_rinse (s : State) (c n k : Nat) : (s.count c n k).rinse = s.rinse := rfl
@[simp] theorem State.count_fabric (s : State) (c n k : Nat) : (s.count c n k).fabric = s.fabric := rfl
@[simp] theorem State.count_ueGets (s : State) (c n k : Nat) : (s.count c n k).ueGets = s.ueGets := rfl
@[simp] theorem State.count_hostOps (s : State) (c n k : Nat) : (s.count c n k).hostOps = s.hostOps := rfl
@[simp] theorem State.count_plat (s : State) (c n k : Nat) : (s.count c n k).plat = s.plat := rfl

/-! ### An s register -/

@[simp] theorem Strand.sSet_v (st : Strand) (r : Nat) (x : W64) : (st.sSet r x).v = st.v := rfl
@[simp] theorem Strand.sSet_x (st : Strand) (r : Nat) (x : W64) : (st.sSet r x).x = st.x := rfl
@[simp] theorem Strand.sSet_k (st : Strand) (r : Nat) (x : W64) : (st.sSet r x).k = st.k := rfl
@[simp] theorem Strand.sSet_latches (st : Strand) (r : Nat) (x : W64) : (st.sSet r x).latches = st.latches := rfl
@[simp] theorem Strand.sSet_qt (st : Strand) (r : Nat) (x : W64) : (st.sSet r x).qt = st.qt := rfl
@[simp] theorem Strand.sSet_mode (st : Strand) (r : Nat) (x : W64) : (st.sSet r x).mode = st.mode := rfl
@[simp] theorem Strand.sSet_flags (st : Strand) (r : Nat) (x : W64) : (st.sSet r x).flags = st.flags := rfl
@[simp] theorem Strand.sSet_srs (st : Strand) (r : Nat) (x : W64) : (st.sSet r x).srs = st.srs := rfl
@[simp] theorem Strand.sSet_frags (st : Strand) (r : Nat) (x : W64) : (st.sSet r x).frags = st.frags := rfl
@[simp] theorem Strand.sSet_spilled (st : Strand) (r : Nat) (x : W64) : (st.sSet r x).spilled = st.spilled := rfl
@[simp] theorem Strand.sSet_nextFrag (st : Strand) (r : Nat) (x : W64) : (st.sSet r x).nextFrag = st.nextFrag := rfl
@[simp] theorem Strand.sSet_nborn (st : Strand) (r : Nat) (x : W64) : (st.sSet r x).nborn = st.nborn := rfl
@[simp] theorem Strand.sSet_frame (st : Strand) (r : Nat) (x : W64) : (st.sSet r x).frame = st.frame := rfl
@[simp] theorem Strand.sSet_fault (st : Strand) (r : Nat) (x : W64) : (st.sSet r x).fault = st.fault := rfl
@[simp] theorem Strand.sSet_parked (st : Strand) (r : Nat) (x : W64) : (st.sSet r x).parked = st.parked := rfl
@[simp] theorem Strand.sSet_exited (st : Strand) (r : Nat) (x : W64) : (st.sSet r x).exited = st.exited := rfl
@[simp] theorem Strand.sSet_stopped (st : Strand) (r : Nat) (x : W64) : (st.sSet r x).stopped = st.stopped := rfl
@[simp] theorem Strand.sSet_lane (st : Strand) (r : Nat) (x : W64) : (st.sSet r x).lane = st.lane := rfl
@[simp] theorem Strand.sSet_slot (st : Strand) (r : Nat) (x : W64) : (st.sSet r x).slot = st.slot := rfl
@[simp] theorem Strand.sSet_watchSkip (st : Strand) (r : Nat) (x : W64) : (st.sSet r x).watchSkip = st.watchSkip := rfl

/-! ### A mask register -/

@[simp] theorem Strand.kSet_v (st : Strand) (r : Nat) (x : TMask) : (st.kSet r x).v = st.v := rfl
@[simp] theorem Strand.kSet_x (st : Strand) (r : Nat) (x : TMask) : (st.kSet r x).x = st.x := rfl
@[simp] theorem Strand.kSet_s (st : Strand) (r : Nat) (x : TMask) : (st.kSet r x).s = st.s := rfl
@[simp] theorem Strand.kSet_latches (st : Strand) (r : Nat) (x : TMask) : (st.kSet r x).latches = st.latches := rfl
@[simp] theorem Strand.kSet_qt (st : Strand) (r : Nat) (x : TMask) : (st.kSet r x).qt = st.qt := rfl
@[simp] theorem Strand.kSet_mode (st : Strand) (r : Nat) (x : TMask) : (st.kSet r x).mode = st.mode := rfl
@[simp] theorem Strand.kSet_flags (st : Strand) (r : Nat) (x : TMask) : (st.kSet r x).flags = st.flags := rfl
@[simp] theorem Strand.kSet_srs (st : Strand) (r : Nat) (x : TMask) : (st.kSet r x).srs = st.srs := rfl
@[simp] theorem Strand.kSet_frags (st : Strand) (r : Nat) (x : TMask) : (st.kSet r x).frags = st.frags := rfl
@[simp] theorem Strand.kSet_spilled (st : Strand) (r : Nat) (x : TMask) : (st.kSet r x).spilled = st.spilled := rfl
@[simp] theorem Strand.kSet_nextFrag (st : Strand) (r : Nat) (x : TMask) : (st.kSet r x).nextFrag = st.nextFrag := rfl
@[simp] theorem Strand.kSet_nborn (st : Strand) (r : Nat) (x : TMask) : (st.kSet r x).nborn = st.nborn := rfl
@[simp] theorem Strand.kSet_frame (st : Strand) (r : Nat) (x : TMask) : (st.kSet r x).frame = st.frame := rfl
@[simp] theorem Strand.kSet_fault (st : Strand) (r : Nat) (x : TMask) : (st.kSet r x).fault = st.fault := rfl
@[simp] theorem Strand.kSet_parked (st : Strand) (r : Nat) (x : TMask) : (st.kSet r x).parked = st.parked := rfl
@[simp] theorem Strand.kSet_exited (st : Strand) (r : Nat) (x : TMask) : (st.kSet r x).exited = st.exited := rfl
@[simp] theorem Strand.kSet_stopped (st : Strand) (r : Nat) (x : TMask) : (st.kSet r x).stopped = st.stopped := rfl
@[simp] theorem Strand.kSet_lane (st : Strand) (r : Nat) (x : TMask) : (st.kSet r x).lane = st.lane := rfl
@[simp] theorem Strand.kSet_slot (st : Strand) (r : Nat) (x : TMask) : (st.kSet r x).slot = st.slot := rfl
@[simp] theorem Strand.kSet_watchSkip (st : Strand) (r : Nat) (x : TMask) : (st.kSet r x).watchSkip = st.watchSkip := rfl

/-! ### An x register -/

@[simp] theorem Strand.xSet_v (st : Strand) (r n : Nat) (x : W64) : (st.xSet r n x).v = st.v := rfl
@[simp] theorem Strand.xSet_s (st : Strand) (r n : Nat) (x : W64) : (st.xSet r n x).s = st.s := rfl
@[simp] theorem Strand.xSet_k (st : Strand) (r n : Nat) (x : W64) : (st.xSet r n x).k = st.k := rfl
@[simp] theorem Strand.xSet_latches (st : Strand) (r n : Nat) (x : W64) : (st.xSet r n x).latches = st.latches := rfl
@[simp] theorem Strand.xSet_qt (st : Strand) (r n : Nat) (x : W64) : (st.xSet r n x).qt = st.qt := rfl
@[simp] theorem Strand.xSet_mode (st : Strand) (r n : Nat) (x : W64) : (st.xSet r n x).mode = st.mode := rfl
@[simp] theorem Strand.xSet_flags (st : Strand) (r n : Nat) (x : W64) : (st.xSet r n x).flags = st.flags := rfl
@[simp] theorem Strand.xSet_srs (st : Strand) (r n : Nat) (x : W64) : (st.xSet r n x).srs = st.srs := rfl
@[simp] theorem Strand.xSet_frags (st : Strand) (r n : Nat) (x : W64) : (st.xSet r n x).frags = st.frags := rfl
@[simp] theorem Strand.xSet_spilled (st : Strand) (r n : Nat) (x : W64) : (st.xSet r n x).spilled = st.spilled := rfl
@[simp] theorem Strand.xSet_nextFrag (st : Strand) (r n : Nat) (x : W64) : (st.xSet r n x).nextFrag = st.nextFrag := rfl
@[simp] theorem Strand.xSet_nborn (st : Strand) (r n : Nat) (x : W64) : (st.xSet r n x).nborn = st.nborn := rfl
@[simp] theorem Strand.xSet_frame (st : Strand) (r n : Nat) (x : W64) : (st.xSet r n x).frame = st.frame := rfl
@[simp] theorem Strand.xSet_fault (st : Strand) (r n : Nat) (x : W64) : (st.xSet r n x).fault = st.fault := rfl
@[simp] theorem Strand.xSet_parked (st : Strand) (r n : Nat) (x : W64) : (st.xSet r n x).parked = st.parked := rfl
@[simp] theorem Strand.xSet_exited (st : Strand) (r n : Nat) (x : W64) : (st.xSet r n x).exited = st.exited := rfl
@[simp] theorem Strand.xSet_stopped (st : Strand) (r n : Nat) (x : W64) : (st.xSet r n x).stopped = st.stopped := rfl
@[simp] theorem Strand.xSet_lane (st : Strand) (r n : Nat) (x : W64) : (st.xSet r n x).lane = st.lane := rfl
@[simp] theorem Strand.xSet_slot (st : Strand) (r n : Nat) (x : W64) : (st.xSet r n x).slot = st.slot := rfl
@[simp] theorem Strand.xSet_watchSkip (st : Strand) (r n : Nat) (x : W64) : (st.xSet r n x).watchSkip = st.watchSkip := rfl

/-! ### A v register -/

@[simp] theorem Strand.vSet_x (st : Strand) (r n : Nat) (x : W32) : (st.vSet r n x).x = st.x := rfl
@[simp] theorem Strand.vSet_s (st : Strand) (r n : Nat) (x : W32) : (st.vSet r n x).s = st.s := rfl
@[simp] theorem Strand.vSet_k (st : Strand) (r n : Nat) (x : W32) : (st.vSet r n x).k = st.k := rfl
@[simp] theorem Strand.vSet_latches (st : Strand) (r n : Nat) (x : W32) : (st.vSet r n x).latches = st.latches := rfl
@[simp] theorem Strand.vSet_qt (st : Strand) (r n : Nat) (x : W32) : (st.vSet r n x).qt = st.qt := rfl
@[simp] theorem Strand.vSet_mode (st : Strand) (r n : Nat) (x : W32) : (st.vSet r n x).mode = st.mode := rfl
@[simp] theorem Strand.vSet_flags (st : Strand) (r n : Nat) (x : W32) : (st.vSet r n x).flags = st.flags := rfl
@[simp] theorem Strand.vSet_srs (st : Strand) (r n : Nat) (x : W32) : (st.vSet r n x).srs = st.srs := rfl
@[simp] theorem Strand.vSet_frags (st : Strand) (r n : Nat) (x : W32) : (st.vSet r n x).frags = st.frags := rfl
@[simp] theorem Strand.vSet_spilled (st : Strand) (r n : Nat) (x : W32) : (st.vSet r n x).spilled = st.spilled := rfl
@[simp] theorem Strand.vSet_nextFrag (st : Strand) (r n : Nat) (x : W32) : (st.vSet r n x).nextFrag = st.nextFrag := rfl
@[simp] theorem Strand.vSet_nborn (st : Strand) (r n : Nat) (x : W32) : (st.vSet r n x).nborn = st.nborn := rfl
@[simp] theorem Strand.vSet_frame (st : Strand) (r n : Nat) (x : W32) : (st.vSet r n x).frame = st.frame := rfl
@[simp] theorem Strand.vSet_fault (st : Strand) (r n : Nat) (x : W32) : (st.vSet r n x).fault = st.fault := rfl
@[simp] theorem Strand.vSet_parked (st : Strand) (r n : Nat) (x : W32) : (st.vSet r n x).parked = st.parked := rfl
@[simp] theorem Strand.vSet_exited (st : Strand) (r n : Nat) (x : W32) : (st.vSet r n x).exited = st.exited := rfl
@[simp] theorem Strand.vSet_stopped (st : Strand) (r n : Nat) (x : W32) : (st.vSet r n x).stopped = st.stopped := rfl
@[simp] theorem Strand.vSet_lane (st : Strand) (r n : Nat) (x : W32) : (st.vSet r n x).lane = st.lane := rfl
@[simp] theorem Strand.vSet_slot (st : Strand) (r n : Nat) (x : W32) : (st.vSet r n x).slot = st.slot := rfl
@[simp] theorem Strand.vSet_watchSkip (st : Strand) (r n : Nat) (x : W32) : (st.vSet r n x).watchSkip = st.watchSkip := rfl

/-! ### The latches -/

@[simp] theorem Strand.latch_v (st : Strand) (l : List (Nat × W64)) : (st.latch l).v = st.v := rfl
@[simp] theorem Strand.latch_x (st : Strand) (l : List (Nat × W64)) : (st.latch l).x = st.x := rfl
@[simp] theorem Strand.latch_s (st : Strand) (l : List (Nat × W64)) : (st.latch l).s = st.s := rfl
@[simp] theorem Strand.latch_k (st : Strand) (l : List (Nat × W64)) : (st.latch l).k = st.k := rfl
@[simp] theorem Strand.latch_qt (st : Strand) (l : List (Nat × W64)) : (st.latch l).qt = st.qt := rfl
@[simp] theorem Strand.latch_mode (st : Strand) (l : List (Nat × W64)) : (st.latch l).mode = st.mode := rfl
@[simp] theorem Strand.latch_flags (st : Strand) (l : List (Nat × W64)) : (st.latch l).flags = st.flags := rfl
@[simp] theorem Strand.latch_srs (st : Strand) (l : List (Nat × W64)) : (st.latch l).srs = st.srs := rfl
@[simp] theorem Strand.latch_frags (st : Strand) (l : List (Nat × W64)) : (st.latch l).frags = st.frags := rfl
@[simp] theorem Strand.latch_spilled (st : Strand) (l : List (Nat × W64)) : (st.latch l).spilled = st.spilled := rfl
@[simp] theorem Strand.latch_nextFrag (st : Strand) (l : List (Nat × W64)) : (st.latch l).nextFrag = st.nextFrag := rfl
@[simp] theorem Strand.latch_nborn (st : Strand) (l : List (Nat × W64)) : (st.latch l).nborn = st.nborn := rfl
@[simp] theorem Strand.latch_frame (st : Strand) (l : List (Nat × W64)) : (st.latch l).frame = st.frame := rfl
@[simp] theorem Strand.latch_fault (st : Strand) (l : List (Nat × W64)) : (st.latch l).fault = st.fault := rfl
@[simp] theorem Strand.latch_parked (st : Strand) (l : List (Nat × W64)) : (st.latch l).parked = st.parked := rfl
@[simp] theorem Strand.latch_exited (st : Strand) (l : List (Nat × W64)) : (st.latch l).exited = st.exited := rfl
@[simp] theorem Strand.latch_stopped (st : Strand) (l : List (Nat × W64)) : (st.latch l).stopped = st.stopped := rfl
@[simp] theorem Strand.latch_lane (st : Strand) (l : List (Nat × W64)) : (st.latch l).lane = st.lane := rfl
@[simp] theorem Strand.latch_slot (st : Strand) (l : List (Nat × W64)) : (st.latch l).slot = st.slot := rfl
@[simp] theorem Strand.latch_watchSkip (st : Strand) (l : List (Nat × W64)) : (st.latch l).watchSkip = st.watchSkip := rfl

/-! ### The latches after a uniform instruction -/

@[simp] theorem Strand.latchS_v (st : Strand) (em : TMask) (x : W64) : (st.latchS em x).v = st.v := rfl
@[simp] theorem Strand.latchS_x (st : Strand) (em : TMask) (x : W64) : (st.latchS em x).x = st.x := rfl
@[simp] theorem Strand.latchS_s (st : Strand) (em : TMask) (x : W64) : (st.latchS em x).s = st.s := rfl
@[simp] theorem Strand.latchS_k (st : Strand) (em : TMask) (x : W64) : (st.latchS em x).k = st.k := rfl
@[simp] theorem Strand.latchS_qt (st : Strand) (em : TMask) (x : W64) : (st.latchS em x).qt = st.qt := rfl
@[simp] theorem Strand.latchS_mode (st : Strand) (em : TMask) (x : W64) : (st.latchS em x).mode = st.mode := rfl
@[simp] theorem Strand.latchS_flags (st : Strand) (em : TMask) (x : W64) : (st.latchS em x).flags = st.flags := rfl
@[simp] theorem Strand.latchS_srs (st : Strand) (em : TMask) (x : W64) : (st.latchS em x).srs = st.srs := rfl
@[simp] theorem Strand.latchS_frags (st : Strand) (em : TMask) (x : W64) : (st.latchS em x).frags = st.frags := rfl
@[simp] theorem Strand.latchS_spilled (st : Strand) (em : TMask) (x : W64) : (st.latchS em x).spilled = st.spilled := rfl
@[simp] theorem Strand.latchS_nextFrag (st : Strand) (em : TMask) (x : W64) : (st.latchS em x).nextFrag = st.nextFrag := rfl
@[simp] theorem Strand.latchS_nborn (st : Strand) (em : TMask) (x : W64) : (st.latchS em x).nborn = st.nborn := rfl
@[simp] theorem Strand.latchS_frame (st : Strand) (em : TMask) (x : W64) : (st.latchS em x).frame = st.frame := rfl
@[simp] theorem Strand.latchS_fault (st : Strand) (em : TMask) (x : W64) : (st.latchS em x).fault = st.fault := rfl
@[simp] theorem Strand.latchS_parked (st : Strand) (em : TMask) (x : W64) : (st.latchS em x).parked = st.parked := rfl
@[simp] theorem Strand.latchS_exited (st : Strand) (em : TMask) (x : W64) : (st.latchS em x).exited = st.exited := rfl
@[simp] theorem Strand.latchS_stopped (st : Strand) (em : TMask) (x : W64) : (st.latchS em x).stopped = st.stopped := rfl
@[simp] theorem Strand.latchS_lane (st : Strand) (em : TMask) (x : W64) : (st.latchS em x).lane = st.lane := rfl
@[simp] theorem Strand.latchS_slot (st : Strand) (em : TMask) (x : W64) : (st.latchS em x).slot = st.slot := rfl
@[simp] theorem Strand.latchS_watchSkip (st : Strand) (em : TMask) (x : W64) : (st.latchS em x).watchSkip = st.watchSkip := rfl

/-! ### Sticky flags -/

@[simp] theorem Strand.raise_v (st : Strand) (f : BitVec 6) : (st.raise f).v = st.v := rfl
@[simp] theorem Strand.raise_x (st : Strand) (f : BitVec 6) : (st.raise f).x = st.x := rfl
@[simp] theorem Strand.raise_s (st : Strand) (f : BitVec 6) : (st.raise f).s = st.s := rfl
@[simp] theorem Strand.raise_k (st : Strand) (f : BitVec 6) : (st.raise f).k = st.k := rfl
@[simp] theorem Strand.raise_latches (st : Strand) (f : BitVec 6) : (st.raise f).latches = st.latches := rfl
@[simp] theorem Strand.raise_qt (st : Strand) (f : BitVec 6) : (st.raise f).qt = st.qt := rfl
@[simp] theorem Strand.raise_mode (st : Strand) (f : BitVec 6) : (st.raise f).mode = st.mode := rfl
@[simp] theorem Strand.raise_srs (st : Strand) (f : BitVec 6) : (st.raise f).srs = st.srs := rfl
@[simp] theorem Strand.raise_frags (st : Strand) (f : BitVec 6) : (st.raise f).frags = st.frags := rfl
@[simp] theorem Strand.raise_spilled (st : Strand) (f : BitVec 6) : (st.raise f).spilled = st.spilled := rfl
@[simp] theorem Strand.raise_nextFrag (st : Strand) (f : BitVec 6) : (st.raise f).nextFrag = st.nextFrag := rfl
@[simp] theorem Strand.raise_nborn (st : Strand) (f : BitVec 6) : (st.raise f).nborn = st.nborn := rfl
@[simp] theorem Strand.raise_frame (st : Strand) (f : BitVec 6) : (st.raise f).frame = st.frame := rfl
@[simp] theorem Strand.raise_fault (st : Strand) (f : BitVec 6) : (st.raise f).fault = st.fault := rfl
@[simp] theorem Strand.raise_parked (st : Strand) (f : BitVec 6) : (st.raise f).parked = st.parked := rfl
@[simp] theorem Strand.raise_exited (st : Strand) (f : BitVec 6) : (st.raise f).exited = st.exited := rfl
@[simp] theorem Strand.raise_stopped (st : Strand) (f : BitVec 6) : (st.raise f).stopped = st.stopped := rfl
@[simp] theorem Strand.raise_lane (st : Strand) (f : BitVec 6) : (st.raise f).lane = st.lane := rfl
@[simp] theorem Strand.raise_slot (st : Strand) (f : BitVec 6) : (st.raise f).slot = st.slot := rfl
@[simp] theorem Strand.raise_watchSkip (st : Strand) (f : BitVec 6) : (st.raise f).watchSkip = st.watchSkip := rfl

end Sys2Proof.Machine
end

