-- ==== Sys2Proof/Laws/Ops.lean ====
section
/-!
SUPPORT. Laws/Ops.lean: what the shared operations of Machine/Ops.lean do: the issuing strand, the split table, going on, yield points,
traps and the return from them.
-/
namespace Sys2Proof.Machine
open Sys2Proof

/-! ### Strands, workgroups, cores -/

/-- The strand that has been updated. -/
@[simp] theorem State.find_updStrand_same (s : State) (i : StrandId) (g : Strand → Strand) :
    (s.updStrand i g).strands.find i = (s.strands.find i).map g := AList.find_adjust_same _ _ _

/-- Updating a strand leaves the others. -/
theorem State.find_updStrand_other (s : State) {i j : StrandId} (g : Strand → Strand) (h : j ≠ i) :
    (s.updStrand i g).strands.find j = s.strands.find j := AList.find_adjust_other _ _ h

/-- Two updates of one strand are one. -/
@[simp] theorem State.updStrand_updStrand (s : State) (i : StrandId) (f g : Strand → Strand) :
    (s.updStrand i f).updStrand i g = s.updStrand i (fun st => g (f st)) := by
  simp only [State.updStrand, AList.adjust_adjust]

/-- An adjustment that does the same to the record. -/
theorem AList.adjust_congr [DecidableEq κ] (m : AList κ α) (a : κ) (f g : α → α) (h : ∀ v, m.find a = some v → f v = g v) :
    m.adjust a f = m.adjust a g := by
  induction m with
  | nil => rfl
  | cons p m ih =>
    obtain ⟨k, v⟩ := p
    by_cases hk : k = a
    · have := h v (by simp [AList.find, hk])
      simp [AList.adjust, hk, this]
    · simp only [AList.adjust, hk, if_false]
      rw [ih (fun v hv => h v (by simpa [AList.find, hk] using hv))]

/-- An update that does the same to the strand. -/
theorem State.updStrand_congr (s : State) (i : StrandId) (f g : Strand → Strand) (h : ∀ st, s.strands.find i = some st → f st = g st) :
    s.updStrand i f = s.updStrand i g := by
  unfold State.updStrand; rw [AList.adjust_congr _ _ f g h]

/-- The workgroup that has been updated. -/
@[simp] theorem State.find_updWg_same (s : State) (i : WgId) (g : Workgroup → Workgroup) :
    (s.updWg i g).wgs.find i = (s.wgs.find i).map g := AList.find_adjust_same _ _ _

/-- Updating a workgroup leaves the others. -/
theorem State.find_updWg_other (s : State) {i j : WgId} (g : Workgroup → Workgroup) (h : j ≠ i) :
    (s.updWg i g).wgs.find j = s.wgs.find j := AList.find_adjust_other _ _ h

/-- The core that has been updated. -/
@[simp] theorem State.core_updCore_same (s : State) (c : Nat) (g : Core → Core) : (s.updCore c g).core c = g (s.core c) := by
  simp [State.core, State.updCore, AList.findD]

/-- Updating a core leaves the others. -/
theorem State.core_updCore_other (s : State) {c d : Nat} (g : Core → Core) (h : d ≠ c) : (s.updCore c g).core d = s.core d := by
  simp [State.core, State.updCore, AList.findD, AList.find_put_other _ _ h]

/-! ### Who issues -/

/-- What an issuing strand is. -/
theorem State.me_some {s : State} {m : Me} (h : s.me = some m) :
    s.cur = some (m.sid, m.fi) ∧ s.strands.find m.sid = some m.st ∧ m.st.frags[m.fi]? = some m.f ∧ s.wgs.find m.sid.wg = some m.wg ∧
    m.f.st ≠ .free ∧ m.st.exited = false := by
  unfold State.me at h
  cases hc : s.cur with
  | none => simp [hc] at h
  | some p =>
    obtain ⟨sid, fi⟩ := p
    cases hs : s.strands.find sid with
    | none => simp [hc, hs] at h
    | some st =>
      cases hf : st.frags[fi]? with
      | none => simp [hc, hs, hf] at h
      | some f =>
        cases hw : s.wgs.find sid.wg with
        | none => simp [hc, hs, hw] at h
        | some wg =>
          simp only [hc, hs, hf, hw, Option.bind_eq_bind, Option.bind_some] at h
          split at h
          · cases h
          · rename_i hn
            cases h
            simp only [Bool.or_eq_true, decide_eq_true_eq, not_or, Bool.not_eq_true] at hn
            exact ⟨rfl, hs, hf, hw, hn.1, hn.2⟩

/-- An issuing strand runs its meaning. -/
theorem asStrand_of {s : State} {m : Me} (h : s.me = some m) (k : Me → State) : asStrand s k = .next (k m) := by
  simp [asStrand, h]

/-- A yield-class instruction without a waiting trap runs its meaning. -/
theorem asYielding_of {s : State} {m : Me} (h : s.me = some m) (hp : m.pending = none) (k : Me → State) :
    asYielding s k = .next (k m) := by
  simp [asYielding, asStrand, h, hp]

/-! ### The split table -/

/-- The part of a strand that the split table's rules read and write. -/
def Strand.withTable (st r : Strand) : Strand := { st with frags := r.frags, spilled := r.spilled, exited := r.exited }

/-- Fusing does not see the registers. -/
theorem fuseOne_table (st r : Strand) (p : Frag) : fuseOne (st.withTable r) p = (fuseOne r p).map st.withTable := by
  have hk : (st.withTable r).childrenOf p.born = r.childrenOf p.born := rfl
  have hf : (st.withTable r).frags = r.frags := rfl
  have hs : (st.withTable r).spilled = r.spilled := rfl
  unfold fuseOne
  simp only [hk, hf, hs]
  by_cases h : (p.split && (r.childrenOf p.born).all Frag.arrived) = true
  · simp only [h, if_true]
    cases (freeFrags r.frags fun f => decide (f.pborn = some p.born)).findIdx? (fun f => f.st ≠ .free && f.born = p.born) with
    | some i => rfl
    | none =>
      cases firstFree (freeFrags r.frags fun f => decide (f.pborn = some p.born)) with
      | some i => rfl
      | none => rfl
  · simp only [h]; rfl

/-- Nor do the fusions that follow. -/
theorem fuseAll_table (n : Nat) (st r : Strand) : fuseAll n (st.withTable r) = st.withTable (fuseAll n r) := by
  induction n generalizing r with
  | zero => rfl
  | succ n ih =>
    have hall : (st.withTable r).all = r.all := rfl
    have hmap : ((st.withTable r).all.filterMap (fun p => fuseOne (st.withTable r) p)).head? =
        ((r.all.filterMap (fun p => fuseOne r p)).head?).map st.withTable := by
      rw [hall]
      have : (fun p => fuseOne (st.withTable r) p) = (fun p => (fuseOne r p).map st.withTable) := funext (fuseOne_table st r)
      rw [this, ← List.map_filterMap, List.head?_map]
    simp only [fuseAll]
    rw [hmap]
    cases (r.all.filterMap (fun p => fuseOne r p)).head? with
    | none => rfl
    | some r' =>
      simp only [Option.map_some]
      exact ih { r' with frags := r'.frags.map Frag.joinNow }

/-- The trap frame that is left when a strand has some fragments (R328). -/
def Strand.frameFor (st r : Strand) : Option Frame := st.frame.filter (fun x => r.all.any (fun f => f.born = x.frag))

/-- Settling the table does not see the registers; a trap frame whose fragment is gone goes too. -/
theorem Strand.settleFrags_table (st r : Strand) :
    (st.withTable r).settleFrags = { st.withTable r.settleFrags with frame := st.frameFor r.settleFrags } := by
  unfold Strand.settleFrags
  simp only
  have h := fuseAll_table 16 st { r with frags := r.frags.map (fun f => if f.st ≠ .free && f.fm = 0 && !f.split then Frag.free else f.joinNow) }
  have e : ({ st.withTable r with frags := (st.withTable r).frags.map (fun f => if f.st ≠ .free && f.fm = 0 && !f.split then Frag.free else f.joinNow) } : Strand) =
      st.withTable { r with frags := r.frags.map (fun f => if f.st ≠ .free && f.fm = 0 && !f.split then Frag.free else f.joinNow) } := rfl
  rw [e, h]
  rfl

/-- Settling the table leaves the registers. -/
theorem Strand.settleFrags_regs (st : Strand) : st.settleFrags = { st.withTable st.settleFrags with frame := st.frameFor st.settleFrags } := by
  have h := Strand.settleFrags_table st st
  have e : st.withTable st = st := rfl
  rwa [e] at h

/-! ### Going on -/

/-- Setting the instruction address, where nothing of the table is due. -/
theorem State.setPc_apart (s : State) (m : Me) (pc : W64) (st : Strand) (h : s.strands.find m.sid = some st)
    (hf : st.frags = m.st.frags) (hs : st.spilled = m.st.spilled) (he : st.exited = m.st.exited) (hr : st.frame = m.st.frame)
    (ha : Safety.apart m pc) :
    s.setPc m pc = s.updStrand m.sid (fun _ => { st with frags := (Safety.moved m pc).frags }) := by
  unfold State.setPc
  refine State.updStrand_congr _ _ _ _ (fun st' h' => ?_)
  rw [h] at h'; cases h'
  have e : ({ st with frags := listAdjust st.frags m.fi (fun f => { f with pc := pc.extractLsb' 2 62, st := .ready, wait := none }) } : Strand) =
      st.withTable (Safety.moved m pc) := by
    simp [Strand.withTable, Safety.moved, hf, hs, he]
  have hk : (Safety.moved m pc).frameFor (Safety.moved m pc).settleFrags = (Safety.moved m pc).frame := by
    have := congrArg Strand.frame (Strand.settleFrags_regs (Safety.moved m pc))
    rw [ha] at this ⊢
    exact this.symm
  have hk2 : st.frameFor (Safety.moved m pc) = st.frame := by
    rw [ha] at hk
    unfold Strand.frameFor at hk ⊢
    rw [hr]
    exact hk
  rw [e, Strand.settleFrags_table, ha, hk2]
  simp [Strand.withTable, Safety.moved, hs, he]

/-- Going on to the next instruction, where nothing of the table is due. -/
theorem State.advance_apart (s : State) (m : Me) (n : Nat) (st : Strand) (h : s.strands.find m.sid = some st)
    (hm : m.st.frags[m.fi]? = some m.f)
    (hf : st.frags = m.st.frags) (hs : st.spilled = m.st.spilled) (he : st.exited = m.st.exited) (hr : st.frame = m.st.frame)
    (ha : Safety.apart m (m.pc + BitVec.ofNat 64 n)) :
    s.advance m n = s.updStrand m.sid (fun _ => { st with frags := (Safety.moved m (m.pc + BitVec.ofNat 64 n)).frags }) := by
  unfold State.advance
  rw [State.setPc_apart s m _ st h hf hs he hr ha]
  simp [State.joined, h, Safety.moved, hm]

end Sys2Proof.Machine
end

