-- ==== Sys2Proof/Laws/Vec.lean ====
section
/-!
SUPPORT. Laws/Vec.lean: what a vector instruction does: its iterations as a function of the strand, and how it ends.
-/
namespace Sys2Proof.Machine
open Sys2Proof

/-- The issuing strand with other registers. -/
def Me.with_ (m : Me) (st : Strand) : Me := { m with st := st }

/-- The strand after the first `j` iterations of a vector instruction that names no queue. -/
def Vec.strandAfter (v : Vec) (s : State) (m : Me) (ty : ETy) : Nat → Strand
  | 0 => m.st
  | j + 1 =>
    let st := v.strandAfter s m ty j
    v.write m.access ty j (v.run (v.input (s.updStrand m.sid (fun _ => st)) (m.with_ st) st ty j [])) st

/-! ### Fields that a write leaves -/

/-- Writing registers leaves all but v and x. -/
theorem Strand.regSets_other (st : Strand) (acc : Bool) (ty : ETy) (n : Nat) (l : List (Nat × Nat)) :
    st.regSets acc ty n l = { st with v := (st.regSets acc ty n l).v, x := (st.regSets acc ty n l).x } := by
  unfold Strand.regSets
  induction l generalizing st with
  | nil => rfl
  | cons p l ih =>
    simp only [List.foldl_cons]
    rw [ih]
    simp only [Strand.regSet]
    split
    · rfl
    · split <;> rfl

/-- A write of results touches registers, masks, latches, flags and SRS. -/
theorem Vec.write_other (v : Vec) (acc : Bool) (ty : ETy) (j : Nat) (o : VOut) (st : Strand) :
    v.write acc ty j o st = { st with
      v := (v.write acc ty j o st).v, x := (v.write acc ty j o st).x, s := (v.write acc ty j o st).s, k := (v.write acc ty j o st).k,
      latches := (v.write acc ty j o st).latches, flags := (v.write acc ty j o st).flags, srs := (v.write acc ty j o st).srs } := by
  unfold Vec.write
  cases v.dst ty with
  | none => rfl
  | enq q ch tag ty => rfl
  | sreg d n dt => cases n <;> cases v.yields ty <;> rfl
  | sel d n dt =>
    cases d with
    | reg r =>
      simp only
      cases n with
      | true => cases v.yields ty <;> rfl
      | false =>
        simp only [Bool.false_eq_true, if_false]
        cases Sel.adv acc (.reg r) dt (IncPos.d.on v.pfx) j with
        | reg r' =>
          simp only
          rw [Strand.regSets_other]
          cases v.yields ty <;> rfl
        | _ => cases v.yields ty <;> rfl
    | _ => rfl

/-- What the iterations leave of a strand. -/
theorem Vec.strandAfter_other (v : Vec) (s : State) (m : Me) (ty : ETy) (j : Nat) :
    v.strandAfter s m ty j = { m.st with
      v := (v.strandAfter s m ty j).v, x := (v.strandAfter s m ty j).x, s := (v.strandAfter s m ty j).s, k := (v.strandAfter s m ty j).k,
      latches := (v.strandAfter s m ty j).latches, flags := (v.strandAfter s m ty j).flags, srs := (v.strandAfter s m ty j).srs } := by
  induction j with
  | zero => rfl
  | succ j ih =>
    simp only [Vec.strandAfter]
    generalize hst : v.strandAfter s m ty j = st at ih
    rw [Vec.write_other]
    rw [ih]

/-! ### Iterations -/

/-- An instruction that is not yield-class pops nothing. -/
theorem Vec.pops_nil {v : Vec} {ty : ETy} (h : v.yields ty = false) : v.pops ty = [] := by
  have h1 : (v.srcs ty).any (fun s => s.sel.isQueue) = false := by
    simp only [Vec.yields, Bool.or_eq_false_iff] at h; exact h.1
  unfold Vec.pops
  generalize v.srcs ty = l at h1
  suffices ∀ acc : List (Nat × Nat), l.foldl (fun l s => match s.sel.queueNum with
      | some n => if l.any (fun p => p.1 = n) then l else l ++ [(n, if s.ty.is64 then 2 else 1)]
      | none => l) acc = acc from this []
  intro acc
  induction l generalizing acc with
  | nil => rfl
  | cons x l ih =>
    simp only [List.any_cons, Bool.or_eq_false_iff] at h1
    have : x.sel.queueNum = none := by cases hs : x.sel <;> simp [Sel.queueNum, Sel.isQueue, hs] at h1 ⊢
    simp only [List.foldl_cons, this]
    exact ih h1.2 acc

/-- An instruction that is not yield-class pushes nothing. -/
theorem Vec.push_none {v : Vec} {ty : ETy} (h : v.yields ty = false) : (v.dst ty).queueNum = none := by
  simp only [Vec.yields, Bool.or_eq_false_iff] at h
  cases hq : (v.dst ty).queueNum with
  | none => rfl
  | some n => simp [hq] at h

/-- The issuing strand after an update of its registers. -/
theorem State.me_updStrand {s : State} {m : Me} (h : s.me = some m) (st : Strand) (hf : st.frags = m.st.frags) (he : st.exited = m.st.exited) :
    (s.updStrand m.sid (fun _ => st)).me = some (m.with_ st) := by
  obtain ⟨h1, h2, h3, h4, h5, h6⟩ := State.me_some h
  unfold State.me
  simp [h1, h2, h4, hf, h3, h5, he, h6, Me.with_]

/-- One iteration of an instruction that is not yield-class and has no check of its own. -/
theorem Vec.iter_plain {v : Vec} {s : State} {m : Me} {ty : ETy} {total left : Nat} (h : s.me = some m) (hy : v.yields ty = false)
    (hpre : v.pre s m ty (total - left) = none) :
    v.iter s m ty total left =
      .more (v.post (s.updStrand m.sid (v.write m.access ty (total - left) (v.run (v.input s m m.st ty (total - left) [])))) m ty (total - left)
        (v.run (v.input s m m.st ty (total - left) []))) := by
  obtain ⟨-, h2, -, h4, -, -⟩ := State.me_some h
  unfold Vec.iter
  simp only [Vec.pops_nil hy, Vec.push_none hy, hpre]
  simp [State.queuesReady, h4, State.popAll, h2, State.deliver, Vec.push_none hy]

/-- Writing back the strand that stands there changes nothing. -/
theorem State.updStrand_self {s : State} {i : StrandId} {st : Strand} (h : s.strands.find i = some st) : s.updStrand i (fun _ => st) = s := by
  have e : ∀ (l : AList StrandId Strand), l.find i = some st → l.adjust i (fun _ => st) = l := by
    intro l
    induction l with
    | nil => intro _; rfl
    | cons p l ih =>
      obtain ⟨k, v⟩ := p
      intro hh
      by_cases hk : k = i
      · simp only [AList.find, hk, if_true, Option.some.injEq] at hh
        simp [AList.adjust, hk, hh]
      · simp only [AList.find, hk, if_false] at hh
        simp [AList.adjust, hk, ih hh]
  unfold State.updStrand
  rw [e _ h]

/-- All iterations of an instruction that is not yield-class, without checks or effects of its own. -/
theorem Vec.iters_plain {v : Vec} {s : State} {m : Me} {ty : ETy} (h : s.me = some m) (hy : v.yields ty = false)
    (hpre : ∀ s m j, v.pre s m ty j = none) (hpost : ∀ s m j o, v.post s m ty j o = s) (total n : Nat) (hn : n ≤ total) :
    v.iters ty total n (s.updStrand m.sid (fun _ => v.strandAfter s m ty (total - n))) =
      .more (s.updStrand m.sid (fun _ => v.strandAfter s m ty total)) := by
  induction n with
  | zero => rfl
  | succ n ih =>
    have hother := Vec.strandAfter_other v s m ty (total - (n + 1))
    have hme := State.me_updStrand h (v.strandAfter s m ty (total - (n + 1))) (by rw [hother]) (by rw [hother])
    simp only [Vec.iters, hme]
    rw [Vec.iter_plain hme hy (hpre _ _ _)]
    simp only [hpost]
    rw [show ∀ st, (m.with_ st).sid = m.sid from fun _ => rfl, State.updStrand_updStrand]
    have e : total - n = total - (n + 1) + 1 := by omega
    have := ih (by omega)
    rw [e] at this
    exact this

/-- The lane's occupation does not see the registers. -/
theorem State.occupy_updStrand {s : State} {m : Me} (h : s.strands.find m.sid = some m.st) (st : Strand) (hl : st.lane = m.st.lane) (n : Nat) :
    (s.updStrand m.sid (fun _ => st)).occupy m n = (s.occupy m n).updStrand m.sid (fun _ => st) := by
  unfold State.occupy State.updLane State.laneOf
  simp only [State.find_updStrand_same, h, Option.map_some, hl, Option.getD_some]
  rfl

/-- Setting RC to the value it has changes nothing. -/
theorem State.setRc_same {s : State} {m : Me} {st : Strand} (h : s.strands.find m.sid = some st) (hf : st.frags[m.fi]? = some m.f) :
    s.setRc m m.f.rc = s.updStrand m.sid (fun _ => st) := by
  unfold State.setRc State.updFrag
  refine State.updStrand_congr _ _ _ _ (fun st' h' => ?_)
  rw [h] at h'; cases h'
  have : ∀ (l : List Frag) (n : Nat) (f : Frag), l[n]? = some f → listAdjust l n (fun g => { g with rc := f.rc }) = l := by
    intro l
    induction l with
    | nil => intro n f hh; rfl
    | cons x l ih => intro n f hh; cases n with
      | zero => simp at hh; subst hh; rfl
      | succ n => simp only [listAdjust]; rw [ih n f (by simpa using hh)]
  rw [this _ _ _ hf]

/-- The end of a vector instruction that is not yield-class, where nothing of the split table is due. -/
theorem State.finishVec_apart {s : State} {m : Me} (h : s.me = some m) (st : Strand) (hf : st.frags = m.st.frags)
    (hs : st.spilled = m.st.spilled) (he : st.exited = m.st.exited) (hr : st.frame = m.st.frame) (hl : st.lane = m.st.lane) (hrc : m.f.rc = 0) (clocks len : Nat)
    (ha : Safety.apart m (m.pc + BitVec.ofNat 64 len)) :
    (s.updStrand m.sid (fun _ => st)).finishVec m false clocks len =
      (s.occupy m clocks).updStrand m.sid (fun _ => { st with frags := (Safety.moved m (m.pc + BitVec.ofNat 64 len)).frags }) := by
  obtain ⟨-, h2, h3, -, -, -⟩ := State.me_some h
  unfold State.finishVec
  simp only [Bool.false_eq_true, if_false]
  have e := State.setRc_same (s := s.updStrand m.sid (fun _ => st)) (m := m) (st := st) (by simp [h2]) (by rw [hf]; exact h3)
  rw [hrc] at e
  rw [e, State.updStrand_updStrand, State.occupy_updStrand h2 st hl]
  rw [State.advance_apart _ m len st (by simp [h2]) h3 hf hs he hr ha, State.updStrand_updStrand]

/-- A vector instruction that is not yield-class and has no check or effect of its own. -/
theorem Vec.exec_plain {v : Vec} {s : State} {m : Me} (h : s.me = some m) (hem : m.em ≠ 0) (hrc : m.f.rc = 0)
    (hy : v.yields (effET v.pfx m.st.mode) = false) (hl : v.legalFor m (effET v.pfx m.st.mode) (repTotal v.pfx) = true)
    (hx : s.xBusy m.sid (v.xUsed m (effET v.pfx m.st.mode) (repTotal v.pfx)) = false)
    (hpre : ∀ s' m' j, v.pre s' m' (effET v.pfx m.st.mode) j = none) (hpost : ∀ s' m' j o, v.post s' m' (effET v.pfx m.st.mode) j o = s')
    (ha : Safety.apart m (m.pc + BitVec.ofNat 64 v.len)) :
    v.exec_ s m = (s.occupy m (8 * repTotal v.pfx)).updStrand m.sid (fun _ =>
      { v.strandAfter s m (effET v.pfx m.st.mode) (repTotal v.pfx) with frags := (Safety.moved m (m.pc + BitVec.ofNat 64 v.len)).frags }) := by
  have hp := Vec.pops_nil hy
  have hq := Vec.push_none hy
  unfold Vec.exec_
  simp only [hy, hp, hq, hem, hl, hx, Bool.false_eq_true, if_false, Bool.not_true]
  have hd : m.directionOk (([] : List (Nat × Nat)).map Prod.fst) (none : Option Nat).toList = true := rfl
  have hst : m.startAt (repTotal v.pfx) = repTotal v.pfx := by simp [Me.startAt, hrc]
  simp only [hd, hst, Bool.not_true, Bool.false_eq_true, if_false]
  have hi := Vec.iters_plain h hy hpre hpost (repTotal v.pfx) (repTotal v.pfx) (Nat.le_refl _)
  obtain ⟨-, h2, -, -, -, -⟩ := State.me_some h
  rw [Nat.sub_self] at hi
  simp only [Vec.strandAfter] at hi
  rw [State.updStrand_self h2] at hi
  rw [hi]
  have ho := Vec.strandAfter_other v s m (effET v.pfx m.st.mode) (repTotal v.pfx)
  exact State.finishVec_apart h _ (by rw [ho]) (by rw [ho]) (by rw [ho]) (by rw [ho]) (by rw [ho]) hrc _ _ ha

end Sys2Proof.Machine
end

