-- ==== Sys2Proof/Laws/Once.lean ====
section
/-!
SUPPORT. Laws/Once.lean: one iteration of a vector instruction: what its results do to registers, latches and the rest of the machine.
-/
namespace Sys2Proof.Machine
open Sys2Proof

/-- The active threads are threads. -/
theorem TMask.mem_list (em : TMask) (t : Nat) : t ∈ TMask.list em ↔ t < 8 ∧ TMask.has em t = true := by
  unfold TMask.list threads
  simp only [List.mem_filter]
  constructor
  · rintro ⟨h, ha⟩
    refine ⟨?_, ha⟩
    simp only [List.mem_cons, List.not_mem_nil, or_false] at h
    omega
  · rintro ⟨h, ha⟩
    refine ⟨?_, ha⟩
    simp only [List.mem_cons, List.not_mem_nil, or_false]
    omega

/-- They are listed once. -/
theorem TMask.list_nodup (em : TMask) : (TMask.list em).Nodup := List.Nodup.sublist (List.filter_sublist) (by decide)

/-! ### Registers -/

/-- A register write in another thread or of another v register. -/
theorem Strand.regSet_vGet (st : Strand) (acc : Bool) (ty : ETy) (n t x q u : Nat) (ht : t < 8) (hu : u < 8)
    (h : acc = true ∨ u ≠ t ∨ (q ≠ n ∧ (ty.is64 = true → q ≠ n + 1))) : (st.regSet acc ty n t x).vGet q u = st.vGet q u := by
  unfold Strand.regSet
  split
  · rfl
  · rename_i ha
    have hne : 8 * q + u ≠ 8 * n + t := by
      rcases h with h | h | h
      · exact absurd h ha
      · omega
      · omega
    split
    · rename_i h64
      have hne2 : 8 * q + u ≠ 8 * (n + 1) + t := by
        rcases h with h | h | h
        · exact absurd h ha
        · omega
        · have := h.2 h64; omega
      simp only [Strand.vGet, Strand.vSet]
      rw [SMap.get_set_other _ _ hne2, SMap.get_set_other _ _ hne]
    · simp only [Strand.vGet, Strand.vSet]
      rw [SMap.get_set_other _ _ hne]

/-- A register write in another thread or of another x register. -/
theorem Strand.regSet_xGet (st : Strand) (acc : Bool) (ty : ETy) (n t x q u : Nat) (ht : t < 8) (hu : u < 8)
    (h : acc = false ∨ u ≠ t ∨ q ≠ n) : (st.regSet acc ty n t x).xGet q u = st.xGet q u := by
  unfold Strand.regSet
  split
  · rename_i ha
    have hne : 8 * q + u ≠ 8 * n + t := by
      rcases h with h | h | h
      · simp [h] at ha
      · omega
      · omega
    simp only [Strand.xGet, Strand.xSet]
    rw [SMap.get_set_other _ _ hne]
  · split <;> rfl

/-- A register that has been written. -/
theorem Strand.regSet_same (st : Strand) (acc : Bool) (ty : ETy) (n t x : Nat) (hx : x < 2 ^ ty.bits) :
    if acc = true then (st.regSet acc ty n t x).xGet n t = ty.extend x else (st.regSet acc ty n t x).regVal false ty n t = x := by
  unfold Strand.regSet
  cases acc
  · simp only [Bool.false_eq_true, if_false, Strand.regVal]
    by_cases h64 : ty.is64 = true
    · have hb : ty.bits = 64 := by simp [ETy.bits, h64]
      simp only [h64, if_true, Strand.vGet, Strand.vSet]
      rw [SMap.get_set_same, SMap.get_set_other _ _ (by omega), SMap.get_set_same]
      simp only [BitVec.toNat_ofNat]
      rw [hb] at hx
      omega
    · have hb : ty.bits = 32 := by simp [ETy.bits, h64]
      simp only [h64, Bool.false_eq_true, if_false, Strand.vGet, Strand.vSet]
      rw [SMap.get_set_same, BitVec.toNat_ofNat]
      rw [hb] at hx
      omega
  · simp [Strand.xGet, Strand.xSet]

/-- Writes of a list of results to threads: those that it does not name. -/
theorem Strand.regSets_vGet (acc : Bool) (ty : ETy) (n : Nat) (l : List (Nat × Nat)) (st : Strand) (q u : Nat) (hl : ∀ p ∈ l, p.1 < 8) (hu : u < 8)
    (h : acc = true ∨ (∀ p ∈ l, p.1 ≠ u) ∨ (q ≠ n ∧ (ty.is64 = true → q ≠ n + 1))) : (st.regSets acc ty n l).vGet q u = st.vGet q u := by
  unfold Strand.regSets
  induction l generalizing st with
  | nil => rfl
  | cons p l ih =>
    simp only [List.foldl_cons]
    rw [ih _ (fun p hp => hl p (List.mem_cons_of_mem _ hp))]
    · refine Strand.regSet_vGet _ _ _ _ _ _ _ _ (hl p List.mem_cons_self) hu ?_
      rcases h with h | h | h
      · exact .inl h
      · exact .inr (.inl (fun e => h p List.mem_cons_self e.symm))
      · exact .inr (.inr h)
    · rcases h with h | h | h
      · exact .inl h
      · exact .inr (.inl (fun p hp => h p (List.mem_cons_of_mem _ hp)))
      · exact .inr (.inr h)

/-- The same for x registers. -/
theorem Strand.regSets_xGet (acc : Bool) (ty : ETy) (n : Nat) (l : List (Nat × Nat)) (st : Strand) (q u : Nat) (hl : ∀ p ∈ l, p.1 < 8) (hu : u < 8)
    (h : acc = false ∨ (∀ p ∈ l, p.1 ≠ u) ∨ q ≠ n) : (st.regSets acc ty n l).xGet q u = st.xGet q u := by
  unfold Strand.regSets
  induction l generalizing st with
  | nil => rfl
  | cons p l ih =>
    simp only [List.foldl_cons]
    rw [ih _ (fun p hp => hl p (List.mem_cons_of_mem _ hp))]
    · refine Strand.regSet_xGet _ _ _ _ _ _ _ _ (hl p List.mem_cons_self) hu ?_
      rcases h with h | h | h
      · exact .inl h
      · exact .inr (.inl (fun e => h p List.mem_cons_self e.symm))
      · exact .inr (.inr h)
    · rcases h with h | h | h
      · exact .inl h
      · exact .inr (.inl (fun p hp => h p (List.mem_cons_of_mem _ hp)))
      · exact .inr (.inr h)

/-- Writes of a list of results: a thread that it names once. -/
theorem Strand.regSets_mem (acc : Bool) (ty : ETy) (n : Nat) (l : List (Nat × Nat)) (st : Strand) (t x : Nat) (hl : ∀ p ∈ l, p.1 < 8)
    (hn : (l.map Prod.fst).Nodup) (hm : (t, x) ∈ l) (hx : x < 2 ^ ty.bits) :
    if acc = true then (st.regSets acc ty n l).xGet n t = ty.extend x else (st.regSets acc ty n l).regVal false ty n t = x := by
  induction l generalizing st with
  | nil => cases hm
  | cons p l ih =>
    simp only [List.map_cons, List.nodup_cons] at hn
    have hl' : ∀ p ∈ l, p.1 < 8 := fun p hp => hl p (List.mem_cons_of_mem _ hp)
    rcases List.mem_cons.mp hm with rfl | hm'
    · have ht : t < 8 := hl _ List.mem_cons_self
      have hnot : ∀ p ∈ l, p.1 ≠ t := fun p hp e => hn.1 (List.mem_map.mpr ⟨p, hp, e⟩)
      have hs := Strand.regSet_same st acc ty n t x hx
      have e : st.regSets acc ty n ((t, x) :: l) = (st.regSet acc ty n t x).regSets acc ty n l := rfl
      rw [e]
      cases acc
      · simp only [Bool.false_eq_true, if_false] at hs ⊢
        have hv (q : Nat) : ((st.regSet false ty n t x).regSets false ty n l).vGet q t = (st.regSet false ty n t x).vGet q t :=
          Strand.regSets_vGet _ _ _ _ _ _ _ hl' ht (.inr (.inl hnot))
        simp only [Strand.regVal, hv] at hs ⊢
        exact hs
      · simp only [if_true] at hs ⊢
        rw [Strand.regSets_xGet _ _ _ _ _ _ _ hl' ht (.inr (.inl hnot))]
        exact hs
    · exact ih _ hl' hn.2 hm'

/-! ### Latches -/

/-- A latch that has been shifted. -/
theorem SMap.get_filterMap_shift (m : SMap w) (a : Nat) :
    SMap.get (m.filterMap (fun p => if p.1 < 24 then some (p.1 + 8, p.2) else none)) a = if 8 ≤ a ∧ a < 32 then m.get (a - 8) else 0 := by
  induction m with
  | nil => simp [SMap.get]
  | cons p m ih =>
    obtain ⟨k, v⟩ := p
    by_cases hk : k < 24
    · simp only [List.filterMap_cons, hk, if_true, SMap.get]
      by_cases h : a = k + 8
      · subst h; simp [show k + 8 < 32 by omega, show 8 ≤ k + 8 by omega]
      · simp only [h, if_false]
        rw [ih]
        by_cases hr : 8 ≤ a ∧ a < 32
        · simp [hr, show ¬ a - 8 = k by omega]
        · simp [hr]
    · simp only [List.filterMap_cons, hk, if_false, SMap.get]
      rw [ih]
      by_cases hr : 8 ≤ a ∧ a < 32
      · simp [hr, show ¬ a - 8 = k by omega]
      · simp [hr]

/-- The latches after results: b0 takes them, the older ones move up (R39). -/
theorem Strand.latch_get (st : Strand) (l : List (Nat × W64)) (hl : ∀ p ∈ l, p.1 < 8) (hn : (l.map Prod.fst).Nodup) (t : Nat) (ht : t < 8) :
    (∀ x, (t, x) ∈ l → (st.latch l).latchGet 0 t = x) ∧ ((∀ p ∈ l, p.1 ≠ t) → (st.latch l).latchGet 0 t = 0) ∧
    ∀ k, k < 3 → (st.latch l).latchGet (k + 1) t = st.latchGet k t := by
  unfold Strand.latch Strand.latchGet
  refine ⟨fun x hx => ?_, fun h => ?_, fun k hk => ?_⟩
  · simp only [Nat.mul_zero, Nat.zero_add]
    exact SMap.get_sets_mem _ _ hn hx
  · simp only [Nat.mul_zero, Nat.zero_add]
    rw [SMap.get_sets_other _ _ _ h, SMap.get_filterMap_shift]
    simp [show ¬ 8 ≤ t by omega]
  · rw [SMap.get_sets_other _ _ _ (fun p hp => by have := hl p hp; omega), SMap.get_filterMap_shift]
    simp [show 8 * (k + 1) + t - 8 = 8 * k + t by omega, show 8 ≤ 8 * (k + 1) + t by omega, show 8 * (k + 1) + t < 32 by omega]

/-! ### One iteration -/

/-- The results of active threads, each a function of the thread. -/
def Me.results (m : Me) (res : Nat → Nat) : List (Nat × Nat) := (TMask.list m.em).map (fun t => (t, res t))

/-- In one iteration nothing advances. -/
theorem posOk_one (acc : Bool) (vr : Nat) (inc : Bool) (x : Sel) (ty : ETy) : posOk acc vr 1 inc x ty = posOk acc vr 1 false x ty := by
  cases x <;> simp [posOk]

/-- Nor does a selector in the first iteration. -/
theorem Sel.adv_zero (acc : Bool) (x : Sel) (ty : ETy) (inc : Bool) : Sel.adv acc x ty inc 0 = x := by
  cases x <;> simp [Sel.adv]

/-- Fewer registers wait for less. -/
theorem State.xBusy_sub {s : State} {i : StrandId} {l k : List Nat} (h : ∀ x ∈ l, x ∈ k) (hk : s.xBusy i k = false) : s.xBusy i l = false := by
  simp only [State.xBusy, List.any_eq_false] at *
  intro a ha hc
  refine hk a ha ?_
  simp only [Bool.and_eq_true] at hc ⊢
  refine ⟨hc.1, ?_⟩
  cases hx : a.kind.xd with
  | none => simp [hx] at hc
  | some x => simp only [hx, List.contains_iff_mem] at hc ⊢; exact h x hc.2

/-- An occupied lane changes nothing but a lane of its core. -/
theorem State.occupy_only (s : State) (m : Me) (n : Nat) (g : Strand → Strand) (hb : ∀ x, x ≠ m.sid → ((s.occupy m n).updStrand m.sid g).strands.find x = s.strands.find x) :
    Safety.onlyStrandAndLane m.sid s ((s.occupy m n).updStrand m.sid g) := by
  refine ⟨hb, ?_, ?_, rfl⟩
  · intro c
    by_cases hc : c = m.sid.wg.core
    · subst hc
      simp only [State.occupy, State.updLane]
      rw [show ∀ (x : State), (x.updStrand m.sid g).core m.sid.wg.core = x.core m.sid.wg.core from fun _ => rfl, State.core_updCore_same]
      cases m.sid.slice <;> rfl
    · simp only [State.occupy, State.updLane]
      rw [show ∀ (x : State), (x.updStrand m.sid g).core c = x.core c from fun _ => rfl, State.core_updCore_other _ _ hc]
  · intro c hc
    simp only [State.occupy, State.updLane]
    rw [show ∀ (x : State), (x.updStrand m.sid g).core c = x.core c from fun _ => rfl, State.core_updCore_other _ _ hc]

/-- A source of an operation that reads its sources at the effective type. -/
@[simp] theorem Sel.srcTy_self (x : Sel) (ty : ETy) : Sel.srcTy x ty ty = ty := by cases x <;> rfl

/-- An unrepeated vector instruction that names no queue and has no check or effect of its own: what it computes decides what it
leaves. -/
theorem Vec.exec_gave {v : Vec} {s : State} {m : Me} {f : Safety.Form} {ty rt cty : ETy} {res : Nat → Nat} {fl : BitVec 6} {rst : Bool}
    (hf : Safety.runs s m f ty rt cty) (hp : v.pfx = f.pfx) (hlen : v.len = f.len) (hexec : v.exec = true → m.access = false)
    (hok : v.ok (effET v.pfx m.st.mode) = true)
    (hsrc : ∀ x ∈ v.srcs (effET v.pfx m.st.mode), x.sel.isQueue = false ∧ posOk m.access m.wg.vregs 1 false x.sel x.ty = true ∧
      (x.sel ∈ f.d :: f.srcs))
    (hdst : v.dst (effET v.pfx m.st.mode) = .sel f.d f.n rt)
    (hpre : ∀ s' m' j, v.pre s' m' (effET v.pfx m.st.mode) j = none) (hpost : ∀ s' m' j o, v.post s' m' (effET v.pfx m.st.mode) j o = s')
    (hvals : (v.run (v.input s m m.st (effET v.pfx m.st.mode) 0 [])).vals = m.results res)
    (hflags : (v.run (v.input s m m.st (effET v.pfx m.st.mode) 0 [])).flags = fl)
    (hmasks : (v.run (v.input s m m.st (effET v.pfx m.st.mode) 0 [])).masks = [])
    (hsrs : rst = false → ∀ x, (SMap.sets m.st.srs (v.run (v.input s m m.st (effET v.pfx m.st.mode) 0 [])).srs).get x = m.st.srs.get x)
    (hres : ∀ t, t < 8 → TMask.has m.em t = true → res t < 2 ^ rt.bits) :
    Safety.gave s m f rt res fl rst (v.exec_ s m) := by
  obtain ⟨hme, hem, hrc, hrep, ⟨r, hd⟩, -, hdp, hbusy, ha⟩ := hf
  obtain ⟨-, h2, -, -, -, -⟩ := State.me_some hme
  generalize hty : effET v.pfx m.st.mode = e at *
  have hrep' : repTotal v.pfx = 1 := by rw [hp]; exact hrep
  have hy : v.yields e = false := by
    simp only [Vec.yields, hdst, Dst.queueNum, hd, Sel.queueNum, Option.isSome_none, Bool.or_false, List.any_eq_false]
    intro x hx; simpa using (hsrc x hx).1
  have hq := Vec.pops_nil hy
  have hpn := Vec.push_none hy
  have hqn : (Dst.sel f.d f.n rt).queueNum = none := by rw [← hdst]; exact hpn
  have hleg : v.legalFor m e (repTotal v.pfx) = true := by
    rw [hrep']
    simp only [Vec.legalFor, hok, hq, hqn, hdst, posOk_one m.access m.wg.vregs _ f.d rt, hdp, Me.declared, Bool.and_true, List.map_nil,
      Option.toList_none, List.append_nil, List.all_nil, Bool.and_eq_true, Bool.or_eq_true, Bool.not_eq_true', List.all_eq_true]
    refine ⟨?_, fun x hx => ?_⟩
    · cases hx : v.exec
      · exact .inl rfl
      · exact .inr (hexec hx)
    · rw [posOk_one]; exact (hsrc x hx).2.1
  have hx : s.xBusy m.sid (v.xUsed m e (repTotal v.pfx)) = false := by
    cases hacc : m.access
    · have : v.xUsed m e (repTotal v.pfx) = [] := by simp [Vec.xUsed, hacc]
      rw [this]
      exact State.xBusy_sub (k := []) (by simp) (by simp [State.xBusy]; intro a _ _ _; cases a.kind.xd <;> simp)
    · refine State.xBusy_sub (fun x hx => ?_) (hbusy hacc)
      rw [hrep'] at hx
      simp only [Vec.xUsed, hacc, Bool.not_true, Bool.false_eq_true, if_false, hdst, List.mem_append, List.mem_flatMap, List.mem_filterMap] at hx
      have up1 : upto 1 = [0] := rfl
      rcases hx with ⟨y, hy', j, hj, hx⟩ | ⟨j, hj, hx⟩
      · rw [up1, List.mem_singleton] at hj; subst hj
        rw [Sel.adv_zero] at hx
        have := (hsrc y hy').2.2
        exact List.mem_filterMap.mpr ⟨y.sel, this, hx⟩
      · rw [up1, List.mem_singleton] at hj; subst hj
        rw [Sel.adv_zero] at hx
        exact List.mem_filterMap.mpr ⟨f.d, List.mem_cons_self, hx⟩
  have hlen' : Safety.apart m (m.pc + BitVec.ofNat 64 v.len) := by rw [hlen]; exact ha
  have hex := Vec.exec_plain (v := v) (s := s) (m := m) hme hem hrc (by rw [hty]; exact hy) (by rw [hty]; exact hleg) (by rw [hty]; exact hx)
    (by rw [hty]; exact hpre) (by rw [hty]; exact hpost) hlen'
  rw [hty, hrep'] at hex
  have hafter : v.strandAfter s m e 1 = v.write m.access e 0 (v.run (v.input s m m.st e 0 [])) m.st := by
    simp only [Vec.strandAfter]
    rw [State.updStrand_self h2]
    rfl
  rw [hafter] at hex
  generalize hro : v.run (v.input s m m.st e 0 []) = o at *
  have hw : v.write m.access e 0 o m.st =
      ((if f.n = true then { m.st with flags := m.st.flags ||| fl, srs := SMap.sets m.st.srs o.srs }
        else ({ m.st with flags := m.st.flags ||| fl, srs := SMap.sets m.st.srs o.srs } : Strand).regSets m.access rt r.toNat (m.results res)).latch
          ((m.results res).map (fun p => (p.1, BitVec.ofNat 64 p.2)))) := by
    unfold Vec.write
    simp only [hdst, hd, hy, hflags, hmasks, hvals, Sel.adv_zero, SMap.sets, List.foldl_nil, Bool.false_eq_true, if_false]
  rw [hex, hw]
  have hl8 : ∀ p ∈ m.results res, p.1 < 8 := by
    intro p hp'
    simp only [Me.results, List.mem_map] at hp'
    obtain ⟨t, ht, rfl⟩ := hp'
    exact ((TMask.mem_list _ _).mp ht).1
  have hnd : ((m.results res).map Prod.fst).Nodup := by
    have : (m.results res).map Prod.fst = TMask.list m.em := by simp [Me.results, Function.comp_def]
    rw [this]; exact TMask.list_nodup _
  have hl8' : ∀ p ∈ (m.results res).map (fun p => (p.1, BitVec.ofNat 64 p.2)), p.1 < 8 := by
    intro p hp'
    obtain ⟨q, hq', rfl⟩ := List.mem_map.mp hp'
    exact hl8 q hq'
  have hnd' : (((m.results res).map (fun p => (p.1, BitVec.ofNat 64 p.2))).map Prod.fst).Nodup := by
    simpa [Function.comp_def] using hnd
  have hmem : ∀ t, t < 8 → TMask.has m.em t = true → (t, res t) ∈ m.results res := fun t ht hm =>
    List.mem_map.mpr ⟨t, (TMask.mem_list _ _).mpr ⟨ht, hm⟩, rfl⟩
  have hnot : ∀ t, TMask.has m.em t = false → ∀ p ∈ m.results res, p.1 ≠ t := by
    intro t hm p hp' e'
    obtain ⟨u, hu, rfl⟩ := List.mem_map.mp hp'
    simp only at e'
    have := ((TMask.mem_list _ _).mp hu).2
    rw [e', hm] at this; cases this
  let b : Strand := { m.st with flags := m.st.flags ||| fl, srs := SMap.sets m.st.srs o.srs }
  let st' : Strand := if f.n = true then b else b.regSets m.access rt r.toNat (m.results res)
  have hst' : st' = { b with v := st'.v, x := st'.x } := by
    show (if f.n = true then b else _) = _
    by_cases hn : f.n = true
    · have : st' = b := by simp [st', hn]
      rw [this]; simp [hn]
    · have : st' = b.regSets m.access rt r.toNat (m.results res) := by simp [st', hn]
      rw [this]
      simp only [hn]
      exact Strand.regSets_other _ _ _ _ _
  refine ⟨{ st'.latch ((m.results res).map (fun p => (p.1, BitVec.ofNat 64 p.2))) with frags := (Safety.moved m (m.pc + BitVec.ofNat 64 v.len)).frags },
    ⟨by simp [h2, st', b], ?_, fun _ _ => rfl, ?_⟩, fun r' hr' => ?_, fun t ht => ?_, ?_, ?_, ?_, fun hrst x => ?_⟩
  · exact State.occupy_only s m _ _ (fun x hx => by rw [State.find_updStrand_other _ _ hx]; rfl)
  · rw [hst', hlen]; rfl
  · have : r' = r := by rw [hd] at hr'; injection hr' with hr'; exact hr'.symm
    subst this
    refine ⟨fun t ht hm hn => ?_, fun q t ht hc => ?_, fun q t ht hc => ?_⟩
    · have := Strand.regSets_mem m.access rt r'.toNat (m.results res) b t (res t) hl8 hnd (hmem t ht hm) (hres t ht hm)
      have e' : st' = b.regSets m.access rt r'.toNat (m.results res) := by simp [st', hn]
      rw [← e'] at this
      exact this
    · show st'.vGet q t = m.st.vGet q t
      by_cases hn : f.n = true
      · have : st' = b := by simp [st', hn]
        rw [this]; rfl
      · have e' : st' = b.regSets m.access rt r'.toNat (m.results res) := by simp [st', hn]
        rw [e', Strand.regSets_vGet _ _ _ _ _ _ _ hl8 ht]
        · rfl
        · rcases hc with hc | hc | hc | hc
          · exact .inr (.inl (hnot t hc))
          · exact absurd hc hn
          · exact .inl hc
          · exact .inr (.inr hc)
    · show st'.xGet q t = m.st.xGet q t
      by_cases hn : f.n = true
      · have : st' = b := by simp [st', hn]
        rw [this]; rfl
      · have e' : st' = b.regSets m.access rt r'.toNat (m.results res) := by simp [st', hn]
        rw [e', Strand.regSets_xGet _ _ _ _ _ _ _ hl8 ht]
        · rfl
        · rcases hc with hc | hc | hc | hc
          · exact .inr (.inl (hnot t hc))
          · exact absurd hc hn
          · exact .inl hc
          · exact .inr (.inr hc)
  · have hlat := Strand.latch_get st' _ hl8' hnd' t ht
    have hold : ∀ k, st'.latchGet k t = m.st.latchGet k t := fun k => by rw [hst']; rfl
    refine ⟨?_, fun l hl => (hlat.2.2 l hl).trans (hold l)⟩
    cases hm : TMask.has m.em t
    · refine (hlat.2.1 ?_).trans (by simp)
      intro p hp'
      obtain ⟨q, hq', rfl⟩ := List.mem_map.mp hp'
      exact hnot t hm q hq'
    · exact (hlat.1 _ (List.mem_map.mpr ⟨(t, res t), hmem t ht hm, rfl⟩)).trans (by simp)
  · rw [hst']; rfl
  · rw [hst']; rfl
  · rw [hst']; rfl
  · rw [hst']; exact hsrs hrst x

end Sys2Proof.Machine
end

