-- ==== Sys2Proof/Laws/Elem.lean ====
section
/-!
SUPPORT. Laws/Elem.lean: computations by element: the elements, bounds and flags of what `elemOp` and `byElem` give.
-/
namespace Sys2Proof.Machine
open Sys2Proof

/-- Elements fill a thread's value. -/
theorem ETy.width_count (ty : ETy) : ty.width * ty.count = ty.bits := by cases ty <;> decide

/-- Elements have bits. -/
theorem ETy.width_pos (ty : ETy) : 0 < ty.width := by cases ty <;> decide

/-- A sum of fields stays below its width. -/
theorem fields_lt (w : Nat) (g : Nat → Nat) (n : Nat) :
    (upto n).foldl (fun a j => a + g j % 2 ^ w * 2 ^ (w * j)) 0 < 2 ^ (w * n) := by
  induction n with
  | zero => simp [upto]
  | succ n ih =>
    rw [upto, List.range_succ, List.foldl_append]
    simp only [List.foldl_cons, List.foldl_nil]
    have h1 : g n % 2 ^ w + 1 ≤ 2 ^ w := Nat.mod_lt _ (Nat.two_pow_pos w)
    have h2 : (g n % 2 ^ w + 1) * 2 ^ (w * n) ≤ 2 ^ w * 2 ^ (w * n) := Nat.mul_le_mul_right _ h1
    have h3 : 2 ^ (w * (n + 1)) = 2 ^ w * 2 ^ (w * n) := by rw [Nat.mul_add, Nat.mul_one, Nat.pow_add, Nat.mul_comm]
    rw [h3]
    rw [Nat.add_mul, Nat.one_mul] at h2
    have ih' : (List.range n).foldl (fun a j => a + g j % 2 ^ w * 2 ^ (w * j)) 0 < 2 ^ (w * n) := ih
    omega

/-- The fields of such a sum. -/
theorem fields_get (w : Nat) (g : Nat → Nat) (n j : Nat) (hj : j < n) :
    (upto n).foldl (fun a j => a + g j % 2 ^ w * 2 ^ (w * j)) 0 / 2 ^ (w * j) % 2 ^ w = g j % 2 ^ w := by
  induction n with
  | zero => omega
  | succ n ih =>
    rw [upto, List.range_succ, List.foldl_append]
    simp only [List.foldl_cons, List.foldl_nil]
    by_cases h : j = n
    · subst h
      have := fields_lt w g j
      rw [Nat.add_mul_div_right _ _ (Nat.two_pow_pos _)]
      rw [Nat.div_eq_of_lt this, Nat.zero_add, Nat.mod_mod]
    · have hlt : j < n := by omega
      have e : w * n = w * j + w * (n - j) := by rw [← Nat.mul_add]; congr 1; omega
      have e2 : w * (n - j) = w + w * (n - j - 1) := by
        obtain ⟨k, hk⟩ : ∃ k, n - j = k + 1 := ⟨n - j - 1, by omega⟩
        rw [hk, Nat.mul_add, Nat.mul_one, Nat.add_comm, Nat.add_sub_cancel]
      rw [e, Nat.pow_add, ← Nat.mul_assoc, Nat.mul_right_comm, Nat.add_mul_div_right _ _ (Nat.two_pow_pos _)]
      rw [e2, Nat.pow_add, Nat.mul_comm (2 ^ w), ← Nat.mul_assoc, Nat.add_mul_mod_self_right]
      exact ih hlt

/-- Without rounding an element operation is a sum of fields with joined flags, and SRS stays. -/
theorem elemOp_false (ty : ETy) (e : REnv) (f : REnv → Nat → FRes) :
    elemOp ty false e f = ⟨(upto ty.count).foldl (fun a j => a + (f e j).code % 2 ^ ty.width * 2 ^ (ty.width * j)) 0,
      (upto ty.count).foldl (fun a j => a ||| (f e j).flags) 0, e.srs⟩ := by
  unfold elemOp
  simp only [Bool.false_and, Bool.false_eq_true, if_false]
  have key : ∀ (l : List Nat) (a : Nat) (b : BitVec 6), l.foldl (fun (r : TRes) j =>
        (⟨r.val + (f { e with srs := r.srs } j).code % 2 ^ ty.width * 2 ^ (ty.width * j), r.flags ||| (f { e with srs := r.srs } j).flags, r.srs⟩ : TRes)) ⟨a, b, e.srs⟩ =
      ⟨l.foldl (fun a j => a + (f e j).code % 2 ^ ty.width * 2 ^ (ty.width * j)) a, l.foldl (fun b j => b ||| (f e j).flags) b, e.srs⟩ := by
    intro l
    induction l with
    | nil => intro a b; rfl
    | cons x l ih => intro a b; simp only [List.foldl_cons]; exact ih _ _
  exact key _ _ _

/-- The elements of an operation without rounding. -/
theorem elemOp_elem (ty : ETy) (e : REnv) (f : REnv → Nat → FRes) (j : Nat) (hj : j < ty.count) :
    ty.elem (elemOp ty false e f).val j = (f e j).code % 2 ^ ty.width := by
  rw [elemOp_false]; exact fields_get _ _ _ _ hj

/-- The value of an operation without rounding is a thread's value. -/
theorem elemOp_lt (ty : ETy) (e : REnv) (f : REnv → Nat → FRes) : (elemOp ty false e f).val < 2 ^ ty.bits := by
  rw [elemOp_false, ← ETy.width_count]; exact fields_lt _ _ _

/-- Joined flags that are each zero or one flag. -/
theorem foldl_or_flag (l : List α) (g : α → BitVec 6) (fl : BitVec 6) (p : α → Bool) (h : ∀ x ∈ l, g x = if p x then fl else 0) (a : BitVec 6) :
    l.foldl (fun b x => b ||| g x) a = a ||| (if l.any p then fl else 0) := by
  induction l generalizing a with
  | nil => simp
  | cons x l ih =>
    simp only [List.foldl_cons, List.any_cons]
    rw [ih (fun y hy => h y (List.mem_cons_of_mem _ hy)), h x List.mem_cons_self]
    by_cases hp : p x = true <;> by_cases hq : l.any p = true <;> simp [hp, hq, BitVec.or_assoc]

/-- Writing back what is there. -/
theorem SMap.get_sets_same (m : SMap w) (l : List Nat) (x : Nat) : (SMap.sets m (l.map (fun t => (t, m.get t)))).get x = m.get x := by
  suffices ∀ (l : List Nat) (n : SMap w), (∀ y, n.get y = m.get y) → (SMap.sets n (l.map (fun t => (t, m.get t)))).get x = m.get x from
    this l m (fun _ => rfl)
  intro l
  induction l with
  | nil => intro n hn; exact hn x
  | cons t l ih =>
    intro n hn
    refine ih (n.set t (m.get t)) (fun y => ?_)
    rw [SMap.get_set]
    split
    · rename_i h; rw [h]
    · exact hn y

/-- A computation by thread that leaves SRS writes back what is there. -/
theorem VIn.lanes_srs (i : VIn) (f : REnv → Nat → TRes) (h : ∀ e t, (f e t).srs = e.srs) (x : Nat) :
    (SMap.sets i.st.srs (i.lanes f).srs).get x = i.st.srs.get x := by
  unfold VIn.lanes
  simp only
  split
  · rw [List.map_map]
    have : ((fun (r : Nat × TRes) => (r.1, r.2.srs)) ∘ fun t => (t, f { i.env with srs := i.st.srs.get t } t)) = fun t => (t, i.st.srs.get t) := by
      funext t; simp [h]
    rw [this]; exact SMap.get_sets_same _ _ _
  · rfl

/-- The results of a computation by thread. -/
theorem VIn.lanes_vals (i : VIn) (f : REnv → Nat → TRes) :
    (i.lanes f).vals = (TMask.list i.em).map (fun t => (t, (f { i.env with srs := i.st.srs.get t } t).val)) := by
  simp [VIn.lanes, Function.comp_def]

/-- Its flags. -/
theorem VIn.lanes_flags (i : VIn) (f : REnv → Nat → TRes) :
    (i.lanes f).flags = (TMask.list i.em).foldl (fun a t => a ||| (f { i.env with srs := i.st.srs.get t } t).flags) 0 := by
  simp [VIn.lanes, List.foldl_map]

/-! ### Operations without D among their sources -/

/-- What an operation computes from in the one iteration of a form. -/
def Safety.inputOf (f : Safety.Form) (s : State) (m : Me) (sty : ETy) : VIn :=
  { env := ⟨effRM f.pfx m.st.mode, effSat f.pfx m.st.mode, modeDnf m.st.mode, 0⟩, ty := effET f.pfx m.st.mode, em := m.em,
    src := fun k t => Safety.val f m sty k t (effET f.pfx m.st.mode), st := m.st, s := s, m := m }

/-- An unrepeated operation that does not read D and names no queue: what it computes from the form's values decides what it leaves. -/
theorem VOp.exec_gave {op : VOp} {f : Safety.Form} {s : State} {m : Me} {lit : W32} {len : Nat} {l : List (Sel × IncPos)} {rt : ETy}
    {res : Nat → Nat} {fl : BitVec 6} {rst : Bool} (sty : ETy) (hf : Safety.runs s m f sty rt (effET f.pfx m.st.mode)) (hD : op.readD = false)
    (hs : op.sTy (effET f.pfx m.st.mode) = sty) (hrt : op.rTy (effET f.pfx m.st.mode) = rt)
    (hl : f.srcs = l.map Prod.fst) (hlit : f.lit = lit) (hlen : f.len = pfxLen f.pfx len)
    (hexec : op.exec = true → m.access = false) (hok : op.ok (effET f.pfx m.st.mode) = true)
    (hvals : (op.run (Safety.inputOf f s m sty)).vals = m.results res) (hflags : (op.run (Safety.inputOf f s m sty)).flags = fl)
    (hmasks : (op.run (Safety.inputOf f s m sty)).masks = [])
    (hsrs : rst = false → ∀ x, (SMap.sets m.st.srs (op.run (Safety.inputOf f s m sty)).srs).get x = m.st.srs.get x)
    (hres : ∀ t, t < 8 → TMask.has m.em t = true → res t < 2 ^ rt.bits) :
    ∃ t, runVec (op.vec f.pfx lit len f.n f.d l) s = .next t ∧ Safety.gave s m f rt res fl rst t := by
  let v : Vec := op.vec f.pfx lit len f.n f.d l
  have hsrcs : v.srcs (effET f.pfx m.st.mode) = l.map (fun x => ⟨x.1, x.2, Sel.srcTy x.1 (effET f.pfx m.st.mode) sty⟩) := by simp [v, VOp.vec, VOp.srcs, hD, hs]
  have hin : v.input s m m.st (effET f.pfx m.st.mode) 0 [] = Safety.inputOf f s m sty := by
    have hsource : v.source m m.st (effET f.pfx m.st.mode) 0 [] = fun k t => Safety.val f m sty k t (effET f.pfx m.st.mode) := by
      funext k t
      unfold Vec.source Safety.val
      rw [hsrcs, hl, List.getElem?_map, List.getElem?_map]
      cases hk : l[k]? with
      | none => rfl
      | some x =>
        have hx : x.1 ∈ f.srcs := by rw [hl]; exact List.mem_map.mpr ⟨x, List.mem_of_getElem? hk, rfl⟩
        have := (hf.2.2.2.2.2.1 x.1 hx).1
        simp only [Option.map_some]
        have hq : x.1.queueNum = none := by cases hx1 : x.1 <;> simp [Sel.queueNum, Sel.isQueue, hx1] at this ⊢
        rw [hq, Sel.adv_zero]
        simp [v, VOp.vec, hlit]
    simp only [Vec.input, hsource]
    rfl
  have hrun : v.run (v.input s m m.st (effET f.pfx m.st.mode) 0 []) = op.run (Safety.inputOf f s m sty) := by rw [hin]; rfl
  refine ⟨v.exec_ s m, asStrand_of hf.1 _, Vec.exec_gave (v := v) hf rfl hlen.symm hexec hok ?_ ?_ (fun _ _ _ => rfl) (fun _ _ _ _ => rfl) ?_ ?_ ?_ ?_ hres⟩
  · intro x hx
    have hx' : x ∈ l.map (fun x => (⟨x.1, x.2, Sel.srcTy x.1 (effET f.pfx m.st.mode) sty⟩ : Src)) := hsrcs ▸ hx
    obtain ⟨y, hy, rfl⟩ := List.mem_map.mp hx'
    have hm : y.1 ∈ f.srcs := by rw [hl]; exact List.mem_map.mpr ⟨y, hy, rfl⟩
    exact ⟨(hf.2.2.2.2.2.1 _ hm).1, (hf.2.2.2.2.2.1 _ hm).2, List.mem_cons_of_mem _ hm⟩
  · show Dst.sel f.d f.n (op.rTy (effET f.pfx m.st.mode)) = _
    rw [hrt]
  · show (v.run (v.input s m m.st (effET f.pfx m.st.mode) 0 [])).vals = _
    rw [hrun]; exact hvals
  · show (v.run (v.input s m m.st (effET f.pfx m.st.mode) 0 [])).flags = _
    rw [hrun]; exact hflags
  · show (v.run (v.input s m m.st (effET f.pfx m.st.mode) 0 [])).masks = _
    rw [hrun]; exact hmasks
  · show rst = false → ∀ x, (SMap.sets m.st.srs (v.run (v.input s m m.st (effET f.pfx m.st.mode) 0 [])).srs).get x = _
    rw [hrun]; exact hsrs

end Sys2Proof.Machine
end

