-- ==== Sys2Proof/Laws/Mem.lean ====
section
/-!
SUPPORT. Laws/Mem.lean: the named memory operations: what a byte reads as after a write (R96, R98), and that each operation keeps the canonical form
of both memories (log 1).
-/
namespace Sys2Proof.Machine
open Sys2Proof

/-- Reset memory is canonical. -/
theorem State.reset_memoriesOk : Safety.memoriesOk State.reset = true := rfl

/-- Both memories, taken apart. -/
theorem memoriesOk_iff (s : State) : Safety.memoriesOk s = true ↔ SMap.wf s.mem = true ∧ SMap.wf s.tier = true := by
  unfold Safety.memoriesOk Memory.wf
  rw [Bool.and_eq_true]

/-- Only the two memories matter. -/
theorem memoriesOk_of_eq {s t : State} (hm : t.mem = s.mem) (ht : t.tier = s.tier) (h : Safety.memoriesOk s = true) : Safety.memoriesOk t = true := by
  rw [memoriesOk_iff] at h ⊢
  rw [hm, ht]
  exact h

/-! ### Bytes and ranges -/

/-- A change of a line at L2 changes nothing else. -/
theorem State.l2Put_eq (s : State) (dev : Option Nat) (line : Nat) (g : L2Line → L2Line) : ∃ l, s.l2Put dev line g = { s with l2 := l } := by
  unfold State.l2Put
  split
  · exact ⟨_, rfl⟩
  · exact ⟨_, rfl⟩

/-- A write's effect on L2's lines changes nothing else. -/
theorem State.l2Wrote_eq (s : State) (pa : Nat) : ∃ l, s.l2Wrote pa = { s with l2 := l } := by
  unfold State.l2Wrote
  split
  · exact ⟨s.l2, rfl⟩
  · exact s.l2Put_eq _ _ _

/-- Filling sectors of a line at L2 changes nothing else. -/
theorem State.l2Fill_eq (s : State) (dev : Option Nat) (line : Nat) (v : BitVec 4) : ∃ l, s.l2Fill dev line v = { s with l2 := l } := s.l2Put_eq _ _ _

/-- What a write leaves in both memories and the tier cache; L2's lines apart. -/
theorem State.setPhys_eq (s : State) (pa : Nat) (b : Byte) : ∃ l, s.setPhys pa b =
    { (if s.isTier pa then
        if s.tierHeld pa then
          { s with mem := s.mem.set pa b, tierCache := s.tierCache.map (fun k => if k.1 = tierPort pa && k.2.1 = tierBlock pa then (k.1, k.2.1, true) else k) }
        else { s with tier := s.tier.set pa b }
      else { s with mem := s.mem.set pa b }) with l2 := l } := by
  obtain ⟨l, hl⟩ := s.l2Wrote_eq pa
  refine ⟨l, ?_⟩
  unfold State.setPhys
  rw [hl]
  show (if s.isTier pa then if s.tierHeld pa then _ else _ else _) = _
  split
  · split <;> rfl
  · rfl

/-- Where the second tier lies does not depend on what memory holds. -/
@[simp] theorem State.setPhys_isTier (s : State) (pa a : Nat) (b : Byte) : (s.setPhys pa b).isTier a = s.isTier a := by
  obtain ⟨l, hl⟩ := s.setPhys_eq pa b
  rw [hl]
  unfold State.isTier
  split
  · split <;> rfl
  · rfl

/-- A write makes a block dirty and leaves it where it is. -/
@[simp] theorem State.setPhys_tierHeld (s : State) (pa a : Nat) (b : Byte) : (s.setPhys pa b).tierHeld a = s.tierHeld a := by
  obtain ⟨l, hl⟩ := s.setPhys_eq pa b
  rw [hl]
  split
  · split
    · unfold State.tierHeld
      simp only [List.any_map]
      congr 1
      funext k
      simp only [Function.comp]
      split <;> rfl
    · rfl
  · rfl

/-- A byte after a byte has been written. -/
theorem State.physByte_setPhys (s : State) (pa a : Nat) (b : Byte) : (s.setPhys pa b).physByte a = if a = pa then b else s.physByte a := by
  unfold State.physByte
  rw [State.setPhys_isTier, State.setPhys_tierHeld]
  obtain ⟨l, hl⟩ := s.setPhys_eq pa b
  rw [hl]
  by_cases hp : s.isTier pa = true
  · rw [if_pos hp]
    by_cases hh : s.tierHeld pa = true
    · rw [if_pos hh]
      simp only [SMap.get_set]
      by_cases ha : a = pa
      · subst ha; simp [hp, hh]
      · simp [ha]
    · rw [if_neg hh]
      simp only [SMap.get_set]
      by_cases ha : a = pa
      · subst ha; simp [hp, hh]
      · simp [ha]
  · rw [if_neg hp]
    simp only [SMap.get_set]
    by_cases ha : a = pa
    · subst ha; simp [hp]
    · simp [ha]

/-- A byte outside a range that has been written. -/
theorem State.physByte_setPhysBytes_other (bs : List Byte) : ∀ (s : State) (pa a : Nat), (a < pa ∨ pa + bs.length ≤ a) → (s.setPhysBytes pa bs).physByte a = s.physByte a := by
  induction bs with
  | nil => intro s pa a _; rfl
  | cons b bs ih =>
    intro s pa a h
    rw [List.length_cons] at h
    show ((s.setPhys pa b).setPhysBytes (pa + 1) bs).physByte a = _
    rw [ih _ _ _ (by omega), State.physByte_setPhys, if_neg (by omega)]

/-- A byte of a range that has been written. -/
theorem State.physByte_setPhysBytes_mem (bs : List Byte) : ∀ (s : State) (pa i : Nat), i < bs.length → (s.setPhysBytes pa bs).physByte (pa + i) = bs.getD i 0 := by
  induction bs with
  | nil => intro s pa i h; exact absurd h (Nat.not_lt_zero i)
  | cons b bs ih =>
    intro s pa i h
    show ((s.setPhys pa b).setPhysBytes (pa + 1) bs).physByte (pa + i) = _
    cases i with
    | zero => rw [State.physByte_setPhysBytes_other _ _ _ _ (by omega), State.physByte_setPhys]; simp
    | succ i =>
      rw [List.length_cons] at h
      rw [show pa + (i + 1) = pa + 1 + i by omega, ih _ _ _ (by omega)]
      rfl

/-- A range that has been written, byte by byte. -/
theorem State.physByte_setPhysBytes (s : State) (pa a : Nat) (bs : List Byte) :
    (s.setPhysBytes pa bs).physByte a = if pa ≤ a ∧ a < pa + bs.length then bs.getD (a - pa) 0 else s.physByte a := by
  split
  · rename_i h
    have := State.physByte_setPhysBytes_mem bs s pa (a - pa) (by omega)
    rwa [show pa + (a - pa) = a by omega] at this
  · exact State.physByte_setPhysBytes_other _ _ _ _ (by omega)

/-! ### The canonical form -/

/-- Writing a byte. -/
theorem memoriesOk_setPhys {s : State} (pa : Nat) (b : Byte) (h : Safety.memoriesOk s = true) : Safety.memoriesOk (s.setPhys pa b) = true := by
  rw [memoriesOk_iff] at h ⊢
  obtain ⟨l, hl⟩ := s.setPhys_eq pa b
  rw [hl]
  split
  · split
    · exact ⟨SMap.wf_set _ _ h.1, h.2⟩
    · exact ⟨h.1, SMap.wf_set _ _ h.2⟩
  · exact ⟨SMap.wf_set _ _ h.1, h.2⟩

/-- Writing a range. -/
theorem memoriesOk_setPhysBytes (bs : List Byte) : ∀ {s : State} (pa : Nat), Safety.memoriesOk s = true → Safety.memoriesOk (s.setPhysBytes pa bs) = true := by
  induction bs with
  | nil => intro s pa h; exact h
  | cons b bs ih => intro s pa h; exact ih (pa + 1) (memoriesOk_setPhys pa b h)

/-- Assigning granules. -/
theorem memoriesOk_assign {s : State} (mark : W64) (pa count : Nat) (h : Safety.memoriesOk s = true) : Safety.memoriesOk (s.assign mark pa count) = true := by
  rw [memoriesOk_iff] at h ⊢
  exact ⟨SMap.wf_keep (fun a => decide (a < pa) || decide (pa + count * 2 ^ 16 ≤ a)) h.1, SMap.wf_keep (fun a => decide (a < pa) || decide (pa + count * 2 ^ 16 ≤ a)) h.2⟩

/-- Evicting a block of the tier cache. -/
theorem memoriesOk_evictBlock {s : State} (port block : Nat) (dirty : Bool) (h : Safety.memoriesOk s = true) : Safety.memoriesOk (s.evictBlock port block dirty) = true := by
  rw [memoriesOk_iff] at h ⊢
  refine ⟨SMap.wf_keep (fun a => !inBlock port block a) h.1, ?_⟩
  cases dirty
  · exact h.2
  · exact SMap.wf_sets (s.mem.filter (fun p => inBlock port block p.1)) (SMap.wf_keep (fun a => !inBlock port block a) h.2)

/-- Making room in the tier cache. -/
theorem memoriesOk_tierRoom {s t : State} (ht : s.tierRoom = some t) (h : Safety.memoriesOk s = true) : Safety.memoriesOk t = true := by
  unfold State.tierRoom at ht
  split at ht
  · cases ht; exact h
  · obtain ⟨b, -, rfl⟩ := Option.map_eq_some_iff.mp ht
    exact memoriesOk_evictBlock _ _ _ h

/-- Fetching a block. -/
theorem memoriesOk_fillBlock {s : State} (port block : Nat) (h : Safety.memoriesOk s = true) : Safety.memoriesOk (s.fillBlock port block) = true := by
  unfold State.fillBlock
  split
  · exact h
  · split
    · exact h
    · rename_i t ht
      have h2 := (memoriesOk_iff t).mp (memoriesOk_tierRoom ht h)
      exact (memoriesOk_iff _).mpr ⟨SMap.wf_sets _ h2.1, h2.2⟩

/-- Fetching the block of an address. -/
theorem memoriesOk_fetchTier {s : State} (pa : Nat) (h : Safety.memoriesOk s = true) : Safety.memoriesOk (s.fetchTier pa) = true := by
  unfold State.fetchTier
  split
  · exact h
  · exact memoriesOk_fillBlock _ _ h

/-- Every update of a core keeps both memories. -/
theorem memoriesOk_updCores (l : List Nat) (g : Core → Core) : ∀ {s : State}, Safety.memoriesOk s = true → Safety.memoriesOk (l.foldl (fun s k => s.updCore k g) s) = true := by
  induction l with
  | nil => intro s h; exact h
  | cons k l ih => intro s h; exact ih (memoriesOk_of_eq rfl rfl h)

/-! ### Log entries (R332) -/

/-- Memory that reads as before, whatever has been logged. -/
theorem sameBytes_of_eq {s t : State} (h : ∀ a, t.physByte a = s.physByte a) : Safety.sameBytes s t := fun a _ => h a

/-- A fault record takes 32 bytes. -/
@[simp] theorem FaultRec.length_bytes (r : FaultRec) : r.bytes.length = 32 := rfl

/-- An error-log entry takes 32 bytes. -/
@[simp] theorem ErrEntry.length_bytes (e : ErrEntry) : e.bytes.length = 32 := rfl

/-- A push numbers the entry, and the next one is higher. -/
@[simp] theorem RingLog.push_next {α : Type} (r : RingLog α) (cap : Nat) (x : α) : (r.push cap x).next = r.next + 1 := by
  unfold RingLog.push
  simp only
  split <;> rfl

/-- The entry written last is the newest one. -/
theorem RingLog.push_last {α : Type} (r : RingLog α) (cap : Nat) (x : α) (h : 0 < cap) : (r.push cap x).entries.getLast? = some (r.next % 2 ^ 32, x) := by
  unfold RingLog.push
  simp only
  split
  · rename_i hc
    rcases hr : r.entries with _ | ⟨e, l⟩
    · rw [hr] at hc; simp only [List.nil_append, List.length_cons, List.length_nil] at hc; omega
    · simp
  · simp

/-- An entry's bytes change no other byte. -/
theorem State.physByte_writeEntry (s : State) (base seq a : Nat) {bs : List Byte} (hb : bs.length = 32) (h : ¬ Safety.inEntry base seq a) :
    (s.writeEntry base seq bs).physByte a = s.physByte a := by
  have hm : (s.mem.setBytes (base + 32 * (seq % 4096)) bs).get a = s.mem.get a :=
    SMap.get_setBytes_other _ _ _ _ (by unfold Safety.inEntry at h; omega)
  unfold State.physByte State.writeEntry
  simp only [hm]
  rfl

/-- An entry's bytes keep the canonical form. -/
theorem memoriesOk_writeEntry {s : State} (base seq : Nat) (bs : List Byte) (h : Safety.memoriesOk s = true) : Safety.memoriesOk (s.writeEntry base seq bs) = true := by
  rw [memoriesOk_iff] at h ⊢
  exact ⟨SMap.wf_setBytes _ _ h.1, h.2⟩

/-- Writing a fault record changes its own bytes only. -/
theorem sameBytes_logFault (s : State) (ctx : Nat) (r : FaultRec) : Safety.sameBytes s (s.logFault ctx r) := by
  unfold State.logFault
  cases hc : s.ctxs.find ctx with
  | none => exact fun a _ => rfl
  | some c =>
    intro a ha
    rw [State.physByte_writeEntry _ _ _ _ r.length_bytes]
    · rfl
    · refine fun hi => ha ⟨ctx, c, c.faults.next, hc, .inl ⟨Nat.le_refl _, fun d hd => ?_, hi⟩⟩
      simp only [State.writeEntry, State.updCtx, AList.find_adjust_same, hc, Option.map_some, Option.some.injEq] at hd
      simp [← hd]

/-- Writing an error-log entry changes its own bytes only. -/
theorem sameBytes_logError (s : State) (ctx : Nat) (e : ErrEntry) : Safety.sameBytes s (s.logError ctx e) := by
  unfold State.logError
  cases hc : s.ctxs.find ctx with
  | none => exact fun a _ => rfl
  | some c =>
    intro a ha
    rw [State.physByte_writeEntry _ _ _ _ e.length_bytes]
    · rfl
    · refine fun hi => ha ⟨ctx, c, c.errors.next, hc, .inr ⟨Nat.le_refl _, fun d hd => ?_, hi⟩⟩
      simp only [State.writeEntry, State.updCtx, AList.find_adjust_same, hc, Option.map_some, Option.some.injEq] at hd
      simp [← hd]

/-- Writing a fault record keeps the canonical form. -/
theorem memoriesOk_logFault {s : State} (ctx : Nat) (r : FaultRec) (h : Safety.memoriesOk s = true) : Safety.memoriesOk (s.logFault ctx r) = true := by
  unfold State.logFault
  split
  · exact h
  · exact memoriesOk_writeEntry _ _ _ (memoriesOk_of_eq rfl rfl h)

/-- Writing an error-log entry keeps the canonical form. -/
theorem memoriesOk_logError {s : State} (ctx : Nat) (e : ErrEntry) (h : Safety.memoriesOk s = true) : Safety.memoriesOk (s.logError ctx e) = true := by
  unfold State.logError
  split
  · exact h
  · exact memoriesOk_writeEntry _ _ _ (memoriesOk_of_eq rfl rfl h)

/-- From one state to the other each context that is still there has kept its save area and its logs' entries, and none has come or come back. -/
def logsGrow (s t : State) : Prop :=
  ∀ x, match s.ctxs.find x, t.ctxs.find x with
    | some c, some d => d.saveBase = c.saveBase ∧ c.faults.next ≤ d.faults.next ∧ c.errors.next ≤ d.errors.next
    | none, some _ => False
    | _, none => True

/-- Writing a fault record makes a log grow. -/
theorem logsGrow_logFault (s : State) (ctx : Nat) (r : FaultRec) : logsGrow s (s.logFault ctx r) := by
  intro x
  unfold State.logFault
  cases hc : s.ctxs.find ctx with
  | none => cases hx : s.ctxs.find x <;> simp
  | some c =>
    by_cases hxc : x = ctx
    · subst hxc
      simp only [State.writeEntry, State.updCtx, AList.find_adjust_same, hc, Option.map_some]
      exact ⟨rfl, by simp, Nat.le_refl _⟩
    · simp only [State.writeEntry, State.updCtx, AList.find_adjust_other _ _ hxc]
      cases hx : s.ctxs.find x <;> simp

/-- Writing an error-log entry makes a log grow. -/
theorem logsGrow_logError (s : State) (ctx : Nat) (e : ErrEntry) : logsGrow s (s.logError ctx e) := by
  intro x
  unfold State.logError
  cases hc : s.ctxs.find ctx with
  | none => cases hx : s.ctxs.find x <;> simp
  | some c =>
    by_cases hxc : x = ctx
    · subst hxc
      simp only [State.writeEntry, State.updCtx, AList.find_adjust_same, hc, Option.map_some]
      exact ⟨rfl, Nat.le_refl _, by simp⟩
    · simp only [State.writeEntry, State.updCtx, AList.find_adjust_other _ _ hxc]
      cases hx : s.ctxs.find x <;> simp

/-- Two steps that leave memory but for log entries, where no context goes in the first. -/
theorem sameBytes_trans {s t u : State} (hst : logsGrow s t) (htu : logsGrow t u) (hk : ∀ x, (s.ctxs.find x).isSome = true → (t.ctxs.find x).isSome = true)
    (h1 : Safety.sameBytes s t) (h2 : Safety.sameBytes t u) : Safety.sameBytes s u := by
  intro a ha
  rw [h2 a ?_, h1 a ?_]
  · rintro ⟨x, c, n, hc, h⟩
    have g := htu x
    have gs := hst x
    have gk := hk x (by simp [hc])
    cases ht : t.ctxs.find x with
    | none => simp [ht] at gk
    | some d =>
      rw [ht] at g gs
      rw [hc] at gs
      refine ha ⟨x, c, n, hc, ?_⟩
      rcases h with ⟨hn, hd, hi⟩ | ⟨hn, hd, hi⟩
      · refine .inl ⟨hn, fun e he => ?_, hi⟩
        rw [he] at g
        exact Nat.lt_of_lt_of_le (hd d ht) g.2.1
      · refine .inr ⟨hn, fun e he => ?_, hi⟩
        rw [he] at g
        exact Nat.lt_of_lt_of_le (hd d ht) g.2.2
  · rintro ⟨x, d, n, hd, h⟩
    have gs := hst x
    rw [hd] at gs
    cases hc : s.ctxs.find x with
    | none => rw [hc] at gs; exact gs
    | some c =>
      rw [hc] at gs
      obtain ⟨hb, hf, he⟩ := gs
      refine ha ⟨x, c, n, hc, ?_⟩
      rcases h with ⟨hn, hu, hi⟩ | ⟨hn, hu, hi⟩
      · exact .inl ⟨Nat.le_trans hf hn, hu, hb ▸ hi⟩
      · exact .inr ⟨Nat.le_trans he hn, hu, hb ▸ hi⟩

end Sys2Proof.Machine
end

