-- ==== Sys2Proof/Tests/Slice0.lean ====
section
/-! SUPPORT. Tests/Slice0.lean: words of every family decoded from the encoding tables, ill-formed terms refused, a concrete state and operands
that meet the hypotheses of every statement, and single steps of the instructions on small states. Expected values are worked out from the
rules of the spec. -/
open Sys2Proof Sys2Proof.Machine

set_option Elab.async false

/-! ### Decoding: a word of every constructor, its fields written from the tables of spec/09, 10, 11 and 13 -/

/-- The words decode to the instruction, and nothing is left. -/
def decodesTo (ws : List W32) (i : Instr) : Bool :=
  match decode false (ws.flatMap wordBytes) with
  | .ok (j, r) => decide (j = i) && r.isEmpty
  | .error _ => false

/-- Every pair of words and instruction decodes so. -/
def decodesAll (l : List (List W32 × Instr)) : Bool := l.all (fun p => decodesTo p.1 p.2)

/-- Words of the spec's tables: integer. -/
theorem test_decode_integer_1 : decodesAll [
  ([0b00_00000001_0_0000101_0001001_1000010#32], .vadd none ⟨false, .reg 5, .reg 9, .s 2⟩),
  ([0b11_0_00000001_0000101_0001001_1111100#32, 0b00010010001101000101011001111000#32], .vaddX1 none ⟨.reg 5, .reg 9, .lit, 0x12345678⟩),
  ([0b00_00000010_0_0000101_0001001_1000010#32], .vsub none ⟨false, .reg 5, .reg 9, .s 2⟩),
  ([0b11_0_00000010_0000101_0001001_1111100#32, 0b00010010001101000101011001111000#32], .vsubX1 none ⟨.reg 5, .reg 9, .lit, 0x12345678⟩),
  ([0b00_00000011_0_0000101_0001001_1000010#32], .vmul none ⟨false, .reg 5, .reg 9, .s 2⟩),
  ([0b11_0_00000011_0000101_0001001_1111100#32, 0b00010010001101000101011001111000#32], .vmulX1 none ⟨.reg 5, .reg 9, .lit, 0x12345678⟩),
  ([0b00_00000100_0_0000101_0001001_1000010#32], .vmulh none ⟨false, .reg 5, .reg 9, .s 2⟩),
  ([0b11_0_00000100_0000101_0001001_1111100#32, 0b00010010001101000101011001111000#32], .vmulhX1 none ⟨.reg 5, .reg 9, .lit, 0x12345678⟩),
  ([0b11_0_00000101_0000101_0001001_1000010#32, 0b1110110_0000_000000000000000000000#32], .vmad none ⟨.reg 5, .reg 9, .s 2, .const 2⟩),
  ([0b00_00000110_1_0000110_1100011_0000000#32], .vneg none ⟨true, .reg 6, .latch 3⟩),
  ([0b11_0_00000110_0000110_1111100_0000000#32, 0b00010010001101000101011001111000#32], .vnegX1 none ⟨.reg 6, .lit, 0x12345678⟩),
  ([0b00_00000111_1_0000110_1100011_0000000#32], .vabs none ⟨true, .reg 6, .latch 3⟩)] = true := by decide

/-- Words of the spec's tables: integer. -/
theorem test_decode_integer_2 : decodesAll [
  ([0b11_0_00000111_0000110_1111100_0000000#32, 0b00010010001101000101011001111000#32], .vabsX1 none ⟨.reg 6, .lit, 0x12345678⟩),
  ([0b00_00001000_0_0000101_0001001_1000010#32], .vmin none ⟨false, .reg 5, .reg 9, .s 2⟩),
  ([0b11_0_00001000_0000101_0001001_1111100#32, 0b00010010001101000101011001111000#32], .vminX1 none ⟨.reg 5, .reg 9, .lit, 0x12345678⟩),
  ([0b00_00001001_0_0000101_0001001_1000010#32], .vmax none ⟨false, .reg 5, .reg 9, .s 2⟩),
  ([0b11_0_00001001_0000101_0001001_1111100#32, 0b00010010001101000101011001111000#32], .vmaxX1 none ⟨.reg 5, .reg 9, .lit, 0x12345678⟩),
  ([0b00_00001010_0_0000101_0001001_1000010#32], .vavg none ⟨false, .reg 5, .reg 9, .s 2⟩),
  ([0b11_0_00001010_0000101_0001001_1111100#32, 0b00010010001101000101011001111000#32], .vavgX1 none ⟨.reg 5, .reg 9, .lit, 0x12345678⟩),
  ([0b00_00001011_0_0000101_0001001_1000010#32], .vsad none ⟨false, .reg 5, .reg 9, .s 2⟩),
  ([0b11_0_00001011_0000101_0001001_1111100#32, 0b00010010001101000101011001111000#32], .vsadX1 none ⟨.reg 5, .reg 9, .lit, 0x12345678⟩),
  ([0b00_00001100_0_0000101_0001001_1000010#32], .vaddc none ⟨false, .reg 5, .reg 9, .s 2⟩),
  ([0b11_0_00001100_0000101_0001001_1111100#32, 0b00010010001101000101011001111000#32], .vaddcX1 none ⟨.reg 5, .reg 9, .lit, 0x12345678⟩)] = true := by decide

/-- Words of the spec's tables: logic. -/
theorem test_decode_logic_1 : decodesAll [
  ([0b00_00001101_0_0000101_0001001_1000010#32], .vand none ⟨false, .reg 5, .reg 9, .s 2⟩),
  ([0b11_0_00001101_0000101_0001001_1111100#32, 0b00010010001101000101011001111000#32], .vandX1 none ⟨.reg 5, .reg 9, .lit, 0x12345678⟩),
  ([0b00_00001110_0_0000101_0001001_1000010#32], .vor none ⟨false, .reg 5, .reg 9, .s 2⟩),
  ([0b11_0_00001110_0000101_0001001_1111100#32, 0b00010010001101000101011001111000#32], .vorX1 none ⟨.reg 5, .reg 9, .lit, 0x12345678⟩),
  ([0b00_00001111_0_0000101_0001001_1000010#32], .vxor none ⟨false, .reg 5, .reg 9, .s 2⟩),
  ([0b11_0_00001111_0000101_0001001_1111100#32, 0b00010010001101000101011001111000#32], .vxorX1 none ⟨.reg 5, .reg 9, .lit, 0x12345678⟩),
  ([0b00_00010000_1_0000110_1100011_0000000#32], .vnot none ⟨true, .reg 6, .latch 3⟩),
  ([0b11_0_00010000_0000110_1111100_0000000#32, 0b00010010001101000101011001111000#32], .vnotX1 none ⟨.reg 6, .lit, 0x12345678⟩),
  ([0b00_00010001_0_0000101_0001001_1000010#32], .vshl none ⟨false, .reg 5, .reg 9, .s 2⟩),
  ([0b11_0_00010001_0000101_0001001_1111100#32, 0b00010010001101000101011001111000#32], .vshlX1 none ⟨.reg 5, .reg 9, .lit, 0x12345678⟩),
  ([0b00_00010010_0_0000101_0001001_1000010#32], .vshr none ⟨false, .reg 5, .reg 9, .s 2⟩),
  ([0b11_0_00010010_0000101_0001001_1111100#32, 0b00010010001101000101011001111000#32], .vshrX1 none ⟨.reg 5, .reg 9, .lit, 0x12345678⟩)] = true := by decide

/-- Words of the spec's tables: logic. -/
theorem test_decode_logic_2 : decodesAll [
  ([0b00_00010011_0_0000101_0001001_1000010#32], .vsra none ⟨false, .reg 5, .reg 9, .s 2⟩),
  ([0b11_0_00010011_0000101_0001001_1111100#32, 0b00010010001101000101011001111000#32], .vsraX1 none ⟨.reg 5, .reg 9, .lit, 0x12345678⟩),
  ([0b00_00010100_0_0000101_0001001_1000010#32], .vrot none ⟨false, .reg 5, .reg 9, .s 2⟩),
  ([0b11_0_00010100_0000101_0001001_1111100#32, 0b00010010001101000101011001111000#32], .vrotX1 none ⟨.reg 5, .reg 9, .lit, 0x12345678⟩),
  ([0b00_00010101_1_0000110_1100011_0000000#32], .vpopc none ⟨true, .reg 6, .latch 3⟩),
  ([0b00_00010110_1_0000110_1100011_0000000#32], .vclz none ⟨true, .reg 6, .latch 3⟩),
  ([0b00_00010111_1_0000110_1100011_0000000#32], .vbrev none ⟨true, .reg 6, .latch 3⟩),
  ([0b11_0_00011000_0000101_0001001_0000000#32, 0b0000000_0001_000000000001000000011#32], .vbfx none (.reg 5) (.reg 9) true 3 8),
  ([0b11_0_00011001_0000101_0001001_1000010#32, 0b0000000_0000_000000000001000000011#32], .vbfi none (.reg 5) (.reg 9) (.s 2) 3 8),
  ([0b11_0_00011010_0000101_0001001_1000010#32, 0b0000000_0110_000000000000000000000#32], .vsel none (.reg 5) (.reg 9) (.s 2) 6),
  ([0b00_00011011_1_0000110_1100011_0000000#32], .vmov none ⟨true, .reg 6, .latch 3⟩),
  ([0b11_0_00011011_0000110_1111100_0000000#32, 0b00010010001101000101011001111000#32], .vmovX1 none ⟨.reg 6, .lit, 0x12345678⟩)] = true := by decide

/-- Words of the spec's tables: logic. -/
theorem test_decode_logic_3 : decodesAll [
  ([0b00_00011100_0_0000101_0001001_1000010#32], .vdiv none ⟨false, .reg 5, .reg 9, .s 2⟩),
  ([0b11_0_00011100_0000101_0001001_1111100#32, 0b00010010001101000101011001111000#32], .vdivX1 none ⟨.reg 5, .reg 9, .lit, 0x12345678⟩),
  ([0b00_00011101_0_0000101_0001001_1000010#32], .vrem none ⟨false, .reg 5, .reg 9, .s 2⟩),
  ([0b11_0_00011101_0000101_0001001_1111100#32, 0b00010010001101000101011001111000#32], .vremX1 none ⟨.reg 5, .reg 9, .lit, 0x12345678⟩),
  ([0b00_00011110_0_1000011_0001001_1000010#32], .vcmp none .gt 3 (.reg 9) (.s 2)),
  ([0b11_0_00011110_1000011_0001001_1111100#32, 0b00010010001101000101011001111000#32], .vcmpX1 none .gt 3 (.reg 9) .lit 0x12345678),
  ([0b11_0_00011111_0000101_0001001_1000010#32, 0b1110110_0000_000000000000000000000#32], .vclamp none ⟨.reg 5, .reg 9, .s 2, .const 2⟩)] = true := by decide

/-- Words of the spec's tables: threads masks. -/
theorem test_decode_threads_masks_1 : decodesAll [
  ([0b00_00100000_0_0000101_0001001_1000010#32], .vshuf none ⟨false, .reg 5, .reg 9, .s 2⟩),
  ([0b11_0_00100000_0000101_0001001_1111100#32, 0b00010010001101000101011001111000#32], .vshufX1 none ⟨.reg 5, .reg 9, .lit, 0x12345678⟩),
  ([0b00_00100001_0_0000101_0001001_1000010#32], .vbcast none ⟨false, .reg 5, .reg 9, .s 2⟩),
  ([0b11_0_00100001_0000101_0001001_1111100#32, 0b00010010001101000101011001111000#32], .vbcastX1 none ⟨.reg 5, .reg 9, .lit, 0x12345678⟩),
  ([0b00_00100010_0_0000101_0001001_1000010#32], .vrott none ⟨false, .reg 5, .reg 9, .s 2⟩),
  ([0b11_0_00100010_0000101_0001001_1111100#32, 0b00010010001101000101011001111000#32], .vrottX1 none ⟨.reg 5, .reg 9, .lit, 0x12345678⟩),
  ([0b11_0_00100011_0000101_0001001_0000000#32, 0b0000000_0111_000000000000000000000#32], .vred none (.reg 5) (.reg 9) .fmin),
  ([0b11_0_00100100_0000101_0001001_0000000#32, 0b0000000_0010_000000000000000010111#32], .vscan none (.reg 5) (.reg 9) .max true (some 5)),
  ([0b00_00100101_0_1000111_0001001_0000000#32], .v2s none false 7 (.reg 9)),
  ([0b00_00100110_0_0000101_0001001_1000010#32], .vidx none ⟨false, .reg 5, .reg 9, .s 2⟩),
  ([0b00_00110000_0_0111000_0000010_0000111#32], .kop none .andn .em (.k 2) (.k 7)),
  ([0b00_00110001_0_0000100_1001011_0000000#32], .kfroms none 4 11)] = true := by decide

/-- Words of the spec's tables: threads masks. -/
theorem test_decode_threads_masks_2 : decodesAll [
  ([0b00_00110010_0_0000101_0001000_0000000#32], .ktos none false (.reg 5) .em),
  ([0b00_00110011_0_0000101_0000011_0000000#32], .kpopc none false (.reg 5) (.k 3)),
  ([0b00_00110100_1_0000101_0000001_0000000#32], .kffs none true (.reg 5) (.k 1)),
  ([0b00_00110101_0_0000000_1000001_0110101#32], .setem none (.imm 0b10110101)),
  ([0b00_00110101_0_0000000_0000110_0000000#32], .setem none (.k 6)),
  ([0b00_00110110_0_0000101_0000000_0000000#32], .emsave none 5),
  ([0b00_00110111_0_0000000_0000101_0000000#32], .emrest none 5)] = true := by decide

/-- Words of the spec's tables: float. -/
theorem test_decode_float_1 : decodesAll [
  ([0b00_01000000_0_0000101_0001001_1000010#32], .fadd none ⟨false, .reg 5, .reg 9, .s 2⟩),
  ([0b11_0_01000000_0000101_0001001_1111100#32, 0b00010010001101000101011001111000#32], .faddX1 none ⟨.reg 5, .reg 9, .lit, 0x12345678⟩),
  ([0b00_01000001_0_0000101_0001001_1000010#32], .fsub none ⟨false, .reg 5, .reg 9, .s 2⟩),
  ([0b11_0_01000001_0000101_0001001_1111100#32, 0b00010010001101000101011001111000#32], .fsubX1 none ⟨.reg 5, .reg 9, .lit, 0x12345678⟩),
  ([0b00_01000010_0_0000101_0001001_1000010#32], .fmul none ⟨false, .reg 5, .reg 9, .s 2⟩),
  ([0b11_0_01000010_0000101_0001001_1111100#32, 0b00010010001101000101011001111000#32], .fmulX1 none ⟨.reg 5, .reg 9, .lit, 0x12345678⟩),
  ([0b11_0_01000011_0000101_0001001_1000010#32, 0b1110110_0000_000000000000000000000#32], .fma none ⟨.reg 5, .reg 9, .s 2, .const 2⟩),
  ([0b00_01000100_0_0000101_0001001_1000010#32], .fmac none ⟨false, .reg 5, .reg 9, .s 2⟩),
  ([0b11_0_01000100_0000101_0001001_1111100#32, 0b00010010001101000101011001111000#32], .fmacX1 none ⟨.reg 5, .reg 9, .lit, 0x12345678⟩),
  ([0b00_01000101_0_0000101_0001001_1000010#32], .fmin none ⟨false, .reg 5, .reg 9, .s 2⟩),
  ([0b11_0_01000101_0000101_0001001_1111100#32, 0b00010010001101000101011001111000#32], .fminX1 none ⟨.reg 5, .reg 9, .lit, 0x12345678⟩),
  ([0b00_01000110_0_0000101_0001001_1000010#32], .fmax none ⟨false, .reg 5, .reg 9, .s 2⟩)] = true := by decide

/-- Words of the spec's tables: float. -/
theorem test_decode_float_2 : decodesAll [
  ([0b11_0_01000110_0000101_0001001_1111100#32, 0b00010010001101000101011001111000#32], .fmaxX1 none ⟨.reg 5, .reg 9, .lit, 0x12345678⟩),
  ([0b00_01000111_1_0000110_1100011_0000000#32], .fabs none ⟨true, .reg 6, .latch 3⟩),
  ([0b11_0_01000111_0000110_1111100_0000000#32, 0b00010010001101000101011001111000#32], .fabsX1 none ⟨.reg 6, .lit, 0x12345678⟩),
  ([0b00_01001000_1_0000110_1100011_0000000#32], .fneg none ⟨true, .reg 6, .latch 3⟩),
  ([0b11_0_01001000_0000110_1111100_0000000#32, 0b00010010001101000101011001111000#32], .fnegX1 none ⟨.reg 6, .lit, 0x12345678⟩),
  ([0b00_01001001_1_0000110_1100011_0000000#32], .frcp none ⟨true, .reg 6, .latch 3⟩),
  ([0b11_0_01001001_0000110_1111100_0000000#32, 0b00010010001101000101011001111000#32], .frcpX1 none ⟨.reg 6, .lit, 0x12345678⟩),
  ([0b00_01001010_1_0000110_1100011_0000000#32], .frsq none ⟨true, .reg 6, .latch 3⟩),
  ([0b11_0_01001010_0000110_1111100_0000000#32, 0b00010010001101000101011001111000#32], .frsqX1 none ⟨.reg 6, .lit, 0x12345678⟩),
  ([0b00_01001011_1_0000110_1100011_0000000#32], .fsqrt none ⟨true, .reg 6, .latch 3⟩),
  ([0b11_0_01001011_0000110_1111100_0000000#32, 0b00010010001101000101011001111000#32], .fsqrtX1 none ⟨.reg 6, .lit, 0x12345678⟩),
  ([0b00_01001100_0_0000101_0001001_1000010#32], .fdiv none ⟨false, .reg 5, .reg 9, .s 2⟩)] = true := by decide

/-- Words of the spec's tables: float. -/
theorem test_decode_float_3 : decodesAll [
  ([0b11_0_01001100_0000101_0001001_1111100#32, 0b00010010001101000101011001111000#32], .fdivX1 none ⟨.reg 5, .reg 9, .lit, 0x12345678⟩),
  ([0b00_01001101_1_0000110_1100011_0000000#32], .fexp2 none ⟨true, .reg 6, .latch 3⟩),
  ([0b11_0_01001101_0000110_1111100_0000000#32, 0b00010010001101000101011001111000#32], .fexp2X1 none ⟨.reg 6, .lit, 0x12345678⟩),
  ([0b00_01001110_1_0000110_1100011_0000000#32], .flog2 none ⟨true, .reg 6, .latch 3⟩),
  ([0b11_0_01001110_0000110_1111100_0000000#32, 0b00010010001101000101011001111000#32], .flog2X1 none ⟨.reg 6, .lit, 0x12345678⟩),
  ([0b00_01001111_1_0000110_1100011_0000000#32], .fsin none ⟨true, .reg 6, .latch 3⟩),
  ([0b11_0_01001111_0000110_1111100_0000000#32, 0b00010010001101000101011001111000#32], .fsinX1 none ⟨.reg 6, .lit, 0x12345678⟩),
  ([0b00_01010000_1_0000110_1100011_0000000#32], .fcos none ⟨true, .reg 6, .latch 3⟩),
  ([0b11_0_01010000_0000110_1111100_0000000#32, 0b00010010001101000101011001111000#32], .fcosX1 none ⟨.reg 6, .lit, 0x12345678⟩),
  ([0b00_01010001_1_0000110_1100011_0000000#32], .frint none ⟨true, .reg 6, .latch 3⟩),
  ([0b11_0_01010001_0000110_1111100_0000000#32, 0b00010010001101000101011001111000#32], .frintX1 none ⟨.reg 6, .lit, 0x12345678⟩),
  ([0b00_01010010_1_0000110_1100011_0000000#32], .fclass none ⟨true, .reg 6, .latch 3⟩)] = true := by decide

/-- Words of the spec's tables: float. -/
theorem test_decode_float_4 : decodesAll [
  ([0b11_0_01010010_0000110_1111100_0000000#32, 0b00010010001101000101011001111000#32], .fclassX1 none ⟨.reg 6, .lit, 0x12345678⟩),
  ([0b00_01010011_0_0000101_0001001_1000010#32], .fscl none ⟨false, .reg 5, .reg 9, .s 2⟩),
  ([0b11_0_01010011_0000101_0001001_1111100#32, 0b00010010001101000101011001111000#32], .fsclX1 none ⟨.reg 5, .reg 9, .lit, 0x12345678⟩)] = true := by decide

/-- Words of the spec's tables: convert queue. -/
theorem test_decode_convert_queue_1 : decodesAll [
  ([0b00_01010100_0_1010111_0001001_1000010#32], .fcmp none .ge 7 (.reg 9) (.s 2)),
  ([0b11_0_01010100_1010111_0001001_1111100#32, 0b00010010001101000101011001111000#32], .fcmpX1 none .ge 7 (.reg 9) .lit 0x12345678),
  ([0b00_01010101_0_0000101_0001001_1000010#32], .fdot2 none ⟨false, .reg 5, .reg 9, .s 2⟩),
  ([0b11_0_01010101_0000101_0001001_1111100#32, 0b00010010001101000101011001111000#32], .fdot2X1 none ⟨.reg 5, .reg 9, .lit, 0x12345678⟩),
  ([0b00_01010110_0_0000101_0001001_1000010#32], .fdot4 none ⟨false, .reg 5, .reg 9, .s 2⟩),
  ([0b11_0_01010110_0000101_0001001_1111100#32, 0b00010010001101000101011001111000#32], .fdot4X1 none ⟨.reg 5, .reg 9, .lit, 0x12345678⟩),
  ([0b11_0_01010111_0000101_0001001_1000010#32, 0b1110110_0000_000000000000000000000#32], .fclamp none ⟨.reg 5, .reg 9, .s 2, .const 2⟩),
  ([0b00_01011000_1_0000110_1100011_0000000#32], .ftanh none ⟨true, .reg 6, .latch 3⟩),
  ([0b11_0_01011000_0000110_1111100_0000000#32, 0b00010010001101000101011001111000#32], .ftanhX1 none ⟨.reg 6, .lit, 0x12345678⟩),
  ([0b11_0_01100000_0000101_0001001_0000000#32, 0b0000000_0000_000000010100111000010#32], .cvt none ⟨.reg 5, .reg 9, .f32, .e4m3x4, some .rtz, some true⟩),
  ([0b00_01100001_0_0000101_0001001_1000010#32], .pack none ⟨false, .reg 5, .reg 9, .s 2⟩),
  ([0b11_0_01100001_0000101_0001001_1111100#32, 0b00010010001101000101011001111000#32], .packX1 none ⟨.reg 5, .reg 9, .lit, 0x12345678⟩)] = true := by decide

/-- Words of the spec's tables: convert queue. -/
theorem test_decode_convert_queue_2 : decodesAll [
  ([0b00_01100010_0_0000101_0001001_1000010#32], .unpack none ⟨false, .reg 5, .reg 9, .s 2⟩),
  ([0b11_0_01100010_0000101_0001001_1111100#32, 0b00010010001101000101011001111000#32], .unpackX1 none ⟨.reg 5, .reg 9, .lit, 0x12345678⟩),
  ([0b00_01100011_0_0000110_0001001_0000000#32], .qscale none ⟨false, .reg 6, .reg 9⟩),
  ([0b00_01110000_0_0000101_1100111_0000000#32], .deq none (.reg 5) 3),
  ([0b00_01110001_0_1100111_0001001_0000010#32], .enq none 3 (.reg 9) 2),
  ([0b11_0_01110001_1100111_0001001_0000001#32, 0b0000000_0000_000000000000001001101#32], .enqX2 none 3 (.reg 9) 1 77),
  ([0b00_01110010_0_0000101_0001100_0000000#32], .qcnt none false (.reg 5) 12),
  ([0b00_01110011_0_0000000_0001100_0000000#32], .qdrop none 12),
  ([0b00_01111000_0_0000110_1000011_0000000#32], .acrd none false (.reg 6) (.s 3)),
  ([0b11_0_01111000_0000110_1111100_0000000#32, 0b00010010001101000101011001111000#32], .acrdX1 none (.reg 6) .lit 0x12345678),
  ([0b00_01111001_0_0000001_1000011_0001001#32], .acwr none true (.s 3) (.reg 9)),
  ([0b11_0_01111001_0000000_1111100_0001001#32, 0b00010010001101000101011001111000#32], .acwrX1 none false .lit (.reg 9) 0x12345678)] = true := by decide

/-- Words of the spec's tables: access. -/
theorem test_decode_access_1 : decodesAll [
  ([0b11_0_10000000_0000111_0001001_0000000#32, 0b0000000_0001_000000000000000100001#32], .ld none 7 (.reg 9) true 33),
  ([0b11_0_10000001_0000000_0001001_1000010#32, 0b0000000_0000_000000000000000100001#32], .st none (.reg 9) (.s 2) 33),
  ([0b11_0_10000010_1100111_0001001_0000000#32, 0b0000000_0001_000000010011011100001#32], .ldq none 3 (.reg 9) true 33 (.named 77)),
  ([0b11_0_10000011_1100111_1000010_1000011#32, 0b100001_1_0_1_1_0001001101_000000_000000#32], .ldqb none ⟨3, .s 2, .s 3, 33, true, false, true, .named 77⟩),
  ([0b11_0_10000100_1100111_0001001_0000000#32, 0b100001_0_1_1_0_0000000000_000000_000000#32], .gatherq none 3 (.reg 9) 33 true true .unnamed),
  ([0b11_0_10000100_1100111_1000010_1000011#32, 0b100001_1_1_0_1_0001001101_001100_000000#32], .gatherqList none ⟨3, .s 2, .s 3, 33, true, .named 77, 12⟩),
  ([0b11_0_10000101_0000000_1100111_1000010#32, 0b0000000_0000_000000000000000100001#32], .stq none 3 (.s 2) 33),
  ([0b11_0_10000110_0000000_1100111_0001001#32, 0b0000000_0000_000000000000000100001#32], .scatq none 3 (.reg 9) 33),
  ([0b00_10000111_0_0000111_0001001_0000011#32], .lds none 7 (.reg 9) .s16),
  ([0b11_0_10000111_0000111_1111100_0000110#32, 0b00010010001101000101011001111000#32], .ldsX1 none 7 .lit .u64 0x12345678),
  ([0b00_10001000_0_0000010_0001001_1000010#32], .sts none .u16 (.reg 9) (.s 2)),
  ([0b11_0_10001000_0000100_0001001_1111100#32, 0b00010010001101000101011001111000#32], .stsX1 none .u32 (.reg 9) .lit 0x12345678)] = true := by decide

/-- Words of the spec's tables: access. -/
theorem test_decode_access_2 : decodesAll [
  ([0b00_10001001_0_0000111_0001001_0000101#32], .ldc none 7 (.reg 9) .s32),
  ([0b00_10001010_0_0000000_0001001_1000010#32], .stf none .u8 (.reg 9) (.s 2)),
  ([0b00_10001011_0_0000111_0001001_0000010#32], .feq none false 7 (.reg 9) .empty),
  ([0b11_0_10001100_1100111_1000010_0000000#32, 0b0000000_0001_000001001101111001000#32], .ldsq none 3 (.s 2) true 200 (.named 77)),
  ([0b11_0_10001101_0000000_1100111_1000010#32, 0b0000000_0000_000000000000011001000#32], .stsq none 3 (.s 2) 200),
  ([0b00_10001110_0_0100001_0000010_1000010#32], .bfset none 33 2 (.s 2)),
  ([0b00_10001111_0_0000111_0100001_0000011#32], .bfget none false 7 33 3),
  ([0b11_0_10010000_0000000_1000010_1000011#32, 0b0000000_0000_000000000000000010101#32], .pfr none (.s 2) (.s 3) 21),
  ([0b11_0_10010001_0000000_1000010_1000011#32, 0b0000000_0000_000000000000000010101#32], .pft none (.s 2) (.s 3) 21),
  ([0b11_0_10010010_00001_00010_00011_100001#32, 0b0101_0110_1_1_0_1_0001001101_0000000000#32], .nzscan none ⟨1, 2, 3, 33, 5, some 6, true, false, .named 77⟩),
  ([0b00_10010011_0_0000010_1000010_0000000#32], .waitf none .sto (.s 2)),
  ([0b00_10010100_0_0000111_0000001_0000000#32], .infl none false 7 .ldsh)] = true := by decide

/-- Words of the spec's tables: access. -/
theorem test_decode_access_3 : decodesAll [
  ([0b00_10010101_0_0000110_1000010_1000011#32], .land none 6 (.s 2) (.s 3))] = true := by decide

/-- Words of the spec's tables: engine. -/
theorem test_decode_engine_1 : decodesAll [
  ([0b11_0_10100000_0010011_1000010_1000011#32, 0b0_1111101000_01_001011_010110_1_100001#32], .mloop none ⟨19, 2, 3, 1000, true, 11, 22, true, 33⟩),
  ([0b00_10100001_0_0010011_0100001_0000010#32], .mzero none 19 33 .fp64),
  ([0b00_10100010_0_0010011_1000010_0100001#32], .mscl none 19 (.s 2) 33),
  ([0b11_0_10100010_0010011_1111100_0100001#32, 0b00010010001101000101011001111000#32], .msclX1 none 19 .lit 33 0x12345678),
  ([0b11_0_10100011_0010011_1000010_0000000#32, 0b1_0000000000000000000000000_100001#32], .mdrain none 19 2 true 33),
  ([0b11_0_10100100_0010011_1000010_0000000#32, 0b000000000000000000000000_01_100001#32], .mfill none 19 2 .int32 33),
  ([0b11_0_10100101_000_001_1_1000010_0000000#32, 0b00000000000000000000000000_100001#32], .mcfg none true .rtz (some 2) 33),
  ([0b11_0_10100110_10011_110_100001_00011_00#32, 0b00000000000000000000000000_101100#32], .tcopy none ⟨19, 6, 33, 3, 44⟩),
  ([0b11_0_10100111_10011_00011_100001_00100#32, 0b00000000000000000000000000000000#32], .tstore none 19 3 33 4),
  ([0b11_0_10101000_10011_110_100001_00011_00#32, 0b0000000000_1011111011101111_101100#32], .tmcast none ⟨19, 6, 33, 3, 44⟩ 0xBEEF),
  ([0b00_10101001_0_0010011_0000101_1000010#32], .tdset none 19 5 (.s 2))] = true := by decide

/-- Words of the spec's tables: control. -/
theorem test_decode_control_1 : decodesAll [
  ([0b01_00000000_0000000000000000000000#32], .nop),
  ([0b01_00000001_000000_1111111111110000#32], .br 0xFFF0),
  ([0b01_00000010_010_101_0001001000110100#32], .brc .none 5 0x1234),
  ([0b11_1_00000011_101_1_00000000000000000#32, 0b0001001000110100_1111111111110000#32], .brd 5 true 0x1234 0xFFF0),
  ([0b01_00000100_10_1_000_0001001000110100#32], .brt 2 true 0x1234),
  ([0b01_00000101_10001_0_0001001000110100#32], .loop 17 0x1234),
  ([0b01_00000110_10001_0_0001001000110100#32], .call 17 0x1234),
  ([0b01_00000111_10001_00000000000000000#32], .ret 17),
  ([0b01_00001000_0000000000000000000000#32], .exit),
  ([0b01_00001001_0000000000000000000000#32], .yield),
  ([0b01_00001010_10001_1_0000000000000000#32], .setmode 17 true),
  ([0b01_00001011_10001_00000000000000000#32], .getmode 17)] = true := by decide

/-- Words of the spec's tables: control. -/
theorem test_decode_control_2 : decodesAll [
  ([0b01_00001100_10001_01100_000000000000#32], .rdspec 17 .taskseq),
  ([0b01_00001101_10001_00000000000_101011#32], .flags 17 0b101011)] = true := by decide

/-- Words of the spec's tables: scalar. -/
theorem test_decode_scalar_1 : decodesAll [
  ([0b01_00100000_10001_10100_000_1_11110011#32], .sadd 17 20 (.imm 0xF3)),
  ([0b01_00100000_10001_10100_000_0_01001_000#32], .sadd 17 20 (.reg 9)),
  ([0b11_1_00100000_10001_10100_000_00000000#32, 0b00010010001101000101011001111000#32], .saddX1 17 20 0x12345678),
  ([0b01_00100001_10001_10100_000_0_01001_000#32], .ssub 17 20 (.reg 9)),
  ([0b11_1_00100001_10001_10100_000_00000000#32, 0b00010010001101000101011001111000#32], .ssubX1 17 20 0x12345678),
  ([0b01_00100010_10001_10100_010_0_01001_000#32], .smul .hiu 17 20 (.reg 9)),
  ([0b11_1_00100010_10001_10100_010_00000000#32, 0b00010010001101000101011001111000#32], .smulX1 .hiu 17 20 0x12345678),
  ([0b01_00100011_10001_10100_011_0_01001_000#32], .slog .andn 17 20 (.reg 9)),
  ([0b11_1_00100011_10001_10100_011_00000000#32, 0b00010010001101000101011001111000#32], .slogX1 .andn 17 20 0x12345678),
  ([0b01_00100100_10001_10100_010_0_01001_000#32], .sshf .sra 17 20 (.reg 9)),
  ([0b11_1_00100100_10001_10100_010_00000000#32, 0b00010010001101000101011001111000#32], .sshfX1 .sra 17 20 0x12345678),
  ([0b01_00100101_10001_10100_110_0_01001_000#32], .scmp .ltn 17 20 (.reg 9))] = true := by decide

/-- Words of the spec's tables: scalar. -/
theorem test_decode_scalar_2 : decodesAll [
  ([0b11_1_00100101_10001_10100_110_00000000#32, 0b00010010001101000101011001111000#32], .scmpX1 .ltn 17 20 0x12345678),
  ([0b01_00100110_10001_10100_000000000000#32], .smov 17 20),
  ([0b01_00100111_10001_11111111111110011#32], .sli 17 0x1FFF3),
  ([0b11_1_00100111_10001_0000000000000000#32, 0b00010010001101000101011001111000#32], .sliX1 17 0x12345678),
  ([0b01_00101000_10001_10100_110_0_01001_000#32], .ssel 6 17 20 (.reg 9)),
  ([0b11_1_00101000_10001_10100_110_00000000#32, 0b00010010001101000101011001111000#32], .sselX1 6 17 20 0x12345678),
  ([0b01_00101001_10001_10100_011_0_01001_000#32], .sdiv .ru 17 20 (.reg 9)),
  ([0b11_1_00101001_10001_10100_011_00000000#32, 0b00010010001101000101011001111000#32], .sdivX1 .ru 17 20 0x12345678)] = true := by decide

/-- Words of the spec's tables: sync. -/
theorem test_decode_sync_1 : decodesAll [
  ([0b01_01000000_11_0_1_1_0_01001_00100_00000_0#32], .cadd .sys true (.glob 9) 4),
  ([0b11_1_01000000_10_0_0_110111_00000_00000_0#32, 0b00010010001101000101011001111000#32], .caddX1 .dev false (.slot 55) 0x12345678),
  ([0b01_01000001_01_0_0_0_110111_00100_00000_0#32], .cwait .core (.slot 55) 4),
  ([0b11_1_01000001_00_0_0_110111_00000_00000_0#32, 0b00010010001101000101011001111000#32], .cwaitX1 .wg (.slot 55) 0x12345678),
  ([0b01_01000010_11_0_0_1_0_01001_00100_01011_1#32], .carm true (.glob 9) (.emit 4 11)),
  ([0b11_1_01000010_10_0_0_110111_00000_01011_1#32, 0b00010010001101000101011001111000#32], .carmX1 false (.slot 55) (.emit 0x12345678 11)),
  ([0b01_01000011_10_0_0_0_110111_10001_00000_0#32], .crd .dev (.slot 55) 17),
  ([0b11_1_01000100_00001_00010_00011_00100_0#32, 0b11_1_1_1_111_100001_1_1_0000000000000000#32], .atom ⟨.sys, true, true, true, .cas, 33, true, true, 1, 2, 3, 4⟩),
  ([0b11_1_01000101_00001_00010_00011_00000_0#32, 0b10_0_1_1_010_100001_1_0_0000000000000000#32], .atomf ⟨.dev, false, true, true, .max, 33, true, 1, 2, 3⟩),
  ([0b11_1_01000110_00001_00010_00000_00000_0#32, 0b01_0_0_0_000_100001_0_1_0000000000000000#32], .lda .core 33 false true 1 2),
  ([0b11_1_01000111_00000_00010_00011_00000_0#32, 0b11_0_0_0_000_100001_1_0_0000000000000000#32], .strel .sys 33 true 2 3),
  ([0b01_01001000_10_1_0_000000000000000000#32], .fence .dev .acq)] = true := by decide

/-- Words of the spec's tables: sync. -/
theorem test_decode_sync_2 : decodesAll [
  ([0b01_01001001_00000000_101_10_000000000#32], .barw 5 .execute),
  ([0b01_01001010_11_0_1_000000000000000000#32], .phaseRel true),
  ([0b01_01001010_10_1_0_000000000000000000#32], .phaseAcq false)] = true := by decide

/-- Words of the spec's tables: system. -/
theorem test_decode_system_1 : decodesAll [
  ([0b01_01100000_10001_00000000000000000#32], .emit 17),
  ([0b01_01100001_10001_00000000000000000#32], .launch 17),
  ([0b01_01100010_1_000000000000000000000#32], .phint true),
  ([0b01_01110000_10001_00000000000000000#32], .fbwr 17),
  ([0b01_01110001_10001_00000000000000000#32], .fbrd 17),
  ([0b01_01110010_10001_010_011_00000000000#32], .fbred 17 .max .int32),
  ([0b01_01110011_10001_1001_0000000000000#32], .ueget 17 9),
  ([0b01_10000000_000000_1010101111001101#32], .trap 0xABCD),
  ([0b01_10000001_0000000000000000000000#32], .rft),
  ([0b01_10000010_10100_00000000000000000#32], .rdflt 5),
  ([0b01_10000011_110_1_0_1_10001_00000000000#32], .wpset 6 true false true 17),
  ([0b01_10000100_110_0000000000000000000#32], .wpclr 6)] = true := by decide

/-- Words of the spec's tables: system. -/
theorem test_decode_system_2 : decodesAll [
  ([0b01_10000101_0000000000000000000000#32], .bkpt),
  ([0b01_10000110_10000_100_00000000000000#32], .smprd 2 4)] = true := by decide

/-- Words of the spec's tables: prefix reserved. -/
theorem test_decode_prefix_reserved_1 : decodesAll [
  ([0b10_0000_1_0010_1_001_10_1_0011_101_0000000#32, 0b00_01000000_0_0000101_0001001_0001010#32], .fadd (some ⟨some .f32, some .rtz, some true, some ⟨3, true, false, true⟩⟩) ⟨false, .reg 5, .reg 9, .reg 10⟩),
  ([0b00_00000000_0_0000000_0000000_0000000#32], .reservedOpcode none 0 0),
  ([0b11111111111111111111111111111111#32, 0b00000000000000000000000000000000#32], .reservedOpcode none 0xFFFFFFFF 0),
  ([0b11_0_00000001_0000101_0001001_1111101#32, 0b00010010001101000101011001111000#32], .reservedOpcode none 0b11_0_00000001_0000101_0001001_1111101 0x12345678)] = true := by decide

/-! ### Well-formedness: an ill-formed term for each check -/

/-- Reserved selectors, yield-class operands, prefix fields, field ranges and register ranges are each refused (R154, R40, R158, R159, R165). -/
theorem test_wellformed_refuses : ([
    .vadd none ⟨false, .const 1, .reg 1, .reg 2⟩, .vadd none ⟨false, .reg 1, .lit, .reg 2⟩, .vadd none ⟨false, .reg 1, .reg 2, .lit⟩,
    .vadd none ⟨true, .queue 1, .reg 1, .reg 2⟩, .vadd none ⟨false, .reg 1, .queue 1, .latch 2⟩, .vaddX1 none ⟨.reg 1, .queue 1, .latch 2, 0⟩,
    .vneg none ⟨false, .lit, .reg 1⟩, .vneg none ⟨false, .reg 1, .lit⟩, .vnegX1 none ⟨.latch 1, .reg 1, 0⟩,
    .vmad none ⟨.reg 1, .reg 2, .reg 3, .lit⟩, .vbfx none (.reg 1) .lit false 0 0, .vbfi none (.reg 1) (.reg 2) .lit 0 0,
    .vadd (some ⟨none, some .rtz, none, none⟩) ⟨false, .reg 1, .reg 2, .reg 3⟩, .vand (some ⟨none, none, some true, none⟩) ⟨false, .reg 1, .reg 2, .reg 3⟩,
    .cvt (some ⟨some .i32, none, none, none⟩) ⟨.reg 1, .reg 2, .i32, .f32, none, none⟩, .vidx (some ⟨none, none, none, some ⟨1, false, false, false⟩⟩) ⟨false, .reg 1, .reg 2, .reg 3⟩,
    .vadd (some ⟨none, none, none, some ⟨1, true, false, false⟩⟩) ⟨false, .queue 1, .reg 2, .reg 3⟩,
    .vadd (some ⟨none, none, none, some ⟨1, false, true, false⟩⟩) ⟨false, .reg 1, .const 1, .reg 3⟩,
    .vadd (some ⟨none, none, none, some ⟨1, false, false, true⟩⟩) ⟨false, .reg 1, .reg 2, .latch 0⟩,
    .vneg (some ⟨none, none, none, some ⟨1, false, false, true⟩⟩) ⟨false, .reg 1, .reg 2⟩,
    .fmac none ⟨false, .queue 1, .reg 1, .reg 2⟩, .vcmp none .eq 0 .lit (.reg 1), .vcmp none .eq 0 (.queue 1) (.latch 1), .vcmpX1 none .eq 0 (.queue 1) (.latch 1) 0,
    .v2s none true 0 (.queue 1), .v2s none false 0 .lit, .kop none .not (.k 1) (.k 2) (.k 1), .kop none .set (.k 1) (.k 1) (.k 0), .kop none .mov (.k 1) .em .em,
    .ktos none true (.queue 0) (.k 1), .kop (some ⟨some .i32, none, none, none⟩) .and (.k 1) (.k 2) (.k 3), .deq none (.s 1) 0, .enq none 0 (.latch 1) 0,
    .enq none 0 (.reg 1) 3, .enqX2 none 0 .lit 0 0, .acrd none false (.reg 1) (.reg 2), .acrdX1 none (.reg 1) (.const 0) 0, .acwr none false (.const 1) (.reg 2),
    .acwrX1 none false (.reg 1) (.reg 2) 0] : List Instr).all (fun i => !WellFormed i) = true := by decide

/-- The same for the access, matrix, copy and second-map instructions; events are no instructions. -/
theorem test_wellformed_refuses_more : ([
    .ld none 1 (.reg 32) false 0, .ld none 1 (.const 4) false 0, .st none (.queue 1) (.reg 1) 0, .st none (.reg 1) (.const 7) 0, .ldq none 0 (.latch 1) false 0 .unnamed,
    .ldqb none ⟨0, .latch 0, .reg 1, 0, false, false, false, .unnamed⟩, .ldqb none ⟨0, .reg 1, .queue 0, 0, false, false, false, .unnamed⟩, .gatherq none 0 .lit 0 false false .unnamed,
    .gatherqList none ⟨0, .reg 1, .latch 1, 0, false, .unnamed, 0⟩, .stq none 0 (.latch 0) 0, .scatq none 0 (.reg 40) 0, .lds none 1 .lit .u8, .ldsX1 none 1 (.queue 1) .u8 0,
    .sts none .s8 (.reg 1) (.reg 2), .stsX1 none .s32 .lit .lit 0, .stsX1 none .u8 (.queue 0) .lit 0, .ldc none 1 (.latch 0) .u32, .stf none .s16 (.reg 1) (.reg 2),
    .stf none .u16 (.reg 1) (.latch 2), .feq none false 1 .lit .read, .ldsq none 0 (.latch 0) false 0 .unnamed, .stsq none 0 .lit 0, .bfset none 0 0 (.queue 0),
    .bfget (some ⟨some .i32, none, none, none⟩) false 1 0 0, .pfr none (.latch 0) (.reg 1) 0, .pft none (.reg 1) .lit 0,
    .nzscan (some ⟨none, none, none, some ⟨0, false, false, false⟩⟩) ⟨0, 1, 2, 0, 0, none, false, false, .unnamed⟩, .waitf none .ldg (.latch 0), .infl (some ⟨none, none, some true, none⟩) false 1 .ldg,
    .land none 0 (.latch 1) (.reg 1), .land none 0 (.reg 1) .lit, .mscl none 0 (.reg 1) 0, .msclX1 none 0 (.latch 0) 0 0, .mdrain (some ⟨some .f32, none, none, none⟩) 0 0 false 0,
    .mzero (some ⟨none, some .rtz, none, none⟩) 0 0 .fp32, .tcopy none ⟨0, 0, 0, 29, 0⟩, .tstore none 0 0 0 29, .tmcast none ⟨0, 0, 0, 30, 0⟩ 1, .tdset none 0 0 (.latch 0),
    .slog .not 1 2 (.reg 1), .slogX1 .not 1 2 0, .atom ⟨.dev, false, false, true, .add, 0, false, false, 1, 2, 3, 4⟩, .atom ⟨.dev, false, false, false, .cas, 0, false, false, 1, 2, 3, 4⟩,
    .atomf ⟨.dev, false, false, false, .add, 0, false, 1, 2, 3⟩, .fbwr 28, .fbrd 28, .fbred 30 .add .fp32, .ueget 29 0, .wpset 0 false false false 1,
    .wpset 0 true false false 31, .smprd 0 5, .reservedOpcode none 0 0, .orphanPrefix, .loadReturn 0 0, .reset] : List Instr).all (fun i => !WellFormed i) = true := by decide

/-! ### Small states for the tests -/

/-- The strand of the test states. -/
def tStrandId (sl : Slice) : StrandId := ⟨loadWg, sl, 0⟩

/-- One strand of a slice on core 0, running, with its strand, its workgroup and the rest adjusted. -/
def tState (sl : Slice) (g : Strand → Strand) (h : Workgroup → Workgroup) (k : State → State) : State :=
  let s := State.reset.loadWord 0 0
  let lane : Lane := ⟨some (tStrandId sl, 0), 0, 0⟩
  let s := s.updCore 0 (fun c => { c with lanesA := (match sl with | .access => [(0, lane)] | .execute => []), lanesE := (match sl with | .access => [] | .execute => [(0, lane)]) })
  k { s with wgs := [(loadWg, h (loadGroup sl))], strands := [(tStrandId sl, g (startStrand sl (BitVec.ofNat 64 loadAt) 0 0 false))], cur := some (tStrandId sl, 0), moves := [] }

/-- A v register of every thread. -/
def tV (n : Nat) (x : W32) (st : Strand) : Strand := (List.range 8).foldl (fun st t => st.vSet n t x) st

/-- An x register of every thread. -/
def tX (n : Nat) (x : W64) (st : Strand) : Strand := (List.range 8).foldl (fun st t => st.xSet n t x) st

/-- The issuing strand. -/
def tMe (s : State) : Me := s.me.getD ⟨tStrandId .access, startStrand .access 0 0 0 false, 0, Frag.free, loadGroup .access⟩

/-- An outcome is a next state that has a property. -/
def tGoes (o : Host.Outcome State Fault Refusal) (p : State → Bool) : Bool := match o with | .next t => p t | _ => false

/-- An instruction ends in a next state whose strand has a property. -/
def tStrand (s : State) (i : Instr) (p : Strand → Bool) : Bool := tGoes (exec i s) (fun t => (t.strands.map Prod.snd).any p)

/-- Every instruction of a list gives thread 0 of v register 5 a value. -/
def tGives (s : State) (l : List (Instr × W32)) : Bool := l.all (fun e => tStrand s e.1 (fun st => st.vGet 5 0 == e.2))

/-- The strand is in its handler for a trap code, or its workgroup is terminated for it. -/
def tTraps (s : State) (i : Instr) (code : BitVec 8) : Bool :=
  tGoes (exec i s) (fun t => match t.strands with
    | [] => (t.ctxs.find 0).any (fun c => c.faults.entries.any (fun e => e.2.code == code))
    | p :: _ => p.2.fault.any (fun r => r.code == code))

/-- `Safety.runs`, evaluated. -/
def tRuns (s : State) (f : Safety.Form) (ty rt : ETy) (cty : ETy := ty) : Bool :=
  let m := tMe s
  s.me.isSome && decide (m.em ≠ 0) && decide (m.f.rc = 0) && decide (repTotal f.pfx = 1) && f.d.isReg &&
  f.srcs.all (fun x => !x.isQueue && posOk m.access m.wg.vregs 1 false x (Sel.srcTy x cty ty)) && posOk m.access m.wg.vregs 1 false f.d rt &&
  (!m.access || !s.xBusy m.sid (Safety.regsOf f)) && decide ((Safety.moved m (m.pc + BitVec.ofNat 64 f.len)).settleFrags = Safety.moved m (m.pc + BitVec.ofNat 64 f.len))

/-- `Safety.apart`, evaluated. -/
def tApart (s : State) (n : Nat) : Bool := decide ((Safety.moved (tMe s) ((tMe s).pc + BitVec.ofNat 64 n)).settleFrags = Safety.moved (tMe s) ((tMe s).pc + BitVec.ofNat 64 n))

/-- `Safety.reads`, evaluated. -/
def tReads (s : State) (f : Safety.Form) (ty : ETy) : Bool := tRuns s { f with d := .reg 0 } ty .i32 && (!(tMe s).access || !s.xBusy (tMe s).sid (Safety.regsOf { f with d := .lit }))

/-- A strand issues. -/
theorem me_of_isSome {s : State} (h : s.me.isSome = true) : s.me = some (tMe s) := by
  unfold tMe
  cases hm : s.me
  · simp [hm] at h
  · rfl

/-- What `tRuns` evaluates. -/
theorem runs_of_tRuns {s : State} {f : Safety.Form} {ty rt cty : ETy} (h : tRuns s f ty rt cty = true) : Safety.runs s (tMe s) f ty rt cty := by
  simp only [tRuns, Bool.and_eq_true, decide_eq_true_eq, List.all_eq_true, Bool.or_eq_true, Bool.not_eq_true'] at h
  obtain ⟨⟨⟨⟨⟨⟨⟨⟨h1, h2⟩, h3⟩, h4⟩, h5⟩, h6⟩, h7⟩, h8⟩, h9⟩ := h
  refine ⟨me_of_isSome h1, h2, h3, h4, ?_, h6, h7, fun ha => ?_, h9⟩
  · revert h5
    cases f.d <;> simp [Sel.isReg]
  · rcases h8 with h8 | h8
    · rw [ha] at h8; cases h8
    · exact h8

/-- What `tApart` evaluates. -/
theorem apart_of {s : State} {n : Nat} (h : tApart s n = true) : Safety.apart (tMe s) ((tMe s).pc + BitVec.ofNat 64 n) := by
  unfold tApart at h
  show _ = _
  exact of_decide_eq_true h

/-- What `tReads` evaluates. -/
theorem reads_of_tReads {s : State} {f : Safety.Form} {ty : ETy} (h : tReads s f ty = true) : Safety.reads s (tMe s) f ty := by
  simp only [tReads, Bool.and_eq_true, Bool.or_eq_true, Bool.not_eq_true'] at h
  obtain ⟨h1, h2, h3, h4, -, h6, -, -, h9⟩ := runs_of_tRuns h.1
  refine ⟨h1, h2, h3, h4, fun x hx => by have := h6 x hx; cases x <;> exact this, fun ha => ?_, h9⟩
  rcases h.2 with h8 | h8
  · rw [ha] at h8; cases h8
  · exact h8

/-- The same for the forms of a list. -/
theorem runs_all {s : State} {l : List Safety.Form} {ty rt cty : ETy} (h : l.all (fun f => tRuns s f ty rt cty) = true) : ∀ f ∈ l, Safety.runs s (tMe s) f ty rt cty :=
  fun f hf => runs_of_tRuns (List.all_eq_true.mp h f hf)

/-- An execute strand: v9 = −7, v10 = 3, v12 to v15 two 64-bit values, s2 = 5. -/
def tE : State := tState .execute (fun st => { tV 10 3 (tV 9 0xFFFFFFF9 st) with s := [(2, 5)] }) id id

/-- An access strand: x9 = −7, s2 = 5. -/
def tA : State := tState .access (fun st => { tX 9 0xFFFFFFFFFFFFFFF9 st with s := [(2, 5)] }) id id

/-- An effective type. -/
def tP (ty : ETy) : Option Pfx := some ⟨some ty, none, none, none⟩
/-- Operands in v3 form: v5 from v9 and s2. -/
def tO : V3 := ⟨false, .reg 5, .reg 9, .s 2⟩
/-- One source: v5 from v9. -/
def tU : V3u := ⟨false, .reg 5, .reg 9⟩
/-- X1: v5 from v9 and the literal 5. -/
def tL : X1 := ⟨.reg 5, .reg 9, .lit, 5⟩
/-- X1, one source: v5 from the literal −7. -/
def tLu : X1u := ⟨.reg 5, .lit, 0xFFFFFFF9⟩
/-- X2, three sources: v5 from v9, s2 and v10. -/
def tC : X2c := ⟨.reg 5, .reg 9, .s 2, .reg 10⟩

/-- Forms of tO, tU, tL, tLu, tC. -/
def tForms (ty : ETy) : List Safety.Form := [Safety.v3 (tP ty) tO, Safety.v3u (tP ty) tU, Safety.x1 (tP ty) tL, Safety.x1u (tP ty) tLu, Safety.x2c (tP ty) tC]

/-! ### Integer instructions: A = −7 and B = 5, worked by hand from Table 10.4 -/

theorem test_step_integer : tGives tE [
    (.vadd (tP .i32) tO, 0xFFFFFFFE), (.vaddX1 (tP .i32) tL, 0xFFFFFFFE), (.vsub (tP .i32) tO, 0xFFFFFFF4), (.vsubX1 (tP .i32) tL, 0xFFFFFFF4),
    (.vmul (tP .i32) tO, 0xFFFFFFDD), (.vmulX1 (tP .i32) tL, 0xFFFFFFDD), (.vmulh (tP .i32) tO, 0xFFFFFFFF), (.vmulhX1 (tP .n32) tL, 4),
    (.vmad (tP .i32) tC, 0xFFFFFFE0), (.vneg (tP .i32) tU, 7), (.vnegX1 (tP .i32) tLu, 7), (.vabs (tP .i32) tU, 7), (.vabsX1 (tP .i32) tLu, 7),
    (.vmin (tP .i32) tO, 0xFFFFFFF9), (.vminX1 (tP .n32) tL, 5), (.vmax (tP .i32) tO, 5), (.vmaxX1 (tP .n32) tL, 0xFFFFFFF9),
    (.vavg (tP .i32) tO, 0xFFFFFFFF), (.vavgX1 (tP .n32) tL, 0x7FFFFFFF), (.vsad (tP .i32) tO, 12), (.vsadX1 (tP .n32) tL, 0xFFFFFFF4),
    (.vaddc (tP .n32) tO, 0xFFFFFFFE), (.vaddcX1 (tP .n32) tL, 0xFFFFFFFE), (.vclamp (tP .i32) tC, 3)] = true := by decide +kernel

theorem test_step_integer_bits : tGives tE [
    (.vand (tP .i32) tO, 1), (.vandX1 (tP .i32) tL, 1), (.vor (tP .i32) tO, 0xFFFFFFFD), (.vorX1 (tP .i32) tL, 0xFFFFFFFD),
    (.vxor (tP .i32) tO, 0xFFFFFFFC), (.vxorX1 (tP .i32) tL, 0xFFFFFFFC), (.vnot (tP .i32) tU, 6), (.vnotX1 (tP .i32) tLu, 6),
    (.vmov (tP .i32) tU, 0xFFFFFFF9), (.vmovX1 (tP .i32) tLu, 0xFFFFFFF9), (.vshl (tP .i32) tO, 0xFFFFFF20), (.vshlX1 (tP .i32) tL, 0xFFFFFF20),
    (.vshr (tP .i32) tO, 0x07FFFFFF), (.vshrX1 (tP .i32) tL, 0x07FFFFFF), (.vsra (tP .n32) tO, 0xFFFFFFFF), (.vsraX1 (tP .i32) tL, 0xFFFFFFFF),
    (.vrot (tP .i32) tO, 0xFFFFFF3F), (.vrotX1 (tP .i32) tL, 0xFFFFFF3F), (.vpopc (tP .i32) tU, 30), (.vclz (tP .i32) ⟨false, .reg 5, .s 2⟩, 29),
    (.vbrev (tP .i32) tU, 0x9FFFFFFF), (.vdiv (tP .i32) tO, 0xFFFFFFFF), (.vdivX1 (tP .n32) tL, 0x33333331), (.vrem (tP .i32) tO, 0xFFFFFFFE), (.vremX1 (tP .n32) tL, 4),
    (.vbfx (tP .i32) (.reg 5) (.reg 9) true 4 3, 0xFFFFFFFF), (.vbfi (tP .i32) (.reg 5) (.s 2) (.reg 9) 4 3, 0xFFFFFF59), (.vsel (tP .i32) (.reg 5) (.reg 9) (.s 2) 1, 5)] = true := by decide +kernel

theorem test_witness_IntegerArithmetic : (effET (tP .i32) (tMe tE).st.mode).isInt = true ∧ ∀ f ∈ tForms .i32, Safety.runs tE (tMe tE) f .i32 .i32 :=
  ⟨by decide +kernel, runs_all (by decide +kernel)⟩

theorem test_witness_IntegerArithmetic_access : (effET (tP .i8x4) (tMe tA).st.mode).isInt = true ∧ ∀ f ∈ tForms .i8x4, Safety.runs tA (tMe tA) f .i8x4 .i8x4 :=
  ⟨by decide +kernel, runs_all (by decide +kernel)⟩

/-- The bitwise instructions accept float types too. -/
theorem test_witness_IntegerBits : (∀ f ∈ tForms .f32, Safety.runs tE (tMe tE) f .f32 .f32) ∧ ETy.isInt .n16x2 = true ∧ ∀ f ∈ tForms .n16x2, Safety.runs tE (tMe tE) f .n16x2 .n16x2 :=
  ⟨runs_all (by decide +kernel), by decide +kernel, runs_all (by decide +kernel)⟩

theorem test_witness_IntegerDivision : ETy.isInt .i32 = true ∧ ∀ f ∈ tForms .i32, Safety.runs tE (tMe tE) f .i32 .i32 := ⟨by decide +kernel, runs_all (by decide +kernel)⟩

/-- The widest field: position 0 with 32 bits and position 31 with 1. -/
theorem test_witness_IntegerFields : ETy.isW .i32 = true ∧ 0 + (31 + 1) ≤ ETy.width .i32 ∧ 31 + (0 + 1) ≤ ETy.width .i32 ∧
    (∀ f ∈ ([⟨tP .i32, pfxLen (tP .i32) 8, false, .reg 5, [.reg 9, .s 2], 0⟩, ⟨tP .i32, pfxLen (tP .i32) 8, false, .reg 5, [.reg 9], 0⟩] : List Safety.Form),
      Safety.runs tE (tMe tE) f .i32 .i32) ∧
    (∀ f ∈ ([Safety.v3 (tP .n8x4) tO, Safety.x1 (tP .n8x4) tL] : List Safety.Form), Safety.runs tE (tMe tE) f .n8x4 .n32 ∧ ETy.isInt .n8x4 = true ∧ ETy.is64 .n8x4 = false ∧
      ∀ y ∈ f.srcs, posOk (tMe tE).access (tMe tE).wg.vregs 1 false y .n8x4 = true) ∧
    ∀ f ∈ ([Safety.v3 (tP .i32) tO, Safety.x1 (tP .i32) tL] : List Safety.Form), Safety.runs tE (tMe tE) f .i32 .i32 :=
  ⟨by decide +kernel, by decide +kernel, by decide +kernel, runs_all (by decide +kernel), fun f hf => ⟨runs_all (by decide +kernel) f hf, by decide +kernel, by decide +kernel, by revert f; decide +kernel⟩, runs_all (by decide +kernel)⟩

theorem test_witness_Comparisons : ETy.isW .i32 = true ∧ (tMe tE).access = false ∧
    (∀ f ∈ ([⟨tP .i32, pfxLen (tP .i32) 4, false, .lit, [.reg 9, .s 2], 0⟩, ⟨tP .i32, pfxLen (tP .i32) 8, false, .lit, [.reg 9, .lit], 5⟩] : List Safety.Form), Safety.reads tE (tMe tE) f .i32) ∧
    ∀ f ∈ ([⟨tP .f32, pfxLen (tP .f32) 4, false, .lit, [.reg 9, .s 2], 0⟩, ⟨tP .f32, pfxLen (tP .f32) 8, false, .lit, [.reg 9, .lit], 5⟩] : List Safety.Form), Safety.reads tE (tMe tE) f .f32 :=
  ⟨by decide +kernel, by decide +kernel, fun f hf => reads_of_tReads (by revert f; decide +kernel), fun f hf => reads_of_tReads (by revert f; decide +kernel)⟩

/-- −7 < 5 as i32, and not as n32. FCMP: −7's pattern is a NaN, so NE holds and LT does not. -/
theorem test_step_compare : tStrand tE (.vcmp (tP .i32) .lt 1 (.reg 9) (.s 2)) (fun st => st.kGet 1 == 0xFF) ∧ tStrand tE (.vcmpX1 (tP .i32) .ltn 1 (.reg 9) .lit 5) (fun st => st.kGet 1 == 0) ∧
    tStrand tE (.fcmp (tP .f32) .ne 1 (.reg 9) (.s 2)) (fun st => st.kGet 1 == 0xFF) ∧ tStrand tE (.fcmpX1 (tP .f32) .lt 1 (.reg 9) .lit 5) (fun st => st.kGet 1 == 0) := by decide +kernel

/-! ### Scalar instructions -/

/-- An execute strand with s1 = −7, s2 = 5, s3 the most negative value, k1 = 1. -/
def tS : State := tState .execute (fun st => { st with s := [(1, 0xFFFFFFFFFFFFFFF9), (2, 5), (3, 0x8000000000000000)], k := [(1, 1)] }) id id

/-- Every instruction of a list gives s6 a value, and FLAGS. -/
def tGivesS (s : State) (l : List (Instr × W64 × BitVec 6)) : Bool := l.all (fun e => tStrand s e.1 (fun st => st.sGet 6 == e.2.1 && st.flags == e.2.2))

/-- sA = −7 or the most negative value, the other operand 5, worked by hand from Tables 10.16 and 9.8a. -/
theorem test_step_scalar : tGivesS tS [
    (.sadd 6 1 (.reg 2), 0xFFFFFFFFFFFFFFFE, 0), (.saddX1 6 1 5, 0xFFFFFFFFFFFFFFFE, 0), (.ssub 6 1 (.imm 0xFF), 0xFFFFFFFFFFFFFFFA, 0), (.ssubX1 6 1 5, 0xFFFFFFFFFFFFFFF4, 0),
    (.smul .his 6 1 (.reg 2), 0xFFFFFFFFFFFFFFFF, 0), (.smulX1 .hiu 6 1 5, 4, 0), (.slog .andn 6 1 (.reg 2), 0xFFFFFFFFFFFFFFF8, 0), (.slogX1 .xor 6 1 5, 0xFFFFFFFFFFFFFFFC, 0),
    (.sshf .rot 6 1 (.reg 2), 0xFFFFFFFFFFFFFF3F, 0), (.sshfX1 .shr 6 1 69, 0x07FFFFFFFFFFFFFF, 0), (.scmp .lt 6 1 (.reg 2), 1, 0), (.scmpX1 .ltn 6 1 5, 0, 0), (.smov 6 1, 0xFFFFFFFFFFFFFFF9, 0),
    (.sli 6 0x1FFFF, 0xFFFFFFFFFFFFFFFF, 0), (.sliX1 6 0x80000000, 0xFFFFFFFF80000000, 0), (.ssel 1 6 1 (.reg 2), 0xFFFFFFFFFFFFFFF9, 0), (.sselX1 0 6 1 5, 5, 0),
    (.sdiv .qs 6 3 (.imm 0xFF), 0x8000000000000000, 0), (.sdiv .rs 6 1 (.reg 2), 0xFFFFFFFFFFFFFFFE, 0), (.sdivX1 .qu 6 1 0, 0xFFFFFFFFFFFFFFFF, flDZ)] = true := by decide +kernel

theorem test_witness_ScalarResult : tS.me = some (tMe tS) ∧ Safety.apart (tMe tS) ((tMe tS).pc + BitVec.ofNat 64 4) ∧ Safety.apart (tMe tS) ((tMe tS).pc + BitVec.ofNat 64 8) :=
  ⟨me_of_isSome (by decide +kernel), apart_of (by decide +kernel), apart_of (by decide +kernel)⟩

/-- The same state serves, with a zero divisor, the most negative value by −1 and an ordinary division. -/
theorem test_witness_ScalarDivision : tS.me = some (tMe tS) ∧ Safety.apart (tMe tS) ((tMe tS).pc + BitVec.ofNat 64 4) ∧ Safety.apart (tMe tS) ((tMe tS).pc + BitVec.ofNat 64 8) ∧
    (tMe tS).st.sGet 4 = 0 ∧ (tMe tS).st.sGet 3 = 1 <<< 63 ∧ (tMe tS).st.sGet 2 = 5 :=
  ⟨me_of_isSome (by decide +kernel), apart_of (by decide +kernel), apart_of (by decide +kernel), by decide +kernel, by decide +kernel, by decide +kernel⟩

/-! ### Floating point: A = 1.5, B = 2.0, C = 0.25, worked by hand -/

/-- v9 = 1.5, v10 = 2.0, v11 = 0.25, v12 = 4.0; v13 = (1.0, 2.0) and v14 = (3.0, 4.0) as f16x2; v15 = four ones as e4m3x4. -/
def tF : State := tState .execute (fun st => tV 15 0x38383838 (tV 14 0x44004200 (tV 13 0x40003C00 (tV 12 0x40800000 (tV 11 0x3E800000 (tV 10 0x40000000 (tV 9 0x3FC00000 st))))))) id id

theorem test_step_float : let o : V3 := ⟨false, .reg 5, .reg 9, .reg 10⟩
    let x : X1 := ⟨.reg 5, .reg 9, .lit, 0x40000000⟩
    tGives tF [(.fadd none o, 0x40600000), (.faddX1 none x, 0x40600000), (.fsub none o, 0xBF000000), (.fsubX1 none x, 0xBF000000), (.fmul none o, 0x40400000), (.fmulX1 none x, 0x40400000),
      (.fma none ⟨.reg 5, .reg 9, .reg 10, .reg 11⟩, 0x40500000), (.fmac none o, 0x40400000), (.fmacX1 none x, 0x40400000), (.fdiv none o, 0x3F400000), (.fdivX1 none x, 0x3F400000),
      (.fsqrt none ⟨false, .reg 5, .reg 12⟩, 0x40000000), (.fsqrtX1 none ⟨.reg 5, .lit, 0x40800000⟩, 0x40000000), (.frint none ⟨false, .reg 5, .reg 9⟩, 0x40000000),
      (.frintX1 none ⟨.reg 5, .lit, 0x40200000⟩, 0x40000000), (.fscl none ⟨false, .reg 5, .reg 9, .s 0⟩, 0x3FC00000), (.fsclX1 none ⟨.reg 5, .reg 9, .lit, 2⟩, 0x40C00000),
      (.fdot2 (tP .f16x2) ⟨false, .reg 5, .reg 13, .reg 14⟩, 0x41300000), (.fdot2X1 (tP .f16x2) ⟨.reg 5, .reg 13, .lit, 0x44004200⟩, 0x41300000),
      (.fdot4 (tP .e4m3x4) ⟨false, .reg 5, .reg 15, .reg 15⟩, 0x40800000), (.fdot4X1 (tP .e4m3x4) ⟨.reg 5, .reg 15, .lit, 0x38383838⟩, 0x40800000)] = true := by decide +kernel

theorem test_step_float_select : let o : V3 := ⟨false, .reg 5, .reg 9, .reg 10⟩
    let x : X1 := ⟨.reg 5, .reg 9, .lit, 0xFFC00000⟩
    tGives tF [(.fmin none o, 0x3FC00000), (.fminX1 none x, 0x3FC00000), (.fmax none o, 0x40000000), (.fmaxX1 none x, 0x3FC00000), (.fclamp none ⟨.reg 5, .reg 9, .reg 10, .reg 11⟩, 0x3E800000),
      (.fabs none ⟨false, .reg 5, .reg 9⟩, 0x3FC00000), (.fabsX1 none ⟨.reg 5, .lit, 0xBFC00000⟩, 0x3FC00000), (.fneg none ⟨false, .reg 5, .reg 9⟩, 0xBFC00000),
      (.fnegX1 none ⟨.reg 5, .lit, 0x7FC00001⟩, 0x7FC00000), (.fclass none ⟨false, .reg 5, .reg 9⟩, 64), (.fclassX1 none ⟨.reg 5, .lit, 0x80000001⟩, 4)] = true := by decide +kernel

/-- Zero operands, of which Table 10.10 gives the results. -/
theorem test_step_approx : let u : V3u := ⟨false, .reg 5, .reg 1⟩
    let x : X1u := ⟨.reg 5, .lit, 0x80000000⟩
    tGives tF [(.frcp none u, 0x7F800000), (.frcpX1 none x, 0xFF800000), (.frsq none u, 0x7F800000), (.frsqX1 none x, 0xFF800000), (.fexp2 none u, 0x3F800000), (.fexp2X1 none x, 0x3F800000),
      (.flog2 none u, 0xFF800000), (.flog2X1 none x, 0xFF800000), (.fsin none u, 0), (.fsinX1 none x, 0x80000000), (.fcos none u, 0x3F800000), (.fcosX1 none x, 0x3F800000),
      (.ftanh none u, 0), (.ftanhX1 none x, 0x80000000)] = true := by decide +kernel

theorem test_step_convert : tGives tF [
      (.cvt none ⟨.reg 5, .reg 9, .f32, .i32, some .rne, none⟩, 2), (.pack (tP .f16x2) ⟨false, .reg 5, .reg 9, .reg 10⟩, 0x40003E00),
      (.packX1 (tP .i8x4) ⟨.reg 5, .lit, .const 2, 0xFFFFFFF9⟩, 0x0000FFF9), (.unpack (tP .f16x2) ⟨false, .reg 5, .reg 13, .const 3⟩, 0x3F800000),
      (.unpackX1 (tP .i8x4) ⟨.reg 5, .lit, .const 1, 0x0000F9FF⟩, 0xFFFFFFF9), (.qscale (tP .e4m3x4) ⟨false, .reg 5, .reg 9⟩, 119)] = true := by decide +kernel

theorem test_witness_Float : (tMe tF).access = false ∧ ETy.isFP .f32 = true ∧ ETy.isFP .f16x2 = true ∧ ETy.is64 .f16x2 = false ∧
    (∀ f ∈ tForms .f32 ++ [Safety.withD (Safety.v3 (tP .f32) tO), Safety.withD (Safety.x1 (tP .f32) tL)], Safety.runs tF (tMe tF) f .f32 .f32) ∧
    ∀ f ∈ tForms .f16x2, Safety.runs tF (tMe tF) f .f16x2 .f16x2 :=
  ⟨by decide +kernel, by decide +kernel, by decide +kernel, by decide +kernel, runs_all (by decide +kernel), runs_all (by decide +kernel)⟩

/-- The last pair of v registers, as f64. -/
theorem test_witness_Float64 : ETy.isFP .f64 = true ∧ ∀ f ∈ ([Safety.v3 (tP .f64) ⟨false, .reg 62, .reg 8, .reg 10⟩, Safety.x1u (tP .f64) ⟨.reg 0, .const 1, 0⟩] : List Safety.Form),
    Safety.runs tF (tMe tF) f .f64 .f64 := ⟨by decide +kernel, runs_all (by decide +kernel)⟩

theorem test_witness_DotProducts : ETy.f16x2 ∈ [ETy.f16x2, .bf16x2] ∧ ETy.dm8x4 ∈ [ETy.e4m3x4, .e5m2x4, .dm8x4] ∧
    (∀ f ∈ ([Safety.withD (Safety.v3 (tP .f16x2) tO), Safety.withD (Safety.x1 (tP .f16x2) tL)] : List Safety.Form), Safety.runs tF (tMe tF) f .f16x2 .f32) ∧
    ∀ f ∈ ([Safety.withD (Safety.v3 (tP .dm8x4) tO), Safety.withD (Safety.x1 (tP .dm8x4) tL)] : List Safety.Form), Safety.runs tF (tMe tF) f .dm8x4 .f32 :=
  ⟨by decide +kernel, by decide +kernel, runs_all (by decide +kernel), runs_all (by decide +kernel)⟩

/-- The third smallest subnormal's half, which is no value of f32, and a value that overflows f16. -/
theorem test_witness_Rounding : Fmt.f32 ≠ .dm8 ∧ (0 < (3 : Nat)) ∧ (Fmt.f32.pos ⟨3, -150, false⟩).lo + 1 ≤ Fmt.f32.maxRank ∧
    Fmt.f16.maxRank < (Fmt.f16.pos ⟨1, 16, false⟩).round .rne false 0 := by decide +kernel

theorem test_witness_SpecialOperands : Fmt.f32.decode 0x7FA00000 = .nan true ∧ Fmt.f32.read false 0x80000000 = .zero true ∧ Fmt.f32.decode 0xFF800000 = .inf true ∧
    Fmt.f32.read false 0xBF800000 = .fin true 8388608 (-23) ∧ Fmt.f32.decode 0 = .zero false ∧ Fmt.f32.decode 1 = .fin false 1 (-149) := by decide +kernel

/-- Codes that are no NaN: the largest finite value and both infinities, and the two zeros. -/
theorem test_witness_FloatSelections : ∀ a ∈ [0x7F7FFFFF, 0x7F800000, 0xFF800000, 0, 0x80000000], a < 2 ^ Fmt.f32.width ∧ (Fmt.f32.decode a).isNan = false := by decide +kernel

/-- CVT of every active thread, PACK, UNPACK and QSCALE. -/
theorem test_witness_Conversions : (∀ f ∈ ([⟨none, pfxLen none 8, false, .reg 5, [.reg 9], 0⟩] : List Safety.Form), Safety.runs tF (tMe tF) f .f32 .i32) ∧ ETy.isPK .i8x4 = true ∧
    (∀ f ∈ ([Safety.v3 (tP .i8x4) tO, Safety.x1 (tP .i8x4) tL] : List Safety.Form), Safety.runs tF (tMe tF) f .i32 .i8x4) ∧
    (∀ f ∈ ([Safety.v3 (tP .f16x2) tO, Safety.x1 (tP .f16x2) tL] : List Safety.Form), Safety.runs tF (tMe tF) f .f16x2 .f32) ∧
    (ETy.e4m3x4, (8 : Int)) ∈ [(ETy.e4m3x4, (8 : Int)), (.e5m2x4, 15), (.dm8x4, 0), (.i8x4, 0)] ∧ ∀ f ∈ ([Safety.v3u (tP .e4m3x4) tU] : List Safety.Form), Safety.runs tF (tMe tF) f .f32 .e4m3x4 :=
  ⟨runs_all (by decide +kernel), by decide +kernel, runs_all (by decide +kernel), runs_all (by decide +kernel), by decide +kernel, runs_all (by decide +kernel)⟩

/-- Elements at their ends: −128 as i8 into n8, and 2.5, a NaN, infinity and zero as f32 into i32. -/
theorem test_witness_Conversions_elements : 0x80 < 2 ^ ETy.width .i8x4 ∧ ETy.isInt .n8x4 = true ∧ ETy.width .n8x4 ≤ ETy.width .i8x4 ∧ ETy.isInt .f32 = false ∧
    (ETy.fmtD .f32).decode 0x40200000 = .fin false 10485760 (-22) ∧ (ETy.fmtD .f32).decode 0x7FC00000 = .nan false ∧
    (ETy.fmtD .f32).decode 0x7F800000 = .inf false ∧ (ETy.fmtD .f32).decode 0 = .zero false := by decide +kernel

/-! ### Cross-thread, masks, accumulators, queues -/

/-- v9 holds the thread's number. -/
def tT : State := tState .execute (fun st => { (List.range 8).foldl (fun st t => st.vSet 9 t (BitVec.ofNat 32 t)) st with s := [(2, 3)], k := [(1, 0x12), (2, 0x0F)] }) id id

theorem test_step_cross : tGives tT [
      (.vshuf (tP .i32) ⟨false, .reg 5, .reg 9, .s 2⟩, 3), (.vshufX1 (tP .i32) ⟨.reg 5, .reg 9, .lit, 13⟩, 5), (.vbcast (tP .i32) ⟨false, .reg 5, .reg 9, .s 2⟩, 3),
      (.vbcastX1 (tP .i32) ⟨.reg 5, .reg 9, .lit, 7⟩, 7), (.vrott (tP .i32) ⟨false, .reg 5, .reg 9, .s 2⟩, 3), (.vrottX1 (tP .i32) ⟨.reg 5, .reg 9, .lit, 9⟩, 1),
      (.vred (tP .i32) (.reg 5) (.reg 9) .add, 28), (.vscan (tP .i32) (.reg 5) (.reg 9) .max true none, 0x80000000)] = true ∧
    tStrand tT (.vidx (tP .i32) ⟨false, .reg 5, .reg 9, .s 2⟩) (fun st => st.vGet 5 7 == 28) = true ∧
    tStrand tT (.vscan (tP .i32) (.reg 5) (.reg 9) .add true none) (fun st => st.vGet 5 7 == 21) = true ∧
    tStrand tT (.v2s (tP .i32) false 6 (.reg 9)) (fun st => st.sGet 6 == 0) = true := by decide +kernel

theorem test_step_masks : tStrand tT (.kop none .andn (.k 3) (.k 2) (.k 1)) (fun st => st.kGet 3 == 0x0D) = true ∧ tStrand tT (.kfroms none 3 2) (fun st => st.kGet 3 == 3) = true ∧
    tGives tT [(.ktos none false (.reg 5) (.k 1), 0x12), (.kpopc none false (.reg 5) .em, 8), (.kffs none false (.reg 5) (.k 1), 1), (.kffs none false (.reg 5) (.k 0), 8)] = true ∧
    tStrand tT (.setem none (.imm 0)) (fun st => (st.frags.headD Frag.free).em == 0) = true ∧ tStrand tT (.emsave none 4) (fun st => st.kGet 4 == 0xFF) = true ∧
    tStrand tT (.emrest none 2) (fun st => (st.frags.headD Frag.free).em == 0x0F) = true := by decide +kernel

theorem test_witness_CrossThread : ETy.isW .i32 = true ∧ ETy.isInt .i32 = true ∧ ETy.isFP .f32 = true ∧ (tMe tT).access = false ∧ (∀ f ∈ tForms .i32, Safety.runs tT (tMe tT) f .i32 .i32) ∧
    Safety.runs tT (tMe tT) ⟨tP .f32, pfxLen (tP .f32) 8, false, .reg 5, [.reg 9], 0⟩ .f32 .f32 ∧ Safety.reads tT (tMe tT) ⟨tP .i32, pfxLen (tP .i32) 4, true, .lit, [.reg 9], 0⟩ .i32 :=
  ⟨by decide +kernel, by decide +kernel, by decide +kernel, by decide +kernel, runs_all (by decide +kernel), runs_of_tRuns (by decide +kernel), reads_of_tReads (by decide +kernel)⟩

/-- EM as KOP, SETEM and EMREST write it, the empty mask among them. -/
theorem test_witness_MaskInstructions : tT.me = some (tMe tT) ∧ (tMe tT).em ≠ 0 ∧ (tMe tT).f.rc = 0 ∧ Safety.apart (tMe tT) ((tMe tT).pc + BitVec.ofNat 64 4) ∧
    (∀ e ∈ [(0x12 : TMask), 0x0F, 0], let at_ := Safety.moved (tMe tT) ((tMe tT).pc + BitVec.ofNat 64 4)
      let st := { at_ with frags := listAdjust at_.frags (tMe tT).fi (fun f => { f with em := e &&& f.fm }) }
      st.settleFrags = st) ∧ Safety.runs tT (tMe tT) ⟨none, 4, false, .reg 5, [], 0⟩ .i32 .i32 :=
  ⟨me_of_isSome (by decide +kernel), by decide +kernel, by decide +kernel, apart_of (by decide +kernel), by decide +kernel, runs_of_tRuns (by decide +kernel)⟩

/-- A matrix command that uses a tile. -/
def tCmd (n : Nat) (run : Bool) (left : Nat) : MEntry :=
  { id := 70, wg := loadWg, pc := 0, cmd := .zero n .fp32 false, ctr := 63, done := 0, left := left, running := run, em := 0xFF, uses := [n], wrecks := [], taint := [], mute := false, deps := [] }

/-- An execute strand beside a matrix command on tile 31; the descriptor in s2 names tile 30, row 63, columns 56 to 63. -/
def tTile : State := tState .execute (fun st => { tV 9 7 st with s := [(2, 0x383F1E)] }) id (fun s => s.updCore 0 (fun c => { c with mqueue := [tCmd 31 false 1] }))

theorem test_witness_AccumulatorAccess : (tMe tTile).access = false ∧ (tMe tTile).st.sGet 2 = 0x383F1E ∧ 30 < (tMe tTile).wg.acc ∧ 56 + 8 ≤ 64 ∧ (tMe tTile).wg.tileType 30 = .fp32 ∧
    (tMe tTile).wg.tileType 31 = .fp32 ∧ tTile.tileBusy loadWg 30 = false ∧ tTile.tileBusy loadWg 31 = true ∧
    (∀ f ∈ ([⟨none, pfxLen none 4, false, .reg 5, [.s 2], 0⟩, ⟨none, pfxLen none 8, false, .reg 5, [.lit], 0x383F1F⟩] : List Safety.Form), Safety.runs tTile (tMe tTile) f .n64 (effET none (tMe tTile).st.mode)) ∧
    ∀ f ∈ ([⟨none, pfxLen none 4, false, .lit, [.reg 9], 0⟩, ⟨none, pfxLen none 8, false, .lit, [.lit], 0x383F1E⟩] : List Safety.Form), Safety.reads tTile (tMe tTile) f .f32 :=
  ⟨by decide +kernel, by decide +kernel, by decide +kernel, by decide +kernel, by decide +kernel, by decide +kernel, by decide +kernel, by decide +kernel, runs_all (by decide +kernel), fun f hf => reads_of_tReads (by revert f; decide +kernel)⟩

/-- A write of tile 30 reads back, to its last column. -/
theorem test_step_acc : tGoes (exec (.acwr none false (.s 2) (.reg 9)) tTile) (fun t => (t.wgs.find loadWg).any (fun g => (g.tile 30).get (64 * 63 + 63) == 7)) = true ∧
    tGoes (exec (.acwrX1 none true (.lit) (.reg 9) 0x383F1E) tTile) (fun t => (t.wgs.find loadWg).any (fun g => (g.tile 30).get (64 * 63 + 56) == 7)) = true ∧
    tGives tTile [(.acrd none false (.reg 5) (.s 2), 0), (.acrdX1 none (.reg 5) .lit 0, 0)] = true := by decide +kernel

/-- A filled entry. -/
def tEntry (id : Nat) (tag : BitVec 2) (x : W32) : QEntry := { id := id, tag := tag, words := List.replicate 8 x, pend := none, poison := none, taken := [] }

/-- The strand of a slice with queue 15, of one channel with some entries. -/
def tQueue (sl : Slice) (kind : QKind) (bcast : Bool) (es : List QEntry) : State :=
  tState sl (tX 9 1) (fun g => { g with queues := [(15, ⟨⟨kind, bcast, 2⟩, [es]⟩)] }) id

/-- The queue of a state. -/
def tQ (s : State) : Queue := ((tMe s).queue 15).getD ⟨⟨.oq, false, 0⟩, []⟩

/-- What the queue statements ask of a strand with a queue. -/
def tQueueOk (s : State) : Bool := let m := tMe s
  s.me.isSome && decide (m.em ≠ 0) && decide (m.f.rc = 0) && m.pending.isNone && (m.queue 15).isSome && tApart s 4 && tApart s 8

/-- An execute consumer with one MARK entry, and one of a broadcast queue. -/
def tTaker (b : Bool) : State := tQueue .execute .oq b [tEntry 40 1 9]
/-- An execute producer with room for exactly one entry. -/
def tMaker : State := tQueue .execute .sq false [tEntry 40 0 9]
/-- An execute consumer at end of stream: no producer strand is left. -/
def tEnd : State := tQueue .execute .oq false []

/-- A pop of a MARK entry of a plain and of a broadcast queue. -/
theorem test_witness_QueueInstructions_pop : ∀ b, tQueueOk (tTaker b) = true ∧ (tQ (tTaker b)).decl.kind.consumer = (tMe (tTaker b)).sid.slice ∧
    ((tQ (tTaker b)).decl.bcast = true → (((tQ (tTaker b)).view 0).map QEntry.id).Nodup) ∧ (tTaker b).popRes loadWg 0 (tQ (tTaker b)) 1 = .ok (List.replicate 8 9) zeroWords 1 1 ∧
    posOk (tMe (tTaker b)).access (tMe (tTaker b)).wg.vregs 1 false (.reg 63) .f32 = true ∧ ∀ x l, (tQ (tTaker b)).view 0 = x :: l → x.pend = none := by
  intro b
  refine ⟨by revert b; decide +kernel, by revert b; decide +kernel, by revert b; decide +kernel, by revert b; decide +kernel, by revert b; decide +kernel, ?_⟩
  intro x l h
  have hx : ∀ b, (tQ (tTaker b)).view 0 = [tEntry 40 1 9] := by decide +kernel
  rw [hx b] at h
  injection h with h1 _
  rw [← h1]
  rfl

/-- A push that takes the last place, QCNT and QDROP at end of stream. -/
theorem test_witness_QueueInstructions_push : tQueueOk tMaker = true ∧ (tQ tMaker).decl.kind.producer = (tMe tMaker).sid.slice ∧ (tQ tMaker).decl.bcast = false ∧
    (tQ tMaker).channel 0 < (tQ tMaker).chans.length ∧ (tQ tMaker).room ((tQ tMaker).channel 0) = 1 ∧ tReads tMaker ⟨none, 4, false, .lit, [.reg 9], 0⟩ .f32 = true ∧
    tReads tMaker ⟨none, 8, false, .lit, [.reg 9], 0⟩ .f32 = true ∧ tRuns tMaker ⟨none, 4, false, .reg 5, [], 0⟩ .f32 .f32 = true ∧
    tQueueOk tEnd = true ∧ (tQ tEnd).view 0 = [] ∧ tEnd.producersGone loadWg (tQ tEnd) = true ∧ (tQ tEnd).decl.kind.consumer = (tMe tEnd).sid.slice := by decide +kernel

/-- End of stream with the producers gone, and an empty queue with a live access strand beside it. -/
def tWaits : State := { tEnd with strands := tEnd.strands ++ [(tStrandId .access, startStrand .access 0 0 0 false)] }

theorem test_witness_EndOfStream : tQueueOk tEnd = true ∧ (tQ tEnd).decl.kind.consumer = (tMe tEnd).sid.slice ∧ repTotal none = 1 ∧
    posOk (tMe tEnd).access (tMe tEnd).wg.vregs 1 false (.reg 5) .f32 = true ∧ (tQ tEnd).view 0 = [] ∧
    (∀ x ∈ tEnd.strands, x.1.wg = loadWg → x.1.slice = (tQ tEnd).decl.kind.producer → x.2.exited = true) ∧
    tQueueOk tWaits = true ∧ (tQ tWaits).view 0 = [] ∧ ¬ (∀ x ∈ tWaits.strands, x.1.wg = loadWg → x.1.slice = (tQ tWaits).decl.kind.producer → x.2.exited = true) := by decide +kernel

theorem test_step_queue : (∀ b, tStrand (tTaker b) (.deq none (.reg 5) 15) (fun st => st.vGet 5 7 == 9 && st.qt == 1) = true) ∧
    tGoes (exec (.enq none 15 (.reg 9) 1) tMaker) (fun t => (t.wgs.find loadWg).any (fun g => (g.queues.find 15).any (fun q => (q.view 0).length == 2))) = true ∧
    tGoes (exec (.enqX2 none 15 (.reg 9) 1 0) tMaker) (fun t => (t.wgs.find loadWg).any (fun g => (g.queues.find 15).any (fun q => (q.view 0).length == 2))) = true ∧
    tGives tMaker [(.qcnt none false (.reg 5) 15, 1)] = true ∧ tGives (tTaker false) [(.qcnt none false (.reg 5) 15, 0x10001)] = true ∧
    tStrand tEnd (.qdrop none 15) (fun st => st.qt == 2) = true ∧ tGoes (exec (.qdrop none 15) (tTaker false)) (fun t => (t.wgs.find loadWg).any (fun g => (g.queues.find 15).any (fun q => (q.view 0).isEmpty))) = true := by decide +kernel

/-! ### Vector instructions: EM = 0, legality, traps, blocking, repeats -/

/-- A strand whose fragment has no active thread. -/
def tOff (sl : Slice) : State := tState sl (fun st => { st with frags := listAdjust st.frags 0 (fun f => { f with em := 0 }) }) id id

/-- A plain and a yield-class instruction of the main map with EM = 0. -/
theorem test_witness_PredicatedOff : ∀ i ∈ ([.vadd none tO, .deq none (.reg 5) 15, .vadd (tP .i32) ⟨false, .queue 0, .reg 9, .queue 1⟩, .mloop none ⟨0, 1, 2, 0, false, 0, 0, false, 0⟩] : List Instr),
    (tOff .execute).me.isSome = true ∧ (tMe (tOff .execute)).em = 0 ∧ (tMe (tOff .execute)).f.rc = 0 ∧ (tMe (tOff .execute)).pending = none ∧ WellFormed i = true ∧ encode i ≠ [] ∧
    isMain (mainWord (encode i)) = true ∧ tApart (tOff .execute) i.length = true := by decide +kernel

/-- The last legal register, x31 and v63, is passed by one; an odd register for a 64-bit type; an integer constant that does not exist. -/
theorem test_witness_OperandLegality : tA.me = some (tMe tA) ∧ tE.me = some (tMe tE) ∧ (tMe tA).em ≠ 0 ∧ (tMe tE).em ≠ 0 ∧ repTotal (tP .f64) = 1 ∧ (tMe tE).wg.vregs = 64 ∧
    tTraps tA (.vmov none ⟨false, .reg 32, .reg 9⟩) 0x01 = true ∧ tTraps tE (.vmov (tP .f64) ⟨false, .reg 5, .reg 8⟩) 0x01 = true ∧ tTraps tE (.vmov (tP .i32) ⟨false, .reg 5, .const 5⟩) 0x01 = true :=
  ⟨me_of_isSome (by decide +kernel), me_of_isSome (by decide +kernel), by decide +kernel, by decide +kernel, by decide +kernel, by decide +kernel, by decide +kernel, by decide +kernel, by decide +kernel⟩

/-- An entry with POISON that keeps a record. -/
def tPoison : QEntry := { tEntry 40 3 0 with poison := some (Safety.record (tMe tE) 0x04 0x123) }

/-- Not legal: an integer instruction on f32; a pop at the producing end; POISON at the head. -/
theorem test_witness_VectorTraps : (tE.me.isSome && decide ((tMe tE).em ≠ 0) && decide ((tMe tE).f.rc = 0) && (tMe tE).pending.isNone) = true ∧
    (Safety.vecOf tE (tMe tE) (.vadd none tO)).any (fun v => !v.legalFor (tMe tE) .f32 1) = true ∧ tTraps tE (.vadd none tO) 0x01 = true ∧
    (let s := tMaker
     let m := tMe s
     (Safety.vecOf s m (.deq none (.reg 5) 15)).any (fun v => v.legalFor m .f32 1 && ((v.pops .f32).map Prod.fst).any (fun q => (m.queue q).any (fun x => decide (x.decl.kind.consumer ≠ m.sid.slice)))) = true ∧
       tTraps s (.deq none (.reg 5) 15) 0x0F = true) ∧
    (let s := tQueue .execute .oq false [tPoison]
     let m := tMe s
     (Safety.vecOf s m (.deq none (.reg 5) 15)).any (fun v => v.legalFor m .f32 1 && !s.xBusy m.sid (v.xUsed m .f32 1) && (v.pre s m .f32 0).isNone && ((v.dst .f32).queueNum).isNone &&
       (match s.popAll m (v.pops .f32) with | .poison (some _) => true | _ => false) && s.queuesReady m.sid (v.pops .f32) []) = true ∧ tTraps s (.deq none (.reg 5) 15) 0x03 = true) := by decide +kernel

/-- A pop of an empty queue with a live producer, and a push into a full channel. -/
theorem test_witness_QueueBlocking : tQueueOk tWaits = true ∧ (let s := tWaits
     let m := tMe s
     (Safety.vecOf s m (.deq none (.reg 5) 15)).any (fun v => v.legalFor m .f32 1 && m.directionOk ((v.pops .f32).map Prod.fst) (v.dst .f32).queueNum.toList && !s.xBusy m.sid (v.xUsed m .f32 1) &&
       (v.pre s m .f32 0).isNone && (v.pops .f32).any (fun p => (m.queue p.1).any (fun q => decide (s.popRes m.sid.wg m.sid.idx q p.2 = .wait)))) = true) ∧
    (let s := tQueue .execute .sq false [tEntry 40 0 1, tEntry 41 0 2]
     let m := tMe s
     (Safety.vecOf s m (.enq none 15 (.reg 9) 0)).any (fun v => v.legalFor m .f32 1 && m.directionOk [] (v.dst .f32).queueNum.toList && (v.pre s m .f32 0).isNone) = true ∧ (tQ s).room 0 < 1) := by decide +kernel

/-- Sixteen iterations at the end of the file: v48.. := v0.. + v16... -/
theorem test_witness_Repeats : let p : Pfx := ⟨some .i32, none, none, some ⟨15, true, true, true⟩⟩
    tE.me = some (tMe tE) ∧ (tMe tE).access = false ∧ (tMe tE).em ≠ 0 ∧ (tMe tE).f.rc = 0 ∧ effET (some p) (tMe tE).st.mode = .i32 ∧ effSat (some p) (tMe tE).st.mode = false ∧
    48 + 16 ≤ (tMe tE).wg.vregs ∧ 0 + 16 ≤ (tMe tE).wg.vregs ∧ (0 + 16 ≤ 48) ∧ Safety.apart (tMe tE) ((tMe tE).pc + 8) :=
  ⟨me_of_isSome (by decide +kernel), by decide +kernel, by decide +kernel, by decide +kernel, by decide +kernel, by decide +kernel, by decide +kernel, by decide +kernel, by decide +kernel, apart_of (n := 8) (by decide +kernel)⟩

theorem test_step_repeat : tStrand tE (.vadd (some ⟨some .i32, none, none, some ⟨3, true, true, false⟩⟩) ⟨false, .reg 40, .reg 8, .s 2⟩)
    (fun st => st.vGet 40 7 == 5 && st.vGet 41 7 == 0xFFFFFFFE && st.vGet 42 0 == 8 && st.vGet 43 0 == 5 && st.latchGet 0 0 == 5 && st.latchGet 1 0 == 8) = true := by decide +kernel

/-! ### Control, modes, special registers, traps -/

theorem test_witness_Branches : tS.me = some (tMe tS) ∧ (tMe tS).pending = none ∧ Safety.apart (tMe tS) ((tMe tS).pc + BitVec.ofNat 64 4) ∧ Safety.apart (tMe tS) ((tMe tS).pc + BitVec.ofNat 64 8) ∧
    ([(0x7FFF : BitVec 16), 0x8000, 0].all (fun off => let m := tMe tS
      let at_ := Safety.moved m ((m.pc &&& ~~~7#64) + (off.signExtend 64 <<< 3))
      decide (at_.settleFrags = at_))) = true ∧ ((tMe tS).st.sGet 1).extractLsb' 0 2 ≠ 0 ∧
    ((tMe tS).st.sGet 3).extractLsb' 0 2 = 0 :=
  ⟨me_of_isSome (by decide +kernel), by decide +kernel, apart_of (by decide +kernel), apart_of (by decide +kernel), by decide +kernel, by decide +kernel, by decide +kernel⟩

theorem test_step_branch : (let go (i : Instr) (pc : BitVec 62) : Bool := tStrand tS i (fun st => (st.frags.headD Frag.free).pc == pc)
    go .nop 0x4001 && go (.br 0x8000) 0x3FFFFFFFFFFF4000 && go (.brc .all 1 2) 0x4001 && go (.brc .any 1 2) 0x4004 && go (.brt 0 true 2) 0x4004 && go (.loop 2 2) 0x4004 && go (.loop 4 2) 0x4001 &&
    go (.call 6 2) 0x4004 && go (.ret 3) 0x2000000000000000 && go .yield 0x4001 && go (.brd 0 false 2 3) 0x4002 && go (.brd 0 true 2 3) 0x4004) = true ∧ tTraps tS (.ret 1) 0x01 = true ∧
    tStrand tS (.call 6 2) (fun st => st.sGet 6 == 0x10004) = true ∧ tStrand tS (.loop 2 2) (fun st => st.sGet 2 == 4) = true := by decide +kernel

/-- A waiting and a ready fragment. -/
def tFrag (st : FState) (born : Nat) (fm : TMask) : Frag := { Frag.free with st := st, born := born, fm := fm, em := fm, pc := 0x4100, join := 0x4200 }

/-- A strand with a full split table and room for some spilled entries. -/
def tFull (waits : Nat) (room : Nat) : State := tState .execute (fun st => { st with k := [(1, 0x12)], frags := st.frags.take 1 ++ List.replicate waits (tFrag .waiting 5 0) ++ List.replicate (7 - waits) (tFrag .ready 6 0xFF) }) (fun g => { g with spillRoom := room }) id

/-- Two free entries for the children at 1 and 2; and tables without: none waiting, no spill slot, one slot. -/
theorem test_witness_Divergence : tS.me = some (tMe tS) ∧ (tMe tS).pending = none ∧ ((tMe tS).f.em &&& (tMe tS).st.kGet 1) ≠ 0 ∧ ((tMe tS).f.em &&& (tMe tS).st.kGet 1) ≠ (tMe tS).f.em ∧
    ((tMe tS).st.frags[1]?).map Frag.st = some .free ∧ ((tMe tS).st.frags[2]?).map Frag.st = some .free ∧ ((tMe tS).st.frags[0]?).map Frag.st = some .ready ∧
    (Safety.moved (tMe tS) (tMe tS).pc).settleFrags = Safety.moved (tMe tS) (tMe tS).pc ∧
    (∀ p ∈ [(1, 9), (7, 0), (7, 1)], (let s := tFull p.1 p.2
      s.me.isSome = true ∧ (tMe s).pending = none ∧ ((tMe s).f.em &&& (tMe s).st.kGet 1) ≠ 0 ∧ ((tMe s).st.frags.filter (fun f => f.st = .free)).length = 0 ∧
      ((tMe s).st.frags.filter (fun f => f.st = .waiting)).length = p.1 ∧ (tMe s).wg.spillRoom = p.2 ∧ tTraps s (.brd 1 false 2 3) 0x0A = true)) :=
  ⟨me_of_isSome (by decide +kernel), by decide +kernel, by decide +kernel, by decide +kernel, by decide +kernel, by decide +kernel, by decide +kernel, by decide +kernel, by decide +kernel⟩

/-- One free entry, entry 3 the older of two that wait, and one spill slot. -/
def tSpill : State := tState .execute (fun st => { st with k := [(1, 0x12)], frags := st.frags.take 1 ++ [tFrag .ready 2 0xFF, { tFrag .waiting 9 1 with join := 0x7000, pc := 0x7000 },
    { tFrag .waiting 5 2 with join := 0x7000, pc := 0x7000 }, Frag.free] ++ List.replicate 3 (tFrag .ready 6 0xFF) }) (fun g => { g with spillRoom := 1, spillOff := 0x3000 }) id

theorem test_witness_Divergence_spill : (let s := tSpill
    let m := tMe s
    s.me.isSome && decide (m.fi = 0) && m.pending.isNone && decide ((m.f.em &&& m.st.kGet 1) ≠ 0) && decide ((m.f.em &&& m.st.kGet 1) ≠ m.f.em) && decide (m.st.frags.map Frag.st = [.ready, .ready, .waiting, .waiting, .free, .ready, .ready, .ready]) &&
      decide (m.st.frags.map Frag.born = [m.f.born, 2, 9, 5, Frag.free.born, 6, 6, 6]) && s.strands.all (fun x => x.2.spilled.isEmpty) && decide (m.wg.spillRoom = 1) &&
      decide ((Safety.moved m m.pc).settleFrags = Safety.moved m m.pc) &&
      tStrand s (.brd 1 false 2 3) (fun st => decide (st.spilled.map (fun p => (p.1, p.2.born)) = [(0, 5)]) && (st.frags[3]?).any (fun (f : Frag) => f.em == 0x12 || f.em == 0x02 || f.pc == 0x4004) &&
        (st.frags[4]?).any (fun (f : Frag) => f.pc == 0x4002))) = true := by decide +kernel

theorem test_step_diverge : tStrand tS (.brd 1 false 2 3) (fun st => (st.frags[1]?).any (fun (f : Frag) => f.em == 0x01 && f.pc == 0x4004) && (st.frags[2]?).any (fun (f : Frag) => f.em == 0xFE && f.pc == 0x4002) &&
    (st.frags[0]?).any (fun (f : Frag) => f.fm == 0 && f.st == .waiting && f.pc == 0x4006)) = true := by decide +kernel

/-- Two children of entry 1, one at its join and one about to reach it, in its handler. -/
def tJoin (sib : FState) (join : BitVec 62) : State :=
  let one : Frag := { tFrag .ready 2 0x0F with pc := 0x4000, join := join, pborn := some 1, parent := 1 }
  let parent : Frag := { tFrag .waiting 1 0 with pc := join, split := true, fm := 0, em := 0 }
  let other : Frag := { tFrag sib 3 0xF0 with pc := (if sib = .waiting then join else 0x4100), join := join, pborn := some 1, parent := 1 }
  let frame : Frame := { frag := 2, resume := join.setWidth 64 <<< 2, em := 0x07, k := [], latches := [], qt := 0, rc := 0, scan := none, mode := 2, s28 := [] }
  tState .execute (fun st => { st with frags := [one, parent, other] ++ List.replicate 5 Frag.free, frame := some frame }) id id

theorem test_witness_JoinFusion : [FState.waiting, .ready, .blocked].all (fun sib => [((0x4001 : BitVec 62), [Instr.nop, .yield, .rft]), (0x4004, [.br 2, .rft])].all (fun j => let s := tJoin sib j.1
    let m := tMe s
    s.me.isSome && m.st.spilled.isEmpty && decide (m.fi = 0) && (m.st.frags.drop 3).all (fun f => f.st = .free) && decide ((m.st.frags[1]?).map Frag.pc = some j.1) &&
      decide (m.f.fm ≠ 0) && decide (m.f.st = .ready) && m.pending.isNone && !m.f.split && decide (m.f.pborn = some 1) && decide (m.f.born ≠ 1) && decide (m.f.join = j.1) && decide (m.f.pc = 0x4000) &&
      (m.st.frags[1]?).any (fun (p : Frag) => decide (p.st = .waiting) && p.split && p.pborn.isNone && decide (p.born = 1)) &&
      (m.st.frags[2]?).any (fun (f : Frag) => decide (f.fm ≠ 0) && !f.split && decide (f.pborn = some 1) && decide (f.born ≠ 1) && decide (f.join = j.1) && decide (f.st = sib) &&
        (decide (f.st ≠ .ready) || decide (f.pc ≠ f.join))) &&
      j.2.all (fun i => tStrand s i (fun st => st.latches.isEmpty && if sib = .waiting then (st.frags[1]?).any (fun (f : Frag) => f.em == (if i = .rft then 0xF7 else 0xFF) && f.fm == 0xFF && f.st == .ready) else
        (st.frags[0]?).any (fun (f : Frag) => f.st == .waiting && f.pc == j.1))))) = true := by decide +kernel

/-- The whole fragment exits, half of it, and one with EM = 0. -/
theorem test_witness_Exit : ∀ em ∈ [(0xFF : TMask), 0x0F, 0], (let s := tState .execute (fun st => { st with frags := listAdjust st.frags 0 (fun f => { f with em := em }) }) id id
    let m := tMe s
    let fm : TMask := if m.f.em = 0 then 0 else m.f.fm &&& ~~~m.f.em
    let left := listSet m.st.frags m.fi (if fm = 0 then Frag.free else { m.f with fm := fm, em := 0, pc := m.f.pc + 1, st := .ready, wait := none })
    let last : Bool := left.all (fun f => f.st = .free) && m.st.spilled.isEmpty
    s.me.isSome = true ∧ m.pending = none ∧ m.f.split = false ∧ { ({ m.st with frags := left } : Strand).settleFrags with frame := m.st.frame } = { m.st with frags := left, exited := last } ∧
      tStrand s .exit (fun st => st.exited == last) = true) := by decide +kernel

theorem test_witness_ModeAndFlags : tS.me = some (tMe tS) ∧ Safety.apart (tMe tS) ((tMe tS).pc + BitVec.ofNat 64 4) ∧ ((tMe tS).st.sGet 3).extractLsb' 0 4 ≠ 15#4 ∧ ((tMe tS).st.sGet 3).extractLsb' 4 3 = 0 ∧
    ((tMe tS).st.sGet 1).extractLsb' 4 3 = 7#3 := ⟨me_of_isSome (by decide +kernel), apart_of (by decide +kernel), by decide +kernel, by decide +kernel, by decide +kernel⟩

theorem test_step_modes : tStrand tS (.setmode 2 false) (fun st => st.mode == 5) = true ∧ tStrand tS (.setmode 2 true) (fun st => st.srs.get 1 == 0x01010104) = true ∧
    tGivesS { tS with strands := tS.strands.map (fun p => (p.1, { p.2 with mode := 0x12, flags := 0x3F })) } [(.getmode 6, 0x12, 0x3F), (.flags 6 0x05, 0x3F, 0x3A)] = true ∧ tTraps tS (.setmode 1 false) 0x01 = true := by decide +kernel

theorem test_witness_SpecialRegisters : tS.me = some (tMe tS) ∧ Safety.apart (tMe tS) ((tMe tS).pc + BitVec.ofNat 64 4) := ⟨me_of_isSome (by decide +kernel), apart_of (by decide +kernel)⟩

theorem test_step_special : tGivesS tS [(.rdspec 6 .slice, 1, 0), (.rdspec 6 .gdimx, 1, 0), (.rdspec 6 .parent, 0xFFFFFFFFFFFFFFFF, 0), (.rdspec 6 .tidx, 0, 0)] = true := by decide +kernel

/-- With a handler, without one, and in one. -/
def tTrap (entry : W64) (inside : Bool) : State :=
  tState .execute (fun st => { st with s := [(28, 1), (29, 2)], k := [(3, 4)], fault := if inside then some (Safety.record (tMe tS) 0x11 9) else none, frame := if inside then some { frag := 0, resume := 0x4444, em := 0x0F, k := [(1, 2)], latches := [(0, 3)], qt := 1, rc := 2, scan := none, mode := 0x21, s28 := [(28, 7)] } else none })
    (fun g => { g with tentry := entry }) id

theorem test_step_trap : tStrand (tTrap 0x8000 false) (.trap 0xBEEF) (fun st => st.frame.any (fun f => f.resume == 0x10004) && st.fault.any (fun r => r.va == 0xBEEF && r.code == 0x11) &&
      (st.frags.headD Frag.free).pc == 0x2000) = true ∧ tGoes (exec (.trap 1) (tTrap 0 false)) (fun t => t.wgs.isEmpty) = true ∧ tTraps (tTrap 0 false) (.trap 1) 0x11 = true ∧
    tGoes (exec (.trap 1) (tTrap 0x8000 true)) (fun t => t.wgs.isEmpty) = true := by decide +kernel

theorem test_witness_TrapInstruction : ∀ p ∈ [((0x8000 : W64), false), (0, false), (0x8000, true)], (tTrap p.1 p.2).me = some (tMe (tTrap p.1 p.2)) :=
  have h : ([((0x8000 : W64), false), (0, false), (0x8000, true)].all (fun p => (tTrap p.1 p.2).me.isSome)) = true := by decide +kernel
  fun p hp => me_of_isSome (List.all_eq_true.mp h p hp)

/-- The strand with the trapped fragment as the return restores it. -/
def tBack (s : State) : Option Strand := let m := tMe s
  m.st.frame.map (fun fr => { m.st with frame := none, frags := listAdjust m.st.frags m.fi (fun f => { f with pc := fr.resume.extractLsb' 2 62, em := fr.em &&& f.fm, rc := fr.rc, scan := fr.scan }) })

/-- In the handler, outside one, and in another fragment than the trapped one. -/
theorem test_witness_TrapReturn : (let s := tTrap 0x8000 true; let m := tMe s
      s.me.isSome && decide (m.f.st = .ready) && m.st.frame.any (fun fr => decide (fr.frag = m.f.born) && fr.s28.all (fun p => decide (28 ≤ p.1)) && decide ((fr.s28.map Prod.fst).Nodup)) &&
        (tBack s).any (fun b => decide (b.settleFrags = b))) = true ∧
    (let s := tTrap 0x8000 false; s.me.isSome && (tMe s).st.frame.isNone) = true ∧
    (let s := tTrap 0x8000 true
     let u : State := { s with strands := s.strands.map (fun p => (p.1, { p.2 with frame := p.2.frame.map (fun f => { f with frag := 5 }) })) }
     u.me.isSome && (tMe u).st.frame.any (fun f => decide (f.frag ≠ (tMe u).f.born)) && tTraps u .rft 0x01) = true := by decide +kernel

theorem test_step_rft : tStrand (tTrap 0x8000 true) .rft (fun st => st.frame.isNone && (st.frags.headD Frag.free).pc == 0x1111 && (st.frags.headD Frag.free).em == 0x0F && st.sGet 28 == 7 && st.sGet 29 == 0 &&
      st.kGet 1 == 2 && st.mode == 0x21 && st.qt == 1) = true ∧ tTraps (tTrap 0x8000 false) .rft 0x01 = true := by decide +kernel

theorem test_witness_ReservedWords : tS.me = some (tMe tS) ∧ (tMe tS).pending = none ∧ (tMe tS).em ≠ 0 ∧ (tOff .execute).me = some (tMe (tOff .execute)) ∧ (tMe (tOff .execute)).em = 0 ∧
    (tMe (tOff .execute)).f.rc = 0 ∧ (∀ n ∈ [4, 8, 12], tApart (tOff .execute) n = true) ∧ tTraps tS (.reservedOpcode none 0x3FFFFFFF 0) 0x01 = true ∧
    tTraps (tOff .execute) (.reservedOpcode none 0x7F800000 0) 0x01 = true ∧ tTraps (tOff .execute) .orphanPrefix 0x02 = true :=
  ⟨me_of_isSome (by decide +kernel), by decide +kernel, by decide +kernel, me_of_isSome (by decide +kernel), by decide +kernel, by decide +kernel, by decide +kernel, by decide +kernel, by decide +kernel, by decide +kernel⟩

/-- A record, none, and a sample of the reading context. -/
theorem test_witness_FaultRecords : (tTrap 0x8000 true).me = some (tMe (tTrap 0x8000 true)) ∧ (tMe (tTrap 0x8000 true)).st.fault = some (Safety.record (tMe tS) 0x11 9) ∧ (tMe tS).st.fault = none ∧
    Safety.apart (tMe (tTrap 0x8000 true)) ((tMe (tTrap 0x8000 true)).pc + BitVec.ofNat 64 4) ∧
    (let s := { tS with cores := (tS.updCore 0 (fun c => { c with samples := [(4, ⟨0, [1, 2, 3, 4, 5, 6, 7, 8]⟩)] })).cores }
     (s.core 0).samples.find 4 = some ⟨0, [1, 2, 3, 4, 5, 6, 7, 8]⟩ ∧ tStrand s (.smprd 3 4) (fun st => st.sGet 31 == 8) = true) ∧
    tStrand (tTrap 0x8000 true) (.rdflt 7) (fun st => st.sGet 28 == 0 && st.sGet 29 == 0x10000 && st.sGet 30 == 9) = true :=
  ⟨me_of_isSome (by decide +kernel), by decide +kernel, by decide +kernel, apart_of (by decide +kernel), by decide +kernel, by decide +kernel⟩

/-- A comparator of one byte; an empty length; the execute slice. -/
theorem test_witness_Comparators : tA.me = some (tMe tA) ∧ (tMe tA).access = true ∧ (tMe tA).st.sGet 2 = 5 ∧ (tMe tA).st.sGet (30 + 1) = 0 ∧ tE.me = some (tMe tE) ∧ (tMe tE).access = false ∧
    Safety.apart (tMe tA) ((tMe tA).pc + BitVec.ofNat 64 4) ∧
    tGoes (exec (.wpset 7 true false false 1) tA) (fun t => (t.core 0).watches == [⟨7, true, false, false, 0, 5⟩]) = true ∧ tGoes (exec (.wpclr 7) tA) (fun t => (t.core 0).watches.isEmpty) = true ∧
    tGoes (exec .bkpt tA) (fun t => t.wgs.all (fun p => !p.2.stopAfter)) = true ∧ tTraps tA (.wpset 7 true false false 30) 0x01 = true ∧ tTraps tE (.wpclr 0) 0x01 = true :=
  ⟨me_of_isSome (by decide +kernel), by decide +kernel, by decide +kernel, by decide +kernel, me_of_isSome (by decide +kernel), by decide +kernel, apart_of (by decide +kernel), by decide +kernel, by decide +kernel, by decide +kernel, by decide +kernel, by decide +kernel⟩

/-! ### Accesses through records and to shared memory -/

/-- A thread property that holds of the eight threads holds wherever a mask has a bit. -/
theorem threads_all {em : TMask} {p : Nat → Bool} (h : threads.all (fun t => !TMask.has em t || p t) = true) : ∀ t, TMask.has em t = true → p t = true := by
  intro t ht
  have h8 : t < 8 := BitVec.lt_of_getLsbD ht
  have hm : t ∈ threads := by unfold threads; simp only [List.mem_cons, List.not_mem_nil, or_false]; omega
  have := List.all_eq_true.mp h t hm
  rw [ht] at this
  simpa using this

/-- The page of the test states as an access finds it. -/
def tLeaf (attr : Attr) : Leaf := { size := 12, base := loadAt, dev := none, attr := attr, r := true, w := true, x := true, a := true }

/-- `Safety.found` for a page, evaluated. -/
def tFound (s : State) (core ctx : Nat) (j : Joiner) (k : AKind) (va : W64) (n : Nat) (l : Leaf) : Bool :=
  [va.toNat / 256, (va + BitVec.ofNat 64 (n - 1)).toNat / 256].all (fun line => let x : W64 := BitVec.ofNat 64 (256 * line)
    (match s.accessPage core ctx x k with | (t, .ok p) => decide (t = s) && decide (p = l) | _ => false) && !s.failed j x && !s.waitsPage j x)

/-- What `tFound` evaluates. -/
theorem found_of {s : State} {core ctx : Nat} {j : Joiner} {k : AKind} {va : W64} {n : Nat} {l : Leaf} (h : tFound s core ctx j k va n l = true) : Safety.found s core ctx j k va n (.ok l) := by
  intro line hl
  have h' := List.all_eq_true.mp h line (by rcases hl with rfl | rfl <;> simp)
  simp only [Bool.and_eq_true, Bool.not_eq_true'] at h'
  obtain ⟨⟨h1, h2⟩, h3⟩ := h'
  refine ⟨?_, h2, h3⟩
  split at h1
  · rename_i heq
    obtain ⟨ht, hl⟩ := Bool.and_eq_true_iff.mp h1
    rw [heq, of_decide_eq_true ht, of_decide_eq_true hl]
  · cases h1

/-- `Safety.onPage` for that page, evaluated. -/
def tOnPage (s : State) (attr : Attr) (k : AKind) (wk : WKind) (va : W64) (n : Nat) : Bool :=
  let m := tMe s
  tFound s m.sid.wg.core m.wg.ctx (.inst m.sid m.f.born) k va n (tLeaf attr) && decide (attr ≠ .dev) && !s.watched m.sid.wg.core wk va n && (s.core m.sid.wg.core).mend.isEmpty

/-- What `tOnPage` evaluates. -/
theorem onPage_of {s : State} {attr : Attr} {k : AKind} {wk : WKind} {va : W64} {n : Nat} (h : tOnPage s attr k wk va n = true) : Safety.onPage s (tMe s) k wk va n (tLeaf attr) := by
  simp only [tOnPage, Bool.and_eq_true, decide_eq_true_eq, Bool.not_eq_true', List.isEmpty_iff] at h
  obtain ⟨⟨⟨h1, h2⟩, h5⟩, h6⟩ := h
  refine ⟨⟨found_of h1, h5, fun q hq => ?_⟩, rfl, h2⟩
  rw [h6] at hq; cases hq

/-- The test page's lines are at L2. -/
def tL2 (s : State) : State := (List.range 16).foldl (fun s k => s.l2Fill none (loadAt / 256 + k) 0xF) s

/-- An access strand with records: 1 of 16 words, 2 with OOBZ, 3 read-only, 4 malformed, 5 of bytes that the last element ends at the page's end, 6 of 32 bytes, 7 of 8 bytes;
x9 holds the thread's number, x10 the same value in every thread. -/
def tRec (attr : Attr) (x : W64) (h : Workgroup → Workgroup) (k : State → State) : State :=
  let r (n : Nat) (w0 w1 w2 w3 : W64) (g : Workgroup) : Workgroup := { g with shared := g.shared.setBytes (32 * n) ((w64Bytes w0) ++ (w64Bytes w1) ++ (w64Bytes w2) ++ (w64Bytes w3)) }
  tState .access (fun st => tX 10 x ((List.range 8).foldl (fun st t => st.xSet 9 t (BitVec.ofNat 64 t)) st))
    (fun g => h (r 1 0x10080 16 0x0200000004 0xAB (r 2 0x10080 4 0x10200000004 0 (r 3 0x10080 16 0x20200000004 0 (r 4 0x10080 16 0x9200000004 0 (r 5 0x10FF8 8 0x0000000001 0 (r 6 0x10080 4 0x0500000020 0 (r 7 0x10080 8 0x0300000008 0 g))))))))
    (fun s => tL2 (k (s.updCore 0 (fun c => { c with tlb := [{ loadPage with pte := (tLeaf attr).pte }] }))))

/-- `Safety.atHand` and `Safety.l1Room`, evaluated. -/
def tHand (s : State) (attr : Attr) (pa : Nat) : Bool := !isReg pa && s.served pa && s.here 0 (.phys attr pa) && decide (attr ≠ .cohf)
def tL1Room (s : State) (n : Nat) : Bool := decide ((s.core 0).l1.length + n ≤ s.l1Size 0 0 / 256)

theorem atHand_of {s : State} {attr : Attr} {pa : Nat} (h : tHand s attr pa = true) : Safety.atHand s 0 attr pa := by
  simp only [tHand, Bool.and_eq_true, Bool.not_eq_true', decide_eq_true_eq] at h
  exact ⟨h.1.1.1, h.1.1.2, h.1.2, fun e => absurd e h.2⟩

/-- A strand whose accesses the tests look at. -/
def tR : State := tRec .coh 0 id id

/-- What the access statements ask of every strand. -/
def tAsk (s : State) : Bool := let m := tMe s
  s.me.isSome && decide (m.em ≠ 0) && m.access && decide (m.f.rc = 0) && m.f.scan.isNone && m.pending.isNone && !s.acqHeld m && tApart s 4 && tApart s 8

/-- Offsets: the last words before the counter slots, behind them, at the end of the allocation and of the pipe region, and one byte further. -/
theorem test_witness_SharedAccesses : ([(0x0FFC, true), (0x0FFD, false), (0x13FF, false), (0x1400, true), (0x3FFC, true), (0x3FFD, false), (0x8001FFFC, true), (0x8001FFFD, false), (0x80020000, false),
      (0xFFFFFFFF, false)] : List (W64 × Bool)).all (fun p => let s := tRec .coh p.1 id id
    tAsk s && !s.xBusy (tMe s).sid [5, 10] && decide (s.inflight loadWg .ldsh < 1023) &&
      (if p.2 then tGoes (exec (.lds none 5 (.reg 10) .u32) s) (fun t => t.accs.length == 1) && tGoes (exec (.sts none .u32 (.reg 10) (.reg 9)) s) (fun t => t.inflight loadWg .sto == 1)
       else tTraps s (.lds none 5 (.reg 10) .u32) 0x05 && tTraps s (.sts none .u32 (.reg 10) (.reg 9)) 0x05)) = true := by decide +kernel

theorem test_step_shared : tGoes (exec (.ldsX1 none 5 .lit .s16 0x1400) tR) (fun t => t.accs.any (fun a => a.kind == .load 5 true && a.elems.length == 8)) = true ∧
    tGoes (exec (.stsX1 none .u32 (.reg 10) .lit 0x1400) tR) (fun t => t.accs.any (fun a => a.kind == .store && a.elems.any (fun e => e.thread == 7 && e.val == 0x1400 &&
      e.locs == [some (.shared loadWg 0), some (.shared loadWg 1), some (.shared loadWg 2), some (.shared loadWg 3)]))) = true := by decide +kernel

/-- Every active thread's element lies on the page: record 1's first and record 5's last byte, for each access kind; and the four traps in their order. -/
theorem test_witness_RecordAccesses : tAsk tR = true ∧ tR.inflight loadWg .ldg < 1023 ∧ (tR.core 0).mend.length < 256 ∧
    ([(.read, .r), (.write, .w), (.atomic, .a)] : List (AKind × WKind)).all (fun k => threads.all (fun t => tOnPage tR .coh k.1 k.2 (0x10080 + 4 * BitVec.ofNat 64 t) 4)) = true ∧
    tOnPage tR .coh .read .r 0x10FFF 1 = true ∧ (tR.bufRec (tMe tR) 1).bad (fun k => [1, 2, 4, 8].contains k) = false ∧ (tR.bufRec (tMe tR) 1).extent = 16 ∧
    tTraps tR (.ld none 5 (.reg 9) false 4) 0x0C = true ∧ tTraps tR (.st none (.reg 9) (.reg 10) 3) 0x04 = true ∧
    tTraps tR (.atom ⟨.dev, false, false, true, .add, 5, true, false, 5, 9, 10, 0⟩) 0x0C = true ∧ tTraps (tRec .coh 0x20 id id) (.ld none 5 (.reg 10) false 1) 0x05 = true ∧
    tTraps (tRec .coh 0x20 id (fun s => { s with wgs := s.wgs.map (fun p => (p.1, { p.2 with shared := p.2.shared.setBytes 32 (w64Bytes 0x10081) })) })) (.lda .dev 1 false false 5 9) 0x0D = true := by decide +kernel

/-- The record strand with another leaf in the TLB. -/
def tOther (l : Leaf) : State := tRec .coh 0 id (fun s => s.updCore 0 (fun c => { c with tlb := [{ loadPage with pte := l.pte }] }))

/-- A page found with one result, evaluated. -/
def tFinds (s : State) (va : W64) (p : Access → Bool) : Bool := let m := tMe s
  match s.accessPage 0 m.wg.ctx (va / 256 * 256) .read with | (t, r) => decide (t = s) && p r && !s.failed (.inst m.sid m.f.born) va && !s.waitsPage (.inst m.sid m.f.born) va

/-- Pages without R, a misaligned element on a DEV page, watched bytes, and a page of another device. -/
theorem test_witness_RecordAccesses_page :
    (let s := tOther { tLeaf .coh with r := false }; tAsk s && tFinds s 0x10080 (· == .fail) && tTraps s (.ld none 5 (.reg 9) false 1) 0x04) = true ∧
    (let s := tOther (tLeaf .dev); tAsk s && tFinds s 0x10080 (· == .ok (tLeaf .dev)) && tTraps s (.ld none 5 (.reg 9) false 5) 0x0D && tGoes (exec (.ld none 5 (.reg 9) false 1) s) (fun t => t.accs.length == 1)) = true ∧
    (let s := tR.updCore 0 (fun c => { c with watches := [⟨3, true, false, false, 0x10084, 4⟩] }); tAsk s && s.watched 0 .r 0x10084 4 && !s.watched 0 .r 0x10080 4 && !(tMe s).st.watchSkip &&
      tTraps s (.ld none 5 (.reg 9) false 1) 0x06) = true ∧
    (let l := { tLeaf .cohf with dev := some 7 }; let s := tOther l; tAsk s && tFinds s 0x10080 (· == .ok l) && tGoes (exec (.ld none 5 (.reg 9) false 1) s) (fun t => t.accs.any (fun a => a.path == some .fab))) = true := by decide +kernel

/-- A page that needs service: a load waits and asks, a store enters the Mend log and asks. -/
def tServe : State := tRec .coh 0 id (fun s => (s.updCore 0 (fun c => { c with tlb := [] })).setPhysBytes 0 (w64Bytes 4))

theorem test_witness_RecordAccesses_service : (tAsk tServe && (tServe.accessPage 0 (tMe tServe).wg.ctx 0x10000 .read).2 == .service && tServe.pageReqs.isEmpty && (tServe.core 0).mend.isEmpty &&
      !tServe.failed (.inst (tMe tServe).sid (tMe tServe).f.born) 0x10000 && decide (tServe.inflight loadWg .sto < 1023)) = true ∧
    tGoes (exec (.ld none 5 (.reg 9) false 1) tServe) (fun t => t.accs.isEmpty && t.pageReqs.any (fun r => r.vpage == 0x10 && r.joined.length == 1) && t.strands == tServe.strands) = true ∧
    tGoes (exec (.st none (.reg 9) (.reg 10) 1) tServe) (fun t => (t.core 0).mend.any (fun e => e.line == 0x10000 && e.parts.length == 8) && t.pageReqs.length == 1) = true := by decide +kernel

theorem test_step_record : tGoes (exec (.ld none 5 (.reg 9) true 1) tR) (fun t => t.accs.any (fun a => a.kind == .load 5 true && a.elems.any (fun e => e.thread == 7 && e.va == 0x1009C &&
      e.locs.headD none == some (.phys .coh 0x1009C)))) = true ∧ tGoes (exec (.st none (.reg 9) (.reg 9) 1) tR) (fun t => t.accs.any (fun a => a.elems.any (fun e => e.thread == 7 && e.val == 7))) = true ∧
    tGoes (exec (.ld none 5 (.reg 9) true 2) tR) (fun t => t.accs.any (fun a => a.elems.any (fun e => e.thread == 7 && e.locs == [none, none, none, none]))) = true ∧
    tGoes (exec (.atom ⟨.dev, true, true, true, .add, 1, false, true, 5, 9, 10, 0⟩) tR) (fun t => t.accs.any (fun a => a.kind == .atom .add true (some 5) && a.acq)) = true ∧
    tGoes (exec (.atomf ⟨.dev, false, false, false, .max, 1, false, 0, 9, 10⟩) tR) (fun t => t.accs.any (fun a => a.kind == .atomf .max false none && a.path == some .sto)) = true ∧
    tGoes (exec (.lda .dev 1 false true 5 9) tR) (fun t => t.accs.any (fun a => a.kind == .load 5 false && a.acq)) = true ∧
    tGoes (exec (.strel .sys 1 false 9 10) tR) (fun t => t.accs.any (fun a => a.kind == .store && a.path == some .sto)) = true := by decide +kernel

/-! ### Accesses that perform, and queues on the access side -/

/-- The state after a step that goes on. -/
def tAfter (i : Instr) (s : State) : State := match exec i s with | .next t => t | _ => s

/-- Adjust the strand of a test state. -/
def tStr (g : Strand → Strand) (s : State) : State := { s with strands := s.strands.map (fun p => (p.1, g p.2)) }

/-- An access with an element of thread 7 that can perform now. -/
def tReady (s : State) (a : Machine.Acc) : Bool :=
  decide (s.accs.find? (fun x => x.id = a.id) = some a) && s.canPerform a && !a.dev && a.lines.all (fun k => !k.one) && decide ((a.elems.map Elem.thread).Nodup) && (s.strands.find a.strand).isSome &&
  a.elems.any (fun e => decide (e.thread = 7) && !e.done && decide ((e.places.map (fun l => match l with | .phys _ pa => pa | .shared _ o => o | .pipe _ o => o | .remote _ _ pa => pa)).Nodup) && decide (e.locs.length ≤ 8) && tL1Room s 8 && e.places.all (fun l => match l with
    | .remote _ _ _ => false
    | .phys _ pa => !isReg pa
    | .shared w off => !s.landing w off && (s.wgs.find w).isSome
    | .pipe _ _ => true))

/-- Memory of the test page: the word at 0x1009C is −16. -/
def tMem : State := tRec .coh 0 id (fun s => s.setPhysBytes 0x1009C [0xF0, 0xFF, 0xFF, 0xFF])

/-- R341: a load that has joined a page request waits for its answer, although the page is valid by now. -/
theorem test_page_wait : (let m := tMe tMem; let s := { tMem with pageReqs := [⟨6, 0, 0, 0x10, .read, false, [.inst m.sid m.f.born]⟩] };
    tGoes (exec (.ld none 5 (.reg 9) true 1) s) (fun t => t.accs.isEmpty && t.pageReqs.length == 1) &&
    tGoes (exec (.ld none 5 (.reg 9) true 1) (tAfter (.pageDone 6 true) s)) (fun t => t.accs.length == 1)) = true := by decide +kernel

/-- A load, a store and an atomic of one element: what they ask, and what the event leaves. -/
theorem test_witness_AccessPerforms :
    (let s := tAfter (.ld none 5 (.reg 9) true 1) tMem
     s.accs.any (fun a => tReady s a && decide (a.kind = AccKind.load 5 true) && tGoes (exec (.loadReturn a.id 0x80) s) (fun t => t.strands.any (fun p => p.2.xGet 5 7 == 0xFFFFFFFFFFFFFFF0)))) = true ∧
    (let s := tAfter (.st none (.reg 9) (.reg 9) 1) tMem
     s.accs.any (fun a => tReady s a && decide (a.kind = .store) && tGoes (exec (.storePerformed a.id 0x80) s) (fun t => t.physByte 0x1009C == 7 && t.physByte 0x1009D == 0))) = true ∧
    (let s := tAfter (.atom ⟨.dev, false, false, true, .max, 1, false, false, 5, 9, 10, 0⟩) (tStr (fun st => { st with frags := listAdjust st.frags 0 (fun f => { f with em := 0x80 }) }) tMem)
     s.accs.any (fun a => tReady s a && decide (a.kind = .atom .max false (some 5)) && decide (a.elems.map Elem.locs = [(List.range 4).map (fun i => some (.phys .coh (0x1009C + i)))]) &&
        tGoes (exec (.loadReturn a.id 0x80) s) (fun t => t.physByte 0x1009C == 0 && t.strands.any (fun p => p.2.xGet 5 7 == 0xFFFFFFFFFFFFFFF0)))) = true := by decide +kernel

/-- An access strand with records and queue 15. -/
def tRQ (kind : QKind) (depth : Nat) (es : List QEntry) (x : W64) (k : State → State) : State := tRec .coh x (fun g => { g with queues := [(15, ⟨⟨kind, false, depth⟩, [es]⟩), (14, ⟨⟨.oq, false, 2⟩, [[]]⟩)] }) k

/-- What the queue loads ask, with room for n entries. -/
def tRoom (s : State) (n : Nat) : Bool := tAsk s && decide ((tQ s).decl.kind.producer = .access) && (s.core 0).watches.isEmpty && decide ((tQ s).channel 0 < (tQ s).chans.length) && decide (n ≤ (tQ s).room 0)

/-- One entry, the two of an 8-byte record in a channel that holds just these, malformed, out of bounds; the largest counts and one more. -/
theorem test_witness_QueueLoads : tRoom (tRQ .oq 1 [] 0 id) 1 = true ∧ ((tRQ .oq 1 [] 0 id).bufRec (tMe (tRQ .oq 1 [] 0 id)) 1).ecode = 2 ∧
    tRoom (tRQ .oq 2 [] 0 id) 2 = true ∧ ((tRQ .oq 2 [] 0 id).bufRec (tMe (tRQ .oq 2 [] 0 id)) 7).ecode = 3 ∧
    (let s := tRQ .oq 4096 [] 4096 id
     tRoom s 4096 = true ∧ ((tMe s).uni 0 (.reg 10)).toNat = 4096) ∧ tTraps (tRQ .oq 4096 [] 4097 id) (.ldqb none ⟨15, .s 0, .reg 10, 1, false, false, false, .unnamed⟩) 0x05 = true ∧
    (let s := tRQ .oq 64 [] 64 id
     tRoom s 64 = true ∧ ((tMe s).uni 0 (.reg 10)).toNat = 64) ∧ tTraps (tRQ .oq 64 [] 65 id) (.gatherqList none ⟨15, .s 0, .reg 10, 6, false, .unnamed, 1⟩) 0x05 = true ∧
    (let s := tRQ .oq 256 [] 0x2000 id
     tRoom s 256 = true ∧ ((tMe s).uni 0 (.reg 10)).toNat + 32 * 256 = (tMe s).wg.size ∧ s.accs = [] ∧ s.copies = []) ∧
    tTraps (tRQ .oq 256 [] 0x2004 id) (.ldsq none 15 (.reg 10) false 255 .unnamed) 0x05 = true ∧ tTraps (tRQ .oq 1 [] 0x2002 id) (.ldsq none 15 (.reg 10) false 0 .unnamed) 0x0D = true := by decide +kernel

/-- The entries of queue 15 after a step. -/
def tEntries (s : State) (i : Instr) (p : List QEntry → Bool) : Bool := tGoes (exec i s) (fun t => (t.wgs.find loadWg).any (fun g => (g.queues.find 15).any (fun q => p (q.view 0))))

theorem test_step_queue_loads : tEntries (tRQ .oq 2 [] 0 id) (.ldq none 15 (.reg 9) false 7 .unnamed) (fun es => es.length == 2 && (es[0]?).any (fun e => e.pend.any (fun p => p.hi.isSome && p.fetches.length == 8 && p.fetches.any (fun f => f.word == 7 && f.va == 0x100B8))) && (es[1]?).any (fun e => e.pend.any (fun p => p.lo.isSome && p.fetches.isEmpty))) = true ∧
    tEntries (tRQ .oq 2 [] 0 id) (.gatherq none 15 (.reg 9) 2 true false .unnamed) (fun es => es.all (fun e => e.pend.any (fun p => p.mark && p.fetches.length == 4))) = true ∧
    tEntries (tRQ .oq 2 [] 0 id) (.ldq none 15 (.reg 9) false 4 .unnamed) (fun es => es.all (fun e => e.tag == 3 && e.poison.any (fun r => r.cause == 0x0C))) = true ∧
    tEntries (tRQ .oq 2 [] 2 id) (.ldqb none ⟨15, .s 0, .reg 10, 1, false, true, false, .unnamed⟩) (fun es => es.length == 2 && (es[1]?).any (fun e => e.pend.any (fun p => p.mark && p.fetches.any (fun f => f.word == 7 && f.va == 0x100BC)))) = true ∧
    tEntries (tRQ .oq 2 [] 2 id) (.gatherqList none ⟨15, .s 0, .reg 10, 6, false, .unnamed, 1⟩) (fun es => es.length == 2 && es.all (fun e => e.pend.any (fun p => p.wide && p.list.isSome))) = true ∧
    tEntries (tRQ .oq 2 [] 0x20 id) (.ldsq none 15 (.reg 10) true 1 .unnamed) (fun es => es.length == 2 && (es[0]?).any (fun e => e.tag == 0 && e.word 0 == 0x10080 && e.word 2 == 16) && (es[1]?).any (fun e => e.tag == 1)) = true := by decide +kernel

/-- The state with one entry of eight words pending, on a page that may be read or not. -/
def tFill (r : Bool) : State := (tAfter (.ldq none 15 (.reg 9) true 1 .unnamed) (tRQ .oq 1 [] 0 (fun s => s.setPhysBytes 0x1009C [0xF0, 0xFF, 0xFF, 0xFF]))).updCore 0
  (fun c => { c with tlb := [{ loadPage with pte := ({ tLeaf .coh with r := r }).pte }] })

/-- An element's lines are found with one result, and its bytes are at hand. -/
def tFetch (s : State) (id : Nat) (f : Fetch) (r : Bool) : Bool :=
  [f.va.toNat / 256, (f.va + BitVec.ofNat 64 (f.size - 1)).toNat / 256].all (fun line => let x : W64 := BitVec.ofNat 64 (256 * line)
    (match s.accessPage 0 0 x .read with | (t, .ok l) => decide (t = s) && decide (l = tLeaf .coh) && r | (t, .fail) => decide (t = s) && !r | _ => false) &&
      !s.failed (.entry id) x && !s.waitsPage (.entry id) x) &&
  (!r || (List.range f.size).all (fun i => let pa := (tLeaf .coh).pa (f.va + BitVec.ofNat 64 i); !isReg pa && s.served pa && s.here 0 (.phys .coh pa)))

theorem test_witness_EntryFills : ∀ r, (let s := tFill r
    (s.wgs.head?).any (fun x => x.2.entries.any (fun e => e.pend.any (fun p => decide ((s.pendEntry e.id).map (fun y => (y.1, y.2.2)) = some (loadWg, e, p)) && !p.ue && p.list.isNone && p.lo.isNone && p.hi.isNone && !p.splat &&
      p.lines.isEmpty && p.buf.isEmpty && x.2.ctx == 0 && s.ready loadWg p.deps && decide ((p.fetches.map Fetch.word).Nodup) && decide (p.fetches.length = 8) &&
      p.fetches.all (fun f => decide (f.word < 8) && tFetch s e.id f r) &&
      tGoes (exec (.queueEntryFill e.id) s) (fun t => (t.wgs.find loadWg).any (fun g => (g.queues.find 15).any (fun q => (q.view 0).any (fun e => e.pend.isNone && (if r then e.tag == 0 && e.word 7 == 0xFFFFFFF0 else e.tag == 3 && e.poison.any (fun r => r.mask == 0xFF && r.cause == 0x04)))))))))) = true := by decide +kernel

/-- R219: the low and the high words of 8-byte elements are filled together from one read of each. -/
theorem test_fill_pair : (let s := tAfter (.ldq none 15 (.reg 9) false 7 .unnamed) (tRQ .oq 2 [] 0 (fun s => s.setPhysBytes 0x100B8 [1, 0, 0, 0, 2, 0, 0, 0]));
    ((tQ s).view 0).head?.any (fun e => e.pend.any (fun p => p.hi.isSome) && tGoes (exec (.queueEntryFill e.id) s) (fun t => (t.wgs.find loadWg).any (fun g => (g.queues.find 15).any (fun q =>
      (q.view 0).map (fun e => (e.pend.isNone, e.word 7)) == [(true, 1), (true, 2)]))))) = true := by decide +kernel

/-- Entries of a store queue: DATA, EOS, MARK; elements on the page; and the whole allocation for STSQ. -/
theorem test_witness_QueueStores : (let s := tRQ .sq 2 [tEntry 40 1 9] 0 id
     tAsk s && decide ((tQ s).decl.kind = .sq) && decide (s.popRes loadWg 0 (tQ s) 1 = .ok (List.replicate 8 9) zeroWords 1 1) && !(s.bufRec (tMe s) 1).ro && threads.all (fun t => tOnPage s .coh .write .w (0x10080 + 4 * BitVec.ofNat 64 t) 4) &&
       decide (s.inflight loadWg .sto < 1023) && decide ((s.core 0).mend.length < 256)) = true ∧
    (let s := tRQ .sq 2 [tEntry 40 2 0] 0 id
     tAsk s && decide (s.popRes loadWg 0 (tQ s) 1 = .ok (List.replicate 8 0) zeroWords 2 1)) = true ∧
    (let s := tRQ .sq 2 [tEntry 40 0 5, tEntry 41 1 6] 0x3FC0 id
     tAsk s && decide (((tQ s).view 0).length = 2) && decide (0x3FC0 + 32 * 2 = (tMe s).wg.size) && decide (s.inflight loadWg .sto + 2 ≤ 1023)) = true ∧
    (let s := tRQ .sq 2 [tEntry 40 0 5, tEntry 41 2 0] 0x2000 id
     tAsk s && ((tQ s).view 0)[1]?.any (fun e => e.pend.isNone && decide (e.tag = 2))) = true ∧
    tTraps (tRQ .sq 2 [] 0x3FC4 id) (.stsq none 15 (.reg 10) 1) 0x05 = true ∧ tTraps (tRQ .sq 2 [] 0x2001 id) (.stsq none 15 (.reg 10) 1) 0x0D = true := by decide +kernel

theorem test_step_queue_stores : tGoes (exec (.stq none 15 (.s 0) 1) (tRQ .sq 2 [tEntry 40 1 9] 0 id)) (fun t => t.accs.any (fun a => a.elems.any (fun e => e.thread == 7 && e.va == 0x1009C && e.val == 9)) && t.strands.any (fun p => p.2.qt == 1)) = true ∧
    tGoes (exec (.scatq none 15 (.reg 10) 1) (tRQ .sq 2 [tEntry 40 0 9] 3 id)) (fun t => t.accs.any (fun a => a.elems.any (fun e => e.thread == 7 && e.va == 0x1008C && e.locs.headD none == some (.phys .coh 0x1008C)))) = true ∧
    tGoes (exec (.stsq none 15 (.reg 10) 1) (tRQ .sq 2 [tEntry 40 0 5, tEntry 41 2 0] 0x2000 id)) (fun t => t.accs.length == 1 && t.strands.any (fun p => p.2.qt == 2)) = true := by decide +kernel

/-- A scan of three words, the last one not zero; none; too many; the same queue twice; a malformed record. -/
def tScan (n : W64) : State := tStr (fun st => { st with s := [(2, 5), (3, n)] }) (tRQ .oq 1 [] 0 (fun s => s.setPhysBytes 0x1009C [0xF0, 0xFF, 0xFF, 0xFF]))

theorem test_witness_ZeroScan : ([0, 3] : List Nat).all (fun n => let s := tScan (BitVec.ofNat 64 n)
      tAsk s && s.accs.isEmpty && (tMe s).pendings.isEmpty && (s.mends (tMe s).sid).isEmpty && ((tMe s).queue 14).any (fun q => decide (q.room 0 = 2) && decide (q.decl.kind.producer = .access)) && decide ((tQ s).room 0 = 1) &&
        (List.range n).all (fun k => decide (5 + k < (s.bufRec (tMe s) 1).extent) && tOnPage s .coh .read .r (0x10080 + 4 * BitVec.ofNat 64 (5 + k)) 4 &&
          (List.range 4).all (fun b => let pa := 0x10080 + 4 * (5 + k) + b; s.served pa && !isReg pa && s.here 0 (.phys .coh pa))) && decide ((s.core 0).l1.length + 2 * n ≤ s.l1Size 0 0 / 256)) = true ∧
    tAsk (tScan 0x100001) = true ∧ 2 ^ 20 < ((tMe (tScan 0x100001)).st.sGet 3).toNat ∧
    WellFormed (.nzscan none ⟨6, 2, 3, 1, 15, some 15, false, false, .unnamed⟩) = false ∧
    tEntries (tScan 3) (.nzscan none ⟨6, 2, 3, 4, 15, none, false, false, .unnamed⟩) (fun es => es.any (fun e => e.poison.any (fun r => r.cause == 0x0C))) = true := by decide +kernel

theorem test_step_scan : tEntries (tScan 3) (.nzscan none ⟨6, 2, 3, 1, 15, some 14, true, true, .unnamed⟩) (fun es => es.any (fun e => e.tag == 1 && e.word 0 == 7 && e.word 1 == 0)) = true ∧
    tStrand (tScan 3) (.nzscan none ⟨6, 2, 3, 1, 15, none, true, true, .unnamed⟩) (fun st => st.sGet 6 == 1) = true := by decide +kernel

/-! ### Full/empty lines, header, counters of accesses, engine commands -/

/-- x10 an offset, x11 offsets in eight lines; line 40 (offset 0x1400) full or not. -/
def tLine (x : W64) (full : Bool) : State :=
  tStr (fun st => (List.range 8).foldl (fun st t => st.xSet 11 t (BitVec.ofNat 64 (0x1400 + 128 * t))) st) (tRec .coh x (fun g => { g with full := if full then [(40, 1)] else [] }) id)

/-- Misaligned; several lines; a line in the state that LDC or STF wants, and in the other. -/
theorem test_witness_FullEmpty : (∀ full, (let s := tLine 0x147C full
      tAsk s && !s.xBusy (tMe s).sid [5, 9, 10] && s.accs.isEmpty && s.copies.isEmpty && (tMe s).pendings.isEmpty && (s.mends (tMe s).sid).isEmpty && decide (s.fullBit loadWg 40 = full) && (s.feWaiters loadWg 40).isEmpty &&
        decide (s.inflight loadWg .sto < 1023) && decide (0x147C % 4 = 0) && decide (0x147C / 128 = 40)) = true) ∧
    tTraps (tLine 0x147D true) (.ldc none 5 (.reg 10) .u32) 0x0D = true ∧ tTraps (tLine 0x147E false) (.stf none .u32 (.reg 10) (.reg 9)) 0x0D = true ∧
    tTraps (tLine 0 true) (.ldc none 5 (.reg 11) .u32) 0x0D = true ∧ tTraps (tLine 0 false) (.stf none .u32 (.reg 11) (.reg 9)) 0x0D = true := by decide +kernel

theorem test_step_full : tGoes (exec (.ldc none 5 (.reg 10) .u32) (tLine 0x147C true)) (fun t => !t.fullBit loadWg 40 && t.accs.any (fun a => a.kind == .deliver 5)) = true ∧
    tGoes (exec (.ldc none 5 (.reg 10) .u32) (tLine 0x147C false)) (fun t => (t.feWaiters loadWg 40).length == 1) = true ∧
    tGoes (exec (.stf none .u32 (.reg 10) (.reg 9)) (tLine 0x147C false)) (fun t => t.fullBit loadWg 40 && t.readByte 0 (.shared loadWg 0x147C) == 7) = true ∧
    tGoes (exec (.stf none .u32 (.reg 10) (.reg 9)) (tLine 0x147C true)) (fun t => (t.feWaiters loadWg 40).length == 1) = true ∧
    tStrand (tLine 0 true) (.feq none false 5 (.reg 11) .empty) (fun st => st.xGet 5 0 == 1 && st.xGet 5 1 == 0) = true ∧
    tGoes (exec (.feq none false 5 (.reg 11) .fill) (tLine 0 false)) (fun t => t.fullBit loadWg 40 && t.fullBit loadWg 47 && !t.fullBit loadWg 48) = true := by decide +kernel

/-- A region of two slots at the end of the allocation, idle, with a delivery, one slot too many, beside another region, upon it. -/
def tLand (claims : List Nat) : State := tStr (tX 11 3 ∘ tX 12 2) (tRec .coh 0x2000 (fun g => { g with landings := [⟨1, 0x2000, 2, [0], claims⟩] }) id)

/-- Fifteen or sixteen prefetches of the workgroup. -/
def tPfs (n : Nat) : State := tRec .coh 1 id (fun s => { s with prefetches := (List.range n).map (fun i => ⟨100 + i, (tMe s).wg.task, 0, 0, 0, false, 0x10000, 64, 63, 0, []⟩) })

theorem test_witness_HeaderAndCounters : tAsk tR = true ∧ (∀ y ∈ tR.accs, y.strand ≠ (tMe tR).sid) ∧ tR.inflight loadWg .ldsh = 0 ∧ ((tMe tR).uni 0 (.reg 10)).toNat = 0 ∧
    (let s := tAfter (.lds none 5 (.reg 10) .u32) tR
     tAsk s && decide (s.inflight loadWg .ldsh = 1) && !s.xBusy (tMe s).sid [10]) = true ∧
    tAsk (tLand []) = true ∧ (tLand []).xBusy (tMe (tLand [])).sid [10, 11, 12] = false ∧ 0x2000 + 4096 * 2 = (tMe (tLand [])).wg.size ∧
    tTraps (tLand []) (.land none 1 (.reg 10) (.reg 11)) 0x05 = true ∧ tTraps (tLand []) (.land none 2 (.reg 10) (.reg 12)) 0x05 = true ∧
    tAsk (tPfs 15) = true ∧ ((tPfs 15).prefetches.filter (fun f => f.task = (tMe (tPfs 15)).wg.task)).length = 15 ∧ tAsk (tPfs 16) = true ∧
    ((tPfs 16).prefetches.filter (fun f => f.task = (tMe (tPfs 16)).wg.task)).length = 16 := by decide +kernel

theorem test_step_header : tGoes (exec (.bfset none 1 3 (.reg 9)) tR) (fun t => t.accs.any (fun a => a.elems.any (fun e => e.val == 0 && e.locs.headD none == some (.shared loadWg 56)))) = true ∧
    tStrand tR (.bfget none false 5 1 1) (fun st => st.xGet 5 7 == 16) = true ∧ tStrand (tAfter (.lds none 5 (.reg 10) .u32) tR) (.infl none false 6 .ldsh) (fun st => st.xGet 6 7 == 1) = true ∧
    tStrand tR (.waitf none .ldsh (.s 0)) (fun st => (st.frags.headD Frag.free).st == .ready) = true ∧
    tStrand (tAfter (.lds none 5 (.reg 10) .u32) tR) (.waitf none .ldsh (.s 0)) (fun st => (st.frags.headD Frag.free).st == .blocked) = true ∧
    tGoes (exec (.land none 1 (.reg 10) (.reg 12)) (tLand [])) (fun t => (t.wgs.find loadWg).any (fun g => g.landings == [⟨1, 0x2000, 2, [0, 1], []⟩])) = true ∧
    tStrand (tLand [1]) (.land none 1 (.reg 10) (.reg 12)) (fun st => (st.frags.headD Frag.free).st == .blocked) = true ∧
    tGoes (exec (.pfr none (.reg 10) (.reg 10) 5) (tPfs 15)) (fun t => t.prefetches.length == 16) = true ∧ tGoes (exec (.pft none (.reg 10) (.s 0) 5) (tPfs 15)) (fun t => t.prefetches.length == 15) = true ∧
    tStrand (tPfs 16) (.pfr none (.reg 10) (.s 0) 5) (fun st => (st.frags.headD Frag.free).st == .blocked) = true := by decide +kernel

/-- The issuer, or another strand, with n commands in the queue; s2 describes 64 by 64 elements of f16 at 0x2000, which end with the allocation. -/
def tMat (issuer n : Nat) : State := tStr (fun st => { st with s := [(2, 0x300100002000), (3, 0x300100002040)] })
  (tRec .coh 0 (fun g => { g with issuer := issuer }) (fun s => s.updCore 0 (fun c => { c with mqueue := (List.range n).map (fun i => { tCmd 31 false 1 with id := 100 + i }) })))

theorem test_witness_MatrixCommands : (∀ n ∈ [15, 16], tAsk (tMat 0 n) = true ∧ ((tMat 0 n).core 0).mqueue.length = n ∧ (tMe (tMat 0 n)).sid.idx = (tMe (tMat 0 n)).wg.issuer) ∧
    (tMe (tMat 1 0)).sid.idx ≠ (tMe (tMat 1 0)).wg.issuer ∧ tAsk (tMat 1 0) = true ∧
    (let m := tMe (tMat 0 15)
     let d : W64 := m.st.sGet 2
     odOk d = true ∧ odHolds d 64 = true ∧ (odRanges d 64 64).all m.cmdRange = true ∧ odFmt d = 3 ∧ odT d = false ∧ operandOk d = true ∧ pairing 3 3 = some (4, .fp32) ∧
       (operandRanges d 4 0 1 none).all m.cmdRange = true ∧ (31 < m.wg.acc) ∧ m.tileOk 31 .fp32 false = true ∧ m.tileOk 31 .fp64 false = false ∧ m.wg.tileType 31 = .fp32 ∧ m.wg.mconf.red = false ∧
       effRM none m.st.mode ≠ .rst ∧ geoOk 0 = true ∧ m.wg.acc % 2 = 0) := by decide +kernel

/-- A command joins the queue; the 17th blocks; another strand may issue none. -/
theorem test_step_matrix : ([.mloop none ⟨31, 2, 2, 0, false, 0, 0, false, 5⟩, .mzero none 31 5 .int32, .mscl none 31 (.s 2) 5, .msclX1 none 31 .lit 5 0x40000000, .mdrain none 31 2 true 5, .mfill none 31 2 .fp32 5,
      .mcfg none true .rne none 5] : List Instr).all (fun i => tGoes (exec i (tMat 0 15)) (fun t => (t.core 0).mqueue.length == 16 && (t.core 0).mqueue.any (fun e => e.ctr == 5)) &&
        tStrand (tMat 0 16) i (fun st => (st.frags.headD Frag.free).st == .blocked) && tTraps (tMat 1 0) i 0x07) = true := by decide +kernel

/-- The issuer with n copies outstanding, a landing region of two slots, and a descriptor of 8 by 64 elements of f32: 2 KiB of rows of 256 bytes. s4 to s7 are an origin of zeros. -/
def tCopy (n : Nat) (permits : List Nat) : State := tStr (fun st => { st with s := [(2, 0x100200002000), (3, 0x300100003FC0)] })
  (tRec .coh 0 (fun g => { g with landings := [⟨1, 0x2000, 2, permits, []⟩], grid := some (9, 0), dims := (2, 1, 1), shared := g.shared.setBytes 0x800 (w64Bytes 0x10000 ++ w64Bytes 0x0000004000000040 ++ w64Bytes 0x0000000100000001 ++ w64Bytes 0x100 ++ w64Bytes 0 ++ w64Bytes 0 ++ w64Bytes 0x07E0E001 ++ w64Bytes 0) })
    (fun s => s.updCore 0 (fun c => { c with copies := n })))

theorem test_witness_CopyCommands : (∀ n ∈ [31, 32], tAsk (tCopy n [0]) = true ∧ ((tCopy n [0]).core 0).copies = n ∧ (tMe (tCopy n [0])).sid.idx = (tMe (tCopy n [0])).wg.issuer ∧ (tCopy n [0]).accs = []) ∧
    (let m := tMe (tCopy 31 [0])
     let d : List W64 := (tCopy 31 [0]).tensor m 0
     tdBad d [0, 0, 0, 0] false false = false ∧ tdBad d [0, 0, 0, 0] true false = false ∧ tdGath d = false ∧ landSlots d = 1 ∧ tdRows d = 8 ∧ tdCols d = 64 ∧ odOk (m.st.sGet 2) = true ∧ odHolds (m.st.sGet 2) 64 = true ∧
       (odRanges (m.st.sGet 2) 8 64).all m.cmdRange = true ∧ (odRanges (m.st.sGet 3) 8 64).all m.cmdRange = false ∧ effRM none m.st.mode ≠ .rst) := by decide +kernel

theorem test_step_copy : let o : TcopyF := ⟨0, 1, 5, 4, 0⟩
    tGoes (exec (.tcopy none o) (tCopy 31 [0])) (fun t => t.copies.length == 1 && (t.wgs.find loadWg).any (fun g => g.landings == [⟨1, 0x2000, 2, [], [0]⟩])) = true ∧
    tStrand (tCopy 32 [0]) (.tcopy none o) (fun st => (st.frags.headD Frag.free).st == .blocked) = true ∧ tTraps (tCopy 31 [1]) (.tcopy none o) 0x10 = true ∧ tTraps (tCopy 31 [0]) (.tcopy none { o with td := 1 }) 0x0C = true ∧
    tGoes (exec (.tmcast none o 3) (tCopy 31 [0])) (fun t => t.copies.any (fun c => c.kind == .tmcast 1 0 9 [0, 1])) = true ∧ tTraps (tCopy 31 [0]) (.tmcast none o 4) 0x10 = true ∧ tTraps (tCopy 31 [0]) (.tmcast none o 0) 0x10 = true ∧
    tGoes (exec (.tstore none 0 2 5 4) (tCopy 31 [0])) (fun t => t.copies.length == 1) = true ∧ tTraps (tCopy 31 [0]) (.tstore none 0 3 5 4) 0x05 = true ∧ tTraps (tCopy 31 [0]) (.tstore none 0 4 5 4) 0x01 = true ∧
    tTraps (tCopy 31 [0]) (.tstore none 1 2 5 4) 0x0C = true ∧ tGoes (exec (.tdset none 31 7 (.s 2)) (tCopy 31 [0])) (fun t => t.accs.any (fun a => a.elems.any (fun e => e.val == 0x100200002000 && e.locs.headD none == some (.shared loadWg 0xFF8)))) = true := by decide +kernel

/-! ### Counters, barriers, records, transfers -/

/-- A node of context 0 that takes records of 8 bytes, `count` at a time. -/
def tNode (count : Nat) : Node := Node.fresh ([0, 0, 0, 0, 0, 1, BitVec.ofNat 64 (8 * 2 ^ 36 + count * 2 ^ 45)] ++ List.replicate 25 0) 0

/-- A strand of a slice: s1 = the address of a global counter that holds 7, s2 = 5, s3 = 0x2000 with a record of 8 bytes for node 0 (as LAUNCH's grid record with `grid`), s4 = 0x3FFC;
slot 63 holds v. -/
def tCtr (sl : Slice) (v : W64) (grid : Bool) (h : Workgroup → Workgroup) (k : State → State) : State :=
  tState sl (fun st => { st with s := [(1, 0x10080), (2, 5), (3, 0x2000), (4, 0x3FFC), (5, 7), (6, 0x10084)] })
    (fun g => h { g with shared := (g.shared.setBytes 0x11F8 (w64Bytes v)).setBytes 0x2000 (w64Bytes (if grid then 0x208000 else 0x8000)) })
    (fun s => k (tL2 ({ s with nodes := [(0, tNode 2)] }.updCore 0 (fun c => { c with tlb := [{ loadPage with pte := (tLeaf .coh).pte }] }) |>.setPhysBytes 0x10080 [7, 0, 0, 0, 0, 0, 0, 0])))

/-- What the counter statements ask of every strand. -/
def tCtrOk (s : State) : Bool := let m := tMe s
  s.me.isSome && m.pending.isNone && s.accs.isEmpty && m.pendings.isEmpty && (s.mends m.sid).isEmpty && decide (s.wgs.length = 1) && (s.core 0).dirty.wf && decide (m.em ≠ 0) && decide (m.f.rc = 0) &&
  (s.ctxs.find 0).any (fun c => decide (c.errors.entries.length < 4096)) && tApart s 4 && tApart s 8

/-- A global counter that the strand may use. -/
def tCtrPage (s : State) (va : W64) (pa : Nat) : Bool := let m := tMe s
  m.access && decide (va.toNat % 8 = 0) && !s.failed (.inst m.sid m.f.born) va && !s.waitsPage (.inst m.sid m.f.born) va && (match s.counterPage 0 m.wg.ctx va with | (t, .ok x) => decide (t = s) && decide (x = pa) | _ => false) && (s.core 0).watches.isEmpty &&
  (List.range 8).all (fun b => tHand s .coh (pa + b)) && tL1Room s 2

/-- The last slot, to saturation and at 5, where s2's value is reached exactly and 6 is not; a global counter of 7; an armed and a free slot; a bad record. -/
theorem test_witness_Counters : (∀ sl ∈ [Slice.access, .execute], tCtrOk (tCtr sl 0xFFFFFFFFFFFFFFFD false id id) = true ∧ tCtrOk (tCtr sl 5 false id id) = true) ∧ tCtrPage (tCtr .access 5 false id id) 0x10080 0x10080 = true ∧
    (tMe (tCtr .access 5 false id id)).wg.slot 63 = 5 ∧ (tCtr .access 5 false id id).physWord 0x10080 = 7 ∧ (Safety.recordBytes (tMe (tCtr .access 5 false id id)) 0x2000).isSome = true ∧
    Safety.recordBytes (tMe (tCtr .access 5 false id id)) 0x3FFC = none ∧ tTraps (tCtr .access 5 false id id) (.carm false (.slot 63) (.emit 2 4)) 0x05 = true ∧
    tTraps (tCtr .access 5 false (fun g => { g with targets := [⟨63, 9, .notice, tStrandId .access⟩] }) id) (.carm false (.slot 63) (.notice 2)) 0x0E = true ∧
    tTraps (tCtr .execute 5 false id id) (.crd .dev (.glob 1) 7) 0x01 = true ∧ tTraps (tCtr .access 5 false id id) (.crd .dev (.glob 6) 7) 0x0D = true ∧
    (match (tCtr .access 5 false id id).counterPage 0 0 0xFFF000 with | (_, .ok _) => false | _ => true) = true := by decide +kernel

/-- An add to a global counter that reaches a target: what it asks, and what the event leaves. -/
theorem test_witness_AccessPerforms_add : (let s := { tAfter (.cadd .dev false (.glob 1) 2) (tCtr .access 5 false id id) with targets := [⟨0x10080, 0, 12, .notice, 0, 1, tStrandId .access⟩, ⟨0x10088, 0, 12, .notice, 0, 1, tStrandId .access⟩] };
    s.accs.any (fun a => decide (s.accs.find? (fun x => x.id = a.id) = some a) && s.canPerform a && !a.dev && a.lines.all (fun k => !k.one) && tL1Room s 2 && decide (a.kind = .add) && (s.strands.find a.strand).isSome &&
      decide (a.elems.map (fun e => (e.thread, e.done, e.locs)) = [(0, false, (List.range 8).map (fun b => some (.phys .coh (0x10080 + b))))]) &&
      tGoes (exec (.storePerformed a.id 1) s) (fun t => t.physWord 0x10080 == 12 && t.targets.length == 1 && t.out.length == 1))) = true := by decide +kernel

theorem test_step_counter : tGoes (exec (.cadd .wg false (.slot 63) 2) (tCtr .execute 0xFFFFFFFFFFFFFFFD false id id)) (fun t => (t.wgs.find loadWg).any (fun g => g.slot 63 == 0xFFFFFFFFFFFFFFFF) &&
      (t.ctxs.find 0).any (fun c => c.errors.entries.length == 1)) = true ∧ tGoes (exec (.caddX1 .wg false (.slot 63) 2) (tCtr .execute 5 false id id)) (fun t => (t.wgs.find loadWg).any (fun g => g.slot 63 == 7)) = true ∧
    tGoes (exec (.cadd .dev true (.glob 1) 2) (tCtr .access 5 false id id)) (fun t => t.accs.any (fun a => a.kind == .add)) = true ∧
    tStrand (tCtr .execute 5 false id id) (.cwait .wg (.slot 63) 2) (fun st => (st.frags.headD Frag.free).st == .ready) = true ∧
    tStrand (tCtr .access 5 false id id) (.cwaitX1 .wg (.slot 63) 6) (fun st => (st.frags.headD Frag.free).wait == some (.counter (some 63) 0 6)) = true ∧
    tStrand (tCtr .access 5 false id id) (.cwait .dev (.glob 1) 5) (fun st => (st.frags.headD Frag.free).st == .ready) = true ∧
    tGivesS (tCtr .access 5 false id id) [(.crd .wg (.slot 63) 6, 5, 0), (.crd .dev (.glob 1) 6, 7, 0)] = true ∧
    tGoes (exec (.carm false (.slot 63) (.notice 5)) (tCtr .access 5 false id id)) (fun t => (t.wgs.find loadWg).any (fun g => g.targets.length == 1) && t.out.isEmpty) = true ∧
    tGoes (exec (.carmX1 true (.slot 63) (.notice 5)) (tCtr .access 5 false id id)) (fun t => t.out == [.notice 0 (.counter 0 (some (63, 0)) none)]) = true ∧
    tGoes (exec (.carmX1 true (.glob 1) (.emit 8 3)) (tCtr .access 5 false id id)) (fun t => t.targets.any (fun x => x.pa == 0x10080)) = true ∧
    tGoes (exec (.carm true (.slot 63) .dis) (tCtr .access 5 false (fun g => { g with targets := [⟨63, 9, .notice, tStrandId .access⟩] }) id)) (fun t => (t.wgs.find loadWg).any (fun g => g.targets.isEmpty)) = true := by decide +kernel

/-- Two execute strands, of which the second has arrived at barrier 7 or not. -/
def tBar (arrived : Bool) : State := tCtr .execute 5 false (fun g => { g with barriers := if arrived then [(7, ⟨some .execute, [(.execute, 1)], 3⟩)] else [] })
  (fun s => { s with strands := s.strands ++ [(⟨loadWg, .execute, 1⟩, { startStrand .execute 0 1 0 false with frags := [{ rootFrag 0 with st := if arrived then .blocked else .ready, wait := if arrived then some (.barrier 7 3) else none }] })] })

theorem test_witness_SyncAndWorkGraph : (∀ b, (tBar b).me.isSome = true ∧ (tMe (tBar b)).pending = none ∧ (tBar b).accs = [] ∧ (tMe (tBar b)).pendings = [] ∧ ((tMe (tBar b)).wg.barriers.map Prod.fst).Nodup ∧
      ((tBar b).strands.map Prod.fst).Nodup ∧ ((tBar b).live loadWg .execute).length = 2 ∧ tApart (tBar b) 4 = true) ∧
    tTraps (tBar true) (.barw 7 .access) 0x01 = true ∧ tTraps (tBar true) (.barw 7 .both) 0x01 = true ∧
    (∀ g, (let s := tCtr .execute 5 g id id
      tCtrOk s && decide ((tMe s).sid.idx = 0) && decide ((tMe s).wg.depth < 10) && decide ((tMe s).wg.childGrids < 256) && (Safety.recordBytes (tMe s) 0x2000).any (fun bs =>
        !s.recordBad (.wg (tMe s).wg.task (tMe s).wg.node (tMe s).wg.ctx (tMe s).sid) bs && s.recordRoom bs.length && decide (bs.length = 8)) && (s.nodes.find 0).isSome) = true) ∧
    tTraps (tCtr .access 5 false id id) (.launch 3) 0x01 = true ∧ tTraps (tCtr .execute 5 false (fun g => { g with depth := 10 }) id) (.launch 3) 0x09 = true ∧
    tTraps (tCtr .execute 5 false id id) (.emit 4) 0x05 = true ∧ tTraps (tCtr .execute 5 false id id) (.launch 4) 0x05 = true ∧ tTraps (tCtr .execute 5 false id id) (.phaseAcq false) 0x01 = true := by decide +kernel

/-- FENCE while the strand's own load or store is outstanding. -/
theorem test_witness_SyncAndWorkGraph_fence : ([(.ld none 5 (.reg 9) false 1, true), (.st none (.reg 9) (.reg 10) 1, false)] : List (Instr × Bool)).all (fun p =>
    tGoes (exec p.1 tR) (fun t => t.me.any (fun m => (t.covered m).length == 1) && ([.full, .rel, .acq] : List FenceF).all (fun ff =>
      tGoes (exec (.fence .sys ff) t) (fun u => (u.strands != t.strands) == (!p.2 && ff == .acq))))) = true := by decide +kernel

theorem test_step_sync : tGoes (exec (.barw 7 .execute) (tBar false)) (fun t => (t.wgs.find loadWg).any (fun g => (g.barriers.find 7).any (fun b => b.arrived == [(.execute, 0)]))) = true ∧
    tGoes (exec (.barw 7 .execute) (tBar true)) (fun t => (t.wgs.find loadWg).any (fun g => (g.barriers.find 7).any (fun b => b.gen == 4)) && t.strands.all (fun p => (p.2.frags.headD Frag.free).st == .ready)) = true ∧
    tStrand (tCtr .access 5 false id id) (.fence .sys .full) (fun st => (st.frags.headD Frag.free).pc == 0x4001) = true ∧
    tGoes (exec (.phaseRel false) (tCtr .access 5 false id (fun s => s.updCore 0 (fun c => { c with dirty := [(0x10090, 0x1AA)] })))) (fun t => t.physByte 0x10090 == 0xAA && (t.core 0).dirty.isEmpty) = true ∧
    tGoes (exec (.phaseAcq true) (tCtr .access 5 false id (fun s => s.updCore 0 (fun c => { c with clean := [(0x10090, 0x1AA)] })))) (fun t => (t.core 0).clean.isEmpty) = true ∧
    tGoes (exec (.phint true) (tCtr .access 5 false id id)) (fun t => (t.wgs.find loadWg).any (fun g => g.memClass)) = true ∧
    tGoes (exec (.emit 3) (tCtr .access 5 false id id)) (fun t => (t.nodes.find 0).any (fun n => n.records.length == 1)) = true ∧
    tGoes (exec (.launch 3) (tCtr .execute 5 false id id)) (fun t => t.launched.length == 1 && (t.wgs.find loadWg).any (fun g => g.children == 1)) = true ∧
    tGoes (exec (.launch 3) (tCtr .execute 5 true id id)) (fun t => t.launched.isEmpty && (t.nodes.find 0).any (fun n => n.records.any (fun r => r.depth == 1))) = true := by decide +kernel

/-- The issuer with s4 = the length of a transfer and s1 the element offset of its destination, and n transfers outstanding; for UEGET, an enabled endpoint 0 and queue 15. -/
def tXfer (len dst : W64) (n : Nat) : State := tStr (fun st => { st with s := [(2, dst), (4, len), (9, 1)] })
  (tRQ .oq 1 [] 0 (fun s => (({ s with fabric := { s.fabric with xfers := (List.range n).map (fun i => ⟨100 + i, (tMe s).wg.task, 0, tStrandId .access, 0, .write 1, 0, 0, 64, 0, 0, 0, false, [], []⟩) }, ctxs := s.ctxs.map (fun (p : Nat × Ctx) => (p.1, { p.2 with desc := [0, 0, 0, 0, 0, 0, 0, 0x10000] ++ List.replicate 8 0 })) } : State)).setPhysBytes 0x10018 [1]))

/-- The longest transfers and reductions and one byte more; 63 and 64 outstanding; a misaligned reduction; a read of one entry into a channel that has room for just it, and of none. -/
theorem test_witness_FabricInstructions : tAsk (tXfer 0x1000000000 0 63) = true ∧ ((tXfer 0x1000000000 0 63).fabric.xfers.filter (fun x => decide (x.task = (tMe (tXfer 0 0 0)).wg.task) && !x.stopped)).length = 63 ∧
    tTraps (tXfer 0x1000000001 0 63) (.fbwr 1) 0x05 = true ∧ tTraps (tXfer 0x1000004 0 0) (.fbred 1 .add .fp32) 0x05 = true ∧ tTraps (tXfer 4 2 0) (.fbred 1 .add .fp32) 0x01 = true ∧
    tAsk (tXfer 64 0 64) = true ∧ ((tXfer 64 0 64).fabric.xfers.filter (fun x => decide (x.task = (tMe (tXfer 0 0 0)).wg.task) && !x.stopped)).length = 64 ∧
    tTraps (tCtr .execute 5 false id id) (.fbrd 1) 0x01 = true ∧ tTraps (tMat 1 0) (.fbrd 1) 0x07 = true ∧
    (let s := tXfer 0 0 0
     tRoom s 1 && s.endpoint 0 0 && s.ueGets.isEmpty && decide ((tMe s).st.sGet 9 = 1)) = true ∧ tTraps (tXfer 0 0 0) (.ueget 10 15) 0x05 = true ∧
    tTraps (tQueue .access .sq false []) (.ueget 1 15) 0x0F = true := by decide +kernel

theorem test_step_fabric : tGoes (exec (.fbwr 1) (tXfer 0x1000000000 0 63)) (fun t => t.fabric.xfers.length == 64) = true ∧ tGoes (exec (.fbrd 1) (tXfer 0 0 63)) (fun t => t.fabric.xfers.length == 63) = true ∧
    tGoes (exec (.fbred 1 .add .bf16) (tXfer 0x1000000 2 0)) (fun t => t.fabric.xfers.any (fun x => x.kind == .reduce 0 0 .add .bf16)) = true ∧
    tStrand (tXfer 64 0 64) (.fbwr 1) (fun st => (st.frags.headD Frag.free).wait == some (.engine .fabric)) = true ∧
    tEntries (tXfer 0 0 0) (.ueget 7 15) (fun es => es.length == 1 && es.all (fun e => e.pend.any (fun p => p.ue))) = true := by decide +kernel

/-! ### Memory events -/

/-- A walk for the page of the instruction, a page request that a fragment joined, a prefetch of the page's last 64 bytes, two SYNCs, and a tier of 2^40 bytes on port 0. -/
def tEv : State := tRec .coh 0 id (fun s => { s with walks := [⟨5, 0, { loadPage with vpn := 17 }, true⟩], pageReqs := [⟨6, 0, 0, 0x20, .read, false, [.inst (tStrandId .access) 0]⟩], prefetches := [⟨7, 0, 0, 0, 0, false, 0x10FC0, 64, 63, 0, []⟩], syncs := [⟨8, [], []⟩, ⟨9, [], [5]⟩], plat := { s.plat with ports := [2 ^ 40], tierGib := 1 } })

/-- The last block of the port. -/
theorem test_witness_MemoryEvents_tier : tEv.plat.tierGib ≠ 0 ∧ (∀ a, inBlock 0 (2 ^ 24 - 1) a = true → tEv.isTier a = true) ∧ tEv.portDead 0 = false ∧ 2 ^ 24 - 1 < 2 ^ 24 ∧
    tEv.tierHeld (2 ^ 44 + 0 * 2 ^ 40 + (2 ^ 24 - 1) * 2 ^ 16) = false ∧ tEv.tierCache.length < tEv.plat.tierSize * 2 ^ 14 ∧ tEv.tier.wf = true ∧ (∀ a, inBlock 0 (2 ^ 24 - 1) a = true → tEv.mem.get a = 0) ∧
    tGoes (exec (.tierFill 0 (2 ^ 24 - 1)) tEv) (fun t => t.tierCache == [(0, 2 ^ 24 - 1, false)]) = true := by
  have hp : tEv.plat.ports = [2 ^ 40] := by decide +kernel
  have hm : tEv.mem = [] := by decide +kernel
  refine ⟨by decide +kernel, fun a h => ?_, by decide +kernel, by decide +kernel, by decide +kernel, by decide +kernel, by decide +kernel, fun a _ => by rw [hm]; rfl, by decide +kernel⟩
  unfold inBlock blockBase at h
  have h5 := of_decide_eq_true (Bool.and_eq_true_iff.mp h).1
  have h6 := of_decide_eq_true (Bool.and_eq_true_iff.mp h).2
  have h1 : 2 ^ 44 ≤ a := by omega
  have h2 : (a - 2 ^ 44) / 2 ^ 40 = 0 := by omega
  have h3 : (a - 2 ^ 44) % 2 ^ 40 < 2 ^ 40 := Nat.mod_lt _ (by decide +kernel)
  simp only [State.isTier, tierPort, hp, h2, Bool.and_eq_true, decide_eq_true_eq]
  exact ⟨h1, h3⟩

/-- The walk, the oldest read of a channel, the page request, the last page of the prefetch, and the first SYNC; after it, the second waits for the walk. -/
theorem test_witness_MemoryEvents : (tEv.walks.find? (fun x => x.id = 5)).isSome = true ∧ tGoes (exec (.walkComplete 5) tEv) (fun t => (t.core 0).tlb.any (fun x => x.vpn == 17) && t.walks.isEmpty) = true ∧
    (let s := { tEv with l2 := [], reads := [⟨0x100, 4, 0, 0⟩] }
     let q := { s with doms := [{ s.dom (.channel (channelOf 0x10080)) with quiesced := true }] }
     ((s.reads.filter (fun x => channelOf (256 * x.line) = channelOf 0x10080)).take 256).length == 1 && !s.domWaits (.channel (channelOf 0x10080)) && q.domWaits (.channel (channelOf 0x10080)) &&
       tGoes (exec (.channelGroupSelect (channelOf 0x10080)) s) (fun t => (t.channels.find (channelOf 0x10080)).any (fun c => c.group == some (0, 0)) && t.reads.isEmpty && t.l2Has none 0x10080)) = true ∧
    (tEv.pageReqs.find? (fun x => x.num = 6)).any (fun r => (tEv.mendsOf r.asid r.vpage).isEmpty && r.joined.all (fun j => match j with | .entry _ => false | _ => true)) = true ∧
    tGoes (exec (.pageDone 6 false) tEv) (fun t => t.fails == [(.inst (tStrandId .access) 0, 0x20)] && t.pageReqs.isEmpty) = true ∧
    (tEv.prefetches.find? (fun x => x.id = 7)).any (fun f => decide (f.va / 4096 ≤ 16) && decide (16 * 4096 < f.va + f.len) && (List.range 64).all (fun k => tHand tEv .coh (0x10000 + 64 * k) && tHand tEv .coh (0x10000 + 64 * k + 63)) && f.done.isEmpty && tEv.prefetches.length == 1 && (tEv.wgs.head?).any (fun g => g.2.task == f.task)) = true ∧
    (match tEv.translate 0 0 (BitVec.ofNat 64 (16 * 4096)) with | (t, .ok l) => decide (t = tEv) && !tEv.isTier (l.pa 0x10000) | _ => false) = true ∧
    tGoes (exec (.prefetchPageDone 7 16) tEv) (fun t => (t.wgs.find loadWg).any (fun g => g.slot 63 == 64) && t.prefetches.isEmpty) = true ∧
    tGoes (exec (.inv 0 (some (16, 1))) tEv) (fun t => (t.core 0).tlb.isEmpty && t.walks.length == 1) = true ∧ tGoes (exec (.sync 77) tEv) (fun t => (t.syncs[2]?).any (fun q => q.tag == 77 && q.walks == [5])) = true ∧
    tGoes (exec .syncAck tEv) (fun t => t.syncs.length == 1 && t.out == [.syncAck 8]) = true := by decide +kernel

/-! ### Engine events -/

/-- The first command of the queue as the engine would begin it. -/
def tNext (s : State) (p : MEntry → Bool) : Bool := (s.nextCmd 0).any (fun e => p e && (s.wgs.find e.wg).any (fun g => decide (2 ≤ g.acc)) && s.ready e.wg e.deps && decide (e.done = 0) && e.wrecks.isEmpty && decide (0 < e.left) &&
  !(s.core 0).mqueue.any (fun x => x.running && decide (x.left = 0)) && decide (((s.core 0).mqueue.filter (fun x => x.id = e.id)).length = 1))

/-- MLOOP, MZERO, MSCL, MCFG and MDRAIN, each first in the queue; MLOOP's operands are defined. -/
theorem test_witness_EngineEvents_matrix : tNext (tAfter (.mloop none ⟨31, 2, 2, 0, false, 0, 0, false, 5⟩) (tMat 0 0)) (fun e => match e.cmd with
      | .loop _ a _ _ _ ai _ _ _ _ => let s := tAfter (.mloop none ⟨31, 2, 2, 0, false, 0, 0, false, 5⟩) (tMat 0 0)
        decide (pairing (odFmt a) (odFmt a) = some (4, .fp32)) && (s.operand e.wg e a 4 ai none 0).all (fun x => !x.2)
      | _ => false) = true ∧
    tNext (tAfter (.mzero none 31 5 .fp32) (tMat 0 0)) (fun e => e.cmd == .zero 31 .fp32 false) = true ∧ tNext (tAfter (.mscl none 31 (.const 3) 5) (tMat 0 0)) (fun e => e.cmd == .scale 31 0x40000000 false) = true ∧
    tNext (tAfter (.mcfg none false .rne none 5) (tMat 0 0)) (fun e => e.cmd == .cfg) = true ∧ tNext (tAfter (.mdrain none 31 2 true 5) (tMat 0 0)) (fun e => match e.cmd with | .drain _ _ _ _ _ _ sh => !sh | _ => false) = true ∧
    tGoes (exec (.matrixCommandExecute 0 1) (tAfter (.mcfg none false .rne none 5) (tMat 0 0))) (fun t => (t.core 0).mqueue.any (fun e => e.running && e.left == 0)) = true := by decide +kernel

/-- A command that is over adds to the last slot. -/
theorem test_witness_EngineEvents_complete : (let s := tRec .coh 0 id (fun s => s.updCore 0 (fun c => { c with mqueue := [tCmd 31 true 0] }));
    ((s.core 0).mqueue.find? (fun x => x.running && decide (x.left = 0))).any (fun e => !e.mute && (s.wgs.find e.wg).isSome) && decide (s.wgs.length = 1) &&
      tGoes (exec (.matrixCommandComplete 0) s) (fun t => (t.core 0).mqueue.isEmpty && (t.wgs.find loadWg).any (fun g => g.slot 63 == 1))) = true := by decide +kernel

/-- A copy of 2 KiB at its last four bytes, and one landed; a multicast with one receiver; a store that is over. -/
def tCopies (kind : CopyKind) (done : Nat) (dlv : Bool) : State :=
  let s := tCopy 1 (if dlv then [] else [0])
  let td := s.tensor (tMe s) 0
  { (s.setPhysBytes 0x107FC [1, 2, 3, 4]) with grids := [(9, { node := 0, first := 0, record := [], dims := (2, 1, 1), order := 0, deps := [], place := none, retired := [], ended := 0, released := [0, 1], admitted := [0, 1], cancelled := false, lost := false, src := .host 0, depth := 0, parent := none, hold := .free })], wgs := s.wgs.map (fun p => (p.1, { p.2 with landings := p.2.landings.map (fun r => { r with claims := if dlv then [0] else [] }) })), copies := [{ id := 50, core := 0, wg := loadWg, ctx := 0, pc := 0, unit := some 9, kind := kind, td := td, origin := [0, 0, 0, 0], gather := none, ctr := 5, deps := [], started := true, told := true, wrote := 2048, dlv := (if dlv then [⟨loadWg, 0x2000, [0], done, []⟩] else []), done := done }] }

theorem test_witness_EngineEvents_copy : (let s := tCopies (.tcopy 1 0) 2044 true;
      (match (s.takeSlots 9).nextPiece 9 with
        | some c => decide (c.kind = .tcopy 1 0) && decide (c.done = 2044) && decide (landBytes c.td = 2048) && (s.core 0).watches.isEmpty && c.dlv.all (fun d => d.taint.isEmpty && decide (d.wg = c.wg)) && decide (c.dlv.length = 1) &&
          (List.range 4).all (fun k => match (s.takeSlots 9).landByte c (2044 + k) with | .ok t x => decide (t = s.takeSlots 9) && decide (x.1 = BitVec.ofNat 8 (k + 1)) | _ => false)
        | none => false) &&
      tGoes (exec (.copyPiece 9) s) (fun t => (t.wgs.find loadWg).any (fun g => g.shared.get (swz (0x2000 + 2047)) == 4) && t.copies.any (fun c => c.done == 2048))) = true ∧
    (let s := tCopies (.tcopy 1 0) 2048 true;
      (s.copies.find? (fun x => x.id = 50)).any (fun c => decide (landBytes c.td ≤ c.done) && decide (c.dlv.length = 1)) && decide (s.wgs.length = 1) &&
      tGoes (exec (.tcopyLanded 50 0) s) (fun t => t.copies.isEmpty && (t.wgs.find loadWg).any (fun g => g.slot 5 == 2048 && g.landings == [⟨1, 0x2000, 2, [], []⟩]))) = true ∧
    (let s := tCopies (.tmcast 1 0 9 [0]) 0 false;
      (s.copies.find? (fun x => x.id = 50)).any (fun c => c.dlv.isEmpty && decide (c.done = 0)) && !s.memberGone 9 0 && (s.memberOf 9 0).any (fun p => decide (p.1 = loadWg) && (p.2.delivery p.1 1 0 1).isSome) &&
      tGoes (exec (.tmcastDeliveryStart 50) s) (fun t => t.copies.any (fun c => c.dlv.length == 1) && (t.wgs.find loadWg).any (fun g => g.landings == [⟨1, 0x2000, 2, [], [0]⟩]))) = true ∧
    (let s := tCopies (.tstore 0x100200002000 .rne false) 512 false;
      (s.copies.find? (fun x => x.id = 50)).any (fun c => decide (tdRows c.td * tdCols c.td ≤ c.done) && decide (c.wrote < 2 ^ 64)) &&
      tGoes (exec (.tstoreComplete 50) s) (fun t => t.copies.isEmpty && (t.wgs.find loadWg).any (fun g => g.slot 5 == 2048) && (t.core 0).copies == 0)) = true := by decide +kernel

/-! ### Scheduling events -/

/-- A record of 8 bytes for node 0, and a grid record of 40 with a first dimension. -/
def tRecord : Rec := ⟨90, w64Bytes 0x8000, .host 0, 0, 0, none⟩
/-- A grid record. -/
def tGridRec (n : W64) : Rec := ⟨91, w64Bytes 0x228000 ++ w64Bytes (0x100010000 + n) ++ w64Bytes 0 ++ w64Bytes 0 ++ w64Bytes 0, .host 0, 0, 0, none⟩

/-- Node 0 with records, its timer of one unit running from clock 0, at clock 64; no workgroup is resident. -/
def tSched (rs : List Rec) (g : Node → Node) (k : State → State) : State :=
  let s := tCtr .access 5 false id id
  k { s with clock := 64, wgs := [], strands := [], cur := none, cores := s.cores.map (fun p => (p.1, { p.2 with lanesA := [] })), nodes := [(0, g { tNode 2 with records := rs, timerFrom := some 0, desc := (tNode 2).desc.take 7 ++ [1] ++ List.replicate 24 0 })] }

/-- The workgroup of the test states with its strand exited. -/
def tDone (h : Workgroup → Workgroup) (k : State → State) : State := tCtr .access 5 false h (fun s => k (tStr (fun st => { st with exited := true, frags := List.replicate 8 Frag.free }) { s with clock := 16384 }))

theorem test_witness_SchedulingEvents_launch : (let s := tSched [tRecord, tRecord] id id;
      (s.nodes.find 0).any (fun k => decide (0 < k.recCount) && decide (k.recCount ≤ k.loose.length)) && (s.launched.find s.serial).isNone && tGoes (exec (.cisternCountLaunch 0) s) (fun t => t.launched.any (fun l => l.2.records.length == 2))) = true ∧
    (let s := tSched [tRecord] id id;
      (s.nodes.find 0).any (fun k => decide (k.timerFrom = some 0) && decide (k.timer = 1) && decide (0 + 64 * k.timer ≤ s.clock) && decide (k.loose.length < k.recCount) && !k.loose.isEmpty) &&
        tGoes (exec (.cisternTimerLaunch 0) s) (fun t => t.launched.any (fun l => l.2.records.length == 1))) = true ∧
    (let s := tSched [tRecord, tGridRec 2] id id;
      (s.nodes.find 0).any (fun k => decide (k.records.find? (fun r => hdrGrid (recHeader r.bytes)) = some (tGridRec 2)) && (gridAsk k (tGridRec 2).bytes).any (fun a => a.deps.all (depOk a.order) && decide (a.place = 0) && decide (a.dims = (2, 1, 1)))) &&
        tGoes (exec (.gridExpand 0) s) (fun t => t.grids.any (fun g => g.2.released == [0, 1] && g.2.dims == (2, 1, 1)) && (t.nodes.find 0).any (fun k => k.nextSeq == 2))) = true ∧
    (let s := tSched [tGridRec 0] id id;
      (s.nodes.find 0).any (fun k => (gridAsk k (tGridRec 0).bytes).isNone) && tGoes (exec (.gridExpand 0) s) (fun t => t.grids.isEmpty && (t.wins.find 0).any (fun w => w.errors == 1))) = true := by decide +kernel

/-- A launched workgroup whose node is next, and that core 0 can take. -/
theorem test_witness_SchedulingEvents_admit : (let s := tSched [] id (fun s => { s with launched := [(60, ⟨0, 4, [w64Bytes 0x8000], 0, none, .free⟩)] });
      decide (s.turn = some 0) && s.offers.contains (.launched 60, 0) && s.fits (.launched 60, 0) 0 && (s.nodes.find 0).isSome && (s.launched.find 60).isSome && s.strands.isEmpty &&
        tGoes (exec (.admitWg (.launched 60) 0) s) (fun t => t.launched.isEmpty && (t.strands.map (fun p => p.1.slice)) == [.access] && t.wgs.any (fun g => g.2.seqNo == 4))) = true := by decide +kernel

theorem test_witness_SchedulingEvents_retire : (let s := tDone (fun g => { g with grid := some (9, 0) }) (fun s => { s with grids := [(9, { node := 0, first := 0, record := [], dims := (2, 1, 1), order := 0, deps := [], place := none, retired := [], ended := 0, released := [], admitted := [0], cancelled := false, lost := false, src := .host 0, depth := 0, parent := none, hold := .free })] });
      (s.wgs.find loadWg).any (fun g => s.quiet loadWg g && !s.stopDue g && decide (g.children = 0) && decide (g.grid = some (9, 0))) && (s.core 0).dirty.wf && (s.grids.find 9).any (fun r => !r.cancelled && decide (r.ended + 1 < r.total)) &&
        tGoes (exec (.retire loadWg) s) (fun t => t.wgs.isEmpty && t.strands.isEmpty && (t.grids.find 9).any (fun r => r.retired == [0]))) = true := by decide +kernel

/-- The window's last access counted; 4,096 clocks since the governor ran; two stages of which one lacks a core; a strand that has not stopped in 16,384 clocks. -/
theorem test_witness_SchedulingEvents_events : (let s := tCtr .access 5 false id (fun s => s.updCore 0 (fun c => { c with l1count := 65536, victimHits := 9 }));
      decide ((s.core 0).ctx = some 0) && (s.ctxs.find 0).isSome && decide (65536 ≤ (s.core 0).l1count) && tGoes (exec (.victimWindow 0) s) (fun t => (t.core 0).l1count == 0 && (t.core 0).victimHits == 0)) = true ∧
    (let s := tCtr .access 5 false id (fun s => tStr (fun st => { st with stopped := false }) { s with clock := 16384, ctxs := s.ctxs.map (fun (p : Nat × Ctx) => (p.1, { p.2 with state := .saving, stopAt := some 0 })) });
      (s.wgs.find loadWg).any (fun g => decide (s.savingFrom loadWg g = some 0)) && (s.strands.find (tStrandId .access)).any (fun st => !st.exited && !st.stopped) && decide (0 + 16384 ≤ s.clock) &&
        tGoes (exec (.preemptForceStop (tStrandId .access)) s) (fun t => t.strands.all (fun p => p.2.stopped))) = true ∧
    (let s := tDone id (fun s => { s with ctxs := s.ctxs.map (fun (p : Nat × Ctx) => (p.1, { p.2 with state := .saving })) });
      (s.ctxs.find 0).any (fun c => decide (c.state = .saving)) && s.wgs.all (fun p => s.canStore p.1) && tGoes (exec (.saveComplete 0) s) (fun t => t.wgs.isEmpty && (t.ctxs.find 0).any (fun c => c.state == .saved))) = true ∧
    (let s := tSched [] (fun n => { n with closing := some (0xFFFF, none) }) (fun s => { s with cmds := [⟨1, 3, none⟩, ⟨0, 0xFFFF, none⟩] });
      decide (Cmd.release [] s.cmds = (s.cmds, [])) && (s.nodes.find 0).any (fun n => decide (n.closing = some (0xFFFF, none)) && s.drained 0 n) && tGoes (exec (.nodeDrained 0) s) (fun t => t.nodes.isEmpty && t.out == [.complete 0xFFFF 0 0 0 []] && t.cmds == [⟨1, 3, none⟩])) = true ∧
    (let s := tDone (fun g => { g with stopAfter := true }) id;
      (s.wgs.find loadWg).any (fun g => s.stopDue g && decide (g.hold = .free) && s.quiet loadWg g) && tGoes (exec (.debugStopHalt (.afterTask loadWg)) s) (fun t => t.wgs.all (fun g => g.2.hold == .halted))) = true ∧
    (let s := tSched [] (fun n => { n with stopSet := true }) (fun s => { s with launched := [(60, ⟨0, 4, [], 0, none, .free⟩)] });
      (s.launched.find 60).any (fun l => decide (l.hold = .free) && (s.nodes.find l.node).any (fun n => n.stopSet)) && tGoes (exec (.debugStopHalt (.beforeTask 60)) s) (fun t => t.launched.all (fun l => l.2.hold == .halted))) = true := by decide +kernel

/-- Stages 0 and 1 of the one active context: stage 0 has three cores that may move and is idle, stage 1 has two records above its bound. -/
def tWeir : State := tSched [] (fun n => { n with desc := n.desc.take 8 ++ [BitVec.ofNat 64 (1 + 2 * 1 + 512 * 3 + 2 ^ 25 * 9)] ++ List.replicate 23 0 }) (fun s => { s with clock := 4096, nodes := s.nodes ++ [(1, { tNode 2 with records := [tRecord, tRecord], desc := (tNode 2).desc.take 8 ++ [BitVec.ofNat 64 (1 + 2 * 0)] ++ List.replicate 23 0 })], cores := [(0, { Core.reset with ctx := some 0, stage := some 0 }), (1, { Core.reset with ctx := some 0, stage := some 0 }), (2, { Core.reset with ctx := some 0, stage := some 0 })] })

theorem test_witness_SchedulingEvents_weir : (let s := tWeir;
    let s1 : State := { s with lastWeir := s.clock, weirCount := s.weirCount + 1 };
    let stages := s.nodes.filter (fun p => p.2.role && p.2.ctx = 0);
    let cores (n : Nat) : Nat := ((List.range 224).filter (fun c => (s.core c).stage = some n)).length;
    decide (s.lastWeir + 4096 ≤ s.clock) && decide ((s.ctxs.filter (fun c => c.2.state = .active)).length = 1) && decide ((s1.movable 0).head? = some 0) &&
      decide (largest ((stages.filter (fun p => decide (p.2.minCores < cores p.1) && !(s1.movable p.1).isEmpty)).map (fun p => (p.1, p.2.low - s.occupancy p.1))) = some (0, 3)) &&
      decide (largest (stages.map (fun p => (p.1, s.occupancy p.1 - p.2.high))) = some (1, 2)) && tGoes (exec .weirEvaluate s) (fun t => (t.core 0).stage == some 1 && (t.core 1).stage == some 0)) = true := by decide +kernel

/-- R336: a save that does not fit leaves no saved workgroup. -/
theorem test_saveComplete_small : (let s := tCtr .access 5 false id (fun s => { s with ctxs := s.ctxs.map (fun (p : Nat × Ctx) => (p.1, { p.2 with state := .saving, desc := [] })), strands := s.strands.map (fun p => (p.1, { p.2 with stopped := true })) });
    tGoes (exec (.saveComplete 0) s) (fun t => t.wgs.isEmpty && (t.ctxs.find 0).any (fun c => c.saved.isEmpty && c.faults.entries.length == 1) &&
      t.out.getLast?.any (fun o => match o with | .notice 1 (.saved 0 _ ok) => !ok | _ => false))) = true := by decide +kernel

/-! ### Host events -/

/-- A device that is READY and serves tenants, with context 0 on core 0, its node 0, and nothing resident. -/
def tHost (k : State → State) : State :=
  let s := tSched [] id id
  k { s with plat := { s.plat with ready := true, idleEn := true }, trust := { s.trust with lifecycle := .production } }

/-- Node 4,095, its records, and whether the debug port is open. -/
def tPush (rs : List Rec) : State := tHost (fun s => { s with nodes := s.nodes ++ [(4095, { tNode 2 with records := rs })], trust := { s.trust with portOpen := true } })

/-- A context descriptor: cores 64 and 223, ASID 4,095, and a save area that ends where the tier cache begins. -/
def tDesc : List W64 := [0x1000, 0, 1, 0, 0x80000000, 4095, 0, 0, BitVec.ofNat 64 (tcBase - 262144), 262144] ++ List.replicate 6 0

/-- The context of the host states, adjusted. -/
def tHostCtx (g : Ctx → Ctx) (k : State → State) : State := tHost (fun s => k { s with ctxs := s.ctxs.map (fun (p : Nat × Ctx) => (p.1, g p.2)) })

/-- A node descriptor that registration takes: 64 access strands, 64 v registers, two records of 8 bytes. -/
def tNodeDesc : List W64 := [0, 0, 0, 0, 0, 0x200040] ++ (tNode 2).desc.drop 6

/-- A result buffer of 63 bytes at the end of HBM4E. -/
def tBuf : Nat := 2 ^ 39 - 63

/-- Commands before READY, in IDLE and not. -/
theorem test_witness_HostEvents_ready : (let s := tHost (fun s => { s with plat := { s.plat with ready := false } }); decide (s.plat.pstate ≠ .idle) && !s.plat.ready &&
      tGoes (exec (.preempt 0xFFFF 0) s) (fun t => t.out == [.complete 0xFFFF 1 1 0 []]) && s.bufferOk tBuf 63) = true ∧
    (let s := tHost (fun s => { s with plat := { s.plat with pstate := .idle } }); tGoes (exec (.preempt 1 0) s) (fun t => t.plat.pstate == .active && (t.ctxs.find 0).any (fun c => c.state == .saving))) = true := by decide +kernel

/-- Register writes: TRIP, IDLEEN, TIER_GIB before READY and after, and the last trace register. -/
theorem test_witness_HostEvents_registers : tGoes (exec (.registerWrite (2 ^ 49) 3) (tHost (fun s => { s with plat := { s.plat with trip := true } }))) (fun t => !t.plat.trip && t.plat.ready) = true ∧
    tGoes (exec (.registerWrite (2 ^ 49 + 0x10) 0) (tHost id)) (fun t => !t.plat.idleEn) = true ∧ tGoes (exec (.registerWrite (2 ^ 49 + 8) 511) (tHost id)) (fun t => t.plat.tierGib == 0) = true ∧
    tGoes (exec (.registerWrite (2 ^ 49 + 8) 511) (tHost (fun s => { s with plat := { s.plat with ready := false } }))) (fun t => t.plat.tierGib == 511) = true ∧
    (tPush []).trust.debugOpen = true ∧ ((tPush []).core 223).trace.live = false ∧
    tGoes (exec (.registerWrite (0x100000 + 0x40 * 223 + 0x18) 7) (tPush [])) (fun t => (t.core 223).trace.startv == 7) = true := by decide +kernel

/-- A push to the last node is taken; one that finds the record buffer full by a byte is BUSY. -/
theorem test_witness_HostEvents_push : (hdrNode (recHeader (w64Bytes 0x8FFF)) = 4095 ∧ (tPush []).recordBad (.host 4095) (w64Bytes 0x8FFF) = false ∧ (tPush []).heldBytes = 0 ∧
    tGoes (exec (.hostRecordPush 4095 0 (w64Bytes 0x8FFF)) (tPush [])) (fun t => t.out == [.pushDone 4095 true] && (t.nodes.find 4095).any (fun n => n.records.length == 1)) = true) ∧
    (∀ bs : List Byte, (tPush [⟨90, bs, .host 4095, 0, 0, none⟩]).recordBad (.host 4095) (w64Bytes 0x8FFF) = false ∧ (tPush [⟨90, bs, .host 4095, 0, 0, none⟩]).heldBytes = bs.length) ∧
    ∃ bs : List Byte, bs.length + (w64Bytes 0x8FFF).length = (8 + (tPush []).plat.ovfSize) * 2 ^ 20 + 1 := by
  refine ⟨by decide +kernel, fun bs => ⟨?_, ?_⟩, List.replicate (8 * 2 ^ 20 - 7) 0, ?_⟩
  · have hn : hdrNode (recHeader (w64Bytes 0x8FFF)) = 4095 := by decide +kernel
    have hf : (tPush [⟨90, bs, .host 4095, 0, 0, none⟩]).nodes.find 4095 = some { tNode 2 with records := [⟨90, bs, .host 4095, 0, 0, none⟩] } := rfl
    have hr : (!decide ((tNode 2).recSize < hdrSize (recHeader (w64Bytes 0x8FFF)))) = true ∧ (bits (recHeader (w64Bytes 0x8FFF)) 26 38 ≠ 0 || !sizeOk (hdrSize (recHeader (w64Bytes 0x8FFF))) || (w64Bytes 0x8FFF).length ≠ hdrSize (recHeader (w64Bytes 0x8FFF))) = false := by decide +kernel
    simp only [State.recordBad, hn, hf]
    show (_ || (decide ((tNode 2).recSize < _) || false || _)) = false
    simp_all
  · show 0 + 0 + (0 + bs.length) = _
    omega
  · rw [List.length_replicate]
    decide +kernel

/-- Host accesses at the end of the tier cache's last granule: a read, a write, an add that saturates, and one to another context's granule. -/
theorem test_witness_HostEvents_access : (let s := tHost (fun s => s.setPhysBytes (2 ^ 39 - 8) (w64Bytes 0xFFFFFFFFFFFFFFF0)); (List.range 8).all (fun i => decide (s.hostOwn 0xFFFF (2 ^ 39 - 8 + i) = .ok) && s.served (2 ^ 39 - 8 + i)) && s.targets.isEmpty && s.hostOps.isEmpty && [MemOp.read 8, .write [1, 2], .atomicAdd 0x20].all (fun o => s.linesReady (s.hostLines (2 ^ 39 - 8) o)) &&
      tGoes (exec (.hostMemAccess 0xFFFF (2 ^ 39 - 8) (.read 8)) s) (fun t => t.out == [.memDone true (w64Bytes 0xFFFFFFFFFFFFFFF0)]) &&
      tGoes (exec (.hostMemAccess 0xFFFF (2 ^ 39 - 8) (.write [1, 2])) s) (fun t => t.physByte (2 ^ 39 - 7) == 2) && tGoes (exec (.hostMemAccess 0xFFFF (2 ^ 39 - 8) (.atomicAdd 0x20)) s) (fun t => t.physWord (2 ^ 39 - 8) == 0xFFFFFFFFFFFFFFFF)) = true ∧
    (let s := tHost (fun s => { s with owners := [(1, ownerMark 0 1)] }); isReg 0xFFFF = false ∧ s.hostOwn 0xFFFF (0xFFFF + 1) = .denied ∧ s.hostOwn 0 (0xFFFF + 1) = .ok ∧ MemOp.size (.read 2) = 2 ∧
      tGoes (exec (.hostMemAccess 0xFFFF 0xFFFF (.read 2)) s) (fun t => t.out == [.memDone false []] && t.devErrs == [(0, .accessError 0xFFFF 0xFFFF)]) = true) := by decide +kernel

/-- The last context number with an ASID whose generation wraps; a granule to context 0 and to none, the last before the tier cache. -/
theorem test_witness_HostEvents_create : (let s := tHost (fun s => { s with gens := [(4095, 15)] }); !s.descBad tDesc && !s.descTaken 4095 tDesc && Lifecycle.tenants s.trust.lifecycle && s.trust.unlocking.isNone && s.auditRoom &&
      tGoes (exec (.ctxCreate 0xFFFF 4095 tDesc) s) (fun t => (t.ctxs.find 4095).any (fun c => c.gen == 0 && c.part == [64, 223]) && t.trust.audit.length == 1)) = true ∧
    (let s := tHost (fun s => { s with mem := [(tcBase - 1, 7)] }); s.granulesOk (tcBase - 2 ^ 16) 1 && decide (tcBase - 2 ^ 16 + 1 * 2 ^ 16 ≤ tcBase) && (s.ctxs.find 0).any (fun c => decide (c.state ≠ .releasing)) &&
      tGoes (exec (.frameAssign 1 0 (tcBase - 2 ^ 16) 1) s) (fun t => t.mem.isEmpty && t.owners == [(tcBase / 2 ^ 16 - 1, ownerMark 0 1)]) &&
      tGoes (exec (.frameAssign 1 0xFFFF (tcBase - 2 ^ 16) 1) s) (fun t => t.mem.isEmpty && t.owners.isEmpty)) = true := by decide +kernel

/-- The last node registered, a node re-registered and unregistered; a context pre-empted, resumed and released. -/
theorem test_witness_HostEvents_nodes : (let s := tHost id; !(Node.fresh tNodeDesc 0).bad 0 && (s.nodes.find 4095).isNone && (s.nodes.find 0).any (fun n => decide (n.ctx = 0) && n.closing.isNone) &&
      tGoes (exec (.nodeReg 1 0 4095 tNodeDesc) s) (fun t => (t.nodes.find 4095).any (fun n => n.recCount == 2)) && tGoes (exec (.nodeReg 1 0 0 tNodeDesc) s) (fun t => t.out.isEmpty) &&
      tGoes (exec (.nodeUnreg 1 0 0) s) (fun t => (t.nodes.find 0).any (fun n => n.closing == some (1, none)))) = true ∧
    (let s := tHostCtx (fun c => { c with state := .saved, part := [] }) (fun s => s.updCore 0 (fun c => { c with ctx := none })); !s.coreOut 223 && decide ((s.core 223).ctx = none) &&
      tGoes (exec (.resume 1 0 [223]) s) (fun t => (t.ctxs.find 0).any (fun c => c.state == .resuming && c.part == [223]) && t.waiting == [.resume 1 0] && t.cmds == [⟨0, 1, none⟩])) = true ∧
    ([CtxState.active, .saved].all (fun x => let s := tHostCtx (fun c => { c with state := x }) id; s.waiting.isEmpty && tGoes (exec (.ctxRelease 1 0) s) (fun t => t.waiting == [.released 1 0] && t.nodes.isEmpty))) = true ∧
    ([CtxState.saving, .resuming].all (fun x => let s := tHostCtx (fun c => { c with state := x }) id; tGoes (exec (.ctxRelease 1 0) s) (fun t => t.waiting == [.release 1 0]))) = true := by decide +kernel

/-- A released context's scrub. -/
theorem test_witness_HostEvents_releaseDone : (let s := tHostCtx (fun c => { c with state := .releasing }) (fun s => { s with waiting := [.released 1 0], cmds := [⟨0, 1, none⟩] }); (s.ctxs.find 0).any (fun c => decide (c.state = .releasing)) && s.auditRoom &&
    tGoes (exec (.ctxReleaseDone 0) s) (fun t => t.ctxs.isEmpty && (t.core 0).ctx.isNone && t.out == [.complete 1 0 0 0 []] && t.cmds.isEmpty)) = true := by decide +kernel

/-- A fault record. -/
def tFault : FaultRec := { task := 5, pc := 6, va := 7, tag := 0, bf := none, mask := 0xFF, strand := 0, slice := .access, disp := 0, cause := 1, code := 1 }

/-- R332: an entry's place is its number modulo 4,096, and it holds the record of Table 18.2. -/
theorem test_logFault : (let s := (tHostCtx (fun c => { c with desc := tDesc, faults := { c.faults with next := 4098 } }) id).logFault 0 tFault;
    let at_ := tcBase - 262144 + 64;
    s.mem.bytes at_ 32 = w64Bytes 5 ++ w64Bytes 6 ++ w64Bytes 7 ++ [1, 1, 0, 0, 0xFE, 1, 0, 0] ∧ s.mem.length = 8) := by decide +kernel

/-- Counters of the context's core, at once and behind an earlier command of the context. -/
theorem test_witness_HostEvents_perf : (let s := tHostCtx id id; (s.ctxs.find 0).any (fun c => decide (c.state ≠ .releasing)) && decide ((s.core 0).ctx = some 0) &&
      tGoes (exec (.perfRead 1 0 0) s) (fun t => t.out == [.complete 1 0 0 0 (List.replicate 128 0)]) &&
      (let u : State := { s with cmds := [⟨0, 2, none⟩] }; decide (Cmd.release [] u.cmds = (u.cmds, [])) && tGoes (exec (.perfRead 1 0 0) u) (fun t => t.out.isEmpty && t.cmds.length == 2))) = true := by decide +kernel

/-- Two fault records into a buffer of one. -/
theorem test_witness_HostEvents_log : (let s := tHostCtx (fun c => { c with faults := ⟨[(0, tFault), (1, tFault)], 2, 0⟩ }) id; (s.ctxs.find 0).any (fun c => decide (c.state ≠ .releasing) && ((c.faults.from_ 0).map (fun e => e.2.bytes)).length == 2) &&
      s.bufferOk tBuf 63 && tGoes (exec (.logRead 1 0 0 0 tBuf 63) s) (fun t => t.out == [.complete 1 0 0 1 []] && t.physByte tBuf == 5)) = true := by decide +kernel

/-- Two events, of which one has the context. -/
theorem test_witness_HostEvents_evlog : (let s := tHost (fun s => { s with dbg := ⟨[(0, .traceEnd 3 1), (1, .stopped 9)], 2, 0⟩ }); s.bufferOk tBuf 63 && tGoes (exec (.evlogRead 1 0 tBuf 63) s) (fun t => t.out.length == 1)) = true := by decide +kernel

/-- A nonce; a stop set; a halted workgroup continued, and a halted launch. The token commands' hypotheses, with the audit log one entry short of full. -/
theorem test_witness_HostEvents_trust : (let s := tHost id; s.bufferOk tBuf 63 && s.auditRoom && !s.trust.debugOpen && s.trust.unlocking.isNone && tGoes (exec (.unlockNonce 1) s) (fun t => t.trust.nonce.any (fun n => n.length == 48) && t.trust.nonces == 1)) = true ∧
    tGoes (exec (.stop 1 4095 true) (tPush [])) (fun t => (t.nodes.find 4095).any (fun n => n.stopSet)) = true ∧
    (let s := tDone (fun g => { g with hold := .halted }) (fun s => { s with plat := { s.plat with ready := true } }); (s.wgs.find loadWg).any (fun g => g.hold == .halted && tGoes (exec (.continueTask 1 g.task) s) (fun t => t.wgs.all (fun g => g.2.hold == .continued)))) = true ∧
    (let s := tHost (fun s => { s with launched := [(60, ⟨0, 4, [], 0, none, .halted⟩)] }); tGoes (exec (.continueTask 1 (s.heldId 0 4)) s) (fun t => t.launched.all (fun l => l.2.hold == .continued))) = true := by decide +kernel

/-- A PREEMPT as its message, by hand from Tables 25.6 and 25.7: tag 0x0201, opcode 0x20, context 0; with a length of 8, and with a reserved opcode. -/
theorem test_witness_HostEvents_message : (let s := tHostCtx id id; let m (opc len : Byte) (p : List Byte) : List Byte := [1, 2, opc, 0, 0, 0, len, 0, 0, 0, 0, 0, 0, 0, 0, 0] ++ p;
      tGoes (s.message (m 0x20 0 [])) (fun t => t.out == [.complete 0x0201 0 0 0 []] && (t.ctxs.find 0).any (fun c => decide (c.state = .saving))) &&
      tGoes (s.message (m 0x20 8 (List.replicate 8 0))) (fun t => t.out == [.complete 0x0201 2 6 0 []] && t.ctxs == s.ctxs) && tGoes (s.message (m 0x13 0 [])) (fun t => t.out == [.complete 0x0201 2 6 0 []]) &&
      tGoes (step { s with moves := [.message (m 0x20 0 [])] }) (fun t => t.out == [.complete 0x0201 0 0 0 []])) = true ∧
    (OutMsg.complete 0x0201 1 5 0x0807060504030201 [9]).completion = some [1, 2, 1, 0, 5, 0, 1, 0, 1, 2, 3, 4, 5, 6, 7, 8, 9] := by decide +kernel

/-! ### Device events -/

/-- A device whose core 223 has a trace unit. -/
def tTrace (u : TraceUnit → TraceUnit) : State := tPush [] |>.updCore 223 (fun c => { c with trace := u ⟨0, .idle, BitVec.ofNat 64 (tcBase - 64), 64, 0, 0, 0, [], [], 0⟩ })

/-- A trace unit armed, its records written: one of two, the last of two without WRAP, and a third with WRAP; a fifth sampler's tag. -/
theorem test_witness_DeviceEvents_trace : (let s := tTrace id; s.trust.debugOpen && s.openRange (tcBase - 64) 64 && tGoes (exec (.traceArm 223) s) (fun t => (t.core 223).trace.state == .armed)) = true ∧
    ([(0, 0, false, tcBase - 64), (0, 1, true, tcBase - 32), (4, 2, false, tcBase - 64)] : List (W64 × Nat × Bool × Nat)).all (fun p =>
      let s := tTrace (fun u => { u with ctl := p.1, state := .capturing, count := p.2.1, issued := [⟨4, 1, 2, 3⟩] });
      tGoes (exec (.traceTrigger 223) s) (fun t => (t.core 223).trace.count == p.2.1 + 1 && t.physByte p.2.2.2 == 1 && t.physByte (p.2.2.2 + 24) == 3 && ((t.core 223).trace.state == .done) == (p.2.2.1 || (s.core 223).stopHolds))) = true ∧
    (let s := (tTrace id).putSampler 223 4 { Sampler.fresh with left := 1 };
      tGoes (exec (.stitchSampleTag 223 4) s) (fun t => ((t.core 223).sampler 4).tagged) && tGoes (exec (.stitchSampleTag 223 3) s) (fun t => !((t.core 223).sampler 3).tagged)) = true := by decide +kernel

/-- The end of an interval of instructions on the access slice: counted, sampled at once, dropped by a trap, and held until a load has written back. -/
theorem test_witness_DeviceEvents_sample : (let n : IssueNote := ⟨⟨⟨223, 0⟩, .access, 5⟩, 7, 4, 9, 0x40, 1, false, 3, false⟩;
    let s := (tTrace id).putSampler 223 4 { Sampler.fresh with left := 1 };
    ((((tTrace id).noteSample n 0 false).core 223).sampler 4).left == 65535 && ((s.noteSample n 0 true).core 223).samples.isEmpty &&
      ((s.noteSample n 0 false).core 223).samples.any (fun p => p.1 == 4 && p.2.ctx == 7 && p.2.words.take 2 == [9, 0x40]) && (((s.noteSample n 0 false).core 223).sampler 4).seq == 1 &&
      (s.loadSince n.sid 0).isNone && (((s.putSampler 223 4 { Sampler.fresh with held := some (3, ⟨7, [9]⟩) }).closeSamples 223).core 223).samples.isEmpty) = true := by decide +kernel

/-- The audit log acknowledged and appended to, a register extended. -/
theorem test_witness_DeviceEvents_audit : (let s := tHost (fun s => { s with trust := { s.trust with audit := [⟨0, .boot, 0xFFFF, [], []⟩, ⟨1, .typed, 0xFFFF, [], []⟩] } }); tGoes (exec (.auditExportAck 0) s) (fun t => t.trust.audit.map AuditEntry.seq == [1])) = true ∧
    (let s := tHost id; s.auditRoom && tGoes (exec (.auditTypedAppend (List.replicate 48 1)) s) (fun t => t.trust.auditNext == 1 && t.trust.audit.length == 1)) = true ∧
    tGoes (exec (.measExtend 7 (List.replicate 48 1)) (tHost id)) (fun t => t.trust.meas[7]? == some (sha384 (List.replicate 48 0 ++ List.replicate 48 1)) && t.trust.meas[6]? == some (List.replicate 48 0)) = true := by decide +kernel

/-- Channel 255, corrected for the sixteenth time, at the window's end and one clock after. -/
theorem test_witness_DeviceEvents_corrected : ([(2 ^ 32 + 1, true), (2 ^ 32 + 2, false)] : List (Nat × Bool)).all (fun p =>
    let s := tHost (fun s => { s with clock := p.1, doms := [⟨.channel 255, 1 :: List.replicate 14 9, 15, 0, false, false, false, []⟩] });
    Domain.ok (.channel 255) && !(s.dom (.channel 255)).fenced && tGoes (exec (.correctedError (.channel 255)) s) (fun t => (t.dom (.channel 255)).quiesced == p.2 && (t.dom (.channel 255)).total == 16)) = true := by decide +kernel

/-- An uncorrected error of each kind of domain. -/
theorem test_witness_DeviceEvents_uncorrected : ([.channel 255, .fabricPort 143, .cxlPort 15, .core 0, .copyUnit 9, .l2slice 223] : List Domain).all (fun d =>
    let s := tHost (fun s => { s with l2 := [], wgs := [(loadWg, loadGroup .access)], copies := (tCopies (.tcopy 1 0) 0 true).copies });
    Domain.ok d && !(s.dom d).quiesced && tGoes (exec (.uncorrectedError d) s) (fun t => (t.dom d).quiesced && t.out.getLast?.any (fun o => match o with | .notice _ (.error e) => e == d | _ => false))) = true := by decide +kernel

/-- A self-test passed and failed: an L2 slice that gave an entry of the home table away, and a core. -/
theorem test_witness_DeviceEvents_selfTest : (let s := tHost (fun s => { s with homeTable := s.homeTable.map (fun n => if n = 223 then 0 else n), doms := [⟨.l2slice 223, [1], 1, 0, true, false, false, [895]⟩, ⟨.core 3, [], 1, 0, true, false, false, []⟩] });
    (s.dom (.l2slice 223)).quiesced && (s.dom (.core 3)).quiesced && s.wgs.isEmpty && s.auditRoom && tGoes (exec (.selfTestDone (.l2slice 223) true) s) (fun t => t.homeTable[895]? == some 223 && (t.dom (.l2slice 223)).soft == 1) &&
      tGoes (exec (.selfTestDone (.core 3) false) s) (fun t => (t.core 3).fenced && (t.dom (.core 3)).fenced)) = true := by decide +kernel

/-- A device in a Rinse pass, channel 255 at a line and the other channels at another. -/
def tRinse (b o : Nat) (k : State → State) : State :=
  tHost (fun s => k { s with rinse := ⟨some 0, 4, true⟩, channels := (List.range 256).map (fun ch => (ch, { s.channel 0 with boundary := if ch = 255 then b else o })) })

/-- A line before the last, the last of the channel while channel 0 goes on, the last of all, and one whose MAC failed. -/
theorem test_witness_DeviceEvents_rinse : ([(2 ^ 23 - 2, 0, true), (2 ^ 23 - 1, 2 ^ 23 - 1, true), (2 ^ 23 - 1, 2 ^ 23, false)] : List (Nat × Nat × Bool)).all (fun p => let s := tRinse p.1 p.2.1 id;
      s.rinsing && !s.domDead (.channel 255) && s.auditRoom && tGoes (exec (.rinseStep 255) s) (fun t => t.rinse.opened == p.2.2 && (p.2.2 || t.rinse.version == 5))) = true ∧
    (let s := tRinse 5 0 (fun s => { s with badLines := [(channelLine 255 5, 1)] }); s.rinsing && decide (s.badLines.get (channelLine 255 5) ≠ 0) && tGoes (exec (.rinseStep 255) s) (fun t => (t.channel 255).errors == 1 && t.trust.audit.any (fun e => e.ty == .integrity && e.ctx == 0xFFFF) && (t.dom (.channel 255)).dead)) = true ∧
    (let s := tHost (fun s => { s with rinse := ⟨some 5, 4, false⟩, clock := 5 + 2 ^ 47 }); !s.rinsing && tGoes (exec .rinsePassStart s) (fun t => t.rinse == ⟨some (5 + 2 ^ 47), 4, true⟩ && (t.ctxs.find 0).any (fun c => c.keyVer == (4, some 5)))) = true ∧
    (let s := tHost id; !s.rinsing && s.rinse.began.isNone && s.plat.ready && tGoes (exec .rinsePassStart s) (fun t => t.rinse.opened)) = true := by decide +kernel

/-- Refreshes, by clock, last MEMORY-class request and bank: ahead 4,096 clocks after the request, not a clock earlier, with a full bank; due and postponed, due with an empty bank, due in a
compute interval. A clock issues the refreshes that are due. A heartbeat and a takeover of stack 7. -/
theorem test_witness_DeviceEvents_refresh : ([(4096, 0, 7, 8, 0), (4095, 0, 7, 7, 0), (4096, 0, 8, 8, 0), (7410, 7000, 8, 7, 7410), (7410, 7000, 0, 0, 7410), (7410, 0, 3, 3, 7410)] : List (Nat × Nat × Nat × Nat × Nat)).all (fun p =>
      let s := tHost (fun s => { s with clock := p.1, channels := [(255, { s.channel 0 with lastMem := some p.2.1, banked := p.2.2.1 })] });
      tGoes (exec (.refresh 255) s) (fun t => (t.channel 255).banked == p.2.2.2.1 && (t.channel 255).lastRef == p.2.2.2.2)) = true ∧
    (let s := tHost (fun s => { s with clock := 7409, moves := [.tick 50, .tick 1], plat := { s.plat with stage := 6 } }); tGoes (step s) (fun t => t.clock == 7410 && t.channels.isEmpty && tGoes (step t) (fun u => u.clock == 7411 && u.channels.length == 256))) = true ∧
    (let s := tHost (fun s => { s with clock := 3800 }); (s.pledans[7]?).any (fun p => !p.takenOver && decide (p.lastBeat + 3800 ≤ s.clock)) && s.auditRoom && tGoes (exec (.heartbeat 7) s) (fun t => (t.pledans[7]?).any (fun p => p.lastBeat == 3800)) &&
      tGoes (exec (.refreshTakeover 7) s) (fun t => (t.pledans[7]?).any (fun p => p.takenOver) && t.out == [.notice 0 (.stackError 7)])) = true := by decide +kernel

/-- Power: IDLE, a trip, recovery, a shutdown 2^21 clocks after the trip, and resets. -/
theorem test_witness_DeviceEvents_power : (let s := tHost id; decide (s.plat.pstate = .active) && s.plat.ready && s.plat.idleEn && s.idle && tGoes (exec .idleEnter s) (fun t => t.plat.pstate == .idle) &&
      tGoes (exec .thermalTrip s) (fun t => t.plat.trip && t.plat.tripAt == some 64)) = true ∧
    (let s := tHost (fun s => { s with clock := 2 ^ 21, plat := { s.plat with pstate := .thermal, tripAt := some 0 } }); decide (s.plat.pstate = .thermal) && !s.plat.stopping && tGoes (exec .thermalRecover s) (fun t => t.plat.pstate == .active) &&
      tGoes (exec .thermalShutdown s) (fun t => t.plat.stopping && (t.ctxs.find 0).any (fun c => c.state == .saving))) = true ∧
    tGoes (exec .reset (tHost id)) (fun t => t.nodes.isEmpty && !t.plat.ready && t.plat.pstate == .active) = true ∧ tGoes (exec .powerOff (tHost id)) (fun t => t.plat.pstate == .off) = true := by decide +kernel

/-! ### Fabric events -/

/-- The host's device at clock 2^24, with device 1 a peer and the fabric adjusted. -/
def tFab (g : Fabric → Fabric) : State := tHost (fun s => { s with clock := 2 ^ 24, fabric := g { s.fabric with peers := [1], paths := [(1, 0, [5, 6])] } })

/-- A packet from a device to a device, and an answer to it. -/
def tPkt (typ : Option PktTy) (src dst : BitVec 12) (seq : BitVec 32) (bytes : BitVec 9) (payload : List Byte) : Packet := ⟨BitVec.ofNat 64 (tcBase - 8), seq, 1, 63, 0, dst, src, 0, typ, 0, bytes, payload, false, 0, none, none, none⟩

/-- A message of the directory about a line. -/
def tCoh (typ : PktTy) (src dst : BitVec 12) (line : Nat) (msg : CohMsg) (payload : List Byte) : Packet := { tPkt (some typ) src dst 0 0 payload with coh := some ⟨line, 2, msg⟩ }

/-- The directory messages on the wire: destination, line and message. -/
def tMsgs (s : State) : List (BitVec 12 × CohMsg) := s.fabric.wire.filterMap (fun p => p.coh.map (fun c => (p.dst, c.msg)))

/-- A packet's switch: a quiesced and a dead port of its source, a reserved TYPE and a hop that is no down port, another device, and this one. -/
theorem test_witness_FabricEvents_switch : (let one (p : Packet) (q d : Bool) : State := { (tFab (fun f => { f with wire := [p] })) with doms := [⟨.fabricPort 0, [], 0, 0, q, false, d, []⟩] };
    let own := tPkt (some .read) 0 1 0 8 [];
    (one own true false).domWaits (.fabricPort 0) && tGoes (exec (.switchForward 0) (one own true false)) (fun t => t.fabric.wire == [own]) && !(one own false true).domWaits (.fabricPort 0) && (one own false true).domDead (.fabricPort 0) &&
      tGoes (exec (.switchForward 0) (one own false true)) (fun t => t.fabric.wire == [] && t.fabric.switchErrors == 0) && tGoes (exec (.switchForward 0) (one { own with typ := none } false false)) (fun t => t.fabric.wire == [] && t.fabric.switchErrors == 1) &&
      !Packet.routed { own with route := 64 } && tGoes (exec (.switchForward 0) (one { own with route := 64 } false false)) (fun t => t.fabric.switchErrors == 1) &&
      Packet.routed own && tGoes (exec (.switchForward 0) (one own false false)) (fun t => t.fabric.delivered == 1) &&
      tGoes (exec (.switchForward 0) (one (tPkt (some .read) 1 0 0 8 []) false false)) (fun t => t.fabric.wire.any (fun a => a.typ == some .response && a.dst == 1))) = true ∧
    tGoes (exec (.linkFlitReplay 143) (tFab id)) (fun t => t.fabric.replays == 1) = true ∧ tGoes (exec (.creditReturn 0 63 [1, 2]) (tFab id)) (fun t => t.fabric.depths == [((0, 63), [1, 2])]) = true := by decide +kernel

/-- The window of device 1 at the last SEQ. -/
def tWin (kept : List (Nat × Packet)) : State := tFab (fun f => { f with recv := [⟨1, 0, 2 ^ 32 - 1, [], kept⟩] })

/-- The packet in its turn, its place in the map, the answer; a repeat, and one that is 4,095 ahead. -/
theorem test_witness_FabricEvents_receive : (let s := tWin []; let pa := tcBase - 8;
    ((s.fabric.window 1 0).next == 2 ^ 32 - 1 && s.packetCtx (tPkt (some .read) 1 0 0 8 []) == some 0 && !isReg pa && s.inMap pa && s.inMap (pa + 7) && decide (s.own 0 pa = .ok) && decide (s.own 0 (pa + 7) = .ok) && (s.fabric.dirLine (remKey s.fabric.device pa / 256)).evict.isEmpty && s.served pa && s.served (pa + 7) && s.isTier pa == s.isTier (pa + 7)) &&
    tGoes (exec (.fabricPacketReceive (tPkt (some .read) 1 0 0xFFFFFFFF 8 [])) s) (fun t => t.fabric.wire.map (fun a => (a.typ, a.payload.length)) == [(some .response, 8)] && (t.fabric.window 1 0).next == 0) &&
    tGoes (exec (.fabricPacketReceive (tPkt (some .write) 1 0 0xFFFFFFFF 8 [1, 2, 3, 4, 5, 6, 7, 8])) s) (fun t => t.physByte (pa + 7) == 8 && t.fabric.wire.map Packet.typ == [some .ack]) &&
    tGoes (exec (.fabricPacketReceive (tPkt (some .atomic) 1 0 0xFFFFFFFF 8 [])) s) (fun t => t.fabric.wire.map Packet.typ == [some .nak]) &&
    tGoes (exec (.fabricPacketReceive (tPkt (some .read) 1 0 0xFFFFFFFE 8 [])) (tWin [(0xFFFFFFFE, tPkt (some .ack) 0 1 9 0 [])])) (fun t => t.fabric.wire == [tPkt (some .ack) 0 1 9 0 []]) &&
    tGoes (exec (.fabricPacketReceive (tPkt (some .read) 1 0 4094 8 [])) s) (fun t => (t.fabric.window 1 0).held.length == 1 && t.fabric.wire.isEmpty)) = true := by decide +kernel

/-- This device's packet to device 1, unanswered, used for something. -/
def tSent (use_ : PktUse) (resends : Nat) : Sent := ⟨{ tPkt (some .read) 0 1 7 4 [] with addr := 0x10080 }, 2 ^ 24 - 2 ^ 18, resends, 1, use_⟩

/-- A transfer of context 0. -/
def tMove (kind : XferKind) (len acked : Nat) : Xfer := ⟨70, 0, 0, tStrandId .access, 0, kind, 0x10080, 0, len, 0, len, acked, false, [], []⟩

/-- Line 5 of device 1, wanted. -/
def tWant (data : Bool) (acks : Option Nat) (got : Nat) : DirWant := ⟨2 ^ 43 + 5, .getm, acks, got, data, false, none, false⟩

/-- The last acknowledgement of a line, one before the data, the data, a NACK and a message of a failed spine. -/
theorem test_witness_FabricEvents_messages : (let line := 2 ^ 43 + 5; let ack := tCoh .ack 1 0 line .ack [];
    let want (w : DirWant) : State := tFab (fun f => { f with sent := [tSent (.dir line) 0], wants := [w] });
    !(tFab id).fabric.stale ⟨line, 2, .ack⟩ && tGoes (exec (.fabricAnswerReceive ack) (want (tWant true (some 2) 1))) (fun t => t.fabric.lines == [(line, .m)] && t.fabric.wants.isEmpty && (tMsgs t).map Prod.snd == [.done false]) &&
      tGoes (exec (.fabricAnswerReceive ack) (want (tWant false (some 2) 1))) (fun t => t.fabric.wants == [tWant false (some 2) 2]) &&
      tGoes (exec (.fabricAnswerReceive (tCoh .response 1 0 line (.data false) (List.replicate 256 3))) (want (tWant false (some 2) 1))) (fun t => t.fabric.wants == [tWant true (some 2) 1] && (t.lineBytes line)[255]? == some 3) &&
      tGoes (exec (.fabricAnswerReceive (tCoh .response 1 0 line (.data false) (List.replicate 256 3))) (want (tWant false (some 1) 1))) (fun t => t.fabric.lines == [(line, .m)]) &&
      tGoes (exec (.fabricAnswerReceive (tCoh .nak 1 0 line .nack [])) (want (tWant false none 0))) (fun t => t.fabric.wants.any (fun w => w.nackAt.isSome)) &&
      (let s := tFab (fun f => { f with wants := [tWant true (some 2) 1], failedSpines := [(dirPlane line, 2)] }); s.fabric.stale ⟨line, 2, .ack⟩ && tGoes (exec (.fabricAnswerReceive ack) s) (fun t => t.fabric.wants == s.fabric.wants))) = true := by decide +kernel

/-- The last and an earlier packet of a transfer; a message; an answer to nothing; the data of an element. -/
theorem test_witness_FabricEvents_answers : (let ack := tPkt (some .ack) 1 0 7 0 [];
      [(4, 0), (0, 1)].all (fun p => tGoes (exec (.fabricAnswerReceive ack) (tFab (fun f => { f with sent := [tSent (.bulk 70) 0], xfers := [tMove (.write 1) 8 p.1] }))) (fun t => t.fabric.xfers.length == p.2)) &&
      tGoes (exec (.fabricAnswerReceive ack) (tFab (fun f => { f with sent := [tSent .message 0] }))) (fun t => t.fabric.sent.isEmpty) && tGoes (exec (.fabricAnswerReceive { ack with seq := 8 }) (tFab (fun f => { f with sent := [tSent .message 0] }))) (fun t => t.fabric.sent.length == 1)) = true ∧
    (let s := tAfter (.ld none 5 (.reg 9) true 1) tMem;
     let s2 : State := { s with accs := s.accs.map (fun a => { a with lines := [⟨1, 0x10080, 4, true, false, true, false⟩] }) };
     (s2.accs.head?).any (fun a => tGoes (exec (.fabricAnswerReceive (tPkt (some .response) 1 0 7 4 [9, 8, 7, 6])) { s2 with fabric := { s2.fabric with sent := [tSent (.elem a.id 0) 0] } })
        (fun t => t.accs.any (fun b => b.lines.all (fun l => l.done) && b.buf.get (remKey 1 0x10083) == valid9 6)))) = true := by decide +kernel

/-- A packet sent again for the eighth time on the next alternative, and one that is given up. -/
theorem test_witness_FabricEvents_resend : (let s := tFab (fun f => { f with sent := [tSent .message 7] }); s.fabric.sent.any (fun k => decide (k.at_ + 2 ^ 18 ≤ s.clock)) && decide ((s.fabric.alternatives 1 0).length ≠ 0) &&
      tGoes (exec (.e2eResend 1 0 7) s) (fun t => t.fabric.sent.map (fun k => (k.resends, k.alt)) == [(8, 0)] && t.fabric.wire.length == 1)) = true ∧
    tGoes (exec (.e2eResend 1 0 7) (tFab (fun f => { f with sent := [tSent .message 8] }))) (fun t => t.fabric.sent.isEmpty && t.fabric.unreach == [(1, 0)]) = true := by decide +kernel

/-- A piece of group 3, whose members are devices 0, 63 and 64. -/
def tPiece (contribs partials : List (Nat × List Byte)) (result : Option (List Byte)) : RedPiece := ⟨⟨3, 2, 8⟩, 0, .add, .int32, contribs, partials, 0, [], result, false⟩

/-- Group 3 and a piece. -/
def tGroup (r : RedPiece) (xs : List Xfer) : State := { (tFab (fun f => { f with groups := [⟨3, [0, 63, 64]⟩], pieces := [r], xfers := xs })) with ctxs := (tHost id).ctxs }

/-- The leaf combines its two members' pieces, the root its two leaves'; the result ends a transfer, or reaches no transfer; a piece 2^24 clocks old. -/
theorem test_witness_FabricEvents_reduction : (let s := tGroup (tPiece [(63, [2, 0, 0, 0]), (0, [255, 255, 255, 255])] [] none) [];
      ((List.range 4096).filter (fun d => (s.fabric.members 3).contains d && d / 64 = 0) == [0, 63]) && tGoes (exec (.reductionLeafCombine 0 ⟨3, 2, 8⟩) s) (fun t => t.fabric.pieces.map (fun r => (r.contribs, r.partials)) == [([], [(0, [1, 0, 0, 0])])])) = true ∧
    (let s := tGroup (tPiece [] [(1, [2, 0, 0, 0]), (0, [3, 0, 0, 0])] none) []
     tGoes (exec (.reductionRootCombine ⟨3, 2, 8⟩) s) (fun t => t.fabric.pieces.map RedPiece.result == [some [5, 0, 0, 0]] && t.fabric.wire.map (fun p => (p.typ, p.payload)) == [(some .redresult, [5, 0, 0, 0])])) = true ∧
    (let r := tPiece [] [] (some [1, 2, 3, 4]); (tGroup r []).reduceXfer ⟨3, 2, 8⟩ = none ∧ tGoes (exec (.redresult ⟨3, 2, 8⟩) (tGroup r [])) (fun t => t.fabric.pieces.isEmpty) = true ∧
      (let s := tGroup r [tMove (.reduce 3 2 .add .int32) 12 8]; (match s.enginePlaces 0 0 0 70 0x10088 4 .write with | .ok t l => decide (t = s) && l == (List.range 4).map (fun i => Loc.phys .coh (0x10088 + i)) | _ => false) &&
        tGoes (exec (.redresult ⟨3, 2, 8⟩) s) (fun t => t.physByte 0x1008B == 4 && t.fabric.xfers.isEmpty)) = true) ∧
    tGoes (exec (.reduceAbandoned ⟨3, 2, 8⟩) (tGroup (tPiece [] [] none) [tMove (.reduce 3 2 .add .int32) 12 8])) (fun t => t.fabric.pieces.all (fun r => r.gone) && t.fabric.pieces.length == 1 &&
      (t.ctxs.find 0).any (fun c => c.errors.entries.map Prod.snd == [.reduceAbandoned ⟨3, 2, 8⟩])) = true := by decide +kernel

/-- The directory entry of line 0x100 of this device. -/
def tDir (g : DirLine → DirLine) (h : Fabric → Fabric) : State := tFab (fun f => h { f with dir := [g ⟨0x100, none, [], none, [], false, none, [], 0, []⟩] })

/-- Requests of device 1: begun, queued as the eighth, held for a census, refused as the ninth; a PUTM of the owner and of another device; this device's request at its spine. -/
theorem test_witness_FabricEvents_dirreq : ((tDir id id).fabric.hasRoom 0x100 && tGoes (exec (.dirreq 0x100 .getm 1) (tDir (fun d => { d with sharers := [1, 2] }) id)) (fun t => let d := t.fabric.dirLine 0x100
        d.busy == some (.getm, 1) && d.fwd == some 0 && d.invs == [2] && d.acks == 1 && (tMsgs t).contains (2, .inv (some 1)) && (tMsgs t).contains (1, .resp 1 false)) &&
      tGoes (exec (.dirreq 0x100 .gets 1) (tDir (fun d => { d with busy := some (.getm, 1), queue := List.replicate 7 (.gets, 2) }) id)) (fun t => (t.fabric.dirLine 0x100).queue.length == 8) &&
      tGoes (exec (.dirreq 0x100 .gets 1) (tDir (fun d => { d with blocked := true }) id)) (fun t => (t.fabric.dirLine 0x100).queue == [(.gets, 1)] && tMsgs t == [(1, .census)]) &&
      tGoes (exec (.dirreq 0x100 .gets 1) (tDir (fun d => { d with busy := some (.getm, 1), queue := List.replicate 8 (.gets, 2) }) id)) (fun t => (t.fabric.dirLine 0x100).queue.length == 8 && tMsgs t == [(1, .nack)]) &&
      tGoes (exec (.dirreq 0x100 .putm 1) (tDir (fun d => { d with owner := some (1, .m) }) id)) (fun t => (t.fabric.dirLine 0x100).busy == some (.putm, 1) && (t.fabric.dirLine 0x100).evict == [1]) &&
      tGoes (exec (.dirreq 0x100 .putm 1) (tDir (fun d => { d with owner := some (2, .m) }) id)) (fun t => (t.fabric.dirLine 0x100).busy.isNone) &&
      (let p := tCoh .dirreq 0 0 0x100 (.req .getm) []; let s := tDir id (fun f => { f with wire := [p] });
       s.fabric.wire.findIdx? (fun p => p.src.toNat = 0 && decide ((p.coh.map fun c => (c.line, c.msg)) = some (0x100, .req .getm))) == some 0 &&
         tGoes (exec (.dirreq 0x100 .getm 0) s) (fun t => (t.fabric.dirLine 0x100).busy == some (.getm, 0)))) = true := by decide +kernel

/-- A forward that nothing awaits, one for device 1 and one for this device; a response with the count that is reached, and with another; an invalidation. -/
theorem test_witness_FabricEvents_dirfwd : (tGoes (exec (.dirfwd 0x100 .gets 1) (tDir id id)) (fun t => t.fabric.wire.isEmpty) &&
      tGoes (exec (.dirfwd 0x100 .gets 1) (tDir (fun d => { d with busy := some (.gets, 1), fwd := some 0 }) (fun f => { f with lines := [(0x100, .m)] }))) (fun t => t.fabric.supplied == [(0x100, .gets, 1)] && tMsgs t == [(1, .data true)] && t.fabric.wire.all (fun p => p.payload.length == 256)) &&
      (let s := (tDir (fun d => { d with busy := some (.getm, 0), fwd := some 0 }) (fun f => { f with wants := [{ tWant false none 0 with line := 0x100 }] })).setPhysBytes 0x100FF [6]
       tGoes (exec (.dirfwd 0x100 .getm 0) s) (fun t => t.physByte 0x100FF == 6 && (t.fabric.dirLine 0x100).fwd.isNone && t.fabric.wants.all (fun w => w.data))) &&
      [(1, true), (0, false)].all (fun p => tGoes (exec (.dirresp 0x100 1) (tDir (fun d => { d with busy := some (.getm, 0), acks := 1 }) (fun f => { f with wants := [{ tWant true none p.1 with line := 0x100 }] }))) (fun t => t.fabric.wants.isEmpty == p.2)) &&
      tGoes (exec (.directoryInv 0x100 4095) (tDir (fun d => { d with busy := some (.getm, 4095), invs := [0] }) (fun f => { f with lines := [(0x100, .s)] }))) (fun t => t.fabric.lines.isEmpty && (t.fabric.dirLine 0x100).invs.isEmpty && tMsgs t == [(4095, .ack)])) = true := by decide +kernel

/-- Requests done: a GETM, a GETS that meets an E owner, an M owner, no holder and sharers; and this device's DONE at its spine. -/
theorem test_witness_FabricEvents_done : ([(.getm, some (1, .m), [2], some (3, .m), []), (.gets, some (1, .e), [2], none, [1, 2, 3]), (.gets, some (1, .m), [2], some (1, .o), [2, 3]), (.gets, none, [], some (3, .e), []), (.gets, none, [2], none, [2, 3])] :
      List (DirReq × Option (Nat × Moesi) × List Nat × Option (Nat × Moesi) × List Nat)).all (fun p => tGoes (exec (.directoryDone 0x100 3) (tDir (fun d => { d with busy := some (p.1, 3), owner := p.2.1, sharers := p.2.2.1 }) id))
        (fun t => let d := t.fabric.dirLine 0x100; d.busy.isNone && d.owner == p.2.2.2.1 && d.sharers.all (fun x => p.2.2.2.2.contains x) && p.2.2.2.2.all (fun x => d.sharers.contains x))) = true ∧
    tGoes (exec (.directoryDone 0x100 0) (tDir (fun d => { d with busy := some (.getm, 0) }) (fun f => { f with wire := [tCoh .ack 0 0 0x100 (.done false) []] }))) (fun t => (t.fabric.dirLine 0x100).owner == some (0, .m) && t.fabric.wire.isEmpty) = true := by decide +kernel

/-- A NACK 256 clocks old, a request 2^18 clocks old, a census, and its rebuilding. -/
theorem test_witness_FabricEvents_census : (tGoes (exec (.directoryRetry (2 ^ 43 + 5)) (tFab (fun f => { f with wants := [{ tWant false none 0 with nackAt := some (2 ^ 24 - 256) }] }))) (fun t => t.fabric.wire.map Packet.typ == [some .dirreq] && t.fabric.wants == [tWant false none 0]) &&
      (let k := tSent (.dir (2 ^ 43 + 5)) 0
       tGoes (exec (.directoryFailover (2 ^ 43 + 5)) (tFab (fun f => { f with wants := [tWant false none 0], sent := [{ k with pkt := { k.pkt with coh := some ⟨2 ^ 43 + 5, fabSpine 5 1, .req .getm⟩ } }] })))
         (fun t => t.fabric.failedSpines == [(dirPlane (2 ^ 43 + 5), fabSpine 5 1)] && (t.fabric.dirLine (2 ^ 43 + 5)).blocked)) &&
      tGoes (exec (.census 0x100) (tDir id id)) (fun t => t.fabric.wire.map (fun p => p.payload.length) == [4]) &&
      tGoes (exec (.censusRebuild 0x100 [⟨1, .o, false, none⟩, ⟨2, .s, false, none⟩, ⟨3, .s, false, none⟩]) (tDir (fun d => { d with blocked := true }) id)) (fun t => let d := t.fabric.dirLine 0x100; !d.blocked && d.owner == some (1, .o) && d.sharers == [2, 3])) = true := by decide +kernel

/-- UE: the one entry of a read, filled, poisoned and given up; a peer's access to two bytes across a granule's end. -/
theorem test_witness_FabricEvents_ue : (let s := tAfter (.ueget 7 15) (tXfer 0 0 0);
    (s.ueGets.head?).any (fun u => (u.left.head?).any (fun x => (s.pendEntry x.1).any (fun e => decide (e.1 = loadWg) && decide ((s.wgs.map Prod.fst).Nodup) && decide ((s.wgs.flatMap (fun x => x.2.entries.map QEntry.id)).Nodup) &&
          e.2.1.queues.all (fun q => !q.2.decl.bcast) && decide (s.ueGets.length = 1)) &&
        tGoes (exec (.uegetResponse x.1 (some (List.replicate 32 1))) s) (fun t => t.ueGets.isEmpty && (t.wgs.find loadWg).any (fun g => g.entries.all (fun e => e.pend.isNone && e.tag == 0 && e.word 7 == 0x01010101))) &&
        tGoes (exec (.uegetResponse x.1 none) s) (fun t => t.ueGets.isEmpty && (t.wgs.find loadWg).any (fun g => g.entries.all (fun e => e.tag == 3 && e.poison.isSome))) &&
        tGoes (exec (.ueTransportGiveUp x.1) s) (fun t => (t.wgs.find loadWg).any (fun g => g.entries.all (fun e => e.tag == 3)))))) = true ∧
    (let s := tHost id; decide (s.plat.pstate ≠ .idle) && s.hostOps.isEmpty && s.linesReady (s.hostLines 0xFFFF (.read 2)) && s.linesReady (s.hostLines 0xFFFF (.write [1, 2])) && (List.range 2).all (fun i => decide (s.hostOwn 0xFFFF (0xFFFF + i) = .ok) && s.served (0xFFFF + i))) = true := by decide +kernel

/-! ### The machine -/

/-- The loaded state at a PC whose residue mod 8 is 0 or 4, its page with an executable leaf, without one, and absent. -/
def tStepState (sl : Slice) (pc : W64) (k : Core → Core) : State :=
  let s := (tState sl id id id).updCore 0 k
  { s with moves := [.issue 0 (decide (sl = .access)) 0], plat := { s.plat with pstate := .active }, strands := [(tStrandId sl, startStrand sl pc 0 0 false)], cur := none }

/-- CWAIT at a PC of each residue mod 8, its line in the instruction cache: the turn, the page, the words, and the step. -/
theorem test_witness_StepRunsInstruction : ([0x10000, 0x10004] : List W64).all (fun pc => let s := (tStepState .access pc (fun c => { c with icache := [0x100] })).setPhysBytes pc.toNat (encodeBytes (.cwait .wg (.slot 5) 2))
    let base : State := { s with moves := [] }
    s.running && decide ((s.laneAt 0 .access 0).busy ≤ s.clock) && (base.pick 0 .access 0).any (fun p => base.inTurn p.2.1 && (let u : State := { p.1.issues p.2.1 with cur := some (p.2.1, p.2.2) };
      u.me.any (fun m => m.pc == pc && (List.range 3).all (fun k => let va := m.pc + BitVec.ofNat 64 (4 * k); !u.failed (.inst m.sid m.f.born) va && !u.waitsPage (.inst m.sid m.f.born) va &&
          (match u.accessPage m.core m.wg.ctx va .fetch with
            | (t, .ok l) => decide (t = u) && l.dev.isNone && decide (l.attr ≠ .dev) && decide (l.attr ≠ .cohf) && !isReg (l.pa va) && u.served (l.pa va) && (u.core m.core).icache.contains (l.pa va / 256)
            | _ => false)) &&
        (match u.fetch m with | (v, .ok ws) => decide (v = u) && decide (ws = encode (.cwait .wg (.slot 5) 2)) | _ => false) &&
        (match decode (pc.getLsbD 2) ((List.range 3).flatMap (fun k => wordBytes (u.wordAt (pc.toNat + 4 * k)))) with | .ok (i, bs) => WellFormed i && i == .cwait .wg (.slot 5) 2 && bs.length == 8 | _ => false)))) &&
    tGoes (step s) (fun t => t.strands.any (fun st => (st.2.frags.headD Frag.free).pc.toNat * 4 == pc.toNat + 4))) = true := by decide +kernel

/-- A line at L2 enters the instruction cache; one in no cache is asked for; a strand whose turn in the clock has passed waits. -/
theorem test_witness_StepRunsInstruction_line : (let s := tL2 (tStepState .access 0x10000 (fun c => { c with icache := [] })); s.here 0 (.phys .coh 0x10000) && (s.core 0).icache.isEmpty && tGoes (step s) (fun t => (t.core 0).icache.contains 0x100)) = true ∧
    (let s := { (tStepState .access 0x10000 (fun c => { c with icache := [], l1 := [] })) with l2 := [] }; !s.here 0 (.phys .coh 0x10000) && tGoes (step s) (fun t => t.reads.any (fun r => r.line == 0x100) && (t.strands.map Prod.snd) == (s.strands.map Prod.snd))) = true ∧
    (let s := tStepState .access 0x10000 id; let u := s.updCore 0 (fun c => { c with issuedAt := (s.clock, 5) }); u.inTurn (tStrandId .access) = false) := by decide +kernel

/-- A page that is not executable, and one that is absent. -/
theorem test_witness_StepRunsInstruction_page : (let s := tStepState .access 0x10000 (fun c => { c with tlb := [{ loadPage with pte := ({ tLeaf .coh with x := false }).pte }] });
      (match s.accessPage 0 0 0x10000 .fetch with | (t, .fail) => decide (t = s) | _ => false) && tGoes (step s) (fun t => t.strands.isEmpty && (t.ctxs.find 0).any (fun c => c.faults.entries.any (fun e => e.2.code == 0x04)))) = true ∧
    (let s := tHost (fun s => { s with moves := [.event (.linkFlitReplay 3)] }); s.running && tGoes (step s) (fun t => t.fabric.replays == 1 && t.moves.isEmpty)) = true := by decide +kernel

/-- A page that needs service: the fragment joins its request and stays. -/
theorem test_witness_StepRunsInstruction_service : (let s := (tStepState .access 0x10000 (fun c => { c with tlb := [] })).setPhysBytes 0 (w64Bytes 4);
    (s.accessPage 0 0 0x10000 .fetch).2 == .service && !s.failed (.inst (tStrandId .access) 0) 0x10000 && !s.waitsPage (.inst (tStrandId .access) 0) 0x10000 &&
      tGoes (step s) (fun t => t.pageReqs.any (fun r => r.vpage == 0x10 && r.joined.length == 1) && t.strands.any (fun st => (st.2.frags.headD Frag.free).pc.toNat * 4 == 0x10000))) = true := by decide +kernel

/-- A step of a machine that runs keeps its memories; well-formed instructions, prefixed and not. -/
theorem test_witness_MemoriesKept : Safety.memoriesOk (tStepState .access 0x10000 id) = true ∧ tGoes (step (tStepState .access 0x10000 id)) Safety.memoriesOk = true ∧ tGoes (step State.reset) Safety.memoriesOk = true := by decide +kernel

theorem test_witness_RoundTrip : WellFormed (.vadd none tO) = true ∧ WellFormed (.vadd (tP .i32) tO) = true ∧ ((encode (.vadd none tO)).head?.any (fun w => decide (w.extractLsb' 30 2 = 0b10#2))) = false ∧
    ((encode (.vadd (tP .i32) tO)).head?.any (fun w => decide (w.extractLsb' 30 2 = 0b10#2))) = true ∧ (match decode false (encodeBytes (.vadd (tP .i32) tO) ++ [7]) with | .ok (i, bs) => i == .vadd (tP .i32) tO && bs == [7] | _ => false) = true ∧
    (match decode true (encodeBytes (.vadd (tP .i32) tO) ++ [7]) with | .ok (i, _) => i == .vadd (tP .i32) tO | _ => false) = false := by decide +kernel
end

section
/-!
# Every step keeps both memories in canonical form (O60)

`State.Canonical s` says that both memories of `s` are in canonical form (log 1). Below there is one rule for each operation of the state,
`State.Canonical.f : s.Canonical → (s.f …).Canonical`, and one for each instruction and event, `Out.Canonical.execX`. The proof of a rule follows
the operation's definition and names the rules of what it calls, so an operation that leaves both memories alone is proved by its hypothesis.
The bytes change in few places: `setPhys` and `setPhysBytes`, the tier cache, the fault and error logs, `assign` and the end of a release.
An operation whose result holds its state inside (`Iter`, `Got`, `Look`, …) has its own predicate `Canonical` on that result.
-/
namespace Sys2Proof.Machine
open Sys2Proof

/-! ### The predicate and the rules for control flow -/

/-- Both memories of a state are in canonical form. -/
def State.Canonical (s : State) : Prop := Safety.memoriesOk s = true

/-- The state that a step answers, where it answers one, has canonical memories. -/
def Out.Canonical : Out → Prop
  | .next t => t.Canonical
  | _ => True

variable {s : State}

/-- A record update that names neither memory keeps the form. -/
theorem State.Canonical.with
    {moves free cur serial clock tierCache strands wgs cores accs walks pageReqs fails sharedTlb walkCache l2 reads syncs ctxs gens
    owners badLines channels nodes launched grids retRecs rrNode lastWeir weirCount emits adds targets copies unitCore unitCopy
    prefetches homeTable wins out notices waiting cmds trust doms devErrs devErrNext dbg pledans rinse fabric ueGets hostOps plat}
    (h : s.Canonical) :
    State.Canonical ⟨moves, free, cur, serial, clock, s.mem, s.tier, tierCache, strands, wgs, cores, accs, walks, pageReqs, fails, sharedTlb,
      walkCache, l2, reads, syncs, ctxs, gens, owners, badLines, channels, nodes, launched, grids, retRecs, rrNode, lastWeir, weirCount,
      emits, adds, targets, copies, unitCore, unitCopy, prefetches, homeTable, wins, out, notices, waiting, cmds, trust, doms, devErrs,
      devErrNext, dbg, pledans, rinse, fabric, ueGets, hostOps, plat⟩ := h

/-- So does forgetting a part of the first memory. -/
theorem State.Canonical.of_keep {t : State} {f : Nat → Bool} (h : s.Canonical) (hm : t.mem = s.mem.keep f) (ht : t.tier = s.tier) :
    t.Canonical := by
  obtain ⟨hsm, hst⟩ := (memoriesOk_iff s).mp h
  exact (memoriesOk_iff t).mpr ⟨hm ▸ SMap.wf_keep f hsm, ht ▸ hst⟩

theorem State.Canonical.ite {a b : State} {c : Prop} [Decidable c] (ha : a.Canonical) (hb : b.Canonical) : (if c then a else b).Canonical := by
  split
  · exact ha
  · exact hb

theorem State.Canonical.ite_fst {α : Type} {p q : State × α} {c : Prop} [Decidable c] (hp : p.1.Canonical) (hq : q.1.Canonical) :
    (if c then p else q).1.Canonical :=
  iteInduction (motive := fun p : State × α => p.1.Canonical) (fun _ => hp) (fun _ => hq)

theorem State.Canonical.ite_snd {α : Type} {p q : α × State} {c : Prop} [Decidable c] (hp : p.2.Canonical) (hq : q.2.Canonical) :
    (if c then p else q).2.Canonical :=
  iteInduction (motive := fun p : α × State => p.2.Canonical) (fun _ => hp) (fun _ => hq)

theorem State.Canonical.foldl {α : Type} {f : State → α → State} {l : List α} {s : State} (hf : ∀ s a, s.Canonical → (f s a).Canonical)
    (h : s.Canonical) : (l.foldl f s).Canonical := by
  induction l generalizing s with
  | nil => exact h
  | cons a l ih => exact ih (hf s a h)

theorem State.Canonical.foldl_fst {α β : Type} {f : State × β → α → State × β} {l : List α} {p : State × β}
    (hf : ∀ s b a, s.Canonical → (f (s, b) a).1.Canonical) (h : p.1.Canonical) : (l.foldl f p).1.Canonical := by
  induction l generalizing p with
  | nil => exact h
  | cons a l ih => exact ih (hf p.1 p.2 a h)

theorem State.Canonical.of_some_fst {α : Type} {o : Option (State × α)} {t : State} {x : α} (e : o = some (t, x))
    (h : ∀ p ∈ o, p.1.Canonical) : t.Canonical := h _ e

theorem State.Canonical.of_fst {α : Type} {p : State × α} {t : State} {x : α} (e : p = (t, x)) (h : p.1.Canonical) : t.Canonical := by
  subst e; exact h

theorem State.Canonical.of_snd {α : Type} {p : α × State} {t : State} {x : α} (e : p = (x, t)) (h : p.2.Canonical) : t.Canonical := by
  subst e; exact h

theorem State.Canonical.of_some {o : Option State} {t : State} (e : o = some t) (h : ∀ t ∈ o, t.Canonical) : t.Canonical := h t e

theorem State.Canonical.of_next {o : Out} {t : State} (e : o = .next t) (h : o.Canonical) : t.Canonical := by
  subst e; exact h

theorem Out.Canonical.next (h : s.Canonical) : Out.Canonical (.next s) := h

theorem Out.Canonical.ite {a b : Out} {c : Prop} [Decidable c] (ha : a.Canonical) (hb : b.Canonical) : Out.Canonical (if c then a else b) := by
  split
  · exact ha
  · exact hb

/-- Every state that the result holds has canonical memories. -/
def Iter.Canonical : Iter → Prop
  | .more s => s.Canonical
  | .stop s => s.Canonical

theorem Iter.Canonical.more (h : s.Canonical) : Iter.Canonical (.more s) := h

theorem Iter.Canonical.stop (h : s.Canonical) : Iter.Canonical (.stop s) := h

theorem Iter.Canonical.ite {a b : Iter} {c : Prop} [Decidable c] (ha : a.Canonical) (hb : b.Canonical) : (if c then a else b).Canonical :=
  iteInduction (fun _ => ha) (fun _ => hb)

theorem Iter.Canonical.of_eq {a b : Iter} (e : a = b) (h : a.Canonical) : b.Canonical := e ▸ h

/-- Every state that the result holds has canonical memories. -/
def Got.Canonical : Got → Prop
  | .poison s _ => s.Canonical
  | .wait s => s.Canonical
  | .ok s _ => s.Canonical

theorem Got.Canonical.poison {r} (h : s.Canonical) : Got.Canonical (.poison s r) := h

theorem Got.Canonical.wait (h : s.Canonical) : Got.Canonical (.wait s) := h

theorem Got.Canonical.ok {d} (h : s.Canonical) : Got.Canonical (.ok s d) := h

theorem Got.Canonical.ite {a b : Got} {c : Prop} [Decidable c] (ha : a.Canonical) (hb : b.Canonical) : (if c then a else b).Canonical :=
  iteInduction (fun _ => ha) (fun _ => hb)

theorem Got.Canonical.of_eq {a b : Got} (e : a = b) (h : a.Canonical) : b.Canonical := e ▸ h

/-- Every state that the result holds has canonical memories. -/
def Checked.Canonical : Checked → Prop
  | .trap s _ => s.Canonical
  | .stall s => s.Canonical
  | .ok s _ => s.Canonical

theorem Checked.Canonical.trap {t} (h : s.Canonical) : Checked.Canonical (.trap s t) := h

theorem Checked.Canonical.stall (h : s.Canonical) : Checked.Canonical (.stall s) := h

theorem Checked.Canonical.ok {p} (h : s.Canonical) : Checked.Canonical (.ok s p) := h

theorem Checked.Canonical.ite {a b : Checked} {c : Prop} [Decidable c] (ha : a.Canonical) (hb : b.Canonical) : (if c then a else b).Canonical :=
  iteInduction (fun _ => ha) (fun _ => hb)

theorem Checked.Canonical.of_eq {a b : Checked} (e : a = b) (h : a.Canonical) : b.Canonical := e ▸ h

/-- Every state that the result holds has canonical memories. -/
def CopyRes.Canonical : CopyRes α → Prop
  | .ok s _ => s.Canonical
  | .wait g => ∀ s, s.Canonical → (g s).Canonical
  | .stop s _ _ => s.Canonical

theorem CopyRes.Canonical.ok {x : α} (h : s.Canonical) : CopyRes.Canonical (.ok s x : CopyRes α) := h

theorem CopyRes.Canonical.wait {g : State → State} (h : ∀ s, s.Canonical → (g s).Canonical) : CopyRes.Canonical (.wait g : CopyRes α) := h

theorem CopyRes.Canonical.stop {c v} (h : s.Canonical) : CopyRes.Canonical (.stop s c v : CopyRes α) := h

theorem CopyRes.Canonical.ite {a b : CopyRes α} {c : Prop} [Decidable c] (ha : a.Canonical) (hb : b.Canonical) :
    (if c then a else b).Canonical :=
  iteInduction (fun _ => ha) (fun _ => hb)

theorem CopyRes.Canonical.of_eq {a b : CopyRes α} (e : a = b) (h : a.Canonical) : b.Canonical := e ▸ h

theorem CopyRes.Canonical.bind {α β : Type} {x : CopyRes α} {f : State → α → CopyRes β} (hx : x.Canonical)
    (hf : ∀ s a, s.Canonical → (f s a).Canonical) : (x.bind f).Canonical := by
  cases x with
  | ok s a => exact hf s a hx
  | wait g => exact hx
  | stop s c va => exact hx

/-- Every state that the result holds has canonical memories. -/
def PlaceRes.Canonical : PlaceRes → Prop
  | .ok s _ => s.Canonical
  | .wait s => s.Canonical
  | .bad s => s.Canonical

theorem PlaceRes.Canonical.ok {m} (h : s.Canonical) : PlaceRes.Canonical (.ok s m) := h

theorem PlaceRes.Canonical.wait (h : s.Canonical) : PlaceRes.Canonical (.wait s) := h

theorem PlaceRes.Canonical.bad (h : s.Canonical) : PlaceRes.Canonical (.bad s) := h

theorem PlaceRes.Canonical.ite {a b : PlaceRes} {c : Prop} [Decidable c] (ha : a.Canonical) (hb : b.Canonical) :
    (if c then a else b).Canonical :=
  iteInduction (fun _ => ha) (fun _ => hb)

theorem PlaceRes.Canonical.of_eq {a b : PlaceRes} (e : a = b) (h : a.Canonical) : b.Canonical := e ▸ h

/-- Every state that the result holds has canonical memories. -/
def Look.Canonical : Look → Prop
  | .value s _ => s.Canonical
  | .bad s _ _ _ => s.Canonical
  | .watch _ => True
  | .wait s _ => s.Canonical

theorem Look.Canonical.value {x} (h : s.Canonical) : Look.Canonical (.value s x) := h

theorem Look.Canonical.bad {c v m} (h : s.Canonical) : Look.Canonical (.bad s c v m) := h

theorem Look.Canonical.wait {w} (h : s.Canonical) : Look.Canonical (.wait s w) := h

theorem Look.Canonical.ite {a b : Look} {c : Prop} [Decidable c] (ha : a.Canonical) (hb : b.Canonical) : (if c then a else b).Canonical :=
  iteInduction (fun _ => ha) (fun _ => hb)

theorem Look.Canonical.of_eq {a b : Look} (e : a = b) (h : a.Canonical) : b.Canonical := e ▸ h

/-- Every state that the result holds has canonical memories. -/
def Found.Canonical : Found → Prop
  | .ok s _ => s.Canonical
  | .stop s => s.Canonical

theorem Found.Canonical.ok {c} (h : s.Canonical) : Found.Canonical (.ok s c) := h

theorem Found.Canonical.stop (h : s.Canonical) : Found.Canonical (.stop s) := h

theorem Found.Canonical.ite {a b : Found} {c : Prop} [Decidable c] (ha : a.Canonical) (hb : b.Canonical) : (if c then a else b).Canonical :=
  iteInduction (fun _ => ha) (fun _ => hb)

theorem Found.Canonical.of_eq {a b : Found} (e : a = b) (h : a.Canonical) : b.Canonical := e ▸ h

/-- Every state that the result holds has canonical memories. -/
def Served.Canonical : Served → Prop
  | .answer s _ _ _ => s.Canonical
  | .quiet s => s.Canonical
  | .wait s => s.Canonical

theorem Served.Canonical.answer {t p n} (h : s.Canonical) : Served.Canonical (.answer s t p n) := h

theorem Served.Canonical.quiet (h : s.Canonical) : Served.Canonical (.quiet s) := h

theorem Served.Canonical.wait (h : s.Canonical) : Served.Canonical (.wait s) := h

theorem Served.Canonical.ite {a b : Served} {c : Prop} [Decidable c] (ha : a.Canonical) (hb : b.Canonical) : (if c then a else b).Canonical :=
  iteInduction (fun _ => ha) (fun _ => hb)

theorem Served.Canonical.of_eq {a b : Served} (e : a = b) (h : a.Canonical) : b.Canonical := e ▸ h

/-! ### Ops -/

theorem Out.Canonical.asStrand {k : Me → State} (hk : ∀ m, (k m).Canonical) : Out.Canonical (asStrand s k) := by
  unfold Machine.asStrand
  split
  · exact trivial
  · exact hk _

theorem State.Canonical.updStrand {sid g} (h : s.Canonical) : (s.updStrand sid g).Canonical := h

theorem State.Canonical.updWg {w g} (h : s.Canonical) : (s.updWg w g).Canonical := h

theorem State.Canonical.updCore {c g} (h : s.Canonical) : (s.updCore c g).Canonical := h

theorem State.Canonical.updCtx {c g} (h : s.Canonical) : (s.updCtx c g).Canonical := h

theorem State.Canonical.updFrag {sid fi g} (h : s.Canonical) : (s.updFrag sid fi g).Canonical := h

theorem State.Canonical.takeFree (h : s.Canonical) : (s.takeFree).2.Canonical := h

theorem State.Canonical.takeFrees {n} (h : s.Canonical) : (s.takeFrees n).2.Canonical := h

theorem State.Canonical.setPc {m pc} (h : s.Canonical) : (s.setPc m pc).Canonical := h

theorem State.Canonical.updLane {sid g} (h : s.Canonical) : (s.updLane sid g).Canonical := h

theorem State.Canonical.occupy {m clocks} (h : s.Canonical) : (s.occupy m clocks).Canonical := h

theorem State.Canonical.yieldPoint {m} (h : s.Canonical) : (s.yieldPoint m).Canonical := h

theorem State.Canonical.joined {m} (h : s.Canonical) : (s.joined m).Canonical :=
  .ite (.yieldPoint h) h

theorem State.Canonical.advance {m len} (h : s.Canonical) : (s.advance m len).Canonical :=
  .joined (.setPc h)

theorem State.Canonical.block {m w} (h : s.Canonical) : (s.block m w).Canonical := h

theorem State.Canonical.setRc {m n} (h : s.Canonical) : (s.setRc m n).Canonical := h

theorem State.Canonical.send {m} (h : s.Canonical) : (s.send m).Canonical := h

theorem State.Canonical.notify {k} (h : s.Canonical) : (s.notify k).Canonical := h

theorem State.Canonical.writeEntry {base seq bs} (h : s.Canonical) : (s.writeEntry base seq bs).Canonical :=
  memoriesOk_writeEntry _ _ _ h

theorem State.Canonical.logFault {ctx r} (h : s.Canonical) : (s.logFault ctx r).Canonical :=
  memoriesOk_logFault _ _ h

theorem State.Canonical.logError {ctx e} (h : s.Canonical) : (s.logError ctx e).Canonical :=
  memoriesOk_logError _ _ h

theorem State.Canonical.logDev {e} (h : s.Canonical) : (s.logDev e).Canonical := h

theorem State.Canonical.logDbg {e} (h : s.Canonical) : (s.logDbg e).Canonical := h

theorem State.Canonical.count {core n k} (h : s.Canonical) : (s.count core n k).Canonical := h

theorem State.Canonical.discardPoison {ctx e} (h : s.Canonical) : (s.discardPoison ctx e).Canonical := by
  unfold State.discardPoison
  split
  · exact .ite (.logFault h) h
  · exact h

theorem State.Canonical.discardQueues {w} (h : s.Canonical) : (s.discardQueues w).Canonical :=
  .foldl (fun _ _ ht => .discardPoison ht) h

theorem State.Canonical.freeWg {w} (h : s.Canonical) : (s.freeWg w).Canonical := h

theorem State.Canonical.onParent {task k grids} (h : s.Canonical) : (s.onParent task k grids).Canonical := h

theorem State.Canonical.childGone {parent k grids} (h : s.Canonical) : (s.childGone parent k grids).Canonical := by
  unfold State.childGone
  split
  · exact h
  · exact .onParent h

theorem State.Canonical.gridEnded {gid k} (h : s.Canonical) : (s.gridEnded gid k).Canonical := by
  unfold State.gridEnded
  split
  · exact h
  · exact .ite (.childGone (.with h)) (.childGone (.with h))

theorem State.Canonical.wgEnded {grid parent} (h : s.Canonical) : (s.wgEnded grid parent).Canonical := by
  unfold State.wgEnded
  split
  · exact .gridEnded h
  · exact .childGone h

theorem State.Canonical.cancelMembers {gid} (h : s.Canonical) : (s.cancelMembers gid).Canonical := by
  unfold State.cancelMembers
  split
  · exact h
  · exact .ite h (.gridEnded (.with h))

theorem State.Canonical.cancelGrid {w} (h : s.Canonical) : (s.cancelGrid w).Canonical := by
  unfold State.cancelGrid
  split
  · exact h
  · split
    · exact h
    · exact .ite h (.logError (.cancelMembers h))

theorem State.Canonical.dropReceiver {w g} (h : s.Canonical) : (s.dropReceiver w g).Canonical :=
  .foldl (fun _ _ ht => .updCore ht) (.with h)

theorem State.Canonical.endOps {task} (h : s.Canonical) : (s.endOps task).Canonical := h

theorem State.Canonical.endCounted {w g} (h : s.Canonical) : (s.endCounted w g).Canonical :=
  .ite (.wgEnded h) (.with h)

theorem State.Canonical.endSaved {ctx v} (h : s.Canonical) : (s.endSaved ctx v).Canonical :=
  .endCounted (.cancelGrid (.dropReceiver (.endOps (.discardQueues (.updCtx h)))))

theorem State.Canonical.terminateSaved {ctx v r} (h : s.Canonical) : (s.terminateSaved ctx v r).Canonical :=
  .notify (.logFault (.endSaved h))

theorem State.Canonical.terminate {w r} (h : s.Canonical) : (s.terminate w r).Canonical := by
  unfold State.terminate
  split
  · exact h
  · extract_lets t ended u v x
    have hx : x.Canonical := .endCounted (.cancelGrid (.freeWg (.dropReceiver
      (.foldl (fun _ _ hv => .updCore hv) (.endOps (.with (.discardQueues h)))))))
    split
    · exact hx
    · exact .notify (.logFault hx)

theorem State.Canonical.noteTrap {core t} (h : s.Canonical) : (s.noteTrap core t).Canonical :=
  .updCore (.ite (.count h) h)

theorem State.Canonical.trapAt {m resume t} (h : s.Canonical) : (s.trapAt m resume t).Canonical :=
  .ite (.terminate (.noteTrap h)) (.updStrand (.noteTrap h))

theorem State.Canonical.trap {m t} (h : s.Canonical) : (s.trap m t).Canonical :=
  .trapAt h

theorem State.Canonical.raise {m c} (h : s.Canonical) : (s.raise m c).Canonical :=
  .trap h

theorem State.Canonical.returnFromTrap {m fr} (h : s.Canonical) : (s.returnFromTrap m fr).Canonical :=
  .joined (.updStrand h)

theorem State.Canonical.takePending {m r} (h : s.Canonical) : (s.takePending m r).Canonical :=
  .trap (.updWg h)

theorem Out.Canonical.asYielding {k : Me → State} (h : s.Canonical) (hk : ∀ m, (k m).Canonical) : Out.Canonical (asYielding s k) := by
  refine .asStrand (fun m => ?_)
  split
  · exact .takePending h
  · exact hk m

theorem State.Canonical.writeS {m d x len} (h : s.Canonical) : (s.writeS m d x len).Canonical :=
  .advance (.updStrand h)

/-! ### Queue -/

theorem State.Canonical.putQueue {w n q} (h : s.Canonical) : (s.putQueue w n q).Canonical := h

theorem State.Canonical.sweepQueue {w n} (h : s.Canonical) : (s.sweepQueue w n).Canonical := by
  unfold State.sweepQueue
  split
  · exact h
  · split
    · exact h
    · exact .ite h (.putQueue (.foldl (fun _ _ hv => .ite (.discardPoison hv) hv) h))

theorem State.Canonical.sweepQueues {w} (h : s.Canonical) : (s.sweepQueues w).Canonical := by
  unfold State.sweepQueues
  split
  · exact h
  · exact .foldl (fun _ _ hu => .sweepQueue hu) h

theorem State.Canonical.popTake {m qn taken} (h : s.Canonical) : (s.popTake m qn taken).Canonical := by
  unfold State.popTake
  split
  · exact h
  · split
    · exact h
    · exact .ite (.count (.sweepQueue (.putQueue h))) (.sweepQueue (.putQueue h))

theorem State.Canonical.setQt {m tag} (h : s.Canonical) : (s.setQt m tag).Canonical := h

theorem State.Canonical.pushWords {m qn ch tag ws} (h : s.Canonical) : (s.pushWords m qn ch tag ws).Canonical := by
  unfold State.pushWords
  split
  · exact h
  · exact .sweepQueue (.putQueue (.with h))

/-! ### Control -/

theorem State.Canonical.barrierCheck {w} (h : s.Canonical) : (s.barrierCheck w).Canonical := by
  unfold State.barrierCheck
  split
  · exact h
  · refine .foldl (fun _ _ hu => ?_) h
    split
    · exact hu
    · exact .ite (.with (.updWg hu)) hu

theorem State.Canonical.branch {m pc} (h : s.Canonical) : (s.branch m pc).Canonical := h

theorem State.Canonical.fall {m len} (h : s.Canonical) : (s.fall m len).Canonical := h

theorem State.Canonical.spillBytes {w off} (h : s.Canonical) : (s.spillBytes w off).Canonical := h

theorem State.Canonical.divide {m taken target join} (h : s.Canonical) : (s.divide m taken target join).Canonical :=
  .ite (.raise h) (.yieldPoint (.updStrand (.foldl (fun _ _ ht => .spillBytes ht) h)))

theorem State.Canonical.afterExit {sid} (h : s.Canonical) : (s.afterExit sid).Canonical := by
  unfold State.afterExit
  split
  · exact .ite (.barrierCheck (.sweepQueues h)) h
  · exact h

theorem State.Canonical.exitThreads {m} (h : s.Canonical) : (s.exitThreads m).Canonical :=
  .afterExit (.fall (.updFrag h))

theorem Out.Canonical.execNop (h : s.Canonical) : Out.Canonical (execNop s) :=
  .asStrand (fun _ => .advance h)

theorem Out.Canonical.execBr {off} (h : s.Canonical) : Out.Canonical (execBr off s) :=
  .asYielding h (fun _ => .branch h)

theorem Out.Canonical.execBrd {k inv toff joff} (h : s.Canonical) : Out.Canonical (execBrd k inv toff joff s) :=
  .asYielding h (fun _ => .ite (.fall h) (.ite (.branch h) (.divide h)))

theorem Out.Canonical.execLoop {r off} (h : s.Canonical) : Out.Canonical (execLoop r off s) :=
  .asYielding h (fun _ => .ite (.fall h) (.ite (.fall (.updStrand h)) (.branch (.updStrand h))))

theorem Out.Canonical.execCall {r off} (h : s.Canonical) : Out.Canonical (execCall r off s) :=
  .asYielding h (fun _ => .branch (.updStrand h))

theorem Out.Canonical.execRet {r} (h : s.Canonical) : Out.Canonical (execRet r s) :=
  .asYielding h (fun _ => .ite (.branch h) (.raise h))

theorem Out.Canonical.execExit (h : s.Canonical) : Out.Canonical (execExit s) :=
  .asYielding h (fun _ => .exitThreads h)

theorem Out.Canonical.execYield (h : s.Canonical) : Out.Canonical (execYield s) :=
  .asYielding h (fun _ => .fall h)

theorem Out.Canonical.execSetmode {r seed} (h : s.Canonical) : Out.Canonical (execSetmode r seed s) :=
  .asStrand (fun _ => .ite (.advance (.updStrand h)) (.ite (.advance (.updStrand h)) (.raise h)))

theorem Out.Canonical.execFlags {d clr} (h : s.Canonical) : Out.Canonical (execFlags d clr s) :=
  .asStrand (fun _ => .writeS (.updStrand h))

/-! ### Audit -/

theorem State.Canonical.audit {ty ctx payload} (h : s.Canonical) : (s.audit ty ctx payload).Canonical := h

/-! ### Registers -/

theorem State.Canonical.setRegByte {off b} (h : s.Canonical) : (s.setRegByte off b).Canonical :=
  .ite (.ite (.with h) h) (.ite (.ite h (.with h)) (.ite (.with h) (.ite (.ite h (.with h)) (.ite (.ite h (.with h)) h))))

/-! ### Translate -/

theorem State.Canonical.l2Put {dev line g} (h : s.Canonical) : (s.l2Put dev line g).Canonical :=
  .ite (.with h) (.with h)

theorem State.Canonical.l2Fill {dev line sectors} (h : s.Canonical) : (s.l2Fill dev line sectors).Canonical :=
  .l2Put h

theorem State.Canonical.setPhys {pa b} (h : s.Canonical) : (s.setPhys pa b).Canonical :=
  memoriesOk_setPhys _ _ h

theorem State.Canonical.setPhysBytes {pa bs} (h : s.Canonical) : (s.setPhysBytes pa bs).Canonical :=
  memoriesOk_setPhysBytes _ _ h

theorem State.Canonical.fillBlock {port block} (h : s.Canonical) : (s.fillBlock port block).Canonical :=
  memoriesOk_fillBlock _ _ h

theorem State.Canonical.fetchTier {pa} (h : s.Canonical) : (s.fetchTier pa).Canonical :=
  memoriesOk_fetchTier _ h

theorem State.Canonical.walkKeep {core asid gen va level pa} (h : s.Canonical) : (s.walkKeep core asid gen va level pa).Canonical :=
  .ite h (.with h)

theorem State.Canonical.readPte {pa} (h : s.Canonical) : ∀ r ∈ s.readPte pa, r.1.Canonical := by
  intro r hr
  unfold State.readPte at hr
  dsimp only at hr
  split at hr
  · cases hr
    exact .fetchTier h
  · cases hr

theorem State.Canonical.walkFrom {core asid gen va level table} (h : s.Canonical) :
    ∀ r ∈ s.walkFrom core asid gen va level table, r.1.Canonical := by
  induction level generalizing s table with
  | zero =>
    intro r hr
    obtain ⟨q, hq, rfl⟩ := Option.map_eq_some_iff.mp hr
    exact State.Canonical.readPte h q hq
  | succ level ih =>
    intro r hr
    unfold State.walkFrom at hr
    dsimp only at hr
    split at hr
    · cases hr
    · rename_i t e hq
      have ht : t.Canonical := .of_some_fst hq (State.Canonical.readPte h)
      split at hr
      · exact ih (.walkKeep ht) r hr
      · cases hr
        exact ht

theorem State.Canonical.translate {core ctx va} (h : s.Canonical) : (s.translate core ctx va).1.Canonical := by
  unfold State.translate
  split
  · exact h
  · refine .ite_fst h ?_
    split
    · exact h
    · refine .ite_fst h ?_
      have hc : State.Canonical (if core = noCore then s else s.count core 13 1) := .ite h (.count h)
      generalize (if core = noCore then s else s.count core 13 1) = t at hc ⊢
      dsimp only
      split
      · rename_i e
        have hu : State.Canonical _ := .of_some_fst e (State.Canonical.walkFrom hc)
        exact .ite hu (.with hu)
      · rename_i e
        exact .of_some_fst e (State.Canonical.walkFrom hc)
      · rename_i e
        exact .of_some_fst e (State.Canonical.walkFrom hc)
      · exact h

theorem State.Canonical.walkDone {id} (h : s.Canonical) : (s.walkDone id).Canonical := by
  unfold State.walkDone
  split
  · exact h
  · exact .ite (.with (.updCore (.with h))) (.with h)

theorem State.Canonical.request {ctx va k j} (h : s.Canonical) : (s.request ctx va k j).Canonical := by
  unfold State.request
  split
  · exact h
  · exact .ite (.with h) (.ite h (.send (.with h)))

theorem State.Canonical.unfail {j} (h : s.Canonical) : (s.unfail j).Canonical := h

theorem State.Canonical.noteMac {ctx pa} (h : s.Canonical) : (s.noteMac ctx pa).Canonical :=
  .logError (.audit h)

theorem State.Canonical.accessPage {core ctx va k} (h : s.Canonical) : (s.accessPage core ctx va k).1.Canonical := by
  unfold State.accessPage
  split
  · rename_i e
    exact .of_fst e (.translate h)
  · rename_i e
    exact .of_fst e (.translate h)
  · rename_i e
    exact .of_fst e (.translate h)
  · rename_i e
    have ht : State.Canonical _ := .of_fst e (.translate h)
    refine .ite_fst ht (.ite_fst ht ?_)
    split
    · exact ht
    · exact ht
    · exact .ite_fst ht (.noteMac ht)

/-! ### Mem -/

theorem State.Canonical.fillSector {core pa} (h : s.Canonical) : (s.fillSector core pa).Canonical := h

theorem State.Canonical.cacheByte {core a} (h : s.Canonical) : (s.cacheByte core a).Canonical := by
  unfold State.cacheByte
  split
  · exact .ite h (.ite (.fillSector (.ite h (.l2Fill h))) (.ite h (.l2Fill h)))
  · exact h

theorem State.Canonical.updChannel {n g} (h : s.Canonical) : (s.updChannel n g).Canonical := h

theorem State.Canonical.askLine {core slot pa} (h : s.Canonical) : (s.askLine core slot pa).Canonical :=
  .ite (.with (.ite (.updChannel h) h)) (.with (.ite (.updChannel h) h))

theorem State.Canonical.fetchTiers {ls} (h : s.Canonical) : (s.fetchTiers ls).Canonical := by
  unfold State.fetchTiers
  refine .foldl (fun _ _ ht => ?_) h
  split
  · exact .fetchTier ht
  · exact ht

theorem State.Canonical.askBytes {core slot ls} (h : s.Canonical) : (s.askBytes core slot ls).Canonical := by
  unfold State.askBytes
  refine .foldl (fun _ _ ht => ?_) h
  split
  · exact .ite ht (.askLine ht)
  · exact ht

theorem State.Canonical.disturb {core mine off} (h : s.Canonical) : (s.disturb core mine off).Canonical := h

theorem State.Canonical.landed {w off b} (h : s.Canonical) : (s.landed w off b).2.Canonical :=
  .ite_snd (.with (.with h)) h

theorem State.Canonical.landingRead {ls bs} (h : s.Canonical) : (s.landingRead ls bs).1.Canonical :=
  .ite_fst (.with h) h

theorem State.Canonical.writeByte {core l b} (h : s.Canonical) : (s.writeByte core l b).Canonical := by
  unfold State.writeByte
  split
  · exact .ite (.setRegByte h) (.ite h (.setPhys h))
  · exact h
  · exact .updWg (.disturb (.landed h))
  · exact h

theorem State.Canonical.setHome {core l b} (h : s.Canonical) : (s.setHome core l b).Canonical := by
  unfold State.setHome
  split
  · exact .ite (.setRegByte h) (.setPhys h)
  · exact .writeByte h

theorem State.Canonical.writeBack {core f} (h : s.Canonical) : (s.writeBack core f).Canonical :=
  .updCore (.foldl (fun _ _ ht => .setPhys ht) h)

theorem State.Canonical.phaseRelease {core} (h : s.Canonical) : (s.phaseRelease core).Canonical :=
  .writeBack h

theorem State.Canonical.phaseAcquire {core} (h : s.Canonical) : (s.phaseAcquire core).Canonical := h

theorem State.Canonical.purge {core f} (h : s.Canonical) : (s.purge core f).Canonical :=
  .updCore (.writeBack h)

theorem State.Canonical.evictLine {core line slot} (h : s.Canonical) : (s.evictLine core line slot).Canonical :=
  .ite (.updCore (.purge h)) h

theorem State.Canonical.l1Trim {core slot} (h : s.Canonical) : (s.l1Trim core slot).Canonical :=
  .foldl (fun _ _ ht => .evictLine ht) h

theorem State.Canonical.touchLine {w line coh} (h : s.Canonical) : (s.touchLine w line coh).Canonical :=
  .ite (.updCore (.updWg h)) (.l1Trim (.updCore (.ite (.count (.updCore (.count (.updCore (.updWg h))))) (.count (.updCore (.updWg h))))))

theorem State.Canonical.l1Own {core line} (h : s.Canonical) : (s.l1Own core line).Canonical := h

theorem State.Canonical.touch {w write l} (h : s.Canonical) : (s.touch w write l).Canonical := by
  unfold State.touch
  split
  · exact h
  · exact .ite (.l1Own (.touchLine h)) (.touchLine h)

theorem State.Canonical.touchAll {w write ls} (h : s.Canonical) : (s.touchAll w write ls).Canonical :=
  .foldl (fun _ _ ht => .touch ht) h

theorem State.Canonical.sweep (h : s.Canonical) : (s.sweep).Canonical := h

/-! ### Operands -/

theorem State.Canonical.farFault {m r} (h : s.Canonical) : (s.farFault m r).Canonical :=
  .trap h

theorem State.Canonical.keepRc {m total left} (h : s.Canonical) : (s.keepRc m total left).Canonical :=
  .ite (.setRc h) h

theorem State.Canonical.deliver {m v ty j o} (h : s.Canonical) : (s.deliver m v ty j o).Canonical := by
  unfold State.deliver
  split
  · split
    · exact .pushWords (.updStrand h)
    · exact .updStrand h
  · exact .updStrand h

theorem State.Canonical.finishVec {m yields clocks len} (h : s.Canonical) : (s.finishVec m yields clocks len).Canonical :=
  .ite (.yieldPoint (.advance (.occupy (.setRc h)))) (.advance (.occupy (.setRc h)))

/-- What a vector instruction does after an iteration keeps the memories: only ACRD and ACWR do anything there. -/
def Vec.PostKeeps (v : Vec) : Prop := ∀ s m ty j o, s.Canonical → (v.post s m ty j o).Canonical

theorem Iter.Canonical.iter {v : Vec} {m ty total left} (hp : v.PostKeeps) (h : s.Canonical) : (v.iter s m ty total left).Canonical := by
  unfold Vec.iter
  extract_lets j pops push kept
  have hk : kept.Canonical := .keepRc h
  split
  · exact .stop (.raise hk)
  · refine .ite (.stop (.block hk)) ?_
    split
    · exact .stop (.block hk)
    · exact .stop (.farFault hk)
    · extract_lets t
      have ht : t.Canonical := .foldl (fun _ _ ht => .setQt (.popTake ht)) h
      split
      · exact .stop ht
      · exact .more (hp _ _ _ _ _ (.deliver ht))

theorem Iter.Canonical.iters {v : Vec} {ty total n} (hp : v.PostKeeps) (h : s.Canonical) : (v.iters ty total n s).Canonical := by
  induction n generalizing s with
  | zero => exact .more h
  | succ n ih =>
    unfold Vec.iters
    split
    · exact .stop h
    · split
      · rename_i e
        exact .stop (Iter.Canonical.of_eq e (.iter hp h))
      · rename_i e
        exact ih (Iter.Canonical.of_eq e (.iter hp h))

theorem State.Canonical.exec_ {v : Vec} {m} (hp : v.PostKeeps) (h : s.Canonical) : (v.exec_ s m).Canonical := by
  unfold Vec.exec_
  extract_lets ty total yields
  split
  · exact .takePending h
  · refine .ite (.finishVec h) (.ite (.raise h) (.ite (.raise h) (.ite h ?_)))
    split
    · rename_i e
      exact Iter.Canonical.of_eq e (.iters hp h)
    · rename_i e
      exact .finishVec (Iter.Canonical.of_eq e (.iters hp h))

theorem Out.Canonical.runVec {v : Vec} (hp : v.PostKeeps) (h : s.Canonical) : Out.Canonical (runVec v s) :=
  .asStrand (fun _ => .exec_ hp h)

theorem Out.Canonical.runVecOf {mk : Me → Vec} (hp : ∀ m, (mk m).PostKeeps) (h : s.Canonical) : Out.Canonical (runVecOf mk s) :=
  .asStrand (fun m => .exec_ (hp m) h)

theorem Out.Canonical.form {op : VOp} {p lit len n d l} (h : s.Canonical) : Out.Canonical (op.form p lit len n d l s) :=
  .runVec (fun _ _ _ _ _ h => h) h

theorem Out.Canonical.v3 {op : VOp} {p o} (h : s.Canonical) : Out.Canonical (op.v3 p o s) :=
  .runVec (fun _ _ _ _ _ h => h) h

theorem Out.Canonical.v3u {op : VOp} {p o} (h : s.Canonical) : Out.Canonical (op.v3u p o s) :=
  .runVec (fun _ _ _ _ _ h => h) h

theorem Out.Canonical.x1 {op : VOp} {p o} (h : s.Canonical) : Out.Canonical (op.x1 p o s) :=
  .runVec (fun _ _ _ _ _ h => h) h

theorem Out.Canonical.x1u {op : VOp} {p o} (h : s.Canonical) : Out.Canonical (op.x1u p o s) :=
  .runVec (fun _ _ _ _ _ h => h) h

theorem Out.Canonical.x2c {op : VOp} {p o} (h : s.Canonical) : Out.Canonical (op.x2c p o s) :=
  .runVec (fun _ _ _ _ _ h => h) h

/-! ### IntVec -/

theorem Out.Canonical.cmpForm {exec ok p lit len a b run} (h : s.Canonical) : Out.Canonical (cmpForm exec ok p lit len a b run s) :=
  .runVec (fun _ _ _ _ _ h => h) h

/-! ### Accum -/

theorem State.Canonical.putTile {w n desc vals} (h : s.Canonical) : (s.putTile w n desc vals).Canonical :=
  .foldl (fun _ _ ht => .updWg (.ite_snd (.takeFree ht) ht)) h

theorem Vec.postKeeps_acrd {p n d a lit len} : (acrdVec p n d a lit len).PostKeeps := fun _ _ _ _ _ h => .ite (.takeFrees h) h

theorem Vec.postKeeps_acwr {p add a b lit len} : (acwrVec p add a b lit len).PostKeeps :=
  fun _ _ _ _ _ h => .ite (.putTile (.putTile h)) (.putTile h)

/-! ### Cistern -/

theorem State.Canonical.launchError {e header src} (h : s.Canonical) : (s.launchError e header src).Canonical := by
  unfold State.launchError
  split
  · dsimp only
    split
    · exact .logError (.with h)
    · exact .with h
  · dsimp only
    split
    · exact .logError h
    · exact .ite (.logError h) (.with (.logError h))

theorem State.Canonical.launch {node rs depth parent} (h : s.Canonical) : (s.launch node rs depth parent).Canonical := by
  unfold State.launch
  split
  · exact h
  · exact .with h

theorem State.Canonical.pushRecord {src bs child} (h : s.Canonical) : ∀ t ∈ s.pushRecord src bs child, t.Canonical := by
  have hp : State.Canonical (match child.map Prod.snd with | none => s | some t => s.onParent t (· + 1) (· + 1)) := by
    split
    · exact h
    · exact .onParent h
  unfold State.pushRecord
  extract_lets hdr full
  split
  · rintro _ ⟨⟩
    exact .launchError h
  · split
    · rintro _ ⟨⟩
      exact .launchError h
    · split
      · rintro _ ⟨⟩
      · split
        · rintro _ ⟨⟩
          exact h
        · dsimp only
          split
          · rintro _ ⟨⟩
            exact .launch hp
          · rintro _ ⟨⟩
            exact .with hp

theorem State.Canonical.fire {act ctx node task sid slot pa} (h : s.Canonical) : (s.fire act ctx node task sid slot pa).Canonical := by
  unfold State.fire
  split
  · exact .notify h
  · exact .with h

theorem State.Canonical.slotAdd {task n amount} (h : s.Canonical) : (s.slotAdd task n amount).Canonical := by
  unfold State.slotAdd
  extract_lets after
  have ha {t g r} (ht : t.Canonical) : (after t g r).Canonical := by
    unfold after
    extract_lets u
    have hu : u.Canonical := .ite (.logError ht) ht
    split
    · exact .fire hu
    · exact hu
  split
  · exact ha (.updWg h)
  · split
    · exact h
    · split
      · exact h
      · exact ha (.updCtx h)

theorem State.Canonical.globalAdd {ctx pa task amount} (h : s.Canonical) : (s.globalAdd ctx pa task amount).Canonical := by
  unfold State.globalAdd
  extract_lets old new t u
  have hu : u.Canonical := .ite (.logError (.setPhysBytes h)) (.setPhysBytes h)
  split
  · exact hu
  · exact .fire (.with hu)

theorem State.Canonical.counterPage {core ctx va} (h : s.Canonical) : (s.counterPage core ctx va).1.Canonical := by
  unfold State.counterPage
  split
  · rename_i e
    exact .of_fst e (.translate h)
  · rename_i e
    exact .of_fst e (.translate h)
  · rename_i e
    exact .of_fst e (.translate h)
  · rename_i e
    have ht : State.Canonical _ := .of_fst e (.translate h)
    refine .ite_fst ht (.ite_fst ht ?_)
    split
    · exact .fetchTier ht
    · exact ht
    · exact .noteMac ht

theorem State.Canonical.noteErrctr {ctx seq} (h : s.Canonical) : (s.noteErrctr ctx seq).Canonical := by
  unfold State.noteErrctr
  split
  · exact h
  · split
    · exact h
    · exact .writeEntry (.updCtx h)

theorem State.Canonical.tryAdd {a} (h : s.Canonical) : (s.tryAdd a).Canonical := by
  unfold State.tryAdd
  extract_lets drop fail
  have hf {t} (ht : t.Canonical) : (fail (drop t)).Canonical := by
    unfold fail
    split
    · exact .with ht
    · exact .noteErrctr (.with ht)
  refine .ite (.unfail (hf h)) (.ite (hf h) (.ite h ?_))
  split
  · rename_i e
    exact .globalAdd (.with (.of_fst e (.counterPage h)))
  · rename_i e
    exact hf (.of_fst e (.counterPage h))
  · rename_i e
    exact .request (.of_fst e (.counterPage h))
  · rename_i e
    exact .of_fst e (.counterPage h)

theorem State.Canonical.drain (h : s.Canonical) : (s.drain).Canonical := by
  unfold State.drain
  refine .foldl (fun _ _ ht => .tryAdd ht) (.foldl (fun _ _ hu => ?_) h)
  split
  · rename_i e2
    exact .with (.of_some e2 (State.Canonical.pushRecord hu))
  · exact hu

/-! ### FabricOps -/

theorem State.Canonical.sendPacket {p use_} (h : s.Canonical) : (s.sendPacket p use_).Canonical := h

theorem State.Canonical.fromSpine {typ dst line msg} (h : s.Canonical) : (s.fromSpine typ dst line msg).Canonical := h

theorem State.Canonical.cohAnswer {typ dst line msg bs} (h : s.Canonical) : (s.cohAnswer typ dst line msg bs).Canonical := h

/-! ### Perform -/

theorem State.Canonical.ownLine {l} (h : s.Canonical) : (s.ownLine l).Canonical := by
  unfold State.ownLine
  extract_lets f own
  have ho (k : Nat) : (own k).Canonical := by
    unfold own
    split
    · exact .with h
    · exact h
  split
  · exact ho _
  · exact ho _
  · exact h

theorem State.Canonical.putElem {a e x home} (h : s.Canonical) : (s.putElem a e x home).Canonical := by
  unfold State.putElem
  refine .foldl (fun _ _ ht => ?_) h
  split
  · exact ht
  · exact .ite ht (.ite (.setHome (.ownLine ht)) (.writeByte (.ownLine ht)))

theorem State.Canonical.deliverX {a e xd x} (h : s.Canonical) : (s.deliverX a e xd x).Canonical := by
  unfold State.deliverX
  split
  · exact .updStrand h
  · exact h

theorem State.Canonical.performElem {a e} (h : s.Canonical) : (s.performElem a e).Canonical := by
  unfold State.performElem
  extract_lets n
  split
  · exact .deliverX (.foldl (fun _ _ ht => .cacheByte ht) (.touchAll (.landingRead h)))
  · exact .deliverX h
  · exact .putElem (.touchAll h)
  · split
    · exact .globalAdd (.touchAll h)
    · exact .slotAdd h
    · exact h
  · exact .deliverX (.ite (.touchAll h) (.putElem (.touchAll h)))

theorem State.Canonical.markDone {id ts} (h : s.Canonical) : (s.markDone id ts).Canonical := h

theorem State.Canonical.perform {id ts} (h : s.Canonical) : (s.perform id ts).Canonical := by
  unfold State.perform
  split
  · exact h
  · exact .ite h (.ite (.askBytes h) (.sweep (.markDone (.foldl (fun _ _ hu => .performElem hu) h))))

theorem State.Canonical.failLate {sid task pc va bf cause} (h : s.Canonical) : (s.failLate sid task pc va bf cause).Canonical := by
  unfold State.failLate
  split
  · exact h
  · exact .ite (.terminate h) h

theorem State.Canonical.failAcc {id bad} (h : s.Canonical) : (s.failAcc id bad).Canonical := by
  unfold State.failAcc
  split
  · exact h
  · exact .failLate (.with h)

theorem State.Canonical.askSpine {line req} (h : s.Canonical) : (s.askSpine line req).Canonical :=
  .ite h (.sendPacket (.with h))

theorem State.Canonical.askDir {ctx dev pa own} (h : s.Canonical) : (s.askDir ctx dev pa own).Canonical :=
  .ite h (.askSpine (.with h))

theorem State.Canonical.sendLine {ctx l store payload use_} (h : s.Canonical) : ∀ t ∈ s.sendLine ctx l store payload use_, t.Canonical := by
  unfold State.sendLine
  extract_lets plane
  split
  · rintro _ ⟨⟩
    exact .askDir h
  · split
    · rintro _ ⟨⟩
    · rintro _ ⟨⟩
      exact .sendPacket h

theorem State.Canonical.askLines {ctx ls} (h : s.Canonical) : (s.askLines ctx ls).Canonical :=
  .foldl (fun _ _ ht => .ite ht (.askDir ht)) h

theorem State.Canonical.pumpAcc {id} (h : s.Canonical) : (s.pumpAcc id).Canonical := by
  unfold State.pumpAcc
  split
  · exact h
  · refine .ite h (.ite (.failAcc h) (.foldl (fun _ _ hu => ?_) h))
    split
    · exact hu
    · refine .ite hu ?_
      split
      · exact hu
      · rename_i e3
        exact .with (.of_some e3 (State.Canonical.sendLine hu))

theorem State.Canonical.updEntry {id g} (h : s.Canonical) : (s.updEntry id g).Canonical := h

theorem State.Canonical.pumpEntry {id} (h : s.Canonical) : (s.pumpEntry id).Canonical := by
  unfold State.pumpEntry
  split
  · exact h
  · refine .foldl (fun _ _ hu => ?_) h
    split
    · exact hu
    · refine .ite hu ?_
      split
      · exact hu
      · rename_i e3
        exact .updEntry (.of_some e3 (State.Canonical.sendLine hu))

theorem State.Canonical.pump (h : s.Canonical) : (s.pump).Canonical :=
  .foldl (fun _ _ ht => .pumpAcc ht) h

theorem State.Canonical.fillEntry {w id words tag r} (h : s.Canonical) : (s.fillEntry w id words tag r).Canonical :=
  .sweepQueues (.updEntry h)

theorem State.Canonical.elemPages {core ctx j va n k} (h : s.Canonical) : (s.elemPages core ctx j va n k).1.Canonical := by
  unfold State.elemPages
  refine .foldl_fst (fun _ _ _ ht => .ite_fst ht (.ite_fst ht ?_)) h
  split
  · rename_i e1
    exact .of_fst e1 (.accessPage ht)

theorem State.Canonical.entryData {core ctx id fs} (h : s.Canonical) : (s.entryData core ctx id fs).1.Canonical := by
  unfold State.entryData
  refine .foldl_fst (fun _ _ _ ht => ?_) (.foldl_fst (fun _ _ _ hu => .ite_fst hu (.ite_fst hu ?_)) h)
  · split
    · rename_i e1
      have hu : State.Canonical _ := .of_fst e1 ht
      dsimp only
      split
      · exact hu
      · exact hu
      · exact .request hu
      · exact .request hu
      · exact .ite_fst hu hu
      · exact hu
  · split
    · rename_i e2
      exact .of_fst e2 (.accessPage hu)

theorem Got.Canonical.gather {w g id p fs} (h : s.Canonical) : (s.gather w g id p fs).Canonical := by
  unfold State.gather
  split
  · rename_i e
    have ht : State.Canonical _ := .of_fst e (.entryData h)
    split
    · exact .poison (.unfail ht)
    · exact .ite (.wait ht) (.ite (.wait ht) (.ite (.poison ht) (.ite (.wait (.pumpEntry (.updEntry ht)))
        (.ite (.wait (.fetchTiers ht)) (.ite (.wait (.askBytes ht)) (.ok (.foldl (fun _ _ hv => .cacheByte hv) (.touchAll ht))))))))

theorem State.Canonical.fillPair {w id p lo hi r} (h : s.Canonical) : (s.fillPair w id p lo hi r).Canonical := by
  unfold State.fillPair
  split
  · split
    · exact .fillEntry h
    · exact .fillEntry (.fillEntry h)
  · split
    · exact .fillEntry h
    · exact .fillEntry (.fillEntry h)

theorem State.Canonical.fillData {w g id p} (h : s.Canonical) : (s.fillData w g id p).Canonical := by
  unfold State.fillData
  split
  · rename_i e
    exact .fillPair (Got.Canonical.of_eq e (.gather h))
  · rename_i e
    exact Got.Canonical.of_eq e (.gather h)
  · rename_i e
    exact .fillPair (Got.Canonical.of_eq e (.gather h))

theorem State.Canonical.fillPending {id} (h : s.Canonical) : (s.fillPending id).Canonical := by
  unfold State.fillPending
  dsimp only
  split
  · exact h
  · refine .ite h ?_
    split
    · exact .fillData h
    · split
      · rename_i e2
        exact .fillEntry (Got.Canonical.of_eq e2 (.gather h))
      · rename_i e2
        exact Got.Canonical.of_eq e2 (.gather h)
      · rename_i e2
        have ht : State.Canonical _ := Got.Canonical.of_eq e2 (.gather h)
        exact .ite (.ite (.fillData (.updEntry ht)) (.updEntry ht)) (.ite (.fillEntry ht) (.fillEntry ht))

theorem State.Canonical.dropMend {core id} (h : s.Canonical) : (s.dropMend core id).Canonical := h

theorem State.Canonical.mendPage {m} (h : s.Canonical) : (s.mendPage m).1.Canonical := by
  unfold State.mendPage
  refine .ite_fst h ?_
  split
  · rename_i e
    have ht : State.Canonical _ := .of_fst e (.accessPage h)
    split
    · rename_i e1
      split
      · exact .ite_fst ht (.ite_fst ht ht)
      · exact .ite_fst ht ht
    · exact ht

theorem State.Canonical.replayMend {core id} (h : s.Canonical) : (s.replayMend core id).Canonical := by
  unfold State.replayMend
  split
  · exact h
  · split
    · rename_i e1
      exact .perform (.with (.dropMend (.of_fst e1 (.mendPage h))))
    · rename_i e1
      exact .unfail (.failLate (.dropMend (.of_fst e1 (.mendPage h))))
    · rename_i e1
      exact .request (.of_fst e1 (.mendPage h))
    · rename_i e1
      exact .of_fst e1 (.mendPage h)

theorem State.Canonical.replayPage {asid vpage} (h : s.Canonical) : (s.replayPage asid vpage).Canonical :=
  .foldl (fun _ _ ht => .replayMend ht) h

theorem State.Canonical.replayMends (h : s.Canonical) : (s.replayMends).Canonical :=
  .foldl (fun _ _ ht => .ite ht (.replayMend ht)) h

theorem State.Canonical.pageDone {req retry} (h : s.Canonical) : (s.pageDone req retry).Canonical := by
  unfold State.pageDone
  split
  · exact h
  · extract_lets t mends u v
    have hv : v.Canonical := .replayPage (.ite (.with h) (.with (.with h)))
    refine .ite (.with h) (.ite hv (.foldl (fun _ _ ht => ?_) hv))
    split
    · exact .fillPending ht
    · exact ht

theorem Out.Canonical.execLoadReturn {id threads} (h : s.Canonical) : Out.Canonical (execLoadReturn id threads s) := by
  unfold Machine.execLoadReturn
  refine .next ?_
  split
  · exact .ite (.perform h) h
  · exact h

theorem Out.Canonical.execStorePerformed {id threads} (h : s.Canonical) : Out.Canonical (execStorePerformed id threads s) := by
  unfold Machine.execStorePerformed
  refine .next ?_
  split
  · exact .ite h (.perform h)
  · exact h

theorem Out.Canonical.execQueueEntryFill {id} (h : s.Canonical) : Out.Canonical (execQueueEntryFill id s) :=
  .next (.fillPending h)

theorem Out.Canonical.execWalkComplete {id} (h : s.Canonical) : Out.Canonical (execWalkComplete id s) :=
  .next (.walkDone h)

theorem Out.Canonical.execPageDone {req retry} (h : s.Canonical) : Out.Canonical (execPageDone req retry s) :=
  .next (.pageDone h)

/-! ### AccessOps -/

theorem State.Canonical.translateLines {core ctx j k es} (h : s.Canonical) : (s.translateLines core ctx j k es).1.Canonical :=
  .foldl_fst (fun _ _ _ ht => .ite_fst ht (.ite_fst ht (.accessPage ht))) h

theorem State.Canonical.pagesOf {m a} (h : s.Canonical) : (s.pagesOf m a).1.Canonical :=
  .translateLines h

theorem Checked.Canonical.checkPages {m a} (h : s.Canonical) : (s.checkPages m a).Canonical := by
  unfold State.checkPages
  have hp : (s.pagesOf m a).1.Canonical := .pagesOf h
  exact .ite (.stall h) (.ite (.trap (.unfail hp)) (.ite (.trap hp) (.ite (.trap hp)
    (.ite (.stall (.foldl (fun _ _ ht => .ite (.request (.ite (.request ht) ht)) (.ite (.request ht) ht)) hp)) (.ok hp)))))

theorem State.Canonical.logLine {m a ps line} (h : s.Canonical) : (s.logLine m a ps line).Canonical :=
  .request (.updCore (.with h))

theorem State.Canonical.addAcc {m a dev path elems} (h : s.Canonical) : (s.addAcc m a dev path elems).Canonical := h

theorem State.Canonical.listAcc {m a path elems} (h : s.Canonical) : (s.listAcc m a path elems).Canonical := h

theorem State.Canonical.listSides {m a es} (h : s.Canonical) : (s.listSides m a es).Canonical :=
  .ite (.foldl (fun _ _ ht => .addAcc ht) h) (.ite (.ite (.listAcc h) h) (.listAcc (.ite (.listAcc h) h)))

theorem State.Canonical.issue {m a ps} (h : s.Canonical) : ∀ t ∈ s.issue m a ps, t.Canonical := by
  unfold State.issue
  extract_lets logged elems elems' far
  split
  · rintro _ ⟨⟩
  · split
    · rintro _ ⟨⟩
    · rintro _ ⟨⟩
      exact .sweep (.listSides (.foldl (fun _ _ ht => .logLine ht) h))

theorem State.Canonical.countMendFull {core} (h : s.Canonical) : (s.countMendFull core).Canonical :=
  .ite h (.updCore (.count h))

theorem State.Canonical.issueStall {m a ps} (h : s.Canonical) : (s.issueStall m a ps).Canonical :=
  .ite (.countMendFull h) h

theorem State.Canonical.access {m a} {go : State → State} (hg : ∀ t, t.Canonical → (go t).Canonical) (h : s.Canonical) :
    (s.access m a go).Canonical := by
  unfold State.access
  split
  · rename_i e
    exact .trap (Checked.Canonical.of_eq e (.checkPages h))
  · rename_i e
    exact Checked.Canonical.of_eq e (.checkPages h)
  · rename_i e
    split
    · exact .issueStall h
    · rename_i e'
      exact hg _ (.of_some e' (State.Canonical.issue (Checked.Canonical.of_eq e (.checkPages h))))

theorem State.Canonical.recAccess {m bf sizes strong idx val cmp a} {go : State → State} (hg : ∀ t, t.Canonical → (go t).Canonical)
    (h : s.Canonical) : (s.recAccess m bf sizes strong idx val cmp a go).Canonical :=
  .ite h (.ite (.trap h) (.ite (.trap h) (.ite (.trap h) (.ite (.trap h) (.access hg h)))))

/-! ### Access -/

theorem Out.Canonical.asAccess {yields len regs} {k : Me → State} (h : s.Canonical) (hk : ∀ m, (k m).Canonical) :
    Out.Canonical (asAccess yields len regs s k) := by
  have hm (m : Me) : State.Canonical (if m.em = 0 then s.finishVec m yields 1 len else if !m.access then s.raise m .illegal
      else if s.xBusy m.sid regs then s else k m) := .ite (.finishVec h) (.ite (.raise h) (.ite h (hk m)))
  cases yields
  · exact .asStrand hm
  · exact .asYielding h hm

theorem State.Canonical.done {m yields len} (h : s.Canonical) : (s.done m yields len).Canonical :=
  .finishVec h

theorem Out.Canonical.execLd {p d idx sx bf} (h : s.Canonical) : Out.Canonical (execLd p d idx sx bf s) :=
  .asAccess h (fun _ => .recAccess (fun _ ht => .done ht) h)

theorem Out.Canonical.execSt {p idx v bf} (h : s.Canonical) : Out.Canonical (execSt p idx v bf s) :=
  .asAccess h (fun _ => .recAccess (fun _ ht => .done ht) h)

theorem Out.Canonical.runLds {p d off sz lit len} (h : s.Canonical) : Out.Canonical (runLds p d off sz lit len s) := by
  unfold Machine.runLds
  refine .asAccess h (fun _ => ?_)
  split
  · exact .trap h
  · exact .ite h (.done (.listAcc h))

theorem Out.Canonical.runSts {p sz off v lit len} (h : s.Canonical) : Out.Canonical (runSts p sz off v lit len s) := by
  unfold Machine.runSts
  refine .asAccess h (fun _ => ?_)
  split
  · exact .trap h
  · exact .ite h (.done (.listAcc h))

theorem State.Canonical.setFull {w line b} (h : s.Canonical) : (s.setFull w line b).Canonical :=
  .ite (.updCore h) (.updWg h)

theorem State.Canonical.updFeq {w line g} (h : s.Canonical) : (s.updFeq w line g).Canonical :=
  .ite (.updCore h) (.updWg h)

theorem State.Canonical.feLeave {x} (h : s.Canonical) : (s.feLeave x).Canonical :=
  .updFeq h

theorem State.Canonical.feWait {m x} (h : s.Canonical) : (s.feWait m x).Canonical :=
  .block (.updFeq (.feLeave h))

theorem State.Canonical.feList {x elems} (h : s.Canonical) : (s.feList x elems).Canonical := by
  unfold State.feList
  split
  · exact .sweep (.with h)
  · exact h

theorem State.Canonical.feAct {x} (h : s.Canonical) : (s.feAct x).Canonical :=
  .ite (.feList (.foldl_fst (fun _ _ _ ht => .landingRead ht) (.setFull (.feLeave h))))
    (.feList (.foldl (fun _ _ ht => .foldl (fun _ _ hu => .writeByte hu) ht) (.setFull (.feLeave h))))

theorem Out.Canonical.execLdc {p d off sz} (h : s.Canonical) : Out.Canonical (execLdc p d off sz s) := by
  unfold Machine.execLdc
  refine .asAccess h (fun _ => ?_)
  dsimp only
  split
  · exact .trap h
  · exact .ite h (.ite (.feWait h) (.done (.feAct h)))

theorem Out.Canonical.execStf {p sz off v} (h : s.Canonical) : Out.Canonical (execStf p sz off v s) := by
  unfold Machine.execStf
  refine .asAccess h (fun m => ?_)
  extract_lets o
  cases m.feTrap o sz.bytes with
  | some t => exact .trap h
  | none => exact .ite h (.ite (.feWait h) (.done (.feAct h)))

theorem State.Canonical.feGo {x} (h : s.Canonical) : (s.feGo x).Canonical :=
  .updStrand (.feAct h)

theorem State.Canonical.feServe {n} (h : s.Canonical) : (State.feServe n s).Canonical := by
  induction n generalizing s with
  | zero => exact h
  | succ n ih =>
    unfold State.feServe
    split
    · exact h
    · exact ih (.feGo h)

theorem State.Canonical.writeX {m n d vals len} (h : s.Canonical) : (s.writeX m n d vals len).Canonical :=
  .done (.updStrand h)

theorem Out.Canonical.execFeq {p n d off op} (h : s.Canonical) : Out.Canonical (execFeq p n d off op s) := by
  unfold Machine.execFeq
  refine .asAccess h (fun m => ?_)
  extract_lets o
  cases m.sharedTrap o 1 with
  | some t => exact .trap h
  | none =>
    refine .ite h (.writeX (.foldl_fst (fun _ _ _ ht => ?_) h))
    cases op with
    | read => exact ht
    | fill => exact .setFull ht
    | empty => exact .setFull ht

theorem Out.Canonical.execBfset {p bf word v} (h : s.Canonical) : Out.Canonical (execBfset p bf word v s) :=
  .asAccess h (fun _ => .done (.listAcc h))

theorem Out.Canonical.execBfget {p n d bf word} (h : s.Canonical) : Out.Canonical (execBfget p n d bf word s) :=
  .asAccess h (fun _ => .ite h (.writeX h))

theorem Out.Canonical.runPf {tier p va len ctr} (h : s.Canonical) : Out.Canonical (runPf tier p va len ctr s) :=
  .asAccess h (fun _ => .ite (.block h) (.ite (.done h) (.done (.with h))))

theorem Out.Canonical.execWaitf {p path thr} (h : s.Canonical) : Out.Canonical (execWaitf p path thr s) :=
  .asAccess h (fun _ => .ite (.done h) (.block h))

theorem Out.Canonical.execInfl {p n d path} (h : s.Canonical) : Out.Canonical (execInfl p n d path s) :=
  .asAccess h (fun _ => .writeX h)

theorem Out.Canonical.execLand {p l off cnt} (h : s.Canonical) : Out.Canonical (execLand p l off cnt s) :=
  .asAccess h (fun _ => .ite (.raise h) (.ite (.block h) (.done (.updWg h))))

/-! ### Canon -/

theorem State.Canonical.setSh {w off b} (h : s.Canonical) : (s.setSh w off b).Canonical :=
  .ite (.updCore h) (.updWg h)

theorem State.Canonical.canonWrite {w halves p x} (h : s.Canonical) : (s.canonWrite w halves p x).Canonical :=
  .ite (.setSh h) (.foldl (fun _ _ ht => .setSh ht) h)

/-! ### Matrix -/

theorem Out.Canonical.asEngine {len regs enc} {k : Me → State} (h : s.Canonical) (hk : ∀ m, (k m).Canonical) :
    Out.Canonical (asEngine len regs enc s k) :=
  .asAccess h (fun m => .ite (.raise h) (.ite (.raise h) (hk m)))

theorem State.Canonical.queueCmd {m len cmd ts acc ctr conf} (h : s.Canonical) : (s.queueCmd m len cmd ts acc ctr conf).Canonical :=
  .ite (.block h) (.done (.updWg (.updCore (.with h))))

theorem Out.Canonical.execMloop {p o} (h : s.Canonical) : Out.Canonical (execMloop p o s) := by
  unfold Machine.execMloop
  refine .asEngine h (fun _ => .ite (.raise h) ?_)
  split
  · exact .raise h
  · exact .ite (.raise h) (.ite (.raise h) (.ite (.raise h) (.queueCmd h)))

theorem Out.Canonical.runMscl {len tile x lit ctr} (h : s.Canonical) : Out.Canonical (runMscl len tile x lit ctr s) :=
  .asEngine h (fun _ => .ite (.raise h) (.queueCmd h))

theorem State.Canonical.stepTile {w tile acc arm zero as bs base} (h : s.Canonical) : (s.stepTile w tile acc arm zero as bs base).Canonical := h

theorem State.Canonical.loopStep {e tile a b accum ainc binc geoW arm red n} (h : s.Canonical) :
    (s.loopStep e tile a b accum ainc binc geoW arm red n).Canonical := by
  unfold State.loopStep
  split
  · exact .updWg (.ite (.stepTile (.stepTile (.ite (.with h) h))) (.stepTile (.ite (.with h) h)))
  · exact h

theorem State.Canonical.loopEnd {e} (h : s.Canonical) : (s.loopEnd e).Canonical := by
  unfold State.loopEnd
  split
  · split
    · exact h
    · exact .ite h (.updWg (.with h))
  · exact h

theorem State.Canonical.drainTile {w g tile tt d rm sat relu} (h : s.Canonical) : (s.drainTile w g tile tt d rm sat relu).Canonical :=
  .foldl (fun _ _ ht => .ite (.foldl (fun _ _ hu => .foldl (fun _ _ hv => .canonWrite hv) (.setSh hu)) ht)
    (.foldl (fun _ _ hu => .canonWrite hu) ht)) h

theorem State.Canonical.issuerTrap {w g r} (h : s.Canonical) : (s.issuerTrap w g r).Canonical := by
  unfold State.issuerTrap
  split
  · exact .ite (.terminate h) (.updWg h)
  · exact .terminate h

theorem State.Canonical.wreck {w ts} (h : s.Canonical) : (s.wreck w ts).Canonical :=
  .foldl (fun _ _ ht => .updWg (.with ht)) h

theorem State.Canonical.matrixStep {e g} (h : s.Canonical) : (s.matrixStep e g).1.Canonical := by
  unfold State.matrixStep
  split
  · exact .loopStep h
  · exact h
  · exact h
  · exact h
  · split
    · exact .issuerTrap h
    · exact .drainTile h
  · exact h

theorem State.Canonical.putCmd {core id g} (h : s.Canonical) : (s.putCmd core id g).Canonical := h

theorem State.Canonical.engineStep {core} (h : s.Canonical) : (s.engineStep core).Canonical := by
  unfold State.engineStep
  split
  · exact h
  · rename_i e _
    split
    · exact h
    · rename_i g _
      refine .ite h ?_
      extract_lets t
      have hm : (t.matrixStep e g).1.Canonical := .matrixStep (.ite (.wreck h) h)
      refine .updCore ?_
      split
      · exact .count (.putCmd hm)
      · exact .putCmd hm

theorem State.Canonical.engineSteps {core n} (h : s.Canonical) : (s.engineSteps core n).Canonical := by
  induction n generalizing s with
  | zero => exact h
  | succ n ih => exact ih (.engineStep h)

theorem State.Canonical.engineDone {core} (h : s.Canonical) : (s.engineDone core).Canonical := by
  unfold State.engineDone
  split
  · exact h
  · split
    · dsimp only
      split <;> exact .updCore (.loopEnd h)
    · dsimp only
      split
      · exact .updCore (.loopEnd h)
      · exact .slotAdd (.updCore (.loopEnd h))

theorem Out.Canonical.execMatrixCommandExecute {core steps} (h : s.Canonical) : Out.Canonical (execMatrixCommandExecute core steps s) :=
  .next (.ite h (.engineSteps h))

theorem Out.Canonical.execMatrixCommandComplete {core} (h : s.Canonical) : Out.Canonical (execMatrixCommandComplete core s) :=
  .next (.engineDone h)

/-! ### Copy -/

theorem State.Canonical.queueCopy {m len td o kind ctr dlv} (h : s.Canonical) : (s.queueCopy m len td o kind ctr dlv).Canonical :=
  .ite (.block h) (.done (.updCore (.with h)))

theorem Out.Canonical.execTcopy {p o} (h : s.Canonical) : Out.Canonical (execTcopy p o s) := by
  unfold Machine.execTcopy
  refine .asEngine h (fun _ => .ite h (.ite (.raise h) ?_))
  split
  · exact .raise h
  · exact .ite (.block h) (.queueCopy (.updWg h))

theorem Out.Canonical.execTmcast {p o rmask} (h : s.Canonical) : Out.Canonical (execTmcast p o rmask s) := by
  unfold Machine.execTmcast
  refine .asEngine h (fun _ => .ite h (.ite (.raise h) ?_))
  split
  · exact .raise h
  · exact .ite (.raise h) (.queueCopy h)

theorem Out.Canonical.execTstore {p td ss ctr sc} (h : s.Canonical) : Out.Canonical (execTstore p td ss ctr sc s) :=
  .asEngine h (fun _ => .ite (.raise h) (.ite h (.ite (.raise h) (.ite (.raise h) (.queueCopy h)))))

theorem Out.Canonical.execTdset {p td word src} (h : s.Canonical) : Out.Canonical (execTdset p td word src s) :=
  .asEngine h (fun _ => .done (.listAcc h))

theorem CopyRes.Canonical.enginePages {core ctx id va n k} (h : s.Canonical) : (s.enginePages core ctx id va n k).Canonical := by
  unfold State.enginePages
  dsimp only
  split
  · rename_i e
    exact .stop (.unfail (.of_fst e (.elemPages h)))
  · rename_i e
    exact .stop (.unfail (.of_fst e (.elemPages h)))
  · rename_i e
    exact .wait (fun _ hu => .request hu)
  · rename_i e
    exact .wait (fun _ hu => .request hu)
  · rename_i e
    exact .ok (.of_fst e (.elemPages h))
  · rename_i e
    exact .wait (fun _ hu => .elemPages hu)

theorem CopyRes.Canonical.engineReady {core ctx slot k pl} (h : s.Canonical) : (s.engineReady core ctx slot k pl).Canonical := by
  unfold State.engineReady
  refine .ite (.wait (fun _ ht => .fetchTiers ht)) (.ite (.wait (fun _ ht => .askLines ht))
    (.ite (.wait (fun _ ht => .foldl (fun _ _ hu => ?_) ht)) (.ok h)))
  split
  · exact .ite hu (.askLine hu)
  · exact hu

theorem CopyRes.Canonical.enginePlaces {core ctx slot id va n k} (h : s.Canonical) : (s.enginePlaces core ctx slot id va n k).Canonical :=
  .bind (.enginePages h) (fun _ _ ht => .ite (.stop ht) (.ite (.stop ht) (.engineReady ht)))

theorem CopyRes.Canonical.copyPlaces {c va n k} (h : s.Canonical) : (s.copyPlaces c va n k).Canonical :=
  .enginePlaces h

theorem State.Canonical.engineRead {core pl} (h : s.Canonical) : (s.engineRead core pl).1.Canonical := by
  unfold State.engineRead
  refine .foldl (fun _ _ ht => ?_) (.foldl (fun _ _ hu => .ite (.writeBack hu) hu) h)
  split
  · exact .ite ht (.l2Fill ht)
  · exact ht

theorem State.Canonical.enginePurge {core pl} (h : s.Canonical) : (s.enginePurge core pl).Canonical := by
  unfold State.enginePurge
  refine .foldl (fun _ _ ht => ?_) h
  split
  · exact .ite (.purge ht) (.l1Own ht)
  · exact ht

theorem State.Canonical.engineWrite {core pl bs} (h : s.Canonical) : (s.engineWrite core pl bs).Canonical := by
  unfold State.engineWrite
  refine .foldl (fun _ _ ht => ?_) (.enginePurge h)
  split
  · exact .setPhys (.ownLine ht)
  · exact ht

theorem CopyRes.Canonical.copyRead {c va n} (h : s.Canonical) : (s.copyRead c va n).Canonical := by
  unfold State.copyRead
  refine .bind (.copyPlaces h) (fun _ _ ht => .ok (.foldl (fun _ _ hu => ?_) (.foldl (fun _ _ hv => .ite (.writeBack hv) hv) ht)))
  split
  · exact .ite hu (.l2Fill hu)
  · exact hu

theorem CopyRes.Canonical.copyRow {c r first} (h : s.Canonical) : (s.copyRow c r first).Canonical := by
  unfold State.copyRow
  split
  · exact .ok h
  · exact .ite (.bind (.copyRead h) (fun _ _ hu => .ok hu)) (.ite (.ok h) (.stop h))

theorem CopyRes.Canonical.copyElem {c d0 d1} (h : s.Canonical) : (s.copyElem c d0 d1).Canonical :=
  .ite (.ok h) (.bind (.copyRead h) (fun _ _ ht => .ok ht))

theorem CopyRes.Canonical.landElem {c r e} (h : s.Canonical) : (s.landElem c r e).Canonical :=
  .bind (.copyRow h) (fun _ _ ht => .copyElem ht)

theorem CopyRes.Canonical.landByte {c o} (h : s.Canonical) : (s.landByte c o).Canonical :=
  .ite (.ite (.ok h) (.bind (.copyRow h) (fun _ _ ht => .ite (.bind (.copyRead ht) (fun _ _ hu => .ok hu)) (.ok ht))))
    (.ite (.ite (.ok h) (.bind (.landElem h) (fun _ _ ht => .ite (.ok ht) (.bind (.landElem ht) (fun _ _ hu => .ok hu)))))
      (.ite (.ok h) (.bind (.landElem h) (fun _ _ ht => .ok ht))))

theorem CopyRes.Canonical.landBytesFrom {c o n} (h : s.Canonical) : (s.landBytesFrom c o n).Canonical := by
  induction n generalizing s o with
  | zero => exact .ok h
  | succ n ih => exact .bind (.landByte h) (fun _ _ ht => .bind (ih ht) (fun _ _ hu => .ok hu))

theorem State.Canonical.deliverBytes {c d o bs} (h : s.Canonical) : (s.deliverBytes c d o bs).Canonical :=
  .foldl (fun _ _ ht => .updWg (.disturb (.ite_snd (.takeFree ht) ht))) h

theorem State.Canonical.tellWatch {c k acc} (h : s.Canonical) : (s.tellWatch c k acc).Canonical := by
  unfold State.tellWatch
  refine .ite h ?_
  split
  · exact .ite (.logDbg (.count (.with h))) (.updWg (.with h))
  · exact h

theorem CopyRes.Canonical.copyWrite {c va sh width n x} (h : s.Canonical) : (s.copyWrite c va sh width n x).Canonical :=
  .bind (.copyPlaces h) (fun _ _ ht => .ok (.engineWrite (.enginePurge ht)))

theorem CopyRes.Canonical.storeElem {c d0 d1 first x} (h : s.Canonical) : (s.storeElem c d0 d1 first x).Canonical :=
  .ite (.ok h) (.bind (.copyWrite h) (fun _ _ ht => .ok ht))

theorem CopyRes.Canonical.storeRun {c d rm sat i n} (h : s.Canonical) : (s.storeRun c d rm sat i n).Canonical := by
  induction n generalizing s i with
  | zero => exact .ok h
  | succ n ih =>
    exact .bind (.copyRow h) (fun _ _ ht => .bind (.ite (.bind (.copyWrite ht) (fun _ _ hu => .ok hu)) (.ok ht))
      (fun _ _ hu => .bind (.storeElem hu) (fun _ _ hv => .bind (ih hv) (fun _ _ hw => .ok hw))))

theorem State.Canonical.putCopy {id g} (h : s.Canonical) : (s.putCopy id g).Canonical := h

theorem State.Canonical.endCopy {c} (h : s.Canonical) : (s.endCopy c).Canonical := h

theorem State.Canonical.takeSlots {unit} (h : s.Canonical) : (s.takeSlots unit).Canonical := h

theorem State.Canonical.copyFail {c cause va} (h : s.Canonical) : (s.copyFail c cause va).Canonical := by
  unfold State.copyFail
  split
  · exact h
  · exact .terminate h

theorem State.Canonical.movePiece {c} (h : s.Canonical) : (s.movePiece c).Canonical := by
  unfold State.movePiece
  split
  · dsimp only
    split
    · rename_i e1
      exact .tellWatch (.putCopy (CopyRes.Canonical.of_eq e1 (.storeRun h)))
    · rename_i e1
      exact CopyRes.Canonical.of_eq e1 (.storeRun h) _ h
    · rename_i e1
      exact .copyFail (CopyRes.Canonical.of_eq e1 (.storeRun h))
  · dsimp only
    split
    · rename_i e1
      exact .tellWatch (.putCopy (.foldl (fun _ _ hv => .deliverBytes hv) (CopyRes.Canonical.of_eq e1 (.landBytesFrom h))))
    · rename_i e1
      exact CopyRes.Canonical.of_eq e1 (.landBytesFrom h) _ h
    · rename_i e1
      exact .copyFail (CopyRes.Canonical.of_eq e1 (.landBytesFrom h))

theorem Out.Canonical.execCopyPiece {unit} (h : s.Canonical) : Out.Canonical (execCopyPiece unit s) := by
  unfold Machine.execCopyPiece
  refine .next ?_
  split
  · exact .takeSlots h
  · exact .with (.movePiece (.takeSlots h))

theorem State.Canonical.landed1 {c d} (h : s.Canonical) : (s.landed1 c d).Canonical := by
  unfold State.landed1
  dsimp only
  split
  · exact .updWg h
  · exact .slotAdd (.updWg h)

theorem Out.Canonical.execTcopyLanded {id rcv} (h : s.Canonical) : Out.Canonical (execTcopyLanded id rcv s) := by
  unfold Machine.execTcopyLanded
  refine .next ?_
  split
  · exact h
  · split
    · exact h
    · exact h
    · exact .ite h (.ite (.endCopy (.landed1 (.putCopy h))) (.landed1 (.putCopy h)))

theorem Out.Canonical.execTmcastDeliveryStart {id} (h : s.Canonical) : Out.Canonical (execTmcastDeliveryStart id s) := by
  unfold Machine.execTmcastDeliveryStart
  refine .next ?_
  split
  · exact h
  · split
    · exact .ite h (.ite (.endCopy h) (.ite h (.putCopy (.foldl (fun _ _ hv => .updWg hv) h))))
    · exact h

theorem Out.Canonical.execTstoreComplete {id} (h : s.Canonical) : Out.Canonical (execTstoreComplete id s) := by
  unfold Machine.execTstoreComplete
  refine .next ?_
  split
  · exact h
  · split
    · refine .ite h ?_
      dsimp only
      split
      · exact .endCopy h
      · exact .slotAdd (.endCopy h)
    · exact h

/-! ### Schedule -/

theorem State.Canonical.launchLoose {node n} (h : s.Canonical) : (s.launchLoose node n).Canonical := by
  unfold State.launchLoose
  split
  · exact h
  · exact .launch (.with h)

theorem Out.Canonical.execCisternCountLaunch {node} (h : s.Canonical) : Out.Canonical (execCisternCountLaunch node s) := by
  unfold Machine.execCisternCountLaunch
  refine .next ?_
  split
  · exact h
  · exact .ite (.launchLoose h) h

theorem Out.Canonical.execCisternTimerLaunch {node} (h : s.Canonical) : Out.Canonical (execCisternTimerLaunch node s) := by
  unfold Machine.execCisternTimerLaunch
  refine .next ?_
  split
  · exact h
  · split
    · exact h
    · exact .ite (.launchLoose h) h

theorem CopyRes.Canonical.mapPlaces {ctx id va} (h : s.Canonical) : (s.mapPlaces ctx id va).Canonical :=
  .bind (.enginePages h) (fun _ _ ht => .engineReady ht)

theorem PlaceRes.Canonical.readPlaces {ctx id va i n} (h : s.Canonical) : (s.readPlaces ctx id va i n).Canonical := by
  induction n generalizing s i with
  | zero => exact .ok h
  | succ n ih =>
    unfold State.readPlaces
    split
    · rename_i e
      exact .bad (CopyRes.Canonical.of_eq e (.mapPlaces h))
    · rename_i e
      exact .wait (CopyRes.Canonical.of_eq e (.mapPlaces h) _ h)
    · rename_i e
      extract_lets t v
      have ht : t.Canonical := .engineRead (CopyRes.Canonical.of_eq e (.mapPlaces h))
      refine .ite (.bad ht) ?_
      split
      · rename_i e'
        exact .ok (PlaceRes.Canonical.of_eq e' (ih ht))
      · exact ih ht

theorem State.Canonical.dropRecord {node r} (h : s.Canonical) : (s.dropRecord node r).Canonical := h

theorem State.Canonical.rejectGrid {node r e} (h : s.Canonical) : (s.rejectGrid node r e).Canonical :=
  .childGone (.launchError (.dropRecord h))

theorem State.Canonical.makeGrid {node k r a place} (h : s.Canonical) : (s.makeGrid node k r a place).Canonical := by
  unfold State.makeGrid
  refine .with ?_
  split
  · exact .dropRecord h
  · exact .onParent (.dropRecord h)

theorem State.Canonical.expandGrid {node k r} (h : s.Canonical) : (s.expandGrid node k r).1.Canonical := by
  unfold State.expandGrid
  split
  · exact .rejectGrid h
  · refine .ite_fst (.rejectGrid h) (.ite_fst (.makeGrid h) ?_)
    split
    · rename_i e1
      exact .makeGrid (PlaceRes.Canonical.of_eq e1 (.readPlaces h))
    · rename_i e1
      exact PlaceRes.Canonical.of_eq e1 (.readPlaces h)
    · rename_i e1
      exact .rejectGrid (PlaceRes.Canonical.of_eq e1 (.readPlaces h))

theorem State.Canonical.expandFirst {node k l} (h : s.Canonical) : (s.expandFirst node k l).Canonical := by
  induction l generalizing s with
  | nil => exact h
  | cons r l ih =>
    unfold State.expandFirst
    split
    · rename_i e
      exact .of_fst e (.expandGrid h)
    · rename_i e
      exact ih (.of_fst e (.expandGrid h))

theorem Out.Canonical.execGridExpand {node} (h : s.Canonical) : Out.Canonical (execGridExpand node s) := by
  unfold Machine.execGridExpand
  refine .next ?_
  split
  · exact h
  · exact .expandFirst h

theorem State.Canonical.noteActive {w} (h : s.Canonical) : (s.noteActive w).Canonical := h

theorem State.Canonical.unpark {sid} (h : s.Canonical) : (s.unpark sid).Canonical := h

theorem State.Canonical.activateList {core l} (h : s.Canonical) : (activateList s core l).Canonical := by
  induction l generalizing s with
  | nil => exact h
  | cons p l ih => exact .ite (ih (.unpark h)) h

theorem State.Canonical.activate {core} (h : s.Canonical) : (s.activate core).Canonical :=
  .activateList h

theorem State.Canonical.parkAtYield {sid} (h : s.Canonical) : (s.parkAtYield sid).Canonical :=
  .ite (.updStrand h) h

theorem Out.Canonical.execVictimWindow {core} (h : s.Canonical) : Out.Canonical (execVictimWindow core s) := by
  unfold Machine.execVictimWindow
  refine .next ?_
  dsimp only
  split
  · exact h
  · exact .ite h (.activate (.ite (.count (.updCore h)) (.updCore h)))

theorem State.Canonical.moveCore {donor taker} (h : s.Canonical) : (s.moveCore donor taker).Canonical := by
  unfold State.moveCore
  split
  · exact .updCore h
  · exact h

theorem Out.Canonical.execWeirEvaluate (h : s.Canonical) : Out.Canonical (execWeirEvaluate s) := by
  unfold Machine.execWeirEvaluate
  refine .next (.ite h ?_)
  dsimp only
  split
  · exact .with h
  · split
    · exact .moveCore (.with h)
    · exact .with h

/-! ### System -/

theorem Out.Canonical.execTrap {code} (h : s.Canonical) : Out.Canonical (execTrap code s) :=
  .asStrand (fun _ => .trapAt h)

theorem Out.Canonical.execRft (h : s.Canonical) : Out.Canonical (execRft s) := by
  unfold Machine.execRft
  refine .asStrand (fun _ => ?_)
  split
  · exact .ite (.returnFromTrap h) (.raise h)
  · exact .raise h

theorem State.Canonical.writeSs {m d ws} (h : s.Canonical) : (s.writeSs m d ws).Canonical := h

theorem Out.Canonical.execBkpt (h : s.Canonical) : Out.Canonical (execBkpt s) :=
  .asStrand (fun _ => .advance (.ite (.updWg h) h))

theorem Out.Canonical.execReservedOpcode {p w ext} (h : s.Canonical) : Out.Canonical (execReservedOpcode p w ext s) := by
  unfold Machine.execReservedOpcode
  refine .asStrand (fun _ => ?_)
  split
  · dsimp only
    split
    · exact .takePending h
    · exact .finishVec h
  · dsimp only
    split
    · exact .takePending h
    · exact .raise h

theorem Out.Canonical.execOrphanPrefix (h : s.Canonical) : Out.Canonical (execOrphanPrefix s) :=
  .asStrand (fun _ => .raise h)

/-! ### Admit -/

theorem State.Canonical.settleIn {w g mk} (h : s.Canonical) : (s.settleIn w g mk).Canonical :=
  .activate (.noteActive (.l1Trim (.phaseAcquire (.with h))))

theorem State.Canonical.placeNew {core node n l} (h : s.Canonical) : (s.placeNew core node n l).Canonical := by
  unfold State.placeNew
  exact .settleIn h

theorem State.Canonical.admitNew {src core} (h : s.Canonical) : (s.admitNew src core).Canonical := by
  unfold State.admitNew
  split
  · exact h
  · refine .ite h ?_
    split
    · split
      · exact h
      · exact .placeNew (.with h)
    · split
      · exact h
      · split
        · exact h
        · exact .placeNew (.with h)
    · exact h

theorem State.Canonical.failPlacement {ctx v} (h : s.Canonical) : (s.failPlacement ctx v).Canonical :=
  .terminateSaved (.logError h)

theorem State.Canonical.failSave {ctx v} (h : s.Canonical) : (s.failSave ctx v).Canonical :=
  .terminateSaved (.with h)

theorem State.Canonical.rewatch {ctx from_ core} (h : s.Canonical) : (s.rewatch ctx from_ core).Canonical := by
  unfold State.rewatch
  split
  · exact h
  · exact .ite h (.updCore (.updCtx h))

theorem State.Canonical.reinstate {ctx v core} (h : s.Canonical) : (s.reinstate ctx v core).Canonical :=
  .with (.updCore (.rewatch (.settleIn (.updCtx h))))

theorem State.Canonical.admitSaved {id core} (h : s.Canonical) : (s.admitSaved id core).Canonical := by
  unfold State.admitSaved
  split
  · exact h
  · exact .ite h (.ite (.failPlacement h) (.ite (.reinstate h) h))

theorem Out.Canonical.execAdmitWg {src core} (h : s.Canonical) : Out.Canonical (execAdmitWg src core s) := by
  unfold Machine.execAdmitWg
  refine .next ?_
  split
  · exact .admitSaved h
  · exact .admitNew h

theorem State.Canonical.learnLease {node figure} (h : s.Canonical) : (s.learnLease node figure).Canonical := by
  unfold State.learnLease
  split
  · exact h
  · exact .with h

theorem State.Canonical.setBit {grid} (h : s.Canonical) : (s.setBit grid).Canonical := by
  unfold State.setBit
  split
  · exact h
  · split
    · exact h
    · exact .with h

theorem State.Canonical.freeAll {w g} (h : s.Canonical) : (s.freeAll w g).Canonical :=
  .activate (.freeWg (.dropReceiver (.discardQueues h)))

theorem Out.Canonical.execRetire {wg} (h : s.Canonical) : Out.Canonical (execRetire wg s) := by
  unfold Machine.execRetire
  refine .next ?_
  split
  · exact h
  · exact .ite h (.ite (.wgEnded (.freeAll (.setBit (.learnLease (.phaseRelease h))))) (.with (.freeAll h)))

theorem State.Canonical.finishRecs (h : s.Canonical) : (s.finishRecs).Canonical :=
  .foldl (fun _ _ ht => .wgEnded (.ite (.with ht) (.setBit (.learnLease (.phaseRelease (.with ht)))))) h

theorem Out.Canonical.execDebugStopHalt {at_} (h : s.Canonical) : Out.Canonical (execDebugStopHalt at_ s) := by
  unfold Machine.execDebugStopHalt
  refine .next ?_
  split
  · split
    · exact .ite (.logDbg (.updWg h)) h
    · exact h
  · split
    · split
      · exact .ite (.logDbg (.with h)) h
      · exact h
    · exact h
  · split
    · split
      · exact .ite (.logDbg (.with h)) h
      · exact h
    · exact h

/-! ### Directory -/

theorem State.Canonical.setLine {line bs} (h : s.Canonical) : (s.setLine line bs).Canonical :=
  .ite (.setPhysBytes h) (.l2Fill (.with h))

theorem State.Canonical.dropLine {line} (h : s.Canonical) : (s.dropLine line).Canonical := h

theorem State.Canonical.giveUp {line} (h : s.Canonical) : (s.giveUp line).Canonical :=
  .dropLine (.ite (.sendPacket h) h)

theorem State.Canonical.settleWant {line} (h : s.Canonical) : (s.settleWant line).Canonical := by
  unfold State.settleWant
  split
  · exact h
  · exact .ite (.cohAnswer (.with h)) h

theorem State.Canonical.lineArrives {line kept bs} (h : s.Canonical) : (s.lineArrives line kept bs).Canonical :=
  .ite (.settleWant (.with (.setLine h))) h

theorem State.Canonical.ackArrives {line} (h : s.Canonical) : (s.ackArrives line).Canonical :=
  .settleWant (.with h)

theorem State.Canonical.supply {line req requester} (h : s.Canonical) : (s.supply line req requester).Canonical :=
  .ite (.lineArrives h) (.with (.cohAnswer h))

theorem State.Canonical.confirm {line} (h : s.Canonical) : (s.confirm line).Canonical := by
  unfold State.confirm
  split
  · exact h
  · dsimp only
    split
    · exact .with h
    · exact .with h
    · exact .with h
    · exact .dropLine (.with h)

theorem State.Canonical.l2Give {k} (h : s.Canonical) : (s.l2Give k).Canonical := by
  unfold State.l2Give
  dsimp only
  split
  · exact .dropLine h
  · exact .ite h (.askSpine h)
  · exact .dropLine h

theorem State.Canonical.l2Discard {k} (h : s.Canonical) : (s.l2Discard k).Canonical := by
  unfold State.l2Discard
  dsimp only
  split
  · exact .ite (.askSpine (.dropLine h)) (.dropLine h)
  · exact .dropLine h

theorem State.Canonical.l2Rehome (h : s.Canonical) : (s.l2Rehome).Canonical :=
  .foldl (fun _ _ ht => .l2Give ht) (.with h)

theorem State.Canonical.l2Trim (h : s.Canonical) : (s.l2Trim).Canonical := by
  unfold State.l2Trim
  refine .ite h ?_
  split
  · exact h
  · exact .l2Give h

theorem State.Canonical.nack {line dev} (h : s.Canonical) : (s.nack line dev).Canonical :=
  .ite (.with h) (.fromSpine h)

theorem State.Canonical.recall {line} (h : s.Canonical) : (s.recall line).Canonical :=
  .foldl (fun _ _ ht => .ite (.ite (.giveUp ht) (.with (.giveUp ht))) (.ite ht (.fromSpine ht))) h

theorem State.Canonical.freeDir {line} (h : s.Canonical) : (s.freeDir line).Canonical :=
  .ite h (.with h)

theorem State.Canonical.evictDir {d} (h : s.Canonical) : (s.evictDir d).Canonical :=
  .freeDir (.recall (.with h))

theorem State.Canonical.dirRoom {line} (h : s.Canonical) : (s.dirRoom line).Canonical := by
  unfold State.dirRoom
  refine .ite h ?_
  split
  · exact h
  · exact .evictDir h

theorem State.Canonical.beginDir {d req dev} (h : s.Canonical) : (s.beginDir d req dev).Canonical := by
  unfold State.beginDir
  split
  · exact .ite (.freeDir (.recall (.with h))) (.with h)
  · extract_lets dest invs away alone t u v
    have hv : v.Canonical := .foldl (fun _ _ ht => .fromSpine ht) (.ite (.fromSpine (.with h)) (.with h))
    exact .ite (.fromSpine hv) hv

theorem State.Canonical.nextDir {line n} (h : s.Canonical) : (s.nextDir line n).Canonical := by
  induction n generalizing s with
  | zero => exact h
  | succ n ih =>
    unfold State.nextDir
    dsimp only
    split
    · exact h
    · exact .ite h (ih (.beginDir h))

theorem State.Canonical.dirRequest {line req dev} (h : s.Canonical) : (s.dirRequest line req dev).Canonical := by
  unfold State.dirRequest
  extract_lets t d
  have ht : t.Canonical := .dirRoom h
  exact .ite (.nack ht) (.ite (.ite (.ite (.foldl (fun _ _ hu => .fromSpine hu) (.with ht)) (.with ht)) (.nack ht)) (.beginDir ht))

theorem State.Canonical.evicted {line dev} (h : s.Canonical) : (s.evicted line dev).Canonical :=
  .ite (.nextDir (.freeDir (.with h))) h

theorem State.Canonical.dirDone {line dev kept} (h : s.Canonical) : (s.dirDone line dev kept).Canonical := by
  unfold State.dirDone
  dsimp only
  split
  · exact .ite h (.nextDir (.with (.ite (.ite h (.fromSpine h)) (.confirm (.ite h (.fromSpine h))))))
  · exact h

theorem Out.Canonical.execDirfwd {line req requester} (h : s.Canonical) : Out.Canonical (execDirfwd line req requester s) :=
  .next (.ite (.supply (.with h)) h)

theorem Out.Canonical.execDirresp {line acks} (h : s.Canonical) : Out.Canonical (execDirresp line acks s) :=
  .next (.ite (.settleWant (.with h)) h)

theorem Out.Canonical.execDirectoryInv {line requester} (h : s.Canonical) : Out.Canonical (execDirectoryInv line requester s) :=
  .next (.ite (.cohAnswer (.dropLine (.with h))) h)

theorem State.Canonical.resendDir {line w} (h : s.Canonical) : (s.resendDir line w).Canonical :=
  .ite (.with h) (.sendPacket (.with h))

theorem Out.Canonical.execDirectoryRetry {line} (h : s.Canonical) : Out.Canonical (execDirectoryRetry line s) := by
  unfold Machine.execDirectoryRetry
  refine .next ?_
  split
  · split
    · exact .ite (.resendDir h) h
    · exact h
  · exact h

theorem Out.Canonical.execDirectoryFailover {line} (h : s.Canonical) : Out.Canonical (execDirectoryFailover line s) := by
  unfold Machine.execDirectoryFailover
  refine .next ?_
  split
  · exact .resendDir (.with h)
  · exact h

theorem Out.Canonical.execCensus {line} (h : s.Canonical) : Out.Canonical (execCensus line s) :=
  .next (.cohAnswer h)

theorem State.Canonical.afterCensus {d} (h : s.Canonical) : (s.afterCensus d).Canonical := by
  unfold State.afterCensus
  refine .ite h ?_
  split
  · exact .ite (.with h) (.dropLine (.with h))
  · exact .with h

theorem Out.Canonical.execCensusRebuild {line answers} (h : s.Canonical) : Out.Canonical (execCensusRebuild line answers s) := by
  unfold Machine.execCensusRebuild
  extract_lets me old as d t u v w
  have hv : v.Canonical := .foldl (fun _ _ ht => .fromSpine ht) (.afterCensus (.with h))
  have hw : w.Canonical := by
    unfold w
    split
    · exact .ite hv (.fromSpine hv)
    · exact hv
  exact .next (.ite h (.nextDir hw))

/-! ### MemEvents -/

theorem Out.Canonical.execChannelGroupSelect {ch} (h : s.Canonical) : Out.Canonical (execChannelGroupSelect ch s) := by
  unfold Machine.execChannelGroupSelect
  refine .next ?_
  split
  · exact h
  · exact .ite h (.updChannel (.foldl (fun _ _ hu => .l2Fill hu) (.with h)))

theorem Out.Canonical.execTierFill {port block} (h : s.Canonical) : Out.Canonical (execTierFill port block s) :=
  .next (.fillBlock h)

theorem State.Canonical.pageFetched {f page} (h : s.Canonical) : (s.pageFetched f page).Canonical :=
  .slotAdd (.with h)

theorem State.Canonical.prefetchPage {f page l} (h : s.Canonical) : (s.prefetchPage f page l).Canonical := by
  unfold State.prefetchPage
  extract_lets pl t lines waits
  have ht : t.Canonical := .fetchTiers h
  refine .ite ht (.ite (.pageFetched ht) (.ite (.askLines ht) (.ite (.askBytes ht) (.pageFetched (.foldl (fun _ _ hu => ?_) ht)))))
  split
  · exact .ite hu (.l2Fill hu)
  · exact hu

theorem Out.Canonical.execPrefetchPageDone {id page} (h : s.Canonical) : Out.Canonical (execPrefetchPageDone id page s) := by
  unfold Machine.execPrefetchPageDone
  refine .next ?_
  split
  · exact h
  · refine .ite h (.ite (.pageFetched h) ?_)
    dsimp only
    split
    · rename_i e1
      exact .of_fst e1 (.translate h)
    · rename_i e1
      have ht : State.Canonical _ := .of_fst e1 (.translate h)
      exact .ite (.prefetchPage ht) (.pageFetched ht)
    · rename_i e1
      exact .pageFetched (.of_fst e1 (.translate h))

theorem State.Canonical.dropTlb {f} (h : s.Canonical) : (s.dropTlb f).Canonical := h

theorem Out.Canonical.execInv {asid range} (h : s.Canonical) : Out.Canonical (execInv asid range s) :=
  .next (.dropTlb h)

theorem Out.Canonical.execSyncAck (h : s.Canonical) : Out.Canonical (execSyncAck s) := by
  unfold Machine.execSyncAck
  refine .next ?_
  split
  · exact h
  · exact .ite (.send (.with h)) h

/-! ### Trace -/

theorem State.Canonical.armTrace {core} (h : s.Canonical) : (s.armTrace core).Canonical :=
  .ite h (.updCore h)

theorem State.Canonical.setTraceReg {core off x} (h : s.Canonical) : (s.setTraceReg core off x).Canonical :=
  .ite (.ite (.armTrace (.updCore h)) (.updCore h)) (.ite h (.ite (.updCore h) (.ite (.updCore h) (.ite (.updCore h) (.ite (.updCore h) h)))))

theorem State.Canonical.writeTrace {core r} (h : s.Canonical) : (s.writeTrace core r).Canonical := by
  unfold State.writeTrace
  dsimp only
  split
  · exact .updCore (.setPhysBytes h)
  · exact h

theorem State.Canonical.setTraceState {core x} (h : s.Canonical) : (s.setTraceState core x).Canonical := h

theorem State.Canonical.captureClock {core stop} (h : s.Canonical) : (s.captureClock core stop).Canonical := by
  unfold State.captureClock
  extract_lets t u v
  have ht : t.Canonical := .foldl (fun _ _ hv => .writeTrace hv) (.setTraceState h)
  have hu : u.Canonical := .ite (.setTraceState ht) ht
  split
  · exact .logDbg hu
  · exact hu

theorem State.Canonical.evalTrace {core} (h : s.Canonical) : (s.evalTrace core).Canonical := by
  unfold State.evalTrace
  extract_lets c t
  have ht : t.Canonical := by
    unfold t
    split
    · exact .ite (.captureClock h) h
    · exact .captureClock h
    · exact h
  exact .ite (.updCore ht) ht

theorem Out.Canonical.execTraceArm {core} (h : s.Canonical) : Out.Canonical (execTraceArm core s) :=
  .next (.ite (.armTrace h) h)

theorem Out.Canonical.execTraceTrigger {core} (h : s.Canonical) : Out.Canonical (execTraceTrigger core s) :=
  .next (.ite (.evalTrace h) h)

theorem State.Canonical.putSampler {core n k} (h : s.Canonical) : (s.putSampler core n k).Canonical := h

theorem Out.Canonical.execStitchSampleTag {core sampler} (h : s.Canonical) : Out.Canonical (execStitchSampleTag core sampler s) :=
  .next (.ite (.putSampler h) h)

theorem State.Canonical.noteTrace {n} (h : s.Canonical) : (s.noteTrace n).Canonical := h

theorem State.Canonical.sampleOf {n seq} (h : s.Canonical) : (s.sampleOf n seq).1.Canonical := h

theorem State.Canonical.completeSample {core n x} (h : s.Canonical) : (s.completeSample core n x).Canonical := h

theorem State.Canonical.noteSample {n since dropped} (h : s.Canonical) : (s.noteSample n since dropped).Canonical := by
  unfold State.noteSample
  refine .ite h (.ite (.putSampler h) (.ite (.putSampler h) ?_))
  split
  · rename_i e
    have ht : State.Canonical _ := .of_fst e (.sampleOf h)
    split
    · exact .putSampler ht
    · exact .completeSample ht

theorem State.Canonical.closeSamples {core} (h : s.Canonical) : (s.closeSamples core).Canonical := by
  unfold State.closeSamples
  refine .foldl (fun _ _ ht => ?_) h
  split
  · exact ht
  · exact .ite (.putSampler ht) (.ite ht (.completeSample ht))

/-! ### Host -/

theorem State.Canonical.wake (h : s.Canonical) : (s.wake).Canonical := by
  unfold State.wake
  split
  · exact .with h
  · exact h

theorem State.Canonical.hostPush {node off bs} (h : s.Canonical) : (s.hostPush node off bs).Canonical := by
  unfold State.hostPush
  refine .ite h (.ite (.send (.with (.launchError h))) ?_)
  split
  · rename_i e
    exact .send (.with (.of_some e (State.Canonical.pushRecord h)))
  · exact .send (.with h)

theorem Out.Canonical.execHostRecordPush {node off bs} (h : s.Canonical) : Out.Canonical (execHostRecordPush node off bs s) :=
  .next (.hostPush (.wake h))

theorem Out.Canonical.execRegisterWrite {addr val} (h : s.Canonical) : Out.Canonical (execRegisterWrite addr val s) :=
  .next (.ite (.foldl (fun _ _ ht => .setRegByte ht) (.wake h)) (.ite (.setTraceReg h) h))

theorem State.Canonical.memOp {ctx pa op} (h : s.Canonical) : (s.memOp ctx pa op).1.Canonical := by
  unfold State.memOp
  extract_lets owned
  have ho : (owned s).Canonical := by
    refine .foldl (fun _ _ ht => ?_) h
    exact .l1Own (.ownLine ht)
  split
  · exact h
  · exact .setPhysBytes ho
  · dsimp only
    exact .globalAdd ho

theorem State.Canonical.accessError {x1} (h : s.Canonical) : (s.accessError x1).Canonical :=
  .send (.ite h (.logDev h))

theorem State.Canonical.hostMem {k} (h : s.Canonical) : (s.hostMem k).1.Canonical := by
  unfold State.hostMem
  split
  · exact .accessError h
  · exact .accessError (.noteMac h)
  · extract_lets t lines
    have ht : t.Canonical := .fetchTier (.fetchTier h)
    refine .ite_fst ht (.ite_fst (.askLines ht) ?_)
    exact .send (.memOp ht)

theorem State.Canonical.hostReg {ctx pa op} (h : s.Canonical) : (s.hostReg ctx pa op).Canonical := by
  unfold State.hostReg
  split
  · exact .send h
  · exact .ite (.hostPush h) (.send (.foldl (fun _ _ hu => .setRegByte hu) h))
  · exact .accessError h

theorem State.Canonical.serveHost {n} (h : s.Canonical) : (State.serveHost n s).Canonical := by
  induction n generalizing s with
  | zero => exact h
  | succ n ih =>
    unfold State.serveHost
    split
    · exact h
    · dsimp only
      split
      · exact ih (.hostReg (.with h))
      · split
        · rename_i e
          exact ih (.of_fst e (.hostMem (.with h)))
        · rename_i e
          exact .with (.of_fst e (.hostMem (.with h)))

theorem State.Canonical.serveHosts (h : s.Canonical) : (s.serveHosts).Canonical :=
  .serveHost h

theorem State.Canonical.hostArrives {x1} (h : s.Canonical) : (s.hostArrives x1).Canonical :=
  .serveHosts (.with (.wake h))

/-! ### Mgmt -/

theorem State.Canonical.reply {tag o} (h : s.Canonical) : (s.reply tag o).Canonical :=
  .ite (.with h) (.send h)

theorem State.Canonical.complete {tag status detail r0 bs} (h : s.Canonical) : (s.complete tag status detail r0 bs).Canonical :=
  .ite (.reply h) h

theorem State.Canonical.accepted {tag} (h : s.Canonical) : (s.accepted tag).Canonical :=
  .complete h

theorem State.Canonical.refuse {tag detail} (h : s.Canonical) : (s.refuse tag detail).Canonical :=
  .complete h

theorem State.Canonical.invalid {tag} (h : s.Canonical) : (s.invalid tag).Canonical :=
  .complete h

theorem Out.Canonical.asMgmt {tag ctx} {k : State → State} (h : s.Canonical) (hk : ∀ t, t.Canonical → (k t).Canonical) :
    Out.Canonical (asMgmt s tag ctx k) := by
  have hw : State.Canonical (if ctx = noCtx then s.wake else { s.wake with cmds := s.wake.cmds ++ [⟨ctx, tag, none⟩] }) :=
    .ite (.wake h) (.with (.wake h))
  exact .next (.ite (hk _ hw) (.refuse hw))

theorem State.Canonical.bindCore {ctx rolemap core} (h : s.Canonical) : (s.bindCore ctx rolemap core).Canonical := h

theorem State.Canonical.makeCtx {tag ctx d} (h : s.Canonical) : (s.makeCtx tag ctx d).Canonical :=
  .accepted (.audit (.foldl (fun _ _ ht => .bindCore ht) (.with (.ite (.dropTlb h) h))))

theorem State.Canonical.createCtx {tag ctx d} (h : s.Canonical) : (s.createCtx tag ctx d).Canonical :=
  .ite (.invalid h) (.ite (.refuse h) (.ite (.refuse h) (.ite (.refuse h) (.ite (.with h) (.makeCtx h)))))

theorem Out.Canonical.execCtxCreate {tag ctx desc} (h : s.Canonical) : Out.Canonical (execCtxCreate tag ctx desc s) :=
  .asMgmt h (fun _ ht => .createCtx ht)

theorem State.Canonical.assign {mark pa count} (h : s.Canonical) : (s.assign mark pa count).Canonical :=
  memoriesOk_assign _ _ _ h

theorem Out.Canonical.execFrameAssign {tag ctx pa count} (h : s.Canonical) : Out.Canonical (execFrameAssign tag ctx pa count s) := by
  unfold Machine.execFrameAssign
  refine .asMgmt h (fun _ ht => .ite (.invalid ht) (.ite (.refuse ht) (.ite (.accepted (.assign ht)) ?_)))
  split
  · exact .invalid ht
  · exact .ite (.refuse ht) (.accepted (.assign ht))

theorem State.Canonical.named {tag ctx} {k : Ctx → State} (hk : ∀ c, (k c).Canonical) (h : s.Canonical) : (s.named tag ctx k).Canonical := by
  unfold State.named
  split
  · exact .invalid h
  · exact .ite (.refuse h) (hk _)

theorem Out.Canonical.execNodeReg {tag ctx num desc} (h : s.Canonical) : Out.Canonical (execNodeReg tag ctx num desc s) := by
  unfold Machine.execNodeReg
  refine .asMgmt h (fun _ ht => .ite (.invalid ht) (.named (fun _ => .ite (.refuse ht) ?_) ht))
  split
  · exact .accepted (.with ht)
  · exact .ite (.refuse ht) (.with ht)

theorem Out.Canonical.execNodeUnreg {tag ctx num} (h : s.Canonical) : Out.Canonical (execNodeUnreg tag ctx num s) := by
  unfold Machine.execNodeUnreg
  refine .asMgmt h (fun _ ht => .named (fun _ => ?_) ht)
  split
  · exact .invalid ht
  · exact .ite (.refuse ht) (.with ht)

theorem Out.Canonical.execNodeDrained {num} (h : s.Canonical) : Out.Canonical (execNodeDrained num s) := by
  unfold Machine.execNodeDrained
  refine .next ?_
  split
  · exact h
  · split
    · exact h
    · refine .ite h ?_
      split <;> exact .accepted (.with h)

/-! ### Context -/

theorem State.Canonical.beginSave {ctx} (h : s.Canonical) : (s.beginSave ctx).Canonical := h

theorem Out.Canonical.execPreempt {tag ctx} (h : s.Canonical) : Out.Canonical (execPreempt tag ctx s) :=
  .asMgmt h (fun _ ht => .named (fun _ => .ite (.accepted (.beginSave ht)) (.refuse ht)) ht)

theorem State.Canonical.stopStrand {sid} (h : s.Canonical) : (s.stopStrand sid).Canonical := h

theorem Out.Canonical.execPreemptForceStop {strand} (h : s.Canonical) : Out.Canonical (execPreemptForceStop strand s) := by
  unfold Machine.execPreemptForceStop
  refine .next ?_
  split
  · split
    · exact .ite h (.stopStrand h)
    · exact h
  · exact h

theorem State.Canonical.stopSaving (h : s.Canonical) : (s.stopSaving).Canonical := by
  unfold State.stopSaving
  refine .foldl (fun _ _ ht => ?_) h
  split
  · exact ht
  · exact .ite ht (.stopStrand ht)

theorem State.Canonical.forgetEntries {g} (h : s.Canonical) : (s.forgetEntries g).Canonical := h

theorem State.Canonical.storeWg {w g} (h : s.Canonical) : (s.storeWg w g).Canonical :=
  .updCtx (.freeWg (.with (.foldl (fun _ _ ht => .updCore ht) (.forgetEntries h))))

theorem State.Canonical.storeWatches {ctx core} (h : s.Canonical) : (s.storeWatches ctx core).Canonical := h

theorem State.Canonical.writeSave {ctx} (h : s.Canonical) : (s.writeSave ctx).Canonical := by
  unfold State.writeSave
  split
  · exact h
  · exact .setPhysBytes h

theorem State.Canonical.checkSave {ctx} (h : s.Canonical) : (s.checkSave ctx).1.Canonical := by
  unfold State.checkSave
  split
  · exact h
  · exact .ite_fst (.writeSave h) (.logError (.foldl (fun _ _ hu => .failSave hu) h))

theorem State.Canonical.storeCore {ctx core} (h : s.Canonical) : (s.storeCore ctx core).Canonical :=
  .updCore (.updCtx (.storeWatches (.phaseRelease h)))

theorem Out.Canonical.execSaveComplete {ctx} (h : s.Canonical) : Out.Canonical (execSaveComplete ctx s) := by
  unfold Machine.execSaveComplete
  refine .next ?_
  split
  · exact h
  · exact .ite h (.notify (.checkSave (.updCtx (.foldl (fun _ _ ht => .storeCore ht) (.foldl (fun _ _ ht => .storeWg ht) h)))))

theorem State.Canonical.storeQuiesced (h : s.Canonical) : (s.storeQuiesced).Canonical := by
  unfold State.storeQuiesced
  refine .foldl (fun _ _ ht => ?_) h
  split
  · refine .ite ht ?_
    dsimp only
    split
    · exact .checkSave (.updCtx (.storeWatches (.foldl (fun _ _ ht => .storeWg ht) (.phaseRelease ht))))
    · exact .foldl (fun _ _ ht => .storeWg ht) (.phaseRelease ht)
  · exact ht

theorem State.Canonical.resumeOn {tag ctx c cores} (h : s.Canonical) : (s.resumeOn tag ctx c cores).Canonical := by
  unfold State.resumeOn
  refine .with (.updCtx (.foldl (fun _ _ ht => ?_) (.updCtx h)))
  split
  · exact .updCore (.rewatch (.bindCore ht))
  · exact .rewatch (.bindCore ht)

theorem Out.Canonical.execResume {tag ctx cores} (h : s.Canonical) : Out.Canonical (execResume tag ctx cores s) :=
  .asMgmt h (fun _ ht => .named (fun _ => .ite (.invalid ht) (.ite (.refuse ht) (.ite (.refuse ht) (.resumeOn ht)))) ht)

theorem State.Canonical.beginRelease {tag ctx} (h : s.Canonical) : (s.beginRelease tag ctx).Canonical := by
  unfold State.beginRelease
  split
  · exact h
  · exact .foldl (fun _ _ hu => .accepted hu) (.updCtx (.with (.foldl (fun _ _ hv => .endSaved hv) (.foldl (fun _ _ ht => .terminate ht) h))))

theorem State.Canonical.releaseCtx {tag ctx c} (h : s.Canonical) : (s.releaseCtx tag ctx c).Canonical := by
  unfold State.releaseCtx
  split
  · exact .with h
  · exact .with h
  · exact .beginRelease h

theorem Out.Canonical.execCtxRelease {tag ctx} (h : s.Canonical) : Out.Canonical (execCtxRelease tag ctx s) :=
  .asMgmt h (fun _ ht => .named (fun _ => .ite (.refuse ht) (.releaseCtx ht)) ht)

theorem State.Canonical.finishRelease {tag ctx c} (h : s.Canonical) : (s.finishRelease tag ctx c).Canonical := by
  unfold State.finishRelease
  extract_lets held t u v mine w lo hi x
  have hw : w.Canonical := .foldl (fun _ _ ht => .l2Discard ht) (.with (.dropTlb (.with (.foldl (fun _ _ ht => .updCore ht) h))))
  have hx : x.Canonical := .of_keep (f := fun a => decide (a < lo) || decide (hi ≤ a)) hw rfl rfl
  exact .accepted (.audit hx)

theorem Out.Canonical.execCtxReleaseDone {ctx} (h : s.Canonical) : Out.Canonical (execCtxReleaseDone ctx s) := by
  unfold Machine.execCtxReleaseDone
  refine .next ?_
  split
  · exact .ite (.finishRelease h) h
  · exact h

/-! ### Security -/

theorem Out.Canonical.execAttest {tag nonce buf len} (h : s.Canonical) : Out.Canonical (execAttest tag nonce buf len s) :=
  .next (.ite (.invalid (.wake h)) (.ite (.refuse (.wake h)) (.complete (.with (.setPhysBytes (.wake h))))))

theorem State.Canonical.setLifecycle {tag dest} (h : s.Canonical) : (s.setLifecycle tag dest).Canonical :=
  .ite (.with h) (.accepted (.with (.audit h)))

theorem Out.Canonical.execLifecycle {tag addr len} (h : s.Canonical) : Out.Canonical (execLifecycle tag addr len s) := by
  unfold Machine.execLifecycle
  refine .asMgmt h (fun _ ht => .ite (.invalid ht) ?_)
  split
  · exact .refuse ht
  · exact .ite (.setLifecycle ht) (.refuse ht)

theorem Out.Canonical.execUnlockNonce {tag} (h : s.Canonical) : Out.Canonical (execUnlockNonce tag s) :=
  .asMgmt h (fun _ ht => .complete (.with (.with ht)))

theorem State.Canonical.releaseAll (h : s.Canonical) : (s.releaseAll).Canonical := by
  unfold State.releaseAll
  refine .foldl (fun _ _ ht => ?_) h
  split
  · exact .ite ht (.releaseCtx ht)
  · exact ht

theorem Out.Canonical.execUnlock {tag addr len} (h : s.Canonical) : Out.Canonical (execUnlock tag addr len s) :=
  .asMgmt h (fun _ ht => .ite (.invalid ht) (.ite (.refuse ht) (.ite (.refuse ht) (.ite (.refuse (.with ht)) (.releaseAll (.with (.with ht)))))))

theorem State.Canonical.finishUnlock (h : s.Canonical) : (s.finishUnlock).Canonical := by
  unfold State.finishUnlock
  split
  · exact h
  · exact .ite h (.accepted (.with (.audit (.with h))))

theorem State.Canonical.retryWaiting {w} (h : s.Canonical) : (s.retryWaiting w).Canonical := by
  unfold State.retryWaiting
  split
  · split
    · exact .accepted (.with h)
    · split
      · exact h
      · exact h
      · exact .beginRelease (.with h)
  · exact h
  · split
    · exact .with h
    · exact .ite (.accepted (.updCtx (.with h))) h
  · exact .ite (.createCtx (.with h)) h
  · exact .ite (.setLifecycle (.with h)) h

theorem State.Canonical.endResumes (h : s.Canonical) : (s.endResumes).Canonical :=
  .foldl (fun _ _ ht => .ite (.updCtx ht) ht) h

theorem State.Canonical.retryAll (h : s.Canonical) : (s.retryAll).Canonical :=
  .finishUnlock (.endResumes (.foldl (fun _ _ ht => .retryWaiting ht) h))

theorem Out.Canonical.execAuditTypedAppend {payload} (h : s.Canonical) : Out.Canonical (execAuditTypedAppend payload s) :=
  .next (.ite (.audit h) h)

theorem Out.Canonical.execMeasExtend {n d} (h : s.Canonical) : Out.Canonical (execMeasExtend n d s) :=
  .next (.ite (.with h) h)

/-! ### Errors -/

theorem State.Canonical.updDom {d g} (h : s.Canonical) : (s.updDom d g).Canonical := h

theorem State.Canonical.moveSlice {n} (h : s.Canonical) : (s.moveSlice n).Canonical :=
  .l2Rehome (.updDom (.with h))

theorem State.Canonical.returnSlice {n} (h : s.Canonical) : (s.returnSlice n).Canonical :=
  .l2Rehome (.updDom (.with h))

theorem State.Canonical.moveCopies {u} (h : s.Canonical) : (s.moveCopies u).Canonical := h

theorem State.Canonical.fenceGrids {n} (h : s.Canonical) : (s.fenceGrids n).Canonical :=
  .foldl (fun _ _ ht => .ite (.launchError (.cancelMembers (.with ht))) ht) h

theorem State.Canonical.quiesce {d} (h : s.Canonical) : (s.quiesce d).Canonical := by
  unfold State.quiesce
  split
  · exact .moveSlice (.notify (.logDev (.updDom h)))
  · exact .moveCopies (.notify (.logDev (.updDom h)))
  · exact .fenceGrids (.notify (.logDev (.updDom h)))
  · exact .notify (.logDev (.updDom h))

theorem Out.Canonical.execCorrectedError {dom} (h : s.Canonical) : Out.Canonical (execCorrectedError dom s) :=
  .next (.ite h (.ite (.quiesce (.updDom h)) (.updDom h)))

theorem State.Canonical.failDomain {d w g pc} (h : s.Canonical) : (s.failDomain d w g pc).Canonical :=
  .terminate (.logError h)

theorem State.Canonical.loseSlice {n} (h : s.Canonical) : (s.loseSlice n).Canonical := by
  unfold State.loseSlice
  refine .foldl (fun _ _ ht => ?_) (.with h)
  split
  · exact .ite ht (.with ht)
  · exact .ite (.with (.with ht)) ht

theorem State.Canonical.hitDomain {d} (h : s.Canonical) : (s.hitDomain d).Canonical := by
  unfold State.hitDomain
  split
  · exact .foldl (fun _ _ hu => .failDomain hu) h
  · exact .loseSlice h
  · refine .foldl (fun _ _ hu => ?_) h
    split
    · exact .failDomain hu
    · exact hu
  · exact .updDom h

theorem State.Canonical.uncorrected {dom} (h : s.Canonical) : (s.uncorrected dom).Canonical :=
  .ite h (.ite (.hitDomain (.updDom h)) (.quiesce (.hitDomain (.updDom h))))

theorem Out.Canonical.execUncorrectedError {dom} (h : s.Canonical) : Out.Canonical (execUncorrectedError dom s) :=
  .next (.uncorrected h)

theorem State.Canonical.fenceCore {n} (h : s.Canonical) : (s.fenceCore n).Canonical :=
  .fenceGrids (.updCore h)

theorem Out.Canonical.execSelfTestDone {dom pass} (h : s.Canonical) : Out.Canonical (execSelfTestDone dom pass s) := by
  unfold Machine.execSelfTestDone
  refine .next (.ite h (.ite ?_ (.ite h ?_)))
  · split
    · exact .returnSlice (.updDom h)
    · exact .activate (.updDom h)
    · exact .updDom h
  · split
    · exact .fenceCore (.audit (.updDom h))
    · exact .audit (.updDom h)

theorem State.Canonical.rinseDone (h : s.Canonical) : (s.rinseDone).Canonical := h

theorem Out.Canonical.execRinseStep {ch} (h : s.Canonical) : Out.Canonical (execRinseStep ch s) := by
  unfold Machine.execRinseStep
  refine .next ?_
  extract_lets c last bad t pa u
  have hu : u.Canonical := .ite (.uncorrected (.noteMac (.updChannel h))) (.updChannel h)
  exact .ite h (.ite hu (.ite (.rinseDone hu) h))

theorem Out.Canonical.execRinsePassStart (h : s.Canonical) : Out.Canonical (execRinsePassStart s) :=
  .next (.ite h (.with (.ite (.rinseDone h) h)))

theorem State.Canonical.refresh {ch} (h : s.Canonical) : (s.refresh ch).Canonical :=
  .ite (.updChannel h) (.ite (.updChannel h) h)

theorem Out.Canonical.execRefresh {ch} (h : s.Canonical) : Out.Canonical (execRefresh ch s) :=
  .next (.ite h (.refresh h))

theorem State.Canonical.refreshAll (h : s.Canonical) : (s.refreshAll).Canonical :=
  .ite (.foldl (fun _ _ ht => .ite (.refresh ht) ht) h) h

theorem Out.Canonical.execRefreshTakeover {stack} (h : s.Canonical) : Out.Canonical (execRefreshTakeover stack s) := by
  unfold Machine.execRefreshTakeover
  refine .next ?_
  split
  · exact h
  · exact .ite h (.notify (.logDev (.audit (.foldl (fun _ _ hu => .updChannel hu) (.with h)))))

/-! ### Debug -/

theorem Out.Canonical.execPerfRead {tag ctx core} (h : s.Canonical) : Out.Canonical (execPerfRead tag ctx core s) :=
  .asMgmt h (fun _ ht => .named (fun _ => .ite (.complete ht) (.invalid ht)) ht)

theorem State.Canonical.copyOut {tag buf len es} (h : s.Canonical) : (s.copyOut tag buf len es).Canonical :=
  .complete (.setPhysBytes h)

theorem Out.Canonical.execLogRead {tag ctx log first buf len} (h : s.Canonical) : Out.Canonical (execLogRead tag ctx log first buf len s) :=
  .asMgmt h (fun _ ht => .named (fun _ => .ite (.invalid ht) (.ite (.copyOut ht) (.copyOut ht))) ht)

theorem Out.Canonical.execEvlogRead {tag ctx buf len} (h : s.Canonical) : Out.Canonical (execEvlogRead tag ctx buf len s) :=
  .asMgmt h (fun _ ht => .ite (.invalid ht) (.copyOut ht))

theorem Out.Canonical.execResync {tag buf len} (h : s.Canonical) : Out.Canonical (execResync tag buf len s) :=
  .asMgmt h (fun _ ht => .ite (.invalid ht) (.complete (.setPhysBytes ht)))

theorem Out.Canonical.execStop {tag node set} (h : s.Canonical) : Out.Canonical (execStop tag node set s) :=
  .asMgmt h (fun _ ht => .ite (.refuse ht) (.ite (.invalid ht) (.accepted (.with ht))))

theorem Out.Canonical.execContinueTask {tag task} (h : s.Canonical) : Out.Canonical (execContinueTask tag task s) :=
  .asMgmt h (fun _ ht => .ite (.invalid ht) (.accepted (.with ht)))

/-! ### Power -/

theorem State.Canonical.atStage {n} (h : s.Canonical) : (s.atStage n).Canonical := h

theorem State.Canonical.bootFails {chk} (h : s.Canonical) : (s.bootFails chk).Canonical := h

theorem State.Canonical.bootFuses (h : s.Canonical) : (s.bootFuses).Canonical := h

theorem State.Canonical.assignFabric (h : s.Canonical) : (s.assignFabric).Canonical := h

theorem State.Canonical.bootFirmware {k} (h : s.Canonical) : (s.bootFirmware k).Canonical :=
  .ite (.bootFails h) (.ite (.assignFabric (.with h)) (.with h))

theorem State.Canonical.bringUp (h : s.Canonical) : (s.bringUp).Canonical := by
  unfold State.bringUp
  refine .ite h ?_
  split
  · exact .bootFuses (.atStage h)
  · exact .atStage h
  · exact .ite (.bootFirmware h) (.atStage h)
  · exact .ite (.atStage h) (.bootFails h)
  · exact .with (.atStage h)
  · exact .ite (.with (.atStage (.with h))) (.bootFails h)
  · exact h

theorem State.Canonical.restart {p} (_ : s.Canonical) : (s.restart p).Canonical :=
  .with State.reset_memoriesOk

theorem Out.Canonical.execIdleEnter (h : s.Canonical) : Out.Canonical (execIdleEnter s) := by
  unfold Machine.execIdleEnter
  refine .next ?_
  split
  · exact .ite (.with h) h
  · exact h

theorem Out.Canonical.execThermalTrip (h : s.Canonical) : Out.Canonical (execThermalTrip s) := by
  unfold Machine.execThermalTrip
  refine .next ?_
  split
  · exact .with h
  · exact .with h
  · exact h

theorem Out.Canonical.execThermalRecover (h : s.Canonical) : Out.Canonical (execThermalRecover s) := by
  unfold Machine.execThermalRecover
  refine .next ?_
  split
  · exact .ite h (.with h)
  · exact h

theorem Out.Canonical.execThermalShutdown (h : s.Canonical) : Out.Canonical (execThermalShutdown s) := by
  unfold Machine.execThermalShutdown
  refine .next ?_
  split
  · refine .ite h (.with (.foldl (fun _ _ hu => ?_) h))
    split
    · exact .ite (.beginSave hu) hu
    · exact hu
  · exact h

theorem State.Canonical.stopClocks (h : s.Canonical) : (s.stopClocks).Canonical :=
  .ite (.with h) h

/-! ### Fetch -/

theorem State.Canonical.icFill {core line} (h : s.Canonical) : (s.icFill core line).Canonical := h

theorem State.Canonical.fetchLocal {m attr pa} (h : s.Canonical) : (s.fetchLocal m attr pa).1.Canonical :=
  .ite_fst (.fetchTier h) (.ite_fst (.fetchTier h) (.ite_fst (.fetchTier h)
    (.ite_fst (.askLine (.fetchTier h)) (.icFill (.cacheByte (.fetchTier h))))))

theorem State.Canonical.fetchAt {m va l} (h : s.Canonical) : (s.fetchAt m va l).1.Canonical := by
  unfold State.fetchAt
  refine .ite_fst h (.ite_fst (.askLines h) ?_)
  split
  · exact .icFill h
  · exact .fetchLocal h
  · exact h

theorem State.Canonical.fetchWord {m va} (h : s.Canonical) : (s.fetchWord m va).1.Canonical := by
  unfold State.fetchWord
  refine .ite_fst (.unfail h) (.ite_fst h ?_)
  split
  · rename_i e
    exact .of_fst e (.accessPage h)
  · rename_i e
    exact .request (.of_fst e (.accessPage h))
  · rename_i e
    exact .of_fst e (.accessPage h)
  · rename_i e
    have ht : State.Canonical _ := .of_fst e (.accessPage h)
    split
    · exact .ite_fst ht (.fetchAt ht)
    · exact .fetchAt ht

theorem State.Canonical.fetchFrom {m n ws} (h : s.Canonical) : (s.fetchFrom m n ws).1.Canonical := by
  induction n generalizing s ws with
  | zero => exact h
  | succ n ih =>
    unfold State.fetchFrom
    refine .ite_fst ?_ h
    split
    · rename_i e
      exact ih (.of_fst e (.fetchWord h))
    · rename_i e
      exact .of_fst e (.fetchWord h)
    · rename_i e
      exact .of_fst e (.fetchWord h)

theorem State.Canonical.fetch {m} (h : s.Canonical) : (s.fetch m).1.Canonical :=
  .fetchFrom h

-- NOSTATE Sys2Proof.Machine.mgmtCommand

/-! ### Message -/

theorem State.Canonical.badMessage {tag ctx} (h : s.Canonical) : (s.badMessage tag ctx).Canonical :=
  .invalid (.ite (.wake h) (.with (.wake h)))

theorem Out.Canonical.mgmtCommand {tag opc ctx p} : ∀ f ∈ mgmtCommand tag opc ctx p, ∀ t, t.Canonical → Out.Canonical (f t) := by
  unfold Machine.mgmtCommand
  extract_lets at_ words row
  have hrow {len : Nat} {ok : Bool} {k : State → Out} (hk : ∀ t, t.Canonical → Out.Canonical (k t)) :
      ∀ f ∈ row len ok k, ∀ t, t.Canonical → Out.Canonical (f t) := by
    intro f hf
    unfold row at hf
    split at hf
    · cases hf
      exact hk
    · cases hf
  split
  · exact hrow (fun _ => .execNodeReg)
  · exact hrow (fun _ => .execNodeUnreg)
  · exact hrow (fun _ => .execCtxCreate)
  · exact hrow (fun _ => .execCtxRelease)
  · exact hrow (fun _ => .execFrameAssign)
  · exact hrow (fun _ => .execPreempt)
  · exact hrow (fun _ => .execResume)
  · exact hrow (fun _ => .execResync)
  · exact hrow (fun _ => .execAttest)
  · exact hrow (fun _ => .execPerfRead)
  · exact hrow (fun _ => .execLogRead)
  · exact hrow (fun _ => .execLifecycle)
  · exact hrow (fun _ => .execUnlockNonce)
  · exact hrow (fun _ => .execUnlock)
  · exact hrow (fun _ => .execStop)
  · exact hrow (fun _ => .execContinueTask)
  · exact hrow (fun _ => .execEvlogRead)
  · rintro _ ⟨⟩

theorem Out.Canonical.message {bs} (h : s.Canonical) : Out.Canonical (s.message bs) := by
  unfold State.message
  extract_lets at_
  refine .ite (.next h) ?_
  split
  · rename_i f e
    split at e
    · exact Out.Canonical.mgmtCommand f e s h
    · cases e
  · exact .next (.badMessage h)

/-! ### Atomic -/

theorem Out.Canonical.runOrdered {a bf size regs xi xv xc} (h : s.Canonical) : Out.Canonical (runOrdered a bf size regs xi xv xc s) :=
  .asStrand (fun _ => .ite (.raise h) (.ite h (.ite (.ite (.trap h) (.ite (.trap h) (.ite h (.advance h))))
    (.recAccess (fun _ ht => .advance ht) h))))

/-! ### Bulk -/

theorem Out.Canonical.asQueue {len regs qs push ch} {k : Me → State} (h : s.Canonical) (hk : ∀ m, (k m).Canonical) :
    Out.Canonical (asQueue len regs qs push ch s k) :=
  .asAccess h (fun m => .ite (.raise h) (.ite (.raise h) (hk m)))

theorem State.Canonical.reserve {m q ch words tag pend poison} (h : s.Canonical) : (s.reserve m q ch words tag pend poison).Canonical := by
  unfold State.reserve
  split
  · exact h
  · exact .sweepQueue (.putQueue (.with h))

theorem State.Canonical.reservePoison {m q ch p cause va mask} (h : s.Canonical) : (s.reservePoison m q ch p cause va mask).Canonical :=
  .reserve h

theorem Out.Canonical.runLdq {len q idx bf mk sx ch} (h : s.Canonical) : Out.Canonical (runLdq len q idx bf mk sx ch s) := by
  unfold Machine.runLdq
  refine .asQueue h (fun _ => .ite h (.ite (.block h) (.ite (.done (.foldl (fun _ _ ht => .reservePoison ht) h))
    (.ite (.done (.foldl (fun _ _ ht => .reservePoison ht) h)) ?_))))
  split
  · exact .trap h
  · exact .done (.foldl (fun _ _ hu => .reserve hu) h)

theorem Iter.Canonical.bulk {total n} {one : State → Me → Nat → Iter} (ho : ∀ t m j, t.Canonical → (one t m j).Canonical) (h : s.Canonical) :
    (bulk total one n s).Canonical := by
  induction n generalizing s with
  | zero => exact .more h
  | succ n ih =>
    unfold Machine.bulk
    split
    · exact .stop h
    · split
      · rename_i e
        exact .stop (Iter.Canonical.of_eq e (ho _ _ _ h))
      · rename_i e
        exact ih (Iter.Canonical.of_eq e (ho _ _ _ h))

theorem State.Canonical.runBulk {m len total} {one : State → Me → Nat → Iter} (ho : ∀ t m j, t.Canonical → (one t m j).Canonical)
    (h : s.Canonical) : (s.runBulk m len total one).Canonical := by
  unfold State.runBulk
  split
  · rename_i e
    exact Iter.Canonical.of_eq e (.bulk ho h)
  · rename_i e
    exact .done (Iter.Canonical.of_eq e (.bulk ho h))

theorem Iter.Canonical.blockBulk {m left w} (h : s.Canonical) : (s.blockBulk m left w).Canonical :=
  .stop (.block (.setRc h))

theorem Iter.Canonical.bulkEntry {m q ch left p fs} (h : s.Canonical) : (s.bulkEntry m q ch left p fs).Canonical := by
  unfold State.bulkEntry
  split
  · exact .stop (.trap (.setRc h))
  · exact .more (.reserve h)

theorem Iter.Canonical.ldqbEntry {o total start m e} (h : s.Canonical) : (ldqbEntry o total start s m e).Canonical :=
  .ite (.stop (.setRc h)) (.ite (.blockBulk h) (.ite (.more (.reservePoison h)) (.ite (.more (.reservePoison h)) (.bulkEntry h))))

theorem Out.Canonical.execLdqb {p o} (h : s.Canonical) : Out.Canonical (execLdqb p o s) :=
  .asQueue h (fun _ => .ite (.raise h) (.runBulk (fun _ _ _ ht => .ldqbEntry ht) h))

theorem Iter.Canonical.glistEntry {o total pos m j} (h : s.Canonical) : (glistEntry o total pos s m j).Canonical :=
  .ite (.stop (.setRc h)) (.ite (.blockBulk h) (.ite (.more (.reservePoison h))
    (.ite (.more (.reservePoison h)) (.ite (.more (.reservePoison h)) (.bulkEntry h)))))

theorem Out.Canonical.execGatherqList {p o} (h : s.Canonical) : Out.Canonical (execGatherqList p o s) :=
  .asQueue h (fun _ => .ite (.raise h) (.runBulk (fun _ _ _ ht => .glistEntry ht) h))

theorem State.Canonical.sharedWords {m off} (h : s.Canonical) : (s.sharedWords m off).1.Canonical :=
  .landingRead h

theorem Iter.Canonical.ldsqEntry {q ch mk total off m j} (h : s.Canonical) : (ldsqEntry q ch mk total off s m j).Canonical :=
  .ite (.blockBulk h) (.ite (.stop (.setRc h)) (.more (.reserve (.sharedWords h))))

theorem Out.Canonical.execLdsq {p q off mk n ch} (h : s.Canonical) : Out.Canonical (execLdsq p q off mk n ch s) := by
  unfold Machine.execLdsq
  refine .asQueue h (fun _ => ?_)
  dsimp only
  split
  · exact .trap h
  · exact .runBulk (fun _ _ _ ht => .ldsqEntry ht) h

theorem Out.Canonical.runStq {len q idx regs bf} (h : s.Canonical) : Out.Canonical (runStq len q idx regs bf s) := by
  unfold Machine.runStq
  refine .asQueue h (fun _ => ?_)
  extract_lets n
  split
  · exact h
  · split
    · exact .block h
    · exact .farFault h
    · exact .ite (.done (.setQt (.popTake h))) (.recAccess (fun _ ht => .done (.setQt (.popTake ht))) h)

theorem Iter.Canonical.stsqEntry {q len total off m j} (h : s.Canonical) : (stsqEntry q len total off s m j).Canonical := by
  unfold Machine.stsqEntry
  split
  · exact .stop h
  · split
    · exact .blockBulk h
    · exact .stop (.farFault (.setRc h))
    · exact .ite (.stop (.done (.setQt (.popTake h)))) (.ite (.stop (.setRc h)) (.more (.listAcc (.setQt (.popTake h)))))

theorem Out.Canonical.execStsq {p q off n} (h : s.Canonical) : Out.Canonical (execStsq p q off n s) := by
  unfold Machine.execStsq
  refine .asQueue h (fun _ => ?_)
  dsimp only
  split
  · exact .trap h
  · exact .runBulk (fun _ _ _ ht => .stsqEntry ht) h

theorem State.Canonical.pushGroup {o m c tag} (h : s.Canonical) : (s.pushGroup o m c tag).Canonical := by
  unfold State.pushGroup
  split
  · exact .reserve (.reserve h)
  · exact .reserve h

theorem State.Canonical.pushBad {o m r} (h : s.Canonical) : (s.pushBad o m r).Canonical :=
  .foldl (fun _ _ ht => .reserve ht) h

theorem State.Canonical.setScan {m c} (h : s.Canonical) : (s.setScan m c).Canonical := h

theorem State.Canonical.endScan {o m n len} (h : s.Canonical) : (s.endScan o m n len).Canonical :=
  .done (.updStrand (.setScan h))

theorem Look.Canonical.look {o m b i c} (h : s.Canonical) : (s.look o m b i c).Canonical := by
  unfold State.look
  refine .ite (.wait h) (.ite (.bad h) (.ite (.ite (.value h) (.bad h)) ?_))
  extract_lets va f
  refine .ite (.wait h) ?_
  dsimp only
  split
  · rename_i e
    exact .bad (.of_fst e (.elemPages h))
  · rename_i e
    exact .bad (.of_fst e (.elemPages h))
  · rename_i e
    exact .wait (.of_fst e (.elemPages h))
  · rename_i e
    exact .wait (.of_fst e (.elemPages h))
  · rename_i e
    exact .wait (.request (.of_fst e (.elemPages h)))
  · rename_i e
    exact .wait (.request (.of_fst e (.elemPages h)))
  · rename_i e
    have ht : State.Canonical _ := .of_fst e (.elemPages h)
    refine .ite (.bad ht) (.ite trivial (.ite (.wait (.fetchTiers ht)) (.ite (.wait ht) (.ite ?_
      (.ite (.wait (.askBytes ht)) (.value (.foldl (fun _ _ hu => .cacheByte hu) (.touchAll ht))))))))
    split
    · exact .wait (.setScan (.listAcc ht))
    · exact .ite (.value (.updStrand ht)) (.wait ht)

theorem State.Canonical.failScan {o m c len r} (h : s.Canonical) : (s.failScan o m c len r).Canonical :=
  .ite (.block h) (.ite (.endScan (.unfail (.pushBad h))) (.ite (.endScan (.unfail (.pushBad (.setScan (.pushGroup h)))))
    (.block (.setScan (.pushGroup h)))))

theorem State.Canonical.scanFrom {o len start n} (h : s.Canonical) : (scanFrom o len start n s).Canonical := by
  induction n generalizing s with
  | zero =>
    unfold Machine.scanFrom
    split
    · exact h
    · exact .ite (.endScan h) (.ite (.block h) (.endScan (.pushGroup h)))
  | succ n ih =>
    unfold Machine.scanFrom
    split
    · exact h
    · extract_lets c b i
      split
      · rename_i e
        have ht := Look.Canonical.of_eq e (.look h)
        split
        · exact .block ht
        · exact ht
      · exact .trap h
      · rename_i e
        exact .failScan (Look.Canonical.of_eq e (.look h))
      · rename_i e
        have ht := Look.Canonical.of_eq e (.look h)
        refine .ite (ih (.setScan ht)) (.ite (.ite (.block ht) (ih (.setScan (.pushGroup ht)))) ?_)
        exact .ite (.ite (.block ht) (ih (.setScan (.pushGroup ht)))) (ih (.setScan ht))

theorem Out.Canonical.execNzscan {p o} (h : s.Canonical) : Out.Canonical (execNzscan p o s) :=
  .asQueue h (fun _ => .ite (.raise h) (.ite (.endScan h) (.scanFrom (.ite h (.setScan h)))))

/-! ### Counter -/

theorem Found.Canonical.readCtr {m c va} (h : s.Canonical) : (s.readCtr m c va).Canonical :=
  .ite (.stop h) (.ite (.stop (.askBytes h)) (.ok (.foldl (fun _ _ ht => .cacheByte ht) (.touchAll h))))

theorem Found.Canonical.findCtr {m c k} (h : s.Canonical) : (s.findCtr m c k).Canonical := by
  unfold State.findCtr
  split
  · exact .readCtr h
  · refine .ite (.stop (.raise h)) (.ite (.stop (.raise h)) (.ite (.stop (.raise (.unfail h))) (.ite (.stop h) ?_)))
    split
    · rename_i e1
      exact .stop (.raise (.of_fst e1 (.counterPage h)))
    · rename_i e1
      exact .stop h
    · rename_i e1
      exact .stop (.request h)
    · rename_i e1
      have ht : State.Canonical _ := .of_fst e1 (.counterPage h)
      exact .ite (.stop (.trap ht)) (.readCtr ht)

theorem State.Canonical.release {m wide} (h : s.Canonical) : ∀ t ∈ s.release m wide, t.Canonical := by
  unfold State.release
  split
  · rintro _ ⟨⟩
  · rintro _ ⟨⟩
    exact .ite (.phaseRelease h) h

theorem State.Canonical.addCtr {m c va amount rel} (h : s.Canonical) : (s.addCtr m c va amount rel).Canonical := by
  unfold State.addCtr
  split
  · exact .perform (.listAcc h)
  · exact .listAcc h

/-- What a counter's add goes on from: none while its path is full or its release waits. -/
theorem State.Canonical.released {m wide} {full rel : Bool} (h : s.Canonical) :
    ∀ t ∈ (if full then none else if rel then s.release m wide else some s), t.Canonical := by
  cases full
  · cases rel
    · rintro _ ⟨⟩
      exact h
    · exact State.Canonical.release h
  · rintro _ ⟨⟩

theorem Out.Canonical.runCadd {scope rel c amount len} (h : s.Canonical) : Out.Canonical (runCadd scope rel c amount len s) := by
  refine .asStrand (fun m => ?_)
  split
  · split
    · exact h
    · rename_i e
      exact .advance (.addCtr (.of_some e (State.Canonical.released h)))
  · extract_lets va go r _ a log
    have hgo {t : State} {k : State → State} (ht : t.Canonical) (hk : ∀ u, u.Canonical → (k u).Canonical) : (go t k).Canonical := by
      unfold go
      split
      · exact ht
      · rename_i e
        exact hk _ (.of_some e (State.Canonical.released ht))
    have hlog : (log s).Canonical := .ite (.countMendFull h) (hgo h (fun _ hu => .advance (.sweep (.listAcc (.logLine hu)))))
    refine .ite (.raise h) (.ite (.raise h) ?_)
    split
    · exact h
    · rename_i e
      exact .raise (.of_fst e (.counterPage h))
    · exact hlog
    · rename_i e
      have ht : State.Canonical _ := .of_fst e (.counterPage h)
      exact .ite (.trap ht) (.ite (.countMendFull h) (.ite hlog (hgo ht (fun _ hu => .advance (.addCtr hu)))))

theorem State.Canonical.acquireIf {b core} (h : s.Canonical) : (s.acquireIf b core).Canonical :=
  .ite (.phaseAcquire h) h

theorem Out.Canonical.runCwait {scope c value len} (h : s.Canonical) : Out.Canonical (runCwait scope c value len s) := by
  unfold Machine.runCwait
  refine .asYielding h (fun _ => ?_)
  split
  · rename_i e
    exact Found.Canonical.of_eq e (.findCtr h)
  · rename_i e
    have ht : State.Canonical _ := Found.Canonical.of_eq e (.findCtr h)
    exact .ite (.block ht) (.ite ht (.fall (.acquireIf ht)))

theorem Out.Canonical.execCrd {scope c d} (h : s.Canonical) : Out.Canonical (execCrd scope c d s) := by
  unfold Machine.execCrd
  refine .asStrand (fun _ => ?_)
  split
  · rename_i e
    exact Found.Canonical.of_eq e (.findCtr h)
  · rename_i e
    exact .writeS (Found.Canonical.of_eq e (.findCtr h))

theorem State.Canonical.disarm {m r} (h : s.Canonical) : (s.disarm m r).Canonical := by
  unfold State.disarm
  split
  · exact .updWg h
  · exact .with h

theorem State.Canonical.arm {m r target act} (h : s.Canonical) : (s.arm m r target act).Canonical := by
  unfold State.arm
  split
  · exact .ite (.fire h) (.updWg h)
  · exact .ite (.fire h) (.with h)

theorem Out.Canonical.runCarm {c target rs len} (h : s.Canonical) : Out.Canonical (runCarm c target rs len s) := by
  unfold Machine.runCarm
  refine .asStrand (fun _ => ?_)
  split
  · rename_i e
    exact Found.Canonical.of_eq e (.findCtr h)
  · rename_i e
    have ht : State.Canonical _ := Found.Canonical.of_eq e (.findCtr h)
    split
    · exact .raise ht
    · exact .ite (.raise ht) (.advance (.arm ht))

theorem Out.Canonical.runCarmDis {c} (h : s.Canonical) : Out.Canonical (runCarmDis c s) := by
  unfold Machine.runCarmDis
  refine .asStrand (fun _ => ?_)
  split
  · rename_i e
    exact Found.Canonical.of_eq e (.findCtr h)
  · rename_i e
    exact .advance (.disarm (Found.Canonical.of_eq e (.findCtr h)))

theorem Out.Canonical.execCarm {sys c f} (h : s.Canonical) : Out.Canonical (execCarm sys c f s) := by
  unfold Machine.execCarm
  split
  · exact .runCarmDis h
  · exact .runCarm h
  · exact .runCarm h

theorem Out.Canonical.execCarmX1 {sys c f} (h : s.Canonical) : Out.Canonical (execCarmX1 sys c f s) := by
  unfold Machine.execCarmX1
  split <;> exact .runCarm h

/-! ### FabricInstr -/

theorem Out.Canonical.asFabric {k : Me → State} (h : s.Canonical) (hk : ∀ m, (k m).Canonical) : Out.Canonical (asFabric s k) :=
  .asYielding h (fun m => .ite (.raise h) (.ite (.raise h) (hk m)))

theorem State.Canonical.startXfer {m sb kind} (h : s.Canonical) : (s.startXfer m sb kind).Canonical :=
  .ite (.block h) (.ite (.fall h) (.fall (.with h)))

theorem Out.Canonical.execFbred {sb op ty} (h : s.Canonical) : Out.Canonical (execFbred sb op ty s) :=
  .asFabric h (fun _ => .ite (.raise h) (.ite (.raise h) (.startXfer h)))

theorem State.Canonical.updXfer {id g} (h : s.Canonical) : (s.updXfer id g).Canonical := h

theorem State.Canonical.xferFail {x va cause} (h : s.Canonical) : (s.xferFail x va cause).Canonical := by
  unfold State.xferFail
  dsimp only
  split
  · exact .terminate (.updXfer h)
  · split
    · exact .terminateSaved (.updXfer h)
    · exact .updXfer h

theorem State.Canonical.xferMoved {id n} (h : s.Canonical) : (s.xferMoved id n).Canonical := h

theorem State.Canonical.pumpXfer {x} (h : s.Canonical) : (s.pumpXfer x).Canonical := by
  unfold State.pumpXfer
  refine .ite h ?_
  split
  · refine .ite (.xferFail h) (.ite h ?_)
    dsimp only
    split
    · rename_i e1
      exact CopyRes.Canonical.of_eq e1 (.enginePlaces h) _ h
    · rename_i e1
      exact .xferFail (CopyRes.Canonical.of_eq e1 (.enginePlaces h))
    · rename_i e1
      exact .sendPacket (.updXfer (.engineRead (CopyRes.Canonical.of_eq e1 (.enginePlaces h))))
  · exact .ite (.xferFail h) (.ite h (.sendPacket (.updXfer h)))
  · refine .ite (.xferFail h) (.ite h ?_)
    dsimp only
    split
    · rename_i e1
      exact CopyRes.Canonical.of_eq e1 (.enginePlaces h) _ h
    · rename_i e1
      exact .xferFail (CopyRes.Canonical.of_eq e1 (.enginePlaces h))
    · rename_i e1
      exact .sendPacket (.updXfer (.engineRead (CopyRes.Canonical.of_eq e1 (.enginePlaces h))))

theorem State.Canonical.pumpXfers (h : s.Canonical) : (s.pumpXfers).Canonical :=
  .with (.foldl (fun _ _ ht => .pumpXfer ht) h)

theorem State.Canonical.updUe {id g} (h : s.Canonical) : (s.updUe id g).Canonical := h

theorem Iter.Canonical.uegetEntry {q id count addr m e} (h : s.Canonical) : (uegetEntry q id count addr s m e).Canonical :=
  .ite (.blockBulk h) (.more (.updUe (.reserve h)))

theorem Out.Canonical.execUeget {sb q} (h : s.Canonical) : Out.Canonical (execUeget sb q s) := by
  refine .asYielding h (fun m => .ite (.raise h) (.ite (.raise h) (.ite (.raise h) ?_)))
  split
  rename_i e
  have ht : State.Canonical _ := .of_snd e (by split <;> exact h)
  split
  · rename_i e'
    exact Iter.Canonical.of_eq e' (.bulk (fun _ _ _ hu => .uegetEntry hu) ht)
  · rename_i e'
    exact .fall (.setRc (Iter.Canonical.of_eq e' (.bulk (fun _ _ _ hu => .uegetEntry hu) ht)))

theorem State.Canonical.fillUe {entry data} (h : s.Canonical) : (s.fillUe entry data).Canonical := by
  unfold State.fillUe
  split
  · refine .ite (.ite (.with ?_) (.with (.with ?_))) (.updUe ?_)
    · split <;> exact .fillEntry h
    · split <;> exact .fillEntry h
    · split <;> exact .fillEntry h
  · exact h

/-! ### FabricEvents -/

theorem CopyRes.Canonical.bulkCounter {ctx id va} (h : s.Canonical) : (s.bulkCounter ctx id va).Canonical := by
  unfold State.bulkCounter
  refine .ite (.ok h) (.ite (.stop h) (.ite (.stop (.unfail h)) (.ite (.wait (fun _ ht => ht)) ?_)))
  split
  · rename_i e
    exact .ite (.ok (.of_fst e (.counterPage h))) (.wait (fun _ hu => .fetchTier hu))
  · rename_i e
    exact .stop (.of_fst e (.counterPage h))
  · rename_i e
    exact .wait (fun _ hu => .request hu)
  · rename_i e
    exact .wait (fun _ hu => .counterPage hu)

theorem State.Canonical.bulkAdd {ctx ctr n} (h : s.Canonical) : (s.bulkAdd ctx ctr n).Canonical := by
  unfold State.bulkAdd
  split
  · exact .globalAdd h
  · exact h

theorem CopyRes.Canonical.bulkWrite {core ctx slot id va ctr bs} (h : s.Canonical) : (s.bulkWrite core ctx slot id va ctr bs).Canonical :=
  .bind (.bulkCounter h) (fun _ _ ht => .ite (.ok ht) (.bind (.enginePlaces ht) (fun _ _ hu => .ok (.bulkAdd (.engineWrite hu)))))

theorem State.Canonical.contribute {p} (h : s.Canonical) : (s.contribute p).Canonical := by
  unfold State.contribute
  split
  · exact h
  · split
    · exact .with h
    · exact .ite h (.with h)

theorem Out.Canonical.execReductionLeafCombine {leaf key} (h : s.Canonical) : Out.Canonical (execReductionLeafCombine leaf key s) := by
  unfold Machine.execReductionLeafCombine
  refine .next ?_
  split
  · exact h
  · exact .ite h (.with h)

theorem Out.Canonical.execReductionRootCombine {key} (h : s.Canonical) : Out.Canonical (execReductionRootCombine key s) := by
  unfold Machine.execReductionRootCombine
  refine .next ?_
  split
  · exact h
  · exact .ite h (.with h)

theorem CopyRes.Canonical.writeResult {key bs} (h : s.Canonical) : (s.writeResult key bs).Canonical := by
  unfold State.writeResult
  split
  · exact .ok h
  · refine .ite (.ok h) ?_
    split
    · rename_i e1
      exact .ok (.xferMoved (.updXfer (CopyRes.Canonical.of_eq e1 (.bulkWrite h))))
    · rename_i e1
      exact .ok (.xferFail (CopyRes.Canonical.of_eq e1 (.bulkWrite h)))
    · exact .bulkWrite h

theorem Out.Canonical.execRedresult {key} (h : s.Canonical) : Out.Canonical (execRedresult key s) := by
  unfold Machine.execRedresult
  refine .next ?_
  split
  · exact h
  · split
    · rename_i e1
      exact .with (CopyRes.Canonical.of_eq e1 (.writeResult h))
    · rename_i e1
      exact CopyRes.Canonical.of_eq e1 (.writeResult h) _ h
    · rename_i e1
      exact CopyRes.Canonical.of_eq e1 (.writeResult h)

theorem Out.Canonical.execReduceAbandoned {key} (h : s.Canonical) : Out.Canonical (execReduceAbandoned key s) := by
  unfold Machine.execReduceAbandoned
  refine .next ?_
  split
  · exact h
  · refine .ite h ?_
    dsimp only
    split
    · exact .foldl (fun _ _ hv => .ite (.logError hv) hv) (.with h)
    · exact .ite (.foldl (fun _ _ hv => .ite (.logError hv) hv) (.with h))
        (.xferMoved (.updXfer (.foldl (fun _ _ hv => .ite (.logError hv) hv) (.with h))))

theorem State.Canonical.failUse {k} (h : s.Canonical) : (s.failUse k).Canonical := by
  unfold State.failUse
  split
  · split
    · exact .failAcc h
    · exact h
  · split
    · refine .fillPair (.foldl_fst (fun _ _ _ hv => ?_) (.foldl_fst (fun _ _ _ ht => .ite_fst ht (.ite_fst ht ?_)) h))
      · split
        · rename_i e3
          have ht : State.Canonical _ := .of_fst e3 hv
          split
          · dsimp only
            split
            · exact ht
            · exact ht
            · exact .request ht
            · exact .request ht
            · exact .ite_fst ht ht
            · exact ht
          · dsimp only
            split
            · exact ht
            · exact ht
            · exact .request ht
            · exact .request ht
            · exact .ite_fst ht ht
            · exact ht
      · split
        · rename_i e4
          exact .of_fst e4 (.accessPage ht)
    · exact h
  · exact .foldl (fun _ _ hu => .failAcc hu) (.with h)
  · split
    · exact .ite h (.xferFail h)
    · exact h
  · exact .evicted h
  · exact h

theorem State.Canonical.takeAnswer {k p} (h : s.Canonical) : (s.takeAnswer k p).Canonical := by
  unfold State.takeAnswer
  refine .ite (.failUse (.with h)) ?_
  split
  · exact .with (.with h)
  · exact .updEntry (.with h)
  · exact h
  · exact .evicted (.with h)
  · exact .with h
  · split
    · exact .with h
    · split
      · exact .xferMoved (.with h)
      · exact .with h
      · split
        · rename_i e3
          exact .xferMoved (.with (CopyRes.Canonical.of_eq e3 (.bulkWrite h)))
        · rename_i e3
          exact .with (CopyRes.Canonical.of_eq e3 (.bulkWrite h) _ h)
        · rename_i e3
          exact .xferFail (.with (CopyRes.Canonical.of_eq e3 (.bulkWrite h)))

theorem State.Canonical.answered {p} (h : s.Canonical) : (s.answered p).Canonical := by
  unfold State.answered
  split
  · refine .ite h ?_
    split
    · exact .lineArrives h
    · exact .ackArrives h
    · exact .ite (.nack h) h
    · split
      · exact .ite (.failUse (.with h)) h
      · exact h
    · exact h
  · split
    · exact .takeAnswer h
    · exact h

theorem State.Canonical.retryAnswers (h : s.Canonical) : (s.retryAnswers).Canonical :=
  .foldl (fun _ _ ht => .answered (.with ht)) h

theorem State.Canonical.broughtHome {p} (h : s.Canonical) : (s.broughtHome p).Canonical :=
  .ite (.evicted h) h

theorem Served.Canonical.serveMem {ctx p} (h : s.Canonical) : (s.serveMem ctx p).Canonical := by
  unfold State.serveMem
  extract_lets n pa inMap own read physOk t served answer
  have ht : t.Canonical := .ite (.noteMac h) h
  have ha {r : CopyRes (PktTy × List Byte)} (hr : r.Canonical) : (answer r).Canonical := by
    cases r with
    | ok u x => exact .answer hr
    | wait g => exact .wait (hr t ht)
    | stop u c va => exact .answer hr
  split
  · exact ha (.bind (.enginePlaces ht) (fun _ _ hu => .ok hu))
  · exact ha (.bind (.bulkWrite ht) (fun _ _ hu => .ok hu))
  · exact .ite (.answer ht) (.ite (.wait (.fetchTier (.fetchTier ht))) (.answer ht))
  · exact .ite (.answer ht) (.ite (.wait (.fetchTier (.fetchTier ht)))
      (.answer (.broughtHome (.foldl (fun _ _ hu => .ite (.setRegByte hu) (.setPhys hu)) ht))))
  · exact .answer ht

theorem Served.Canonical.serveCoh {c p} (h : s.Canonical) : (s.serveCoh c p).Canonical := by
  unfold State.serveCoh
  refine .ite (.quiet h) ?_
  split
  · exact .quiet (.dirRequest h)
  · exact .quiet (.dirDone h)
  · exact .ite (.quiet (.with h)) (.quiet (.ite (.supply (.with h)) h))
  · exact .quiet (.ite (.settleWant (.with h)) h)
  · exact .quiet (.ite (.cohAnswer (.dropLine (.with h))) h)
  · exact .quiet (.evicted (.giveUp h))
  · exact .quiet (.confirm h)
  · exact .quiet (.cohAnswer h)
  · exact .quiet h

theorem Served.Canonical.servePacket {p} (h : s.Canonical) : (s.servePacket p).Canonical := by
  unfold State.servePacket
  split
  · exact .serveCoh h
  · exact .answer (.contribute h)
  · split
    · exact .answer h
    · refine .ite ?_ (.serveMem h)
      split
      · exact .answer h
      · split
        · exact .answer h
        · refine .ite (.answer h) ?_
          split
          · rename_i e4
            exact .answer (CopyRes.Canonical.of_eq e4 (.writeResult h))
          · rename_i e4
            exact .wait (CopyRes.Canonical.of_eq e4 (.writeResult h) _ h)
          · rename_i e4
            exact .answer (CopyRes.Canonical.of_eq e4 (.writeResult h))

theorem State.Canonical.deliverWindow {src plane n} (h : s.Canonical) : (s.deliverWindow src plane n).Canonical := by
  induction n generalizing s with
  | zero => exact h
  | succ n ih =>
    unfold State.deliverWindow
    extract_lets w
    split
    · exact h
    · split
      · rename_i e
        exact Served.Canonical.of_eq e (.servePacket h)
      · rename_i e
        exact ih (.with (Served.Canonical.of_eq e (.servePacket h)))
      · rename_i e
        exact ih (.with (Served.Canonical.of_eq e (.servePacket h)))

theorem State.Canonical.arrive {p} (h : s.Canonical) : (s.arrive p).Canonical := by
  unfold State.arrive
  refine .ite ?_ (.ite h (.ite h (.deliverWindow (.with h))))
  split
  · exact .with h
  · exact h

theorem State.Canonical.deliverAll (h : s.Canonical) : (s.deliverAll).Canonical :=
  .foldl (fun _ _ ht => .deliverWindow ht) h

theorem State.Canonical.accept {p} (h : s.Canonical) : (s.accept p).Canonical := by
  unfold State.accept
  split
  · exact .with h
  · exact .ite h (.dirDone h)
  · exact .ite h (.ite (.answered h) (.arrive h))

theorem State.Canonical.forwardAt {idx} (h : s.Canonical) : (s.forwardAt idx).Canonical := by
  unfold State.forwardAt
  split
  · exact h
  · exact .ite h (.ite (.with h) (.ite (.with (.with h)) (.ite (.accept (.with h)) (.with (.with h)))))

theorem Out.Canonical.execSwitchForward {idx} (h : s.Canonical) : Out.Canonical (execSwitchForward idx s) :=
  .next (.forwardAt h)

theorem Out.Canonical.execFabricPacketReceive {p} (h : s.Canonical) : Out.Canonical (execFabricPacketReceive p s) :=
  .next (.accept h)

theorem Out.Canonical.execFabricAnswerReceive {p} (h : s.Canonical) : Out.Canonical (execFabricAnswerReceive p s) :=
  .next (.ite (.answered h) h)

theorem Out.Canonical.execE2eResend {dst plane seq} (h : s.Canonical) : Out.Canonical (execE2eResend dst plane seq s) := by
  unfold Machine.execE2eResend
  refine .next ?_
  split
  · exact h
  · exact .ite (.with h) (.failUse (.with h))

theorem Out.Canonical.execDirreq {line req dev} (h : s.Canonical) : Out.Canonical (execDirreq line req dev s) := by
  unfold Machine.execDirreq
  refine .next (.ite ?_ (.dirRequest h))
  split
  · exact .forwardAt h
  · exact h

theorem Out.Canonical.execDirectoryDone {line dev} (h : s.Canonical) : Out.Canonical (execDirectoryDone line dev s) := by
  unfold Machine.execDirectoryDone
  refine .next (.ite ?_ (.ite (.ite h (.evicted h)) (.dirDone h)))
  split
  · exact .forwardAt h
  · exact h

/-! ### Masks -/

theorem State.Canonical.setEm {m x} (h : s.Canonical) : (s.setEm m x).Canonical := h

theorem State.Canonical.setK {m n x} (h : s.Canonical) : (s.setK m n x).Canonical := h

theorem State.Canonical.setMask {m d x} (h : s.Canonical) : (s.setMask m d x).Canonical := by
  unfold State.setMask
  split
  · exact .setK h
  · exact .setEm h

theorem Out.Canonical.runMask {p} {f : Me → State} (h : s.Canonical) (hf : ∀ m, (f m).Canonical) : Out.Canonical (runMask p s f) :=
  .asStrand (fun m => .ite (.finishVec h) (.finishVec (hf m)))

theorem Out.Canonical.runMaskVal {p n d f} (h : s.Canonical) : Out.Canonical (runMaskVal p n d f s) :=
  .runVecOf (fun _ _ _ _ _ _ h => h) h

theorem Out.Canonical.execKop {p fn d a b} (h : s.Canonical) : Out.Canonical (execKop p fn d a b s) :=
  .runMask h (fun _ => .setMask h)

/-! ### QueueInstr -/

theorem State.Canonical.qdrop {m p qn} (h : s.Canonical) : (s.qdrop m p qn).Canonical := by
  unfold State.qdrop
  split
  · exact .raise h
  · refine .ite (.raise h) ?_
    split
    · exact .ite (.finishVec (.setQt h)) (.block h)
    · exact .ite (.block h) (.finishVec (.setQt (.sweepQueue (.putQueue (.ite h (.discardPoison h))))))

theorem Out.Canonical.execQcnt {p n d q} (h : s.Canonical) : Out.Canonical (execQcnt p n d q s) :=
  .runVecOf (fun _ _ _ _ _ _ h => h) h

theorem Out.Canonical.execQdrop {p q} (h : s.Canonical) : Out.Canonical (execQdrop p q s) :=
  .asYielding h (fun _ => .ite (.finishVec h) (.qdrop h))

/-! ### Scalar -/

theorem Out.Canonical.runScalar {d a len op f} (h : s.Canonical) : Out.Canonical (runScalar d a len op f s) :=
  .asStrand (fun _ => .writeS h)

theorem Out.Canonical.runSdiv {fn d a len op} (h : s.Canonical) : Out.Canonical (runSdiv fn d a len op s) :=
  .asStrand (fun _ => .writeS (.updStrand h))

/-! ### Sync -/

theorem Out.Canonical.execFence {scope f} (h : s.Canonical) : Out.Canonical (execFence scope f s) :=
  .asStrand (fun _ => .ite (.advance h) h)

theorem Out.Canonical.execBarw {b sl} (h : s.Canonical) : Out.Canonical (execBarw b sl s) :=
  .asYielding h (fun _ => .ite (.raise h) (.ite h (.barrierCheck (.block (.updWg h)))))

theorem Out.Canonical.execPhaseRel {sys} (h : s.Canonical) : Out.Canonical (execPhaseRel sys s) :=
  .asStrand (fun _ => .ite (.raise h) (.ite h (.advance (.phaseRelease h))))

theorem Out.Canonical.execPhaseAcq {sys} (h : s.Canonical) : Out.Canonical (execPhaseAcq sys s) :=
  .asStrand (fun _ => .ite (.raise h) (.ite h (.advance (.phaseAcquire h))))

/-! ### WorkGraph -/

theorem State.Canonical.push {m r child} (h : s.Canonical) : (s.push m r child).Canonical := by
  unfold State.push
  split
  · exact .raise h
  · refine .ite h ?_
    split
    · exact h
    · rename_i e1
      exact .advance (.of_some e1 (State.Canonical.pushRecord (.phaseRelease h)))

theorem Out.Canonical.execEmit {r} (h : s.Canonical) : Out.Canonical (execEmit r s) :=
  .asStrand (fun _ => .push h)

theorem Out.Canonical.execLaunch {r} (h : s.Canonical) : Out.Canonical (execLaunch r s) :=
  .asStrand (fun _ => .ite (.raise h) (.ite (.raise h) (.ite (.raise h) (.push h))))

theorem Out.Canonical.execPhint {memory} (h : s.Canonical) : Out.Canonical (execPhint memory s) :=
  .asStrand (fun _ => .advance (.updWg h))

/-! ### Dispatch -/

theorem Out.Canonical.exec {i} (h : s.Canonical) : Out.Canonical (exec i s) := by
  unfold Machine.exec
  cases i with
  | vadd | vsub | vmul | vmulh | vmin | vmax | vavg | vsad | vaddc | vand | vor | vxor | vshl | vshr | vsra | vrot | vdiv | vrem | vshuf
    | vbcast | vrott | vidx | fadd | fsub | fmul | fmac | fmin | fmax | fdiv | fscl | fdot2 | fdot4 | pack | unpack => exact .v3 h
  | vaddX1 | vsubX1 | vmulX1 | vmulhX1 | vminX1 | vmaxX1 | vavgX1 | vsadX1 | vaddcX1 | vandX1 | vorX1 | vxorX1 | vshlX1 | vshrX1 | vsraX1
    | vrotX1 | vdivX1 | vremX1 | vshufX1 | vbcastX1 | vrottX1 | faddX1 | fsubX1 | fmulX1 | fmacX1 | fminX1 | fmaxX1 | fdivX1 | fsclX1
    | fdot2X1 | fdot4X1 | packX1 | unpackX1 => exact .x1 h
  | vmad | vclamp | fma | fclamp => exact .x2c h
  | vneg | vabs | vnot | vpopc | vclz | vbrev | vmov | fabs | fneg | frcp | frsq | fsqrt | fexp2 | flog2 | fsin | fcos | frint | fclass
    | ftanh | qscale => exact .v3u h
  | vnegX1 | vabsX1 | vnotX1 | vmovX1 | fabsX1 | fnegX1 | frcpX1 | frsqX1 | fsqrtX1 | fexp2X1 | flog2X1 | fsinX1 | fcosX1 | frintX1
    | fclassX1 | ftanhX1 => exact .x1u h
  | vbfx | vbfi | vsel | vred | vscan => exact .form h
  | vcmp | vcmpX1 | fcmp | fcmpX1 => exact .cmpForm h
  | v2s | cvt | deq | enq | enqX2 => exact .runVec (fun _ _ _ _ _ h => h) h
  | kop => exact .execKop h
  | kfroms | emsave => exact .runMask h (fun _ => .setK h)
  | ktos | kpopc | kffs => exact .runMaskVal h
  | setem | emrest => exact .runMask h (fun _ => .setEm h)
  | qcnt => exact .execQcnt h
  | qdrop => exact .execQdrop h
  | acrd | acrdX1 => exact .runVec Vec.postKeeps_acrd h
  | acwr | acwrX1 => exact .runVec Vec.postKeeps_acwr h
  | ld => exact .execLd h
  | st => exact .execSt h
  | ldq | gatherq => exact .runLdq h
  | ldqb => exact .execLdqb h
  | gatherqList => exact .execGatherqList h
  | stq | scatq => exact .runStq h
  | lds | ldsX1 => exact .runLds h
  | sts | stsX1 => exact .runSts h
  | ldc => exact .execLdc h
  | stf => exact .execStf h
  | feq => exact .execFeq h
  | ldsq => exact .execLdsq h
  | stsq => exact .execStsq h
  | bfset => exact .execBfset h
  | bfget => exact .execBfget h
  | pfr | pft => exact .runPf h
  | nzscan => exact .execNzscan h
  | waitf => exact .execWaitf h
  | infl => exact .execInfl h
  | land => exact .execLand h
  | mloop => exact .execMloop h
  | mzero | mcfg => exact .asEngine h (fun _ => .ite (.raise h) (.queueCmd h))
  | mscl | msclX1 => exact .runMscl h
  | mdrain | mfill => exact .asEngine h (fun _ => .ite (.raise h) (.ite (.raise h) (.queueCmd h)))
  | tcopy => exact .execTcopy h
  | tstore => exact .execTstore h
  | tmcast => exact .execTmcast h
  | tdset => exact .execTdset h
  | br => exact .execBr h
  | brc | brt => exact .asYielding h (fun _ => .ite (.branch h) (.fall h))
  | brd => exact .execBrd h
  | loop => exact .execLoop h
  | call => exact .execCall h
  | ret => exact .execRet h
  | setmode => exact .execSetmode h
  | getmode | rdspec => exact .asStrand (fun _ => .writeS h)
  | flags => exact .execFlags h
  | sadd | saddX1 | ssub | ssubX1 | smul | smulX1 | slog | slogX1 | sshf | sshfX1 | scmp | scmpX1 | smov | sli | sliX1
    | ssel | sselX1 => exact .runScalar h
  | sdiv | sdivX1 => exact .runSdiv h
  | cadd | caddX1 => exact .runCadd h
  | cwait | cwaitX1 => exact .runCwait h
  | carm => exact .execCarm h
  | carmX1 => exact .execCarmX1 h
  | crd => exact .execCrd h
  | atom | atomf | lda | strel => exact .runOrdered h
  | fence => exact .execFence h
  | barw => exact .execBarw h
  | phaseRel => exact .execPhaseRel h
  | phaseAcq => exact .execPhaseAcq h
  | emit => exact .execEmit h
  | launch => exact .execLaunch h
  | phint => exact .execPhint h
  | fbwr | fbrd => exact .asFabric h (fun _ => .ite (.raise h) (.startXfer h))
  | fbred => exact .execFbred h
  | ueget => exact .execUeget h
  | trap => exact .execTrap h
  | rdflt | smprd => exact .asStrand (fun _ => .advance (.writeSs h))
  | wpset | wpclr => exact .asStrand (fun _ => .ite (.raise h) (.advance (.updCore h)))
  | reservedOpcode => exact .execReservedOpcode h
  | ctxCreate => exact .execCtxCreate h
  | frameAssign => exact .execFrameAssign h
  | nodeReg => exact .execNodeReg h
  | registerWrite => exact .execRegisterWrite h
  | hostRecordPush => exact .execHostRecordPush h
  | hostMemAccess | uePeerAccess => exact .next (.hostArrives h)
  | pageDone => exact .execPageDone h
  | gridExpand => exact .execGridExpand h
  | admitWg => exact .execAdmitWg h
  | retire => exact .execRetire h
  | loadReturn => exact .execLoadReturn h
  | storePerformed => exact .execStorePerformed h
  | queueEntryFill => exact .execQueueEntryFill h
  | walkComplete => exact .execWalkComplete h
  | channelGroupSelect => exact .execChannelGroupSelect h
  | tierFill => exact .execTierFill h
  | matrixCommandExecute => exact .execMatrixCommandExecute h
  | matrixCommandComplete => exact .execMatrixCommandComplete h
  | copyPiece => exact .execCopyPiece h
  | tcopyLanded => exact .execTcopyLanded h
  | tmcastDeliveryStart => exact .execTmcastDeliveryStart h
  | tstoreComplete => exact .execTstoreComplete h
  | prefetchPageDone => exact .execPrefetchPageDone h
  | cisternCountLaunch => exact .execCisternCountLaunch h
  | cisternTimerLaunch => exact .execCisternTimerLaunch h
  | victimWindow => exact .execVictimWindow h
  | inv => exact .execInv h
  | sync | auditExportAck | heartbeat | linkFlitReplay | creditReturn => exact .next (.with h)
  | nodeUnreg => exact .execNodeUnreg h
  | nodeDrained => exact .execNodeDrained h
  | ctxRelease => exact .execCtxRelease h
  | preempt => exact .execPreempt h
  | preemptForceStop => exact .execPreemptForceStop h
  | saveComplete => exact .execSaveComplete h
  | resume => exact .execResume h
  | resync => exact .execResync h
  | attest => exact .execAttest h
  | perfRead => exact .execPerfRead h
  | logRead => exact .execLogRead h
  | lifecycle => exact .execLifecycle h
  | unlockNonce => exact .execUnlockNonce h
  | unlock => exact .execUnlock h
  | stop => exact .execStop h
  | continueTask => exact .execContinueTask h
  | evlogRead => exact .execEvlogRead h
  | debugStopHalt => exact .execDebugStopHalt h
  | traceArm => exact .execTraceArm h
  | stitchSampleTag => exact .execStitchSampleTag h
  | auditTypedAppend => exact .execAuditTypedAppend h
  | measExtend => exact .execMeasExtend h
  | correctedError => exact .execCorrectedError h
  | uncorrectedError => exact .execUncorrectedError h
  | selfTestDone => exact .execSelfTestDone h
  | rinseStep => exact .execRinseStep h
  | refresh => exact .execRefresh h
  | refreshTakeover => exact .execRefreshTakeover h
  | switchForward => exact .execSwitchForward h
  | fabricPacketReceive => exact .execFabricPacketReceive h
  | fabricAnswerReceive => exact .execFabricAnswerReceive h
  | e2eResend => exact .execE2eResend h
  | reductionLeafCombine => exact .execReductionLeafCombine h
  | reductionRootCombine => exact .execReductionRootCombine h
  | redresult => exact .execRedresult h
  | reduceAbandoned => exact .execReduceAbandoned h
  | dirreq => exact .execDirreq h
  | dirfwd => exact .execDirfwd h
  | dirresp => exact .execDirresp h
  | directoryInv => exact .execDirectoryInv h
  | directoryDone => exact .execDirectoryDone h
  | directoryRetry => exact .execDirectoryRetry h
  | directoryFailover => exact .execDirectoryFailover h
  | census => exact .execCensus h
  | censusRebuild => exact .execCensusRebuild h
  | uegetResponse | ueTransportGiveUp => exact .next (.fillUe h)
  | traceTrigger => exact .execTraceTrigger h
  | ctxReleaseDone => exact .execCtxReleaseDone h
  | nop => exact .execNop h
  | exit => exact .execExit h
  | yield => exact .execYield h
  | rft => exact .execRft h
  | bkpt => exact .execBkpt h
  | orphanPrefix => exact .execOrphanPrefix h
  | weirEvaluate => exact .execWeirEvaluate h
  | syncAck => exact .execSyncAck h
  | rinsePassStart => exact .execRinsePassStart h
  | idleEnter => exact .execIdleEnter h
  | thermalTrip => exact .execThermalTrip h
  | thermalRecover => exact .execThermalRecover h
  | thermalShutdown => exact .execThermalShutdown h
  | reset | powerOff => exact .next (.restart h)

/-! ### Issue -/

theorem State.Canonical.chosen {sid fi} (h : s.Canonical) : (s.chosen sid fi).Canonical := h

theorem State.Canonical.pick {core sl n} (h : s.Canonical) : ∀ p ∈ s.pick core sl n, p.1.Canonical := by
  unfold State.pick
  extract_lets old
  cases old with
  | some q =>
    rintro _ ⟨⟩
    exact h
  | none =>
    intro p hp
    obtain ⟨q, -, rfl⟩ := Option.map_eq_some_iff.mp hp
    exact .chosen h

theorem State.Canonical.noteIssue {m i ws since r} (h : s.Canonical) : (s.noteIssue m i ws since r).Canonical :=
  .ite h (.noteSample (.noteTrace (.count (.ite (.updStrand h) h))))

theorem State.Canonical.endIssue {m} (h : s.Canonical) : (s.endIssue m).Canonical :=
  .ite (.with h) (.with (.ite (.updLane h) (.parkAtYield (.updLane h))))

theorem Out.Canonical.runWords {m ws} (h : s.Canonical) : Out.Canonical (s.runWords m ws) := by
  unfold State.runWords
  split
  · exact .next (.endIssue h)
  · split
    · rename_i e1
      exact .next (.endIssue (.noteIssue (.of_next e1 (.exec h))))
    · exact trivial
    · exact trivial

theorem Out.Canonical.issueFrag {sid fi} (h : s.Canonical) : Out.Canonical (s.issueFrag sid fi) := by
  unfold State.issueFrag
  dsimp only
  split
  · exact .next (.with h)
  · split
    · rename_i e1
      exact .runWords (.of_fst e1 (.fetch (.with h)))
    · rename_i e1
      exact .next (.endIssue (.of_fst e1 (.fetch (.with h))))
    · rename_i e1
      exact .next (.endIssue (.trap (.of_fst e1 (.fetch (.with h)))))

theorem State.Canonical.issues {sid} (h : s.Canonical) : (s.issues sid).Canonical := h

theorem Out.Canonical.issueLane {core sl n} (h : s.Canonical) : Out.Canonical (s.issueLane core sl n) := by
  unfold State.issueLane
  refine .ite (.next h) ?_
  split
  · exact .next h
  · rename_i e
    exact .ite (.issueFrag (.issues (.of_some_fst e (State.Canonical.pick h)))) (.next h)

/-! ### Settle -/

theorem State.Canonical.wakeAll (h : s.Canonical) : (s.wakeAll).Canonical := h

theorem State.Canonical.wakeParked {w} (h : s.Canonical) : (s.wakeParked w).Canonical :=
  .ite h (.foldl (fun _ _ ht => .unpark ht) h)

theorem State.Canonical.activations (h : s.Canonical) : (s.activations).Canonical :=
  .foldl (fun _ _ ht => .wakeParked ht) (.foldl (fun _ _ hu => .ite (.activate hu) hu) h)

theorem State.Canonical.raiseDeadlock {w g} (h : s.Canonical) : (s.raiseDeadlock w g).Canonical := by
  unfold State.raiseDeadlock
  split
  · exact h
  · split
    · exact h
    · exact .terminate (.noteTrap h)

theorem State.Canonical.deadlocks (h : s.Canonical) : (s.deadlocks).Canonical :=
  .foldl (fun _ _ ht => .ite (.raiseDeadlock ht) ht) h

theorem State.Canonical.settle (h : s.Canonical) : (s.settle).Canonical :=
  .deadlocks (.activations (.wakeAll (.stopClocks (.retryAll (.finishRecs
    (.storeQuiesced (.stopSaving (.serveHosts (.feServe (.l2Trim (.retryAnswers
      (.deliverAll (.pumpXfers (.pump (.replayMends (.drain h))))))))))))))))

/-! ### Moves -/

theorem State.Canonical.countIf {core no n b} (h : s.Canonical) : (s.countIf core no n b).Canonical :=
  .ite (.count h) h

theorem State.Canonical.countClocks {n core} (h : s.Canonical) : (s.countClocks n core).Canonical :=
  .count (.countIf (.countIf (.countIf (.countIf (.countIf h)))))

theorem State.Canonical.doTimes {f : State → Out} {n} (hf : ∀ t, t.Canonical → Out.Canonical (f t)) (h : s.Canonical) :
    (State.doTimes f n s).Canonical := by
  induction n generalizing s with
  | zero => exact h
  | succ n ih =>
    unfold State.doTimes
    split
    · rename_i e
      exact ih (.of_next e (hf s h))
    · exact h

theorem State.Canonical.launchDue (h : s.Canonical) : (s.launchDue).Canonical :=
  .foldl (fun _ _ ht => .doTimes (fun _ ht => .execCisternTimerLaunch ht) (.doTimes (fun _ ht => .execCisternCountLaunch ht) ht)) h

theorem State.Canonical.tick {n} (h : s.Canonical) : (s.tick n).Canonical := by
  unfold State.tick
  extract_lets t k cores u v
  have ht : t.Canonical := .refreshAll (.launchDue h)
  have hu : u.Canonical := .foldl (fun _ _ hv => .closeSamples (.evalTrace (.countClocks hv))) ht
  exact .ite ht (.with (.ite (.foldl (fun _ _ hv => .evalTrace hv) hu) hu))

/-- Every event of a list that may be due keeps the memories. -/
def DuesKeep (l : List Due) : Prop := ∀ d ∈ l, ∀ t, t.Canonical → Out.Canonical (d.2 t)

theorem DuesKeep.nil : DuesKeep [] := by
  rintro _ ⟨⟩

theorem DuesKeep.cons {b : Bool} {f : State → Out} {l : List Due} (hf : ∀ t, t.Canonical → Out.Canonical (f t)) (hl : DuesKeep l) :
    DuesKeep ((b, f) :: l) := List.forall_mem_cons.mpr ⟨hf, hl⟩

theorem DuesKeep.append {l m : List Due} (hl : DuesKeep l) (hm : DuesKeep m) : DuesKeep (l ++ m) := List.forall_mem_append.mpr ⟨hl, hm⟩

theorem DuesKeep.flatMap {α : Type} {l : List α} {f : α → List Due} (hf : ∀ a, DuesKeep (f a)) : DuesKeep (l.flatMap f) := by
  intro d hd
  obtain ⟨a, -, ha⟩ := List.mem_flatMap.mp hd
  exact hf a d ha

theorem DuesKeep.map {α : Type} {l : List α} {b : α → Bool} {f : α → State → Out} (hf : ∀ a t, t.Canonical → Out.Canonical (f a t)) :
    DuesKeep (l.map (fun a => (b a, f a))) := by
  intro d hd
  obtain ⟨a, -, rfl⟩ := List.mem_map.mp hd
  exact hf a

theorem DuesKeep.filterMap {α : Type} {l : List α} {g : α → Option Due} (hg : ∀ a, ∀ d ∈ g a, ∀ t, t.Canonical → Out.Canonical (d.2 t)) :
    DuesKeep (l.filterMap g) := by
  intro d hd
  obtain ⟨a, -, ha⟩ := List.mem_filterMap.mp hd
  exact hg a d ha

theorem DuesKeep.dueMemory : DuesKeep s.dueMemory := by
  refine .append (.append (.append (.map fun _ _ => .execChannelGroupSelect) (.map fun _ _ => .execWalkComplete))
    (.flatMap fun a => .append ?_ ?_))
    (.flatMap fun _ => .map fun _ _ => .execQueueEntryFill)
  · refine .filterMap (fun l d hd => ?_)
    split at hd
    · split at hd
      · cases hd
        exact fun _ => .execTierFill
      · cases hd
    · cases hd
  · refine .cons (fun t ht => ?_) .nil
    split
    · exact .execLoadReturn ht
    · exact .execStorePerformed ht

theorem DuesKeep.dueEngines : DuesKeep s.dueEngines := by
  refine .append (.append (.flatMap fun c => ?_) (.flatMap fun c => .append (.append (.map fun _ _ => .execTcopyLanded)
    (.cons (fun _ => .execTmcastDeliveryStart) (.cons (fun _ => .execTstoreComplete) .nil))) ?_)) (.flatMap fun f => .filterMap fun p d hd => ?_)
  · split
    · exact .nil
    · exact .cons (fun _ => .execMatrixCommandComplete) (.cons (fun _ => .execMatrixCommandExecute) .nil)
  · split
    · exact .cons (fun _ => .execCopyPiece) .nil
    · exact .nil
  · split at hd
    · cases hd
    · cases hd
      exact fun _ => .execPrefetchPageDone

theorem DuesKeep.dueScheduling : DuesKeep s.dueScheduling :=
  .append (.append (.append (.append (.append (.append (.append
    (.flatMap fun _ => .cons (fun _ => .execGridExpand) (.cons (fun _ => .execNodeDrained) .nil))
    (.flatMap fun _ => .cons (fun _ => .execDebugStopHalt) (.cons (fun _ => .execRetire) .nil)))
    (.flatMap fun _ => .flatMap fun _ => .map fun _ _ => .execAdmitWg))
    (.map fun _ _ => .execDebugStopHalt))
    (.map fun _ _ => .execDebugStopHalt))
    (.flatMap fun _ => .map fun _ _ => .execAdmitWg))
    (.map fun _ _ => .execVictimWindow))
    (.cons (fun _ => .execWeirEvaluate) .nil)

theorem DuesKeep.dueSystem : DuesKeep s.dueSystem :=
  .append (.append (.append (.append (.append
    (.flatMap fun _ => .cons (fun _ => .execSaveComplete) (.cons (fun _ => .execCtxReleaseDone) .nil))
    (.map fun _ _ => .execPreemptForceStop))
    (.cons (fun _ => .execSyncAck) .nil))
    (.map fun _ _ => .execSwitchForward))
    (.map fun _ _ => .execDirectoryRetry))
    (.map fun _ _ => .execE2eResend)

theorem DuesKeep.dueFabric : DuesKeep s.dueFabric := by
  refine .append (.flatMap fun d => ?_) (.flatMap fun _ => .append (.map fun _ _ => .execReductionLeafCombine)
    (.cons (fun _ => .execReductionRootCombine) (.cons (fun _ => .execRedresult) (.cons (fun _ => .execReduceAbandoned) .nil))))
  split
  · exact .cons (fun _ => .execDirfwd) (.cons (fun _ => .execDirresp) (.cons (fun _ => .execDirectoryInv) .nil))
  · exact .nil

theorem State.Canonical.tryDue {d : Due} (hd : ∀ t, t.Canonical → Out.Canonical (d.2 t)) (h : s.Canonical) : ∀ t ∈ s.tryDue d, t.Canonical := by
  unfold State.tryDue
  split
  · rename_i e
    intro u hu
    obtain ⟨-, ⟨⟩⟩ := Option.mem_ite_none_left.mp hu
    exact .of_next e (hd s h)
  · rintro _ ⟨⟩

theorem State.Canonical.firstDue {l} (hl : DuesKeep l) (h : s.Canonical) : ∀ t ∈ s.firstDue l, t.Canonical := by
  induction l with
  | nil => rintro _ ⟨⟩
  | cons d l ih =>
    obtain ⟨hd, hl⟩ := List.forall_mem_cons.mp hl
    unfold State.firstDue
    split
    · rename_i e
      rintro _ ⟨⟩
      exact .of_some e (State.Canonical.tryDue hd h)
    · exact ih hl

theorem Out.Canonical.auto (h : s.Canonical) : Out.Canonical s.auto := by
  unfold State.auto
  refine .ite (.next (.bringUp (.tick h))) ?_
  split
  · rename_i e
    exact .next (.of_some e (State.Canonical.firstDue
      (.append (.append (.append (.append .dueMemory .dueEngines) .dueScheduling) .dueSystem) .dueFabric) h))
  · split
    · exact .issueLane h
    · exact .next (.tick h)

theorem Out.Canonical.doMove {m} (h : s.Canonical) : Out.Canonical (s.doMove m) := by
  unfold State.doMove
  split
  · split
    · rename_i e1
      exact .next (.of_next e1 (.exec (.with h)))
    · exact .next h
  · exact .issueLane h
  · exact .next (.tick h)
  · exact .next (.evictLine h)
  · exact .message (.with h)
  · exact .auto h

theorem State.Canonical.takeMove (h : s.Canonical) : (s.takeMove).1.Canonical := by
  unfold State.takeMove
  split
  · exact h
  · exact .with h

theorem Out.Canonical.stateNext (h : s.Canonical) : Out.Canonical s.next := by
  unfold State.next
  refine .ite (.next (.takeMove h)) ?_
  split
  · rename_i e
    exact .next (.settle (.of_next e (.doMove (.takeMove h))))
  · exact trivial
  · exact trivial

/-! ### Step -/

theorem Out.Canonical.step (h : s.Canonical) : Out.Canonical (step s) := .stateNext h

/-- Settles O60: each operation of the state keeps both memories in canonical form, so each instruction and event does, and so does a step. -/
theorem memoriesKept : Obligations.MemoriesKept := by
  intro s t h e
  exact State.Canonical.of_next e (Out.Canonical.step h)

end Sys2Proof.Machine
end

section
/-!
# Integer division of vectors (O3)

An operation by element without rounding gives each active thread the elements that it computes, and FLAGS gain the flags of all of them
joined. For VDIV and VREM the codes and flags of one element are then compared with R81 on the exact readings.
-/
namespace Sys2Proof.Machine
open Sys2Proof

/-! ### Joined flags -/

/-- Joining one thing after another is joining each apart. -/
theorem foldl_or_or (l : List α) (g h : α → BitVec 6) (a b : BitVec 6) :
    l.foldl (fun c x => c ||| (g x ||| h x)) (a ||| b) = l.foldl (fun c x => c ||| g x) a ||| l.foldl (fun c x => c ||| h x) b := by
  induction l generalizing a b with
  | nil => rfl
  | cons x l ih =>
    have swap : a ||| b ||| (g x ||| h x) = (a ||| g x) ||| (b ||| h x) := by ac_rfl
    simp only [List.foldl_cons, swap]
    exact ih _ _

/-- Joining from a start is joining the start with the join from zero. -/
theorem foldl_or_start (l : List α) (g : α → BitVec 6) (a : BitVec 6) :
    l.foldl (fun c x => c ||| g x) a = a ||| l.foldl (fun c x => c ||| g x) 0 := by
  induction l generalizing a with
  | nil => simp
  | cons x l ih => simp only [List.foldl_cons]; rw [ih (a ||| g x), ih (0 ||| g x)]; simp [BitVec.or_assoc]

/-- Each element's flags joined into each thread's, and those into one. -/
theorem flagsOf_eq (m : Me) (n : Nat) (fl : Nat → Nat → BitVec 6) :
    Safety.flagsOf m n fl = (TMask.list m.em).foldl (fun a th => a ||| (List.range n).foldl (fun b j => b ||| fl th j) 0) 0 := by
  unfold Safety.flagsOf
  congr 1
  funext a th
  exact foldl_or_start _ _ _

/-- Elements that each set two kinds of flags set both kinds together. -/
theorem flagsOf_or (m : Me) (n : Nat) (f g : Nat → Nat → BitVec 6) :
    Safety.flagsOf m n (fun th j => f th j ||| g th j) = Safety.flagsOf m n f ||| Safety.flagsOf m n g := by
  have inner (th : Nat) : (List.range n).foldl (fun b j => b ||| (f th j ||| g th j)) 0 =
      (List.range n).foldl (fun b j => b ||| f th j) 0 ||| (List.range n).foldl (fun b j => b ||| g th j) 0 := foldl_or_or _ _ _ 0 0
  simp only [flagsOf_eq, inner]
  exact foldl_or_or _ _ _ 0 0

/-- A flag that elements set on a condition is set where the condition holds for an element of an active thread. -/
theorem flagsOf_ite (m : Me) (n : Nat) (fl : BitVec 6) (c : Nat → Nat → Bool) :
    Safety.flagsOf m n (fun th j => flagIf (c th j) fl) =
      if threads.any (fun th => TMask.has m.em th && (List.range n).any (fun j => c th j)) then fl else 0 := by
  have inner (th : Nat) : (List.range n).foldl (fun b j => b ||| flagIf (c th j) fl) 0 = if (List.range n).any (c th) then fl else 0 :=
    (foldl_or_flag _ _ fl (c th) (fun _ _ => rfl) 0).trans BitVec.zero_or
  have listed : (TMask.list m.em).any (fun th => (List.range n).any (c th)) =
      threads.any (fun th => TMask.has m.em th && (List.range n).any (c th)) := by
    unfold TMask.list
    rw [List.any_filter]
  simp only [flagsOf_eq, inner, ← listed]
  exact (foldl_or_flag _ _ fl (fun th => (List.range n).any (c th)) (fun _ _ => rfl) 0).trans BitVec.zero_or

/-! ### Operations by element that do not round -/

/-- What an operation by element gives for one element of a thread. -/
def elemResult (f : Safety.Form) (m : Me) (g : REnv → ETy → (Nat → Nat) → FRes) (th j : Nat) : FRes :=
  let ty := effET f.pfx m.st.mode
  g ⟨effRM f.pfx m.st.mode, effSat f.pfx m.st.mode, modeDnf m.st.mode, m.st.srs.get th⟩ ty (fun k => ty.elem (Safety.val f m ty k th) j)

/-- An operation by element that does not round: each element of an active thread's result is the code that the operation gives for it, and
the flags of all of them are set. -/
theorem VOp.byElem_gave {ok : ETy → Bool} (g : REnv → ETy → (Nat → Nat) → FRes) {f : Safety.Form} {s : State} {m : Me} {lit : W32} {len : Nat}
    {l : List (Sel × IncPos)} (hf : Safety.runs s m f (effET f.pfx m.st.mode) (effET f.pfx m.st.mode)) (hl : f.srcs = l.map Prod.fst)
    (hlit : f.lit = lit) (hlen : f.len = pfxLen f.pfx len) (hok : ok (effET f.pfx m.st.mode) = true) :
    let ty := effET f.pfx m.st.mode
    ∃ t res, runVec ((VOp.plain false ok (byElem false g)).vec f.pfx lit len f.n f.d l) s = .next t ∧
      Safety.gave s m f ty res (Safety.flagsOf m ty.count (fun th j => (elemResult f m g th j).flags)) false t ∧
      ∀ th, th < 8 → TMask.has m.em th = true → res th < 2 ^ ty.bits ∧
        ∀ j, j < ty.count → ty.elem (res th) j = (elemResult f m g th j).code % 2 ^ ty.width := by
  intro ty
  let element (th : Nat) (e : REnv) (j : Nat) : FRes := g e ty (fun k => ty.elem (Safety.val f m ty k th) j)
  let perThread (e : REnv) (th : Nat) : TRes := elemOp ty false e (element th)
  let env (th : Nat) : REnv := ⟨effRM f.pfx m.st.mode, effSat f.pfx m.st.mode, modeDnf m.st.mode, m.st.srs.get th⟩
  have keepsSrs (e : REnv) (th : Nat) : (perThread e th).srs = e.srs := by simp only [perThread, elemOp_false]
  obtain ⟨t, hrun, hgave⟩ := VOp.exec_gave (op := .plain false ok (byElem false g)) (lit := lit) (len := len) (l := l)
    (res := fun th => (perThread (env th) th).val) (rst := false) ty hf rfl rfl rfl hl hlit hlen (fun h => nomatch h) hok
    (VIn.lanes_vals (Safety.inputOf f s m ty) perThread) rfl rfl
    (fun _ => VIn.lanes_srs (Safety.inputOf f s m ty) perThread keepsSrs) (fun _ _ _ => elemOp_lt _ _ _)
  refine ⟨t, _, hrun, ?_, fun th _ _ => ⟨elemOp_lt _ _ _, fun j hj => elemOp_elem ty (env th) (element th) j hj⟩⟩
  have hflags : (byElem false g (Safety.inputOf f s m ty)).flags = Safety.flagsOf m ty.count (fun th j => (elemResult f m g th j).flags) := by
    refine (VIn.lanes_flags (Safety.inputOf f s m ty) perThread).trans ?_
    simp only [flagsOf_eq, perThread, elemOp_false]
    rfl
  rw [← hflags]
  exact hgave

/-! ### Codes and their readings -/

/-- A number read back from its code is the number, modulo the codes. -/
theorem ofSigned_toInt (ty : ETy) (a : Nat) : ofSigned ty.width (ty.toInt a) = a % 2 ^ ty.width := by
  have hmod : ty.toInt a % ((2 ^ ty.width : Nat) : Int) = ((a % 2 ^ ty.width : Nat) : Int) := by
    unfold ETy.toInt toSigned
    split
    · simp only
      split <;> simp
    · simp
  unfold ofSigned
  rw [hmod, Int.toNat_natCast]

/-- A code of a natural number that fits. -/
theorem ofSigned_natCast {w n : Nat} (h : n < 2 ^ w) : ofSigned w (n : Int) = n := by
  unfold ofSigned
  rw [← Int.natCast_emod, Int.toNat_natCast, Nat.mod_eq_of_lt h]

/-- The code of −1. -/
theorem ofSigned_neg_one (w : Nat) : ofSigned w (-1) = 2 ^ w - 1 := by
  have hpos := Nat.two_pow_pos w
  unfold ofSigned
  rw [Int.emod_eq_add_self_emod, Int.emod_eq_of_lt] <;> omega

/-- Codes are below the modulus. -/
theorem ofSigned_lt (w : Nat) (x : Int) : ofSigned w x < 2 ^ w := by
  have hpos := Nat.two_pow_pos w
  have := Int.emod_lt_of_pos x (b := ((2 ^ w : Nat) : Int)) (by omega)
  unfold ofSigned
  omega

/-- The code that the most negative value's opposite wraps to: the most negative value's own. -/
theorem ofSigned_neg_intMin {w : Nat} (hw : 0 < w) : ofSigned w (-intMin true w) = 2 ^ (w - 1) := by
  have htwo := Nat.two_pow_pred_add_two_pow_pred hw
  have hpos := Nat.two_pow_pos (w - 1)
  rw [intMin, if_pos rfl, Int.neg_neg, ofSigned_natCast (by omega)]

/-- The code of the most positive value. -/
theorem ofSigned_intMax {w : Nat} (hw : 0 < w) : ofSigned w (intMax true w) = 2 ^ (w - 1) - 1 := by
  have htwo := Nat.two_pow_pred_add_two_pow_pred hw
  have hpos := Nat.two_pow_pos (w - 1)
  have hcast : ((2 ^ (w - 1) : Nat) : Int) - 1 = ((2 ^ (w - 1) - 1 : Nat) : Int) := by omega
  rw [intMax, if_pos rfl, hcast, ofSigned_natCast (by omega)]

/-- An element reads as zero exactly where its code is zero. -/
theorem toInt_eq_zero (ty : ETy) (b : Nat) : ty.toInt b = 0 ↔ b % 2 ^ ty.width = 0 := by
  have := Nat.mod_lt b (Nat.two_pow_pos ty.width)
  unfold ETy.toInt toSigned
  split
  · simp only
    split <;> omega
  · omega

/-! ### One element of VDIV and VREM -/

/-- The one quotient that no element holds: the most negative value by −1. -/
def divOverflows (ty : ETy) (a b : Int) : Bool := ty.signed && decide (a = intMin ty.signed ty.width) && decide (b = -1)

/-- The quotient or remainder of R81. -/
def divValue (ty : ETy) (quot sat : Bool) (a b : Int) : Int :=
  if quot then (if b = 0 then -1 else if divOverflows ty a b && sat then intMax ty.signed ty.width else a.tdiv b)
  else (if b = 0 then a else a.tmod b)

/-- VDIV's element, or VREM's. -/
def divElem (quot : Bool) (e : REnv) (ty : ETy) (x : Nat → Nat) : FRes :=
  if quot then divCode ty.signed ty.width e.sat (x 0) (x 1) else remCode ty.signed ty.width (x 0) (x 1)

/-- An element of VDIV follows R81. -/
theorem divCode_eq (ty : ETy) (sat : Bool) (a b : Nat) :
    divCode ty.signed ty.width sat a b = ⟨ofSigned ty.width (divValue ty true sat (ty.toInt a) (ty.toInt b)),
      flagIf (decide (ty.toInt b = 0)) flDZ ||| flagIf (sat && divOverflows ty (ty.toInt a) (ty.toInt b)) flSA⟩ := by
  unfold divCode
  by_cases hb : b % 2 ^ ty.width = 0
  · have hb' := (toInt_eq_zero ty b).mpr hb
    simp [hb, hb', divValue, divOverflows, ofSigned_neg_one, flagIf]
  · have hb' : ty.toInt b ≠ 0 := fun h => hb ((toInt_eq_zero ty b).mp h)
    cases hs : ty.signed
    · have hq : ofSigned ty.width ((ty.toInt a).tdiv (ty.toInt b)) = a % 2 ^ ty.width / (b % 2 ^ ty.width) := by
        have hlt : a % 2 ^ ty.width / (b % 2 ^ ty.width) < 2 ^ ty.width :=
          Nat.lt_of_le_of_lt (Nat.div_le_self _ _) (Nat.mod_lt _ (Nat.two_pow_pos _))
        simp only [ETy.toInt, hs, Bool.false_eq_true, if_false]
        rw [← Int.ofNat_tdiv, ofSigned_natCast hlt]
      simp [hb, hb', hs, divValue, divOverflows, hq, flagIf]
    · have ha : ty.toInt a = toSigned ty.width a := by simp [ETy.toInt, hs]
      have hbi : ty.toInt b = toSigned ty.width b := by simp [ETy.toInt, hs]
      rw [hbi] at hb'
      rw [ha, hbi]
      by_cases ho : toSigned ty.width a = intMin true ty.width ∧ toSigned ty.width b = -1
      · obtain ⟨hx, hy⟩ := ho
        cases sat
        · simp [hb, hs, hx, hy, divValue, divOverflows, ofSigned_neg_intMin (ETy.width_pos ty), flagIf]
        · simp [hb, hs, hx, hy, divValue, divOverflows, ofSigned_intMax (ETy.width_pos ty), flagIf]
      · have ho' : divOverflows ty (toSigned ty.width a) (toSigned ty.width b) = false := by
          simpa [divOverflows, hs] using ho
        simp [hb, hb', divValue, ho', ho, flagIf]

/-- An element of VREM follows R81; it sets no flag for the quotient that overflows. -/
theorem remCode_eq (ty : ETy) (sat : Bool) (a b : Nat) :
    remCode ty.signed ty.width a b = ⟨ofSigned ty.width (divValue ty false sat (ty.toInt a) (ty.toInt b)),
      flagIf (decide (ty.toInt b = 0)) flDZ⟩ := by
  unfold remCode
  by_cases hb : b % 2 ^ ty.width = 0
  · have hb' := (toInt_eq_zero ty b).mpr hb
    simp [hb, hb', divValue, ofSigned_toInt, flagIf]
  · have hb' : ty.toInt b ≠ 0 := fun h => hb ((toInt_eq_zero ty b).mp h)
    cases hs : ty.signed
    · have hr : ofSigned ty.width ((ty.toInt a).tmod (ty.toInt b)) = a % 2 ^ ty.width % (b % 2 ^ ty.width) := by
        have hlt : a % 2 ^ ty.width % (b % 2 ^ ty.width) < 2 ^ ty.width :=
          Nat.lt_of_le_of_lt (Nat.mod_le _ _) (Nat.mod_lt _ (Nat.two_pow_pos _))
        simp only [ETy.toInt, hs, Bool.false_eq_true, if_false]
        rw [← Int.ofNat_tmod, ofSigned_natCast hlt]
      simp [hb, hb', divValue, hr, flagIf]
    · have hr : (ty.toInt a).tmod (ty.toInt b) = (toSigned ty.width a).tmod (toSigned ty.width b) := by simp [ETy.toInt, hs]
      simp [hb, hb', divValue, hr, flagIf]

/-- An element of either instruction, with R81's value and flags. -/
theorem divElem_eq (quot : Bool) (e : REnv) (ty : ETy) (x : Nat → Nat) :
    divElem quot e ty x = ⟨ofSigned ty.width (divValue ty quot e.sat (ty.toInt (x 0)) (ty.toInt (x 1))),
      flagIf (decide (ty.toInt (x 1) = 0)) flDZ ||| flagIf (quot && e.sat && divOverflows ty (ty.toInt (x 0)) (ty.toInt (x 1))) flSA⟩ := by
  cases quot
  · exact (remCode_eq ty e.sat _ _).trans (by simp [flagIf])
  · exact (divCode_eq ty e.sat _ _).trans (by simp)

/-- VDIV or VREM in any form. -/
theorem divElem_gave (quot : Bool) {f : Safety.Form} {s : State} {m : Me} {lit : W32} {len : Nat} {l : List (Sel × IncPos)}
    (hf : Safety.runs s m f (effET f.pfx m.st.mode) (effET f.pfx m.st.mode)) (hl : f.srcs = l.map Prod.fst)
    (hlit : f.lit = lit) (hlen : f.len = pfxLen f.pfx len) (hint : (effET f.pfx m.st.mode).isInt = true) :
    let ty := effET f.pfx m.st.mode
    let sat := effSat f.pfx m.st.mode
    let a (th j : Nat) : Int := ty.toInt (ty.elem (Safety.val f m ty 0 th) j)
    let b (th j : Nat) : Int := ty.toInt (ty.elem (Safety.val f m ty 1 th) j)
    let some_ (c : Nat → Nat → Bool) : Bool := threads.any (fun th => TMask.has m.em th && (List.range ty.count).any (fun j => c th j))
    ∃ t res, runVec ((VOp.plain false ETy.isInt (byElem false (divElem quot))).vec f.pfx lit len f.n f.d l) s = .next t ∧
      Safety.gave s m f ty res ((if some_ (fun th j => decide (b th j = 0)) then flDZ else 0) |||
        (if quot && sat && some_ (fun th j => divOverflows ty (a th j) (b th j)) then flSA else 0)) false t ∧
      ∀ th, th < 8 → TMask.has m.em th = true → res th < 2 ^ ty.bits ∧
        ∀ j, j < ty.count → ty.elem (res th) j = ofSigned ty.width (divValue ty quot sat (a th j) (b th j)) := by
  intro ty sat a b some_
  obtain ⟨t, res, hrun, hgave, hres⟩ := VOp.byElem_gave (divElem quot) hf hl hlit hlen hint
  have helem (th j : Nat) : elemResult f m (divElem quot) th j = ⟨ofSigned ty.width (divValue ty quot sat (a th j) (b th j)),
      flagIf (decide (b th j = 0)) flDZ ||| flagIf (quot && sat && divOverflows ty (a th j) (b th j)) flSA⟩ :=
    divElem_eq quot ⟨effRM f.pfx m.st.mode, sat, modeDnf m.st.mode, m.st.srs.get th⟩ ty (fun k => ty.elem (Safety.val f m ty k th) j)
  have hgate : Safety.flagsOf m ty.count (fun th j => flagIf (quot && sat && divOverflows ty (a th j) (b th j)) flSA) =
      if quot && sat && some_ (fun th j => divOverflows ty (a th j) (b th j)) then flSA else 0 := by
    rw [flagsOf_ite]
    cases quot && sat <;> simp [some_]
  refine ⟨t, res, hrun, ?_, fun th ht hm => ⟨(hres th ht hm).1, fun j hj => ?_⟩⟩
  · simp only [helem, flagsOf_or] at hgave
    rw [hgate, flagsOf_ite] at hgave
    exact hgave
  · rw [(hres th ht hm).2 j hj, helem, Nat.mod_eq_of_lt (ofSigned_lt _ _)]

/-- Settles O3: VDIV and VREM are operations by element that do not round, and each element follows R81. -/
theorem integerDivision : Obligations.IntegerDivision := by
  intro s m p o x ty lo e he hint hruns
  simp only [List.mem_cons, List.not_mem_nil, or_false] at he
  obtain rfl | rfl | rfl | rfl := he
  · exact divElem_gave true (l := [(o.a, .a), (o.b, .b)]) hruns rfl rfl rfl hint
  · exact divElem_gave true (l := [(x.a, .a), (x.b, .b)]) hruns rfl rfl rfl hint
  · exact divElem_gave false (l := [(o.a, .a), (o.b, .b)]) hruns rfl rfl rfl hint
  · exact divElem_gave false (l := [(x.a, .a), (x.b, .b)]) hruns rfl rfl rfl hint

end Sys2Proof.Machine
end

section
/-!
# Rounding (O11)

An exact magnitude lies between two neighbouring ranks of a format: `Pos.Spans` says so of the position that the model computes, with whole
numbers, and `Fmt.pos_spans` proves it of every format. What a mode chooses then follows from the position alone. Tininess compares the
magnitude, rounded without a lower end of the exponents, with the smallest normal; `Fmt.tiny_iff` states it of the magnitude itself.
-/
namespace Sys2Proof

/-! ### Powers of two -/

/-- A comparison of numbers of quanta does not depend on the common quantum. -/
theorem mul_two_pow_lt_iff {k t b a b' a' : Nat} (h : b + a' = a + b') : k * 2 ^ b < t * 2 ^ a ↔ k * 2 ^ b' < t * 2 ^ a' := by
  have left : k * 2 ^ b * 2 ^ a' = k * 2 ^ b' * 2 ^ a := by rw [Nat.mul_assoc, Nat.mul_assoc, ← Nat.pow_add, ← Nat.pow_add, h, Nat.add_comm a]
  have right : t * 2 ^ a * 2 ^ a' = t * 2 ^ a' * 2 ^ a := Nat.mul_right_comm _ _ _
  rw [← Nat.mul_lt_mul_right (Nat.two_pow_pos a'), left, right, Nat.mul_lt_mul_right (Nat.two_pow_pos a)]

/-! ### Splitting a magnitude -/

/-- Splitting in whole numbers: the quanta are counted in the finer of the two units. -/
theorem Mag.split_eq (x : Mag) (q : Int) :
    x.split q = ⟨x.man * 2 ^ (x.exp - q).toNat / 2 ^ (q - x.exp).toNat, x.man * 2 ^ (x.exp - q).toNat % 2 ^ (q - x.exp).toNat,
      2 ^ (q - x.exp).toNat, x.sticky⟩ := by
  unfold Mag.split
  split
  · have hb : (q - x.exp).toNat = 0 := by omega
    simp [hb, Nat.mod_one]
  · have ha : (x.exp - q).toNat = 0 := by omega
    simp [ha]

/-- A magnitude's first binary digit, counted in quanta, is the place above the fraction. -/
theorem split_lo_lt {k w : Nat} {x q : Int} (h : (k.log2 : Int) + x - w ≤ q) :
    k * 2 ^ (x - q).toNat / 2 ^ (q - x).toNat < 2 * 2 ^ w := by
  rw [Nat.div_lt_iff_lt_mul (Nat.two_pow_pos _)]
  calc k * 2 ^ (x - q).toNat < 2 ^ (k.log2 + 1) * 2 ^ (x - q).toNat := Nat.mul_lt_mul_of_pos_right Nat.lt_log2_self (Nat.two_pow_pos _)
    _ = 2 ^ (k.log2 + 1 + (x - q).toNat) := (Nat.pow_add _ _ _).symm
    _ ≤ 2 ^ (1 + w + (q - x).toNat) := Nat.pow_le_pow_right (by decide) (by omega)
    _ = 2 * 2 ^ w * 2 ^ (q - x).toNat := by rw [Nat.pow_add, Nat.pow_add, Nat.pow_one]

/-- Where the quantum is that of the binade, it is that place. -/
theorem le_split_lo {k w : Nat} {x q : Int} (hk : 0 < k) (h : q ≤ (k.log2 : Int) + x - w) :
    2 ^ w ≤ k * 2 ^ (x - q).toNat / 2 ^ (q - x).toNat := by
  rw [Nat.le_div_iff_mul_le (Nat.two_pow_pos _)]
  calc 2 ^ w * 2 ^ (q - x).toNat = 2 ^ (w + (q - x).toNat) := (Nat.pow_add _ _ _).symm
    _ ≤ 2 ^ (k.log2 + (x - q).toNat) := Nat.pow_le_pow_right (by decide) (by omega)
    _ = 2 ^ k.log2 * 2 ^ (x - q).toNat := Nat.pow_add _ _ _
    _ ≤ k * 2 ^ (x - q).toNat := Nat.mul_le_mul_right _ (Nat.log2_self_le (Nat.pos_iff_ne_zero.mp hk))

/-! ### Between two neighbours -/

/-- Whatever the mode, rounding chooses one of the two neighbours. -/
theorem Pos.round_eq_or (p : Pos) (rm : RMode) (neg : Bool) (srs : W32) : p.round rm neg srs = p.lo ∨ p.round rm neg srs = p.lo + 1 := by
  unfold Pos.round
  split
  · exact .inr rfl
  · exact .inl rfl

/-- Toward zero it is always the lower one. -/
theorem Pos.round_rtz (p : Pos) (neg : Bool) (srs : W32) : p.round .rtz neg srs = p.lo := by simp [Pos.round, roundsUp]

/-- In some common unit, `val` lies where the position says between the neighbours `low` and `high`. -/
structure Pos.Spans (p : Pos) (low val high : Nat) : Prop where
  scale  : ∃ c, 0 < c ∧ val = low + c * p.num ∧ high = low + c * p.den
  num_lt : p.num < p.den
  sharp  : p.sticky = false

namespace Pos.Spans
variable {p : Pos} {low val high : Nat} {neg : Bool} {srs : W32} {rm : RMode}

theorem low_le (h : p.Spans low val high) : low ≤ val := by
  obtain ⟨c, -, rfl, -⟩ := h.scale
  exact Nat.le_add_right _ _

theorem lt_high (h : p.Spans low val high) : val < high := by
  obtain ⟨c, hc, rfl, rfl⟩ := h.scale
  exact Nat.add_lt_add_left (Nat.mul_lt_mul_of_pos_left h.num_lt hc) _

/-- The value is exact where it is the lower neighbour. -/
theorem exact_iff (h : p.Spans low val high) : p.exact = true ↔ val = low := by
  obtain ⟨c, hc, rfl, -⟩ := h.scale
  simp only [Pos.exact, h.sharp, Bool.not_false, Bool.and_true, decide_eq_true_eq, Nat.add_eq_left, Nat.mul_eq_zero,
    Nat.pos_iff_ne_zero.mp hc, false_or]

/-- Twice the way from the lower neighbour, in the common unit. -/
theorem twice (h : p.Spans low val high) :
    ∃ c, 0 < c ∧ 2 * val = 2 * low + c * (2 * p.num) ∧ low + high = 2 * low + c * p.den := by
  obtain ⟨c, hc, rfl, rfl⟩ := h.scale
  exact ⟨c, hc, by rw [Nat.mul_add, Nat.mul_left_comm], by omega⟩

theorem below_half_iff (h : p.Spans low val high) : 2 * val < low + high ↔ 2 * p.num < p.den := by
  obtain ⟨c, hc, e1, e2⟩ := h.twice
  rw [e1, e2, Nat.add_lt_add_iff_left, Nat.mul_lt_mul_left hc]

theorem above_half_iff (h : p.Spans low val high) : low + high < 2 * val ↔ p.den < 2 * p.num := by
  obtain ⟨c, hc, e1, e2⟩ := h.twice
  rw [e1, e2, Nat.add_lt_add_iff_left, Nat.mul_lt_mul_left hc]

theorem half_iff (h : p.Spans low val high) : 2 * val = low + high ↔ 2 * p.num = p.den := by
  obtain ⟨c, hc, e1, e2⟩ := h.twice
  rw [e1, e2, Nat.add_left_cancel_iff, Nat.mul_right_inj (Nat.pos_iff_ne_zero.mp hc)]

/-- The 16 discarded bits do not depend on the unit. -/
theorem discarded (h : p.Spans low val high) : (val - low) * 2 ^ 16 / (high - low) = p.num * 2 ^ 16 / p.den := by
  obtain ⟨c, hc, rfl, rfl⟩ := h.scale
  rw [Nat.add_sub_cancel_left, Nat.add_sub_cancel_left, Nat.mul_assoc, Nat.mul_div_mul_left _ _ hc]

/-! #### What each mode chooses (Table 4.7) -/

theorem round_exact (h : p.Spans low val high) (hv : val = low) : p.round rm neg srs = p.lo := by
  simp [Pos.round, roundsUp, h.exact_iff.mpr hv]

theorem round_rup (h : p.Spans low val high) (hv : val ≠ low) : p.round .rup neg srs = if neg then p.lo else p.lo + 1 := by
  have hx := Bool.eq_false_iff.mpr (mt h.exact_iff.mp hv)
  cases neg <;> simp [Pos.round, roundsUp, hx]

theorem round_rdn (h : p.Spans low val high) (hv : val ≠ low) : p.round .rdn neg srs = if neg then p.lo + 1 else p.lo := by
  have hx := Bool.eq_false_iff.mpr (mt h.exact_iff.mp hv)
  cases neg <;> simp [Pos.round, roundsUp, hx]

theorem round_nearest_low (h : p.Spans low val high) (hm : rm = .rne ∨ rm = .rna) (hv : 2 * val < low + high) :
    p.round rm neg srs = p.lo := by
  have hn := h.below_half_iff.mp hv
  rcases hm with rfl | rfl <;> simp [Pos.round, roundsUp, show ¬ p.den < 2 * p.num by omega, show ¬ 2 * p.num = p.den by omega, hn]

theorem round_nearest_high (h : p.Spans low val high) (hm : rm = .rne ∨ rm = .rna) (hv : low + high < 2 * val) :
    p.round rm neg srs = p.lo + 1 := by
  have hn := h.above_half_iff.mp hv
  have hx : p.exact = false := by simp [Pos.exact]; omega
  rcases hm with rfl | rfl <;> simp [Pos.round, roundsUp, hx, hn, Nat.le_of_lt hn]

/-- Half way is not exact. -/
theorem exact_of_half (h : p.Spans low val high) (hv : 2 * val = low + high) : p.exact = false := by
  have hn := h.half_iff.mp hv
  have hlt := h.num_lt
  simp [Pos.exact]
  omega

theorem round_rne_tie (h : p.Spans low val high) (hv : 2 * val = low + high) : p.round .rne neg srs = p.lo + p.lo % 2 := by
  have hn := h.half_iff.mp hv
  rcases Nat.mod_two_eq_zero_or_one p.lo with ho | ho <;> simp [Pos.round, roundsUp, h.exact_of_half hv, hn, h.sharp, ho]

theorem round_rna_tie (h : p.Spans low val high) (hv : 2 * val = low + high) : p.round .rna neg srs = p.lo + 1 := by
  simp [Pos.round, roundsUp, h.exact_of_half hv, h.half_iff.mp hv]

theorem round_rst (h : p.Spans low val high) (hv : val ≠ low) :
    p.round .rst neg srs = if srs.toNat % 2 ^ 16 < (val - low) * 2 ^ 16 / (high - low) then p.lo + 1 else p.lo := by
  have hx := Bool.eq_false_iff.mpr (mt h.exact_iff.mp hv)
  rw [h.discarded]
  simp [Pos.round, roundsUp, hx]

end Pos.Spans

/-! ### The magnitudes of ranks -/

/-- The exponent of a unit that every magnitude of a format is a multiple of. -/
def Fmt.unitExp (f : Fmt) : Int := if f = .dm8 then -25 else f.minExp

/-- The magnitude of a rank in that unit, as its code decodes. -/
def Fmt.rankUnits (f : Fmt) (r : Nat) : Nat :=
  match f.decode (f.rankCode false r) with | .fin _ a y => a * 2 ^ (y - f.unitExp).toNat | _ => 0

theorem Fmt.specials_dm8_iff {f : Fmt} : f.specials = .dm8 ↔ f = .dm8 := by cases f <;> decide

/-- The ranks are codes below the sign bit. -/
theorem Fmt.maxRank_lt (f : Fmt) : f.maxRank < 2 ^ (f.width - 1) := by cases f <;> decide

/-- A format's subnormals are finite, and so are some normals. -/
theorem Fmt.two_pow_frac_le (f : Fmt) : 2 ^ f.frac ≤ f.maxRank := by cases f <;> decide

theorem Fmt.rankCode_false {f : Fmt} (hf : f ≠ .dm8) (r : Nat) : f.rankCode false r = r := by
  unfold Fmt.rankCode Fmt.zeroCode Fmt.signBit Fmt.codeOfRank
  split
  · simp [*]
  · cases f with
    | dm8 => exact absurd rfl hf
    | _ => exact Nat.zero_add r

/-- What the code of a finite rank decodes to (R64). -/
theorem Fmt.decode_rank {f : Fmt} (hf : f ≠ .dm8) {r : Nat} (hr : r ≤ f.maxRank) :
    f.decode r = if r = 0 then .zero false else if r / 2 ^ f.frac = 0 then .fin false (r % 2 ^ f.frac) f.minExp
      else .fin false (r % 2 ^ f.frac + 2 ^ f.frac) (f.minExp + ((r / 2 ^ f.frac : Nat) : Int) - 1) := by
  have hlt : r < 2 ^ (f.width - 1) := Nat.lt_of_le_of_lt hr f.maxRank_lt
  have hc : r % 2 ^ f.width = r := Nat.mod_eq_of_lt (Nat.lt_of_lt_of_le hlt (Nat.pow_le_pow_right (by decide) (Nat.sub_le _ _)))
  have hs : ¬ r / 2 ^ (f.width - 1) = 1 := by rw [Nat.div_eq_of_lt hlt]; decide
  have hsp : f.specials ≠ .dm8 := mt Fmt.specials_dm8_iff.mp hf
  unfold Fmt.decode
  cases h : f.specials <;> simp [hc, hs, Nat.mod_eq_of_lt hlt, Nat.not_lt.mpr hr, h] at hsp ⊢

/-- The magnitude of a rank, from its exponent and fraction fields. -/
theorem Fmt.rankUnits_fields {f : Fmt} (hf : f ≠ .dm8) {r : Nat} (hr : r ≤ f.maxRank) :
    f.rankUnits r = if r / 2 ^ f.frac = 0 then r % 2 ^ f.frac else (r % 2 ^ f.frac + 2 ^ f.frac) * 2 ^ (r / 2 ^ f.frac - 1) := by
  unfold Fmt.rankUnits
  rw [Fmt.rankCode_false hf, Fmt.decode_rank hf hr, Fmt.unitExp, if_neg hf]
  by_cases h0 : r = 0
  · simp [h0]
  · by_cases he : r / 2 ^ f.frac = 0
    · simp [h0, he]
    · have hexp : (f.minExp + ((r / 2 ^ f.frac : Nat) : Int) - 1 - f.minExp).toNat = r / 2 ^ f.frac - 1 := by omega
      simp only [h0, he, if_false, hexp]

/-- The magnitude of the rank that stands `m` quanta up in binade `i`, the upper end of the binade included. -/
theorem Fmt.rankUnits_binade {f : Fmt} (hf : f ≠ .dm8) {i m : Nat} (hr : i * 2 ^ f.frac + m ≤ f.maxRank) (hm : m ≤ 2 * 2 ^ f.frac)
    (hi : i = 0 ∨ 2 ^ f.frac ≤ m) : f.rankUnits (i * 2 ^ f.frac + m) = m * 2 ^ i := by
  have hF := Nat.two_pow_pos f.frac
  rw [Fmt.rankUnits_fields hf hr, Nat.mul_add_mod_self_right, Nat.add_comm (i * _), Nat.add_mul_div_right _ _ hF]
  generalize 2 ^ f.frac = F at *
  by_cases h1 : m < F
  · obtain rfl : i = 0 := by omega
    simp [Nat.div_eq_of_lt h1, Nat.mod_eq_of_lt h1]
  · by_cases h2 : m = 2 * F
    · subst h2
      rw [Nat.mul_mod_left, Nat.mul_div_cancel _ hF, if_neg (by omega), show 2 + i - 1 = i + 1 by omega, Nat.pow_succ, Nat.zero_add]
      ac_rfl
    · have hd : m / F = 1 := Nat.div_eq_of_lt_le (by omega) (by omega)
      have hmod : m % F = m - F := by rw [Nat.mod_eq_sub_mod (by omega), Nat.mod_eq_of_lt (by omega)]
      rw [hd, hmod, if_neg (by omega), show 1 + i - 1 = i by omega, Nat.sub_add_cancel (by omega)]

/-- In DM8 the model's own table of magnitudes agrees with the decoder. -/
theorem rankUnits_dm8 {r : Nat} (hr : r ≤ 126) : Fmt.dm8.rankUnits r = dm8Units r := by
  revert r
  decide +kernel

/-- The rank that the search gives is the greatest one that is not above. -/
theorem dm8RankLe_spec (u n : Nat) :
    dm8Units (dm8RankLe u n) ≤ u ∧ (dm8RankLe u n < n → u < dm8Units (dm8RankLe u n + 1)) ∧ dm8RankLe u n ≤ n := by
  induction n with
  | zero => exact ⟨Nat.zero_le _, fun h => absurd h (Nat.lt_irrefl _), Nat.le_refl _⟩
  | succ n ih =>
    obtain ⟨ihle, ihlt, ihn⟩ := ih
    unfold dm8RankLe
    split
    · next h => exact ⟨h, fun hlt => absurd hlt (Nat.lt_irrefl _), Nat.le_refl _⟩
    · next h =>
      refine ⟨ihle, fun _ => ?_, Nat.le_succ_of_le ihn⟩
      rcases Nat.lt_or_eq_of_le ihn with hlt | heq
      · exact ihlt hlt
      · rw [heq]; exact Nat.lt_of_not_le h

/-! ### The position of a magnitude -/

/-- The position in a format with exponents. -/
theorem Fmt.pos_eq {f : Fmt} (hf : f ≠ .dm8) (x : Mag) :
    f.pos x = { x.split (f.quantum false x) with
      lo := (f.quantum false x - f.minExp).toNat * 2 ^ f.frac + (x.split (f.quantum false x)).lo } := by
  cases f with
  | dm8 => exact absurd rfl hf
  | _ => rfl

/-- In a format with exponents a magnitude lies between the magnitudes of the two ranks of its position. -/
theorem Fmt.pos_spans_exponents {f : Fmt} (hf : f ≠ .dm8) {k : Nat} {x : Int} (hk : 0 < k) (hlo : (f.pos ⟨k, x, false⟩).lo + 1 ≤ f.maxRank) :
    (f.pos ⟨k, x, false⟩).Spans (2 * f.rankUnits (f.pos ⟨k, x, false⟩).lo * 2 ^ (f.unitExp - x).toNat) (2 * k * 2 ^ (x - f.unitExp).toNat)
      (2 * f.rankUnits ((f.pos ⟨k, x, false⟩).lo + 1) * 2 ^ (f.unitExp - x).toNat) := by
  rw [Fmt.pos_eq hf] at hlo ⊢
  rw [Mag.split_eq] at hlo ⊢
  have hq : f.quantum false ⟨k, x, false⟩ = max ((k.log2 : Int) + x - f.frac) f.minExp := rfl
  generalize f.quantum false ⟨k, x, false⟩ = q at *
  simp only at hlo ⊢
  generalize hi : (q - f.minExp).toNat = i at *
  have hup : k * 2 ^ (x - q).toNat / 2 ^ (q - x).toNat < 2 * 2 ^ f.frac := split_lo_lt (by omega)
  have hdown : i = 0 ∨ 2 ^ f.frac ≤ k * 2 ^ (x - q).toNat / 2 ^ (q - x).toNat := by
    rcases Int.le_total q f.minExp with h | h
    · exact .inl (by omega)
    · rcases Int.lt_or_eq_of_le h with h | h
      · exact .inr (le_split_lo hk (by omega))
      · exact .inl (by omega)
  have hdiv := Nat.div_add_mod (k * 2 ^ (x - q).toNat) (2 ^ (q - x).toNat)
  have hmod := Nat.mod_lt (k * 2 ^ (x - q).toNat) (Nat.two_pow_pos (q - x).toNat)
  generalize k * 2 ^ (x - q).toNat / 2 ^ (q - x).toNat = lo at *
  generalize k * 2 ^ (x - q).toNat % 2 ^ (q - x).toNat = num at *
  rw [Nat.add_assoc] at hlo
  rw [Nat.add_assoc, Fmt.rankUnits_binade hf (by omega) (by omega) hdown,
    Fmt.rankUnits_binade hf hlo (by omega) (hdown.imp_right (by omega)), Fmt.unitExp, if_neg hf]
  have hnum : 2 ^ (min q x - f.minExp).toNat * 2 ^ (x - q).toNat = 2 ^ (x - f.minExp).toNat := by
    rw [← Nat.pow_add]; congr 1; omega
  have hden : 2 ^ (min q x - f.minExp).toNat * 2 ^ (q - x).toNat = 2 ^ i * 2 ^ (f.minExp - x).toNat := by
    rw [← Nat.pow_add, ← Nat.pow_add]; congr 1; omega
  refine ⟨⟨2 * 2 ^ (min q x - f.minExp).toNat, Nat.mul_pos (by decide) (Nat.two_pow_pos _), ?_, ?_⟩, hmod, rfl⟩
  · calc 2 * k * 2 ^ (x - f.minExp).toNat = 2 * 2 ^ (min q x - f.minExp).toNat * (k * 2 ^ (x - q).toNat) := by rw [← hnum]; ac_rfl
      _ = 2 * lo * (2 ^ (min q x - f.minExp).toNat * 2 ^ (q - x).toNat) + 2 * 2 ^ (min q x - f.minExp).toNat * num := by
        rw [← hdiv, Nat.mul_add]; ac_rfl
      _ = 2 * (lo * 2 ^ i) * 2 ^ (f.minExp - x).toNat + 2 * 2 ^ (min q x - f.minExp).toNat * num := by rw [hden]; ac_rfl
  · calc 2 * ((lo + 1) * 2 ^ i) * 2 ^ (f.minExp - x).toNat
        = 2 * (lo * 2 ^ i) * 2 ^ (f.minExp - x).toNat + 2 * (2 ^ i * 2 ^ (f.minExp - x).toNat) := by
          rw [Nat.succ_mul lo, Nat.mul_add, Nat.add_mul, Nat.mul_assoc 2 (2 ^ i)]
      _ = 2 * (lo * 2 ^ i) * 2 ^ (f.minExp - x).toNat + 2 * 2 ^ (min q x - f.minExp).toNat * 2 ^ (q - x).toNat := by
        rw [← hden]; ac_rfl

/-- The position in DM8, in units of the finer of the magnitude's own and 2^−25. -/
theorem dm8_pos_eq (k : Nat) (x : Int) :
    Fmt.dm8.pos ⟨k, x, false⟩ =
      let u := k * 2 ^ (x - -25).toNat
      let scale := 2 ^ (-25 - x).toNat
      let r := dm8RankLe (u / scale) 127
      if r = 127 then ⟨127, 0, 1, false⟩ else ⟨r, u - dm8Units r * scale, dm8Units (r + 1) * scale - dm8Units r * scale, false⟩ := by
  unfold Fmt.pos dm8Pos
  by_cases h : x < -25
  · have hb : (x - -25).toNat = 0 := by omega
    simp only [h, if_true, hb, Nat.pow_zero, Nat.mul_one]
  · have ha : (-25 - x).toNat = 0 := by omega
    simp only [h, if_false, ha, Int.sub_neg]

/-- In DM8 too a magnitude lies between the magnitudes of the two ranks of its position. -/
theorem dm8_pos_spans {k : Nat} {x : Int} (hlo : (Fmt.dm8.pos ⟨k, x, false⟩).lo + 1 ≤ 126) :
    (Fmt.dm8.pos ⟨k, x, false⟩).Spans (2 * dm8Units (Fmt.dm8.pos ⟨k, x, false⟩).lo * 2 ^ (-25 - x).toNat) (2 * k * 2 ^ (x - -25).toNat)
      (2 * dm8Units ((Fmt.dm8.pos ⟨k, x, false⟩).lo + 1) * 2 ^ (-25 - x).toNat) := by
  rw [dm8_pos_eq] at hlo ⊢
  simp only [Nat.mul_assoc] at hlo ⊢
  have hscale := Nat.two_pow_pos (-25 - x).toNat
  generalize 2 ^ (-25 - x).toNat = scale at *
  generalize k * 2 ^ (x - -25).toNat = u at *
  obtain ⟨hle, hlt, hbound⟩ := dm8RankLe_spec (u / scale) 127
  generalize dm8RankLe (u / scale) 127 = r at *
  by_cases hr : r = 127
  · rw [if_pos hr] at hlo
    exact absurd hlo (by decide)
  · have below : dm8Units r * scale ≤ u := (Nat.le_div_iff_mul_le hscale).mp hle
    have above : u < dm8Units (r + 1) * scale := (Nat.div_lt_iff_lt_mul hscale).mp (hlt (by omega))
    rw [if_neg hr]
    exact ⟨⟨2, by decide, by simp only; omega, by simp only; omega⟩, by simp only; omega, rfl⟩

/-- A magnitude lies between the magnitudes of the two ranks of its position, up to the largest finite one (R74). -/
theorem Fmt.pos_spans (f : Fmt) {k : Nat} {x : Int} (hk : 0 < k) (hlo : (f.pos ⟨k, x, false⟩).lo + 1 ≤ f.maxRank) :
    (f.pos ⟨k, x, false⟩).Spans (2 * f.rankUnits (f.pos ⟨k, x, false⟩).lo * 2 ^ (f.unitExp - x).toNat) (2 * k * 2 ^ (x - f.unitExp).toNat)
      (2 * f.rankUnits ((f.pos ⟨k, x, false⟩).lo + 1) * 2 ^ (f.unitExp - x).toNat) := by
  by_cases hf : f = .dm8
  · subst hf
    have hmax : (Fmt.dm8.pos ⟨k, x, false⟩).lo + 1 ≤ 126 := hlo
    rw [rankUnits_dm8 (Nat.le_of_succ_le hmax), rankUnits_dm8 hmax]
    exact dm8_pos_spans hmax
  · exact Fmt.pos_spans_exponents hf hk hlo

/-! ### Tininess (R65) -/

/-- The magnitude X, in units of which the smallest normal is F × T, would round below that normal without a lower end of the exponents:
it is below the last value of the binade beneath from which a mode rounds up to the normal. RST is not meant. -/
def belowNormal (rm : RMode) (neg : Bool) (F X T : Nat) : Prop :=
  match rm with
  | .rtz => 4 * X < 4 * F * T
  | .rup => if neg then 4 * X < 4 * F * T else 4 * X ≤ 2 * (2 * F - 1) * T
  | .rdn => if neg then 4 * X ≤ 2 * (2 * F - 1) * T else 4 * X < 4 * F * T
  | _ => 4 * X < 1 * (4 * F - 1) * T

/-- A comparison does not depend on the unit. -/
theorem mul_lt_mul_of_ratio {X T X' T' n t : Nat} (h : X * T' = X' * T) (hT : 0 < T) (hT' : 0 < T') :
    n * X < t * T ↔ n * X' < t * T' := by
  have left : n * X * T' = n * X' * T := by rw [Nat.mul_assoc, h, Nat.mul_assoc]
  rw [← Nat.mul_lt_mul_right hT', left, Nat.mul_right_comm t, Nat.mul_lt_mul_right hT]

/-- Nor does it the other way round. -/
theorem mul_le_mul_of_ratio {X T X' T' n t : Nat} (h : X * T' = X' * T) (hT : 0 < T) (hT' : 0 < T') :
    n * X ≤ t * T ↔ n * X' ≤ t * T' := by
  have left : n * X * T' = n * X' * T := by rw [Nat.mul_assoc, h, Nat.mul_assoc]
  rw [← Nat.mul_le_mul_right_iff hT', left, Nat.mul_right_comm t, Nat.mul_le_mul_right_iff hT]

/-- Nor does tininess. -/
theorem belowNormal_ratio {rm : RMode} {neg : Bool} {F X T X' T' : Nat} (h : X * T' = X' * T) (hT : 0 < T) (hT' : 0 < T') :
    belowNormal rm neg F X T ↔ belowNormal rm neg F X' T' := by
  cases rm <;> cases neg <;> simp only [belowNormal, mul_lt_mul_of_ratio h hT hT', mul_le_mul_of_ratio h hT hT']

/-- What tininess compares four times the magnitude with, in multiples of the normal and of the unit. -/
theorem belowNormal_iff {rm : RMode} {neg : Bool} {F X T : Nat} (hF : 0 < F) :
    belowNormal rm neg F X T ↔ match rm with
      | .rtz => X < F * T
      | .rup => if neg then X < F * T else 2 * X + T ≤ 2 * (F * T)
      | .rdn => if neg then 2 * X + T ≤ 2 * (F * T) else X < F * T
      | _ => 4 * X + T < 4 * (F * T) := by
  have whole : 4 * F * T = 4 * (F * T) := Nat.mul_assoc _ _ _
  have step : 2 * (2 * F - 1) * T + 2 * T = 4 * (F * T) := by
    rw [← Nat.add_mul, show 2 * (2 * F - 1) + 2 = 4 * F by omega, whole]
  have half : 1 * (4 * F - 1) * T + T = 4 * (F * T) := by
    rw [← Nat.succ_mul, show (1 * (4 * F - 1)).succ = 4 * F by omega, whole]
  cases rm <;> cases neg <;> simp only [belowNormal, if_true, Bool.false_eq_true, if_false] <;> omega

/-- A magnitude of the normal or above is not tiny. -/
theorem not_belowNormal {rm : RMode} {neg : Bool} {F X T : Nat} (hF : 0 < F) (hT : 0 < T) (h : F * T ≤ X) : ¬ belowNormal rm neg F X T := by
  rw [belowNormal_iff hF]
  cases rm <;> cases neg <;> simp only [if_true, Bool.false_eq_true, if_false] <;> omega

/-- A magnitude below half the normal is tiny. -/
theorem belowNormal_of_half {rm : RMode} {neg : Bool} {F X T : Nat} (hF : 0 < F) (h : 2 * X < F * T) : belowNormal rm neg F X T := by
  have hT : T ≤ F * T := Nat.le_mul_of_pos_left T hF
  rw [belowNormal_iff hF]
  cases rm <;> cases neg <;> simp only [if_true, Bool.false_eq_true, if_false] <;> omega

/-- In the binade beneath the normal a magnitude is tiny where it does not round up to the normal. -/
theorem belowNormal_binade {rm : RMode} {neg : Bool} {srs : W32} {F : Nat} {p : Pos} (hrst : rm ≠ .rst) (hF : 0 < F) (hs : p.sticky = false)
    (hnum : p.num < p.den) (hlo : p.lo < 2 * F) :
    belowNormal rm neg F (p.den * p.lo + p.num) (p.den * 2) ↔ p.round rm neg srs < 2 * F := by
  rw [belowNormal_iff hF, Nat.mul_comm p.den 2, Nat.mul_left_comm F]
  by_cases hlast : p.lo + 1 < 2 * F
  · have hroom : p.den * p.lo + 2 * p.den ≤ 2 * (F * p.den) :=
      calc p.den * p.lo + 2 * p.den = p.den * (p.lo + 2) := by rw [Nat.mul_add, Nat.mul_comm 2]
        _ ≤ p.den * (2 * F) := Nat.mul_le_mul_left _ hlast
        _ = 2 * (F * p.den) := by ac_rfl
    have hround : p.round rm neg srs < 2 * F := by rcases p.round_eq_or rm neg srs with h | h <;> rw [h] <;> omega
    simp only [hround, iff_true]
    cases rm <;> cases neg <;> simp only [if_true, Bool.false_eq_true, if_false] <;> omega
  · have hodd : p.lo % 2 = 1 := by omega
    have hroom : p.den * p.lo + p.den = 2 * (F * p.den) := by
      rw [← Nat.mul_succ, show p.lo.succ = 2 * F by omega]; ac_rfl
    have hup : p.round rm neg srs < 2 * F ↔ roundsUp rm neg srs p = false := by
      unfold Pos.round
      cases roundsUp rm neg srs p <;> simp <;> omega
    rw [hup]
    unfold roundsUp
    cases rm <;> cases neg <;> simp [Pos.exact, hs, hodd] at hrst ⊢ <;> omega

/-- A magnitude split at the quantum of its own binade rounds to less than the normal exactly where it is tiny. -/
theorem belowNormal_iff_round {rm : RMode} {neg : Bool} {srs : W32} {w i j : Nat} {p : Pos} (hrst : rm ≠ .rst) (hs : p.sticky = false)
    (hnum : p.num < p.den) (hlo : 2 ^ w ≤ p.lo) (hhi : p.lo < 2 * 2 ^ w) (hij : i = 0 ∨ j = 0) :
    belowNormal rm neg (2 ^ w) ((p.den * p.lo + p.num) * 2 ^ i) (p.den * 2 ^ j) ↔ p.round rm neg srs * 2 ^ i < 2 ^ w * 2 ^ j := by
  have hF := Nat.two_pow_pos w
  have hden : 0 < p.den := Nat.zero_lt_of_lt hnum
  have hround : p.lo ≤ p.round rm neg srs ∧ p.round rm neg srs ≤ p.lo + 1 := by
    rcases p.round_eq_or rm neg srs with h | h <;> rw [h] <;> omega
  generalize 2 ^ w = F at *
  rcases j with - | - | j
  · have hi := Nat.two_pow_pos i
    have hX : F * p.den ≤ (p.den * p.lo + p.num) * 2 ^ i :=
      calc F * p.den ≤ p.den * p.lo + p.num := by rw [Nat.mul_comm]; exact Nat.le_add_right_of_le (Nat.mul_le_mul_left _ hlo)
        _ ≤ _ := Nat.le_mul_of_pos_right _ hi
    have hr : F ≤ p.round rm neg srs * 2 ^ i := Nat.le_trans (Nat.le_trans hlo hround.1) (Nat.le_mul_of_pos_right _ hi)
    simp only [Nat.pow_zero, Nat.mul_one]
    exact iff_of_false (not_belowNormal hF hden hX) (Nat.not_lt.mpr hr)
  · obtain rfl : i = 0 := by omega
    simp only [Nat.pow_zero, Nat.mul_one, Nat.zero_add, Nat.pow_one, Nat.mul_comm F 2]
    exact belowNormal_binade hrst hF hs hnum hhi
  · obtain rfl : i = 0 := by omega
    have hj : 4 ≤ 2 ^ (j + 1 + 1) := by rw [Nat.pow_succ, Nat.pow_succ]; have := Nat.two_pow_pos j; omega
    have hX : 2 * (p.den * p.lo + p.num) < F * (p.den * 2 ^ (j + 1 + 1)) :=
      calc 2 * (p.den * p.lo + p.num) < 2 * (p.den * (p.lo + 1)) := by rw [Nat.mul_succ]; omega
        _ ≤ 2 * (p.den * (2 * F)) := Nat.mul_le_mul_left _ (Nat.mul_le_mul_left _ hhi)
        _ = F * (p.den * 4) := by rw [show 4 = 2 * 2 from rfl]; ac_rfl
        _ ≤ _ := Nat.mul_le_mul_left _ (Nat.mul_le_mul_left _ hj)
    have hr : p.round rm neg srs < F * 2 ^ (j + 1 + 1) :=
      Nat.lt_of_lt_of_le (show p.round rm neg srs < F * 4 by omega) (Nat.mul_le_mul_left _ hj)
    simp only [Nat.pow_zero, Nat.mul_one]
    exact iff_of_true (belowNormal_of_half hF hX) hr

/-- UF's condition, stated of the magnitude itself. -/
theorem Fmt.tiny_iff (f : Fmt) {e : REnv} {neg : Bool} {k : Nat} {x : Int} (hk : 0 < k) (hrst : e.rm ≠ .rst) :
    f.tiny e neg ⟨k, x, false⟩ = true ↔
      belowNormal e.rm neg (2 ^ f.frac) (k * 2 ^ (x - f.minExp).toNat) (2 ^ (f.minExp - x).toNat) := by
  have hq : f.quantum true ⟨k, x, false⟩ = (k.log2 : Int) + x - f.frac := rfl
  simp only [Fmt.tiny, magLe]
  generalize f.quantum true ⟨k, x, false⟩ = q at *
  have hlo := le_split_lo hk (Int.le_of_eq hq)
  have hhi := split_lo_lt (k := k) (Int.le_of_eq hq.symm)
  have hdiv := Nat.div_add_mod (k * 2 ^ (x - q).toNat) (2 ^ (q - x).toNat)
  have hmod := Nat.mod_lt (k * 2 ^ (x - q).toNat) (Nat.two_pow_pos (q - x).toNat)
  have hp : (Mag.mk k x false).split q =
      ⟨k * 2 ^ (x - q).toNat / 2 ^ (q - x).toNat, k * 2 ^ (x - q).toNat % 2 ^ (q - x).toNat, 2 ^ (q - x).toNat, false⟩ := Mag.split_eq _ _
  generalize (Mag.mk k x false).split q = p at *
  have hround := belowNormal_iff_round (p := p) (neg := neg) (srs := e.srs) (w := f.frac) (i := (q - f.minExp).toNat) (j := (f.minExp - q).toNat)
    hrst (by rw [hp]) (by rw [hp]; exact hmod) (by rw [hp]; exact hlo) (by rw [hp]; exact hhi) (by omega)
  have hscale : k * 2 ^ (x - f.minExp).toNat * (p.den * 2 ^ (f.minExp - q).toNat) =
      (p.den * p.lo + p.num) * 2 ^ (q - f.minExp).toNat * 2 ^ (f.minExp - x).toNat := by
    rw [hp]
    simp only [hdiv]
    simp only [Nat.mul_assoc, ← Nat.pow_add]
    congr 2
    omega
  have hden : 0 < p.den := by rw [hp]; exact Nat.two_pow_pos _
  rw [belowNormal_ratio hscale (Nat.two_pow_pos _) (Nat.mul_pos hden (Nat.two_pow_pos _)), hround, ← Nat.pow_add]
  simp only [Bool.not_eq_true', decide_eq_false_iff_not, Nat.not_le]
  rw [mul_two_pow_lt_iff (a' := f.frac + (f.minExp - q).toNat) (b' := (q - f.minExp).toNat) (by omega), Nat.one_mul]

/-! ### What is delivered -/

/-- Overflow delivers the same whatever DNF says. -/
theorem Fmt.deliver_overflow (f : Fmt) {e : REnv} {neg : Bool} {x : Mag} (h : f.maxRank < (f.pos x).round e.rm neg e.srs) :
    f.deliver e neg x = f.overflow e neg := by
  simp only [Fmt.deliver]
  exact if_pos h

/-- Without DNF and overflow: the rounded rank, with IX where it is not exact and UF where it is tiny too. -/
theorem Fmt.deliver_rounded (f : Fmt) {e : REnv} {neg : Bool} {x : Mag} (hd : e.dnf = false) (h : (f.pos x).round e.rm neg e.srs ≤ f.maxRank) :
    f.deliver e neg x = ⟨f.rankCode neg ((f.pos x).round e.rm neg e.srs),
      if (f.pos x).exact then 0
      else flIX ||| flagIf (if f = .dm8 then decide ((f.pos x).round e.rm neg e.srs = 0) else f.tiny e neg x) flUF⟩ := by
  simp only [Fmt.deliver]
  rw [if_neg (Nat.not_lt.mpr h)]
  cases (f.pos x).exact <;> simp [hd, flagIf]

/-- DNF replaces a subnormal result alone (R77). -/
theorem Fmt.deliver_dnf (f : Fmt) (e : REnv) (neg : Bool) (x : Mag) :
    f.deliver { e with dnf := true } neg x =
      if f ≠ .dm8 ∧ 0 < (f.pos x).round e.rm neg e.srs ∧ (f.pos x).round e.rm neg e.srs < 2 ^ f.frac then ⟨f.zeroCode neg, flUF ||| flIX⟩
      else f.deliver { e with dnf := false } neg x := by
  by_cases h : f.maxRank < (f.pos x).round e.rm neg e.srs
  · have hfrac := f.two_pow_frac_le
    rw [if_neg (by omega), f.deliver_overflow (e := { e with dnf := true }) h, f.deliver_overflow (e := { e with dnf := false }) h]
    rfl
  · simp only [Fmt.deliver, if_neg h, Bool.true_and, Bool.false_and, Bool.false_eq_true, if_false, Bool.and_eq_true, decide_eq_true_eq, and_assoc]
    rfl

/-- Overflow under saturation, and in a format without infinity or NaN: the largest finite value (Table 4.8). -/
theorem Fmt.overflow_clamped {f : Fmt} {e : REnv} (neg : Bool) (h : e.sat = true ∨ f.specials = .none) :
    f.overflow e neg = ⟨f.maxCode neg, flOF ||| flIX ||| flSA⟩ := by
  unfold Fmt.overflow
  rcases h with h | h
  · rw [if_pos h]
  · rw [h]; exact ite_self _

/-- Overflow without saturation in a format with NaN alone: the NaN of the sign. -/
theorem Fmt.overflow_nan {f : Fmt} {e : REnv} (neg : Bool) (hs : e.sat = false) (h : f.specials = .nanOnly) :
    f.overflow e neg = ⟨f.signBit neg + f.nanCode, flOF ||| flIX⟩ := by
  simp [Fmt.overflow, hs, h]

/-- Overflow without saturation in a format with infinity: the mode chooses. -/
theorem Fmt.overflow_inf {f : Fmt} {e : REnv} (neg : Bool) (hs : e.sat = false) (h : f.hasInf = true) :
    f.overflow e neg = ⟨if e.rm = .rtz ∨ (e.rm = .rup ∧ neg = true) ∨ (e.rm = .rdn ∧ neg = false) then f.maxCode neg else f.infCode neg,
      flOF ||| flIX⟩ := by
  have hsp : f.specials = .ieee ∨ f.specials = .dm8 := by simpa [Fmt.hasInf] using h
  unfold Fmt.overflow
  rcases hsp with hsp | hsp <;> simp only [hs, hsp, Bool.false_eq_true, if_false] <;> cases e.rm <;> cases neg <;> rfl

/-- Every format saturates, has infinity, or is E4M3. -/
theorem Fmt.specials_cases (f : Fmt) : f.specials = .none ∨ f = .e4m3 ∨ f.hasInf = true := by cases f <;> decide

/-- The flags of overflow. -/
theorem Fmt.overflow_flags (f : Fmt) (e : REnv) (neg : Bool) :
    (f.overflow e neg).flags = if e.sat || f.specials = .none then flOF ||| flIX ||| flSA else flOF ||| flIX := by
  by_cases h : e.sat = true ∨ f.specials = .none
  · rw [Fmt.overflow_clamped neg h, if_pos (by simpa using h)]
  · obtain ⟨hsat, hsp⟩ := not_or.mp h
    have hs : e.sat = false := Bool.eq_false_iff.mpr hsat
    rw [if_neg (by simpa using h)]
    rcases f.specials_cases with hf | rfl | hf
    · exact absurd hf hsp
    · rw [Fmt.overflow_nan neg hs rfl]
    · rw [Fmt.overflow_inf neg hs hf]

/-! ### The statement -/

/-- An inexact result's flags: UF beside IX on its condition. -/
theorem inexactFlags_iff {P : Prop} {c : Bool} (h : c = true ↔ P) :
    (flIX ||| flagIf c flUF = flIX ||| flUF ↔ P) ∧ (flIX ||| flagIf c flUF = flIX ↔ ¬ P) := by
  rw [← h]
  cases c <;> decide

/-- IX is among them. -/
theorem inexactFlags_and (c : Bool) : (flIX ||| flagIf c flUF) &&& flIX = flIX := by cases c <;> decide

/-- In DM8 the code of a finite rank is zero for rank 0 alone. -/
theorem rankCode_dm8_eq_zero (neg : Bool) {r : Nat} (hr : r ≤ 126) : Fmt.dm8.rankCode neg r = 0 ↔ r = 0 := by
  revert r
  cases neg <;> decide +kernel

/-- Settles O11: the position of a magnitude spans two neighbouring ranks, each mode chooses between them by that position, and delivery
adds the flags; DNF and overflow are cases of the delivery. -/
theorem rounding : Obligations.Rounding := by
  refine ⟨?_, Fmt.deliver_dnf, ?_⟩
  · intro f e neg k x hdnf hk base mag p d scaled exact low high val tiny hlo
    have hspan : p.Spans low val high := f.pos_spans hk hlo
    have hround : p.round e.rm neg e.srs ≤ f.maxRank := by
      rcases p.round_eq_or e.rm neg e.srs with h | h <;> rw [h] <;> omega
    have hd := f.deliver_rounded hdnf hround
    have hcode : d.code = f.rankCode neg (p.round e.rm neg e.srs) := congrArg FRes.code hd
    refine ⟨hspan.low_le, hspan.lt_high, ?_, fun hv => ?_, fun hv => ?_⟩
    · rw [hcode]
      exact (p.round_eq_or e.rm neg e.srs).imp (congrArg _) (congrArg _)
    · rw [hspan.round_exact hv, if_pos (hspan.exact_iff.mpr hv)] at hd
      exact hd
    · have hx : p.exact = false := Bool.eq_false_iff.mpr (mt hspan.exact_iff.mp hv)
      have hflags : d.flags = flIX ||| flagIf (if f = .dm8 then decide (p.round e.rm neg e.srs = 0) else f.tiny e neg ⟨k, x, false⟩) flUF := by
        rw [show (f.pos ⟨k, x, false⟩).exact = false from hx] at hd
        exact congrArg FRes.flags hd
      refine ⟨by rw [hflags]; exact inexactFlags_and _, fun hm => ?_, fun hm => ?_, fun hm => ?_, fun hm h => ?_, fun hm h => ?_, fun hm h => ?_,
        fun hm h => ?_, fun hm => ?_, fun hf hrst => ?_, fun hf => ?_⟩
      · rw [hcode, hm, Pos.round_rtz]
      · rw [hcode, hm, hspan.round_rup hv]
      · rw [hcode, hm, hspan.round_rdn hv]
      · rw [hcode, hspan.round_nearest_low hm h]
      · rw [hcode, hspan.round_nearest_high hm h]
      · rw [hcode, hm, hspan.round_rne_tie h]
      · rw [hcode, hm, hspan.round_rna_tie h]
      · rw [hcode, hm, hspan.round_rst hv]
      · have htiny : f.tiny e neg ⟨k, x, false⟩ = true ↔ tiny := by
          have hbase : base = f.minExp := if_neg hf
          rw [f.tiny_iff hk hrst, ← hbase]
          simp only [belowNormal, ← Nat.mul_assoc]
          exact Iff.rfl
        rw [hflags, if_neg hf]
        exact inexactFlags_iff htiny
      · subst hf
        rw [hflags, if_pos rfl, hcode, Ne, rankCode_dm8_eq_zero neg hround]
        exact inexactFlags_iff decide_eq_true_iff
  · intro f e neg x h d
    have hd : d = f.overflow e neg := f.deliver_overflow h
    rw [hd]
    refine ⟨f.overflow_flags e neg, fun hc => ?_, fun hs hf => ?_, fun hs hf => ?_⟩
    · rw [Fmt.overflow_clamped neg hc]
    · subst hf
      rw [Fmt.overflow_nan neg hs rfl]
      cases neg <;> rfl
    · rw [Fmt.overflow_inf neg hs hf]

end Sys2Proof
end
